-- ==== Sys2Proof/Word.lean ====
section
/-! DEFINITION. Word types (R10, R149, R170). -/

namespace Sys2Proof

abbrev Byte := BitVec 8
abbrev W32 := BitVec 32
abbrev W64 := BitVec 64
/-- A lane mask of one group: bit l is lane l (R205), 32 lanes on the Tharak (R4). -/
abbrev Mask := BitVec 32
/-- Codes C, Z, N, V in bits 3 to 0 (R406). -/
abbrev Codes := BitVec 4

end Sys2Proof
end

