-- ==== Sys2Proof/Config.lean ====
section
/-! DEFINITION. What the Tharak fixes (R1 to R4), what the signed module configuration fixes, and the free values:
constants without a body, of which nothing can be proved. -/

namespace Sys2Proof.Config

/-- Lanes of a group (R4, R205). -/
def gwidth : Nat := 32
/-- Clusters of a slice and cores of a cluster (R2). -/
def clusters : Nat := 8
def coresPerCluster : Nat := 4
/-- Group slots of a core (R4). -/
def groupSlots : Nat := 48
/-- Store that windows may take on a core, in KiB (R72). -/
def storeKib : Nat := 1472
/-- Unified store of a core, in KiB (R4). -/
def unifiedKib : Nat := 1536

/-- Free values: the `i`-th number of draw `n`. A step that meets a value the manual leaves open applies this to the
counter `State.free` (log entry 8). -/
opaque free (n i : Nat) : Nat

/-- Byte `i` of a line written under one KEY_ID and read under another (R66). -/
opaque recrypt (part kOld kNew line : Nat) (data : List (BitVec 8)) (i : Nat) : BitVec 8

/-- The choice among the results that R317 allows a special function (numbered as major 0x1E numbers it) at an input. -/
opaque sfuChoice (fn x : Nat) : Nat

/-- A byte of host memory as a device read finds it (R453). -/
opaque hostByte (n addr : Nat) : BitVec 8

/-- The set of a last-level cache that takes a line, which the manual does not show (R111, R123). -/
opaque llcSet (line : Nat) : Nat

/-- The partition that holds the host link, if the module configuration names one (R450). -/
opaque linkHolder : Option Nat

/-- The partition named as management agent; none for the host link's management function (R20). -/
opaque managerPart : Option Nat

/-- The partitions that the module configuration forms at power-on: MCMD word, MARG0 and MARG1 (R457). -/
opaque bootForms : List (BitVec 64 × BitVec 64 × BitVec 64)

/-- The flash extent that the module configuration names for a partition, in 4 KiB blocks (R454). -/
opaque flashBlocks (part : Nat) : BitVec 64

/-- Blocks of flash that the module carries: 64 TB (R3), read as 64 · 10¹² bytes (DEDUCED, log 157). -/
def flashTotal : Nat := 15625000000

/-- Blocks left for a partition after those of the partitions below it. -/
def flashLeft : Nat → Nat
  | 0 => flashTotal
  | p + 1 => flashLeft p - (flashBlocks p).toNat

/-- The flash extent of a partition in 4 KiB blocks: the extents together do not exceed the module's flash. -/
def flashExtent (part : Nat) : BitVec 64 := BitVec.ofNat 64 (Nat.min (flashBlocks part).toNat (flashLeft part))

/-- Number of one-time keys of the attestation key (R458). -/
def attestKeys : Nat := 2 ^ 20

/-- Bytes of the attestation statement and signature that the module's manufacture fixes (R459): module serial,
digests, what follows the index in the XMSS signature under a key index over a statement, root and public seed of the key. -/
opaque attestSerial (i : Nat) : BitVec 8
opaque attestFirmwareDigest (i : Nat) : BitVec 8
opaque attestConfigDigest (i : Nat) : BitVec 8
opaque attestSignature (keyIndex : Nat) (statement : List (BitVec 8)) (i : Nat) : BitVec 8
opaque attestRoot (i : Nat) : BitVec 8
opaque attestSeed (i : Nat) : BitVec 8

/-- Static energy of a core in one interval, in units of 2⁻¹² pJ (R433). -/
opaque staticEnergy (n : Nat) : Nat

end Sys2Proof.Config
end

