-- ==== Sys2Proof/Syntax.lean ====
section
/-! DEFINITION. The steps of the module: one constructor for each row of spec/opcode_table.json. A row with an
instruction word carries the word's fields as its table row names them. A device step has no word and no operand:
which agent takes it, and with what, stands beside it in `StepArgs`. The markers W and S (R249, R251) belong to every
word and stand beside the instruction, not in it. -/

namespace Sys2Proof

/-- A block by partition, grid handle (R396) and linear block id (R204). -/
structure BlockKey where
  part : Nat
  grid : Nat
  blk : Nat
deriving DecidableEq, Repr, Inhabited

/-- A group by block and GROUPID (R204). -/
structure GroupKey where
  blk : BlockKey
  grp : Nat
deriving DecidableEq, Repr, Inhabited

/-- A core by slice and COREID (R204). -/
structure CoreKey where
  slice : Nat
  core : Nat
deriving DecidableEq, Repr, Inhabited

/-- Where a device register write goes (R11, R20, R24, R25, R223). -/
inductive RegTarget where
  /-- offset in the register window of slice `s` of partition `p` (R24) -/
  | window (p s off : Nat)
  /-- offset in the control block of partition `p` (R25) -/
  | control (p off : Nat)
  /-- MTC register: 0 MCMD, 1 MARG0, 2 MARG1, 3 MSTAT, 4 MLOGIDX, written by the management agent or not (R20) -/
  | mtc (auth : Bool) (n : Nat)
deriving DecidableEq, Repr

/-- What a home does with a request (R114): the operations of R113, R119 and host cores (R200). -/
inductive HomeOp where
  | load (size : Nat)
  | store (size : Nat) (v : BitVec 64)
  | amo (op : Nat) (size : Nat) (v v2 : BitVec 64)
  /-- load-reserved and store-conditional -/
  | reserve (size : Nat)
  | conditional (size : Nat) (v : BitVec 64)
  /-- a write of `hkeysel` (R67) -/
  | hkeysel (v : BitVec 12)
  /-- a request of the home itself to make room (R112) -/
  | evict
deriving DecidableEq, Repr

/-- A request of a host core or home (R114, R200): untranslated PPA, and whether it is made with V = 1 (R67); `key` is the
KEY_ID of a request that its home holds. With `ctl` it is made by the control core of that cluster of the slice, at `gva` in
the context of its grid (R239). -/
structure HomeReq where
  part : Nat
  slice : Nat
  hcore : Nat
  ppa : Nat
  virt : Bool
  op : HomeOp
  key : Option Nat
  ctl : Option Nat
  gva : BitVec 64
deriving DecidableEq, Repr

/-- What the home asks of a tracked agent (R113). -/
inductive FwdKind where
  | invalidate | forwardLoad | forwardStore | recall
deriving DecidableEq, Repr

/-- What patrol scrub finds in a line (R129). -/
inductive PatrolResult where
  | clean | correctable | uncorrectable
deriving DecidableEq, Repr

/-- A host access to the window of HDMWIN (R452). -/
structure HostReq where
  ppa : Nat
  store : Option (BitVec 512)
deriving DecidableEq, Repr

/-- A readiness bit that bring-up sets (R460). -/
inductive ReadyBit where
  | slice (s bit : Nat)
  | part (p bit : Nat)
deriving DecidableEq, Repr

/-- What wakes a slice (R462). -/
inductive WakeCause where
  | interrupt | claim | request | frame | move
deriving DecidableEq, Repr

/-- A transport packet (R439): the fields of its header in their widths, its reserved bits 15:9, 63:56 and 223:216 from the
lowest up, its payload, and its CRC-32. -/
structure Packet where
  ver : BitVec 4
  op : BitVec 4
  poison : Bool
  reserved : BitVec 23
  dpeer : BitVec 16
  snode : BitVec 24
  psn : BitVec 32
  msn : BitVec 32
  raddr : BitVec 64
  len : BitVec 16
  redop : BitVec 3
  rtype : BitVec 5
  ackpsn : BitVec 32
  payload : List Byte
  crc : BitVec 32
deriving DecidableEq, Repr

/-- An Ethernet II frame that carries a packet in IPv6 and UDP (R435). -/
structure Frame where
  dmac : BitVec 48
  smac : BitVec 48
  etherType : BitVec 16
  nextHeader : BitVec 8
  sip : BitVec 128
  dip : BitVec 128
  sport : BitVec 16
  dport : BitVec 16
  /-- the UDP checksum -/
  sum : BitVec 16
  packet : Packet
deriving DecidableEq, Repr

/-- What names the agent of a device step and what the step works on; each step reads the fields its rule names. -/
structure StepArgs where
  /-- the write comes from the management agent (R20) -/
  auth : Bool
  /-- a 64-bit value written, or a command word -/
  w : BitVec 64
  /-- the sending partition of a flit (R17) -/
  src : Option Nat
  part : Nat
  slice : Nat
  core : Nat
  cluster : Nat
  queue : Nat
  grid : Nat
  gang : Nat
  blk : Nat
  grp : Nat
  /-- fragment slot 1 -/
  frag : Bool
  /-- an index: an entry, a handle, a buffer, a route, a member -/
  n : Nat
  line : Nat
  ppa : Nat
  ctx : Nat
  gva : BitVec 64
  kind : BitVec 3
  priv : Bool
  ok : Bool
  up : Bool
  half : Bool
  hot : Bool
  /-- bytes the new block needs (R215); none for a drain or a stop of the harvest grid -/
  need : Option Nat
  reg : RegTarget
  req : HomeReq
  fwd : FwdKind
  patrol : PatrolResult
  host : HostReq
  ready : ReadyBit
  wake : WakeCause
  frame : Frame
  /-- a line the host wrote back (R452) -/
  data : Option (BitVec 512)
deriving DecidableEq, Repr

/-- The steps of the opcode table. -/
inductive Instr where
  /-- R277: Does nothing but advance the PC. -/
  | nop
  /-- R278: Ends every lane of the fragment and frees its slot. -/
  | exit
  /-- R279: Raises SOFTWARE with TADDR set to the immediate. -/
  | trap (i : BitVec 12)
  /-- R279: Raises BREAKPOINT with TADDR set to the immediate. -/
  | brk (i : BitVec 12)
  /-- R280: Exchanges the fragment with the top stack record or gives way to the other slot. -/
  | yield
  /-- R281: Makes the fragment not eligible for 64·i cycles. -/
  | sleep (i : BitVec 12)
  /-- R282: Returns a privileged group to user level at TPC. -/
  | eret
  /-- R254: Sets the selected MODE fields from the literal and returns the old MODE. -/
  | setm (d : BitVec 6) (i : BitVec 12) (lit : BitVec 32)
  /-- R254: Reads MODE into a uniform register. -/
  | getm (d : BitVec 6)
  /-- R283: Reads a special register into a uniform register. -/
  | movsr (d : BitVec 6) (i : BitVec 12)
  /-- R283: Writes a uniform register to a writable special register. -/
  | movrs (a : BitVec 6) (i : BitVec 12)
  /-- R284: Loads the overflow table from a uniform register after checks. -/
  | ldovt (b : BitVec 6)
  /-- R284: Reads the overflow table into a uniform register. -/
  | rdovt (d : BitVec 6)
  /-- R267: Branches unconditionally by a word offset. -/
  | bra (o : BitVec 24)
  /-- R267: Branches when the condition holds over the uniform flags. -/
  | brc (c : BitVec 4) (o : BitVec 20)
  /-- R267: PC-relative call that links and raises DEPTH. -/
  | brl (d : BitVec 6) (o : BitVec 18)
  /-- R268: Jumps to the address in a uniform register. -/
  | jmp (b : BitVec 6)
  /-- R268: Calls the address in a uniform register, linking and raising DEPTH. -/
  | jal (d : BitVec 6) (b : BitVec 6)
  /-- R268: Returns to the address in a uniform register and lowers DEPTH. -/
  | ret (b : BitVec 6)
  /-- R269: Branches per lane on condition codes, splitting the fragment on a mixed outcome. -/
  | brv (c : BitVec 4) (o : BitVec 20)
  /-- R271: Marks a reconvergence point and puts the fragment in WAIT_RCV. -/
  | rcv
  /-- R271: Waits until every live lane of the group is in one fragment at this point. -/
  | join
  /-- R273: Starts a hardware loop with its count from a uniform register. -/
  | loop (c : BitVec 2) (a : BitVec 6) (n : BitVec 8)
  /-- R273: Starts a hardware loop with an immediate count. -/
  | loopi (c : BitVec 2) (i : BitVec 14) (n : BitVec 8)
  /-- R276: Ends a loop and its inner loops and continues after its body. -/
  | brkl (i : BitVec 12)
  /-- R276: Reads a loop counter's COUNT. -/
  | rdlc (d : BitVec 6) (i : BitVec 12)
  /-- R276: Writes a loop counter's COUNT. -/
  | wrlc (i : BitVec 6) (b : BitVec 6)
  /-- R290: Vector integer add per sub-element. -/
  | add (d : BitVec 7) (a : BitVec 7) (b : BitVec 7)
  /-- R291: Vector add with the lane carry in. -/
  | adc (d : BitVec 7) (a : BitVec 7) (b : BitVec 7)
  /-- R290: Vector integer subtract. -/
  | sub (d : BitVec 7) (a : BitVec 7) (b : BitVec 7)
  /-- R291: Vector subtract with borrow from the lane carry. -/
  | sbb (d : BitVec 7) (a : BitVec 7) (b : BitVec 7)
  /-- R290: Vector integer multiply, low part. -/
  | mul (d : BitVec 7) (a : BitVec 7) (b : BitVec 7)
  /-- R290: Vector integer multiply, high part. -/
  | mulh (d : BitVec 7) (a : BitVec 7) (b : BitVec 7)
  /-- R290: Vector integer multiply-add into the destination. -/
  | mad (d : BitVec 7) (a : BitVec 7) (b : BitVec 7)
  /-- R290: Vector absolute difference. -/
  | absdiff (d : BitVec 7) (a : BitVec 7) (b : BitVec 7)
  /-- R293: Vector bitwise and. -/
  | and (d : BitVec 7) (a : BitVec 7) (b : BitVec 7)
  /-- R293: Vector bitwise or. -/
  | or (d : BitVec 7) (a : BitVec 7) (b : BitVec 7)
  /-- R293: Vector bitwise xor. -/
  | xor (d : BitVec 7) (a : BitVec 7) (b : BitVec 7)
  /-- R293: Vector and with complement. -/
  | andn (d : BitVec 7) (a : BitVec 7) (b : BitVec 7)
  /-- R294: Vector shift left. -/
  | shl (d : BitVec 7) (a : BitVec 7) (b : BitVec 7)
  /-- R294: Vector shift right. -/
  | shr (d : BitVec 7) (a : BitVec 7) (b : BitVec 7)
  /-- R294: Vector rotate left. -/
  | rol (d : BitVec 7) (a : BitVec 7) (b : BitVec 7)
  /-- R294: Vector rotate right. -/
  | ror (d : BitVec 7) (a : BitVec 7) (b : BitVec 7)
  /-- R290: Vector minimum. -/
  | min (d : BitVec 7) (a : BitVec 7) (b : BitVec 7)
  /-- R290: Vector maximum. -/
  | max (d : BitVec 7) (a : BitVec 7) (b : BitVec 7)
  /-- R298: Vector compare writing condition codes. -/
  | cmp (a : BitVec 7) (b : BitVec 7)
  /-- R298: Vector bit test writing condition codes. -/
  | test (a : BitVec 7) (b : BitVec 7)
  /-- R299: Selects per lane by the GUARD condition over every lane of the fragment. -/
  | sel (d : BitVec 7) (a : BitVec 7) (b : BitVec 7)
  /-- R300: Copies a vector lane. -/
  | mov (d : BitVec 7) (a : BitVec 7)
  /-- R295: Counts one bits per sub-element. -/
  | popc (d : BitVec 7) (a : BitVec 7)
  /-- R295: Counts leading zeros per sub-element. -/
  | clz (d : BitVec 7) (a : BitVec 7)
  /-- R295: Reverses bits per sub-element. -/
  | brev (d : BitVec 7) (a : BitVec 7)
  /-- R296: Extracts a bit field. -/
  | bfe (d : BitVec 7) (a : BitVec 7) (b : BitVec 7)
  /-- R296: Inserts a bit field into the destination. -/
  | bfi (d : BitVec 7) (a : BitVec 7) (b : BitVec 7)
  /-- R290: Vector absolute value. -/
  | abs (d : BitVec 7) (a : BitVec 7)
  /-- R290: Vector negate. -/
  | neg (d : BitVec 7) (a : BitVec 7)
  /-- R297: Widens an element by sign or zero extension. -/
  | ext (d : BitVec 7) (a : BitVec 7)
  /-- R292: Four-way 8-bit dot product accumulated into a 32-bit lane. -/
  | dot4 (d : BitVec 7) (a : BitVec 7) (b : BitVec 7)
  /-- R290: Vector add immediate. -/
  | addi (d : BitVec 7) (a : BitVec 7) (i : BitVec 10)
  /-- R290: Vector multiply by immediate. -/
  | muli (d : BitVec 7) (a : BitVec 7) (i : BitVec 10)
  /-- R294: Vector shift or rotate by an immediate amount. -/
  | shifti (d : BitVec 7) (a : BitVec 7) (o : BitVec 2) (n : BitVec 6)
  /-- R298: Vector compare with immediate writing condition codes. -/
  | cmpi (a : BitVec 7) (i : BitVec 10)
  /-- R300: Writes an immediate to every sub-element. -/
  | movi (d : BitVec 7) (i : BitVec 10)
  /-- R290: Vector add with a uniform operand. -/
  | addU (d : BitVec 7) (a : BitVec 7) (b : BitVec 6)
  /-- R290: Vector subtract with a uniform operand. -/
  | subU (d : BitVec 7) (a : BitVec 7) (b : BitVec 6)
  /-- R290: Vector multiply by a uniform operand. -/
  | mulU (d : BitVec 7) (a : BitVec 7) (b : BitVec 6)
  /-- R290: Vector multiply-add with a uniform operand. -/
  | madU (d : BitVec 7) (a : BitVec 7) (b : BitVec 6)
  /-- R293: Vector and with a uniform operand. -/
  | andU (d : BitVec 7) (a : BitVec 7) (b : BitVec 6)
  /-- R293: Vector or with a uniform operand. -/
  | orU (d : BitVec 7) (a : BitVec 7) (b : BitVec 6)
  /-- R293: Vector xor with a uniform operand. -/
  | xorU (d : BitVec 7) (a : BitVec 7) (b : BitVec 6)
  /-- R294: Vector shift left by a uniform amount. -/
  | shlU (d : BitVec 7) (a : BitVec 7) (b : BitVec 6)
  /-- R294: Vector shift right by a uniform amount. -/
  | shrU (d : BitVec 7) (a : BitVec 7) (b : BitVec 6)
  /-- R290: Vector minimum with a uniform operand. -/
  | minU (d : BitVec 7) (a : BitVec 7) (b : BitVec 6)
  /-- R290: Vector maximum with a uniform operand. -/
  | maxU (d : BitVec 7) (a : BitVec 7) (b : BitVec 6)
  /-- R298: Vector compare with a uniform operand. -/
  | cmpU (a : BitVec 7) (b : BitVec 6)
  /-- R313: f32 add with a uniform operand. -/
  | faddU (d : BitVec 7) (a : BitVec 7) (b : BitVec 6)
  /-- R313: f32 multiply by a uniform operand. -/
  | fmulU (d : BitVec 7) (a : BitVec 7) (b : BitVec 6)
  /-- R313: Fused f32 multiply-add with a uniform operand. -/
  | fmacU (d : BitVec 7) (a : BitVec 7) (b : BitVec 6)
  /-- R299: Selects between a vector and a uniform operand by GUARD. -/
  | selU (d : BitVec 7) (a : BitVec 7) (b : BitVec 6)
  /-- R313: f32 add. -/
  | fadd (d : BitVec 7) (a : BitVec 7) (b : BitVec 7)
  /-- R313: f32 subtract. -/
  | fsub (d : BitVec 7) (a : BitVec 7) (b : BitVec 7)
  /-- R313: f32 multiply. -/
  | fmul (d : BitVec 7) (a : BitVec 7) (b : BitVec 7)
  /-- R314: Fused f32 multiply-add. -/
  | fmac (d : BitVec 7) (a : BitVec 7) (b : BitVec 7)
  /-- R314: Fused f32 multiply-subtract. -/
  | fmsc (d : BitVec 7) (a : BitVec 7) (b : BitVec 7)
  /-- R313: f32 minimum. -/
  | fmin (d : BitVec 7) (a : BitVec 7) (b : BitVec 7)
  /-- R313: f32 maximum. -/
  | fmax (d : BitVec 7) (a : BitVec 7) (b : BitVec 7)
  /-- R315: f32 compare writing condition codes. -/
  | fcmp (a : BitVec 7) (b : BitVec 7)
  /-- R316: Clears the f32 sign bit. -/
  | fabs (d : BitVec 7) (a : BitVec 7)
  /-- R316: Inverts the f32 sign bit. -/
  | fneg (d : BitVec 7) (a : BitVec 7)
  /-- R316: Writes the f32 class word. -/
  | fclass (d : BitVec 7) (a : BitVec 7)
  /-- R316: Rounds f32 to an integral value. -/
  | frnd (d : BitVec 7) (a : BitVec 7)
  /-- R316: Copies the sign of one f32 onto another. -/
  | fcopysign (d : BitVec 7) (a : BitVec 7) (b : BitVec 7)
  /-- R323: Packed narrow float add. -/
  | faddp (d : BitVec 7) (a : BitVec 7) (b : BitVec 7)
  /-- R323: Packed narrow float subtract. -/
  | fsubp (d : BitVec 7) (a : BitVec 7) (b : BitVec 7)
  /-- R323: Packed narrow float multiply. -/
  | fmulp (d : BitVec 7) (a : BitVec 7) (b : BitVec 7)
  /-- R323: Packed narrow float maximum. -/
  | fmaxp (d : BitVec 7) (a : BitVec 7) (b : BitVec 7)
  /-- R323: Packed narrow float minimum. -/
  | fminp (d : BitVec 7) (a : BitVec 7) (b : BitVec 7)
  /-- R324: Packed dot product accumulated into f32. -/
  | fdotp (d : BitVec 7) (a : BitVec 7) (b : BitVec 7)
  /-- R325: Narrows and packs wide sub-elements of two registers. -/
  | fpack (d : BitVec 7) (a : BitVec 7) (b : BitVec 7)
  /-- R325: Widens narrow sub-elements into a register pair. -/
  | funpack (d : BitVec 7) (a : BitVec 7)
  /-- R317: f32 reciprocal. -/
  | frcp (d : BitVec 7) (a : BitVec 7)
  /-- R317: f32 reciprocal square root. -/
  | frsq (d : BitVec 7) (a : BitVec 7)
  /-- R317: f32 square root correctly rounded. -/
  | fsqrt (d : BitVec 7) (a : BitVec 7)
  /-- R317: f32 base-2 exponential. -/
  | fexp2 (d : BitVec 7) (a : BitVec 7)
  /-- R317: f32 base-2 logarithm. -/
  | flog2 (d : BitVec 7) (a : BitVec 7)
  /-- R317: f32 sine. -/
  | fsin (d : BitVec 7) (a : BitVec 7)
  /-- R317: f32 cosine. -/
  | fcos (d : BitVec 7) (a : BitVec 7)
  /-- R317: f32 hyperbolic tangent. -/
  | ftanh (d : BitVec 7) (a : BitVec 7)
  /-- R320: Converts one element per lane from a source type to MODE.TYPE. -/
  | cvt (d : BitVec 7) (a : BitVec 7) (i : BitVec 7)
  /-- R319: Converts with stochastic rounding. -/
  | cvtsr (d : BitVec 7) (a : BitVec 7) (i : BitVec 7)
  /-- R319: Seeds each active lane's stochastic state. -/
  | cvtsrSeed (a : BitVec 7)
  /-- R332: Reads each lane's value from a lane named by an index register. -/
  | shflIdx (d : BitVec 7) (a : BitVec 7) (b : BitVec 7)
  /-- R332: Reads from the lane an offset below. -/
  | shflUp (d : BitVec 7) (a : BitVec 7) (i : BitVec 7)
  /-- R332: Reads from the lane an offset above. -/
  | shflDn (d : BitVec 7) (a : BitVec 7) (i : BitVec 7)
  /-- R332: Reads from the lane index xor an offset. -/
  | shflXor (d : BitVec 7) (a : BitVec 7) (i : BitVec 7)
  /-- R332: Swaps values within quads. -/
  | qswap (d : BitVec 7) (a : BitVec 7) (q : BitVec 2) (y : BitVec 2)
  /-- R333: Reduces active lanes within segments. -/
  | lred (d : BitVec 7) (a : BitVec 7) (n : BitVec 3) (o : BitVec 3)
  /-- R333: Prefix-combines active lanes within segments. -/
  | scan (d : BitVec 7) (a : BitVec 7) (e : BitVec 1) (n : BitVec 3) (o : BitVec 3)
  /-- R334: Votes over active lanes into a uniform register. -/
  | vote (d : BitVec 6) (a : BitVec 7) (m : BitVec 2)
  /-- R335: Writes a lane mask of nonzero active lanes. -/
  | ballot (d : BitVec 6) (a : BitVec 7)
  /-- R336: Reads one lane into a uniform register. -/
  | rdlane (d : BitVec 6) (a : BitVec 7) (i : BitVec 7)
  /-- R336: Writes a uniform value into one active lane. -/
  | wrlane (d : BitVec 7) (a : BitVec 6) (i : BitVec 7)
  /-- R336: Broadcasts one lane to every active lane. -/
  | bcast (d : BitVec 7) (a : BitVec 7) (i : BitVec 7)
  /-- R337: Writes the lowest active lane holding an equal value. -/
  | matchLane (d : BitVec 7) (a : BitVec 7)
  /-- R337: Marks the lowest active lane. -/
  | elect (d : BitVec 7)
  /-- R337: Writes LANEID to each active lane. -/
  | lid (d : BitVec 7)
  /-- R337: Writes QUADID to each active lane. -/
  | qid (d : BitVec 7)
  /-- R302: Uniform add. -/
  | sadd (d : BitVec 6) (a : BitVec 6) (b : BitVec 6)
  /-- R302: Uniform subtract. -/
  | ssub (d : BitVec 6) (a : BitVec 6) (b : BitVec 6)
  /-- R302: Uniform multiply, low 64 bits. -/
  | smul (d : BitVec 6) (a : BitVec 6) (b : BitVec 6)
  /-- R302: Uniform signed multiply, high 64 bits. -/
  | smulh (d : BitVec 6) (a : BitVec 6) (b : BitVec 6)
  /-- R303: Uniform signed division. -/
  | sdiv (d : BitVec 6) (a : BitVec 6) (b : BitVec 6)
  /-- R303: Uniform signed remainder. -/
  | srem (d : BitVec 6) (a : BitVec 6) (b : BitVec 6)
  /-- R302: Uniform and. -/
  | sand (d : BitVec 6) (a : BitVec 6) (b : BitVec 6)
  /-- R302: Uniform or. -/
  | sor (d : BitVec 6) (a : BitVec 6) (b : BitVec 6)
  /-- R302: Uniform xor. -/
  | sxor (d : BitVec 6) (a : BitVec 6) (b : BitVec 6)
  /-- R302: Uniform shift left. -/
  | sshl (d : BitVec 6) (a : BitVec 6) (b : BitVec 6)
  /-- R302: Uniform logical shift right. -/
  | sshr (d : BitVec 6) (a : BitVec 6) (b : BitVec 6)
  /-- R302: Uniform arithmetic shift right. -/
  | ssra (d : BitVec 6) (a : BitVec 6) (b : BitVec 6)
  /-- R302: Uniform signed minimum. -/
  | smin (d : BitVec 6) (a : BitVec 6) (b : BitVec 6)
  /-- R302: Uniform signed maximum. -/
  | smax (d : BitVec 6) (a : BitVec 6) (b : BitVec 6)
  /-- R302: Uniform compare writing the uniform flags. -/
  | scmp (a : BitVec 6) (b : BitVec 6)
  /-- R302: Uniform select by GUARD over the uniform flags. -/
  | ssel (d : BitVec 6) (a : BitVec 6) (b : BitVec 6)
  /-- R302: Uniform move. -/
  | smov (d : BitVec 6) (a : BitVec 6)
  /-- R302: Uniform population count. -/
  | spopc (d : BitVec 6) (a : BitVec 6)
  /-- R302: Uniform leading-zero count. -/
  | sclz (d : BitVec 6) (a : BitVec 6)
  /-- R304: Uniform bit-field extract. -/
  | sbfe (d : BitVec 6) (a : BitVec 6) (b : BitVec 6)
  /-- R304: Uniform bit-field insert. -/
  | sbfi (d : BitVec 6) (a : BitVec 6) (b : BitVec 6)
  /-- R305: Uniform add immediate. -/
  | saddi (d : BitVec 6) (a : BitVec 6) (i : BitVec 12)
  /-- R305: Writes a sign-extended 32-bit literal to a uniform register. -/
  | smovl (d : BitVec 6) (lit : BitVec 32)
  /-- R305: Writes a literal to the high 32 bits of a uniform register. -/
  | smovh (d : BitVec 6) (lit : BitVec 32)
  /-- R346: Global vector load. -/
  | ld (t : BitVec 7) (o : BitVec 7) (b : BitVec 6) (n : BitVec 2) (r : BitVec 2)
  /-- R346: Global vector store. -/
  | st (t : BitVec 7) (o : BitVec 7) (b : BitVec 6) (n : BitVec 2) (r : BitVec 2)
  /-- R346: Global load with a literal byte offset. -/
  | ldx (t : BitVec 7) (o : BitVec 7) (b : BitVec 6) (n : BitVec 2) (r : BitVec 2) (lit : BitVec 32)
  /-- R346: Global store with a literal byte offset. -/
  | stx (t : BitVec 7) (o : BitVec 7) (b : BitVec 6) (n : BitVec 2) (r : BitVec 2) (lit : BitVec 32)
  /-- R346: Local-window load. -/
  | ldl (t : BitVec 7) (o : BitVec 7) (b : BitVec 6) (n : BitVec 2) (r : BitVec 2)
  /-- R346: Local-window store. -/
  | stl (t : BitVec 7) (o : BitVec 7) (b : BitVec 6) (n : BitVec 2) (r : BitVec 2)
  /-- R348: Waits for a full tag and loads the word. -/
  | ldf (t : BitVec 7) (o : BitVec 7) (b : BitVec 4) (r : BitVec 2)
  /-- R348: Waits for full, loads the word and empties the tag. -/
  | ldfTake (t : BitVec 7) (o : BitVec 7) (b : BitVec 4) (r : BitVec 2)
  /-- R348: Waits for empty, stores the word and fills the tag. -/
  | ste (t : BitVec 7) (o : BitVec 7) (b : BitVec 4) (r : BitVec 2)
  /-- R348: Stores the word and sets the tag full. -/
  | stf (t : BitVec 7) (o : BitVec 7) (b : BitVec 4) (r : BitVec 2)
  /-- R348: Sets a word's tag full. -/
  | tset (o : BitVec 7) (b : BitVec 4) (r : BitVec 2)
  /-- R348: Sets a word's tag empty. -/
  | tclr (o : BitVec 7) (b : BitVec 4) (r : BitVec 2)
  /-- R348: Reads a word's tag. -/
  | trd (t : BitVec 7) (o : BitVec 7) (b : BitVec 4) (r : BitVec 2)
  /-- R351: Value-returning atomic add, aggregated per address. -/
  | atomAdd (t : BitVec 7) (o : BitVec 7) (b : BitVec 4) (r : BitVec 2)
  /-- R351: Value-returning atomic minimum. -/
  | atomMin (t : BitVec 7) (o : BitVec 7) (b : BitVec 4) (r : BitVec 2)
  /-- R351: Value-returning atomic maximum. -/
  | atomMax (t : BitVec 7) (o : BitVec 7) (b : BitVec 4) (r : BitVec 2)
  /-- R351: Value-returning atomic and. -/
  | atomAnd (t : BitVec 7) (o : BitVec 7) (b : BitVec 4) (r : BitVec 2)
  /-- R351: Value-returning atomic or. -/
  | atomOr (t : BitVec 7) (o : BitVec 7) (b : BitVec 4) (r : BitVec 2)
  /-- R351: Value-returning atomic xor. -/
  | atomXor (t : BitVec 7) (o : BitVec 7) (b : BitVec 4) (r : BitVec 2)
  /-- R351: Atomic exchange, lanes of one address in ascending order. -/
  | atomExch (t : BitVec 7) (o : BitVec 7) (b : BitVec 4) (r : BitVec 2)
  /-- R351: Atomic compare-and-swap. -/
  | atomCas (t : BitVec 7) (o : BitVec 7) (b : BitVec 4) (r : BitVec 2)
  /-- R351: Atomic f32 add under rne. -/
  | atomFadd (t : BitVec 7) (o : BitVec 7) (b : BitVec 4) (r : BitVec 2)
  /-- R351: Atomic packed 16-bit float add. -/
  | atomFaddp (t : BitVec 7) (o : BitVec 7) (b : BitVec 4) (r : BitVec 2)
  /-- R351: Non-returning reduction add at the home. -/
  | redAdd (t : BitVec 7) (o : BitVec 7) (b : BitVec 4) (r : BitVec 2)
  /-- R351: Non-returning reduction minimum. -/
  | redMin (t : BitVec 7) (o : BitVec 7) (b : BitVec 4) (r : BitVec 2)
  /-- R351: Non-returning reduction maximum. -/
  | redMax (t : BitVec 7) (o : BitVec 7) (b : BitVec 4) (r : BitVec 2)
  /-- R351: Non-returning reduction and. -/
  | redAnd (t : BitVec 7) (o : BitVec 7) (b : BitVec 4) (r : BitVec 2)
  /-- R351: Non-returning reduction or. -/
  | redOr (t : BitVec 7) (o : BitVec 7) (b : BitVec 4) (r : BitVec 2)
  /-- R351: Non-returning reduction xor. -/
  | redXor (t : BitVec 7) (o : BitVec 7) (b : BitVec 4) (r : BitVec 2)
  /-- R351: Non-returning f32 add reduction. -/
  | redFadd (t : BitVec 7) (o : BitVec 7) (b : BitVec 4) (r : BitVec 2)
  /-- R351: Non-returning packed float add reduction. -/
  | redFaddp (t : BitVec 7) (o : BitVec 7) (b : BitVec 4) (r : BitVec 2)
  /-- R347: Uniform load into a uniform register. -/
  | ldu (t : BitVec 6) (b : BitVec 4) (r : BitVec 2)
  /-- R347: Uniform store from a uniform register. -/
  | stu (t : BitVec 6) (b : BitVec 4) (r : BitVec 2)
  /-- R351: Uniform atomic add. -/
  | atomuAdd (t : BitVec 6) (b : BitVec 4) (r : BitVec 2)
  /-- R351: Uniform atomic minimum. -/
  | atomuMin (t : BitVec 6) (b : BitVec 4) (r : BitVec 2)
  /-- R351: Uniform atomic maximum. -/
  | atomuMax (t : BitVec 6) (b : BitVec 4) (r : BitVec 2)
  /-- R351: Uniform atomic and. -/
  | atomuAnd (t : BitVec 6) (b : BitVec 4) (r : BitVec 2)
  /-- R351: Uniform atomic or. -/
  | atomuOr (t : BitVec 6) (b : BitVec 4) (r : BitVec 2)
  /-- R351: Uniform atomic xor. -/
  | atomuXor (t : BitVec 6) (b : BitVec 4) (r : BitVec 2)
  /-- R351: Uniform atomic exchange. -/
  | atomuExch (t : BitVec 6) (b : BitVec 4) (r : BitVec 2)
  /-- R351: Uniform atomic compare-and-swap. -/
  | atomuCas (t : BitVec 6) (b : BitVec 4) (r : BitVec 2)
  /-- R351: Uniform atomic f32 add. -/
  | atomuFadd (t : BitVec 6) (b : BitVec 4) (r : BitVec 2)
  /-- R351: Uniform atomic packed float add. -/
  | atomuFaddp (t : BitVec 6) (b : BitVec 4) (r : BitVec 2)
  /-- R176: Acquire, release or sc fence at MODE.SCOPE. -/
  | fence (i : BitVec 12)
  /-- R352: Writes back the issuing core's L1 lines over a range. -/
  | cwb (a : BitVec 6) (b : BitVec 6)
  /-- R352: Drops the issuing core's SC lines over a range. -/
  | cinv (a : BitVec 6) (b : BitVec 6)
  /-- R352: Writes back and drops L1 lines over a range. -/
  | cwbinv (a : BitVec 6) (b : BitVec 6)
  /-- R353: Fills a stash map entry mapping a local range onto global memory. -/
  | smap (d : BitVec 6) (a : BitVec 6) (b : BitVec 6)
  /-- R353: Writes back dirty stash lines and frees the entry. -/
  | sunmap (b : BitVec 6)
  /-- R353: Writes back dirty stash lines of an entry. -/
  | swb (b : BitVec 6)
  /-- R353: Invalidates an entry's stash lines without writeback. -/
  | sinv (b : BitVec 6)
  /-- R354: Saves whole registers to global memory. -/
  | spill (t : BitVec 7) (o : BitVec 7) (b : BitVec 6) (n : BitVec 2)
  /-- R354: Reloads whole registers from global memory. -/
  | fill (t : BitVec 7) (o : BitVec 7) (b : BitVec 6) (n : BitVec 2)
  /-- R355: Prefetches lines towards the core. -/
  | prf (o : BitVec 7) (b : BitVec 6) (n : BitVec 2)
  /-- R359: Opens a snapshot at the version clock. -/
  | snapopen (d : BitVec 6)
  /-- R359: Drops the group's snapshot reference. -/
  | snapclose
  /-- R360: Opens a transaction with an abort target. -/
  | txbegin (i : BitVec 12)
  /-- R361: Commits the open transaction and holds the fragment until done. -/
  | txcommit (d : BitVec 6)
  /-- R361: Aborts the open transaction with status 3. -/
  | txabort
  /-- R361: Reads the transaction status word. -/
  | txstat (d : BitVec 6)
  /-- R359: Reads the version clock. -/
  | vts (d : BitVec 6)
  /-- R362: Reads a descriptor and sets up a subscription. -/
  | subscribe (d : BitVec 6) (a : BitVec 6)
  /-- R363: Tears down a subscription by inbound handle. -/
  | unsub (b : BitVec 6)
  /-- R363: Waits until every update of the block's outbound entries is applied. -/
  | subflush
  /-- R363: Reads the status word of an inbound entry. -/
  | substatIn (d : BitVec 6) (h : BitVec 6)
  /-- R363: Reads the status word of an outbound entry. -/
  | substatOut (d : BitVec 6) (h : BitVec 6)
  /-- R364: Block barrier. -/
  | bar
  /-- R364: Gang barrier that also waits for subscription updates. -/
  | gbar
  /-- R365: Adds to a counter word with release. -/
  | arrive (a : BitVec 6) (b : BitVec 6)
  /-- R365: Waits until a counter reaches a target, with acquire. -/
  | cntwait (a : BitVec 6) (b : BitVec 6)
  /-- R366: Reads, checks and queues a copy request record. -/
  | kick (a : BitVec 6)
  /-- R371: Reserves a ring slot and launches a child grid. -/
  | launch (d : BitVec 6) (a : BitVec 6) (b : BitVec 6)
  /-- R379: Loads a plain or grist tile into a B slot through the mill. -/
  | bload (q : BitVec 3) (y : BitVec 4) (c : BitVec 3) (a : BitVec 6) (b : BitVec 6)
  /-- R382: Clears a B slot to FREE. -/
  | brel (q : BitVec 3)
  /-- R378: Loads a codebook table into a table slot. -/
  | tblld (c : BitVec 3) (a : BitVec 6)
  /-- R378: Reads a table slot's entries into lanes. -/
  | tblrd (d : BitVec 7) (c : BitVec 3)
  /-- R386: Multiplies A rows by a B slot tile and accumulates into a tile. -/
  | mma (c : BitVec 2) (q : BitVec 3) (y : BitVec 4) (a : BitVec 6) (b : BitVec 6)
  /-- R386: Zero-first matrix multiply-accumulate. -/
  | mmaZ (c : BitVec 2) (q : BitVec 3) (y : BitVec 4) (a : BitVec 6) (b : BitVec 6)
  /-- R389: Zeroes active rows of an accumulator tile. -/
  | accz (t : BitVec 2)
  /-- R389: Reads accumulator columns into vector registers with conversion. -/
  | accrd (t : BitVec 2) (v : BitVec 7) (b : BitVec 6) (n : BitVec 2)
  /-- R389: Writes vector registers into accumulator columns. -/
  | accwr (t : BitVec 2) (v : BitVec 7) (b : BitVec 6) (n : BitVec 2)
  /-- R389: Scales accumulator columns by a lane value. -/
  | accsc (t : BitVec 2) (v : BitVec 7) (b : BitVec 6) (n : BitVec 2)
  /-- R428: Reads an allowed event counter or returns 0 with V set. -/
  | perfrd (d : BitVec 6) (i : BitVec 12)
  /-- R428: Reads the group's energy counter word. -/
  | enrd (d : BitVec 6) (i : BitVec 12)
  /-- R428: Reads TTIME or REFNS. -/
  | tsrd (d : BitVec 6) (i : BitVec 12)
  /-- R428: Emits a MARK record in a traced stream. -/
  | sample (a : BitVec 6)
  /-- R21: MTC command that forms a partition from sealed slices, assigns buckets round-robin, opens shutters and starts network boot. -/
  | form
  /-- R21: MTC command that seals and scrubs every member of a partition and frees its key range. -/
  | dissolve
  /-- R33: MTC command that checks the resize preconditions, applies the source tops and starts moving one slice between partitions. -/
  | move
  /-- R21: MTC command that sets the HBM and second-tier tops of an existing partition after capacity and region checks. -/
  | tops
  /-- R32: MTC command that reserves a module key range for a partition id that no partition holds. -/
  | keys
  /-- R459: MTC command that reads a nonce and writes a signed attestation statement into a partition's buffer. -/
  | attest
  /-- R35: The DEADLINE expires with host cores still online, so MOVE ends with TIMEOUT and the shutter reopens. -/
  | drainTimeout
  /-- R36: The MTC starts moving the next bucket by setting TRANSIT and DEST in every table copy and awaiting acknowledgements. -/
  | migrateBucket
  /-- R36: Once a bucket's granules are copied, the MTC sets HOME to DEST, clears TRANSIT and releases held accesses. -/
  | bucketSwitch
  /-- R36: A granule copy fails on a link error and is retried; after 3 failures MOVE ends with MIGRATION_ERROR. -/
  | migrationError
  /-- R40: When the scrub ends, step 5 loads the target's keys, table and routes into the slice and opens its shutter. -/
  | scrubDone
  /-- R17: A shutter drops a flit whose partition id or class it does not pass and counts it. -/
  | flitRefused
  /-- R19: A non-fatal slice fault is reported to the owning partition and logged. -/
  | sliceFault
  /-- R19: A fatal slice fault seals the slice, reports it lost, sets its buckets LOST, or seals the whole partition if disconnected. -/
  | fatalSliceFault
  /-- R127: An uncorrectable error marks the data poisoned and reports a poison event to the owning partition. -/
  | uncorrectableError
  /-- R132: A flit whose CRC fails is retried by its link, and after 3 failures its payload is poisoned. -/
  | flitCrcFail
  /-- R30: A software write to an interrupt route entry takes effect only when source and target slices are members. -/
  | irtWrite
  /-- R11: A write to a device register that has no behaviour of its own stores the writable fields and clears W1C bits. -/
  | registerWrite
  /-- R53: A walker completes the context and table reads of a two-stage walk, inserting a translation or raising its fault. -/
  | translationWalk
  /-- R60: Invalidation command VA removes stage-1-derived translations of an ASID and VMID for a GVA page range. -/
  | xinvVa
  /-- R60: Invalidation command ASID removes every non-global stage-1-derived translation of an ASID and VMID. -/
  | xinvAsid
  /-- R60: Invalidation command VMS1 removes every stage-1-derived translation and walk-cache entry of a VMID. -/
  | xinvVms1
  /-- R60: Invalidation command IPA removes stage-2 translations of an IPA page range and everything derived from them. -/
  | xinvIpa
  /-- R60: Invalidation command VMID removes every translation and walk-cache entry of a VMID. -/
  | xinvVmid
  /-- R60: Invalidation command CTX removes a context-cache entry and every translation made under it. -/
  | xinvCtx
  /-- R60: Invalidation command ALL empties every translation cache of the partition. -/
  | xinvAll
  /-- R63: Command HARVEST reads and clears stage-2 dirty bits of an IPA range into a bitmap, then invalidates as IPA. -/
  | harvest
  /-- R61: An invalidation command completes across all member slices, increments SEQ and writes the completion word. -/
  | xinvComplete
  /-- R73: Clearing of newly allocated register and local windows finishes and the placed group becomes RUNNING. -/
  | windowClearDone
  /-- R86: The 64-byte line read for a first touch of an INVALID stash line returns and the line becomes CLEAN. -/
  | stashFill
  /-- R91: A lend writeback buffer finishes writing its harvest line back, or faults and stays busy. -/
  | lendWriteback
  /-- R98: An open subscription batch closes 32 cycles after it opened and is sent. -/
  | batchTimeout
  /-- R100: An inbound entry applies a received batch word by word, holding at a full handoff word. -/
  | batchApply
  /-- R105: An outbound entry takes a redirect naming a saved subscriber's image, closes its batch and sends a mark. -/
  | subRedirect
  /-- R105: The saving core receives the mark, writes earlier batches to the image and acknowledges it. -/
  | subMark
  /-- R106: An outbound entry writes a batch into a saved subscriber's image, data before tags, or posts reason 7 on fault. -/
  | memoryTargetWrite
  /-- R107: An outbound entry takes a resume naming the restoring core, completes image writes and replies ready. -/
  | subResume
  /-- R107: When every entry has replied ready, the restoring core loads window, tags and pending lists and applies them. -/
  | subReady
  /-- R114: A home accepts a request into a line's home order and serves it from its cache, directory and memory. -/
  | homeRequest
  /-- R113: A tracked agent receives an invalidation, forward or recall from the home and answers it. -/
  | homeForward
  /-- R113: The home receives an acknowledgement of an invalidation or recall and completes the waiting request. -/
  | invalidateAck
  /-- R122: An engine's claim of a destination line is granted exclusive at the home after any recall. -/
  | claim
  /-- R122: An engine releases a claimed line once its bytes are written back, committing it as a version if versioned. -/
  | claimRelease
  /-- R118: Maintenance command L1WB writes back dirty bytes of every L1 line in a PPA range and keeps the lines. -/
  | l1wb
  /-- R118: Maintenance command L1WBINV writes back and drops every L1 line in a PPA range. -/
  | l1wbinv
  /-- R118: A maintenance command completes or is discarded at the FIFO head and SEQ counts it. -/
  | cmComplete
  /-- R129: Patrol scrub reads a line in its period, corrects correctable errors and poisons uncorrectable lines. -/
  | patrolRead
  /-- R129: Writing 1 to MERR.CLR sets the correctable, uncorrectable and poison counts to zero. -/
  | merrClr
  /-- R133: The version sequencer issues the next commit timestamp, or refuses when ISSUED would pass its limit. -/
  | timestampRequest
  /-- R143: A commit's versions are all marked, the version clock advances and the waiting txcommit receives its result. -/
  | commitComplete
  /-- R147: The sparge collector runs a pass that reclaims every version not reachable from a live read timestamp. -/
  | spargePass
  /-- R145: Writing 1 to VPSTAT.RUN starts a sparge pass. -/
  | vpstatRun
  /-- R145: A write to VPBASE or VPSIZE is accepted or refused with ERR according to USED, HTOP and RECORDS. -/
  | vpoolWrite
  /-- R37: A group access held on a bucket in transit for 4 µs raises a deferred, replayable BUCKET_TRANSIT. -/
  | bucketTransit
  /-- R212: The fragment arbiter fuses two slots with equal PC and DEPTH into the lower slot. -/
  | arbiterFuse
  /-- R212: The arbiter pops the top reconvergence-stack record into a FREE slot. -/
  | arbiterPop
  /-- R212: With both slots in join states at different points, the arbiter pushes the higher-PC slot and takes the top record. -/
  | arbiterExchange
  /-- R212: With an empty stack the arbiter releases a WAIT_RCV fragment past its rcv. -/
  | arbiterReleaseRcv
  /-- R212: A lone fragment in WAIT_JOIN turns READY, or in WAIT_BAR makes its group arrive at the barrier. -/
  | arbiterJoinMet
  /-- R212: Both slots wait at different join or barrier points with an empty stack, raising ILLEGAL_OPERAND. -/
  | arbiterJoinError
  /-- R210: All data of a lagging fragment return and it turns READY. -/
  | lagDataReturn
  /-- R250: A variable-latency result, with its codes and flags, is written to its register or cellar copy. -/
  | resultWriteback
  /-- R215: A revocation starts: harvest groups stop issuing and their windows move to the cellar. -/
  | revocation
  /-- R215: A revocation ends within 128 cycles, freeing the harvest windows and slots for the new block. -/
  | revocationComplete
  /-- R217: A parked harvest group with free slot and store space copies its window and shadow back and resumes. -/
  | harvestResume
  /-- R217: A parked harvest group's save image is written once its outstanding results have arrived. -/
  | harvestSave
  /-- R222: Queue command ENABLE reads and checks a queue table entry and enables the queue. -/
  | qcmdEnable
  /-- R222: Queue command DISABLE stops the queue from reading slots and releases launch references of unread slots. -/
  | qcmdDisable
  /-- R221: Writing 1 to QCMD.ERR clears ERR before the rest of the write is examined. -/
  | qcmdErrClear
  /-- R223: A write to a queue port's NOTIFY stores the larger of the written and held values. -/
  | notify
  /-- R221: A write to SPOOL is ignored while any stack area is held. -/
  | spoolWrite
  /-- R224: The queue reads the ring slot at QRD, checks its lap and packet, or stops with OVR, or writes an error record. -/
  | queueReadSlot
  /-- R224: A queue waiting on an earlier-lap slot reads it again on the next NOTIFY write or after 1 µs. -/
  | wseqRetry
  /-- R229: The queue rereads a dependency word on its line's write or every 10 µs and accepts the packet once met. -/
  | dependencyCheck
  /-- R230: Once every earlier grid of its queue has completed, a marker writes CVAL to its completion word. -/
  | markerComplete
  /-- R230: When every block has exited and SC writeback finished, the grid writes its completion word and releases its snapshot. -/
  | gridComplete
  /-- R233: A slice distributor claims one gang from the dispatch lists and places it on a fitting cluster. -/
  | gangClaim
  /-- R235: After 1,024 fitting cycles elsewhere a restore entry is donated to any fitting cluster of its slice. -/
  | restoreDonate
  /-- R240: A read of CSR ccevent pops one control-core event or returns 0. -/
  | cceventRead
  /-- R281: A sleeping fragment becomes eligible again after 64·i cycles. -/
  | sleepExpire
  /-- R398: Fault command REPLAY reissues the faulting instruction with its done state or resumes the faulted agent. -/
  | fcmdReplay
  /-- R398: Fault command HANDLE continues the faulting fragment at privileged level at the handler address. -/
  | fcmdHandle
  /-- R399: Fault command KILL ends a grid's groups, requests and images, or aborts a waiting checkpoint. -/
  | fcmdKill
  /-- R400: Fault command STOP sends a stop request to every gang of a grid, making them restore entries. -/
  | fcmdStop
  /-- R400: Fault command STOP_HOLD stops a grid and keeps its gangs off the dispatch lists. -/
  | fcmdStopHold
  /-- R400: Fault command RELEASE returns a grid's held gangs to dispatch. -/
  | fcmdRelease
  /-- R395: A fault record is written to the slice's fault queue when room exists and FQHEAD advances. -/
  | faultPost
  /-- R402: 65,536 cycles after a stop request, unstopped slots stop for a full save and a watchdog notice is posted. -/
  | watchdogExpire
  /-- R401: Once every slot is stopped and every access performed, the block's save image is written and its windows freed. -/
  | groupSave
  /-- R407: A restored block loads its group images, gives new handles and re-posts pending faults before issuing. -/
  | restore
  /-- R404: A write to SVPOOL is ignored while any chunk is in use. -/
  | svpoolWrite
  /-- R87: A block's exit completes after stash writeback and publisher drain, freeing its windows. -/
  | blockExit
  /-- R409: A write to TRCTL takes effect at the next cycle boundary of every selected core. -/
  | trctlWrite
  /-- R409: A write to TRBASE is ignored while trace is enabled. -/
  | trbaseWrite
  /-- R410: A trace frame is written to the ring once there is room and TRHEAD advances. -/
  | traceFrameWrite
  /-- R410: A frame is written 4,096 cycles after its first packet. -/
  | frameAgeTimer
  /-- R413: A BR packet is emitted 256 cycles after its first outcome. -/
  | brFlushTimer
  /-- R416: A SYNCP period ends and each stream emits a SYNC before its next packet. -/
  | syncPeriod
  /-- R421: At each SAMPP period the trace unit writes SAMPLE records for the next traced group slot. -/
  | sampleRound
  /-- R433: Every 2,048 cycles a core apportions its static energy among resident and parked groups. -/
  | energyInterval
  /-- R436: A port link goes up or down, updating UP and raising interrupt source kind 3. -/
  | linkStateChange
  /-- R444: A received PUT message is checked and written at the receiver as an engine write, once per MSN. -/
  | netPut
  /-- R444: A received GETREQ is read at the receiver and answered with a GETRSP. -/
  | netGetreq
  /-- R444: A received GETRSP writes its payload to the requester's destination, poisoned if marked. -/
  | netGetrsp
  /-- R444: A received RED message performs each element as a reduction at its home. -/
  | netRed
  /-- R446: A received LAUNCH message is checked against the queue and ACL and reserved, copied and notified. -/
  | netLaunch
  /-- R441: A received ACK frees acknowledged replay entries and advances APPLIED. -/
  | netAck
  /-- R441: A received NAK triggers retransmission after a gap or ends the message's request with status REMOTE. -/
  | netNak
  /-- R442: A received SKIP lets the receiver's acknowledgement pass a PSN whose replay entry was corrupt. -/
  | netSkip
  /-- R441: After RTO with no acknowledgement the sender retransmits, ending requests with REMOTE after 16 sends. -/
  | retransmitTimeout
  /-- R444: Every write of a received message is performed at its home, APPLIED advances and an ACK is sent. -/
  | appliedAdvance
  /-- R366: A copy request engine starts its next queued request after the previous completion word is written. -/
  | engineRequestStart
  /-- R369: A copy request ends and writes its completion word with status. -/
  | engineComplete
  /-- R370: A translation fault stops a copy request and posts an asynchronous record against the kicking grid. -/
  | engineFault
  /-- R449: A CKCMD write takes a snapshot and starts striping the descriptor's segments to the members. -/
  | checkpointStart
  /-- R449: A member acknowledges all its units and its header is written, the last one releasing the snapshot and writing completion. -/
  | checkpointMemberDone
  /-- R451: A write to HDMWIN exposes or removes the host window, back-invalidating host copies when disabled. -/
  | hdmwinWrite
  /-- R452: A host access to the window is served at its home at system scope, recorded in the snoop filter. -/
  | hostRequest
  /-- R452: The host answers a back-invalidation and the held device access proceeds after its write-back. -/
  | biResponse
  /-- R454: A write to the flash doorbell stores the larger of the written and held values. -/
  | fldb
  /-- R454: A write to FLRING is ignored while enabled, except one that clears EN once read requests complete. -/
  | flringWrite
  /-- R455: The flash controller reads the next ring entry when FLCONS is below the doorbell and starts the request. -/
  | flashEntryRead
  /-- R456: A flash READ, WRITE or TRIM finishes and its STATUS is written with release. -/
  | flashComplete
  /-- R457: At power-on the MTC ROM verifies firmware and configuration, forms partitions and starts boot host cores. -/
  | powerOn
  /-- R457: After a failed check the MTC accepts a new image over the host link. -/
  | bootImageLoad
  /-- R460: A function finishes bring-up and sets its readiness bit, releasing held accesses. -/
  | readiness
  /-- R461: An idle slice enters the deepest power state within its partition's latency tolerance. -/
  | powerStateEnter
  /-- R462: An interrupt, claim, request, frame or MOVE starts a sleeping slice's return to S0. -/
  | powerWake
  /-- R462: The exit latency ends, the slice is in S0 and waiting requests proceed. -/
  | wakeComplete
  /-- R463: Each millisecond over power or temperature limits the MTC lowers, or after clearing restores, the core clock by 100 MHz. -/
  | thermalStep
  /-- R456: On power loss hold-up energy finishes accepted flash writes and the module loses all other state. -/
  | powerLoss
  /-- R381: A mill load that passed every check commits its tile, scales and type to the B slot in one step. -/
  | bloadCommit
  /-- R388: An executing mma ends and writes its accumulator tile rows. -/
  | mmaComplete
  /-- R349: A tagged wait, cntwait, subflush or gang-barrier update wait that has lasted 2^LIMIT cycles ends with TAG_TIMEOUT and its unserved lanes are withdrawn. -/
  | tagTimeout
  /-- R365: A global cntwait that is waiting reads its counter again at the home at least every 1 µs. -/
  | cntwaitRecheck
  /-- R21: The scrub of the members of a dissolved partition ends, the key range is freed and the DISSOLVE command finishes with its result. -/
  | dissolveScrubDone
  /-- R450: A change on the PCIe/CXL host link raises interrupt source kind 5 on the link holder's lowest slice. -/
  | hostLinkEvent
deriving DecidableEq, Repr

namespace StepArgs

def zero : StepArgs where
  auth := false
  w := 0
  src := none
  part := 0
  slice := 0
  core := 0
  cluster := 0
  queue := 0
  grid := 0
  gang := 0
  blk := 0
  grp := 0
  frag := false
  n := 0
  line := 0
  ppa := 0
  ctx := 0
  gva := 0
  kind := 0
  priv := false
  ok := false
  up := false
  half := false
  hot := false
  need := none
  reg := .window 0 0 0
  req := ⟨0, 0, 0, 0, false, .evict, none, none, 0⟩
  fwd := .invalidate
  patrol := .clean
  host := ⟨0, none⟩
  ready := .slice 0 0
  wake := .interrupt
  frame := ⟨0, 0, 0, 0, 0, 0, 0, 0, 0, ⟨0, 0, false, 0, 0, 0, 0, 0, 0, 0, 0, 0, 0, [], 0⟩⟩
  data := none

def block (a : StepArgs) : BlockKey := ⟨a.part, a.grid, a.blk⟩
def group (a : StepArgs) : GroupKey := ⟨a.block, a.grp⟩
def coreKey (a : StepArgs) : CoreKey := ⟨a.slice, a.core⟩
def packet (a : StepArgs) : Packet := a.frame.packet

end StepArgs

/-- A device step with its arguments. -/
structure Event where
  step : Instr
  args : StepArgs
deriving DecidableEq, Repr

end Sys2Proof
end

