-- ==== Sys2Proof/WellFormed.lean ====
section
/-! DEFINITION. The codes of an instruction's fields that the chapters assign (R247): a term that fails is no
instruction of the machine. -/

namespace Sys2Proof

/-- imm7 of shfl.up, shfl.dn and shfl.xor (R329): with REL, bits 5:3 are zero and k is 1 to 4. -/
def shflImmOk (i : BitVec 7) : Bool :=
  !i.getLsbD 6 || (i.extractLsb' 3 3 == 0 && 1 ≤ (i.extractLsb' 0 3).toNat && (i.extractLsb' 0 3).toNat ≤ 4)

/-- imm7 of cvt and cvtsr (R319): SRC is a TYPE code up to 0x11. -/
def cvtImmOk (i : BitVec 7) : Bool := (i.extractLsb' 0 5).toNat ≤ 0x11

/-- Every code of an encoded field that R247 calls unassigned is refused. -/
def Instr.wf : Instr → Bool
  | .brc c _ => c != 15
  | .brv c _ => c != 15
  | .loop c _ _ => c != 3
  | .loopi c _ _ => c != 3
  | .brkl i => i.toNat ≤ 2
  | .rdlc _ i => i.toNat ≤ 2
  | .wrlc i _ => i.toNat ≤ 2
  | .setm _ i _ => i.toNat < 128
  | .cvt _ _ i => cvtImmOk i
  | .cvtsr _ _ i => cvtImmOk i
  | .shflUp _ _ i => shflImmOk i
  | .shflDn _ _ i => shflImmOk i
  | .shflXor _ _ i => shflImmOk i
  | .qswap _ _ q y => q == 0 || y == 3
  | .lred _ _ n o => n != 7 && o != 7
  | .scan _ _ _ n o => n != 7 && o != 7
  | .vote _ _ m => m != 3
  | .fence i => 1 ≤ i.toNat && i.toNat ≤ 3
  | .substatIn _ h => h.toNat ≤ 15
  | .substatOut _ h => h.toNat ≤ 15
  | .bload _ y _ a _ => y.toNat ≤ 10 && !a.getLsbD 0
  | .mma _ _ y _ _ => y.toNat ≤ 10
  | .mmaZ _ _ y _ _ => y.toNat ≤ 10
  | .perfrd _ i => i.toNat ≤ 0xFF
  | .enrd _ i => i == 0
  | .tsrd _ i => i.toNat ≤ 1
  | _ => true

end Sys2Proof
end

