-- ==== Sys2Proof/Decode.lean ====
section
/-! DEFINITION. Instruction words and their bytes (R244 to R248, R256 to R258): the decoder, total on any bytes and
rejecting by name, and the encoder written from the same tables. -/

namespace Sys2Proof

/-- Why a word is no instruction; each raises ILLEGAL_INSTRUCTION (R247). `tooShort` names a list of bytes that ends
inside the instruction. -/
inductive DecodeError where
  | reservedMajor | reservedFn | reservedField | reservedCode | tooShort
deriving DecidableEq, Repr

/-- A decoded instruction with its markers W (R249) and S (R251) and its size in words (R248). -/
structure Decoded where
  instr : Instr
  w : Bool
  s : Bool
  words : Nat
deriving DecidableEq, Repr

/-- Fields of format V3 (R245), high to low. -/
structure V3Fields where
  d : BitVec 7
  a : BitVec 7
  b : BitVec 7
  fn : BitVec 3
deriving DecidableEq, Repr

/-- Bits 23:0 cut as format V3 lays them out. -/
def splitV3 (f : BitVec 24) : V3Fields := ⟨f.extractLsb' 17 7, f.extractLsb' 10 7, f.extractLsb' 3 7, f.extractLsb' 0 3⟩

/-- Bits 23:0 of format V3, put together. -/
def joinV3 (x : V3Fields) : BitVec 24 := x.d ++ x.a ++ x.b ++ x.fn

/-- Fields of format VI (R245), high to low. -/
structure VIFields where
  d : BitVec 7
  a : BitVec 7
  i : BitVec 10
deriving DecidableEq, Repr

/-- Bits 23:0 cut as format VI lays them out. -/
def splitVI (f : BitVec 24) : VIFields := ⟨f.extractLsb' 17 7, f.extractLsb' 10 7, f.extractLsb' 0 10⟩

/-- Bits 23:0 of format VI, put together. -/
def joinVI (x : VIFields) : BitVec 24 := x.d ++ x.a ++ x.i

/-- Fields of format VU (R245), high to low. -/
structure VUFields where
  d : BitVec 7
  a : BitVec 7
  b : BitVec 6
  fn : BitVec 4
deriving DecidableEq, Repr

/-- Bits 23:0 cut as format VU lays them out. -/
def splitVU (f : BitVec 24) : VUFields := ⟨f.extractLsb' 17 7, f.extractLsb' 10 7, f.extractLsb' 4 6, f.extractLsb' 0 4⟩

/-- Bits 23:0 of format VU, put together. -/
def joinVU (x : VUFields) : BitVec 24 := x.d ++ x.a ++ x.b ++ x.fn

/-- Fields of format U3 (R245), high to low. -/
structure U3Fields where
  d : BitVec 6
  a : BitVec 6
  b : BitVec 6
  fn : BitVec 6
deriving DecidableEq, Repr

/-- Bits 23:0 cut as format U3 lays them out. -/
def splitU3 (f : BitVec 24) : U3Fields := ⟨f.extractLsb' 18 6, f.extractLsb' 12 6, f.extractLsb' 6 6, f.extractLsb' 0 6⟩

/-- Bits 23:0 of format U3, put together. -/
def joinU3 (x : U3Fields) : BitVec 24 := x.d ++ x.a ++ x.b ++ x.fn

/-- Fields of format UI (R245), high to low. -/
structure UIFields where
  d : BitVec 6
  a : BitVec 6
  i : BitVec 12
deriving DecidableEq, Repr

/-- Bits 23:0 cut as format UI lays them out. -/
def splitUI (f : BitVec 24) : UIFields := ⟨f.extractLsb' 18 6, f.extractLsb' 12 6, f.extractLsb' 0 12⟩

/-- Bits 23:0 of format UI, put together. -/
def joinUI (x : UIFields) : BitVec 24 := x.d ++ x.a ++ x.i

/-- Fields of format L (R245), high to low. -/
structure LFields where
  d : BitVec 6
  z : BitVec 18
deriving DecidableEq, Repr

/-- Bits 23:0 cut as format L lays them out. -/
def splitL (f : BitVec 24) : LFields := ⟨f.extractLsb' 18 6, f.extractLsb' 0 18⟩

/-- Bits 23:0 of format L, put together. -/
def joinL (x : LFields) : BitVec 24 := x.d ++ x.z

/-- Fields of format M (R245), high to low. -/
structure MFields where
  t : BitVec 7
  o : BitVec 7
  b : BitVec 6
  n : BitVec 2
  r : BitVec 2
deriving DecidableEq, Repr

/-- Bits 23:0 cut as format M lays them out. -/
def splitM (f : BitVec 24) : MFields := ⟨f.extractLsb' 17 7, f.extractLsb' 10 7, f.extractLsb' 4 6, f.extractLsb' 2 2, f.extractLsb' 0 2⟩

/-- Bits 23:0 of format M, put together. -/
def joinM (x : MFields) : BitVec 24 := x.t ++ x.o ++ x.b ++ x.n ++ x.r

/-- Fields of format MF (R245), high to low. -/
structure MFFields where
  t : BitVec 7
  o : BitVec 7
  b : BitVec 4
  fn : BitVec 4
  r : BitVec 2
deriving DecidableEq, Repr

/-- Bits 23:0 cut as format MF lays them out. -/
def splitMF (f : BitVec 24) : MFFields := ⟨f.extractLsb' 17 7, f.extractLsb' 10 7, f.extractLsb' 6 4, f.extractLsb' 2 4, f.extractLsb' 0 2⟩

/-- Bits 23:0 of format MF, put together. -/
def joinMF (x : MFFields) : BitVec 24 := x.t ++ x.o ++ x.b ++ x.fn ++ x.r

/-- Fields of format B (R245), high to low. -/
structure BFields where
  o : BitVec 24
deriving DecidableEq, Repr

/-- Bits 23:0 cut as format B lays them out. -/
def splitB (f : BitVec 24) : BFields := ⟨f.extractLsb' 0 24⟩

/-- Bits 23:0 of format B, put together. -/
def joinB (x : BFields) : BitVec 24 := x.o

/-- Fields of format C (R245), high to low. -/
structure CFields where
  c : BitVec 4
  o : BitVec 20
deriving DecidableEq, Repr

/-- Bits 23:0 cut as format C lays them out. -/
def splitC (f : BitVec 24) : CFields := ⟨f.extractLsb' 20 4, f.extractLsb' 0 20⟩

/-- Bits 23:0 of format C, put together. -/
def joinC (x : CFields) : BitVec 24 := x.c ++ x.o

/-- Fields of format BL (R245), high to low. -/
structure BLFields where
  d : BitVec 6
  o : BitVec 18
deriving DecidableEq, Repr

/-- Bits 23:0 cut as format BL lays them out. -/
def splitBL (f : BitVec 24) : BLFields := ⟨f.extractLsb' 18 6, f.extractLsb' 0 18⟩

/-- Bits 23:0 of format BL, put together. -/
def joinBL (x : BLFields) : BitVec 24 := x.d ++ x.o

/-- Fields of format RJ (R245), high to low. -/
structure RJFields where
  fn : BitVec 2
  z : BitVec 22
deriving DecidableEq, Repr

/-- Bits 23:0 cut as format RJ lays them out. -/
def splitRJ (f : BitVec 24) : RJFields := ⟨f.extractLsb' 22 2, f.extractLsb' 0 22⟩

/-- Bits 23:0 of format RJ, put together. -/
def joinRJ (x : RJFields) : BitVec 24 := x.fn ++ x.z

/-- Fields of format LP (R245), high to low. -/
structure LPFields where
  c : BitVec 2
  a : BitVec 6
  z : BitVec 8
  n : BitVec 8
deriving DecidableEq, Repr

/-- Bits 23:0 cut as format LP lays them out. -/
def splitLP (f : BitVec 24) : LPFields := ⟨f.extractLsb' 22 2, f.extractLsb' 16 6, f.extractLsb' 8 8, f.extractLsb' 0 8⟩

/-- Bits 23:0 of format LP, put together. -/
def joinLP (x : LPFields) : BitVec 24 := x.c ++ x.a ++ x.z ++ x.n

/-- Fields of format LPI (R245), high to low. -/
structure LPIFields where
  c : BitVec 2
  i : BitVec 14
  n : BitVec 8
deriving DecidableEq, Repr

/-- Bits 23:0 cut as format LPI lays them out. -/
def splitLPI (f : BitVec 24) : LPIFields := ⟨f.extractLsb' 22 2, f.extractLsb' 8 14, f.extractLsb' 0 8⟩

/-- Bits 23:0 of format LPI, put together. -/
def joinLPI (x : LPIFields) : BitVec 24 := x.c ++ x.i ++ x.n

/-- Fields of format X (R245), high to low. -/
structure XFields where
  d : BitVec 6
  a : BitVec 6
  b : BitVec 6
  fn : BitVec 6
deriving DecidableEq, Repr

/-- Bits 23:0 cut as format X lays them out. -/
def splitX (f : BitVec 24) : XFields := ⟨f.extractLsb' 18 6, f.extractLsb' 12 6, f.extractLsb' 6 6, f.extractLsb' 0 6⟩

/-- Bits 23:0 of format X, put together. -/
def joinX (x : XFields) : BitVec 24 := x.d ++ x.a ++ x.b ++ x.fn

/-- Fields of format BT (R245), high to low. -/
structure BTFields where
  fn : BitVec 2
  q : BitVec 3
  y : BitVec 4
  c : BitVec 3
  a : BitVec 6
  b : BitVec 6
deriving DecidableEq, Repr

/-- Bits 23:0 cut as format BT lays them out. -/
def splitBT (f : BitVec 24) : BTFields := ⟨f.extractLsb' 22 2, f.extractLsb' 19 3, f.extractLsb' 15 4, f.extractLsb' 12 3, f.extractLsb' 6 6, f.extractLsb' 0 6⟩

/-- Bits 23:0 of format BT, put together. -/
def joinBT (x : BTFields) : BitVec 24 := x.fn ++ x.q ++ x.y ++ x.c ++ x.a ++ x.b

/-- Fields of format MM (R245), high to low. -/
structure MMFields where
  c : BitVec 2
  q : BitVec 3
  z : BitVec 1
  y : BitVec 4
  a : BitVec 6
  b : BitVec 6
  g : BitVec 2
deriving DecidableEq, Repr

/-- Bits 23:0 cut as format MM lays them out. -/
def splitMM (f : BitVec 24) : MMFields := ⟨f.extractLsb' 22 2, f.extractLsb' 19 3, f.extractLsb' 18 1, f.extractLsb' 14 4, f.extractLsb' 8 6, f.extractLsb' 2 6, f.extractLsb' 0 2⟩

/-- Bits 23:0 of format MM, put together. -/
def joinMM (x : MMFields) : BitVec 24 := x.c ++ x.q ++ x.z ++ x.y ++ x.a ++ x.b ++ x.g

/-- Fields of format AC (R245), high to low. -/
structure ACFields where
  fn : BitVec 2
  t : BitVec 2
  v : BitVec 7
  b : BitVec 6
  n : BitVec 2
  g : BitVec 5
deriving DecidableEq, Repr

/-- Bits 23:0 cut as format AC lays them out. -/
def splitAC (f : BitVec 24) : ACFields := ⟨f.extractLsb' 22 2, f.extractLsb' 20 2, f.extractLsb' 13 7, f.extractLsb' 7 6, f.extractLsb' 5 2, f.extractLsb' 0 5⟩

/-- Bits 23:0 of format AC, put together. -/
def joinAC (x : ACFields) : BitVec 24 := x.fn ++ x.t ++ x.v ++ x.b ++ x.n ++ x.g


/-- A field that a function does not name must be zero (R256). -/
def zeroed (c : Prop) [Decidable c] (i : Instr) : Except DecodeError Instr :=
  if c then .ok i else .error .reservedField

/-- Major 0x00 (R256). -/
def dec00 (x : XFields) : Except DecodeError Instr :=
  match x.fn.toNat with
  | 0 => zeroed (x.d = 0#6 ∧ x.a = 0#6 ∧ x.b = 0#6) .nop
  | 1 => zeroed (x.d = 0#6 ∧ x.a = 0#6 ∧ x.b = 0#6) .exit
  | 2 => zeroed (x.d = 0#6) (.trap (x.a ++ x.b))
  | 3 => zeroed (x.d = 0#6) (.brk (x.a ++ x.b))
  | 4 => zeroed (x.d = 0#6 ∧ x.a = 0#6 ∧ x.b = 0#6) .yield
  | 5 => zeroed (x.d = 0#6) (.sleep (x.a ++ x.b))
  | 6 => zeroed (x.d = 0#6 ∧ x.a = 0#6 ∧ x.b = 0#6) .eret
  | _ => .error .reservedFn

/-- Major 0x01 (R256). -/
def dec01 (x : XFields) (lit : BitVec 32) : Except DecodeError Instr :=
  match x.fn.toNat with
  | 0 => .ok (.setm x.d (x.a ++ x.b) lit)
  | 1 => zeroed (x.a = 0#6 ∧ x.b = 0#6) (.getm x.d)
  | 2 => .ok (.movsr x.d (x.a ++ x.b))
  | 3 => .ok (.movrs x.d (x.a ++ x.b))
  | 4 => zeroed (x.d = 0#6 ∧ x.a = 0#6) (.ldovt x.b)
  | 5 => zeroed (x.a = 0#6 ∧ x.b = 0#6) (.rdovt x.d)
  | _ => .error .reservedFn

/-- Major 0x02 (R256). -/
def dec02 (x : BFields) : Except DecodeError Instr :=
  .ok (.bra x.o)

/-- Major 0x03 (R256). -/
def dec03 (x : CFields) : Except DecodeError Instr :=
  .ok (.brc x.c x.o)

/-- Major 0x04 (R256). -/
def dec04 (x : BLFields) : Except DecodeError Instr :=
  .ok (.brl x.d x.o)

/-- Major 0x05 (R256). -/
def dec05 (x : XFields) : Except DecodeError Instr :=
  match x.fn.toNat with
  | 0 => zeroed (x.d = 0#6 ∧ x.a = 0#6) (.jmp x.b)
  | 1 => zeroed (x.a = 0#6) (.jal x.d x.b)
  | 2 => zeroed (x.d = 0#6 ∧ x.a = 0#6) (.ret x.b)
  | _ => .error .reservedFn

/-- Major 0x06 (R256). -/
def dec06 (x : CFields) : Except DecodeError Instr :=
  .ok (.brv x.c x.o)

/-- Major 0x07 (R256). -/
def dec07 (x : RJFields) : Except DecodeError Instr :=
  match x.fn.toNat with
  | 0 => zeroed (x.z = 0#22) .rcv
  | 1 => zeroed (x.z = 0#22) .join
  | _ => .error .reservedFn

/-- Major 0x08 (R256). -/
def dec08 (x : LPFields) : Except DecodeError Instr :=
  zeroed (x.z = 0#8) (.loop x.c x.a x.n)

/-- Major 0x09 (R256). -/
def dec09 (x : LPIFields) : Except DecodeError Instr :=
  .ok (.loopi x.c x.i x.n)

/-- Major 0x0A (R256). -/
def dec0A (x : XFields) : Except DecodeError Instr :=
  match x.fn.toNat with
  | 0 => zeroed (x.d = 0#6) (.brkl (x.a ++ x.b))
  | 1 => .ok (.rdlc x.d (x.a ++ x.b))
  | 2 => zeroed (x.d = 0#6) (.wrlc x.a x.b)
  | _ => .error .reservedFn

/-- Major 0x10 (R256). -/
def dec10 (x : V3Fields) : Except DecodeError Instr :=
  match x.fn.toNat with
  | 0 => .ok (.add x.d x.a x.b)
  | 1 => .ok (.adc x.d x.a x.b)
  | 2 => .ok (.sub x.d x.a x.b)
  | 3 => .ok (.sbb x.d x.a x.b)
  | 4 => .ok (.mul x.d x.a x.b)
  | 5 => .ok (.mulh x.d x.a x.b)
  | 6 => .ok (.mad x.d x.a x.b)
  | 7 => .ok (.absdiff x.d x.a x.b)
  | _ => .error .reservedFn

/-- Major 0x11 (R256). -/
def dec11 (x : V3Fields) : Except DecodeError Instr :=
  match x.fn.toNat with
  | 0 => .ok (.and x.d x.a x.b)
  | 1 => .ok (.or x.d x.a x.b)
  | 2 => .ok (.xor x.d x.a x.b)
  | 3 => .ok (.andn x.d x.a x.b)
  | 4 => .ok (.shl x.d x.a x.b)
  | 5 => .ok (.shr x.d x.a x.b)
  | 6 => .ok (.rol x.d x.a x.b)
  | 7 => .ok (.ror x.d x.a x.b)
  | _ => .error .reservedFn

/-- Major 0x12 (R256). -/
def dec12 (x : V3Fields) : Except DecodeError Instr :=
  match x.fn.toNat with
  | 0 => .ok (.min x.d x.a x.b)
  | 1 => .ok (.max x.d x.a x.b)
  | 2 => zeroed (x.d = 0#7) (.cmp x.a x.b)
  | 3 => zeroed (x.d = 0#7) (.test x.a x.b)
  | 4 => .ok (.sel x.d x.a x.b)
  | 5 => zeroed (x.b = 0#7) (.mov x.d x.a)
  | 6 => zeroed (x.b = 0#7) (.popc x.d x.a)
  | 7 => zeroed (x.b = 0#7) (.clz x.d x.a)
  | _ => .error .reservedFn

/-- Major 0x13 (R256). -/
def dec13 (x : V3Fields) : Except DecodeError Instr :=
  match x.fn.toNat with
  | 0 => zeroed (x.b = 0#7) (.brev x.d x.a)
  | 1 => .ok (.bfe x.d x.a x.b)
  | 2 => .ok (.bfi x.d x.a x.b)
  | 3 => zeroed (x.b = 0#7) (.abs x.d x.a)
  | 4 => zeroed (x.b = 0#7) (.neg x.d x.a)
  | 5 => zeroed (x.b = 0#7) (.ext x.d x.a)
  | 6 => .ok (.dot4 x.d x.a x.b)
  | _ => .error .reservedFn

/-- Major 0x14 (R256). -/
def dec14 (x : VIFields) : Except DecodeError Instr :=
  .ok (.addi x.d x.a x.i)

/-- Major 0x15 (R256). -/
def dec15 (x : VIFields) : Except DecodeError Instr :=
  .ok (.muli x.d x.a x.i)

/-- Major 0x16 (R256). -/
def dec16 (x : VIFields) : Except DecodeError Instr :=
  zeroed (x.i.extractLsb' 6 2 = 0#2) (.shifti x.d x.a (x.i.extractLsb' 8 2) (x.i.extractLsb' 0 6))

/-- Major 0x17 (R256). -/
def dec17 (x : VIFields) : Except DecodeError Instr :=
  zeroed (x.d = 0#7) (.cmpi x.a x.i)

/-- Major 0x18 (R256). -/
def dec18 (x : VIFields) : Except DecodeError Instr :=
  zeroed (x.a = 0#7) (.movi x.d x.i)

/-- Major 0x19 (R256). -/
def dec19 (x : VUFields) : Except DecodeError Instr :=
  match x.fn.toNat with
  | 0 => .ok (.addU x.d x.a x.b)
  | 1 => .ok (.subU x.d x.a x.b)
  | 2 => .ok (.mulU x.d x.a x.b)
  | 3 => .ok (.madU x.d x.a x.b)
  | 4 => .ok (.andU x.d x.a x.b)
  | 5 => .ok (.orU x.d x.a x.b)
  | 6 => .ok (.xorU x.d x.a x.b)
  | 7 => .ok (.shlU x.d x.a x.b)
  | 8 => .ok (.shrU x.d x.a x.b)
  | 9 => .ok (.minU x.d x.a x.b)
  | 10 => .ok (.maxU x.d x.a x.b)
  | 11 => zeroed (x.d = 0#7) (.cmpU x.a x.b)
  | 12 => .ok (.faddU x.d x.a x.b)
  | 13 => .ok (.fmulU x.d x.a x.b)
  | 14 => .ok (.fmacU x.d x.a x.b)
  | 15 => .ok (.selU x.d x.a x.b)
  | _ => .error .reservedFn

/-- Major 0x1A (R256). -/
def dec1A (x : V3Fields) : Except DecodeError Instr :=
  match x.fn.toNat with
  | 0 => .ok (.fadd x.d x.a x.b)
  | 1 => .ok (.fsub x.d x.a x.b)
  | 2 => .ok (.fmul x.d x.a x.b)
  | 3 => .ok (.fmac x.d x.a x.b)
  | 4 => .ok (.fmsc x.d x.a x.b)
  | 5 => .ok (.fmin x.d x.a x.b)
  | 6 => .ok (.fmax x.d x.a x.b)
  | 7 => zeroed (x.d = 0#7) (.fcmp x.a x.b)
  | _ => .error .reservedFn

/-- Major 0x1B (R256). -/
def dec1B (x : V3Fields) : Except DecodeError Instr :=
  match x.fn.toNat with
  | 0 => zeroed (x.b = 0#7) (.fabs x.d x.a)
  | 1 => zeroed (x.b = 0#7) (.fneg x.d x.a)
  | 2 => zeroed (x.b = 0#7) (.fclass x.d x.a)
  | 3 => zeroed (x.b = 0#7) (.frnd x.d x.a)
  | 4 => .ok (.fcopysign x.d x.a x.b)
  | _ => .error .reservedFn

/-- Major 0x1C (R256). -/
def dec1C (x : V3Fields) : Except DecodeError Instr :=
  match x.fn.toNat with
  | 0 => .ok (.faddp x.d x.a x.b)
  | 1 => .ok (.fsubp x.d x.a x.b)
  | 2 => .ok (.fmulp x.d x.a x.b)
  | 3 => .ok (.fmaxp x.d x.a x.b)
  | 4 => .ok (.fminp x.d x.a x.b)
  | 5 => .ok (.fdotp x.d x.a x.b)
  | 6 => .ok (.fpack x.d x.a x.b)
  | 7 => zeroed (x.b = 0#7) (.funpack x.d x.a)
  | _ => .error .reservedFn

/-- Major 0x1E (R256). -/
def dec1E (x : V3Fields) : Except DecodeError Instr :=
  match x.fn.toNat with
  | 0 => zeroed (x.b = 0#7) (.frcp x.d x.a)
  | 1 => zeroed (x.b = 0#7) (.frsq x.d x.a)
  | 2 => zeroed (x.b = 0#7) (.fsqrt x.d x.a)
  | 3 => zeroed (x.b = 0#7) (.fexp2 x.d x.a)
  | 4 => zeroed (x.b = 0#7) (.flog2 x.d x.a)
  | 5 => zeroed (x.b = 0#7) (.fsin x.d x.a)
  | 6 => zeroed (x.b = 0#7) (.fcos x.d x.a)
  | 7 => zeroed (x.b = 0#7) (.ftanh x.d x.a)
  | _ => .error .reservedFn

/-- Major 0x1F (R256). -/
def dec1F (x : V3Fields) : Except DecodeError Instr :=
  match x.fn.toNat with
  | 0 => .ok (.cvt x.d x.a x.b)
  | 1 => if x.b = 127#7 then zeroed (x.d = 0#7) (.cvtsrSeed x.a) else .ok (.cvtsr x.d x.a x.b)
  | _ => .error .reservedFn

/-- Major 0x20 (R256). -/
def dec20 (x : V3Fields) : Except DecodeError Instr :=
  match x.fn.toNat with
  | 0 => .ok (.shflIdx x.d x.a x.b)
  | 1 => .ok (.shflUp x.d x.a x.b)
  | 2 => .ok (.shflDn x.d x.a x.b)
  | 3 => .ok (.shflXor x.d x.a x.b)
  | 4 => zeroed (x.b.extractLsb' 4 3 = 0#3) (.qswap x.d x.a (x.b.extractLsb' 2 2) (x.b.extractLsb' 0 2))
  | 5 => zeroed (x.b.extractLsb' 6 1 = 0#1) (.lred x.d x.a (x.b.extractLsb' 3 3) (x.b.extractLsb' 0 3))
  | 6 => .ok (.scan x.d x.a (x.b.extractLsb' 6 1) (x.b.extractLsb' 3 3) (x.b.extractLsb' 0 3))
  | 7 => zeroed (x.d.extractLsb' 6 1 = 0#1 ∧ x.b.extractLsb' 2 5 = 0#5) (.vote (x.d.extractLsb' 0 6) x.a (x.b.extractLsb' 0 2))
  | _ => .error .reservedFn

/-- Major 0x21 (R256). -/
def dec21 (x : V3Fields) : Except DecodeError Instr :=
  match x.fn.toNat with
  | 0 => zeroed (x.d.extractLsb' 6 1 = 0#1 ∧ x.b = 0#7) (.ballot (x.d.extractLsb' 0 6) x.a)
  | 1 => zeroed (x.d.extractLsb' 6 1 = 0#1) (.rdlane (x.d.extractLsb' 0 6) x.a x.b)
  | 2 => zeroed (x.a.extractLsb' 6 1 = 0#1) (.wrlane x.d (x.a.extractLsb' 0 6) x.b)
  | 3 => .ok (.bcast x.d x.a x.b)
  | 4 => zeroed (x.b = 0#7) (.matchLane x.d x.a)
  | 5 => zeroed (x.a = 0#7 ∧ x.b = 0#7) (.elect x.d)
  | 6 => zeroed (x.a = 0#7 ∧ x.b = 0#7) (.lid x.d)
  | 7 => zeroed (x.a = 0#7 ∧ x.b = 0#7) (.qid x.d)
  | _ => .error .reservedFn

/-- Major 0x22 (R256). -/
def dec22 (x : U3Fields) : Except DecodeError Instr :=
  match x.fn.toNat with
  | 0 => .ok (.sadd x.d x.a x.b)
  | 1 => .ok (.ssub x.d x.a x.b)
  | 2 => .ok (.smul x.d x.a x.b)
  | 3 => .ok (.smulh x.d x.a x.b)
  | 4 => .ok (.sdiv x.d x.a x.b)
  | 5 => .ok (.srem x.d x.a x.b)
  | 6 => .ok (.sand x.d x.a x.b)
  | 7 => .ok (.sor x.d x.a x.b)
  | 8 => .ok (.sxor x.d x.a x.b)
  | 9 => .ok (.sshl x.d x.a x.b)
  | 10 => .ok (.sshr x.d x.a x.b)
  | 11 => .ok (.ssra x.d x.a x.b)
  | 12 => .ok (.smin x.d x.a x.b)
  | 13 => .ok (.smax x.d x.a x.b)
  | 14 => zeroed (x.d = 0#6) (.scmp x.a x.b)
  | 15 => .ok (.ssel x.d x.a x.b)
  | 16 => zeroed (x.b = 0#6) (.smov x.d x.a)
  | 17 => zeroed (x.b = 0#6) (.spopc x.d x.a)
  | 18 => zeroed (x.b = 0#6) (.sclz x.d x.a)
  | 19 => .ok (.sbfe x.d x.a x.b)
  | 20 => .ok (.sbfi x.d x.a x.b)
  | _ => .error .reservedFn

/-- Major 0x23 (R256). -/
def dec23 (x : UIFields) : Except DecodeError Instr :=
  .ok (.saddi x.d x.a x.i)

/-- Major 0x24 (R256). -/
def dec24 (x : LFields) (lit : BitVec 32) : Except DecodeError Instr :=
  zeroed (x.z = 0#18) (.smovl x.d lit)

/-- Major 0x25 (R256). -/
def dec25 (x : LFields) (lit : BitVec 32) : Except DecodeError Instr :=
  zeroed (x.z = 0#18) (.smovh x.d lit)

/-- Major 0x28 (R256). -/
def dec28 (x : MFields) : Except DecodeError Instr :=
  .ok (.ld x.t x.o x.b x.n x.r)

/-- Major 0x29 (R256). -/
def dec29 (x : MFields) : Except DecodeError Instr :=
  .ok (.st x.t x.o x.b x.n x.r)

/-- Major 0x2A (R256). -/
def dec2A (x : MFields) (lit : BitVec 32) : Except DecodeError Instr :=
  .ok (.ldx x.t x.o x.b x.n x.r lit)

/-- Major 0x2B (R256). -/
def dec2B (x : MFields) (lit : BitVec 32) : Except DecodeError Instr :=
  .ok (.stx x.t x.o x.b x.n x.r lit)

/-- Major 0x2C (R256). -/
def dec2C (x : MFields) : Except DecodeError Instr :=
  .ok (.ldl x.t x.o x.b x.n x.r)

/-- Major 0x2D (R256). -/
def dec2D (x : MFields) : Except DecodeError Instr :=
  .ok (.stl x.t x.o x.b x.n x.r)

/-- Major 0x2E (R256). -/
def dec2E (x : MFFields) : Except DecodeError Instr :=
  match x.fn.toNat with
  | 0 => .ok (.ldf x.t x.o x.b x.r)
  | 1 => .ok (.ldfTake x.t x.o x.b x.r)
  | 2 => .ok (.ste x.t x.o x.b x.r)
  | 3 => .ok (.stf x.t x.o x.b x.r)
  | 4 => zeroed (x.t = 0#7) (.tset x.o x.b x.r)
  | 5 => zeroed (x.t = 0#7) (.tclr x.o x.b x.r)
  | 6 => .ok (.trd x.t x.o x.b x.r)
  | _ => .error .reservedFn

/-- Major 0x2F (R256). -/
def dec2F (x : MFFields) : Except DecodeError Instr :=
  match x.fn.toNat with
  | 0 => .ok (.atomAdd x.t x.o x.b x.r)
  | 1 => .ok (.atomMin x.t x.o x.b x.r)
  | 2 => .ok (.atomMax x.t x.o x.b x.r)
  | 3 => .ok (.atomAnd x.t x.o x.b x.r)
  | 4 => .ok (.atomOr x.t x.o x.b x.r)
  | 5 => .ok (.atomXor x.t x.o x.b x.r)
  | 6 => .ok (.atomExch x.t x.o x.b x.r)
  | 7 => .ok (.atomCas x.t x.o x.b x.r)
  | 8 => .ok (.atomFadd x.t x.o x.b x.r)
  | 9 => .ok (.atomFaddp x.t x.o x.b x.r)
  | _ => .error .reservedFn

/-- Major 0x30 (R256). -/
def dec30 (x : MFFields) : Except DecodeError Instr :=
  match x.fn.toNat with
  | 0 => .ok (.redAdd x.t x.o x.b x.r)
  | 1 => .ok (.redMin x.t x.o x.b x.r)
  | 2 => .ok (.redMax x.t x.o x.b x.r)
  | 3 => .ok (.redAnd x.t x.o x.b x.r)
  | 4 => .ok (.redOr x.t x.o x.b x.r)
  | 5 => .ok (.redXor x.t x.o x.b x.r)
  | 8 => .ok (.redFadd x.t x.o x.b x.r)
  | 9 => .ok (.redFaddp x.t x.o x.b x.r)
  | _ => .error .reservedFn

/-- Major 0x31 (R256). -/
def dec31 (x : MFFields) : Except DecodeError Instr :=
  match x.fn.toNat with
  | 0 => zeroed (x.t.extractLsb' 6 1 = 0#1 ∧ x.o = 0#7) (.ldu (x.t.extractLsb' 0 6) x.b x.r)
  | 1 => zeroed (x.t.extractLsb' 6 1 = 0#1 ∧ x.o = 0#7) (.stu (x.t.extractLsb' 0 6) x.b x.r)
  | 2 => zeroed (x.t.extractLsb' 6 1 = 0#1 ∧ x.o = 0#7) (.atomuAdd (x.t.extractLsb' 0 6) x.b x.r)
  | 3 => zeroed (x.t.extractLsb' 6 1 = 0#1 ∧ x.o = 0#7) (.atomuMin (x.t.extractLsb' 0 6) x.b x.r)
  | 4 => zeroed (x.t.extractLsb' 6 1 = 0#1 ∧ x.o = 0#7) (.atomuMax (x.t.extractLsb' 0 6) x.b x.r)
  | 5 => zeroed (x.t.extractLsb' 6 1 = 0#1 ∧ x.o = 0#7) (.atomuAnd (x.t.extractLsb' 0 6) x.b x.r)
  | 6 => zeroed (x.t.extractLsb' 6 1 = 0#1 ∧ x.o = 0#7) (.atomuOr (x.t.extractLsb' 0 6) x.b x.r)
  | 7 => zeroed (x.t.extractLsb' 6 1 = 0#1 ∧ x.o = 0#7) (.atomuXor (x.t.extractLsb' 0 6) x.b x.r)
  | 8 => zeroed (x.t.extractLsb' 6 1 = 0#1 ∧ x.o = 0#7) (.atomuExch (x.t.extractLsb' 0 6) x.b x.r)
  | 9 => zeroed (x.t.extractLsb' 6 1 = 0#1 ∧ x.o = 0#7) (.atomuCas (x.t.extractLsb' 0 6) x.b x.r)
  | 10 => zeroed (x.t.extractLsb' 6 1 = 0#1 ∧ x.o = 0#7) (.atomuFadd (x.t.extractLsb' 0 6) x.b x.r)
  | 11 => zeroed (x.t.extractLsb' 6 1 = 0#1 ∧ x.o = 0#7) (.atomuFaddp (x.t.extractLsb' 0 6) x.b x.r)
  | _ => .error .reservedFn

/-- Major 0x32 (R256). -/
def dec32 (x : XFields) : Except DecodeError Instr :=
  match x.fn.toNat with
  | 0 => zeroed (x.d = 0#6) (.fence (x.a ++ x.b))
  | 1 => zeroed (x.d = 0#6) (.cwb x.a x.b)
  | 2 => zeroed (x.d = 0#6) (.cinv x.a x.b)
  | 3 => zeroed (x.d = 0#6) (.cwbinv x.a x.b)
  | _ => .error .reservedFn

/-- Major 0x33 (R256). -/
def dec33 (x : XFields) : Except DecodeError Instr :=
  match x.fn.toNat with
  | 0 => .ok (.smap x.d x.a x.b)
  | 1 => zeroed (x.d = 0#6 ∧ x.a = 0#6) (.sunmap x.b)
  | 2 => zeroed (x.d = 0#6 ∧ x.a = 0#6) (.swb x.b)
  | 3 => zeroed (x.d = 0#6 ∧ x.a = 0#6) (.sinv x.b)
  | _ => .error .reservedFn

/-- Major 0x34 (R256). -/
def dec34 (x : MFields) : Except DecodeError Instr :=
  if x.r = 0#2 then .ok (.spill x.t x.o x.b x.n) else if x.r = 1#2 then .ok (.fill x.t x.o x.b x.n) else .error .reservedFn

/-- Major 0x35 (R256). -/
def dec35 (x : MFields) : Except DecodeError Instr :=
  zeroed (x.t = 0#7 ∧ x.r = 0#2) (.prf x.o x.b x.n)

/-- Major 0x36 (R256). -/
def dec36 (x : XFields) : Except DecodeError Instr :=
  match x.fn.toNat with
  | 0 => zeroed (x.a = 0#6 ∧ x.b = 0#6) (.snapopen x.d)
  | 1 => zeroed (x.d = 0#6 ∧ x.a = 0#6 ∧ x.b = 0#6) .snapclose
  | 2 => zeroed (x.d = 0#6) (.txbegin (x.a ++ x.b))
  | 3 => zeroed (x.a = 0#6 ∧ x.b = 0#6) (.txcommit x.d)
  | 4 => zeroed (x.d = 0#6 ∧ x.a = 0#6 ∧ x.b = 0#6) .txabort
  | 5 => zeroed (x.a = 0#6 ∧ x.b = 0#6) (.txstat x.d)
  | 6 => zeroed (x.a = 0#6 ∧ x.b = 0#6) (.vts x.d)
  | _ => .error .reservedFn

/-- Major 0x37 (R256). -/
def dec37 (x : XFields) : Except DecodeError Instr :=
  match x.fn.toNat with
  | 0 => zeroed (x.b = 0#6) (.subscribe x.d x.a)
  | 1 => zeroed (x.d = 0#6 ∧ x.a = 0#6) (.unsub x.b)
  | 2 => zeroed (x.d = 0#6 ∧ x.a = 0#6 ∧ x.b = 0#6) .subflush
  | 3 => if x.b = 0#6 then .ok (.substatIn x.d x.a) else if x.b = 1#6 then .ok (.substatOut x.d x.a) else .error .reservedField
  | _ => .error .reservedFn

/-- Major 0x38 (R256). -/
def dec38 (x : XFields) : Except DecodeError Instr :=
  match x.fn.toNat with
  | 0 => zeroed (x.d = 0#6 ∧ x.a = 0#6 ∧ x.b = 0#6) .bar
  | 1 => zeroed (x.d = 0#6 ∧ x.a = 0#6 ∧ x.b = 0#6) .gbar
  | 2 => zeroed (x.d = 0#6) (.arrive x.a x.b)
  | 3 => zeroed (x.d = 0#6) (.cntwait x.a x.b)
  | _ => .error .reservedFn

/-- Major 0x39 (R256). -/
def dec39 (x : XFields) : Except DecodeError Instr :=
  match x.fn.toNat with
  | 0 => zeroed (x.d = 0#6 ∧ x.b = 0#6) (.kick x.a)
  | 1 => .ok (.launch x.d x.a x.b)
  | _ => .error .reservedFn

/-- Major 0x3A (R256). -/
def dec3A (x : BTFields) : Except DecodeError Instr :=
  match x.fn.toNat with
  | 0 => .ok (.bload x.q x.y x.c x.a x.b)
  | 1 => zeroed (x.y = 0#4 ∧ x.c = 0#3 ∧ x.a = 0#6 ∧ x.b = 0#6) (.brel x.q)
  | 2 => zeroed (x.q = 0#3 ∧ x.y = 0#4 ∧ x.b = 0#6) (.tblld x.c x.a)
  | 3 => zeroed (x.a = 0#6 ∧ x.b = 0#6) (.tblrd (x.q ++ x.y) x.c)
  | _ => .error .reservedFn

/-- Major 0x3B (R256). -/
def dec3B (x : MMFields) : Except DecodeError Instr :=
  if x.g ≠ 0#2 then .error .reservedField
  else if x.z = 1#1 then .ok (.mmaZ x.c x.q x.y x.a x.b) else .ok (.mma x.c x.q x.y x.a x.b)

/-- Major 0x3C (R256). -/
def dec3C (x : ACFields) : Except DecodeError Instr :=
  match x.fn.toNat with
  | 0 => zeroed (x.v = 0#7 ∧ x.b = 0#6 ∧ x.n = 0#2 ∧ x.g = 0#5) (.accz x.t)
  | 1 => zeroed (x.g = 0#5) (.accrd x.t x.v x.b x.n)
  | 2 => zeroed (x.g = 0#5) (.accwr x.t x.v x.b x.n)
  | 3 => zeroed (x.g = 0#5) (.accsc x.t x.v x.b x.n)
  | _ => .error .reservedFn

/-- Major 0x3D (R256). -/
def dec3D (x : XFields) : Except DecodeError Instr :=
  match x.fn.toNat with
  | 0 => .ok (.perfrd x.d (x.a ++ x.b))
  | 1 => .ok (.enrd x.d (x.a ++ x.b))
  | 2 => .ok (.tsrd x.d (x.a ++ x.b))
  | 3 => zeroed (x.d = 0#6 ∧ x.b = 0#6) (.sample x.a)
  | _ => .error .reservedFn


/-- Bits 29:0 of a word and its literal, before the codes are checked (R256). -/
def decodeRaw (major : BitVec 6) (f : BitVec 24) (lit : W32) : Except DecodeError Instr :=
  match major.toNat with
  | 0x00 => dec00 (splitX f)
  | 0x01 => dec01 (splitX f) lit
  | 0x02 => dec02 (splitB f)
  | 0x03 => dec03 (splitC f)
  | 0x04 => dec04 (splitBL f)
  | 0x05 => dec05 (splitX f)
  | 0x06 => dec06 (splitC f)
  | 0x07 => dec07 (splitRJ f)
  | 0x08 => dec08 (splitLP f)
  | 0x09 => dec09 (splitLPI f)
  | 0x0A => dec0A (splitX f)
  | 0x10 => dec10 (splitV3 f)
  | 0x11 => dec11 (splitV3 f)
  | 0x12 => dec12 (splitV3 f)
  | 0x13 => dec13 (splitV3 f)
  | 0x14 => dec14 (splitVI f)
  | 0x15 => dec15 (splitVI f)
  | 0x16 => dec16 (splitVI f)
  | 0x17 => dec17 (splitVI f)
  | 0x18 => dec18 (splitVI f)
  | 0x19 => dec19 (splitVU f)
  | 0x1A => dec1A (splitV3 f)
  | 0x1B => dec1B (splitV3 f)
  | 0x1C => dec1C (splitV3 f)
  | 0x1E => dec1E (splitV3 f)
  | 0x1F => dec1F (splitV3 f)
  | 0x20 => dec20 (splitV3 f)
  | 0x21 => dec21 (splitV3 f)
  | 0x22 => dec22 (splitU3 f)
  | 0x23 => dec23 (splitUI f)
  | 0x24 => dec24 (splitL f) lit
  | 0x25 => dec25 (splitL f) lit
  | 0x28 => dec28 (splitM f)
  | 0x29 => dec29 (splitM f)
  | 0x2A => dec2A (splitM f) lit
  | 0x2B => dec2B (splitM f) lit
  | 0x2C => dec2C (splitM f)
  | 0x2D => dec2D (splitM f)
  | 0x2E => dec2E (splitMF f)
  | 0x2F => dec2F (splitMF f)
  | 0x30 => dec30 (splitMF f)
  | 0x31 => dec31 (splitMF f)
  | 0x32 => dec32 (splitX f)
  | 0x33 => dec33 (splitX f)
  | 0x34 => dec34 (splitM f)
  | 0x35 => dec35 (splitM f)
  | 0x36 => dec36 (splitX f)
  | 0x37 => dec37 (splitX f)
  | 0x38 => dec38 (splitX f)
  | 0x39 => dec39 (splitX f)
  | 0x3A => dec3A (splitBT f)
  | 0x3B => dec3B (splitMM f)
  | 0x3C => dec3C (splitAC f)
  | 0x3D => dec3D (splitX f)
  | _ => .error .reservedMajor

/-- R247: an assigned word whose codes are all assigned. -/
def decodeInstr (major : BitVec 6) (f : BitVec 24) (lit : W32) : Except DecodeError Instr :=
  match decodeRaw major f lit with
  | .ok i => if i.wf then .ok i else .error .reservedCode
  | .error e => .error e

/-- The instructions that own a literal word (R248). -/
def literalOf : Instr → Option W32
  | .setm _ _ lit => some lit
  | .smovl _ lit => some lit
  | .smovh _ lit => some lit
  | .ldx _ _ _ _ _ lit => some lit
  | .stx _ _ _ _ _ lit => some lit
  | _ => none

/-- One word, and the word after it for an instruction that owns a literal (R248). -/
def decode (word lit : W32) : Except DecodeError Decoded :=
  match decodeInstr (word.extractLsb' 24 6) (word.extractLsb' 0 24) lit with
  | .ok i => .ok ⟨i, word.getLsbD 31, word.getLsbD 30, if (literalOf i).isSome then 2 else 1⟩
  | .error e => .error e

/-- A 32-bit word from its bytes, the lowest address first (R244). -/
def wordOfBytes (b0 b1 b2 b3 : Byte) : W32 := b3 ++ b2 ++ b1 ++ b0

/-- The bytes of a 32-bit word, the lowest address first (R244). -/
def bytesOfWord (w : W32) : List Byte :=
  [w.extractLsb' 0 8, w.extractLsb' 8 8, w.extractLsb' 16 8, w.extractLsb' 24 8]

/-- The first instruction of a list of bytes, and the bytes after it. -/
def decodeBytes : List Byte → Except DecodeError (Decoded × List Byte)
  | b0 :: b1 :: b2 :: b3 :: rest =>
    match rest with
    | c0 :: c1 :: c2 :: c3 :: rest' =>
      match decode (wordOfBytes b0 b1 b2 b3) (wordOfBytes c0 c1 c2 c3) with
      | .ok d => .ok (d, if d.words = 2 then rest' else rest)
      | .error e => .error e
    | _ =>
      match decode (wordOfBytes b0 b1 b2 b3) 0 with
      | .ok d => if d.words = 2 then .error .tooShort else .ok (d, rest)
      | .error e => .error e
  | _ => .error .tooShort

/-- Bits 29:0 of the instruction's word; a device step has none. -/
def encodeFields : Instr → Option (BitVec 30)
  | .nop => some (0x00#6 ++ joinX ⟨0#6, 0#6, 0#6, 0#6⟩)
  | .exit => some (0x00#6 ++ joinX ⟨0#6, 0#6, 0#6, 1#6⟩)
  | .trap i => some (0x00#6 ++ joinX ⟨0#6, i.extractLsb' 6 6, i.extractLsb' 0 6, 2#6⟩)
  | .brk i => some (0x00#6 ++ joinX ⟨0#6, i.extractLsb' 6 6, i.extractLsb' 0 6, 3#6⟩)
  | .yield => some (0x00#6 ++ joinX ⟨0#6, 0#6, 0#6, 4#6⟩)
  | .sleep i => some (0x00#6 ++ joinX ⟨0#6, i.extractLsb' 6 6, i.extractLsb' 0 6, 5#6⟩)
  | .eret => some (0x00#6 ++ joinX ⟨0#6, 0#6, 0#6, 6#6⟩)
  | .setm d i _ => some (0x01#6 ++ joinX ⟨d, i.extractLsb' 6 6, i.extractLsb' 0 6, 0#6⟩)
  | .getm d => some (0x01#6 ++ joinX ⟨d, 0#6, 0#6, 1#6⟩)
  | .movsr d i => some (0x01#6 ++ joinX ⟨d, i.extractLsb' 6 6, i.extractLsb' 0 6, 2#6⟩)
  | .movrs a i => some (0x01#6 ++ joinX ⟨a, i.extractLsb' 6 6, i.extractLsb' 0 6, 3#6⟩)
  | .ldovt b => some (0x01#6 ++ joinX ⟨0#6, 0#6, b, 4#6⟩)
  | .rdovt d => some (0x01#6 ++ joinX ⟨d, 0#6, 0#6, 5#6⟩)
  | .bra o => some (0x02#6 ++ joinB ⟨o⟩)
  | .brc c o => some (0x03#6 ++ joinC ⟨c, o⟩)
  | .brl d o => some (0x04#6 ++ joinBL ⟨d, o⟩)
  | .jmp b => some (0x05#6 ++ joinX ⟨0#6, 0#6, b, 0#6⟩)
  | .jal d b => some (0x05#6 ++ joinX ⟨d, 0#6, b, 1#6⟩)
  | .ret b => some (0x05#6 ++ joinX ⟨0#6, 0#6, b, 2#6⟩)
  | .brv c o => some (0x06#6 ++ joinC ⟨c, o⟩)
  | .rcv => some (0x07#6 ++ joinRJ ⟨0#2, 0#22⟩)
  | .join => some (0x07#6 ++ joinRJ ⟨1#2, 0#22⟩)
  | .loop c a n => some (0x08#6 ++ joinLP ⟨c, a, 0#8, n⟩)
  | .loopi c i n => some (0x09#6 ++ joinLPI ⟨c, i, n⟩)
  | .brkl i => some (0x0A#6 ++ joinX ⟨0#6, i.extractLsb' 6 6, i.extractLsb' 0 6, 0#6⟩)
  | .rdlc d i => some (0x0A#6 ++ joinX ⟨d, i.extractLsb' 6 6, i.extractLsb' 0 6, 1#6⟩)
  | .wrlc i b => some (0x0A#6 ++ joinX ⟨0#6, i, b, 2#6⟩)
  | .add d a b => some (0x10#6 ++ joinV3 ⟨d, a, b, 0#3⟩)
  | .adc d a b => some (0x10#6 ++ joinV3 ⟨d, a, b, 1#3⟩)
  | .sub d a b => some (0x10#6 ++ joinV3 ⟨d, a, b, 2#3⟩)
  | .sbb d a b => some (0x10#6 ++ joinV3 ⟨d, a, b, 3#3⟩)
  | .mul d a b => some (0x10#6 ++ joinV3 ⟨d, a, b, 4#3⟩)
  | .mulh d a b => some (0x10#6 ++ joinV3 ⟨d, a, b, 5#3⟩)
  | .mad d a b => some (0x10#6 ++ joinV3 ⟨d, a, b, 6#3⟩)
  | .absdiff d a b => some (0x10#6 ++ joinV3 ⟨d, a, b, 7#3⟩)
  | .and d a b => some (0x11#6 ++ joinV3 ⟨d, a, b, 0#3⟩)
  | .or d a b => some (0x11#6 ++ joinV3 ⟨d, a, b, 1#3⟩)
  | .xor d a b => some (0x11#6 ++ joinV3 ⟨d, a, b, 2#3⟩)
  | .andn d a b => some (0x11#6 ++ joinV3 ⟨d, a, b, 3#3⟩)
  | .shl d a b => some (0x11#6 ++ joinV3 ⟨d, a, b, 4#3⟩)
  | .shr d a b => some (0x11#6 ++ joinV3 ⟨d, a, b, 5#3⟩)
  | .rol d a b => some (0x11#6 ++ joinV3 ⟨d, a, b, 6#3⟩)
  | .ror d a b => some (0x11#6 ++ joinV3 ⟨d, a, b, 7#3⟩)
  | .min d a b => some (0x12#6 ++ joinV3 ⟨d, a, b, 0#3⟩)
  | .max d a b => some (0x12#6 ++ joinV3 ⟨d, a, b, 1#3⟩)
  | .cmp a b => some (0x12#6 ++ joinV3 ⟨0#7, a, b, 2#3⟩)
  | .test a b => some (0x12#6 ++ joinV3 ⟨0#7, a, b, 3#3⟩)
  | .sel d a b => some (0x12#6 ++ joinV3 ⟨d, a, b, 4#3⟩)
  | .mov d a => some (0x12#6 ++ joinV3 ⟨d, a, 0#7, 5#3⟩)
  | .popc d a => some (0x12#6 ++ joinV3 ⟨d, a, 0#7, 6#3⟩)
  | .clz d a => some (0x12#6 ++ joinV3 ⟨d, a, 0#7, 7#3⟩)
  | .brev d a => some (0x13#6 ++ joinV3 ⟨d, a, 0#7, 0#3⟩)
  | .bfe d a b => some (0x13#6 ++ joinV3 ⟨d, a, b, 1#3⟩)
  | .bfi d a b => some (0x13#6 ++ joinV3 ⟨d, a, b, 2#3⟩)
  | .abs d a => some (0x13#6 ++ joinV3 ⟨d, a, 0#7, 3#3⟩)
  | .neg d a => some (0x13#6 ++ joinV3 ⟨d, a, 0#7, 4#3⟩)
  | .ext d a => some (0x13#6 ++ joinV3 ⟨d, a, 0#7, 5#3⟩)
  | .dot4 d a b => some (0x13#6 ++ joinV3 ⟨d, a, b, 6#3⟩)
  | .addi d a i => some (0x14#6 ++ joinVI ⟨d, a, i⟩)
  | .muli d a i => some (0x15#6 ++ joinVI ⟨d, a, i⟩)
  | .shifti d a o n => some (0x16#6 ++ joinVI ⟨d, a, (o ++ 0#2 ++ n)⟩)
  | .cmpi a i => some (0x17#6 ++ joinVI ⟨0#7, a, i⟩)
  | .movi d i => some (0x18#6 ++ joinVI ⟨d, 0#7, i⟩)
  | .addU d a b => some (0x19#6 ++ joinVU ⟨d, a, b, 0#4⟩)
  | .subU d a b => some (0x19#6 ++ joinVU ⟨d, a, b, 1#4⟩)
  | .mulU d a b => some (0x19#6 ++ joinVU ⟨d, a, b, 2#4⟩)
  | .madU d a b => some (0x19#6 ++ joinVU ⟨d, a, b, 3#4⟩)
  | .andU d a b => some (0x19#6 ++ joinVU ⟨d, a, b, 4#4⟩)
  | .orU d a b => some (0x19#6 ++ joinVU ⟨d, a, b, 5#4⟩)
  | .xorU d a b => some (0x19#6 ++ joinVU ⟨d, a, b, 6#4⟩)
  | .shlU d a b => some (0x19#6 ++ joinVU ⟨d, a, b, 7#4⟩)
  | .shrU d a b => some (0x19#6 ++ joinVU ⟨d, a, b, 8#4⟩)
  | .minU d a b => some (0x19#6 ++ joinVU ⟨d, a, b, 9#4⟩)
  | .maxU d a b => some (0x19#6 ++ joinVU ⟨d, a, b, 10#4⟩)
  | .cmpU a b => some (0x19#6 ++ joinVU ⟨0#7, a, b, 11#4⟩)
  | .faddU d a b => some (0x19#6 ++ joinVU ⟨d, a, b, 12#4⟩)
  | .fmulU d a b => some (0x19#6 ++ joinVU ⟨d, a, b, 13#4⟩)
  | .fmacU d a b => some (0x19#6 ++ joinVU ⟨d, a, b, 14#4⟩)
  | .selU d a b => some (0x19#6 ++ joinVU ⟨d, a, b, 15#4⟩)
  | .fadd d a b => some (0x1A#6 ++ joinV3 ⟨d, a, b, 0#3⟩)
  | .fsub d a b => some (0x1A#6 ++ joinV3 ⟨d, a, b, 1#3⟩)
  | .fmul d a b => some (0x1A#6 ++ joinV3 ⟨d, a, b, 2#3⟩)
  | .fmac d a b => some (0x1A#6 ++ joinV3 ⟨d, a, b, 3#3⟩)
  | .fmsc d a b => some (0x1A#6 ++ joinV3 ⟨d, a, b, 4#3⟩)
  | .fmin d a b => some (0x1A#6 ++ joinV3 ⟨d, a, b, 5#3⟩)
  | .fmax d a b => some (0x1A#6 ++ joinV3 ⟨d, a, b, 6#3⟩)
  | .fcmp a b => some (0x1A#6 ++ joinV3 ⟨0#7, a, b, 7#3⟩)
  | .fabs d a => some (0x1B#6 ++ joinV3 ⟨d, a, 0#7, 0#3⟩)
  | .fneg d a => some (0x1B#6 ++ joinV3 ⟨d, a, 0#7, 1#3⟩)
  | .fclass d a => some (0x1B#6 ++ joinV3 ⟨d, a, 0#7, 2#3⟩)
  | .frnd d a => some (0x1B#6 ++ joinV3 ⟨d, a, 0#7, 3#3⟩)
  | .fcopysign d a b => some (0x1B#6 ++ joinV3 ⟨d, a, b, 4#3⟩)
  | .faddp d a b => some (0x1C#6 ++ joinV3 ⟨d, a, b, 0#3⟩)
  | .fsubp d a b => some (0x1C#6 ++ joinV3 ⟨d, a, b, 1#3⟩)
  | .fmulp d a b => some (0x1C#6 ++ joinV3 ⟨d, a, b, 2#3⟩)
  | .fmaxp d a b => some (0x1C#6 ++ joinV3 ⟨d, a, b, 3#3⟩)
  | .fminp d a b => some (0x1C#6 ++ joinV3 ⟨d, a, b, 4#3⟩)
  | .fdotp d a b => some (0x1C#6 ++ joinV3 ⟨d, a, b, 5#3⟩)
  | .fpack d a b => some (0x1C#6 ++ joinV3 ⟨d, a, b, 6#3⟩)
  | .funpack d a => some (0x1C#6 ++ joinV3 ⟨d, a, 0#7, 7#3⟩)
  | .frcp d a => some (0x1E#6 ++ joinV3 ⟨d, a, 0#7, 0#3⟩)
  | .frsq d a => some (0x1E#6 ++ joinV3 ⟨d, a, 0#7, 1#3⟩)
  | .fsqrt d a => some (0x1E#6 ++ joinV3 ⟨d, a, 0#7, 2#3⟩)
  | .fexp2 d a => some (0x1E#6 ++ joinV3 ⟨d, a, 0#7, 3#3⟩)
  | .flog2 d a => some (0x1E#6 ++ joinV3 ⟨d, a, 0#7, 4#3⟩)
  | .fsin d a => some (0x1E#6 ++ joinV3 ⟨d, a, 0#7, 5#3⟩)
  | .fcos d a => some (0x1E#6 ++ joinV3 ⟨d, a, 0#7, 6#3⟩)
  | .ftanh d a => some (0x1E#6 ++ joinV3 ⟨d, a, 0#7, 7#3⟩)
  | .cvt d a i => some (0x1F#6 ++ joinV3 ⟨d, a, i, 0#3⟩)
  | .cvtsr d a i => some (0x1F#6 ++ joinV3 ⟨d, a, i, 1#3⟩)
  | .cvtsrSeed a => some (0x1F#6 ++ joinV3 ⟨0#7, a, 127#7, 1#3⟩)
  | .shflIdx d a b => some (0x20#6 ++ joinV3 ⟨d, a, b, 0#3⟩)
  | .shflUp d a i => some (0x20#6 ++ joinV3 ⟨d, a, i, 1#3⟩)
  | .shflDn d a i => some (0x20#6 ++ joinV3 ⟨d, a, i, 2#3⟩)
  | .shflXor d a i => some (0x20#6 ++ joinV3 ⟨d, a, i, 3#3⟩)
  | .qswap d a q y => some (0x20#6 ++ joinV3 ⟨d, a, (0#3 ++ q ++ y), 4#3⟩)
  | .lred d a n o => some (0x20#6 ++ joinV3 ⟨d, a, (0#1 ++ n ++ o), 5#3⟩)
  | .scan d a e n o => some (0x20#6 ++ joinV3 ⟨d, a, (e ++ n ++ o), 6#3⟩)
  | .vote d a m => some (0x20#6 ++ joinV3 ⟨(0#1 ++ d), a, (0#5 ++ m), 7#3⟩)
  | .ballot d a => some (0x21#6 ++ joinV3 ⟨(0#1 ++ d), a, 0#7, 0#3⟩)
  | .rdlane d a i => some (0x21#6 ++ joinV3 ⟨(0#1 ++ d), a, i, 1#3⟩)
  | .wrlane d a i => some (0x21#6 ++ joinV3 ⟨d, (0#1 ++ a), i, 2#3⟩)
  | .bcast d a i => some (0x21#6 ++ joinV3 ⟨d, a, i, 3#3⟩)
  | .matchLane d a => some (0x21#6 ++ joinV3 ⟨d, a, 0#7, 4#3⟩)
  | .elect d => some (0x21#6 ++ joinV3 ⟨d, 0#7, 0#7, 5#3⟩)
  | .lid d => some (0x21#6 ++ joinV3 ⟨d, 0#7, 0#7, 6#3⟩)
  | .qid d => some (0x21#6 ++ joinV3 ⟨d, 0#7, 0#7, 7#3⟩)
  | .sadd d a b => some (0x22#6 ++ joinU3 ⟨d, a, b, 0#6⟩)
  | .ssub d a b => some (0x22#6 ++ joinU3 ⟨d, a, b, 1#6⟩)
  | .smul d a b => some (0x22#6 ++ joinU3 ⟨d, a, b, 2#6⟩)
  | .smulh d a b => some (0x22#6 ++ joinU3 ⟨d, a, b, 3#6⟩)
  | .sdiv d a b => some (0x22#6 ++ joinU3 ⟨d, a, b, 4#6⟩)
  | .srem d a b => some (0x22#6 ++ joinU3 ⟨d, a, b, 5#6⟩)
  | .sand d a b => some (0x22#6 ++ joinU3 ⟨d, a, b, 6#6⟩)
  | .sor d a b => some (0x22#6 ++ joinU3 ⟨d, a, b, 7#6⟩)
  | .sxor d a b => some (0x22#6 ++ joinU3 ⟨d, a, b, 8#6⟩)
  | .sshl d a b => some (0x22#6 ++ joinU3 ⟨d, a, b, 9#6⟩)
  | .sshr d a b => some (0x22#6 ++ joinU3 ⟨d, a, b, 10#6⟩)
  | .ssra d a b => some (0x22#6 ++ joinU3 ⟨d, a, b, 11#6⟩)
  | .smin d a b => some (0x22#6 ++ joinU3 ⟨d, a, b, 12#6⟩)
  | .smax d a b => some (0x22#6 ++ joinU3 ⟨d, a, b, 13#6⟩)
  | .scmp a b => some (0x22#6 ++ joinU3 ⟨0#6, a, b, 14#6⟩)
  | .ssel d a b => some (0x22#6 ++ joinU3 ⟨d, a, b, 15#6⟩)
  | .smov d a => some (0x22#6 ++ joinU3 ⟨d, a, 0#6, 16#6⟩)
  | .spopc d a => some (0x22#6 ++ joinU3 ⟨d, a, 0#6, 17#6⟩)
  | .sclz d a => some (0x22#6 ++ joinU3 ⟨d, a, 0#6, 18#6⟩)
  | .sbfe d a b => some (0x22#6 ++ joinU3 ⟨d, a, b, 19#6⟩)
  | .sbfi d a b => some (0x22#6 ++ joinU3 ⟨d, a, b, 20#6⟩)
  | .saddi d a i => some (0x23#6 ++ joinUI ⟨d, a, i⟩)
  | .smovl d _ => some (0x24#6 ++ joinL ⟨d, 0#18⟩)
  | .smovh d _ => some (0x25#6 ++ joinL ⟨d, 0#18⟩)
  | .ld t o b n r => some (0x28#6 ++ joinM ⟨t, o, b, n, r⟩)
  | .st t o b n r => some (0x29#6 ++ joinM ⟨t, o, b, n, r⟩)
  | .ldx t o b n r _ => some (0x2A#6 ++ joinM ⟨t, o, b, n, r⟩)
  | .stx t o b n r _ => some (0x2B#6 ++ joinM ⟨t, o, b, n, r⟩)
  | .ldl t o b n r => some (0x2C#6 ++ joinM ⟨t, o, b, n, r⟩)
  | .stl t o b n r => some (0x2D#6 ++ joinM ⟨t, o, b, n, r⟩)
  | .ldf t o b r => some (0x2E#6 ++ joinMF ⟨t, o, b, 0#4, r⟩)
  | .ldfTake t o b r => some (0x2E#6 ++ joinMF ⟨t, o, b, 1#4, r⟩)
  | .ste t o b r => some (0x2E#6 ++ joinMF ⟨t, o, b, 2#4, r⟩)
  | .stf t o b r => some (0x2E#6 ++ joinMF ⟨t, o, b, 3#4, r⟩)
  | .tset o b r => some (0x2E#6 ++ joinMF ⟨0#7, o, b, 4#4, r⟩)
  | .tclr o b r => some (0x2E#6 ++ joinMF ⟨0#7, o, b, 5#4, r⟩)
  | .trd t o b r => some (0x2E#6 ++ joinMF ⟨t, o, b, 6#4, r⟩)
  | .atomAdd t o b r => some (0x2F#6 ++ joinMF ⟨t, o, b, 0#4, r⟩)
  | .atomMin t o b r => some (0x2F#6 ++ joinMF ⟨t, o, b, 1#4, r⟩)
  | .atomMax t o b r => some (0x2F#6 ++ joinMF ⟨t, o, b, 2#4, r⟩)
  | .atomAnd t o b r => some (0x2F#6 ++ joinMF ⟨t, o, b, 3#4, r⟩)
  | .atomOr t o b r => some (0x2F#6 ++ joinMF ⟨t, o, b, 4#4, r⟩)
  | .atomXor t o b r => some (0x2F#6 ++ joinMF ⟨t, o, b, 5#4, r⟩)
  | .atomExch t o b r => some (0x2F#6 ++ joinMF ⟨t, o, b, 6#4, r⟩)
  | .atomCas t o b r => some (0x2F#6 ++ joinMF ⟨t, o, b, 7#4, r⟩)
  | .atomFadd t o b r => some (0x2F#6 ++ joinMF ⟨t, o, b, 8#4, r⟩)
  | .atomFaddp t o b r => some (0x2F#6 ++ joinMF ⟨t, o, b, 9#4, r⟩)
  | .redAdd t o b r => some (0x30#6 ++ joinMF ⟨t, o, b, 0#4, r⟩)
  | .redMin t o b r => some (0x30#6 ++ joinMF ⟨t, o, b, 1#4, r⟩)
  | .redMax t o b r => some (0x30#6 ++ joinMF ⟨t, o, b, 2#4, r⟩)
  | .redAnd t o b r => some (0x30#6 ++ joinMF ⟨t, o, b, 3#4, r⟩)
  | .redOr t o b r => some (0x30#6 ++ joinMF ⟨t, o, b, 4#4, r⟩)
  | .redXor t o b r => some (0x30#6 ++ joinMF ⟨t, o, b, 5#4, r⟩)
  | .redFadd t o b r => some (0x30#6 ++ joinMF ⟨t, o, b, 8#4, r⟩)
  | .redFaddp t o b r => some (0x30#6 ++ joinMF ⟨t, o, b, 9#4, r⟩)
  | .ldu t b r => some (0x31#6 ++ joinMF ⟨(0#1 ++ t), 0#7, b, 0#4, r⟩)
  | .stu t b r => some (0x31#6 ++ joinMF ⟨(0#1 ++ t), 0#7, b, 1#4, r⟩)
  | .atomuAdd t b r => some (0x31#6 ++ joinMF ⟨(0#1 ++ t), 0#7, b, 2#4, r⟩)
  | .atomuMin t b r => some (0x31#6 ++ joinMF ⟨(0#1 ++ t), 0#7, b, 3#4, r⟩)
  | .atomuMax t b r => some (0x31#6 ++ joinMF ⟨(0#1 ++ t), 0#7, b, 4#4, r⟩)
  | .atomuAnd t b r => some (0x31#6 ++ joinMF ⟨(0#1 ++ t), 0#7, b, 5#4, r⟩)
  | .atomuOr t b r => some (0x31#6 ++ joinMF ⟨(0#1 ++ t), 0#7, b, 6#4, r⟩)
  | .atomuXor t b r => some (0x31#6 ++ joinMF ⟨(0#1 ++ t), 0#7, b, 7#4, r⟩)
  | .atomuExch t b r => some (0x31#6 ++ joinMF ⟨(0#1 ++ t), 0#7, b, 8#4, r⟩)
  | .atomuCas t b r => some (0x31#6 ++ joinMF ⟨(0#1 ++ t), 0#7, b, 9#4, r⟩)
  | .atomuFadd t b r => some (0x31#6 ++ joinMF ⟨(0#1 ++ t), 0#7, b, 10#4, r⟩)
  | .atomuFaddp t b r => some (0x31#6 ++ joinMF ⟨(0#1 ++ t), 0#7, b, 11#4, r⟩)
  | .fence i => some (0x32#6 ++ joinX ⟨0#6, i.extractLsb' 6 6, i.extractLsb' 0 6, 0#6⟩)
  | .cwb a b => some (0x32#6 ++ joinX ⟨0#6, a, b, 1#6⟩)
  | .cinv a b => some (0x32#6 ++ joinX ⟨0#6, a, b, 2#6⟩)
  | .cwbinv a b => some (0x32#6 ++ joinX ⟨0#6, a, b, 3#6⟩)
  | .smap d a b => some (0x33#6 ++ joinX ⟨d, a, b, 0#6⟩)
  | .sunmap b => some (0x33#6 ++ joinX ⟨0#6, 0#6, b, 1#6⟩)
  | .swb b => some (0x33#6 ++ joinX ⟨0#6, 0#6, b, 2#6⟩)
  | .sinv b => some (0x33#6 ++ joinX ⟨0#6, 0#6, b, 3#6⟩)
  | .spill t o b n => some (0x34#6 ++ joinM ⟨t, o, b, n, 0#2⟩)
  | .fill t o b n => some (0x34#6 ++ joinM ⟨t, o, b, n, 1#2⟩)
  | .prf o b n => some (0x35#6 ++ joinM ⟨0#7, o, b, n, 0#2⟩)
  | .snapopen d => some (0x36#6 ++ joinX ⟨d, 0#6, 0#6, 0#6⟩)
  | .snapclose => some (0x36#6 ++ joinX ⟨0#6, 0#6, 0#6, 1#6⟩)
  | .txbegin i => some (0x36#6 ++ joinX ⟨0#6, i.extractLsb' 6 6, i.extractLsb' 0 6, 2#6⟩)
  | .txcommit d => some (0x36#6 ++ joinX ⟨d, 0#6, 0#6, 3#6⟩)
  | .txabort => some (0x36#6 ++ joinX ⟨0#6, 0#6, 0#6, 4#6⟩)
  | .txstat d => some (0x36#6 ++ joinX ⟨d, 0#6, 0#6, 5#6⟩)
  | .vts d => some (0x36#6 ++ joinX ⟨d, 0#6, 0#6, 6#6⟩)
  | .subscribe d a => some (0x37#6 ++ joinX ⟨d, a, 0#6, 0#6⟩)
  | .unsub b => some (0x37#6 ++ joinX ⟨0#6, 0#6, b, 1#6⟩)
  | .subflush => some (0x37#6 ++ joinX ⟨0#6, 0#6, 0#6, 2#6⟩)
  | .substatIn d h => some (0x37#6 ++ joinX ⟨d, h, 0#6, 3#6⟩)
  | .substatOut d h => some (0x37#6 ++ joinX ⟨d, h, 1#6, 3#6⟩)
  | .bar => some (0x38#6 ++ joinX ⟨0#6, 0#6, 0#6, 0#6⟩)
  | .gbar => some (0x38#6 ++ joinX ⟨0#6, 0#6, 0#6, 1#6⟩)
  | .arrive a b => some (0x38#6 ++ joinX ⟨0#6, a, b, 2#6⟩)
  | .cntwait a b => some (0x38#6 ++ joinX ⟨0#6, a, b, 3#6⟩)
  | .kick a => some (0x39#6 ++ joinX ⟨0#6, a, 0#6, 0#6⟩)
  | .launch d a b => some (0x39#6 ++ joinX ⟨d, a, b, 1#6⟩)
  | .bload q y c a b => some (0x3A#6 ++ joinBT ⟨0#2, q, y, c, a, b⟩)
  | .brel q => some (0x3A#6 ++ joinBT ⟨1#2, q, 0#4, 0#3, 0#6, 0#6⟩)
  | .tblld c a => some (0x3A#6 ++ joinBT ⟨2#2, 0#3, 0#4, c, a, 0#6⟩)
  | .tblrd d c => some (0x3A#6 ++ joinBT ⟨3#2, d.extractLsb' 4 3, d.extractLsb' 0 4, c, 0#6, 0#6⟩)
  | .mma c q y a b => some (0x3B#6 ++ joinMM ⟨c, q, 0#1, y, a, b, 0#2⟩)
  | .mmaZ c q y a b => some (0x3B#6 ++ joinMM ⟨c, q, 1#1, y, a, b, 0#2⟩)
  | .accz t => some (0x3C#6 ++ joinAC ⟨0#2, t, 0#7, 0#6, 0#2, 0#5⟩)
  | .accrd t v b n => some (0x3C#6 ++ joinAC ⟨1#2, t, v, b, n, 0#5⟩)
  | .accwr t v b n => some (0x3C#6 ++ joinAC ⟨2#2, t, v, b, n, 0#5⟩)
  | .accsc t v b n => some (0x3C#6 ++ joinAC ⟨3#2, t, v, b, n, 0#5⟩)
  | .perfrd d i => some (0x3D#6 ++ joinX ⟨d, i.extractLsb' 6 6, i.extractLsb' 0 6, 0#6⟩)
  | .enrd d i => some (0x3D#6 ++ joinX ⟨d, i.extractLsb' 6 6, i.extractLsb' 0 6, 1#6⟩)
  | .tsrd d i => some (0x3D#6 ++ joinX ⟨d, i.extractLsb' 6 6, i.extractLsb' 0 6, 2#6⟩)
  | .sample a => some (0x3D#6 ++ joinX ⟨0#6, a, 0#6, 3#6⟩)
  | _ => none

/-- The words of an instruction with its markers (R244, R248). -/
def encode (w s : Bool) (i : Instr) : Option (List W32) :=
  match encodeFields i with
  | none => none
  | some f =>
    let word : W32 := BitVec.ofBool w ++ (BitVec.ofBool s ++ f)
    match literalOf i with
    | none => some [word]
    | some l => some [word, l]

/-- The instruction of a table row's bits, bit 0 the least significant bit of the first word; bits above `nbits` are
zero. The words are laid out little-endian, the first at the lowest address, and given to the decoder. -/
def decodeTableWord (nbits w : Nat) : Option Instr :=
  let v := w % 2 ^ nbits
  match decodeBytes (bytesOfWord (BitVec.ofNat 32 v) ++ bytesOfWord (BitVec.ofNat 32 (v / 2 ^ 32))) with
  | .ok (d, _) => some d.instr
  | .error _ => none

end Sys2Proof
end

