-- ==== Sys2Proof/Machine/State.lean ====
section
/-! DEFINITION. The state of the module as plain data: every piece of state the manual names, the reasons a step can
stop, and the state after reset. -/

namespace Sys2Proof.Machine

/-- A finite map from numbers, keys rising; a key not listed holds the map's default. -/
abbrev NatMap (α : Type) := List (Nat × α)

/-- Group states (R218). WAITING is RUNNING with no READY slot, see `Group.waiting`. -/
inductive GroupState where
  | none | placed | running | faulted | stopping | saved | parked | exited
deriving DecidableEq, Repr

/-- Fragment states in the codes of R207. -/
inductive FragState where
  | free | ready | waitMem | waitTag | waitRcv | waitJoin | waitBar | waitLag
deriving DecidableEq, Repr

/-- An update that a gang barrier or `subflush` waits for (R102): outbound handle of a block, and how many batches of
it must be applied. -/
structure UpdateGoal where
  blk : BlockKey
  handle : Nat
  count : Nat
deriving DecidableEq, Repr

/-- A copy request as `kick` checked it (R366). -/
structure CopyReq where
  record : BitVec 512
  group : GroupKey
  ctx : Nat
  priv : Bool
  rts : Option Nat
  /-- the core whose engine has it queued -/
  core : CoreKey
deriving DecidableEq, Repr

/-- What a waiting fragment waits for. -/
inductive Hold where
  | none
  /-- results of the fragment that are not written, before an instruction with W (R249) -/
  | results
  /-- a bucket in transit that a read of a table walk, of a mill or of an engine waits for, without limit (R37, R58) -/
  | walk
  /-- a bucket in transit, with the address held (R37) -/
  | bucket (gva : W64)
  /-- a bucket in transit, with the instruction address held -/
  | fetch (pc : W64)
  /-- a gang-shared access to a saved member (R80) -/
  | gang
  /-- a lendable line, or a lend writeback buffer (R91) -/
  | lend
  /-- tagged accesses held at their words (R84) -/
  | tags
  /-- a counter (R365) -/
  | counter (addr : W64) (target : W32)
  /-- `subflush` (R102) -/
  | flush (goals : List UpdateGoal)
  /-- the phase of a gang barrier (R364) -/
  | gbar
  /-- departure from a gang barrier, which waits for updates (R102, R364) -/
  | depart (goals : List UpdateGoal)
  /-- the fill of a stash line (R86) -/
  | fill (blk : BlockKey) (line : Nat)
  /-- `txcommit` (R143): the timestamp taken, the register that receives it, and the read timestamp to be released -/
  | commit (ts : Nat) (sd : Nat) (rts : Nat)
  /-- `unsub` (R103): the inbound handle that is torn down -/
  | unsub (blk : BlockKey) (handle : Nat)
  /-- a full engine queue, with the request that was read and checked (R366) -/
  | kick (req : CopyReq)
  /-- a mill load (R380) -/
  | mill
  /-- an engine's claim of the line (R124) -/
  | claim
  /-- a store whose forwarding would close a fifth batch (R99) -/
  | batch
  /-- a function that is not ready, or a slice that wakes (R460, R462), of this slice -/
  | ready (sl : Nat)
  /-- a host back-invalidation (R452) -/
  | host
  /-- the version clock or pool, for writes that wait (R133, R146) -/
  | pool
deriving DecidableEq, Repr

/-- One register write of a variable-latency result. -/
inductive ResWrite where
  | vec (reg lane : Nat) (val : W32)
  | uni (reg : Nat) (val : W64)
  | codes (lane : Nat) (val : Codes)
  | flags (val : Codes)
deriving DecidableEq, Repr

/-- A variable-latency result not yet written (R250), the lanes of the fragment that issued it, and the lanes of fragments
for which it is checked; `ver` marks what an open transaction reads of versioned lines (R144); and the instruction's address. -/
structure Pend where
  mask : Mask
  writes : List ResWrite
  checked : Mask
  ver : Bool
  pc : W64
deriving DecidableEq, Repr

/-- A VALID table slot (R373). -/
structure TSlot where
  entries : List (BitVec 16)
  ctx : Nat
  part : Nat
deriving DecidableEq, Repr

/-- An instruction that has issued and is not complete, with what it took at issue (R250, R252, R345, R380): mode, registers
and the pending results they may return, table slots, the draw of its free values, the cycle, and the lines of the L1. -/
structure Captured where
  word : Decoded
  mode : W32
  ovt : BitVec 16
  sregs : NatMap W64
  flags : Codes
  vregs : NatMap W32
  cc : NatMap Codes
  pend : List Pend
  tables : NatMap TSlot
  draw : Nat
  cycle : Nat
  /-- lanes of fragments for which its results, when they come, are checked (R250) -/
  checked : Mask
  /-- lines that the core's L1 held, by partition and line, and the lanes that have missed (R210) -/
  l1 : List (Nat × Nat)
  missed : Mask
deriving DecidableEq, Repr

/-- A fragment record (R207) and the fragment's issue state. -/
structure Frag where
  mask : Mask
  pc : W64
  depth : BitVec 8
  st : FragState
  lead : Bool
  lag : Bool
  /-- within a `sleep` (R281) -/
  sleeping : Bool
  /-- after a `yield`: not eligible until the other slot has issued (R280) -/
  yielded : Bool
  /-- consecutive cycles eligible without issuing (R242) -/
  waited : Nat
  /-- ordinal of the last safe point issued (R417) -/
  ord : BitVec 16
  /-- done lanes and beat of the instruction at `pc` that issues again (R345, R398) -/
  done : Mask
  beat : BitVec 3
  hold : Hold
  /-- the instruction at `pc` completes the lanes of a deferred fault; F then continues here (R398) -/
  redo : Option W64
  /-- the comparators are not checked at the next issue (R420) -/
  unwatched : Bool
  /-- stopped at a safe point, by the watchdog or by a debug stop (R219, R402, R420) -/
  halted : Bool
  /-- the instruction at `pc` has issued and is not complete -/
  cap : Option Captured
deriving DecidableEq, Repr

/-- How far the fault of a slot has come (R391). -/
inductive FaultPhase where
  | none
  /-- raised after the fault of the other slot, and held until that one is replayed or handed to a handler -/
  | held
  /-- raised; its record waits for room -/
  | raised
  /-- its record is in a fault queue and awaits a command -/
  | posted
deriving DecidableEq, Repr

/-- Trap state of one slot (R391, R406). -/
structure Trap where
  tpc : W64
  tcause : BitVec 8
  taddr : W64
  tmask : BitVec 128
  tbeat : BitVec 3
  detail : W64
  rpc : W64
  defer : Bool
  /-- the level at which the fault was raised (R396) -/
  priv : Bool
  phase : FaultPhase
deriving DecidableEq, Repr

/-- A loop counter (R272). -/
structure LoopCtr where
  count : BitVec 32
  nest : BitVec 2
  len : BitVec 8
  start : W64
deriving DecidableEq, Repr

/-- Transaction state of a group: the status word of R144, and what `txbegin` records (R140, R360). -/
structure Tx where
  opened : Bool
  status : BitVec 3
  cause : BitVec 8
  lines : BitVec 10
  rts : W64
  id : Nat
  mask : Mask
  height : Nat
  target : W64
  /-- call depth of the fragment at `txbegin` (the model's own) -/
  depth : BitVec 8
  /-- an abort another agent caused, which takes effect before the next issue (R144) -/
  aborting : Option (BitVec 3)
deriving DecidableEq, Repr

/-- What placement gives a group: identity (R204), handle (R396) and the kernel header's values (R226). -/
structure GroupInfo where
  key : GroupKey
  slice : Nat
  core : Nat
  slot : Nat
  serial : BitVec 23
  ctx : Nat
  gang : Nat
  rank : Nat
  gangSize : Nat
  groups : Nat
  rgran : Nat
  acc : Nat
  localKib : Nat
  crit : Bool
  harv : Bool
  checked : Bool
  kaddr : W64
  sptoff : BitVec 32
  sptcnt : BitVec 16
  iterBeg : W64
  iterEnd : W64
  fixup : W64
deriving DecidableEq, Repr

/-- A group. -/
structure Group where
  info : GroupInfo
  state : GroupState
  /-- privileged level (R282) -/
  priv : Bool
  f0 : Frag
  f1 : Frag
  t0 : Trap
  t1 : Trap
  /-- reconvergence stack, top first (R208) -/
  stack : List Frag
  /-- stack area (R221) -/
  area : Option Nat
  mode : W32
  ovt : BitVec 16
  /-- s1 to s63; s0 reads zero (R246) -/
  sregs : NatMap W64
  flags : Codes
  /-- lane `l` of v`n` at `32 n + l` (R74) -/
  vregs : NatMap W32
  cc : NatMap Codes
  /-- stochastic states (R318) -/
  stoch : NatMap W32
  /-- row `r`, column `c` of a`t` at `(32 t + r) 64 + c` (R205) -/
  acc : NatMap W32
  /-- poisoned rows of each tile (R387) -/
  accPoison : NatMap Mask
  /-- poisoned words of the register window, numbered as `vregs` (R128) -/
  regPoison : NatMap Bool
  lc0 : LoopCtr
  lc1 : LoopCtr
  lc2 : LoopCtr
  tx : Tx
  /-- timestamp of the snapshot opened by `snapopen` (R139) -/
  snap : Option Nat
  /-- timestamp of the grid's launch snapshot (R138) -/
  launchSnap : Option Nat
  /-- energy counter word (R431) -/
  energy : W64
  /-- store held since the interval of R433 began, in parts of a KiB times cycles -/
  storeTime : Nat
  /-- group counters 0x00 to 0x05 (R429) -/
  ctrs : NatMap W64
  /-- cycle at which CLK was zero (R255) -/
  clkBase : Nat
  pend : List Pend
  barArrived : Bool
  gbarArrived : Bool
  /-- updates for which a `gbar` that has raised TAG_TIMEOUT waits before it departs from its complete phase (R349, R364) -/
  gbarLeft : Option (List UpdateGoal)
  /-- outcomes of branches and end checks not yet handed to the trace unit: slot, taken (the model's own) -/
  checks : List (Bool × Bool)
  /-- a stop request has reached the group (R400) -/
  stopReq : Bool
  /-- the watchdog has fired (R402): the save is full -/
  watchdog : Bool
  /-- a revocation has taken the slot and window of a harvest group that does not run (R215): an EXITED one, or a PLACED one,
  which is PARKED when it would run -/
  gaveUp : Bool
  /-- the grid has been killed (R399): what remains is a store, an atomic or a reduction that had issued -/
  killed : Bool
deriving DecidableEq, Repr

/-- What a held tagged access does (R83). -/
inductive TagOp where
  | ldf | take | ste
deriving DecidableEq, Repr

/-- Whose access is held (R84). -/
inductive Waiter where
  | lane (g : GroupKey) (slot : Bool) (lane : Nat) (reg : Nat)
  | sub (handle : Nat)
deriving DecidableEq, Repr

/-- An access held at a word of the window (R84): byte offset, size, and the value a `ste` stores. -/
structure TagWait where
  off : Nat
  size : Nat
  op : TagOp
  val : W64
  sign : Bool
  who : Waiter
  /-- the local address by which the lane named the word -/
  addr : W64
deriving DecidableEq, Repr

/-- A stash map entry (R85). -/
structure StashEntry where
  lbase : Nat
  gbase : W64
  len : Nat
  rw : Bool
deriving DecidableEq, Repr

/-- A CLEAN or DIRTY stash line (R85): the mask is zero when CLEAN. `lent` names the owner's line that a harvest line
occupies (R91). -/
structure StashLine where
  dirty : BitVec 64
  lent : Option (BlockKey × Nat)
  /-- the group that wrote it last (R91) -/
  writer : Nat
deriving DecidableEq, Repr

/-- A batch of updates of one line (R98): subscriber offset of the line, bytes and byte mask. -/
structure Batch where
  off : Nat
  mask : BitVec 64
  data : NatMap Byte
deriving DecidableEq, Repr

/-- States of a subscription entry in the codes of R110. -/
inductive SubState where
  | active | switching | memory | orphaned
deriving DecidableEq, Repr

/-- A subscription entry (R92, R93, R110), inbound or outbound. -/
structure SubEntry where
  soff : Nat
  poff : Nat
  len : Nat
  overwrite : Bool
  st : SubState
  /-- the other party and its handle (R405) -/
  peer : BlockKey
  peerHandle : Nat
  /-- open batch (outbound) -/
  opened : Option Batch
  /-- closed and not sent (outbound) -/
  unsent : List Batch
  /-- sent and not applied: received by an inbound entry -/
  recv : List Batch
  /-- pending list of the save image (R105) -/
  pending : List Batch
  /-- batches closed so far (outbound), applied so far (inbound and outbound) -/
  closed : Nat
  applied : BitVec 16
  appliedN : Nat
  dropped : BitVec 16
  /-- a handoff word is held (R100): words of the first batch already applied -/
  held : Bool
  wordsDone : Nat
  /-- a mark has been sent and later batches are held (R105) -/
  marked : Bool
  /-- a memory-target write faulted (R106) -/
  faulted : Bool
  /-- an `unsub` tears it down (R103) -/
  closing : Bool
  /-- the descriptor of R93 -/
  desc : BitVec 128
deriving DecidableEq, Repr

/-- A block (R203). -/
structure Block where
  key : BlockKey
  slice : Nat
  core : Nat
  rank : Nat
  gang : Nat
  gangSize : Nat
  groups : Nat
  rgran : Nat
  acc : Nat
  localKib : Nat
  ctx : Nat
  crit : Bool
  harv : Bool
  kaddr : W64
  hback : W64
  /-- resident on its core; otherwise saved -/
  resident : Bool
  /-- local window bytes (R76) -/
  win : NatMap Byte
  /-- full tags by word (R82) -/
  tags : NatMap Bool
  /-- poisoned words (R128) -/
  winPoison : NatMap Bool
  waitQ : List TagWait
  smap : NatMap StashEntry
  stash : NatMap StashLine
  /-- touched window lines (R91) -/
  touched : NatMap Bool
  inb : NatMap SubEntry
  outb : NatMap SubEntry
  /-- chunk and size of the save image (R404) -/
  image : Option (Nat × Nat)
  /-- the fields of the image that software must not change, as last written: offset, bytes (R406) -/
  imageBytes : NatMap (List Byte)
  /-- how far a restore has come (R107, R407): 0 none, 1 resumes sent, 2 windows loaded -/
  restoring : Nat
  homeCluster : Nat
  /-- the core that saved the block last (R196) -/
  savedOn : Option CoreKey
  /-- saved by a drain (R235) -/
  drained : Bool
  /-- held by STOP_HOLD (R400) -/
  heldStop : Bool
  /-- the last `exit` issued (R87): group, slot, address, lanes -/
  lastExit : Option (Nat × Bool × W64 × Mask)
  exited : Bool
deriving DecidableEq, Repr

/-- States of a tracked L1 copy (R113). -/
inductive CohState where
  | shared | exclusive | modified
deriving DecidableEq, Repr

/-- An L1 line (R89, R115): partition, line number, and either a tracked HC copy, whose data is the line's one coherent
value, or an SC copy with data, dirty mask and KEY_ID; without `filled` only its dirty bytes are held. -/
inductive L1Line where
  | hc (part line : Nat) (st : CohState)
  | sc (part line : Nat) (data : List Byte) (dirty : BitVec 64) (key : Nat) (filled : Bool)
deriving DecidableEq, Repr

/-- A B slot that is READY (R373). -/
structure BSlot where
  btype : Nat
  tile : NatMap Byte
  scales : NatMap Byte
  ctx : Nat
  part : Nat
  poison : NatMap Bool
deriving DecidableEq, Repr

/-- An `mma` that executes or waits in a macro (R388), with the A operand it streams. -/
structure MmaJob where
  group : GroupKey
  tile : Nat
  slot : Nat
  zero : Bool
  atype : Nat
  mask : Mask
  /-- A bytes and scale bytes by local address offset, taken at issue (R386) -/
  a : NatMap Byte
  scales : NatMap Byte
  hasScales : Bool
  poison : Mask
  bslot : BSlot
deriving DecidableEq, Repr

/-- A mill load that passed every check (R381). -/
structure MillLoad where
  group : GroupKey
  frag : Bool
  slot : Nat
  content : BSlot
  /-- when its `bload` issued -/
  cycle : Nat
deriving DecidableEq, Repr

/-- The running copy request (R123, R366). -/
structure EngRun where
  req : CopyReq
  /-- destination lines that segments have taken so far -/
  next : Nat
  /-- lines of the segment that are not claimed yet, and lines claimed and not released: GVA line, PPA line -/
  todo : List (Nat × Nat)
  claims : List (Nat × Nat)
  /-- bytes, by GVA, that elements of a REDUCE which run over the end of a line give the other line, until its release (R170) -/
  kept : NatMap (Byte × Bool)
  status : Nat
  /-- no further segment or message starts -/
  ended : Bool
  /-- stopped at a translation fault (R370) -/
  faulted : Bool
  /-- messages of a remote request: how many have been sent, how many of the first are applied at the peer, and the
  payloads that answered a GET with their poison mark (R440 to R445) -/
  sent : Nat
  applied : Nat
  got : NatMap (List Byte × Bool)
  /-- messages, those before one refused, that must still be applied before the request ends (R441) -/
  await : Nat
deriving DecidableEq, Repr

/-- A cached translation (R57). -/
structure Translation where
  ctx : Nat
  part : Nat
  asid : Nat
  vmid : Nat
  global : Bool
  s1 : Bool
  /-- base and log2 of the size mapped -/
  gva : Nat
  size : Nat
  ipa : Nat
  ppa : Nat
  fmt : Nat
  coh : Nat
  ver : Bool
  stash : Bool
  perm1 : BitVec 3
  user : Bool
  perm2 : BitVec 3
  d1 : Bool
  d2 : Bool
  key : Nat
deriving DecidableEq, Repr

/-- A lend writeback buffer in use (R91). -/
structure LendBuf where
  block : BlockKey
  line : Nat
  data : List Byte
  dirty : BitVec 64
  group : Nat
  faulted : Bool
  /-- the handle in its record (R408) -/
  handle : BitVec 32
deriving DecidableEq, Repr

/-- An outstanding memory sample (R426): its stream and ORD, the cycle of issue, PCOFF, and what serves it. -/
structure MemSample where
  group : GroupKey
  slot : Bool
  /-- the slot byte of its stream at issue -/
  stream : Byte
  cycle : Nat
  ord : BitVec 16
  pcoff : W32
  gva : W64
  /-- the register and lane that take the value; lane 33 for a uniform register -/
  reg : Nat
  lane : Nat
  /-- byte 3 of the record, and HOME -/
  served : Nat
  home : Nat
  /-- cycle since which a bucket in transit or a claim holds the access, and cycles of earlier such holds (R427) -/
  held : Option Nat
  waited : Nat
deriving DecidableEq, Repr

/-- A trace unit (R410 to R416). -/
structure TraceUnit where
  /-- the open frame, its header byte included -/
  frame : List Byte
  /-- frames held for the ring -/
  held : List (List Byte)
  first : Bool
  loss : Nat
  la : W64
  timeBase : Nat
  lastStream : Option Nat
  /-- branch outcomes not yet emitted, oldest first -/
  outcomes : List Bool
  outcomeStream : Nat
  outcomeTime : Nat
  /-- streams that have emitted a SYNC since they needed one -/
  synced : List Nat
  sampleNext : Nat
  memCount : Nat
  memSample : Option MemSample
  /-- eligible instructions that have been counted and are not complete: group, slot, and place in the kernel -/
  memOpen : List (GroupKey × Bool × W32)
deriving DecidableEq, Repr

/-- A core (R4). -/
structure Core where
  key : CoreKey
  l1 : List L1Line
  bslots : NatMap BSlot
  tslots : NatMap TSlot
  mmaQ : List MmaJob
  mill : Option MillLoad
  engQ : List CopyReq
  eng : Option EngRun
  tlb : List Translation
  lend : NatMap LendBuf
  serial : BitVec 23
  ctrs : NatMap W64
  /-- what counter 0x47 holds beyond whole pJ, in units of 2⁻¹² pJ (R434) -/
  energyFrac : Nat
  /-- store held on it so far in the interval, times cycles (R433) -/
  storeTime : Nat
  /-- poisoned words of L1 lines: partition, line, word (R128) -/
  l1Bad : List (Nat × Nat × Nat)
  trace : TraceUnit
  /-- a revocation under way: groups it parks (R215) -/
  revoking : List GroupKey
  remdone : W64
deriving DecidableEq, Repr

/-- A context entry in a context cache, or a stage-1 table entry in a walk cache (R58). -/
structure WalkEntry where
  part : Nat
  ctx : Nat
  vmid : Nat
  addr : Nat
  /-- the stage-2 translation of the table page that was used -/
  ipa : Nat
  val : W64
deriving DecidableEq, Repr

/-- A cached context entry (R58). -/
structure CtxEntry where
  part : Nat
  ctx : Nat
  val : BitVec 256
deriving DecidableEq, Repr

/-- A cluster: its translation caches (R58) and control core (R239, R240). -/
structure Cluster where
  tlb : List Translation
  s2tlb : List Translation
  walk : List WalkEntry
  ctxs : List CtxEntry
  /-- grid served by the control core, its start address, a0 and a1 -/
  cc : Option (Nat × Nat)
  ccPc : W64
  ccA0 : W64
  ccA1 : W64
  ring : List W64
  ringLost : Nat
  /-- the control core waits in `wfi` -/
  ccWaiting : Bool
  /-- what its last read of `ccevent` returned -/
  ccRead : W64
  /-- the line that its load-reserved has reserved (R200) -/
  ccResv : Option (Nat × Nat)
deriving DecidableEq, Repr

/-- A host core as far as the module's rules name it (R35, R461): online, waiting in WFI, interrupt identities
delivered to its IMSIC file (R29), `hkeysel` (R67), started by network boot (R457), its reservation. -/
structure HostCore where
  online : Bool
  wfi : Bool
  imsic : List Nat
  hkeysel : BitVec 12
  booted : Bool
  /-- the line that a load-reserved has reserved (R200) -/
  resv : Option (Nat × Nat)
  /-- the access fault that its last refused access has raised (R67), or the hardware-error one (R128): that it is one, PPA -/
  fault : Option (Bool × Nat)
deriving DecidableEq, Repr

/-- A fault record waiting to be posted (R395), and the slot whose phase it moves. -/
structure FaultWait where
  record : BitVec 512
  group : Option GroupKey
  frag : Bool
deriving DecidableEq, Repr

/-- A slice (R2). -/
structure Slice where
  id : Nat
  shutter : BitVec 2
  part : BitVec 4
  drops : BitVec 16
  failed : Bool
  hcores : NatMap HostCore
  /-- lines that the last-level cache holds, by line of a partition, with the mode of their last access plus one (R111) -/
  llc : NatMap Nat
  /-- lines claimed by engines (R122): claiming core, partition, line -/
  claims : List (CoreKey × Nat × Nat)
  /-- host-cached lines (R452): partition, line, modified; oldest first; and the line back-invalidated to make room -/
  snoop : List (Nat × Nat × Bool)
  snoopOut : Option (Nat × Nat)
  mpatrol : W64
  merr : W64
  fqbase : W64
  fqhead : W64
  fqtail : W64
  faults : List FaultWait
  trctl : W64
  trgrid : W64
  trbase : W64
  trhead : W64
  trtail : W64
  trstat : W64
  ctrs : NatMap W64
  mac : W64
  iplo : W64
  iphi : W64
  portstat : W64
  srdy : BitVec 6
  power : BitVec 2
  waking : Bool
  /-- cycle at which TTIME was zero (R414) -/
  openedAt : Nat
  scrubbing : Bool
deriving DecidableEq, Repr

/-- A queued command with the operands it captured (R59, R118). -/
structure QueuedCmd where
  op : W64
  addr : W64
  aux : W64
  word : W64
  /-- its effect has been made; it completes next -/
  ran : Bool
deriving DecidableEq, Repr

/-- A device queue (R222, R223). -/
structure Queue where
  en : Bool
  entry : BitVec 512
  notify : W64
  qrd : W64
  wseq : Bool
  wdep : Bool
  ovr : Bool
  err : Bool
  errs : BitVec 8
  /-- the packet at QRD passed its checks: packet, header, HBACK -/
  ready : Option (BitVec 512 × BitVec 512 × W64)
  /-- markers that wait: CADDR, CVAL, packet IRQ, and the grids before them (R230) -/
  markers : List (W64 × W32 × Bool × List Nat)
deriving DecidableEq, Repr

/-- A grid that was accepted (R230). -/
structure Grid where
  handle : Nat
  queue : Nat
  ctx : Nat
  packet : BitVec 512
  header : BitVec 512
  hback : W64
  prio : Nat
  irq : Bool
  blocks : Nat
  gangSize : Nat
  nextGang : Nat
  exited : Nat
  snap : Option Nat
  /-- allow-list copy (R430); none while PCALW.EN was 0 -/
  allow : Option (BitVec 256)
  /-- a STOP or STOP_HOLD waits for every gang (R398) -/
  stopping : Option Bool
  held : Bool
  killed : Bool
  /-- cycle of its acceptance (R247) -/
  since : Nat
  /-- cores that ran a block (R116) -/
  ran : List CoreKey
deriving DecidableEq, Repr

/-- An entry of a dispatch list (R232). -/
inductive DispatchEntry where
  | grid (handle : Nat)
  | restore (handle gang : Nat) (home : Option (Nat × Nat)) (slice : Nat) (fitted : Nat)
deriving DecidableEq, Repr

/-- A committed version older than the current one (R136): timestamp, bytes, poison, pool record if spilled. -/
structure Version where
  ts : Nat
  data : List Byte
  poison : Bool
  record : Option Nat
deriving DecidableEq, Repr

/-- An uncommitted version (R136). -/
structure Uncommitted where
  tx : Nat
  owner : GroupKey
  /-- KEY_ID of the last write to it -/
  key : Nat
  /-- address of the last write to it, whose page takes D when it commits (R56, R64) -/
  gva : W64
  data : List Byte
  poison : Bool
deriving DecidableEq, Repr

/-- A version chain (R135): timestamp of the current version, whose data memory holds; older versions newest first; and
whether an access with VER = 1 has written the line since sparge last reduced it. -/
structure Chain where
  ts : Nat
  older : List Version
  unc : Option Uncommitted
  made : Bool
deriving DecidableEq, Repr

/-- A packet in a send window (R441). -/
structure SentPacket where
  packet : Packet
  sends : Nat
  /-- the core whose request it belongs to, and the message's number in it; the checkpoint engine's messages stand
  under slice 16 and the member with their offset in its region, the answers to GETREQs under slice 17 with RADDR -/
  core : CoreKey
  msg : Nat
  /-- the request that sent it -/
  req : Option CopyReq
deriving DecidableEq, Repr

/-- A message sent: MSN, the PSN of its packet, the request's core and the message's number in it. -/
structure SentMsg where
  msn : BitVec 32
  psn : BitVec 32
  core : CoreKey
  msg : Nat
deriving DecidableEq, Repr

/-- A link (R440 to R443). -/
structure Link where
  psn : BitVec 32
  msn : BitVec 32
  window : List SentPacket
  /-- last APPLIED value held from the peer -/
  aPeer : BitVec 32
  /-- messages sent and not yet known applied or answered, oldest first -/
  msgs : List SentMsg
  /-- highest PSN such that every PSN up to it has been received, and those received above it -/
  rxPsn : BitVec 32
  rxSet : List (BitVec 32)
  /-- M of R443, and the messages received and not applied -/
  applied : BitVec 32
  heldMsgs : List Packet
  /-- MSNs performed here that APPLIED has not passed -/
  performed : List (BitVec 32)
  /-- frames the port has sent, newest first, and the next hop to which it sends (R438) -/
  out : List Frame
  dmac : BitVec 48
  /-- messages to be built again from their sources, whose PSNs SKIPs have taken (R442) -/
  redo : List SentPacket
deriving DecidableEq, Repr

/-- A running checkpoint (R449). -/
structure Checkpoint where
  desc : BitVec 512
  members : List (Nat × W64)
  segments : List (BitVec 128)
  ts : Nat
  total : Nat
  status : Nat
  /-- members whose units are all acknowledged -/
  done : List Nat
  /-- members whose header has been sent -/
  headed : List Nat
  faulted : Bool
  /-- the next piece of 4 KiB, one of every unit of a stripe, to be read -/
  piece : Nat
  /-- pieces whose lines in SELF's region a segment has taken (R122, R123), those of them that are not claimed yet, and those
  claimed and not released -/
  taken : Nat
  todo : List (Nat × Nat)
  claims : List (Nat × Nat)
deriving DecidableEq, Repr

/-- A flash request read and not finished (R455). -/
structure FlashReq where
  index : Nat
  entry : BitVec 512
deriving DecidableEq, Repr

/-- A partition (R16). Registers keep the names of their chapters. -/
structure Partition where
  id : Nat
  mask : BitVec 16
  htop : BitVec 11
  ttop : BitVec 12
  kbase : BitVec 12
  kcount : BitVec 13
  buckets : NatMap (BitVec 16)
  irt : NatMap (BitVec 32)
  xctb : W64
  xinva : W64
  xharvb : W64
  xinvw : W64
  xinvLost : Bool
  xinvErr : Bool
  xinvSeq : BitVec 32
  xinvQ : List QueuedCmd
  cma : W64
  cmLost : Bool
  cmErr : Bool
  cmSeq : BitVec 32
  cmQ : List QueuedCmd
  vpbase : W64
  vpsize : W64
  vpFull : Bool
  vpErr : Bool
  vpThresh : BitVec 8
  vpRecords : List Nat
  spargeDue : Bool
  /-- version sequencer: ISSUED, and commits issued and not complete (R133) -/
  issued : Nat
  committing : List Nat
  /-- the sequencer went with a LOST bucket 0 (R134) -/
  seqLost : Bool
  chains : NatMap Chain
  /-- live snapshot table: timestamp and references (R139) -/
  snaps : List (Nat × Nat)
  /-- launch references: queue, ring index, timestamp (R238) -/
  launchRefs : List (Nat × Nat × Nat)
  nextTx : Nat
  qtbase : W64
  qcmdErr : Bool
  spool : W64
  areas : List Nat
  svpool : W64
  svFull : Bool
  chunks : List Nat
  tagto : W64
  farg : W64
  fstatErr : Bool
  fstatSeq : BitVec 32
  dbctl : NatMap W64
  dbadd : NatMap W64
  dbstat : BitVec 4
  pcalw : W64
  ctrs : NatMap W64
  netcfg : W64
  peertb : W64
  /-- links by sending slice and peer: key `slice + 16 peer` -/
  links : NatMap Link
  ckErr : Bool
  /-- a command has been taken and its descriptor is not read yet (R447) -/
  ckWait : Bool
  ckTs : BitVec 48
  ckpt : Option Checkpoint
  hdmwin : W64
  /-- a write that clears EN waits for the host's answers (R451) -/
  hdmStop : Bool
  flring : W64
  /-- a write that clears EN waits for the requests read (R454) -/
  flStop : Bool
  fldb : W64
  flcons : W64
  flReqs : List FlashReq
  ltol : W64
  prdy : BitVec 4
  queues : NatMap Queue
  /-- dispatch lists by priority (R232) -/
  lists : NatMap (List DispatchEntry)
  /-- the last slice that claimed a gang (R233) -/
  lastClaim : Nat
  grids : List Grid
deriving DecidableEq, Repr

/-- The step of a running MTC command (R34). -/
inductive MtcStep where
  /-- the command has been issued and its step comes next -/
  | idle
  | drain | migrate | reprogram | scrub | opening | rebalance
deriving DecidableEq, Repr

/-- A running MTC command (R33 to R41): the MCMD word and arguments, the slice and partitions of a MOVE, the bucket in
transit, failures of its granule. -/
structure MtcRun where
  word : W64
  marg0 : W64
  marg1 : W64
  slice : Nat
  src : Nat
  dst : Nat
  step : MtcStep
  bucket : Option Nat
  failures : Nat
  moved : Nat
deriving DecidableEq, Repr

/-- The module and its trust controller (R20 to R22, R457, R463). -/
structure Module where
  /-- power is applied; firmware and configuration are verified -/
  on : Bool
  verified : Bool
  marg0 : W64
  marg1 : W64
  mrefused : Bool
  mresult : BitVec 8
  run : Option MtcRun
  mlogcnt : W64
  mlogidx : W64
  /-- log records, newest first (R22) -/
  log : List (BitVec 128)
  /-- key ranges reserved for ids without a partition (R32): KBASE and KCOUNT -/
  keyResv : NatMap (Nat × Nat)
  /-- next one-time key index (R458) -/
  attest : Nat
  /-- core clock in MHz (R463) -/
  clock : Nat
  /-- flash blocks (R454), which outlive power: byte `i` of block `b` of partition `p` at `(p 2⁴⁸ + b) 4096 + i`, and
  poisoned blocks -/
  flash : NatMap Byte
  flashPoison : NatMap Bool
deriving DecidableEq, Repr

/-- The word being issued: its fragment slot, markers, size and address. -/
structure Issue where
  slot : Bool
  w : Bool
  s : Bool
  words : Nat
  pc : W64
  instr : Instr
deriving DecidableEq, Repr

/-- The machine. `cur` is the group in focus, whose fragment issues; the other groups stand in `groups`. -/
structure State where
  cur : Group
  groups : List Group
  blocks : List Block
  cores : List Core
  clusters : NatMap Cluster
  slices : List Slice
  parts : List Partition
  mtc : Module
  /-- bytes of partition memory: PPA plus the partition id times 2⁴⁸ (R23) -/
  mem : List Host.Cell
  /-- KEY_ID under which a line was last written (R65); a line not listed holds the zero pattern -/
  lineKey : NatMap Nat
  /-- poisoned lines (R128) -/
  poison : NatMap Bool
  /-- earlier values of words stored to since they could first be fetched, each with the cycle of the store (R247) -/
  stale : NatMap (List (Nat × W32))
  /-- bytes written to host memory (R453); the others hold what the host does -/
  hostMem : NatMap (Option Byte)
  /-- agents whose next payload comes poisoned (R132): the kind of agent, and its core -/
  spoiled : List (Nat × CoreKey)
  issue : Issue
  /-- arguments of the device step being taken -/
  args : StepArgs
  /-- device steps that come next, in order (the model's own) -/
  agenda : List Event
  /-- device steps that wait for what stands in their way, and are taken up again (the model's own) -/
  later : List Event
  /-- counter of free values (the model's own) -/
  free : Nat
  /-- core clock cycles since power-on -/
  cycle : Nat
  /-- the module's reference count in ns (R414) -/
  refns : Nat
deriving DecidableEq, Repr

/-- Why the machine stops. -/
inductive Fault where
  /-- RESTORE of a save image whose fields other than registers, window data and tags were changed: R406 leaves the
  block's behaviour undefined. Safe. -/
  | imageChanged
deriving DecidableEq, Repr

/-- Why a step has no meaning here. -/
inductive Refusal where
  /-- An arm of `exec` that has no meaning yet. Safe. -/
  | notModelled (mnemonic : String)
deriving DecidableEq, Repr

/-! ### Reset -/

/-- A FREE slot (R207). -/
def Frag.none : Frag where
  mask := 0
  pc := 0
  depth := 0
  st := .free
  lead := false
  lag := false
  sleeping := false
  yielded := false
  waited := 0
  ord := 0xFFFF
  done := 0
  beat := 0
  hold := .none
  redo := .none
  unwatched := false
  halted := false
  cap := Option.none

/-- Trap state that holds no fault (R391). -/
def Trap.none : Trap := ⟨0, 0, 0, 0, 0, 0, 0, false, false, .none⟩

/-- An inactive counter (R272). -/
def LoopCtr.none : LoopCtr := ⟨0, 0, 0, 0⟩

/-- No transaction has run (R144). -/
def Tx.none : Tx := ⟨false, 0, 0, 0, 0, 0, 0, 0, 0, 0, .none⟩

def GroupInfo.none : GroupInfo where
  key := ⟨⟨0, 0, 0⟩, 0⟩
  slice := 0
  core := 0
  slot := 0
  serial := 0
  ctx := 0
  gang := 0
  rank := 0
  gangSize := 1
  groups := 1
  rgran := 0
  acc := 0
  localKib := 0
  crit := false
  harv := false
  checked := false
  kaddr := 0
  sptoff := 0
  sptcnt := 0
  iterBeg := 0
  iterEnd := 0
  fixup := 0

/-- The stochastic states at a group's start (R318). -/
def stochStart (i : GroupInfo) : NatMap W32 :=
  (List.range 32).map fun l =>
    let x : W32 := BitVec.ofNat 32 (((i.key.blk.blk * 16 + i.key.grp) * 32 + l + 1) * 0x9E3779B9)
    (l, if x = 0 then 1 else x)

/-- A block whose windows are clear (R73) and whose entries are free. -/
def Block.start (i : GroupInfo) (hback : W64) : Block where
  key := i.key.blk
  slice := i.slice
  core := i.core
  rank := i.rank
  gang := i.gang
  gangSize := i.gangSize
  groups := i.groups
  rgran := i.rgran
  acc := i.acc
  localKib := i.localKib
  ctx := i.ctx
  crit := i.crit
  harv := i.harv
  kaddr := i.kaddr
  hback := hback
  resident := true
  win := []
  tags := []
  winPoison := []
  waitQ := []
  smap := []
  stash := []
  touched := []
  inb := []
  outb := []
  image := .none
  imageBytes := []
  restoring := 0
  homeCluster := i.core / 4
  savedOn := Option.none
  drained := false
  heldStop := false
  lastExit := none
  exited := false

/-- A group with the start values of R73 and R231: MODE 0x0000_8002 (R252), OVT 0x0045 (R155), the rest zero. -/
def Group.start (i : GroupInfo) (st : GroupState) : Group where
  info := i
  state := st
  priv := false
  f0 := .none
  f1 := .none
  t0 := .none
  t1 := .none
  stack := []
  area := .none
  mode := 0x00008002
  ovt := 0x0045
  sregs := []
  flags := 0
  vregs := []
  cc := []
  stoch := stochStart i
  acc := []
  accPoison := []
  regPoison := []
  lc0 := .none
  lc1 := .none
  lc2 := .none
  tx := .none
  snap := .none
  launchSnap := .none
  energy := 0
  storeTime := 0
  ctrs := []
  clkBase := 0
  pend := []
  barArrived := false
  gbarArrived := false
  gbarLeft := Option.none
  checks := []
  stopReq := false
  watchdog := false
  gaveUp := false
  killed := false

/-- No packets gathered (R410). -/
def TraceUnit.reset : TraceUnit where
  frame := []
  held := []
  first := true
  loss := 0
  la := 0
  timeBase := 0
  lastStream := none
  outcomes := []
  outcomeStream := 0
  outcomeTime := 0
  synced := []
  sampleNext := 0
  memCount := 0
  memSample := none
  memOpen := []

/-- A core as the scrub leaves it (R39). -/
def Core.reset (k : CoreKey) : Core where
  key := k
  l1 := []
  bslots := []
  tslots := []
  mmaQ := []
  mill := none
  engQ := []
  eng := none
  tlb := []
  lend := []
  serial := 0
  ctrs := []
  energyFrac := 0
  storeTime := 0
  l1Bad := []
  trace := .reset
  revoking := []
  remdone := 0

def Cluster.reset : Cluster where
  tlb := []
  s2tlb := []
  walk := []
  ctxs := []
  cc := none
  ccPc := 0
  ccA0 := 0
  ccA1 := 0
  ring := []
  ringLost := 0
  ccWaiting := false
  ccRead := 0
  ccResv := none

def HostCore.reset : HostCore := ⟨false, false, [], 0, false, none, none⟩

/-- A slice with its shutter sealed: SHSTAT 0 (R18), MPATROL EN 1 and PERIOD 24 (R129), TRBASE LOG2 6 (R409). -/
def Slice.reset (i : Nat) : Slice where
  id := i
  shutter := 0
  part := 0
  drops := 0
  failed := false
  hcores := []
  llc := []
  claims := []
  snoop := []
  snoopOut := none
  mpatrol := 0x1801
  merr := 0
  fqbase := 0
  fqhead := 0
  fqtail := 0
  faults := []
  trctl := 0
  trgrid := 0
  trbase := 6
  trhead := 0
  trtail := 0
  trstat := 0
  ctrs := []
  mac := 0
  iplo := 0
  iphi := 0
  portstat := 0
  srdy := 0
  power := 0
  waking := false
  openedAt := 0
  scrubbing := false

/-- A disabled queue (R223). -/
def Queue.reset : Queue := ⟨false, 0, 0, 0, false, false, false, false, 0, none, []⟩

/-- A link before its first packet. -/
def Link.reset : Link := ⟨0, 0, [], 0, [], 0, [], 0, [], [], [], 0, []⟩

/-- A partition before FORM has set it up: VPSTAT.THRESH 75 (R145), TAGTO.LIMIT 30 (R349), NETCFG.RTO 3 (R437),
FLRING.LOG2 4 (R454), the rest zero. -/
def Partition.reset (i : Nat) : Partition where
  id := i
  mask := 0
  htop := 0
  ttop := 0
  kbase := 0
  kcount := 0
  buckets := []
  irt := []
  xctb := 0
  xinva := 0
  xharvb := 0
  xinvw := 0
  xinvLost := false
  xinvErr := false
  xinvSeq := 0
  xinvQ := []
  cma := 0
  cmLost := false
  cmErr := false
  cmSeq := 0
  cmQ := []
  vpbase := 0
  vpsize := 0
  vpFull := false
  vpErr := false
  vpThresh := 75
  vpRecords := []
  spargeDue := false
  issued := 0
  committing := []
  seqLost := false
  chains := []
  snaps := []
  launchRefs := []
  nextTx := 0
  qtbase := 0
  qcmdErr := false
  spool := 0
  areas := []
  svpool := 0
  svFull := false
  chunks := []
  tagto := 30
  farg := 0
  fstatErr := false
  fstatSeq := 0
  dbctl := []
  dbadd := []
  dbstat := 0
  pcalw := 0
  ctrs := []
  netcfg := 3 <<< 56
  peertb := 0
  links := []
  ckErr := false
  ckWait := false
  ckTs := 0
  ckpt := none
  hdmwin := 0
  hdmStop := false
  flring := 4 <<< 1
  flStop := false
  fldb := 0
  flcons := 0
  flReqs := []
  ltol := 0
  prdy := 0
  queues := []
  lists := []
  lastClaim := 0
  grids := []

/-- The module when power is applied: the core clock of R5, nothing verified (R457), the log empty (R22). -/
def Module.reset : Module where
  on := false
  verified := false
  marg0 := 0
  marg1 := 0
  mrefused := false
  mresult := 0
  run := none
  mlogcnt := 0
  mlogidx := 0
  log := []
  keyResv := []
  attest := 0
  clock := 1900
  flash := []
  flashPoison := []

/-- The state after reset. Power has just been applied: every slice is sealed and no partition exists, so no group
exists and memory lists nothing; POWER_ON comes next (R457). -/
def State.reset : State where
  cur := Group.start .none .none
  groups := []
  blocks := []
  cores := []
  clusters := []
  slices := (List.range 16).map Slice.reset
  parts := []
  mtc := .reset
  mem := []
  lineKey := []
  poison := []
  stale := []
  hostMem := []
  spoiled := []
  issue := ⟨false, false, false, 1, 0, .nop⟩
  args := .zero
  agenda := [⟨.powerOn, { StepArgs.zero with ok := true }⟩]
  later := []
  free := 0
  cycle := 0
  refns := 0

end Sys2Proof.Machine
end

