-- ==== Sys2Proof/Machine/Maps.lean ====
section
/-! DEFINITION. Finite maps in canonical form: keys strictly rising, no entry equal to the default. Lists of records
found by a key. -/

namespace Sys2Proof.Machine

/-- The value at a key. -/
def mget {α : Type} (d : α) : NatMap α → Nat → α
  | [], _ => d
  | (k', v) :: r, k => if k' = k then v else mget d r k

/-- An entry put in before the first greater key. -/
def mput {α : Type} (k : Nat) (v : α) : NatMap α → NatMap α
  | [] => [(k, v)]
  | (k', v') :: r => if k < k' then (k, v) :: (k', v') :: r else (k', v') :: mput k v r

/-- An entry taken out. -/
def odel {α : Type} (m : NatMap α) (k : Nat) : NatMap α := m.filter fun e => e.1 ≠ k

/-- The map with one value changed. -/
def mset {α : Type} [DecidableEq α] (d : α) (m : NatMap α) (k : Nat) (v : α) : NatMap α :=
  if v = d then odel m k else mput k v (odel m k)

/-- Canonical form: keys above `lo`, strictly rising, no default. -/
def mwfFrom {α : Type} [DecidableEq α] (d : α) : Nat → NatMap α → Bool
  | _, [] => true
  | lo, (k, v) :: r => decide (lo ≤ k) && decide (v ≠ d) && mwfFrom d (k + 1) r

def mwf {α : Type} [DecidableEq α] (d : α) (m : NatMap α) : Bool := mwfFrom d 0 m

/-- The entry at a key, of a map in which an absent entry is a state of its own. -/
def oget {α : Type} : NatMap α → Nat → Option α
  | [], _ => none
  | (k', v) :: r, k => if k' = k then some v else oget r k

/-- An entry put in, keys rising. -/
def oset {α : Type} (m : NatMap α) (k : Nat) (v : α) : NatMap α := mput k v (odel m k)

/-- Entries whose keys meet a test, removed. -/
def mdrop {α : Type} (p : Nat → Bool) (m : NatMap α) : NatMap α := m.filter fun e => !p e.1

/-- The first element that meets the test is replaced, or the element is added at the end. -/
def upsert {α : Type} (p : α → Bool) (x : α) : List α → List α
  | [] => [x]
  | y :: r => if p y then x :: r else y :: upsert p x r

/-- Put in before the first element that comes after it. -/
def insertBy {α : Type} (le : α → α → Bool) (x : α) : List α → List α
  | [] => [x]
  | y :: r => if le x y then x :: y :: r else y :: insertBy le x r

/-- `f` applied for each index below `n`, from 0. -/
def forN {σ : Type} (n : Nat) (f : Nat → σ → σ) (s : σ) : σ := (List.range n).foldl (fun s i => f i s) s

/-- `f` applied for each lane of a mask, ascending. -/
def forLanes {σ : Type} (m : Mask) (f : Nat → σ → σ) (s : σ) : σ :=
  forN 32 (fun l s => if m.getLsbD l then f l s else s) s

/-- The lanes of a mask, ascending. -/
def lanesOf (m : Mask) : List Nat := (List.range 32).filter (m.getLsbD ·)

/-- The mask of the lanes below 32 that meet a test. -/
def maskOf (p : Nat → Bool) : Mask := forN 32 (fun l m => if p l then m ||| (1#32 <<< l) else m) 0

/-- Number of lanes in a mask. -/
def popMask (m : Mask) : Nat := (lanesOf m).length

/-- The lowest lane of a mask, 32 if empty. -/
def lowLane (m : Mask) : Nat := (lanesOf m).headD 32

/-- Bytes of a value, the lowest first (R149). -/
def bytesOf (n : Nat) {w : Nat} (v : BitVec w) : List Byte := (List.range n).map fun i => v.extractLsb' (8 * i) 8

/-- The value of bytes, the lowest first (R149). -/
def natOfBytes : List Byte → Nat
  | [] => 0
  | b :: r => b.toNat + 256 * natOfBytes r

def valOfBytes (w : Nat) (b : List Byte) : BitVec w := BitVec.ofNat w (natOfBytes b)

/-- A bit field `hi:lo` of a word as a number (R10). -/
def fld {w : Nat} (v : BitVec w) (hi lo : Nat) : Nat := (v.extractLsb' lo (hi + 1 - lo)).toNat

/-- A word with field `hi:lo` replaced. -/
def setFld {w : Nat} (v : BitVec w) (hi lo : Nat) (x : Nat) : BitVec w :=
  let m : BitVec w := (BitVec.ofNat w (2 ^ (hi + 1 - lo) - 1)) <<< lo
  (v &&& ~~~ m) ||| ((BitVec.ofNat w x <<< lo) &&& m)

/-- Indices from `a`, `n` of them. -/
def span (a n : Nat) : List Nat := (List.range n).map (a + ·)

end Sys2Proof.Machine
end

