-- ==== Sys2Proof/Machine/Ops.lean ====
section
/-! DEFINITION. Named operations on the state: records by key, registers, fragments, the program counter and the end
check of loops, raising a fault and returning from its handler. -/

namespace Sys2Proof.Machine

abbrev Out := Host.Outcome State Fault Refusal

/-! ### Records by key -/

def State.group? (s : State) (k : GroupKey) : Option Group :=
  if s.cur.info.key = k then some s.cur else s.groups.find? (·.info.key = k)

def State.setGroup (s : State) (g : Group) : State :=
  if s.cur.info.key = g.info.key then { s with cur := g }
  else { s with groups := upsert (·.info.key = g.info.key) g s.groups }

def State.onGroup (s : State) (k : GroupKey) (f : Group → Group) : State :=
  match s.group? k with
  | some g => s.setGroup (f g)
  | none => s

/-- Every group, the one in focus first. -/
def State.allGroups (s : State) : List Group := s.cur :: s.groups

def State.mapGroups (s : State) (f : Group → Group) : State := { s with cur := f s.cur, groups := s.groups.map f }

def State.onCur (s : State) (f : Group → Group) : State := { s with cur := f s.cur }

def State.block? (s : State) (k : BlockKey) : Option Block := s.blocks.find? (·.key = k)

def State.setBlock (s : State) (b : Block) : State := { s with blocks := upsert (·.key = b.key) b s.blocks }

def State.onBlock (s : State) (k : BlockKey) (f : Block → Block) : State :=
  { s with blocks := s.blocks.map fun b => if b.key = k then f b else b }

/-- The block holds a core: it runs there, or its restore is under way (R407). -/
def Block.placed (b : Block) : Bool := b.resident || b.restoring ≠ 0

def State.core (s : State) (k : CoreKey) : Core := (s.cores.find? (·.key = k)).getD (Core.reset k)

def State.setCore (s : State) (c : Core) : State := { s with cores := upsert (·.key = c.key) c s.cores }

def State.onCore (s : State) (k : CoreKey) (f : Core → Core) : State := s.setCore (f (s.core k))

def clusterIx (k : CoreKey) : Nat := k.slice * Config.clusters + k.core / Config.coresPerCluster

def State.clusterAt (s : State) (i : Nat) : Cluster := mget Cluster.reset s.clusters i

def State.onCluster (s : State) (i : Nat) (f : Cluster → Cluster) : State :=
  { s with clusters := mset Cluster.reset s.clusters i (f (s.clusterAt i)) }

def State.slice (s : State) (i : Nat) : Slice := (s.slices.find? (·.id = i)).getD (Slice.reset i)

def State.setSlice (s : State) (x : Slice) : State := { s with slices := upsert (·.id = x.id) x s.slices }

def State.onSlice (s : State) (i : Nat) (f : Slice → Slice) : State := s.setSlice (f (s.slice i))

def State.part? (s : State) (i : Nat) : Option Partition := s.parts.find? (·.id = i)

/-- The partition, or one at its reset values where none has the id. -/
def State.part (s : State) (i : Nat) : Partition := (s.part? i).getD (Partition.reset i)

def State.setPart (s : State) (p : Partition) : State := { s with parts := upsert (·.id = p.id) p s.parts }

def State.onPart (s : State) (i : Nat) (f : Partition → Partition) : State :=
  { s with parts := s.parts.map fun p => if p.id = i then f p else p }

def Partition.members (p : Partition) : List Nat := (List.range 16).filter (p.mask.getLsbD ·)

def Partition.lowest (p : Partition) : Nat := p.members.headD 0

def State.hcore (s : State) (sl h : Nat) : HostCore := mget HostCore.reset (s.slice sl).hcores h

def State.onHcore (s : State) (sl h : Nat) (f : HostCore → HostCore) : State :=
  s.onSlice sl fun x => { x with hcores := mset HostCore.reset x.hcores h (f (mget HostCore.reset x.hcores h)) }

/-- The partition of the group in focus. -/
def State.pid (s : State) : Nat := s.cur.info.key.blk.part

def State.coreKey (s : State) : CoreKey := ⟨s.cur.info.slice, s.cur.info.core⟩

def Group.coreKey (g : Group) : CoreKey := ⟨g.info.slice, g.info.core⟩

/-! ### Free values -/

/-- The `i`-th free number of this step. -/
def State.draw (s : State) (i : Nat) : Nat := Config.free s.free i

/-! ### Fragments -/

def Group.frag (g : Group) (slot : Bool) : Frag := if slot then g.f1 else g.f0

def Group.setFrag (g : Group) (slot : Bool) (f : Frag) : Group := if slot then { g with f1 := f } else { g with f0 := f }

def Group.onFrag (g : Group) (slot : Bool) (h : Frag → Frag) : Group := g.setFrag slot (h (g.frag slot))

def Group.trap (g : Group) (slot : Bool) : Trap := if slot then g.t1 else g.t0

def Group.setTrap (g : Group) (slot : Bool) (t : Trap) : Group := if slot then { g with t1 := t } else { g with t0 := t }

/-- The issuing fragment. -/
def State.frag (s : State) : Frag := s.cur.frag s.issue.slot

def State.onFrag (s : State) (h : Frag → Frag) : State := s.onCur (·.onFrag s.issue.slot h)

/-- The other slot of the issuing group. -/
def State.other (s : State) : Frag := s.cur.frag (!s.issue.slot)

/-- The join states (R211). -/
def FragState.join : FragState → Bool
  | .waitRcv | .waitJoin | .waitBar | .waitLag => true
  | _ => false

def Frag.busy (f : Frag) : Bool := f.st != .free

/-- WAITING (R218): no slot is READY and at least one waits. -/
def Group.waiting (g : Group) : Bool :=
  g.f0.st != .ready && g.f1.st != .ready && (g.f0.busy || g.f1.busy)

/-- Lanes that have not exited: in a slot or on the stack (R211). -/
def Group.live (g : Group) : Mask :=
  g.stack.foldl (fun m f => m ||| f.mask) ((if g.f0.busy then g.f0.mask else 0) ||| (if g.f1.busy then g.f1.mask else 0))

/-- The end of a miss split (R210): LEAD and LAG clear wherever the fragments are, and a leading fragment leaves
WAIT_LAG. -/
def Frag.unsplit (f : Frag) : Frag :=
  { f with lead := false, lag := false, st := if f.st = .waitLag then .ready else f.st }

def Group.endMissSplit (g : Group) : Group :=
  { g with f0 := g.f0.unsplit, f1 := g.f1.unsplit, stack := g.stack.map Frag.unsplit }

/-- A record as the stack holds it (R207): STATE 1. -/
def Frag.record (f : Frag) : Frag :=
  { Frag.none with mask := f.mask, pc := f.pc, depth := f.depth, st := .ready, ord := f.ord }

/-- A push (R208), which ends a miss split (R210) and counts in counter 0x03 (R429). -/
def Group.push (g : Group) (f : Frag) : Group :=
  let g := g.endMissSplit
  { g with stack := f.record :: g.stack, ctrs := mset 0 g.ctrs 3 (mget 0 g.ctrs 3 + 1) }

/-! ### Registers -/

/-- s0 reads zero (R246). -/
def Group.sget (g : Group) (n : Nat) : W64 := if n = 0 then 0 else mget 0 g.sregs n

/-- A write to s0 is discarded. -/
def Group.sset (g : Group) (n : Nat) (v : W64) : Group := if n = 0 then g else { g with sregs := mset 0 g.sregs n v }

def Group.vget (g : Group) (n l : Nat) : W32 := mget 0 g.vregs (32 * n + l)

/-- A write of a whole word, which ends its poison (R128). -/
def Group.vset (g : Group) (n l : Nat) (v : W32) : Group :=
  { g with vregs := mset 0 g.vregs (32 * n + l) v, regPoison := mset false g.regPoison (32 * n + l) false }

def Group.ccget (g : Group) (l : Nat) : Codes := mget 0 g.cc l

def Group.ccset (g : Group) (l : Nat) (c : Codes) : Group := { g with cc := mset 0 g.cc l c }

/-- Vector registers of the window (R74). -/
def GroupInfo.nregs (i : GroupInfo) : Nat := Nat.min (8 * i.rgran) 128

/-! ### Variable-latency results (R250) -/

def ResWrite.apply (w : ResWrite) (g : Group) : Group :=
  match w with
  | .vec n l v => if l < Config.gwidth then g.vset n l v else g
  | .uni n v => g.sset n v
  | .codes l c => g.ccset l c
  | .flags c => { g with flags := c }

/-- What a pending write would change: register and lane. -/
inductive Cell where
  | vec (n l : Nat)
  | uni (n : Nat)
  | codes (l : Nat)
  | flags
deriving DecidableEq, Repr

def ResWrite.cell : ResWrite → Cell
  | .vec n l _ => .vec n l
  | .uni n _ => .uni n
  | .codes l _ => .codes l
  | .flags _ => .flags

def Group.pending (g : Group) (c : Cell) : List ResWrite :=
  g.pend.flatMap fun p => p.writes.filter (·.cell = c)

/-- Every result of a fragment of lanes `m` is written (R249), oldest first. -/
def Group.drain (g : Group) (m : Mask) : Group :=
  let g' := (g.pend.filter fun p => p.mask &&& m ≠ 0).foldl (fun g p => p.writes.foldl (fun g w => w.apply g) g) g
  { g' with pend := g.pend.filter fun p => p.mask &&& m = 0 }

def Group.drainAll (g : Group) : Group := g.drain (BitVec.allOnes 32)

/-- Results that lanes `m` have outstanding are discarded (R278). -/
def Group.discard (g : Group) (m : Mask) : Group :=
  { g with pend := (g.pend.map fun p => { p with
      mask := p.mask &&& ~~~m
      writes := p.writes.filter fun w => match w with
        | .vec _ l _ => !m.getLsbD l
        | .codes l _ => !m.getLsbD l
        | _ => true }).filter (·.mask ≠ 0) }

/-- A place in the free values of one step: operand `k`, register and lane. -/
def drawIx (k n l : Nat) : Nat := (k * 128 + n) * 64 + l + 1000

/-- One of the values a read may return (R250): the register's own, or a pending one, whole. -/
def pick {α : Type} (d : Nat) (own : α) (ps : List α) : α := (ps.drop (d % (ps.length + 1))).headD own

def ResWrite.w32 : ResWrite → W32
  | .vec _ _ v => v
  | _ => 0

def ResWrite.w64 : ResWrite → W64
  | .uni _ v => v
  | _ => 0

def ResWrite.cv : ResWrite → Codes
  | .codes _ c => c
  | .flags c => c
  | _ => 0

/-- What the fragment in focus takes its operands from: its group, or what its instruction captured when it issued. -/
def State.operands (s : State) : Group :=
  match s.frag.cap with
  | none => s.cur
  | some c => { s.cur with mode := c.mode, ovt := c.ovt, sregs := c.sregs, flags := c.flags, vregs := c.vregs, cc := c.cc,
                           pend := c.pend }

/-- The `i`-th free number of the instruction's issue. -/
def State.opDraw (s : State) (i : Nat) : Nat :=
  Config.free (match s.frag.cap with
    | none => s.free
    | some c => c.draw) i

/-- MODE as the instruction took it (R252). -/
def State.mode (s : State) : W32 := s.operands.mode

/-- Operand `k` of the instruction reads lane `l` of v`n`. -/
def State.vread (s : State) (k n l : Nat) : W32 :=
  match s.operands.pending (.vec n l) with
  | [] => s.operands.vget n l
  | ps => pick (s.opDraw (drawIx k n l)) (s.operands.vget n l) (ps.map (·.w32))

/-- Operand `k` reads s`n`. -/
def State.uread (s : State) (k n : Nat) : W64 :=
  if n = 0 then 0 else
  match s.operands.pending (.uni n) with
  | [] => s.operands.sget n
  | ps => pick (s.opDraw (drawIx k n 33)) (s.operands.sget n) (ps.map (·.w64))

/-- Lane codes as the instruction reads them. -/
def State.ccread (s : State) (k l : Nat) : Codes :=
  match s.operands.pending (.codes l) with
  | [] => s.operands.ccget l
  | ps => pick (s.opDraw (drawIx (20 + k) 0 l)) (s.operands.ccget l) (ps.map (·.cv))

/-- Uniform flags as the instruction reads them. -/
def State.flread (s : State) (k : Nat) : Codes :=
  match s.operands.pending .flags with
  | [] => s.operands.flags
  | ps => pick (s.opDraw (drawIx (20 + k) 1 33)) s.operands.flags (ps.map (·.cv))

def Cell.ix : Cell → Nat
  | .vec n l => drawIx 9 n l
  | .uni n => drawIx 9 n 33
  | .codes l => drawIx 10 0 l
  | .flags => drawIx 10 1 0

/-- A write to a register with a pending result (R250): each pending write of the cell is overtaken, or arrives after. -/
def Group.overtake (g : Group) (d : Nat → Nat) (c : Cell) : Group :=
  { g with pend := g.pend.map fun p => { p with writes := p.writes.filter fun w => w.cell ≠ c || d c.ix % 2 = 1 } }

def State.vwrite (s : State) (n l : Nat) (v : W32) : State :=
  s.onCur fun g => (g.overtake s.draw (.vec n l)).vset n l v

def State.uwrite (s : State) (n : Nat) (v : W64) : State :=
  s.onCur fun g => (g.overtake s.draw (.uni n)).sset n v

def State.ccwrite (s : State) (l : Nat) (c : Codes) : State :=
  s.onCur fun g => (g.overtake s.draw (.codes l)).ccset l c

def State.flwrite (s : State) (c : Codes) : State :=
  s.onCur fun g => { g.overtake s.draw .flags with flags := c }

/-- The lanes of fragments for which a result of the fragment's instruction is checked when it comes (R250). -/
def Frag.checkedFor (f : Frag) : Mask := match f.cap with
  | .none => 0
  | some c => c.checked

/-- A result of the fragment waits to be written (R250). -/
def State.deferAs (s : State) (ver : Bool) (ws : List ResWrite) : State :=
  s.onCur fun g => { g with pend := g.pend ++ [⟨s.frag.mask, ws, s.frag.checkedFor, ver, s.issue.pc⟩] }

/-- The result of a variable-latency instruction waits to be written. -/
def State.defer (s : State) (ws : List ResWrite) : State := s.deferAs false ws

/-! ### Faults -/

/-- Cause codes (R390). -/
def Cause.illegalInstruction : BitVec 8 := 0x01
def Cause.illegalOperand : BitVec 8 := 0x02
def Cause.registerWindow : BitVec 8 := 0x03
def Cause.misaligned : BitVec 8 := 0x04
def Cause.stage1 : BitVec 8 := 0x05
def Cause.stage2 : BitVec 8 := 0x06
def Cause.permission : BitVec 8 := 0x07
def Cause.shutter : BitVec 8 := 0x08
def Cause.bucketTransit : BitVec 8 := 0x09
def Cause.malformedGrist : BitVec 8 := 0x0A
def Cause.inexactCodebook : BitVec 8 := 0x0B
def Cause.tagTimeout : BitVec 8 := 0x0C
def Cause.poison : BitVec 8 := 0x0D
def Cause.versionPool : BitVec 8 := 0x0E
def Cause.privilege : BitVec 8 := 0x10
def Cause.subscription : BitVec 8 := 0x11
def Cause.hazard : BitVec 8 := 0x12
def Cause.reconvOverflow : BitVec 8 := 0x13
def Cause.watchdog : BitVec 8 := 0x14
def Cause.breakpoint : BitVec 8 := 0x20
def Cause.software : BitVec 8 := 0x21

/-- A fault as an instruction finds it. -/
structure Flt where
  cause : BitVec 8
  addr : W64 := 0
  detail : W64 := 0
  /-- lanes of the beat already done (R345) -/
  done : Mask := 0
  beat : BitVec 3 := 0
  /-- TPC names the next instruction (R279) -/
  after : Bool := false
  /-- a deferred fault (R393) -/
  deferred : Bool := false
deriving DecidableEq, Repr

/-- What an instruction's effect comes to: a new state, or a fault in the state reached so far. -/
inductive Res where
  | ok (s : State)
  | flt (s : State) (f : Flt)

def Res.bind (r : Res) (k : State → Res) : Res :=
  match r with
  | .ok s => k s
  | .flt s f => .flt s f

/-- A check that raises a cause and changes nothing. -/
def check (b : Bool) (f : Flt) (s : State) (k : Res) : Res := if b then k else .flt s f

/-- The live snapshot table without one reference (R139). The release of the lowest entry starts a sparge pass (R147). -/
def Partition.dropSnap (p : Partition) (ts : Nat) : Partition :=
  let low := p.snaps.foldl (fun m e => Nat.min m e.1) ts
  let gone := p.snaps.any fun e => e.1 = ts && e.2 ≤ 1
  { p with
    snaps := (p.snaps.map fun e => if e.1 = ts then (e.1, e.2 - 1) else e).filter (·.2 ≠ 0)
    spargeDue := p.spargeDue || (gone && low = ts) }

/-- One more reference to a timestamp; none when it needs a new entry and the table of 1,024 is full (R139). -/
def Partition.takeSnap (p : Partition) (ts : Nat) : Option Partition :=
  if p.snaps.any (·.1 = ts) then
    some { p with snaps := p.snaps.map fun e => if e.1 = ts then (e.1, e.2 + 1) else e }
  else if p.snaps.length < 1024 then some { p with snaps := p.snaps ++ [(ts, 1)] }
  else none

/-- Uncommitted versions of a transaction are discarded and its intent released (R144). -/
def Partition.discardTx (p : Partition) (tx : Nat) : Partition :=
  { p with chains := p.chains.map fun e =>
      (e.1, match e.2.unc with
            | some u => if u.tx = tx then { e.2 with unc := none } else e.2
            | none => e.2) }

/-- An abort as the group sees it (R144): one fragment at the abort target with the mask and stack depth that
`txbegin` recorded. After the watchdog it is stopped there (R402). -/
def Group.txAbort (g : Group) (status : BitVec 3) (cause : BitVec 8) : Group :=
  let f : Frag := { Frag.none with
    mask := g.tx.mask, pc := g.tx.target, depth := g.tx.depth, st := .ready
    ord := if g.f0.busy then g.f0.ord else g.f1.ord, halted := g.watchdog }
  { g with
    f0 := f, f1 := .none
    stack := g.stack.drop (g.stack.length - g.tx.height)
    tx := { g.tx with opened := false, status := status, cause := cause, rts := 0, aborting := none } }

/-- Whose lanes an access held at a word belongs to. -/
def Waiter.isOf (w : Waiter) (k : GroupKey) : Bool :=
  match w with
  | .lane g _ _ _ => g = k
  | .sub _ => false

/-- The held accesses of a group are withdrawn. -/
def Block.withdraw (b : Block) (k : GroupKey) : Block := { b with waitQ := b.waitQ.filter fun w => !w.who.isOf k }

/-- An abort of the open transaction of group `k` (R144), counted in counter 0xC1 (R429). -/
def State.txAbort (s : State) (k : GroupKey) (status : BitVec 3) (cause : BitVec 8) : State :=
  match s.group? k with
  | none => s
  | some g =>
    let s := { s with blocks := s.blocks.map (Block.withdraw · k) }
    (s.setGroup (g.txAbort status cause)).onPart k.blk.part fun p =>
      let p := (p.discardTx g.tx.id).dropSnap g.tx.rts.toNat
      { p with ctrs := mset 0 p.ctrs 0xC1 (mget 0 p.ctrs 0xC1 + 1) }

/-- An abort that another agent has caused takes effect; what the transaction still reads of versioned lines is discarded
(R144). -/
def State.conflictAbort (s : State) (status : BitVec 3) : State :=
  (s.onCur fun g => { g with pend := g.pend.filter (!·.ver) }).txAbort s.cur.info.key status 0

/-! ### Control-core events (R240) -/

/-- Fields of a status word. -/
def status (l : List (Nat × Nat)) : W64 := BitVec.ofNat 64 (l.foldl (fun a x => a + x.2 * 2 ^ x.1) 0)

def Ev.placed : Nat := 1
def Ev.restored : Nat := 2
def Ev.blockExit : Nat := 3
def Ev.groupFault : Nat := 4
def Ev.saved : Nat := 5
def Ev.lost : Nat := 6

/-- An event of a grid on a cluster, if the cluster's control core serves the grid. -/
def State.ccEvent (s : State) (cl p grid : Nat) (w : W64) : State :=
  if (s.clusterAt cl).cc ≠ some (p, grid) then s
  else s.onCluster cl fun c =>
    if 64 ≤ c.ring.length then { c with ringLost := c.ringLost + 1 }
    else if c.ringLost = 0 then { c with ring := c.ring ++ [w], ccWaiting := false }
    else
      let l : W64 := Sys2Proof.Machine.status [(0, Ev.lost), (48, Nat.min c.ringLost 0xFFFF)]
      if 64 ≤ c.ring.length + 1 then { c with ring := c.ring ++ [l], ringLost := 1, ccWaiting := false }
      else { c with ring := c.ring ++ [l, w], ringLost := 0, ccWaiting := false }

/-- The event word of a fault of a group. -/
def GroupInfo.faultWord (i : GroupInfo) (cause : BitVec 8) : W64 :=
  Sys2Proof.Machine.status [(0, Ev.groupFault), (8, i.rank % 4), (10, i.key.grp % 16), (16, i.gang % 2 ^ 32),
    (48, cause.toNat)]

/-- TAKING A FAULT (R265, R391): inside a transaction an abort with status 6; otherwise the slot's trap state takes
TPC, TCAUSE, TADDR, TMASK, TBEAT, the detail word and, when deferred, RPC (R393); the fragment stops, and the group enters FAULTED (R218),
a parked one when it resumes. The record is posted by FAULT_POST (R395). A sleep of the other fragment ends (R281). The
control core has its event when the fault occurs (R240). -/
def State.raise (s : State) (f : Flt) : State :=
  if s.cur.tx.opened then s.txAbort s.cur.info.key 6 f.cause
  else
    let fr := s.frag
    let t : Trap := {
      tpc := if f.after then s.issue.pc + 4 else s.issue.pc
      tcause := f.cause
      taddr := f.addr
      tmask := f.done.setWidth 128
      tbeat := f.beat
      detail := f.detail
      rpc := if f.deferred then fr.pc else 0
      defer := f.deferred
      priv := s.cur.priv
      phase := if (s.cur.trap (!s.issue.slot)).phase = .none then .raised else .held }
    let i := s.cur.info
    (s.onCur fun g =>
      let g := (g.setTrap s.issue.slot t).setFrag s.issue.slot
        { fr with done := 0, beat := 0, hold := .none, st := .ready, cap := none }
      { g.onFrag (!s.issue.slot) fun f => { f with sleeping := false } with
        state := if g.state = .parked then .parked else .faulted }).ccEvent (clusterIx s.coreKey) i.key.blk.part i.key.blk.grid
      (i.faultWord f.cause)

/-- The outcome of an instruction. -/
def Res.out : Res → Out
  | .ok s => .next s
  | .flt s f => .next (s.raise f)

/-- TDET (R69). -/
def tdet (stage level kind reason ipa : Nat) : W64 :=
  BitVec.ofNat 64 (stage + level * 4 + kind * 16 + reason * 256 + (ipa / 4096 % 2 ^ 36) * 65536)

/-! ### The program counter and the end check (R274) -/

def Group.lc (g : Group) (i : Nat) : LoopCtr := if i = 0 then g.lc0 else if i = 1 then g.lc1 else g.lc2

def Group.setLc (g : Group) (i : Nat) (c : LoopCtr) : Group :=
  if i = 0 then { g with lc0 := c } else if i = 1 then { g with lc1 := c } else { g with lc2 := c }

def LoopCtr.active (c : LoopCtr) : Bool := c.count != 0

/-- END of a counter (R272). -/
def LoopCtr.stop (c : LoopCtr) : W64 := c.start + 4 * c.len.setWidth 64

def Group.loopActive (g : Group) : Bool := g.lc0.active || g.lc1.active || g.lc2.active

/-- The active counters whose body ends at `e`, in descending NEST. -/
def Group.ending (g : Group) (e : W64) : List Nat :=
  [3, 2, 1, 0].flatMap fun n =>
    [0, 1, 2].filter fun i => (g.lc i).active && (g.lc i).stop = e && (g.lc i).nest.toNat = n

/-- An outcome of a branch or an end check of a slot (R413). -/
def Group.outcome (g : Group) (slot taken : Bool) : Group := { g with checks := g.checks ++ [(slot, taken)] }

/-- The end check for the counters of `is`: the START to repeat at, if one repeats. -/
def Group.endCheck (g : Group) (slot : Bool) : List Nat → Group × Option W64
  | [] => (g, none)
  | i :: is =>
    let c := g.lc i
    if 1 < c.count.toNat then ((g.setLc i { c with count := c.count - 1 }).outcome slot true, some c.start)
    else ((g.setLc i { c with count := 0 }).outcome slot false).endCheck slot is

/-- The end checks of an instruction of `words` words at `pc` that completes in sequence, and where F continues. -/
def Group.sequel (g : Group) (slot : Bool) (pc : W64) (words : Nat) : Group × W64 :=
  let next := pc + BitVec.ofNat 64 (4 * words)
  match g.endCheck slot (g.ending pc) with
  | (g, some t) => (g, t)
  | (g, none) =>
    if words = 2 then
      match g.endCheck slot (g.ending (pc + 4)) with
      | (g, some t) => (g, t)
      | (g, none) => (g, next)
    else (g, next)

/-- F goes to `t`. -/
def State.jump (s : State) (t : W64) : State := s.onFrag fun f => { f with pc := t, done := 0, beat := 0, cap := none }

/-- F completes in sequence; after the lanes of a deferred fault it continues at RPC (R398). -/
def State.advance (s : State) : State :=
  match s.frag.redo with
  | some t => s.onFrag fun f => { f with pc := t, done := 0, beat := 0, redo := none, cap := none }
  | none =>
    let r := s.cur.sequel s.issue.slot s.issue.pc s.issue.words
    ({ s with cur := r.1 }).jump r.2

/-- The fragment of a slot completes its one-word instruction after a wait. -/
def Group.finish (g : Group) (slot : Bool) : Group :=
  let f := g.frag slot
  match f.redo with
  | some t => g.setFrag slot { f with pc := t, done := 0, beat := 0, redo := none, st := .ready, hold := .none, cap := none }
  | none =>
    let r := g.sequel slot f.pc 1
    r.1.setFrag slot { f with pc := r.2, done := 0, beat := 0, st := .ready, hold := .none, cap := none }

/-! ### L1 lines (R89, R112, R113, R128) -/

def L1Line.part : L1Line → Nat
  | .hc p _ _ => p
  | .sc p _ _ _ _ _ => p

def L1Line.line : L1Line → Nat
  | .hc _ l _ => l
  | .sc _ l _ _ _ _ => l

/-- The line of an L1 line: partition and line. -/
def L1Line.place (l : L1Line) : Nat × Nat := (l.part, l.line)

def L1Line.isHc : L1Line → Bool
  | .hc _ _ _ => true
  | .sc _ _ _ _ _ _ => false

def L1Line.dirty : L1Line → BitVec 64
  | .hc _ _ _ => 0
  | .sc _ _ _ d _ _ => d

/-- Bytes that only this L1 holds: the dirty ones, and all of a tracked copy in M. -/
def L1Line.only : L1Line → BitVec 64
  | .hc _ _ .modified => BitVec.allOnes 64
  | .hc _ _ _ => 0
  | .sc _ _ _ d _ _ => d

def Core.l1At (c : Core) (p ln : Nat) : Option L1Line := c.l1.find? fun l => l.part = p && l.line = ln

/-- A line leaves the L1, and what poison its words there had. -/
def Core.dropL1 (c : Core) (p ln : Nat) : Core :=
  { c with
    l1 := c.l1.filter fun l => !(l.part = p && l.line = ln)
    l1Bad := c.l1Bad.filter fun w => !(w.1 = p && w.2.1 = ln) }

/-- The L1 lines of a core that meet a test stay. -/
def Core.keepL1 (c : Core) (f : L1Line → Bool) : Core :=
  { c with
    l1 := c.l1.filter f
    l1Bad := c.l1Bad.filter fun w => c.l1.any fun l => f l && l.part = w.1 && l.line = w.2.1 }

def Core.putL1 (c : Core) (x : L1Line) : Core :=
  { c with l1 := x :: c.l1.filter fun l => !(l.part = x.part && l.line = x.line) }

/-- Some of the bytes of a mask stand in a poisoned word of the L1's line. -/
def Core.badIn (c : Core) (p ln : Nat) (mask : BitVec 64) : Bool :=
  c.l1Bad.any fun w => w.1 = p && w.2.1 = ln && fld mask (4 * w.2.2 + 3) (4 * w.2.2) ≠ 0

/-- Words that a store writes whole lose their poison. -/
def Core.clearBad (c : Core) (p ln : Nat) (mask : BitVec 64) : Core :=
  { c with l1Bad := c.l1Bad.filter fun w => !(w.1 = p && w.2.1 = ln && fld mask (4 * w.2.2 + 3) (4 * w.2.2) = 15) }

/-- The lines that the L1 held when the instruction issued (R210). -/
def State.l1Held (s : State) : List (Nat × Nat) := match s.frag.cap with
  | none => (s.core s.coreKey).l1.map (·.place)
  | some c => c.l1

/-- The lanes that missed before the instruction was held. -/
def State.missed (s : State) : Mask := match s.frag.cap with
  | none => 0
  | some c => c.missed

/-- What the instruction at issue has taken; a result of its own does not stand among the pending ones yet. -/
def State.capture (s : State) : Captured :=
  match s.frag.cap with
  | some c => c
  | none =>
    let i := s.issue
    let g := s.cur
    ⟨⟨i.instr, i.w, i.s, i.words⟩, g.mode, g.ovt, g.sregs, g.flags, g.vregs, g.cc, g.pend, (s.core s.coreKey).tslots,
      s.free, s.cycle, 0, s.l1Held, 0⟩

/-- F's instruction goes on later, with what it captured and the lanes done so far (R345), and F waits meanwhile. -/
def State.holdAt (s : State) (h : Hold) (st : FragState) (done : Mask) (beat : BitVec 3) : State :=
  let c := s.capture
  s.onFrag fun f => { f with st := st, hold := h, done := done, beat := beat, cap := some c,
                                halted := f.halted || (st = .waitMem && s.cur.stopReq) }

/-! ### Returning from a handler (R282) -/

/-- RETURN FROM A HANDLER: user level at TPC. The trap state keeps its values; the done state with which the
instruction issues again is the TMASK and TBEAT then held, and after a deferred fault F continues at RPC (R398). -/
def State.eret (s : State) : State :=
  let t := s.cur.trap s.issue.slot
  s.onCur fun g =>
    { g.setFrag s.issue.slot { s.frag with
        pc := t.tpc, done := t.tmask.setWidth 32, beat := t.tbeat, unwatched := true
        redo := if t.defer then some t.rpc else none } with priv := false }

/-! ### Interrupts (R29) -/

/-- An event of source kind `k` of slice `sl`: the enabled source is delivered to its target host core, once. -/
def State.interrupt (s : State) (p sl k : Nat) : State :=
  let e := mget 0 (s.part p).irt (16 * sl + k)
  if e.getLsbD 7 && fld e 18 8 ≠ 0 then
    s.onHcore (fld e 3 0) (fld e 6 4) fun h => { h with imsic := h.imsic ++ [fld e 18 8], wfi := false }
  else s

/-! ### Counters (R429) -/

def State.countGroup (s : State) (i n : Nat) : State :=
  s.onCur fun g => { g with ctrs := mset 0 g.ctrs i (mget 0 g.ctrs i + BitVec.ofNat 64 n) }

def State.countCore (s : State) (c : CoreKey) (i n : Nat) : State :=
  s.onCore c fun x => { x with ctrs := mset 0 x.ctrs i (mget 0 x.ctrs i + BitVec.ofNat 64 n) }

def State.countSlice (s : State) (sl i n : Nat) : State :=
  s.onSlice sl fun x => { x with ctrs := mset 0 x.ctrs i (mget 0 x.ctrs i + BitVec.ofNat 64 n) }

def State.countPart (s : State) (p i n : Nat) : State :=
  s.onPart p fun x => { x with ctrs := mset 0 x.ctrs i (mget 0 x.ctrs i + BitVec.ofNat 64 n) }

end Sys2Proof.Machine
end

