-- ==== Sys2Proof/Machine/Emit.lean ====
section
/-! DEFINITION. Trace packets and the frames that hold them (R409 to R418). -/

namespace Sys2Proof.Machine

/-! ### Frames (R410, R411) -/

/-- The open frame is filled with PAD and held for the ring; byte 0 takes FIRST. -/
def TraceUnit.close (t : TraceUnit) : TraceUnit :=
  match t.frame with
  | [] => t
  | h :: r =>
    let h : Byte := if t.first then h ||| 0x80 else h
    { t with frame := [], held := t.held ++ [h :: r ++ List.replicate (63 - r.length) 0], first := false }

/-- Bytes go into the open frame of core `k`, or a new one, if the buffer of 2 KiB has room; no packet spans two frames. -/
def TraceUnit.fit (t : TraceUnit) (k : Nat) (bs : List Byte) : Option TraceUnit :=
  let spills := !t.frame.isEmpty && 64 < t.frame.length + bs.length
  let used := if spills then 64 * (t.held.length + 1) + 1 else 64 * t.held.length + Nat.max t.frame.length 1
  if 2048 < used + bs.length then none
  else
    let t := if spills then t.close else t
    let f := (if t.frame.isEmpty then [BitVec.ofNat 8 k] else t.frame) ++ bs
    let t := { t with frame := f }
    some (if f.length = 64 then t.close else t)

/-- A unit at work, with the bytes dropped now. -/
structure Tracing where
  core : Nat
  u : TraceUnit
  dropped : Nat

/-- A packet is put in, or dropped while a LOSS is due or no room is left. -/
def Tracing.put (x : Tracing) (bs : List Byte) : Tracing :=
  match if x.u.loss = 0 then x.u.fit x.core bs else none with
  | some u => { x with u := u }
  | none => { x with u := { x.u with loss := x.u.loss + bs.length }, dropped := x.dropped + bs.length }

/-- The LOSS packet, once there is room: FIRST follows, and every stream emits a SYNC next. -/
def Tracing.report (x : Tracing) : Tracing :=
  if x.u.loss = 0 then x
  else match x.u.fit x.core (0x08 :: bytesOf 4 (BitVec.ofNat 32 (Nat.min x.u.loss (2 ^ 32 - 1)))) with
    | some u => { x with u := { u with loss := 0, first := true, synced := [] } }
    | none => x

/-! ### Packets (R412 to R414) -/

/-- What an emission reports. -/
inductive Pkt where
  /-- an outcome of a branch or an end check -/
  | outcome (taken : Bool)
  /-- A = 0 a split by `brv`, 1 a miss split -/
  | mask (a : Nat) (m : Mask)
  | tgt (pc : W64)
  | frag (a : Nat)
  | sync
  | stop (kind : Nat) (cause : BitVec 8) (pc : W64)
  | mark (v : W32)
  /-- SAMPLE and MEMS -/
  | record (b : List Byte)

/-- Packets that FLOW enables (R409). -/
def Pkt.isFlow : Pkt → Bool
  | .outcome _ | .mask _ _ | .tgt _ | .frag _ => true
  | _ => false

/-- A stream as its slot byte (R412). -/
def streamOf (g : Group) (slot : Bool) : Nat := g.info.slot % 64 + if slot then 64 else 0

/-- Bytes that a number needs, at least one, at most 8. -/
def byteCount (n : Nat) : Nat := (List.range 8).foldl (fun k i => if 2 ^ (8 * i) ≤ n then i + 1 else k) 1

/-- A TS when the time differs from the time base. -/
def Tracing.ts (x : Tracing) (time : Nat) : Tracing :=
  if time = x.u.timeBase then x
  else
    let d := time - x.u.timeBase
    let n := byteCount d
    let x := x.put (BitVec.ofNat 8 (4 + 16 * n) :: bytesOf n (BitVec.ofNat 64 d))
    { x with u := { x.u with timeBase := time } }

/-- A FRAG with A = 0 before a flow packet of another stream than the previous one's. -/
def Tracing.switch (x : Tracing) (stream : Nat) (ord : BitVec 16) (time : Nat) : Tracing :=
  if x.u.lastStream = some stream then x
  else
    let x := (x.ts time).put (0x06 :: BitVec.ofNat 8 stream :: bytesOf 2 ord)
    { x with u := { x.u with lastStream := some stream } }

/-- The group of a stream of a core, as far as it is there. -/
def State.streamGroup (s : State) (k : CoreKey) (stream : Nat) : Option Group :=
  s.allGroups.find? fun g => g.coreKey = k && g.info.slot = stream % 64 && g.state ≠ .none && g.state ≠ .saved

/-- SYNC: the state of a stream, which becomes the time base and LA (R412, R416, R486). -/
def Tracing.sync (x : Tracing) (g : Group) (slot : Bool) (time : Nat) : Tracing :=
  let f := g.frag slot
  let st := streamOf g slot
  let x := x.put (0x05 :: BitVec.ofNat 8 st :: BitVec.ofNat 8 (g.info.key.grp % 16 + if g.priv then 16 else 0) ::
    (bytesOf 2 f.ord ++ [f.depth, BitVec.ofNat 8 g.stack.length] ++ bytesOf 4 (BitVec.ofNat 32 g.info.key.blk.blk) ++
     bytesOf 4 f.mask ++ bytesOf 8 f.pc ++ bytesOf 8 (BitVec.ofNat 64 time)))
  { x with u := { x.u with timeBase := time, la := f.pc, lastStream := some st, synced := st :: x.u.synced } }

/-- The pending outcomes as a BR (R413), after the LOSS and the SYNC that are due before it (R411, R416); `who` is the group
of their stream. -/
def Tracing.branches (x : Tracing) (who : Option Group) : Tracing :=
  if x.u.outcomes.isEmpty then x
  else
    let os := x.u.outcomes
    let st := x.u.outcomeStream
    let n := os.length
    let v := (os.zipIdx).foldl (fun v o => if o.1 then v + 2 ^ o.2 else v) 0
    let slot := decide (64 ≤ st)
    let x := x.report
    let x := match who with
      | some g => if x.u.synced.contains st then x else x.sync g slot x.u.outcomeTime
      | none => x
    let x := ((x.switch st (who.elim 0xFFFF fun g => (g.frag slot).ord) x.u.outcomeTime).ts x.u.outcomeTime).put
      (BitVec.ofNat 8 (1 + 16 * n) :: bytesOf ((n + 7) / 8) (BitVec.ofNat 16 v))
    { x with u := { x.u with outcomes := [] } }

/-- The bytes of a packet of a stream. -/
def Pkt.bytes (p : Pkt) (g : Group) (slot : Bool) (la : W64) : List Byte :=
  let f := g.frag slot
  let head := BitVec.ofNat 8 (streamOf g slot) :: bytesOf 2 f.ord
  match p with
  | .mask a m => BitVec.ofNat 8 (2 + 16 * a) :: bytesOf 4 m
  | .tgt pc =>
    let n := byteCount (pc ^^^ la).toNat
    BitVec.ofNat 8 (3 + 16 * n) :: bytesOf n pc
  | .frag a => BitVec.ofNat 8 (6 + 16 * a) :: head ++ if 1 ≤ a && a ≤ 4 then bytesOf 4 f.mask else []
  | .stop k c pc => BitVec.ofNat 8 (9 + 16 * k) :: head ++ [c] ++ bytesOf 8 pc
  | .mark v => 0x0C :: head ++ bytesOf 4 v
  | .record b => b
  | .outcome _ => []
  | .sync => []

/-- The unit emits a packet of a stream: a LOSS, pending outcomes, a SYNC and a switch come before it. -/
def Tracing.emit (x : Tracing) (who : Nat → Option Group) (g : Group) (slot : Bool) (time : Nat) (p : Pkt) : Tracing :=
  let st := streamOf g slot
  let isOutcome := match p with
    | .outcome _ => true
    | _ => false
  let isSync := match p with
    | .sync => true
    | _ => false
  let due := fun (x : Tracing) => isSync || !x.u.synced.contains st
  let x := if !isOutcome || x.u.outcomeStream ≠ st || due x || x.u.loss ≠ 0 then
      x.report.branches (who x.u.outcomeStream) else x.report
  let x := if due x then x.sync g slot time else x
  match p with
  | .sync => x
  | .outcome taken =>
    let x := { x with u := { x.u with outcomes := x.u.outcomes ++ [taken], outcomeStream := st, outcomeTime := time } }
    if x.u.outcomes.length = 15 then x.branches (some g) else x
  | p =>
    let x := if p.isFlow then x.switch st (g.frag slot).ord time else x
    let x := (x.ts time).put (p.bytes g slot x.u.la)
    match p with
    | .tgt pc => { x with u := { x.u with la := pc } }
    | _ => x

/-! ### Emission -/

/-- Core `k` of the slice is selected by TRCTL (R409). -/
def traced (trctl : W64) (k : Nat) : Bool := trctl.getLsbD 0 && trctl.getLsbD (16 + k)

/-- The grid filter lets the group's streams through. -/
def Slice.traces (x : Slice) (g : Group) : Bool :=
  traced x.trctl g.info.core && (x.trgrid.getLsbD 63 || fld x.trgrid 41 0 = g.info.key.blk.grid % 2 ^ 42)

/-- TTIME (R414). -/
def State.ttime (s : State) (sl : Nat) : Nat := s.cycle - (s.slice sl).openedAt

/-- A unit's work done: dropped bytes are counted in LOST, which saturates, and set OVF (R411). -/
def State.withTrace (s : State) (k : CoreKey) (f : Tracing → Tracing) : State :=
  let x := f ⟨k.core, (s.core k).trace, 0⟩
  let s := s.onCore k fun c => { c with trace := x.u }
  if x.dropped = 0 then s
  else s.onSlice k.slice fun y =>
    let lost := Nat.min (fld y.trstat 31 0 + x.dropped) (2 ^ 32 - 1)
    { y with trstat := BitVec.ofNat 64 (lost + 2 ^ 32) }

/-- A packet of a stream of a traced group. -/
def State.emit (s : State) (g : Group) (slot : Bool) (p : Pkt) : State :=
  let x := s.slice g.info.slice
  if !x.traces g || (p.isFlow && !x.trctl.getLsbD 1) then s
  else s.withTrace g.coreKey fun t => t.emit (s.streamGroup g.coreKey) g slot (s.ttime g.info.slice) p

/-- The same for the group of a key as it stands now. -/
def State.emitOf (s : State) (k : GroupKey) (slot : Bool) (p : Pkt) : State :=
  match s.group? k with
  | some g => s.emit g slot p
  | none => s

/-- Groups in the order in which a core's packets of one time stand: by ascending group slot (R415). -/
def bySlot (gs : List Group) : List Group := gs.foldr (insertBy fun a b => decide (a.info.slot ≤ b.info.slot)) []

/-- A SYNC of each busy stream of a group (R416). -/
def State.emitSyncs (s : State) (k : GroupKey) : State :=
  [false, true].foldl (fun s b => match s.group? k with
    | some g => if (g.frag b).busy then s.emit g b .sync else s
    | none => s) s

end Sys2Proof.Machine
end

