-- ==== Sys2Proof/Machine/Memory.lean ====
section
/-! DEFINITION. Memory at its home: the partition address map (R23), buckets (R26), bytes under their KEY_ID (R65,
R66), poison (R128) and version chains (R135 to R147). -/

namespace Sys2Proof.Machine

/-! ### The address map -/

/-- What lies at a PPA (R23, R24, R25). -/
inductive Space where
  | mem
  | window (sl off : Nat)
  | control (off : Nat)
  | host
  | none
deriving DecidableEq, Repr

def Partition.space (p : Partition) (ppa : Nat) : Space :=
  if ppa < 0x010000000000 then if ppa < p.htop.toNat * 2 ^ 30 then .mem else .none
  else if ppa < 0x030000000000 then if ppa < 0x010000000000 + p.ttop.toNat * 2 ^ 30 then .mem else .none
  else if ppa < 0x0F0000000000 then .none
  else if ppa < 0x0F0100000000 then .window (ppa / 2 ^ 28 % 16) (ppa % 2 ^ 28)
  else if ppa < 0x0F0100010000 then .control (ppa % 2 ^ 16)
  else if ppa < 0x100000000000 then .none
  else if ppa < 0x200000000000 then if Config.linkHolder = some p.id then .host else .none
  else .none

/-- Ranges that no translated access reaches: stack areas while SPOOL.EN is 1 (R221), the save pool (R404). -/
def Partition.deviceOwned (p : Partition) (ppa : Nat) : Bool :=
  let sb := fld p.spool 47 11 * 2048
  let vb := fld p.svpool 47 16 * 65536
  (p.spool.getLsbD 0 && sb ≤ ppa && ppa < sb + fld p.spool 63 48 * 2048) ||
  (p.svpool.getLsbD 0 && vb ≤ ppa && ppa < vb + fld p.svpool 63 48 * 65536)

/-- A range of memory that lies in the partition's memory. -/
def Partition.inMemory (p : Partition) (ppa n : Nat) : Bool :=
  n = 0 || (p.space ppa = .mem && p.space (ppa + n - 1) = .mem)

/-! ### Buckets (R26) -/

def bucketOf (ppa : Nat) : Nat := (ppa / 2 ^ 20 % 1024) ^^^ (ppa / 2 ^ 30 % 1024)

def Partition.bucket (p : Partition) (ppa : Nat) : BitVec 16 := mget 0 p.buckets (bucketOf ppa)

def Partition.home (p : Partition) (ppa : Nat) : Nat := fld (p.bucket ppa) 3 0
def Partition.transit (p : Partition) (ppa : Nat) : Bool := (p.bucket ppa).getLsbD 8
def Partition.lost (p : Partition) (ppa : Nat) : Bool := (p.bucket ppa).getLsbD 9

/-- Why an access to memory waits before its home accepts it: a bucket in transit (R37), a function that is not ready
(R460), a sleeping or sealed slice (R462, R17). -/
def State.homeHold (s : State) (p ppa : Nat) (gva : W64) : Hold :=
  let x := s.part p
  if x.transit ppa then .bucket gva
  else
    let h := s.slice (x.home ppa)
    let memBit := if ppa < 0x010000000000 then 1 else 2
    if h.srdy.getLsbD 0 && h.srdy.getLsbD 3 && h.srdy.getLsbD memBit && h.power = 0 && h.shutter ≠ 0 then .none else .ready (x.home ppa)

/-- A sleeping slice has a reason to wake (R462). -/
def State.rouse (s : State) (sl : Nat) (w : WakeCause) : State :=
  if (s.slice sl).power = 0 || (s.slice sl).waking then s
  else { s with agenda := s.agenda ++ [⟨.powerWake, { StepArgs.zero with slice := sl, wake := w }⟩] }

/-- A request that waits wakes the slice on which it is homed. -/
def State.knock (s : State) (p ppa : Nat) : State :=
  if (s.part p).space ppa ≠ .mem || (s.part p).lost ppa || (s.part p).transit ppa then s
  else s.rouse ((s.part p).home ppa) .request

/-- Slices that an access has woken stay so while it waits. -/
def State.knocked (s t : State) : State := { s with agenda := t.agenda }

/-- Accesses to host memory go out: the link is ready (R460). -/
def Partition.hostLinked (x : Partition) : Bool := x.prdy.getLsbD 1

/-! ### Bytes -/

/-- Memory in its one form: addresses strictly rising, and no byte listed that equals what an unlisted address reads
as, the zero pattern (R65). -/
def Memory.wf (m : List Host.Cell) : Bool := mwf 0 m

/-- The key of a byte in `State.mem`. -/
def pa (p ppa : Nat) : Nat := p * 2 ^ 48 + ppa % 2 ^ 48

def lineIx (p ppa : Nat) : Nat := pa p ppa / 64

def State.rawByte (s : State) (a : Nat) : Byte := mget 0 s.mem a

/-- A line as stored. -/
def State.rawLine (s : State) (ln : Nat) : List Byte := (span (64 * ln) 64).map s.rawByte

/-- A byte read under a KEY_ID: as stored when the line holds the zero pattern or records that KEY_ID, otherwise
decrypted under the wrong key (R65, R66). -/
def State.byteAt (s : State) (p key ppa : Nat) : Byte :=
  let ln := lineIx p ppa
  let k := mget 0 s.lineKey ln
  if k = 0 ∨ k = key + 1 then s.rawByte (pa p ppa)
  else Config.recrypt p (k - 1) key ln (s.rawLine ln) (ppa % 64)

def State.bytesAt (s : State) (p key ppa n : Nat) : List Byte := (span ppa n).map (s.byteAt p key)

def State.readMem (s : State) (p key ppa n : Nat) (w : Nat) : BitVec w := valOfBytes w (s.bytesAt p key ppa n)

/-- The line as KEY_ID `key` reads it becomes its content, and records that KEY_ID (R66). -/
def State.rekey (s : State) (p key ln : Nat) : State :=
  let k := mget 0 s.lineKey ln
  if k = key + 1 then s
  else if k = 0 then { s with lineKey := mset 0 s.lineKey ln (key + 1) }
  else
    let d := s.rawLine ln
    { s with
      mem := forN 64 (fun i m => mset 0 m (64 * ln + i) (Config.recrypt p (k - 1) key ln d i)) s.mem
      lineKey := mset 0 s.lineKey ln (key + 1) }

/-- Bytes stored at consecutive addresses. -/
def putBytes (m : List Host.Cell) (a : Nat) : List Byte → List Host.Cell
  | [] => m
  | b :: r => putBytes (mset 0 m a b) (a + 1) r

def wordAt (m : List Host.Cell) (a : Nat) : W32 := valOfBytes 32 ((span a 4).map (mget 0 m))

/-- Words that a fetch may still return in their earlier values (R247), while some grid of the partition lives. -/
def State.noteStale (s s' : State) (p a n : Nat) : State :=
  if (s.part p).grids.isEmpty then s'
  else
    { s' with stale := (List.range (n / 4 + 2)).foldl (fun st i =>
        let w := a / 4 + i
        let old := wordAt s.mem (4 * w)
        if old = wordAt s'.mem (4 * w) then st else mset [] st w ((s.cycle, old) :: mget [] st w)) s'.stale }

/-- Bytes written under a KEY_ID. -/
def State.memWrite (s : State) (p key ppa : Nat) (bs : List Byte) : State :=
  let a := pa p ppa
  let l0 := a / 64
  let l1 := (a + bs.length - 1) / 64
  let s1 := if bs.isEmpty then s else (List.range (l1 + 1 - l0)).foldl (fun s i => s.rekey p key (l0 + i)) s
  let s2 := { s1 with mem := putBytes s1.mem a bs }
  s.noteStale s2 p a bs.length

def State.poisoned (s : State) (p ppa : Nat) : Bool := mget false s.poison (lineIx p ppa)

def State.setPoison (s : State) (p ppa : Nat) (b : Bool) : State :=
  { s with poison := mset false s.poison (lineIx p ppa) b }

/-- A range of bytes holds poison. -/
def State.anyPoison (s : State) (p ppa n : Nat) : Bool :=
  if s.poison.isEmpty || n = 0 then false
  else (List.range ((pa p ppa + n - 1) / 64 + 1 - pa p ppa / 64)).any fun i =>
    mget false s.poison (pa p ppa / 64 + i)

/-- Every line wholly written by one request loses its poison (R128). -/
def State.clearWritten (s : State) (p ppa n : Nat) : State :=
  if s.poison.isEmpty then s
  else
    let a := pa p ppa
    { s with poison := s.poison.filter fun e => !(a ≤ 64 * e.1 && 64 * e.1 + 64 ≤ a + n) }

/-! ### Copies outside the home, claims, and the last-level cache (R111 to R113, R122 to R124) -/

/-- Bytes of a line selected by a mask taken from `new`. -/
def mergeBytes (old new : List Byte) (mask : BitVec 64) : List Byte :=
  (List.range 64).map fun i => if mask.getLsbD i then (new.drop i).headD 0 else (old.drop i).headD 0

/-- Some core holds the line in M with a poisoned word. -/
def State.badCopy (s : State) (p ln : Nat) : Bool :=
  s.cores.any fun c => match c.l1At p ln with
    | some l => l.isHc && c.badIn p ln l.only
    | none => false

/-- A tracked copy leaves M, S or E at a core: poison of words that only it held goes with its data to the home (R128). -/
def State.passBad (s : State) (p ln : Nat) : State := if s.badCopy p ln then s.setPoison p (64 * ln) true else s

/-- Tracked copies of a line are recalled from every core but one (R113, R115). -/
def State.recallHc (s : State) (keep : Option CoreKey) (p ln : Nat) : State :=
  let s := s.passBad p ln
  { s with cores := s.cores.map fun c =>
      if some c.key = keep then c
      else match c.l1At p ln with
        | some (.hc _ _ _) => c.dropL1 p ln
        | _ => c }

/-- Tracked copies of a line elsewhere become shared (R113). -/
def State.shareHc (s : State) (p ln : Nat) : State :=
  let s := s.passBad p ln
  { s with cores := s.cores.map fun c =>
      match c.l1At p ln with
      | some (.hc _ _ _) => c.putL1 (.hc p ln .shared)
      | _ => c }

/-- An engine holds a claim on the line (R124). -/
def State.claimed (s : State) (p ppa : Nat) : Bool := s.slices.any fun x => x.claims.any fun c => c.2.1 = p && c.2.2 = ppa / 64

/-- The host must answer a back-invalidation first (R452): it holds the line modified, or the access writes. -/
def State.hostHolds (s : State) (p ppa : Nat) (write : Bool) : Bool :=
  s.slices.any fun x => x.snoop.any fun e => e.1 = p && e.2.1 = ppa / 64 && (write || e.2.2)

/-- Why an access at a home waits. -/
def State.memHold (s : State) (p ppa : Nat) (gva : W64) (write : Bool) : Hold :=
  match s.homeHold p ppa gva with
  | .none => if s.claimed p ppa then .claim else if s.hostHolds p ppa write then .host else .none
  | h => h

/-- Why a read waits at the home: an engine's claim does not hold that of another engine (R124). -/
def State.readHold (s : State) (p ppa : Nat) (gva : W64) (engine : Bool) : Hold :=
  match s.memHold p ppa gva false with
  | .claim => if engine then (if s.hostHolds p ppa false then .host else .none) else .claim
  | h => h

/-- Lines of a slice's last-level cache of 1 GiB (R2, R3). -/
def llcLines : Nat := 2 ^ 24

/-- A line that the cache may give up: neither claimed (R123) nor held by the host. -/
def State.llcFree (s : State) (ix : Nat) : Bool :=
  let p := ix / 2 ^ 42
  let a := ix % 2 ^ 42 * 64
  !s.claimed p a && !s.hostHolds p a true

/-- Bytes that an access moves in the memory behind a last-level cache: none when it hits; of a miss a free number. -/
def State.missBytes (s : State) (p ppa ix : Nat) : Nat :=
  if mget 0 (s.slice ((s.part p).home ppa)).llc (lineIx p ppa) ≠ 0 then 0 else s.draw ix % 64 + 1

/-- A hit or a miss of the last-level cache is counted, and what a miss reads from HBM4E (R429). -/
def State.countServed (s : State) (p ppa ix : Nat) : State :=
  let miss := s.missBytes p ppa ix
  s.onSlice ((s.part p).home ppa) fun y =>
    let add := fun (m : NatMap W64) i v => mset 0 m i (mget 0 m i + BitVec.ofNat 64 v)
    { y with ctrs :=
        if miss = 0 then add y.ctrs 0x80 1
        else
          let c := add y.ctrs 0x81 1
          if ppa < 0x010000000000 then add c 0x82 miss else c }

/-- The last-level cache of the home serves an access of a mode to a line, and holds the line (R111). A full one gives up
another, which leaves by its own request (R112). -/
def State.served (s : State) (p ppa coh : Nat) (ix : Nat := 914) : State :=
  let h := (s.part p).home ppa
  let ln := lineIx p ppa
  let c := (s.slice h).llc
  let s := s.countServed p ppa ix
  let put := fun (m : NatMap Nat) => s.onSlice h fun y => { y with llc := mset 0 m ln (coh + 1) }
  if mget 0 c ln ≠ 0 || c.length < llcLines then put c
  else
    let l := c.filter fun e => s.llcFree e.1
    match (l.drop (s.draw 913 % l.length)).head? with
    | none => put c
    | some e =>
      let s' := put (odel c e.1)
      { s' with agenda := s'.agenda ++ [⟨.homeRequest, { StepArgs.zero with
          req := ⟨e.1 / 2 ^ 42, 0, 0, e.1 % 2 ^ 42 * 64, false, .evict, none, none, 0⟩ }⟩] }

/-! ### Version chains -/

/-- A line without a chain (R135). -/
def Chain.none : Chain := ⟨0, [], Option.none, false⟩

def State.chain (s : State) (p ppa : Nat) : Chain := mget .none (s.part p).chains (ppa / 64)

def State.setChain (s : State) (p ppa : Nat) (c : Chain) : State :=
  s.onPart p fun x => { x with chains := mset Chain.none x.chains (ppa / 64) c }

/-- The version clock: the largest T such that every commit up to T has completed (R133). -/
def Partition.vclock (p : Partition) : Nat := p.committing.foldl (fun m t => Nat.min m (t - 1)) p.issued

/-- A version is reached by a live read timestamp: at least its own, below that of the next newer one (R147). -/
def Partition.reached (p : Partition) (ts newer : Nat) : Bool := p.snaps.any fun e => ts ≤ e.1 && e.1 < newer

/-- The older versions that some live read timestamp reaches (R147). -/
def Partition.keepReached (p : Partition) (newer : Nat) : List Version → List Version
  | [] => []
  | v :: r => if p.reached v.ts newer then v :: p.keepReached v.ts r else p.keepReached v.ts r

def Version.spilled (v : Version) : Bool := v.record.isSome

/-- Bytes of a version, from the pool when spilled; a record whose LINE no longer matches is poisoned (R145). -/
def State.versionBytes (s : State) (p ppa : Nat) (v : Version) : List Byte × Bool :=
  match v.record with
  | none => (v.data, v.poison)
  | some r =>
    let x := s.part p
    let base := fld x.vpbase 39 12 * 4096 + 128 * r
    let key := fld x.vpbase 59 48
    let bad := s.readMem p key (base + 72) 8 64 &&& 0x3FFFFFFFFFF#64 ≠ BitVec.ofNat 64 (ppa / 64)
    (s.bytesAt p key base 64, bad || (s.readMem p key (base + 72) 8 64).getLsbD 42 || s.anyPoison p base 128)

/-- A coherent read reaches the home: other L1s keep shared copies of an HC line (R113); for another mode, or a versioned
line, tracked copies are recalled (R115, R137). -/
def State.copiesFor (s : State) (p ppa coh : Nat) (ver : Bool) : State :=
  if coh = 0 && !ver && s.chain p ppa = .none then s.shareHc p (ppa / 64) else s.recallHc none p (ppa / 64)

def State.homeCopies (s : State) (p ppa coh : Nat) (ver : Bool) : State := (s.copiesFor p ppa coh ver).served p ppa coh

/-- The lines of a range are read at their homes without translation. -/
def State.readLines (s : State) (p ppa n : Nat) : State :=
  if n = 0 then s
  else (List.range ((ppa + n - 1) / 64 + 1 - ppa / 64)).foldl (fun s i =>
    let a := (ppa / 64 + i) * 64
    if (s.part p).space a = .mem then s.homeCopies p a 0 false else s) s

/-- Who reads: a read timestamp, and the open transaction's id (R138). -/
structure Reader where
  rts : Option Nat
  tx : Option Nat
deriving DecidableEq, Repr

/-- A reader with neither snapshot nor transaction. -/
def Reader.plain : Reader := ⟨none, none⟩

/-- `read_version` (R138): the 64 bytes of a line and its poison mark as the reader sees them under a KEY_ID. -/
def State.readVersion (s : State) (p key ppa : Nat) (r : Reader) : List Byte × Bool :=
  let base := ppa / 64 * 64
  let cur := fun (_ : Unit) => (s.bytesAt p key base 64, s.poisoned p ppa)
  let c := s.chain p ppa
  match c.unc, r.tx with
  | some u, some t =>
    if u.tx = t then (u.data, u.poison)
    else (match r.rts with
          | none => cur ()
          | some ts => if c.ts ≤ ts then cur () else
              match c.older.find? (·.ts ≤ ts) with
              | some v => s.versionBytes p ppa v
              | none => cur ())
  | _, _ =>
    match r.rts with
    | none => cur ()
    | some ts => if c.ts ≤ ts then cur () else
        match c.older.find? (·.ts ≤ ts) with
        | some v => s.versionBytes p ppa v
        | none => cur ()

/-- Bytes at a home, and whether any is poisoned; no access crosses a line. -/
def State.homeRead (s : State) (p key ppa n : Nat) (r : Reader) : List Byte × Bool :=
  if s.chain p ppa = .none then (s.bytesAt p key ppa n, s.anyPoison p ppa n)
  else
    let v := s.readVersion p key ppa r
    ((v.1.drop (ppa % 64)).take n, v.2)

/-- What becomes of a write at its home. -/
inductive WriteEnd where
  | ok (s : State)
  /-- waits -/
  | wait (h : Hold)
  /-- the bucket or the sequencer is lost (R19, R134) -/
  | lost
  /-- VERSION_POOL: 1 FULL, 2 CLOCK (R133, R146) -/
  | pool (s : State) (reason : Nat)
  /-- the writer's transaction aborts with a status (R141, R146) -/
  | abort (s : State) (status : BitVec 3)

/-- The lowest free record of the pool (R145). -/
def Partition.freeRecord (p : Partition) : Option Nat :=
  if p.vpbase.getLsbD 0 then
    (List.range (p.vpRecords.length + 1)).map (· + 1) |>.find? fun i => i < fld p.vpsize 23 0 && !p.vpRecords.contains i
  else none

/-- USED above THRESH percent of RECORDS (R145). -/
def Partition.overThresh (p : Partition) : Bool :=
  p.vpRecords.length * 100 > Nat.min p.vpThresh.toNat 100 * fld p.vpsize 23 0

/-- A pool record (R145). -/
def poolRecord (v : Version) (ppa : Nat) (next : Option Nat) : List Byte :=
  v.data ++ bytesOf 8 (BitVec.ofNat 64 v.ts) ++
  bytesOf 8 (BitVec.ofNat 64 (ppa / 64 % 2 ^ 42 + if v.poison then 2 ^ 42 else 0)) ++
  bytesOf 4 (BitVec.ofNat 32 (next.getD 0xFFFFFFFF)) ++ List.replicate 44 0

/-- The last version of a list that is not spilled, replaced or removed. -/
def onOldest (f : Version → Option Version) : List Version → List Version
  | [] => []
  | v :: r =>
    if r.any (!·.spilled) then v :: onOldest f r
    else if v.spilled then v :: r
    else match f v with
      | some w => w :: r
      | none => r

/-- The oldest version held in the last-level cache, and the timestamp of the version newer than it. -/
def oldestHeld (newer : Nat) : List Version → Option (Version × Nat)
  | [] => none
  | v :: r =>
    match oldestHeld v.ts r with
    | some x => some x
    | none => if v.spilled then none else some (v, newer)

/-- A spill that found no room (R146): FULL is set and a pass begins. -/
def State.poolFull (s : State) (p : Nat) : State := s.onPart p fun x => { x with vpFull := true, spargeDue := true }

/-- A version is written to the record (R145, R147). -/
def State.spill (s : State) (p ppa r : Nat) (c : Chain) (v : Version) : State × Chain :=
  let x := s.part p
  let next := (c.older.filter (·.spilled)).head?.bind (·.record)
  let base := fld x.vpbase 39 12 * 4096 + 128 * r
  let s1 := (s.memWrite p (fld x.vpbase 59 48) base (poolRecord v ppa next)).clearWritten p base 128
  (s1.onPart p fun y =>
    let y := { y with vpRecords := r :: y.vpRecords, ctrs := mset 0 y.ctrs 0xC2 (mget 0 y.ctrs 0xC2 + 1) }
    { y with spargeDue := y.spargeDue || y.overThresh },
   { c with older := onOldest (fun w => some { w with record := some r }) c.older })

/-- The oldest committed version in the last-level cache leaves it. For want of a way (`evict` false) one that no live
timestamp reaches is dropped (R137). Otherwise it is spilled to the pool; where that is full or disabled, FULL is set and
an unreachable version is dropped, a reachable one stops the write (R146). -/
def State.spillOldest (s : State) (p ppa : Nat) (c : Chain) (evict : Bool) : Option (State × Chain) :=
    match oldestHeld c.ts c.older with
    | none => some (s, c)
    | some (v, newer) =>
      let x := s.part p
      let drop := { c with older := onOldest (fun _ => none) c.older }
      if !evict && !x.reached v.ts newer then some (s, drop)
      else
        match x.freeRecord with
        | none => if x.reached v.ts newer then none else some (s.poolFull p, drop)
        | some r => some (s.spill p ppa r c v)

/-- Versions of a chain in the last-level cache: at most 8 (R137). -/
def Chain.inCache (c : Chain) : Nat := 1 + (if c.unc.isSome then 1 else 0) + (c.older.filter (!·.spilled)).length

/-- Room for the versions of a chain: the ninth makes the oldest committed one leave. -/
def State.makeRoom (s : State) (p ppa : Nat) (c : Chain) : Option (State × Chain) :=
  if c.inCache ≤ 8 then some (s, c) else s.spillOldest p ppa c false

/-- Bytes put into a line of 64. -/
def putLine (line : List Byte) (off : Nat) (bs : List Byte) : List Byte :=
  (List.range 64).map fun i => if off ≤ i && i < off + bs.length then bs.getD (i - off) 0 else line.getD i 0

/-- The transaction that holds write intent on a line aborts; it takes effect before its group's next issue (R142,
R144). -/
def State.abortHolder (s : State) (p ppa : Nat) (status : BitVec 3) : State :=
  let c := s.chain p ppa
  match c.unc with
  | none => s
  | some u =>
    (s.onGroup u.owner fun g =>
      if g.tx.opened && g.tx.id = u.tx then { g with tx := { g.tx with aborting := some status } } else g).onPart p
      (·.discardTx u.tx)

/-- The sequencer answers (R134). -/
def State.seqHold (s : State) (p : Nat) : Option WriteEnd :=
  let x := s.part p
  if x.seqLost then some .lost
  else if x.transit 0 then some (.wait (.bucket 0))
  else none

/-- A non-transactional write to a versioned line commits at once as a single-line commit (R142). A version that the same
write has committed, past the timestamp `since`, takes its further bytes. -/
def State.commitWrite (s : State) (p key ppa : Nat) (bs : List Byte) (since : Option Nat := none) : WriteEnd :=
  match s.seqHold p with
  | some e => e
  | none =>
    if since.any (· < (s.chain p ppa).ts) then .ok ((s.memWrite p key ppa bs).clearWritten p ppa bs.length)
    else if (s.part p).issued ≥ 2 ^ 64 - 1 then .pool s 2
    else
      let s1 := s.abortHolder p ppa 1
      let c := s1.chain p ppa
      let base := ppa / 64 * 64
      let old : Version := ⟨c.ts, s1.bytesAt p key base 64, s1.poisoned p ppa, none⟩
      let t := (s1.part p).issued + 1
      match s1.makeRoom p ppa { c with ts := t, older := old :: c.older, made := true } with
      | none => .pool (s.poolFull p) 1
      | some (s2, c2) =>
        let s3 := (s2.memWrite p key ppa bs).setChain p ppa c2
        let s4 := s3.onPart p fun x =>
          { x with issued := t, ctrs := mset 0 x.ctrs 0xC0 (mget 0 x.ctrs 0xC0 + 1) }
        .ok (s4.clearWritten p ppa bs.length)

/-- A versioned line commits the bytes of a mask, merged into what it holds: its poison goes only if the mask covers the
line, and comes if the bytes are poisoned (R128, R148). -/
def State.commitLine (s : State) (p key base : Nat) (bs : List Byte) (mask : BitVec 64) (bad : Bool) : WriteEnd :=
  match s.commitWrite p key base bs with
  | .ok t => .ok (if bad || (s.poisoned p base && mask ≠ BitVec.allOnes 64) then t.setPoison p base true else t)
  | e => e

/-- A write of an open transaction to a versioned line acts on its own uncommitted version (R141). -/
def State.txWrite (s : State) (g : Group) (p key ppa : Nat) (gva : W64) (bs : List Byte) : WriteEnd :=
  let c := s.chain p ppa
  let put := fun (u : Uncommitted) =>
    { u with key := key, gva := gva, data := putLine u.data (ppa % 64) bs, poison := u.poison && bs.length ≠ 64 }
  match c.unc with
  | some u =>
    if u.tx = g.tx.id then .ok (s.setChain p ppa { c with unc := some (put u) })
    else .abort s 1
  | none =>
    if c.ts > g.tx.rts.toNat then .abort s 1
    else if g.tx.lines.toNat ≥ 512 then .abort s 2
    else
      let base := ppa / 64 * 64
      let u : Uncommitted := ⟨g.tx.id, g.info.key, key, gva, s.bytesAt p key base 64, s.poisoned p ppa⟩
      match s.makeRoom p ppa { c with unc := some (put u), made := true } with
      | none => .abort (s.poolFull p) 4
      | some (s2, c2) =>
        .ok ((s2.setChain p ppa c2).onGroup g.info.key fun g =>
          { g with tx := { g.tx with lines := g.tx.lines + 1 } })

/-- A write of any agent at the home: plain, or a commit when the page is versioned or the line has a chain (R135). -/
def State.homeWrite (s : State) (p key ppa : Nat) (ver : Bool) (bs : List Byte) : WriteEnd :=
  if (s.part p).lost ppa then .lost
  else if ver || s.chain p ppa ≠ .none then s.commitWrite p key ppa bs
  else .ok ((s.memWrite p key ppa bs).clearWritten p ppa bs.length)

/-- A store of a group at the home (R140, R142). -/
def State.groupWrite (s : State) (k : GroupKey) (p key ppa : Nat) (gva : W64) (ver : Bool) (bs : List Byte)
    (since : Option Nat) : WriteEnd :=
  if (s.part p).lost ppa then .lost
  else if ver || s.chain p ppa ≠ .none then
    match s.group? k with
    | some g => if g.tx.opened then s.txWrite g p key ppa gva bs else s.commitWrite p key ppa bs since
    | none => s.commitWrite p key ppa bs since
  else .ok ((s.memWrite p key ppa bs).clearWritten p ppa bs.length)

/-- The reader that a group is (R138). -/
def Group.reader (g : Group) : Reader :=
  if g.tx.opened then ⟨some g.tx.rts.toNat, some g.tx.id⟩
  else match g.snap with
    | some t => ⟨some t, none⟩
    | none => ⟨g.launchSnap, none⟩

/-- A commit of the line would spill a version that must stay (R137). -/
def Partition.spills (x : Partition) (c : Chain) : Bool :=
  8 ≤ { c with unc := none }.inCache && match oldestHeld c.ts c.older with
    | some (v, newer) => x.reached v.ts newer
    | none => false

/-- Records of the pool that are free. -/
def Partition.freeRecords (x : Partition) : Nat :=
  if x.vpbase.getLsbD 0 then fld x.vpsize 23 0 - 1 - x.vpRecords.length else 0

/-- Every versioned line of a list can commit now (R133, R134, R146). -/
def State.canCommit (s : State) (p : Nat) (as : List Nat) : Bool :=
  let x := s.part p
  let cs := (as.map (s.chain p)).filter (· ≠ .none)
  cs.isEmpty || ((s.seqHold p).isNone && x.issued + cs.length < 2 ^ 64 && (cs.filter x.spills).length ≤ x.freeRecords)

/-- What a write that waits for a free record leaves (R146). -/
def State.stall (s : State) (p : Nat) (as : List Nat) : State :=
  let x := s.part p
  if (s.seqHold p).isNone && x.freeRecords < (((as.map (s.chain p)).filter x.spills)).length then s.poolFull p else s

/-- Device writes with no translation of their own carry KEY_ID 0 (R68); they are made where `canCommit` holds. -/
def State.deviceWrite (s : State) (p ppa : Nat) (bs : List Byte) : State :=
  match s.homeWrite p 0 ppa false bs with
  | .ok s => s
  | _ => s

/-! ### Poison events (R19, R22, R128) -/

/-- A record of the MTC log (R22): merged into the newest when type, slice and partition match. A new record's COUNT is 1
(DESIGN CHOICE, log 132). -/
def State.mtcLog (s : State) (type sl : Nat) (part : Option Nat) (arg : W64) : State :=
  let head : BitVec 32 := BitVec.ofNat 32 (type + sl % 16 * 256 + match part with
    | some p => p % 16 * 4096 + 65536
    | none => 0)
  let merged := match s.mtc.log with
    | r :: rest => if r.setWidth 32 = head then
        some (setFld r 63 32 (Nat.min (fld r 63 32 + 1) 0xFFFFFFFF) :: rest) else none
    | [] => none
  match merged with
  | some l => { s with mtc := { s.mtc with log := l } }
  | none =>
    let r : BitVec 128 := arg ++ (1 : BitVec 32) ++ head
    { s with mtc := { s.mtc with
        log := (r :: s.mtc.log).take 256, mlogcnt := BitVec.ofNat 64 ((fld s.mtc.mlogcnt 31 0 + 1) % 2 ^ 32) } }

/-- A poison event at a slice: its counter 0x84, and a record of the MTC log with the PPA of the data. -/
def State.poisonLog (s : State) (p sl ppa : Nat) : State :=
  (s.onSlice sl fun y => { y with ctrs := mset 0 y.ctrs 0x84 (mget 0 y.ctrs 0x84 + 1) }).mtcLog 3 sl (some p) (BitVec.ofNat 64 ppa)

/-- An access refused for poison: MERR.PSN of the home, and the event. -/
def State.poisonEvent (s : State) (p ppa : Nat) : State :=
  let h := (s.part p).home ppa
  (s.onSlice h fun y => { y with merr := setFld y.merr 47 32 (Nat.min (fld y.merr 47 32 + 1) 0xFFFF) }).poisonLog p h ppa

/-- A report through the interrupt route of source kind 2 (R19, R29). -/
def State.errorRecord (s : State) (p : Option Nat) (sl : Nat) : State :=
  match p with
  | some p => s.interrupt p sl 2
  | none => s

/-- Poisoned data that an agent of a slice passes on with its mark, or gives up at the shutter: the event, and the slice's
source of kind 2 (R18, R19, R128). -/
def State.poisonAt (s : State) (p sl ppa : Nat) : State := (s.poisonLog p sl ppa).errorRecord (some p) sl

/-- The same where the data goes to memory, at its home. -/
def State.poisonPassed (s : State) (p ppa : Nat) : State := s.poisonAt p ((s.part p).home ppa) ppa

/-- The poison event of an agent other than a group, whose fault record would report it: the home's source of kind 2 does
(R19). -/
def State.poisonNotice (s : State) (p ppa : Nat) : State :=
  (s.poisonEvent p ppa).errorRecord (some p) ((s.part p).home ppa)

/-! ### Payloads that come poisoned (R132) -/

/-- The agent's next payload comes poisoned: the copy engine 2, the mill 3 and the stash fills 4 of a core; a host core 5; the
port 6 of a slice; the host link 7. -/
def State.spoilt (s : State) (kind : Nat) (c : CoreKey) : Bool := s.spoiled.contains (kind, c)

/-- The agent has its payload. -/
def State.received (s : State) (kind : Nat) (c : CoreKey) : State := { s with spoiled := s.spoiled.erase (kind, c) }

/-! ### Host memory (R453) -/

def State.hostRead (s : State) (ppa n : Nat) : List Byte :=
  (span ppa n).map fun a => (mget none s.hostMem a).getD (Config.hostByte s.free a)

def putHost (m : NatMap (Option Byte)) (a : Nat) : List Byte → NatMap (Option Byte)
  | [] => m
  | b :: r => putHost (mset none m a (some b)) (a + 1) r

def State.hostWrite (s : State) (ppa : Nat) (bs : List Byte) : State := { s with hostMem := putHost s.hostMem ppa bs }

end Sys2Proof.Machine
end

