-- ==== Sys2Proof/Machine/Translate.lean ====
section
/-! DEFINITION. Address translation (R43 to R58, R69, R70): context entries, the two-stage walk, permissions, A and D
updates, and the translation caches. -/

namespace Sys2Proof.Machine

/-- Access kinds in the codes of TDET.KIND (R69). -/
def Kind.load : Nat := 0
def Kind.store : Nat := 1
def Kind.fetch : Nat := 2
def Kind.atomic : Nat := 3
def Kind.engRead : Nat := 4
def Kind.engWrite : Nat := 5
def Kind.mill : Nat := 6
def Kind.walker : Nat := 7

def Kind.reads (k : Nat) : Bool := k = 0 || k = 3 || k = 4 || k = 6
def Kind.writes (k : Nat) : Bool := k = 1 || k = 3 || k = 5
def Kind.fetches (k : Nat) : Bool := k = 2

/-- Reasons of a translation failure (R69). -/
def Reason.invalid : Nat := 0
def Reason.reserved : Nat := 1
def Reason.level : Nat := 2
def Reason.align : Nat := 3
def Reason.permission : Nat := 4
def Reason.key : Nat := 5
def Reason.map : Nat := 6
def Reason.noncanon : Nat := 7
def Reason.context : Nat := 8

/-- Why a walk ends without a translation: a fault's cause and detail word, or a table read that is held (R58). -/
inductive WalkErr where
  | flt (cause : BitVec 8) (detail : W64)
  | held
  | lost
deriving DecidableEq, Repr

/-- What a walk is made for. -/
structure Ask where
  part : Nat
  ctx : Nat
  kind : Nat
  priv : Bool
deriving DecidableEq, Repr

def stage1Err (level kind reason : Nat) : WalkErr := .flt Cause.stage1 (tdet 1 level kind reason 0)
def stage2Err (level kind reason ipa : Nat) : WalkErr := .flt Cause.stage2 (tdet 2 level kind reason ipa)

/-- A read of a table or context entry at its home, under a KEY_ID. -/
def State.tableRead (s : State) (p key ppa w : Nat) (e : WalkErr) : Except WalkErr (BitVec w) :=
  let x := s.part p
  if x.space ppa ≠ .mem then .error e
  else if x.lost ppa then .error .lost
  else if s.homeHold p ppa 0 ≠ .none then .error .held
  else .ok (s.readMem p key ppa (w / 8) w)

/-! ### Context entries (R46) -/

def ctxValid (e : BitVec 256) : Bool :=
  e.getLsbD 0 && fld e 15 3 = 0 && fld e 63 48 = 0 && fld e 79 64 = 0 && fld e 139 128 = 0 && fld e 255 192 = 0

/-- The context entry, from the context cache of the cluster or from memory; one that does not lie in partition memory fails
as CONTEXT (log 130). -/
def State.ctxEntry (s : State) (cl : Option Nat) (a : Ask) : Except WalkErr (BitVec 256) :=
  let x := s.part a.part
  let err := stage1Err 3 a.kind Reason.context
  match cl.bind fun i => (s.clusterAt i).ctxs.find? fun e => e.part = a.part ∧ e.ctx = a.ctx with
  | some e => .ok e.val
  | none =>
    if x.xctb.getLsbD 0 && a.ctx ≤ fld x.xctb 59 48 then
      match s.tableRead a.part 0 (fld x.xctb 47 12 * 4096 + 32 * a.ctx) 256 err with
      | .ok e => if ctxValid e then .ok e else .error err
      | .error r => .error r
    else .error err

/-! ### Stage 2 -/

/-- A stage-2 leaf as a walk finds it. -/
structure Leaf2 where
  ppa : Nat
  size : Nat
  level : Nat
  perm : BitVec 3
  d : Bool
  key : Nat
  /-- PPA of the entry -/
  ent : Nat
deriving DecidableEq, Repr

/-- Page size of a leaf as a power of two (R47). -/
def leafSize (level : Nat) (ps64 : Bool) : Nat :=
  if level = 2 then 30 else if level = 1 then 21 else if ps64 then 16 else 12

/-- The stage-2 walk from a table of level `lvl` (R48, R50, R51). A table entry with another nonzero field that R51 gives no
reason for is reported as RESERVED (log 130); an entry that lies in no memory of the partition as MAP at its level, with the
access's KIND (DESIGN CHOICE, log 140). -/
def State.walk2 (s : State) (p kind ipa : Nat) : Nat → Nat → Except WalkErr Leaf2
  | lvl, table =>
    let ent := table + 8 * (ipa / 2 ^ (12 + 9 * lvl) % 512)
    match s.tableRead p 0 ent 64 (stage2Err lvl kind Reason.map ipa) with
    | .error e => .error e
    | .ok (e : BitVec 64) =>
      let perm : BitVec 3 := e.extractLsb' 1 3
      let err := fun r => Except.error (stage2Err lvl kind r ipa)
      if !e.getLsbD 0 then err Reason.invalid
      else if fld e 11 6 ≠ 0 || fld e 63 60 ≠ 0 || (e.getLsbD 2 && !e.getLsbD 1) then err Reason.reserved
      else if perm = 0 then
        match lvl with
        | 0 => err Reason.level
        | l + 1 =>
          if e.getLsbD 5 then err Reason.level
          else if e.getLsbD 4 || fld e 59 48 ≠ 0 then err Reason.reserved
          else s.walk2 p kind ipa l (fld e 47 12 * 4096)
      else
        let sz := leafSize lvl (e.getLsbD 5)
        let base := fld e 47 12 * 4096
        if lvl = 3 || (e.getLsbD 5 && lvl ≠ 0) then err Reason.level
        else if base % 2 ^ sz ≠ 0 then err Reason.align
        else .ok ⟨base + ipa % 2 ^ sz, sz, lvl, perm, e.getLsbD 4, fld e 59 48, ent⟩

/-- The permission a kind needs, of bits R, W, X (R55). -/
def permits (perm : BitVec 3) (kind : Nat) : Bool :=
  (!Kind.reads kind || perm.getLsbD 0) && (!Kind.writes kind || perm.getLsbD 1) && (!Kind.fetches kind || perm.getLsbD 2)

/-- The stage-2 translation of an IPA that a cluster holds. -/
def State.cached2 (s : State) (cl : Option Nat) (a : Ask) (c : BitVec 256) (ipa : Nat) : Option Translation :=
  cl.bind fun i => (s.clusterAt i).s2tlb.find? fun t =>
    t.part = a.part && t.vmid = fld c 47 32 && ipa / 2 ^ t.size = t.ipa / 2 ^ t.size

/-- Stage 2 of an IPA (R52, R53): leaf, permission for `need`, KEY_ID. -/
def State.stage2 (s : State) (cl : Option Nat) (a : Ask) (c : BitVec 256) (kind need ipa : Nat) : Except WalkErr Leaf2 :=
  if !c.getLsbD 2 then .ok ⟨ipa, 48, 0, 7, true, 0, 0⟩
  else
    let leaf : Except WalkErr Leaf2 := match s.cached2 cl a c ipa with
      | some t => .ok ⟨t.ppa + ipa % 2 ^ t.size, t.size, 0, t.perm2, t.d2, t.key, 0⟩
      | none => s.walk2 a.part kind ipa 3 (fld c 175 128)
    match leaf with
    | .error e => .error e
    | .ok l =>
      if !permits l.perm need then .error (stage2Err l.level kind Reason.permission ipa)
      else if l.key ≥ (s.part a.part).kcount.toNat then .error (stage2Err l.level kind Reason.key ipa)
      else .ok l

/-- Level that TDET names for a failure of the address map with stage 2 off: no table entry is concerned, a free value. -/
def State.mapLevel (s : State) (c : BitVec 256) (l : Leaf2) : Nat := if c.getLsbD 2 then l.level else s.draw 2 % 4

/-! ### Stage 1 -/

/-- A stage-1 leaf as a walk finds it. -/
structure Leaf1 where
  ipa : Nat
  size : Nat
  level : Nat
  perm : BitVec 3
  user : Bool
  acc : Bool
  d : Bool
  global : Bool
  fmt : Nat
  coh : Nat
  ver : Bool
  stash : Bool
  /-- IPA of the entry, and the stage-2 leaf of its table page -/
  entIpa : Nat
  ent : Leaf2
deriving DecidableEq, Repr

/-- IPA of the stage-1 entry of a level. -/
def entry1 (gva lvl table : Nat) : Nat :=
  table + 8 * (if lvl = 3 then gva / 2 ^ 39 % 8192 else gva / 2 ^ (12 + 9 * lvl) % 512)

/-- The stage-1 entry that a cluster's walk cache holds, of levels 3 to 1. -/
def State.cached1 (s : State) (cl : Option Nat) (a : Ask) (c : BitVec 256) (lvl entIpa : Nat) : Option WalkEntry :=
  if lvl = 0 then none else cl.bind fun i => (s.clusterAt i).walk.find? fun w =>
    w.part = a.part && w.vmid = fld c 47 32 && w.ipa = entIpa

/-- The stage-1 walk from a table of level `lvl` (R47, R49, R51): each table address is translated by the full stage-2
walk before the read, which needs stage-2 R (R53). `cl` names the cluster whose walk cache serves levels 3 to 1. A table
entry with another nonzero field that R51 gives no reason for is reported as RESERVED (log 130). -/
def State.walk1 (s : State) (cl : Option Nat) (a : Ask) (c : BitVec 256) (gva : Nat) : Nat → Nat → Except WalkErr Leaf1
  | lvl, table =>
    let entIpa := entry1 gva lvl table
    let got : Except WalkErr (BitVec 64 × Leaf2) := match s.cached1 cl a c lvl entIpa with
      | some w => .ok (w.val, ⟨w.addr, 12, 0, 0, true, 0, 0⟩)
      | none =>
        match s.stage2 cl a c Kind.walker Kind.load entIpa with
        | .error e => .error e
        | .ok l =>
          match s.tableRead a.part l.key l.ppa 64 (stage2Err (s.mapLevel c l) Kind.walker Reason.map entIpa) with
          | .error e => .error e
          | .ok v => .ok (v, l)
    match got with
    | .error e => .error e
    | .ok (e, l) =>
      let perm : BitVec 3 := e.extractLsb' 1 3
      let err := fun r => Except.error (stage1Err lvl a.kind r)
      if !e.getLsbD 0 then err Reason.invalid
      else if fld e 11 9 ≠ 0 || fld e 63 62 ≠ 0 || fld e 54 53 = 3 || fld e 52 48 > 0x10 ||
              (e.getLsbD 2 && !e.getLsbD 1) then err Reason.reserved
      else if perm = 0 then
        match lvl with
        | 0 => err Reason.level
        | n + 1 =>
          if e.getLsbD 7 then err Reason.level
          else if fld e 6 4 ≠ 0 || e.getLsbD 8 || fld e 63 48 ≠ 0 then err Reason.reserved
          else s.walk1 cl a c gva n (fld e 47 12 * 4096)
      else
        let sz := leafSize lvl (e.getLsbD 7)
        let base := fld e 47 12 * 4096
        if lvl = 3 || (e.getLsbD 7 && lvl ≠ 0) then err Reason.level
        else if base % 2 ^ sz ≠ 0 then err Reason.align
        else .ok {
          ipa := base + gva % 2 ^ sz, size := sz, level := lvl, perm := perm, user := e.getLsbD 4
          acc := e.getLsbD 5, d := e.getLsbD 6, global := e.getLsbD 8, fmt := fld e 52 48, coh := fld e 54 53
          ver := e.getLsbD 55, stash := e.getLsbD 56, entIpa := entIpa, ent := l }

/-- The stage-1 column of R55. -/
def permits1 (perm : BitVec 3) (user : Bool) (kind : Nat) (priv : Bool) : Bool :=
  permits perm kind && (if Kind.fetches kind then (if priv then !user else user) else priv || user)

/-- The PPA lies in the partition address map, outside the ranges no translated access reaches (R23). -/
def Partition.mapped (x : Partition) (ppa : Nat) : Bool := x.space ppa ≠ .none && !x.deviceOwned ppa

/-! ### A and D (R56) -/

/-- Bits set in a table entry. -/
def State.setEntryBits (s : State) (p key ppa : Nat) (bits : W64) : State :=
  s.memWrite p key ppa (bytesOf 8 (s.readMem p key ppa 8 64 ||| bits))

/-! ### A walk -/

/-- What a walk has read and checked (R53): the context entry and the leaf of each stage. -/
structure Walk where
  ctx : BitVec 256
  one : Leaf1
  two : Leaf2

/-- The stage-1 leaf lacks A or D for this access. -/
def Walk.needA (w : Walk) : Bool := w.ctx.getLsbD 1 && !w.one.acc
def Walk.needD (w : Walk) (kind : Nat) : Bool := w.ctx.getLsbD 1 && Kind.writes kind && !w.one.d

/-- The stage-2 leaf lacks D for this access. -/
def Walk.needD2 (w : Walk) (kind : Nat) : Bool := w.ctx.getLsbD 2 && Kind.writes kind && !w.two.d

/-- The reads and checks of a walk that consults the caches of cluster `cl` (none: no cache). Bits 127:112 of S1ROOT and
191:176 of S2ROOT, above the 48-bit addresses, are ignored (log 130). -/
def State.find (s : State) (cl : Option Nat) (a : Ask) (gva : Nat) : Except WalkErr Walk :=
  match s.ctxEntry cl a with
  | .error e => .error e
  | .ok c =>
    let s1on := c.getLsbD 1
    let one : Except WalkErr Leaf1 :=
      if s1on then s.walk1 cl a c gva 3 (fld c 111 64)
      else if gva ≥ 2 ^ 48 then .error (stage1Err 3 a.kind Reason.noncanon)
      else .ok ⟨gva, 48, 0, 7, true, true, true, false, 0, 0, false, false, 0, ⟨0, 48, 0, 7, true, 0, 0⟩⟩
    match one with
    | .error e => .error e
    | .ok l1 =>
      if s1on && !permits1 l1.perm l1.user a.kind a.priv then
        .error (.flt Cause.permission (tdet 1 l1.level a.kind Reason.permission 0))
      else
        match s.stage2 cl a c a.kind a.kind l1.ipa with
        | .error e => .error e
        | .ok l2 =>
          if !(s.part a.part).mapped l2.ppa then
            .error (stage2Err (s.mapLevel c l2) a.kind Reason.map l1.ipa)
          else .ok ⟨c, l1, l2⟩

/-- A walk, with the A and D updates that the access needs (R56). Entries that are to be changed are read from the tables,
not from a cache, so they hold what the walk read. The D of the table page is set too: the update writes that page. -/
def State.walk (s : State) (cl : Option Nat) (a : Ask) (gva : Nat) : Except WalkErr (Translation × State) :=
  let got := match s.find cl a gva with
    | .ok w => if w.needA || w.needD a.kind || w.needD2 a.kind then s.find none a gva else .ok w
    | e => e
  match got with
  | .error e => .error e
  | .ok w =>
    let l1 := w.one
    let l2 := w.two
    let upd1 := w.needA || w.needD a.kind
    if upd1 && w.ctx.getLsbD 2 && !l1.ent.perm.getLsbD 1 then
      .error (stage2Err l1.ent.level Kind.walker Reason.permission l1.entIpa)
    else
      let s := if upd1 && w.ctx.getLsbD 2 && !l1.ent.d then s.setEntryBits a.part 0 l1.ent.ent 0x10 else s
      let s := if upd1 then
          s.setEntryBits a.part l1.ent.key l1.ent.ppa ((if w.needA then 0x20 else 0) ||| (if w.needD a.kind then 0x40 else 0))
        else s
      let s := if w.needD2 a.kind then s.setEntryBits a.part 0 l2.ent 0x10 else s
      let m := 2 ^ Nat.min l1.size l2.size
      .ok ({
        ctx := a.ctx, part := a.part, asid := fld w.ctx 31 16, vmid := fld w.ctx 47 32, global := l1.global
        s1 := w.ctx.getLsbD 1, gva := gva / m * m, size := Nat.min l1.size l2.size, ipa := l1.ipa / m * m
        ppa := l2.ppa / m * m, fmt := l1.fmt, coh := l1.coh, ver := l1.ver, stash := l1.stash
        perm1 := l1.perm, user := l1.user, perm2 := l2.perm, d1 := l1.d || w.needD a.kind
        d2 := l2.d || w.needD2 a.kind || !w.ctx.getLsbD 2, key := l2.key }, s)

/-! ### Caches (R54, R57, R58) -/

/-- A cached translation serves the access: tags match, permission holds and D needs no update. -/
def Translation.serves (t : Translation) (a : Ask) (c : BitVec 256) (gva : Nat) : Bool :=
  t.part = a.part && t.vmid = fld c 47 32 && t.s1 = c.getLsbD 1 && (t.global || t.asid = fld c 31 16 || !t.s1) &&
  gva / 2 ^ t.size = t.gva / 2 ^ t.size

def Translation.allows (t : Translation) (a : Ask) : Bool :=
  (!t.s1 || permits1 t.perm1 t.user a.kind a.priv) && permits t.perm2 a.kind &&
  (!Kind.writes a.kind || (t.d2 && (!t.s1 || t.d1)))

def Translation.ppaOf (t : Translation) (gva : Nat) : Nat := t.ppa + gva % 2 ^ t.size

/-- Newest first, at most `n`. -/
def keepNew {α : Type} (n : Nat) (x : α) (l : List α) : List α := (x :: l).take n

/-- Everything that a walk for this access could have read from a cache is discarded (R54). -/
def State.forget (s : State) (k : CoreKey) (a : Ask) : State :=
  let keep := fun (t : Translation) => t.part ≠ a.part || t.ctx ≠ a.ctx
  (s.onCore k fun c => { c with tlb := c.tlb.filter keep }).onCluster (clusterIx k) fun c =>
    { c with
      tlb := c.tlb.filter keep
      s2tlb := c.s2tlb.filter (·.part ≠ a.part)
      walk := c.walk.filter (·.part ≠ a.part)
      ctxs := c.ctxs.filter fun e => e.part ≠ a.part || e.ctx ≠ a.ctx }

/-- The stage-1 entries of levels 3 to 1 that a walk reads, from a table of the level above `lvl`. -/
def State.trail (s : State) (a : Ask) (c : BitVec 256) (gva : Nat) : Nat → Nat → List WalkEntry
  | 0, _ => []
  | lvl + 1, table =>
    let ent := entry1 gva (lvl + 1) table
    match s.stage2 none a c Kind.walker Kind.load ent with
    | .error _ => []
    | .ok l =>
      match s.tableRead a.part l.key l.ppa 64 .held with
      | .error _ => []
      | .ok (e : BitVec 64) =>
        if e.getLsbD 0 && fld e 3 1 = 0 then
          ⟨a.part, a.ctx, fld c 47 32, l.ppa, ent, e⟩ :: s.trail a c gva lvl (fld e 47 12 * 4096)
        else []

/-- A completed walk leaves its stage-1 entries and its stage-2 leaf in the caches of the cluster. -/
def State.keepWalk (s : State) (cl : Nat) (a : Ask) (gva : Nat) (t : Translation) : State :=
  match s.ctxEntry none a with
  | .error _ => s
  | .ok c =>
    let es := if c.getLsbD 1 then s.trail a c gva 3 (fld c 111 64) else []
    s.onCluster cl fun x =>
      { x with
        walk := (es ++ x.walk.filter fun w => es.all fun e => e.ipa ≠ w.ipa || e.vmid ≠ w.vmid || e.part ≠ w.part).take 256
        s2tlb := if c.getLsbD 2 then keepNew 1024 t x.s2tlb else x.s2tlb }

/-- PPAs of the stage-2 entries that a walk reads from a table of level `lvl`. -/
def State.trail2 (s : State) (p ipa : Nat) : Nat → Nat → List Nat
  | lvl, table =>
    let ent := table + 8 * (ipa / 2 ^ (12 + 9 * lvl) % 512)
    match s.tableRead p 0 ent 64 .held with
    | .error _ => [ent]
    | .ok (e : BitVec 64) => ent :: match lvl with
      | 0 => []
      | l + 1 => if e.getLsbD 0 && fld e 3 1 = 0 then s.trail2 p ipa l (fld e 47 12 * 4096) else []

/-- PPAs that stage 2 of an IPA reads. -/
def State.reads2 (s : State) (cl : Option Nat) (a : Ask) (c : BitVec 256) (ipa : Nat) : List Nat :=
  if !c.getLsbD 2 || (s.cached2 cl a c ipa).isSome then [] else s.trail2 a.part ipa 3 (fld c 175 128)

/-- PPAs that a walk reads from a stage-1 table of level `lvl`, with stage 2 of each address. -/
def State.reads1 (s : State) (cl : Option Nat) (a : Ask) (c : BitVec 256) (gva : Nat) : Nat → Nat → List Nat
  | lvl, table =>
    let ent := entry1 gva lvl table
    let got : List Nat × Option W64 := match s.cached1 cl a c lvl ent with
      | some w => ([], some w.val)
      | none => match s.stage2 cl a c Kind.walker Kind.load ent with
        | .error _ => (s.reads2 cl a c ent, none)
        | .ok l => match s.tableRead a.part l.key l.ppa 64 .held with
          | .error _ => (s.reads2 cl a c ent ++ [l.ppa], none)
          | .ok e => (s.reads2 cl a c ent ++ [l.ppa], some e)
    got.1 ++ match lvl, got.2 with
      | l + 1, some e => if e.getLsbD 0 && fld e 3 1 = 0 then s.reads1 cl a c gva l (fld e 47 12 * 4096) else []
      | _, _ => []

/-- The lines that a walk reads at their homes (R113): of the context entry, and of the tables of both stages. A home that
sleeps wakes, while the walk waits (R462). -/
def State.readTables (s : State) (cl : Option Nat) (a : Ask) (gva : Nat) : State :=
  let x := s.part a.part
  let held := match cl with
    | some i => (s.clusterAt i).ctxs.any fun e => e.part = a.part && e.ctx = a.ctx
    | none => false
  let ctx := if held || !x.xctb.getLsbD 0 then [] else [fld x.xctb 47 12 * 4096 + 32 * a.ctx]
  let rest := match s.ctxEntry cl a with
    | .error _ => []
    | .ok c =>
      (if c.getLsbD 1 then s.reads1 cl a c gva 3 (fld c 111 64) else []) ++
      match (if c.getLsbD 1 then s.walk1 cl a c gva 3 (fld c 111 64) else .error .held) with
      | .ok l => s.reads2 cl a c l.ipa
      | .error _ => if c.getLsbD 1 then [] else s.reads2 cl a c gva
  (ctx ++ rest).foldl (fun s l =>
    if (s.part a.part).space l ≠ .mem || (s.part a.part).lost l then s
    else if s.homeHold a.part l 0 = .none then s.homeCopies a.part l 0 false
    else s.knock a.part l) s

/-- A translation is cached in the core and cluster TLBs, what its walk has read in the cluster's caches. -/
def State.remember (s : State) (k : CoreKey) (a : Ask) (gva : Nat) (t : Translation) : State :=
  let cl := clusterIx k
  let s := s.keepWalk cl a gva t
  let s := s.onCore k fun c => { c with tlb := keepNew 64 t c.tlb }
  s.onCluster cl fun c =>
    let c := { c with tlb := keepNew 4096 t c.tlb }
    if c.ctxs.any fun e => e.part = a.part && e.ctx = a.ctx then c
    else match s.ctxEntry none a with
      | .ok v => { c with ctxs := keepNew 32 ⟨a.part, a.ctx, v⟩ c.ctxs }
      | .error _ => c

/-- What a translation comes to. -/
inductive XOut where
  | ok (t : Translation) (ppa : Nat) (s : State)
  | flt (cause : BitVec 8) (detail : W64) (s : State)
  | held (s : State)
  | lost (s : State)

/-- The caches are discarded and the tables walked again, as comes before a fault (R54). -/
def State.rewalk (s : State) (k : CoreKey) (a : Ask) (gva : W64) : XOut :=
  let g := gva.toNat
  let s := (s.forget k a).readTables none a g
  match s.walk none a g with
  | .ok (t, s1) => .ok t (t.ppaOf g) (s1.remember k a g t)
  | .error .held => .held s
  | .error .lost => .lost s
  | .error (.flt c d) => .flt c d s

/-- The cached translation that serves an access. -/
def State.cachedFor (s : State) (k : CoreKey) (a : Ask) (g : Nat) : Option Translation :=
  let cl := clusterIx k
  match s.ctxEntry (some cl) a with
  | .error _ => none
  | .ok c =>
    let ok := fun (t : Translation) => t.serves a c g && t.allows a && (s.part a.part).mapped (t.ppaOf g) &&
      t.key < (s.part a.part).kcount.toNat
    match (s.core k).tlb.find? ok with
    | some t => some t
    | none => (s.clusterAt cl).tlb.find? ok

/-- TRANSLATION of an address for a core's agents (R53, R54): a cached translation, else a walk; before a fault the
caches are discarded and the tables walked again. -/
def State.translate (s : State) (k : CoreKey) (a : Ask) (gva : W64) : XOut :=
  let g := gva.toNat
  if g ≥ 2 ^ 52 then .flt Cause.stage1 (tdet 1 3 a.kind Reason.noncanon 0) s
  else
    match s.cachedFor k a g with
    | some t => .ok t (t.ppaOf g) s
    | none =>
      let cl := some (clusterIx k)
      let s := s.readTables cl a g
      match s.walk cl a g with
      | .ok (t, s1) => .ok t (t.ppaOf g) (s1.remember k a g t)
      | .error .held => .held s
      | .error .lost => .lost s
      | .error (.flt _ _) => s.rewalk k a gva

/-- The same for an access that some translations would make fault: what a cached one says is found again (R54). -/
def State.locate (s : State) (k : CoreKey) (a : Ask) (gva : W64) (bad : Translation → Nat → Bool) : XOut :=
  match s.translate k a gva with
  | .ok t ppa s => if bad t ppa then s.rewalk k a gva else .ok t ppa s
  | r => r

/-- A translation for an agent outside the cores (queue, transport, flash, checkpoint): no cache. -/
def State.translateNow (s : State) (a : Ask) (gva : W64) : XOut :=
  let g := gva.toNat
  if g ≥ 2 ^ 52 then .flt Cause.stage1 (tdet 1 3 a.kind Reason.noncanon 0) s
  else
    let s := s.readTables none a g
    match s.walk none a g with
    | .ok (t, s1) => .ok t (t.ppaOf g) s1
    | .error .held => .held s
    | .error .lost => .lost s
    | .error (.flt c d) => .flt c d s

/-- The asker that the group in focus is. -/
def State.ask (s : State) (kind : Nat) : Ask := ⟨s.pid, s.cur.info.ctx, kind, s.cur.priv⟩

end Sys2Proof.Machine
end

