-- ==== Sys2Proof/Machine/Fetch.lean ====
section
/-! DEFINITION. Instruction fetch (R244, R247, R248), the safe-point table (R264), the debug comparators (R420) and the
choice of the fragment that issues (R241, R242). -/

namespace Sys2Proof.Machine

/-! ### Fetch -/

/-- What a fetch comes to. -/
inductive Fetched where
  | word (w : W32) (s : State)
  | flt (f : Flt) (s : State)
  | hold (h : Hold) (s : State)

/-- The values a fetch of the word at a PPA may return (R247): the word now, or as it stood at any time since the grid was
accepted. `ix` numbers the choice. -/
def State.fetchChoice (s : State) (ix p key ppa : Nat) : W32 :=
  let since := ((s.part p).grids.find? (·.handle = s.cur.info.key.blk.grid)).elim 0 (·.since)
  let own := s.readMem p key ppa 4 32
  match (mget [] s.stale (pa p ppa / 4)).filter (since ≤ ·.1) with
  | [] => own
  | l => pick (s.draw ix) own (l.map (·.2))

/-- A fetch may find its word there. -/
def Partition.fetchable (x : Partition) (ppa : Nat) : Bool :=
  match x.space ppa with
  | .mem => !x.lost ppa
  | .host => true
  | _ => false

/-- Instruction fetch at partition scope, translated with KIND 2 (R55, R69, R247): a coherent read at the home (R113, R115),
which an engine's claim holds (R124). Before a fault for its address it is translated again (R54). -/
def State.fetch (s : State) (ix : Nat) (pc : W64) : Fetched :=
  let p := s.pid
  match s.locate s.coreKey (s.ask Kind.fetch) pc fun _ ppa => !(s.part p).fetchable ppa with
  | .flt c d s => .flt { cause := c, addr := pc, detail := d } s
  | .held s => .hold .walk s
  | .lost s => .flt { cause := Cause.shutter, addr := pc } s
  | .ok t ppa s =>
    match (s.part p).space ppa with
    | .mem =>
      if (s.part p).lost ppa then .flt { cause := Cause.shutter, addr := pc } s
      else
        match s.memHold p ppa pc false with
        | .none =>
          let s' := s.homeCopies p ppa t.coh t.ver
          if s'.anyPoison p ppa 4 then .flt { cause := Cause.poison, addr := pc } (s'.poisonEvent p ppa)
          else .word (s'.fetchChoice ix p t.key ppa) s'
        | h => .hold h s
    | .host => .word (valOfBytes 32 (s.hostRead ppa 4)) s
    | .window sl _ => .flt { cause := if (s.part p).mask.getLsbD sl then Cause.misaligned else Cause.shutter, addr := pc } s
    | _ => .flt { cause := Cause.misaligned, addr := pc } s

/-- A decoded word, or why none is there. -/
inductive FetchedInstr where
  | instr (d : Decoded) (s : State)
  | flt (f : Flt) (s : State)
  | hold (h : Hold) (s : State)

/-- The instruction at `pc` with its literal (R248). A word that decodes to nothing raises ILLEGAL_INSTRUCTION (R247). -/
def State.fetchInstr (s : State) (pc : W64) : FetchedInstr :=
  match s.fetch 3 pc with
  | .flt f s => .flt f s
  | .hold h s => .hold h s
  | .word w s =>
    match decode w 0 with
    | .error _ => .flt { cause := Cause.illegalInstruction } s
    | .ok d =>
      if d.words = 2 then
        match s.fetch 7 (pc + 4) with
        | .flt f s => .flt f s
        | .hold h s => .hold h s
        | .word l s =>
          match decode w l with
          | .ok d => .instr d s
          | .error _ => .flt { cause := Cause.illegalInstruction } s
      else .instr d s

/-! ### Safe points (R264) -/

/-- Four doublewords of a safe-point table entry. -/
structure SafePoint where
  offset : BitVec 32
  alive : BitVec 4
  slive : W64
  vlive : BitVec 128
  clean : Bool
deriving DecidableEq, Repr

/-- The state in which no bucket of a partition is in transit any more, as a read that is held finds it. -/
def State.still (s : State) (p : Nat) : State :=
  s.onPart p fun x => { x with buckets := x.buckets.map fun e => (e.1, e.2 &&& ~~~0x100) }

/-- Bytes read with relaxed order in the grid's context for the device's own use; none if the read faults in
translation or finds poison (R264, R423). -/
def State.quietRead (s : State) (g : Group) (a : W64) (n : Nat) (kind : Nat := Kind.load) : Option (List Byte) :=
  let p := g.info.key.blk.part
  (List.range n).foldr (fun i acc =>
    match acc with
    | none => none
    | some l =>
      match (s.still p).translateNow ⟨p, g.info.ctx, kind, g.priv⟩ (a + BitVec.ofNat 64 i) with
      | .ok t ppa _ =>
        match (s.part p).space ppa with
        | .mem => if s.poisoned p ppa then none else some (s.byteAt p t.key ppa :: l)
        | .host => some ((s.hostRead ppa 1).headD 0 :: l)
        | _ => none
      | _ => none) (some [])

/-- What such a read leaves at the homes of its lines (R113). -/
def State.quietLines (s : State) (g : Group) (a : W64) (n : Nat) : State :=
  let p := g.info.key.blk.part
  (List.range (n / 64 + 2)).foldl (fun s i =>
    let at_ : W64 := BitVec.ofNat 64 ((a.toNat / 64 + i) * 64)
    if n = 0 || a.toNat + n ≤ at_.toNat then s
    else match (s.still p).translateNow ⟨p, g.info.ctx, Kind.load, g.priv⟩ at_ with
      | .ok t ppa _ => if (s.part p).space ppa = .mem && !(s.part p).lost ppa then s.homeCopies p ppa t.coh t.ver else s
      | _ => s) s

/-- The safe-point table of a group. -/
def GroupInfo.pointTable (i : GroupInfo) : W64 := i.kaddr + i.sptoff.setWidth 64

/-- The table is read. -/
def State.readPoints (s : State) (g : Group) : State := s.quietLines g g.info.pointTable (32 * g.info.sptcnt.toNat)

/-- Entry `i` of the table. -/
def State.safePointEntry (s : State) (g : Group) (i : Nat) : Option SafePoint :=
  match s.quietRead g (g.info.pointTable + BitVec.ofNat 64 (32 * i)) 32 with
  | none => none
  | some b =>
    let v := valOfBytes 256 b
    some ⟨v.extractLsb' 0 32, v.extractLsb' 32 4, v.extractLsb' 64 64, v.extractLsb' 128 128, fld v 63 36 = 0⟩

/-- The entry whose OFFSET is that of `pc`, and its index. -/
def State.safePoint (s : State) (g : Group) (pc : W64) : Option (Nat × SafePoint) :=
  (List.range g.info.sptcnt.toNat).findSome? fun i =>
    match s.safePointEntry g i with
    | some e => if e.offset.setWidth 64 = pc - g.info.kaddr then some (i, e) else none
    | none => none

/-- The safe-point ordinal of the instruction at `pc`, 0xFFFF if it has none (R417). -/
def State.ordinal (s : State) (g : Group) (pc : W64) : BitVec 16 :=
  match s.safePoint g pc with
  | some (i, _) => BitVec.ofNat 16 i
  | none => 0xFFFF

/-! ### Debug comparators (R419, R420) -/

/-- The comparators that match, lowest first. -/
def State.debugMatch (s : State) (pc : W64) (sbit : Bool) : List Nat :=
  let p := s.part s.pid
  (List.range 4).filter fun n =>
    let c := mget 0 p.dbctl n
    let a := mget 0 p.dbadd n
    c.getLsbD 0 && fld c 15 4 = s.cur.info.ctx &&
      (if c.getLsbD 1 then
        sbit && a = s.cur.info.kaddr && (s.ordinal s.cur pc).toNat = fld c 31 16 && fld c 31 16 ≠ 0xFFFF
       else a = pc)

/-- A slot as a stop request finds it: one that sleeps or waits for memory is stopped (R219, R281). -/
def Frag.stopNow (f : Frag) : Frag := { f with sleeping := false, halted := f.halted || f.sleeping || f.st = .waitMem }

/-- A stop request reaches every group of every block of a gang (R400). An open transaction aborts with status 5
(R401), a sleep ends early (R281), and the harvest groups of its cores are revoked (R215). -/
def State.stopGang (s : State) (part grid gang : Nat) (hold : Bool) : State :=
  let mine := fun (g : Group) => g.info.key.blk.part = part && g.info.key.blk.grid = grid && g.info.gang = gang &&
    g.state ≠ .exited && g.state ≠ .saved
  let s := (s.allGroups.filter fun g => mine g && g.tx.opened).foldl (fun s g => s.txAbort g.info.key 5 0) s
  let s := s.mapGroups fun g =>
    if mine g then
      { g with
        stopReq := true, f0 := g.f0.stopNow, f1 := g.f1.stopNow
        state := if g.state = .running then .stopping else g.state }
    else g
  let harv := ((s.blocks.filter fun b => b.harv && b.placed && !b.exited && b.key.part = part && b.key.grid = grid &&
    b.gang = gang).map fun b => (b.slice, b.core)).eraseDups
  let s := { s with agenda := s.agenda ++ harv.map fun c =>
    ⟨.revocation, { StepArgs.zero with part := part, slice := c.1, core := c.2 }⟩ }
  if hold then
    { s with blocks := s.blocks.map fun b =>
        if b.key.part = part && b.key.grid = grid && b.gang = gang then { b with heldStop := true } else b }
  else s

/-- A comparator match (R420): inside a transaction an abort with status 6 and CAUSE 0x20; otherwise BREAKPOINT with
TADDR n, or a debug stop, and the stream emits a STOP (R418). HIT is set for every comparator that matches; which of
several acts the manual leaves open: the lowest (DESIGN CHOICE, log 139). -/
def State.debugHit (s : State) (ns : List Nat) : State :=
  let n := ns.headD 0
  let act := (mget 0 (s.part s.pid).dbctl n).getLsbD 2
  let s := s.onPart s.pid fun p => { p with dbstat := ns.foldl (fun h n => h ||| (1#4 <<< n)) p.dbstat }
  let s := if s.cur.tx.opened then s
    else s.emit s.cur s.issue.slot (.stop 2 (if act then 0 else Cause.breakpoint) s.issue.pc)
  if s.cur.tx.opened then s.txAbort s.cur.info.key 6 Cause.breakpoint
  else if act then
    (s.onFrag fun f => { f with halted := true }).stopGang s.pid s.cur.info.key.blk.grid s.cur.info.gang true
  else s.raise { cause := Cause.breakpoint, addr := BitVec.ofNat 64 n }

/-! ### Choice of the fragment that issues (R241, R242) -/

/-- A slot has yielded to the other (R280), which can still issue. -/
def Group.gives (g : Group) (slot : Bool) : Bool :=
  let o := g.frag (!slot)
  (g.frag slot).yielded && o.st = .ready && !o.sleeping && !o.halted && (g.trap (!slot)).phase = .none

/-- The slot is of a miss split in which the other fragment has taken a deferred fault: it stops at its next issue (R393). -/
def Group.splitFault (g : Group) (slot : Bool) : Bool :=
  let f := g.frag slot
  let o := g.frag (!slot)
  let t := g.trap (!slot)
  (f.lead || f.lag) && (o.lead || o.lag) && t.phase ≠ .none && t.defer

/-- A fragment that can issue: READY in a group that runs, its slot not stopped by a fault, a stop, a sleep or a
`yield`; any fragment of a group whose transaction another agent has aborted (R144); and one of a
parked group whose instruction has issued and is outstanding (R216). -/
def Group.canIssue (g : Group) (slot : Bool) : Bool :=
  let f := g.frag slot
  ((g.state = .running || g.state = .faulted || g.state = .stopping) &&
    ((f.st = .ready && !f.sleeping && !g.gives slot && ((!f.halted && !g.splitFault slot) || f.cap.isSome) &&
      (g.trap slot).phase = .none) ||
     (f.busy && g.tx.aborting.isSome))) ||
  (g.state = .parked && f.st = .ready && f.cap.isSome && (g.trap slot).phase = .none)

/-- A fragment by group and slot, with what R242 compares. -/
structure Cand where
  key : GroupKey
  slot : Bool
  gslot : Nat
  owner : Bool
  harv : Bool
  waited : Nat
deriving DecidableEq, Repr

def State.cands (s : State) (sl core pipe : Nat) : List Cand :=
  s.allGroups.flatMap fun g =>
    if g.info.slice = sl && g.info.core = core && g.info.slot % 4 = pipe then
      [false, true].filterMap fun b =>
        if g.canIssue b then some ⟨g.info.key, b, g.info.slot, g.info.crit, g.info.harv, (g.frag b).waited⟩ else none
    else []

/-- R242's order: longer wait, then owner, lower group slot, lower fragment slot. -/
def Cand.before (a b : Cand) : Bool :=
  if a.waited ≠ b.waited then decide (a.waited > b.waited)
  else if a.owner ≠ b.owner then a.owner
  else if a.gslot ≠ b.gslot then decide (a.gslot < b.gslot)
  else !a.slot && b.slot

def bestCand : List Cand → Option Cand
  | [] => none
  | c :: r => match bestCand r with
    | none => some c
    | some d => if d.before c then some d else some c

/-- R242 on one pipeline. -/
def pickCand (l : List Cand) : Option Cand :=
  let n := l.filter (!·.harv)
  let e := if n.isEmpty then l else n
  if e.any fun c => !c.owner && 32 ≤ c.waited then bestCand e
  else if e.any (·.owner) then bestCand (e.filter (·.owner))
  else bestCand e

/-- Pipelines with a fragment that can issue: slice, core and number. -/
def State.pipes (s : State) : List (Nat × Nat × Nat) :=
  ((s.allGroups.filter fun g => g.canIssue false || g.canIssue true).map fun g =>
    (g.info.slice, g.info.core, g.info.slot % 4)).eraseDups

/-- Wait counts after a pick (R242). -/
def State.countWaits (s : State) (sl core pipe : Nat) (c : Cand) : State :=
  s.mapGroups fun g =>
    if g.info.slice = sl && g.info.core = core && g.info.slot % 4 = pipe then
      let upd := fun (b : Bool) (f : Frag) =>
        { f with waited := if g.canIssue b && !(g.info.key = c.key && b = c.slot) then f.waited + 1 else 0 }
      { g with f0 := upd false g.f0, f1 := upd true g.f1 }
    else g

/-- The group comes into focus. -/
def State.focus (s : State) (k : GroupKey) : State :=
  if s.cur.info.key = k then s
  else match s.groups.find? (·.info.key = k) with
    | none => s
    | some g =>
      let rest := s.groups.filter (·.info.key ≠ k)
      { s with cur := g, groups := if s.cur.state = .none then rest else s.cur :: rest }

end Sys2Proof.Machine
end

