-- ==== Sys2Proof/Machine/Issue.lean ====
section
/-! DEFINITION. Steps of a fragment arbiter that are due (R212), and the issue of a fragment's instruction (R241, R242). -/

namespace Sys2Proof.Machine

/-- What the next step does. -/
inductive Prep where
  /-- an instruction issues -/
  | issue (i : Instr) (s : State)
  /-- a device step is taken -/
  | event (i : Instr) (s : State)
  /-- the step is complete -/
  | done (s : State)

/-! ### The arbiter (R212) -/

/-- A slot whose fragment stands between instructions, no fault in it. -/
def Group.settled (g : Group) (slot : Bool) : Bool :=
  let f := g.frag slot
  f.st != .free && f.st != .waitMem && f.st != .waitTag && f.done = 0 && f.beat = 0 && f.redo = none &&
    f.cap.isNone && (g.trap slot).phase = .none

def Frag.samePoint (a b : Frag) : Bool := a.pc = b.pc && a.depth = b.depth

/-- WAIT_BAR before its group has arrived. -/
def Group.unarrived (g : Group) (f : Frag) : Bool := f.st = .waitBar && !g.barArrived && !g.gbarArrived

/-- Rule 1 of R212 matches. -/
def Group.canFuse (g : Group) : Bool := g.settled false && g.settled true && g.f0.samePoint g.f1

/-- A fragment that comes to the point where the other waits issues the instruction there, or is fused before it does
(R485): both are possible. -/
def Group.fuseWaits (g : Group) : Bool := g.f0.st ≠ g.f1.st && g.f0.st ≠ .waitLag && g.f1.st ≠ .waitLag

/-- The first rule of R212 that matches. -/
def Group.arbiterRule (g : Group) : Option Instr :=
  let free := fun (f : Frag) => f.st = .free
  let joined := fun (f : Frag) => f.st.join
  let meets := fun (f : Frag) => f.st = .waitJoin || g.unarrived f
  if g.canFuse then if g.fuseWaits then none else some .arbiterFuse
  else if (free g.f0 || free g.f1) && !g.stack.isEmpty then some .arbiterPop
  else if joined g.f0 && joined g.f1 && !g.stack.isEmpty then some .arbiterExchange
  else if !g.stack.isEmpty then none
  else if (g.f0.st = .waitRcv && (free g.f1 || joined g.f1)) || (g.f1.st = .waitRcv && (free g.f0 || joined g.f0)) then
    some .arbiterReleaseRcv
  else if (meets g.f0 && free g.f1) || (meets g.f1 && free g.f0) then some .arbiterJoinMet
  else if meets g.f0 && meets g.f1 then some .arbiterJoinError
  else none

/-- States in which a group's arbiter works. -/
def Group.arbitrates (g : Group) : Bool := g.state = .running || g.state = .faulted || g.state = .stopping

def Group.args (g : Group) : StepArgs :=
  { StepArgs.zero with
    part := g.info.key.blk.part, grid := g.info.key.blk.grid, blk := g.info.key.blk.blk, grp := g.info.key.grp
    slice := g.info.slice, core := g.info.core, gang := g.info.gang }

def State.arbiterDue (s : State) : Option Event :=
  s.allGroups.findSome? fun g =>
    if g.arbitrates then g.arbiterRule.map fun i => ⟨i, g.args⟩ else none

/-! ### Issue -/

/-- A leading fragment stops before a W marker and before the instructions of R210. -/
def leadStops (d : Decoded) : Bool :=
  d.w || match d.instr with
    | .rcv => true
    | .join => true
    | .bar => true
    | .gbar => true
    | .exit => true
    | .brv _ _ => true
    | .txbegin _ => true
    | _ => false

/-- The stop at a safe point (R219, R251): TPC names its instruction. -/
def State.stopHere (s : State) (pc : W64) : State :=
  (s.onFrag fun f => { f with halted := true }).onCur fun g =>
    g.setTrap s.issue.slot { g.trap s.issue.slot with tpc := pc }

/-- Results of the fragment that are not written yet (R249). -/
def State.awaits (s : State) : Bool := s.cur.pend.any fun p => p.mask &&& s.frag.mask ≠ 0

/-- An instruction with W issues: what is still pending, or still to come of the other fragment, is checked for the
fragment (R250). -/
def State.checkAll (s : State) : State :=
  let m := s.frag.mask
  (s.onCur fun g => { g with pend := g.pend.map fun p => { p with checked := p.checked ||| m } }).onCur fun g =>
    g.onFrag (!s.issue.slot) fun f => { f with cap := f.cap.map fun c => { c with checked := c.checked ||| m } }

/-- A group that goes on elsewhere than at the `gbar` from which it had yet to depart has departed (R364). -/
def State.leaveBarrier (s : State) : State :=
  if s.cur.gbarLeft.isSome && !s.cur.priv then s.onCur fun g => { g with gbarArrived := false, gbarLeft := none } else s

/-- The macro of an `mma` has no place: two products execute or wait there, and the fragment is not eligible (R241, R388). -/
def State.macroFull (s : State) (i : Instr) : Bool :=
  let full := fun (q : BitVec 3) => decide (2 ≤ ((s.core s.coreKey).mmaQ.filter (·.slot = q.toNat)).length)
  match i with
  | .mma _ q _ _ _ => full q
  | .mmaZ _ q _ _ _ => full q
  | _ => false

/-- The instruction of the fragment in focus issues: the stop check (R219), the comparators (R420), the stop of a
leading fragment (R210), and the wait of W (R249) come before it. -/
def State.issueDecoded (s : State) (pc : W64) (d : Decoded) : Prep :=
  let s := { s with issue := { s.issue with w := d.w, s := d.s, words := d.words, pc := pc, instr := d.instr } }
  if s.cur.stopReq && d.s then .done (s.stopHere pc)
  else
    match if s.frag.unwatched then [] else s.debugMatch pc d.s with
    | n :: ns => .done (s.debugHit (n :: ns))
    | [] =>
      if s.frag.lead && leadStops d then .done (s.onFrag fun f => { f with st := .waitLag })
      else if d.w && s.awaits then .done (s.onFrag fun f => { f with st := .waitMem, hold := .results })
      else if s.macroFull d.instr then .done s
      else
        let s := if d.w then s.checkAll else s
        let s := if d.instr = .gbar then s else s.leaveBarrier
        let ord := if d.s then s.ordinal s.cur pc else 0
        let s := if d.s then s.readPoints s.cur else s
        let s := s.onFrag fun f => { f with unwatched := false, ord := if d.s then ord else f.ord }
        let s := s.onCur fun g => g.onFrag (!s.issue.slot) fun f => { f with yielded := false }
        .issue d.instr s

/-- The fragment in focus goes on with the instruction that it has issued, or fetches and issues. ILLEGAL_INSTRUCTION
leaves TMASK empty (R247). -/
def State.issueFrag (s : State) : Prep :=
  match s.cur.tx.aborting with
  | some st => .done (s.conflictAbort st)
  | none =>
    let pc := s.frag.pc
    match s.frag.cap with
    | some c => .issue c.word.instr { s with issue := ⟨s.issue.slot, c.word.w, c.word.s, c.word.words, pc, c.word.instr⟩ }
    | none =>
      let s := { s with issue := ⟨s.issue.slot, false, false, 1, pc, .nop⟩ }
      match s.fetchInstr pc with
      | .hold h s => .done (s.onFrag fun f => { f with
          st := .waitMem, hold := match h with
            | .bucket a => .fetch a
            | h => h })
      | .flt f s => .done (s.raise (if f.cause = Cause.illegalInstruction then f
          else { f with done := s.frag.done, beat := s.frag.beat }))
      | .instr d s => s.issueDecoded pc d

end Sys2Proof.Machine
end

