-- ==== Sys2Proof/Machine/Place.lean ====
section
/-! DEFINITION. A group placed from outside the machine with an instruction's words at its PC: the load that
`withFetchWord` stands for. -/

namespace Sys2Proof.Machine

/-- Partition 0 of slice 0 alone: 1 GiB of HBM, one key, every bucket at home in slice 0, context 1 of one table. -/
def placedPart (p : Partition) : Partition :=
  { p with mask := 1, htop := 1, kcount := 1, xctb := 0x0001000000001001, prdy := 15, buckets := [] }

def placedSlice (x : Slice) : Slice := { x with shutter := 1, part := 0, srdy := 63, power := 0, failed := false }

/-- A running group of one fragment of 32 lanes at 0x40, with every register, no translation stage. -/
def placedGroup : Group :=
  { Group.start { GroupInfo.none with ctx := 1, rgran := 16, acc := 4, localKib := 64 } .running with
    f0 := { Frag.none with mask := BitVec.allOnes 32, pc := 0x40, st := .ready } }

/-- A context entry that is valid with both stages off (R46) at 0x1020, and the words at 0x40. -/
def placedBytes (m : List Host.Cell) (w : Nat) : List Host.Cell :=
  let entry := putBytes m 0x1020 (bytesOf 32 (1#256))
  putBytes entry 0x40 (bytesOf 8 (BitVec.ofNat 64 w))

/-- The placed group in the machine, in focus and alone. -/
def State.place (s : State) (nbits w : Nat) : State :=
  { s with
    cur := placedGroup
    groups := []
    blocks := [Block.start placedGroup.info 0]
    slices := upsert (·.id = 0) (placedSlice (s.slice 0)) s.slices
    parts := upsert (·.id = 0) (placedPart (s.part 0)) s.parts
    mem := placedBytes s.mem (w % 2 ^ nbits)
    stale := []
    poison := []
    lineKey := []
    cores := []
    clusters := []
    agenda := []
    mtc := { s.mtc with on := true, verified := true } }

end Sys2Proof.Machine
end

