-- ==== Sys2Proof/Machine/Flags.lean ====
section
/-! DEFINITION. Condition codes and uniform flags (R253, R289, R298): conditions, the codes an integer result forms, and
the element arithmetic they come from (R287 to R297, R302 to R304). -/

namespace Sys2Proof.Machine

/-! ### Conditions -/

/-- C, Z, N, V as one value. -/
def codesOf (c z n v : Bool) : Codes := BitVec.ofBool c ++ BitVec.ofBool z ++ BitVec.ofBool n ++ BitVec.ofBool v

def Codes.c (f : Codes) : Bool := f.getLsbD 3
def Codes.z (f : Codes) : Bool := f.getLsbD 2
def Codes.n (f : Codes) : Bool := f.getLsbD 1
def Codes.v (f : Codes) : Bool := f.getLsbD 0

/-- Condition `c` over a flag set (R253); 15 is reserved and never reaches here. -/
def condHolds (c : Nat) (f : Codes) : Bool :=
  let C := Codes.c f
  let Z := Codes.z f
  let N := Codes.n f
  let V := Codes.v f
  match c with
  | 0 => true
  | 1 => Z
  | 2 => !Z
  | 3 => C
  | 4 => !C
  | 5 => N
  | 6 => !N
  | 7 => V
  | 8 => !V
  | 9 => C && !Z
  | 10 => !C || Z
  | 11 => N == V
  | 12 => N != V
  | 13 => !Z && N == V
  | 14 => Z || N != V
  | _ => false

/-! ### MODE (R252) -/

def modeType (m : W32) : Nat := fld m 4 0
def modeRnd (m : W32) : Nat := fld m 7 5
def modeGuard (m : W32) : Nat := fld m 11 8
def modeCcw (m : W32) : Bool := m.getLsbD 12
def modeScope (m : W32) : Nat := fld m 15 13
def modeFtz (m : W32) : Bool := m.getLsbD 16
def modeSat (m : W32) : Bool := m.getLsbD 17

def State.ty (s : State) : Nat := modeType s.mode
def State.sat (s : State) : Bool := modeSat s.mode
def State.ccw (s : State) : Bool := modeCcw s.mode

/-! ### Element types (R150, R151) -/

/-- An integer type. -/
structure IntTy where
  w : Nat
  signed : Bool
deriving DecidableEq, Repr

def intTy (t : Nat) : Option IntTy :=
  match t with
  | 0x00 => some ⟨8, true⟩
  | 0x01 => some ⟨16, true⟩
  | 0x02 => some ⟨32, true⟩
  | 0x03 => some ⟨64, true⟩
  | 0x04 => some ⟨8, false⟩
  | 0x05 => some ⟨16, false⟩
  | 0x06 => some ⟨32, false⟩
  | 0x07 => some ⟨64, false⟩
  | 0x10 => some ⟨4, true⟩
  | 0x11 => some ⟨4, false⟩
  | _ => none

/-- Width of any type in bits; 0 for a reserved code. -/
def typeBits (t : Nat) : Nat :=
  match t with
  | 0x08 => 16
  | 0x09 => 16
  | 0x0A => 32
  | 0x0B => 8
  | 0x0C => 8
  | 0x0D => 4
  | 0x0E => 4
  | 0x0F => 8
  | _ => match intTy t with
    | some i => i.w
    | none => 0

/-! ### Element arithmetic -/

/-- The value of a bit pattern. -/
def IntTy.read (t : IntTy) (a : Nat) : Int := if t.signed && 2 ^ (t.w - 1) ≤ a then (a : Int) - 2 ^ t.w else a

def IntTy.lo (t : IntTy) : Int := if t.signed then -(2 ^ (t.w - 1) : Int) else 0
def IntTy.hi (t : IntTy) : Int := if t.signed then 2 ^ (t.w - 1) - 1 else 2 ^ t.w - 1

/-- `x` lies outside the range. -/
def IntTy.outside (t : IntTy) (x : Int) : Bool := decide (x < t.lo) || decide (t.hi < x)

/-- `saturate(x, t)` (R265). -/
def IntTy.saturate (t : IntTy) (x : Int) : Int := if x < t.lo then t.lo else if t.hi < x then t.hi else x

/-- `x` modulo 2^w. -/
def wrap (w : Nat) (x : Int) : Nat := (x % (2 ^ w : Int)).toNat

/-- A sub-element's result with its carry term and V. -/
structure Elt where
  val : Nat
  c : Bool
  v : Bool
deriving DecidableEq, Repr

/-- An exact result that R290 marks V and SAT. -/
def IntTy.narrow (t : IntTy) (sat : Bool) (x : Int) (c : Bool) : Elt :=
  ⟨wrap t.w (if sat then t.saturate x else x), c, t.outside x⟩

/-- A result without V and SAT. -/
def plainElt (w : Nat) (x : Int) : Elt := ⟨wrap w x, false, false⟩

/-- What an element operation reads: bit patterns of A, B and D, and the carry in. -/
structure EltIn where
  a : Nat
  b : Nat
  d : Nat
  cin : Bool
deriving DecidableEq, Repr

/-- An element operation: type, MODE.SAT, operands. -/
abbrev EltOp := IntTy → Bool → EltIn → Elt

def eltAdd : EltOp := fun t sat x => t.narrow sat (t.read x.a + t.read x.b) (decide (2 ^ t.w ≤ x.a + x.b))
def eltAdc : EltOp := fun t sat x =>
  t.narrow sat (t.read x.a + t.read x.b + x.cin.toNat) (decide (2 ^ t.w ≤ x.a + x.b + x.cin.toNat))
def eltSub : EltOp := fun t sat x => t.narrow sat (t.read x.a - t.read x.b) (decide (x.b ≤ x.a))
def eltSbb : EltOp := fun t sat x =>
  t.narrow sat (t.read x.a - t.read x.b - (1 - x.cin.toNat : Nat)) (decide (x.b + (1 - x.cin.toNat) ≤ x.a))
def eltMul : EltOp := fun t sat x => t.narrow sat (t.read x.a * t.read x.b) false
def eltMulh : EltOp := fun t _ x => plainElt t.w (t.read x.a * t.read x.b / 2 ^ t.w)
def eltMad : EltOp := fun t sat x => t.narrow sat (t.read x.a * t.read x.b + t.read x.d) false
def eltAbsdiff : EltOp := fun t _ x => plainElt t.w (t.read x.a - t.read x.b).natAbs
def eltNeg : EltOp := fun t sat x => t.narrow sat (0 - t.read x.a) (decide (x.a = 0))
def eltAbs : EltOp := fun t sat x => t.narrow sat (t.read x.a).natAbs false
def eltMin : EltOp := fun t _ x => plainElt t.w (Min.min (t.read x.a) (t.read x.b))
def eltMax : EltOp := fun t _ x => plainElt t.w (Max.max (t.read x.a) (t.read x.b))

/-- Bit `i` of a number. -/
def bitOf (a i : Nat) : Bool := a / 2 ^ i % 2 = 1

def IntTy.fill (t : IntTy) (a : Nat) : Bool := t.signed && bitOf a (t.w - 1)

/-- The exact shift A · 2ⁿ, whose amount is cut off where it changes neither result, V nor clamp. -/
def eltShl : EltOp := fun t sat x =>
  let n := Nat.min x.b (2 * t.w)
  t.narrow sat (t.read x.a * 2 ^ n) (decide (1 ≤ x.b ∧ x.b ≤ t.w) && bitOf x.a (t.w - n))

def eltShr : EltOp := fun t _ x =>
  let f := t.fill x.a
  let ones := 2 ^ t.w - 1
  let n := Nat.min x.b t.w
  ⟨x.a / 2 ^ n + (if f then ones - ones / 2 ^ n else 0),
   if x.b = 0 then false else if x.b ≤ t.w then bitOf x.a (x.b - 1) else f, false⟩

def eltRol : EltOp := fun t _ x =>
  let n := x.b % t.w
  ⟨(x.a * 2 ^ n % 2 ^ t.w) + x.a / 2 ^ (t.w - n), false, false⟩

def eltRor : EltOp := fun t sat x => eltRol t sat { x with b := t.w - x.b % t.w }

def popCount (w a : Nat) : Nat := ((List.range w).filter (bitOf a)).length

def leadingZeros (w a : Nat) : Nat :=
  match (List.range w).find? fun i => bitOf a (w - 1 - i) with
  | some i => i
  | none => w

def reverseBits (w a : Nat) : Nat := (List.range w).foldl (fun r i => 2 * r + if bitOf a i then 1 else 0) 0

def eltPopc : EltOp := fun t _ x => plainElt t.w (popCount t.w x.a)
def eltClz : EltOp := fun t _ x => plainElt t.w (leadingZeros t.w x.a)
def eltBrev : EltOp := fun t _ x => plainElt t.w (reverseBits t.w x.a)

/-- The effective length of a bit field (R296). -/
def fieldLen (w pos len : Nat) : Nat := if w ≤ pos then 0 else Nat.min len (w - pos)

/-- Extraction of a field, sign-extended or not (R296, R304). -/
def fieldExtract (w pos len : Nat) (signed : Bool) (a : Nat) : Nat :=
  let l := fieldLen w pos len
  if l = 0 then 0 else wrap w ((IntTy.mk l signed).read (a / 2 ^ pos % 2 ^ l))

/-- Insertion of a field. -/
def fieldInsert (w pos len a d : Nat) : Nat :=
  let l := fieldLen w pos len
  if l = 0 then d
  else d % 2 ^ pos + a % 2 ^ l * 2 ^ pos + d / 2 ^ (pos + l) * 2 ^ (pos + l)

def eltBfe : EltOp := fun t _ x => ⟨fieldExtract t.w (x.b % 256) (x.b / 256 % 256) t.signed x.a, false, false⟩
def eltBfi : EltOp := fun t _ x => ⟨fieldInsert t.w (x.b % 256) (x.b / 256 % 256) x.a x.d, false, false⟩

def eltAnd : EltOp := fun _ _ x => ⟨x.a &&& x.b, false, false⟩
def eltOr : EltOp := fun _ _ x => ⟨x.a ||| x.b, false, false⟩
def eltXor : EltOp := fun _ _ x => ⟨x.a ^^^ x.b, false, false⟩
def eltAndn : EltOp := fun t _ x => ⟨x.a &&& (2 ^ t.w - 1 - x.b), false, false⟩
def eltSecond : EltOp := fun _ _ x => ⟨x.b, false, false⟩

/-- Codes of a comparison of two w-bit patterns (R298). -/
def cmpCodes (w a b : Nat) : Codes :=
  let t : IntTy := ⟨w, true⟩
  codesOf (decide (b ≤ a)) (decide (a = b)) (bitOf (wrap w (a - b : Int)) (w - 1)) (t.outside (t.read a - t.read b))

/-- Codes of a bit test (R298). -/
def testCodes (w a b : Nat) : Codes := codesOf false (a &&& b = 0) (bitOf (a &&& b) (w - 1)) false

/-- Codes of a result of `w` bits with its carry term and V (R289). -/
def resultCodes (w val : Nat) (c v : Bool) : Codes := codesOf c (val = 0) (bitOf val (w - 1)) v

/-- One lane of `lw` bits computed sub-element by sub-element. -/
def laneElts (t : IntTy) (lw : Nat) (f : Nat → Elt) : Elt :=
  (List.range (lw / t.w)).foldl
    (fun r j => let e := f j; ⟨r.val + e.val * 2 ^ (t.w * j), r.c || e.c, r.v || e.v⟩) ⟨0, false, false⟩

/-! ### 64-bit division (R303) -/

def i64 : IntTy := ⟨64, true⟩

def eltSdiv : EltOp := fun t _ x =>
  let a := t.read x.a
  let b := t.read x.b
  if b = 0 then ⟨2 ^ t.w - 1, false, true⟩
  else ⟨wrap t.w (a.tdiv b), false, t.outside (a.tdiv b)⟩

def eltSrem : EltOp := fun t _ x =>
  let a := t.read x.a
  let b := t.read x.b
  if b = 0 then ⟨x.a, false, true⟩ else ⟨wrap t.w (a.tmod b), false, t.outside (a.tdiv b)⟩

/-- Bit-field extract with the sign flag in b bit 16 (R304). -/
def eltSbfe : EltOp := fun t _ x =>
  ⟨fieldExtract t.w (x.b % 256) (x.b / 256 % 256) (bitOf x.b 16) x.a, false, false⟩

/-- A right shift with its own fill. -/
def eltSshr : EltOp := fun t sat x => eltShr { t with signed := false } sat x

end Sys2Proof.Machine
end

