-- ==== Sys2Proof/Machine/Operands.lean ====
section
/-! DEFINITION. Operand forms (R246, R253, R287, R340 to R342): active lanes, vector, uniform and immediate operands,
effective addresses, the checks of R288, and the shared shape of a vector instruction. -/

namespace Sys2Proof.Machine

/-! ### Active lanes (R253) -/

def State.active (s : State) : Mask :=
  let g := modeGuard s.mode
  if g = 0 then s.frag.mask else maskOf fun l => s.frag.mask.getLsbD l && condHolds g (s.ccread 0 l)

/-- The guard reads the lane codes. -/
def State.guardReads (s : State) : Bool := modeGuard s.mode ≠ 0

/-! ### Operands -/

/-- The second operand: vector register, uniform register, immediate (R287). -/
inductive Src where
  | v (n : BitVec 7)
  | u (n : BitVec 6)
  | i (n : BitVec 10)
deriving DecidableEq, Repr

/-- A 64-bit MODE.TYPE works on pairs (R330, R341). -/
def State.wideTy (s : State) : Bool := typeBits s.ty = 64

/-- Registers of a vector operand: one, or an even:odd pair. -/
def regs (wide : Bool) (n : BitVec 7) : List Nat := if wide then [n.toNat, n.toNat + 1] else [n.toNat]

/-- `vreg(n, l)` (R265): a lane of v`n`, or of the pair, as operand `k` reads it. -/
def State.vreg (s : State) (wide : Bool) (k : Nat) (n : BitVec 7) (l : Nat) : Nat :=
  (s.vread k n.toNat l).toNat + if wide then (s.vread k (n.toNat + 1) l).toNat * 2 ^ 32 else 0

def Src.vregs (x : Src) (wide : Bool) : List Nat :=
  match x with
  | .v n => regs wide n
  | .u _ => []
  | .i _ => []

def Src.uregs : Src → List Nat
  | .v _ => []
  | .u n => [n.toNat]
  | .i _ => []

/-- Sub-element `j` of the second operand in lane `l`. -/
def State.src (s : State) (wide : Bool) (k : Nat) (x : Src) (w l j : Nat) : Nat :=
  match x with
  | .v n => s.vreg wide k n l / 2 ^ (w * j) % 2 ^ w
  | .u n => (s.uread k n.toNat).toNat % 2 ^ w
  | .i n => wrap w n.toInt

/-- A shift amount (R294): w bits of a vector operand, all 64 of a uniform one, bits 5:0 of an immediate. -/
def State.amount (s : State) (wide : Bool) (k : Nat) (x : Src) (w l j : Nat) : Nat :=
  match x with
  | .v n => s.vreg wide k n l / 2 ^ (w * j) % 2 ^ w
  | .u n => (s.uread k n.toNat).toNat
  | .i n => n.toNat % 64

/-! ### HAZARD (R250) -/

/-- What an instruction names: vector registers, uniform registers, registers that must be even, and whether it reads or
writes lane codes or uniform flags. -/
structure Named where
  vs : List Nat := []
  us : List Nat := []
  evens : List Nat := []
  cc : Bool := false
  fl : Bool := false
  /-- Vector registers reached through local addresses, which only HAZARD looks at (R79). -/
  reached : List Nat := []

/-- The variable-latency results of an instruction that can wait after its issue, under the MODE that it took. -/
def lateResults (m : W32) (i : Instr) : Named :=
  let k := if typeBits (modeType m) = 64 then 2 else 1
  let vec := fun (t : BitVec 7) (n : Nat) => { vs := (List.range n).map (t.toNat + ·) : Named }
  let atom := fun (t : BitVec 7) => { vec t k with cc := modeCcw m }
  let uni := fun (t : BitVec 6) => { us := [t.toNat] : Named }
  let atomu := fun (t : BitVec 6) => { us := [t.toNat], fl := modeCcw m : Named }
  match i with
  | .ld t _ _ n _ => vec t (k * 2 ^ n.toNat)
  | .ldx t _ _ n _ _ => vec t (k * 2 ^ n.toNat)
  | .ldl t _ _ n _ => vec t (k * 2 ^ n.toNat)
  | .fill t _ _ n => vec t (2 ^ n.toNat)
  | .accrd _ t _ n => vec t (2 ^ n.toNat)
  | .ldf t _ _ _ => vec t 1
  | .ldfTake t _ _ _ => vec t 1
  | .trd t _ _ _ => vec t 1
  | .tblrd t _ => vec t 1
  | .atomAdd t _ _ _ => atom t
  | .atomMin t _ _ _ => atom t
  | .atomMax t _ _ _ => atom t
  | .atomAnd t _ _ _ => atom t
  | .atomOr t _ _ _ => atom t
  | .atomXor t _ _ _ => atom t
  | .atomExch t _ _ _ => atom t
  | .atomCas t _ _ _ => atom t
  | .atomFadd t _ _ _ => atom t
  | .atomFaddp t _ _ _ => atom t
  | .ldu t _ _ => uni t
  | .atomuAdd t _ _ => atomu t
  | .atomuMin t _ _ => atomu t
  | .atomuMax t _ _ => atomu t
  | .atomuAnd t _ _ => atomu t
  | .atomuOr t _ _ => atomu t
  | .atomuXor t _ _ => atomu t
  | .atomuExch t _ _ => atomu t
  | .atomuCas t _ _ => atomu t
  | .atomuFadd t _ _ => atomu t
  | .atomuFaddp t _ _ => atomu t
  | .snapopen d => { us := [d.toNat, d.toNat + 1] }
  | .txcommit d => uni d
  | .subscribe d _ => uni d
  | .substatIn d _ => uni d
  | .substatOut d _ => uni d
  | .launch d _ _ => uni d
  | _ => {}

/-- The result is of the instruction at issue itself, which issues again with lanes done (R345, R398). -/
def State.ownResult (s : State) (p : Pend) : Bool :=
  (s.frag.done ≠ 0 || s.frag.beat ≠ 0) && p.pc = s.issue.pc && p.mask &&& s.frag.mask ≠ 0

/-- Writes that are pending and not checked for the issuing fragment (R250). -/
def State.unchecked (s : State) : List ResWrite :=
  (s.cur.pend.filter fun p => s.frag.mask &&& ~~~p.checked ≠ 0 && !s.ownResult p).flatMap (·.writes)

/-- The results still to come, and not checked for the issuing fragment, of the other fragment's instruction (R250). -/
def State.toCome (s : State) : Named :=
  match s.other.cap with
  | none => {}
  | some c => if s.frag.mask &&& ~~~c.checked = 0 then {} else lateResults c.mode c.word.instr

/-- HAZARD (R250): the instruction, at its issue, names a cell with an unchecked pending result and the kernel sets CHECKED.
The detail word holds the register number; for codes and flags, which have none, a free value (R390). -/
def State.hazard (s : State) (vs us : List Nat) (cc fl : Bool) : Option Flt :=
  if s.cur.info.checked && s.frag.cap.isNone then
    let ws := s.unchecked
    let o := s.toCome
    match (vs.filter fun n => o.vs.contains n || ws.any fun w => match w with | .vec n' _ _ => n' = n | _ => false) ++
          (us.filter fun n => n ≠ 0 && (o.us.contains n || ws.any fun w => match w with | .uni n' _ => n' = n | _ => false)) with
    | n :: _ => some { cause := Cause.hazard, detail := BitVec.ofNat 64 (n % 128) }
    | [] =>
      if (cc && (o.cc || ws.any fun w => match w with | .codes _ _ => true | _ => false)) ||
         (fl && (o.fl || ws.any fun w => match w with | .flags _ => true | _ => false))
      then some { cause := Cause.hazard, detail := BitVec.ofNat 64 (s.draw 1 % 128) } else none
  else none

/-- The checks of R343 orders 1 and 2 that every instruction makes: HAZARD, then REGISTER_WINDOW for the vector
registers named (R74). -/
def State.guardRegs (s : State) (vs us : List Nat) (cc fl : Bool) (k : Res) : Res :=
  match s.hazard vs us cc fl with
  | some f => .flt s f
  | none => if vs.all (· < s.cur.info.nregs) then k else .flt s { cause := Cause.registerWindow }

/-! ### Checks (R288) -/

/-- The checks of R288 in order: HAZARD, TYPE, register window, register alignment. -/
def State.guardAll (s : State) (n : Named) (tyOk : Bool) (k : Res) : Res :=
  match s.hazard n.vs n.us n.cc n.fl with
  | some f => .flt s f
  | none =>
    if !tyOk then .flt s { cause := Cause.illegalOperand }
    else if !n.vs.all (· < s.cur.info.nregs) then .flt s { cause := Cause.registerWindow }
    else if !n.evens.all (· % 2 = 0) then .flt s { cause := Cause.illegalOperand }
    else k

/-! ### Writing lanes -/

/-- A lane of v`n`, or of the pair, written. -/
def State.putLane (s : State) (wide : Bool) (n : BitVec 7) (l val : Nat) : State :=
  let s := s.vwrite n.toNat l (BitVec.ofNat 32 val)
  if wide then s.vwrite (n.toNat + 1) l (BitVec.ofNat 32 (val / 2 ^ 32)) else s

/-- Every lane of `m` takes the value and codes that `f` gives it; `f` has read its sources before. -/
def State.putLanes (s : State) (m : Mask) (wide : Bool) (d : BitVec 7) (codes : Bool) (f : Nat → Nat × Codes) : State :=
  forLanes m (fun l t =>
    let r := f l
    let t := t.putLane wide d l r.1
    if codes then t.ccwrite l r.2 else t) s

/-- Every lane of `m` takes codes. -/
def State.putCodes (s : State) (m : Mask) (f : Nat → Codes) : State := forLanes m (fun l t => t.ccwrite l (f l)) s

/-! ### The shape of an integer vector instruction -/

/-- Types of the element-wise class (R286). -/
def eltTypes (t : Nat) : Bool := t ≤ 7

/-- Types of the whole-lane class. -/
def wholeTypes (t : Nat) : Bool := t = 2 || t = 6 || t = 3 || t = 7

/-- Types of the bitwise class: every code of 8, 16, 32 or 64 bits but 0x0D, 0x0E, 0x10, 0x11. -/
def bitTypes (t : Nat) : Bool := t ≤ 0x0C || t = 0x0F

/-- A type as the element operations take it; float types as bits. -/
def bitTy (t : Nat) : IntTy := (intTy t).getD ⟨typeBits t, false⟩

/-- What varies among the vector instructions of R290 to R296. -/
structure VecForm where
  types : Nat → Bool
  op : EltOp
  /-- the destination is a source too -/
  readsD : Bool := false
  /-- the second operand is a shift amount -/
  shift : Bool := false
  /-- the lane's C is read -/
  carry : Bool := false
  /-- the codes are never written -/
  noCodes : Bool := false

/-- One lane of the result, and its codes (R289). -/
def State.vecLane (s : State) (fm : VecForm) (d a : BitVec 7) (b : Src) (l : Nat) : Nat × Codes :=
  let t := bitTy s.ty
  let wide := s.wideTy
  let lw := if wide then 64 else 32
  let va := s.vreg wide 0 a l
  let vd := if fm.readsD then s.vreg wide 2 d l else 0
  let cin := fm.carry && Codes.c (s.ccread 3 l)
  let e := laneElts t lw fun j => fm.op t s.sat {
    a := va / 2 ^ (t.w * j) % 2 ^ t.w
    b := if fm.shift then s.amount wide 1 b t.w l j else s.src wide 1 b t.w l j
    d := vd / 2 ^ (t.w * j) % 2 ^ t.w
    cin := cin }
  (e.val, resultCodes lw e.val e.c e.v)

/-- A vector instruction with a destination. -/
def State.vecOp (s : State) (fm : VecForm) (d a : BitVec 7) (b : Src) : Res :=
  let wide := s.wideTy
  let codes := s.ccw && !fm.noCodes
  let vs := regs wide d ++ regs wide a ++ b.vregs wide
  let evens := if wide then d.toNat :: a.toNat :: (b.vregs false) else []
  s.guardAll { vs := vs, us := b.uregs, evens := evens, cc := s.guardReads || codes || fm.carry } (fm.types s.ty)
    (.ok (s.putLanes s.active wide d codes (s.vecLane fm d a b)).advance)

/-- A vector comparison, which only writes codes (R298). -/
def State.vecCmp (s : State) (f : Nat → Nat → Nat → Codes) (a : BitVec 7) (b : Src) : Res :=
  let w := (bitTy s.ty).w
  let wide := s.wideTy
  let evens := if wide then a.toNat :: b.vregs false else []
  s.guardAll { vs := regs wide a ++ b.vregs wide, us := b.uregs, evens := evens, cc := true } (wholeTypes s.ty)
    (.ok (s.putCodes s.active fun l => f w (s.vreg wide 0 a l) (s.src wide 1 b w l 0)).advance)

/-! ### Effective addresses (R265, R341, R342) -/

/-- Bytes of `n` elements of the type, `esize` being 0.5 for 4-bit types. -/
def scaled (t n : Nat) : Nat := n * typeBits t / 8

/-- `ea(l)`. -/
def State.ea (s : State) (o : BitVec 7) (b : BitVec 6) (lit : W32) (l : Nat) : W64 :=
  s.uread 1 b.toNat + BitVec.ofNat 64 (scaled s.ty (s.vread 1 o.toNat l).toNat) + lit.signExtend 64

/-! ### Uniform results -/

/-- A fixed-latency uniform result with its flags (R302), and the next instruction. -/
def State.uniform (s : State) (d : BitVec 6) (v : W64) (fl : Option Codes) : State :=
  let s := s.uwrite d.toNat v
  match fl with
  | some c => s.flwrite c
  | none => s

end Sys2Proof.Machine
end

