-- ==== Sys2Proof/Machine/Formats.lean ====
section
/-! DEFINITION. Floating-point types (R151, R152): exact values, rounding (R153), overflow (R154, R155), arithmetic
(R310 to R316, R323), conversions (R318 to R322). -/

namespace Sys2Proof.Machine

/-! ### Types and values -/

/-- A floating-point type: exponent and mantissa widths, bias, whether it has infinities, NaNs. -/
structure FloatTy where
  eb : Nat
  mb : Nat
  bias : Nat
  inf : Bool
  nan : Bool
deriving DecidableEq, Repr

def tyF32 : FloatTy := ⟨8, 23, 127, true, true⟩
def tyF16 : FloatTy := ⟨5, 10, 15, true, true⟩
def tyBf16 : FloatTy := ⟨8, 7, 127, true, true⟩
def tyE4m3 : FloatTy := ⟨4, 3, 7, false, true⟩
def tyE5m2 : FloatTy := ⟨5, 2, 15, true, true⟩
def tyE2m1 : FloatTy := ⟨2, 1, 1, false, false⟩

/-- The type of a TYPE code (R151), e8m0 and cb4 apart. -/
def floatTy (t : Nat) : Option FloatTy :=
  match t with
  | 0x08 => some tyF16
  | 0x09 => some tyBf16
  | 0x0A => some tyF32
  | 0x0B => some tyE4m3
  | 0x0C => some tyE5m2
  | 0x0D => some tyE2m1
  | _ => none

def FloatTy.w (t : FloatTy) : Nat := 1 + t.eb + t.mb

/-- f32, f16 and bf16 are the types that FTZ flushes (R311). -/
def FloatTy.flushes (t : FloatTy) : Bool := t = tyF32 || t = tyF16 || t = tyBf16

/-- What a code stands for: a NaN with its sign bit, an infinity, or (−1)^neg · m · 2^e. -/
inductive FVal where
  | nan (neg : Bool)
  | inf (neg : Bool)
  | fin (neg : Bool) (m : Nat) (e : Int)
deriving DecidableEq, Repr

def FVal.isNan : FVal → Bool
  | .nan _ => true
  | _ => false

def FVal.neg : FVal → Bool
  | .nan n => n
  | .inf n => n
  | .fin n _ _ => n

def FVal.isZero : FVal → Bool
  | .fin _ m _ => m = 0
  | _ => false

/-- The value of a code (R151). -/
def FloatTy.decode (t : FloatTy) (b : Nat) : FVal :=
  let m := b % 2 ^ t.mb
  let e := b / 2 ^ t.mb % 2 ^ t.eb
  let s := bitOf b (t.eb + t.mb)
  let top := e = 2 ^ t.eb - 1
  if t.inf && top then (if m = 0 then .inf s else .nan s)
  else if !t.inf && t.nan && top && m = 2 ^ t.mb - 1 then .nan s
  else if e = 0 then .fin s m (1 - t.bias - t.mb)
  else .fin s (2 ^ t.mb + m) ((e : Int) - t.bias - t.mb)

/-- A subnormal code. -/
def FloatTy.subnormal (t : FloatTy) (b : Nat) : Bool := b / 2 ^ t.mb % 2 ^ t.eb = 0 && b % 2 ^ t.mb ≠ 0

/-- The value of an input after the flush of R311. -/
def FloatTy.input (t : FloatTy) (ftz : Bool) (b : Nat) : FVal :=
  if ftz && t.flushes && t.subnormal b then .fin (bitOf b (t.eb + t.mb)) 0 0 else t.decode b

/-- Largest exponent field and mantissa of a finite value. -/
def FloatTy.maxE (t : FloatTy) : Nat := if t.inf then 2 ^ t.eb - 2 else 2 ^ t.eb - 1
def FloatTy.maxM (t : FloatTy) : Nat := if !t.inf && t.nan then 2 ^ t.mb - 2 else 2 ^ t.mb - 1

def FloatTy.signBit (t : FloatTy) (neg : Bool) : Nat := if neg then 2 ^ (t.eb + t.mb) else 0

def FloatTy.maxFinite (t : FloatTy) (neg : Bool) : Nat := t.maxE * 2 ^ t.mb + t.maxM + t.signBit neg

def FloatTy.infinity (t : FloatTy) (neg : Bool) : Nat := (2 ^ t.eb - 1) * 2 ^ t.mb + t.signBit neg

/-- The canonical NaN of a type (R151), with a sign. -/
def FloatTy.canonNan (t : FloatTy) (neg : Bool) : Nat :=
  (2 ^ t.eb - 1) * 2 ^ t.mb + (if t.inf then 2 ^ (t.mb - 1) else 2 ^ t.mb - 1) + t.signBit neg

/-! ### Rounding -/

/-- Rounding modes in the codes of R153. -/
def Rnd.rne : Nat := 0
def Rnd.rtz : Nat := 1
def Rnd.rup : Nat := 2
def Rnd.rdn : Nat := 3
def Rnd.rna : Nat := 4
def Rnd.rsr : Nat := 5

/-- The choice of R153 by magnitude: `n` plus the fraction `rem / den` goes to `n + 1`. -/
def roundsAway (rnd : Nat) (st : Nat) (neg : Bool) (n rem den : Nat) : Bool :=
  if rem = 0 then false
  else match rnd with
    | 1 => false
    | 2 => !neg
    | 3 => neg
    | 4 => decide (den ≤ 2 * rem)
    | 5 => decide (st < rem * 2 ^ 32 / den)
    | _ => decide (den < 2 * rem) || (decide (2 * rem = den) && n % 2 = 1)

/-- m · 2^e rounded to a multiple of 2^q, in units of 2^q. -/
def roundAt (rnd st : Nat) (neg : Bool) (m : Nat) (e q : Int) : Nat :=
  if q ≤ e then m * 2 ^ (e - q).toNat
  else
    let den := 2 ^ (q - e).toNat
    let n := m / den
    if roundsAway rnd st neg n (m % den) den then n + 1 else n

/-- A code with its marks: a NaN was produced, an overflow occurred. -/
structure FOut where
  bits : Nat
  nan : Bool
  ovf : Bool
deriving DecidableEq, Repr

/-- How a value is rounded: RND, the stochastic state, the overflow entry of the type, FTZ. -/
structure RoundCtl where
  rnd : Nat
  st : Nat
  ovt : Nat
  ftz : Bool
deriving DecidableEq, Repr

/-- The result of an overflow (R154). -/
def FloatTy.overflow (t : FloatTy) (c : RoundCtl) (neg : Bool) : FOut :=
  if c.rnd = Rnd.rtz || (c.rnd = Rnd.rup && neg) || (c.rnd = Rnd.rdn && !neg) || c.ovt = 0 then
    ⟨t.maxFinite neg, false, true⟩
  else if c.ovt = 1 then ⟨t.infinity neg, false, true⟩
  else ⟨t.canonNan neg, true, true⟩

/-- The exponent of the leading bit. -/
def topBit (m : Nat) : Nat := m.log2

/-- A finite magnitude rounded into a type. -/
def FloatTy.roundFin (t : FloatTy) (c : RoundCtl) (neg : Bool) (m : Nat) (e : Int) : FOut :=
  if m = 0 then ⟨t.signBit neg, false, false⟩
  else
    let q := max (e + topBit m - t.mb) (1 - t.bias - t.mb)
    let n := roundAt c.rnd c.st neg m e q
    let carry := 2 ^ (t.mb + 1) ≤ n
    let n' := if carry then n / 2 else n
    let q' := if carry then q + 1 else q
    if n' < 2 ^ t.mb then
      ⟨(if c.ftz && t.flushes then 0 else n') + t.signBit neg, false, false⟩
    else
      let ef := (q' + t.bias + t.mb).toNat
      if t.maxE < ef || (ef = t.maxE && t.maxM < n' - 2 ^ t.mb) then t.overflow c neg
      else ⟨ef * 2 ^ t.mb + (n' - 2 ^ t.mb) + t.signBit neg, false, false⟩

/-- `round_to(x, t)` (R265): rounding, overflow, special values narrowed into the type. -/
def FloatTy.round (t : FloatTy) (c : RoundCtl) (x : FVal) : FOut :=
  match x with
  | .nan neg =>
    if !t.nan then ⟨0, false, false⟩
    else ⟨t.canonNan (neg && t = tyE4m3), true, false⟩
  | .inf neg =>
    if t.inf then ⟨t.infinity neg, false, false⟩
    else if t.nan && c.ovt = 2 then ⟨t.canonNan neg, true, false⟩
    else ⟨t.maxFinite neg, false, false⟩
  | .fin neg m e => t.roundFin c neg m e

/-- The overflow entry of a type (R155); f32 acts as entry 1 (R310). -/
def ovtEntry (ovt : BitVec 16) (t : FloatTy) : Nat :=
  if t = tyF16 then fld ovt 1 0
  else if t = tyBf16 then fld ovt 3 2
  else if t = tyE4m3 then fld ovt 5 4
  else if t = tyE5m2 then fld ovt 7 6
  else if t = tyE2m1 then fld ovt 9 8
  else 1

/-- rsr acts as rne outside the narrowing conversions (R310). -/
def noRsr (rnd : Nat) : Nat := if rnd = Rnd.rsr then Rnd.rne else rnd

/-- The control of an arithmetic instruction. -/
def State.ctl (s : State) (t : FloatTy) : RoundCtl :=
  ⟨noRsr (modeRnd s.mode), 0, ovtEntry s.operands.ovt t, modeFtz s.mode⟩

/-! ### Exact arithmetic (R310) -/

def FVal.flip : FVal → FVal
  | .nan n => .nan n
  | .inf n => .inf (!n)
  | .fin n m e => .fin (!n) m e

/-- The signed integer `a` in units of 2^q, for q at most its exponent. -/
def scaledInt (neg : Bool) (m : Nat) (e q : Int) : Int :=
  let v : Int := m * 2 ^ (e - q).toNat
  if neg then -v else v

/-- The exact sum: NaN of the first NaN operand, ∞ − ∞, and the sign of an exact zero (−0 under rdn). -/
def FVal.add (rdn : Bool) (a b : FVal) : FVal :=
  match a, b with
  | .nan n, _ => .nan n
  | _, .nan n => .nan n
  | .inf n, .inf n' => if n = n' then .inf n else .nan false
  | .inf n, _ => .inf n
  | _, .inf n => .inf n
  | .fin n m e, .fin n' m' e' =>
    if m = 0 && m' = 0 then .fin (if n = n' then n else rdn) 0 0
    else
      let q := min e e'
      let v := scaledInt n m e q + scaledInt n' m' e' q
      if v = 0 then .fin rdn 0 0 else .fin (decide (v < 0)) v.natAbs q

def FVal.mul (a b : FVal) : FVal :=
  let s := a.neg != b.neg
  match a, b with
  | .nan n, _ => .nan n
  | _, .nan n => .nan n
  | .inf _, .inf _ => .inf s
  | .inf _, .fin _ m _ => if m = 0 then .nan false else .inf s
  | .fin _ m _, .inf _ => if m = 0 then .nan false else .inf s
  | .fin _ m e, .fin _ m' e' => .fin s (m * m') (e + e')

/-- Order of two values that are no NaN: a < b as reals. -/
def FVal.lt (a b : FVal) : Bool :=
  match a, b with
  | .inf n, .inf n' => n && !n'
  | .inf n, _ => n
  | _, .inf n => !n
  | .fin n m e, .fin n' m' e' =>
    let q := min e e'
    decide (scaledInt n m e q < scaledInt n' m' e' q)
  | _, _ => false

def FVal.eqReal (a b : FVal) : Bool := !a.isNan && !b.isNan && !a.lt b && !b.lt a

/-- `fmin` and `fmax` (R313): −0 below +0, one NaN gives the other operand. -/
def FVal.pick (greater : Bool) (a b : FVal) : FVal :=
  if a.isNan then (if b.isNan then a else b)
  else if b.isNan then a
  else
    let below := a.lt b || (!b.lt a && a.neg && !b.neg)
    if below != greater then a else b

/-! ### Conversions -/

/-- The value of an integer. -/
def FVal.ofInt (x : Int) : FVal := .fin (decide (x < 0)) x.natAbs 0

/-- An e8m0 code (R151). -/
def e8m0Val (c : Nat) : FVal := if c = 0xFF then .nan false else .fin false 1 ((c : Int) - 127)

/-- The source value of a conversion (R320). -/
def srcVal (ty : Nat) (ftz : Bool) (table : List (BitVec 16)) (b : Nat) : FVal :=
  if ty = 0x0E then tyBf16.decode (table.getD (b % 16) 0).toNat
  else if ty = 0x0F then e8m0Val (b % 256)
  else match floatTy ty with
    | some t => t.input ftz (b % 2 ^ t.w)
    | none => match intTy ty with
      | some i => .ofInt (i.read (b % 2 ^ i.w))
      | none => .nan false

/-- A float source to an integer (R320): rounded to an adjacent integer, saturated whatever MODE.SAT holds. -/
def toInteger (t : IntTy) (c : RoundCtl) (x : FVal) : FOut :=
  match x with
  | .nan _ => ⟨0, false, true⟩
  | .inf neg => ⟨wrap t.w (if neg then t.lo else t.hi), false, true⟩
  | .fin neg m e =>
    let n := roundAt c.rnd c.st neg m e 0
    let v : Int := if neg then -(n : Int) else n
    ⟨wrap t.w (t.saturate v), false, t.outside v⟩

/-- A conversion to e8m0 (R322). -/
def toE8m0 (c : RoundCtl) (x : FVal) : FOut :=
  match x with
  | .nan _ => ⟨0xFF, true, false⟩
  | .inf neg => if neg then ⟨0xFF, true, true⟩ else ⟨0xFE, false, true⟩
  | .fin neg m e =>
    if neg || m = 0 then ⟨0xFF, true, true⟩
    else
      let p := e + topBit m
      let den := 2 ^ topBit m
      let rem := m - den
      if p < -127 then ⟨0, false, false⟩
      else
        let code := (p + 127).toNat
        let code := if roundsAway c.rnd c.st false code rem den then code + 1 else code
        if 0xFE < code then ⟨0xFE, false, true⟩ else ⟨code, false, false⟩

/-- |a − x| < |b − x| for finite values. -/
def nearer (x a b : FVal) : Bool :=
  match x, a, b with
  | .fin n m e, .fin n1 m1 e1, .fin n2 m2 e2 =>
    let q := min e (min e1 e2)
    let v := scaledInt n m e q
    decide ((scaledInt n1 m1 e1 q - v).natAbs < (scaledInt n2 m2 e2 q - v).natAbs)
  | .fin _ _ _, .fin _ _ _, .inf _ => true
  | _, _, _ => false

/-- The lowest-indexed of the entries that no other precedes in an order. -/
def bestEntry (better : FVal → FVal → Bool) : List (Nat × FVal) → Option (Nat × FVal)
  | [] => none
  | x :: r => match bestEntry better r with
    | none => some x
    | some y => if better y.2 x.2 then some y else some x

/-- A conversion to cb4 (R321). -/
def toCb4 (table : List (BitVec 16)) (x : FVal) : FOut :=
  let es := ((List.range 16).map fun i => (i, tyBf16.decode (table.getD i 0).toNat)).filter fun e => !e.2.isNan
  match bestEntry (fun a b => b.lt a) es, bestEntry (fun a b => a.lt b) es with
  | some hi, some lo =>
    let ix := fun (o : Option (Nat × FVal)) => (o.map (·.1)).getD 0
    match x with
    | .nan _ => ⟨0, true, false⟩
    | .inf neg =>
      match es.find? fun e => e.2 = .inf neg with
      | some e => ⟨e.1, false, false⟩
      | none => ⟨if neg then lo.1 else hi.1, false, true⟩
    | .fin _ _ _ =>
      if hi.2.lt x then ⟨hi.1, false, true⟩
      else if x.lt lo.2 then ⟨lo.1, false, true⟩
      else ⟨ix (bestEntry (nearer x) es), false, false⟩
  | _, _ => ⟨0, true, true⟩

/-- One step of the stochastic state (R318). -/
def stochNext (x : W32) : W32 :=
  let a := x ^^^ (x <<< 13)
  let b := a ^^^ (a >>> 17)
  b ^^^ (b <<< 5)

/-- The conversion of one element from type `src` to type `dst` (R320): result, and whether the stochastic state is
used. -/
def convert (src dst : Nat) (sat : Bool) (c : RoundCtl) (srcTable dstTable : List (BitVec 16)) (b : Nat) : FOut × Bool :=
  let x := srcVal src c.ftz srcTable b
  if dst = 0x0E then (toCb4 dstTable x, false)
  else if dst = 0x0F then (toE8m0 c x, true)
  else match floatTy dst with
    | some t => (t.round c x, true)
    | none => match intTy dst with
      | none => (⟨0, false, false⟩, false)
      | some t => match intTy src with
        | some f =>
          let v := f.read (b % 2 ^ f.w)
          (⟨wrap t.w (if sat then t.saturate v else v), false, t.outside v⟩, false)
        | none => (toInteger t c x, true)

end Sys2Proof.Machine
end

