-- ==== Sys2Proof/Machine/Sfu.lean ====
section
/-! DEFINITION. Special functions (R317): an enclosure of the exact value in fixed point, the f32 codes that the error
bound allows, and the free choice among them, one for each input. -/

namespace Sys2Proof.Machine

/-! ### Fixed point with `prec` fraction bits -/

def prec : Nat := 420

def fxOne : Nat := 2 ^ prec

/-- π and ln 2 cut off after `prec` fraction bits. -/
def fxPi : Nat := 0x3243f6a8885a308d313198a2e03707344a4093822299f31d0082efa98ec4e6c89452821e638d01377be5466cf34e90c6cc0ac29b7c
def fxLn2 : Nat := 0xb17217f7d1cf79abc9e3b39803f2f6af40f343267298b62d8a0d175b8baafa2be7b876206debac98559552fb4afa1b10ed2eae35c

def fxMul (a b : Int) : Int := a * b / 2 ^ prec

/-- A dyadic number in fixed point, cut off. -/
def fxOf (neg : Bool) (m : Nat) (e : Int) : Int :=
  let v : Nat := if -(prec : Int) ≤ e then m * 2 ^ (e + prec).toNat else m / 2 ^ (-(e + prec)).toNat
  if neg then -(v : Int) else v

/-- Sum of `term k` for k below n, where each term comes from the one before. -/
def fxSeries (next : Nat → Int → Int) : Nat → Nat → Int → Int
  | 0, _, _ => 0
  | n + 1, k, t => t + fxSeries next n (k + 1) (next k t)

/-- e^t by its series, for |t| up to 20. -/
def fxExp (t : Int) : Int := fxSeries (fun k x => fxMul x t / (k + 1 : Nat)) 200 0 fxOne

/-- sin and cos by their series, for |t| up to 4. -/
def fxSin (t : Int) : Int := fxSeries (fun k x => -(fxMul (fxMul x t) t / ((2 * k + 2) * (2 * k + 3) : Nat))) 80 0 t
def fxCos (t : Int) : Int := fxSeries (fun k x => -(fxMul (fxMul x t) t / ((2 * k + 1) * (2 * k + 2) : Nat))) 80 0 fxOne

/-- log₂ of a value in [1, 2), bit by bit: `n` bits, each weighing half of the one before. -/
def fxLog2 : Nat → Int → Int → Int
  | 0, _, _ => 0
  | n + 1, x, bit =>
    let y := fxMul x x
    if 2 * (fxOne : Int) ≤ y then bit + fxLog2 n (y / 2) (bit / 2) else fxLog2 n y (bit / 2)

/-- ⌊√a⌋, bit by bit from 2^n. -/
def isqrt (a : Nat) : Nat → Nat → Nat
  | 0, r => if (r + 1) * (r + 1) ≤ a then r + 1 else r
  | n + 1, r => let r' := r + 2 ^ (n + 1); isqrt a n (if r' * r' ≤ a then r' else r)

/-- ⌊√a⌋. -/
def natSqrt (a : Nat) : Nat := isqrt a (a.log2 / 2 + 1) 0

/-! ### The choice among f32 codes -/

/-- Codes in the order of their values: −0 just below +0. -/
def ordOf (b : Nat) : Int := if bitOf b 31 then -(b % 2 ^ 31 : Nat) - 1 else (b : Int)
def ofOrd (o : Int) : Nat := if o < 0 then 2 ^ 31 + (-o - 1).toNat else o.toNat

/-- A fixed-point bound rounded into f32 by a mode. -/
def f32At (rnd : Nat) (v : Int) : Nat :=
  (tyF32.roundFin ⟨rnd, 0, 1, false⟩ (decide (v < 0)) v.natAbs (-(prec : Int))).bits

/-- One of the f32 codes from `lo` to `hi`, by a choice number. -/
def chooseIn (lo hi : Int) (k : Nat) : Nat :=
  let a := ordOf (f32At Rnd.rup lo)
  let b := ordOf (f32At Rnd.rdn hi)
  if b < a then f32At Rnd.rne lo else ofOrd (a + (k % ((b - a).toNat + 1) : Nat))

/-- One unit in the last place of a fixed-point value at f32's spacing, subnormal below 2⁻¹²⁶. -/
def fxUlp (v : Int) : Nat :=
  let top : Int := (v.natAbs.log2 : Int) - prec
  2 ^ ((max (top - 23) (-149)) + prec).toNat

/-- A result within `n` ulp of a value whose cut-off error is below `err`. -/
def withinUlp (v : Int) (n err k : Nat) : Nat :=
  let d : Int := n * fxUlp v + err
  chooseIn (v - d) (v + d) k

/-! ### The functions -/

/-- Result of a special function: its code, and V. -/
structure SfuOut where
  bits : Nat
  v : Bool
deriving DecidableEq, Repr

def f32Nan : Nat := 0x7FC00000
def f32Inf (neg : Bool) : Nat := if neg then 0xFF800000 else 0x7F800000
def f32Zero (neg : Bool) : Nat := if neg then 0x80000000 else 0

/-- A negative result of a positive enclosure. -/
def signed (neg : Bool) (b : Nat) : Nat := if neg then b + 2 ^ 31 else b

/-- An infinity among the chosen codes is an overflow. -/
def sfuOut (b : Nat) : SfuOut := ⟨b, b % 2 ^ 31 = 0x7F800000⟩

/-- Codes of 1/|x| with |x| = m · 2^e: the quotient to `prec` places beyond its leading bit. -/
def sfuRcp (neg : Bool) (m : Nat) (e : Int) (k : Nat) : SfuOut :=
  let v : Nat := 2 ^ ((prec : Int) - e).toNat / m
  sfuOut (signed neg (withinUlp v 1 (if v * m = 2 ^ ((prec : Int) - e).toNat then 0 else 1) k))

def sfuRsq (m : Nat) (e : Int) (k : Nat) : SfuOut :=
  let v : Nat := natSqrt (2 ^ (2 * (prec : Int) - e).toNat / m)
  sfuOut (withinUlp v 2 (if v * v * m = 2 ^ (2 * (prec : Int) - e).toNat then 0 else 2) k)

/-- √(m · 2^e) correctly rounded: the root to 64 places, and a sticky bit. -/
def sfuSqrt (rnd : Nat) (m : Nat) (e : Int) : SfuOut :=
  let a := if e % 2 = 0 then m else 2 * m
  let h := (if e % 2 = 0 then e else e - 1) / 2
  let big := a * 2 ^ 128
  let r := natSqrt big
  let o := tyF32.roundFin ⟨rnd, 0, 1, false⟩ false (2 * r + if r * r = big then 0 else 1) (h - 65)
  ⟨o.bits, false⟩

def sfuExp2 (neg : Bool) (m : Nat) (e : Int) (k : Nat) : SfuOut :=
  let x := fxOf neg m e
  let i := x / 2 ^ prec
  let f := x - i * 2 ^ prec
  if m = 0 then ⟨0x3F800000, false⟩
  else if 128 ≤ i then ⟨f32Inf false, true⟩
  else if i < -150 then ⟨0, false⟩
  else
    let p := fxExp (fxMul f fxLn2)
    let v := if 0 ≤ i then p * 2 ^ i.toNat else p / 2 ^ (-i).toNat
    if 0 ≤ e || m * 2 ^ (e + 149).toNat % 2 ^ 149 = 0 then
      if i = -150 then sfuOut (chooseIn 0 (v + 2 ^ (prec - 149)) k)
      else ⟨f32At Rnd.rne (if 0 ≤ i then fxOne * 2 ^ i.toNat else fxOne / 2 ^ (-i).toNat), false⟩
    else if -126 ≤ i then
      let b := withinUlp v 2 (2 ^ 200) k
      sfuOut b
    else
      let d : Int := 2 ^ (prec - 149)
      sfuOut (chooseIn (max 0 (v - d)) (v + d) k)

def sfuLog2 (m : Nat) (e : Int) (k : Nat) : SfuOut :=
  let i := e + topBit m
  let r := (fxOne : Int) * m / 2 ^ topBit m
  let v := i * fxOne + fxLog2 150 r (2 ^ (prec - 1))
  if m = 2 ^ topBit m then ⟨f32At Rnd.rne (i * fxOne), false⟩
  else if i = -1 || i = 0 then
    let d : Int := 2 ^ (prec - 22) + 2 ^ (prec - 140)
    ⟨chooseIn (v - d) (v + d) k, false⟩
  else ⟨withinUlp v 2 (2 ^ (prec - 140)) k, false⟩

/-- sin or cos; beyond 1,024 some value in [−1, 1]. -/
def sfuTrig (cosine neg : Bool) (m : Nat) (e : Int) (k : Nat) : SfuOut :=
  let x := fxOf neg m e
  if (1024 * fxOne : Int) < x.natAbs then ⟨chooseIn (-(fxOne : Int)) fxOne k, false⟩
  else
    let t := x % (2 * fxPi)
    let t := if (fxPi : Int) < t then t - 2 * fxPi else t
    let v := if cosine then fxCos t else fxSin t
    let d : Int := 2 ^ (prec - 21) + 2 ^ (prec - 300)
    ⟨chooseIn (v - d) (v + d) k, false⟩

def sfuTanh (neg : Bool) (m : Nat) (e : Int) (k : Nat) : SfuOut :=
  let x := fxOf false m e
  if 19 * (fxOne : Int) ≤ 2 * x then ⟨signed neg 0x3F800000, false⟩
  else
    let p := fxExp (2 * x)
    let v := (p - fxOne) * fxOne / (p + fxOne)
    ⟨signed neg (withinUlp v 2 (2 ^ 20) k), false⟩

/-- The functions of major 0x1E by fn, at an input after its flush. -/
def sfu (fn rnd : Nat) (x : FVal) (k : Nat) : SfuOut :=
  match fn, x with
  | _, .nan _ => ⟨f32Nan, false⟩
  | 0, .inf n => ⟨f32Zero n, false⟩
  | 0, .fin n m e => if m = 0 then ⟨f32Inf n, false⟩ else sfuRcp n m e k
  | 1, .inf n => ⟨if n then f32Nan else 0, false⟩
  | 1, .fin n m e => if m = 0 then ⟨f32Inf n, false⟩ else if n then ⟨f32Nan, false⟩ else sfuRsq m e k
  | 2, .inf n => ⟨if n then f32Nan else f32Inf false, false⟩
  | 2, .fin n m e => if m = 0 then ⟨f32Zero n, false⟩ else if n then ⟨f32Nan, false⟩ else sfuSqrt rnd m e
  | 3, .inf n => ⟨if n then 0 else f32Inf false, false⟩
  | 3, .fin n m e => sfuExp2 n m e k
  | 4, .inf n => ⟨if n then f32Nan else f32Inf false, false⟩
  | 4, .fin n m e => if m = 0 then ⟨f32Inf true, false⟩ else if n then ⟨f32Nan, false⟩ else sfuLog2 m e k
  | 5, .inf _ => ⟨f32Nan, false⟩
  | 5, .fin n m e => if m = 0 then ⟨f32Zero n, false⟩ else sfuTrig false n m e k
  | 6, .inf _ => ⟨f32Nan, false⟩
  | 6, .fin n m e => if m = 0 then ⟨0x3F800000, false⟩ else sfuTrig true n m e k
  | _, .inf n => ⟨signed n 0x3F800000, false⟩
  | _, .fin n m e => if m = 0 then ⟨f32Zero n, false⟩ else sfuTanh n m e k

end Sys2Proof.Machine
end

