-- ==== Sys2Proof/Machine/Float.lean ====
section
/-! DEFINITION. Floating-point, special-function, conversion and packed instructions (R308 to R327). -/

namespace Sys2Proof.Machine

/-! ### f32 instructions (R313 to R316) -/

def State.ftz (s : State) : Bool := modeFtz s.mode
def State.rdn (s : State) : Bool := noRsr (modeRnd s.mode) = Rnd.rdn

/-- A f32 source operand, flushed. -/
def State.f32In (s : State) (b : Nat) : FVal := tyF32.input s.ftz b

/-- Codes of a single f32 result (R312). -/
def f32Codes (bits : Nat) (c v : Bool) : Codes := codesOf c (bits % 2 ^ 31 = 0) (bitOf bits 31) v

/-- Bits of the second operand of a f32 instruction: a lane, or the low 32 bits of a uniform register. -/
def State.f32Src (s : State) (b : Src) (l : Nat) : Nat := s.src false 1 b 32 l 0

/-- A f32 instruction: exact result of A, B and D, rounded once. -/
def State.f32Op (s : State) (f : FVal → FVal → FVal → FVal) (readsD : Bool) (d a : BitVec 7) (b : Src) : Res :=
  s.guardAll { vs := d.toNat :: a.toNat :: b.vregs false, us := b.uregs, cc := s.guardReads || s.ccw } (s.ty = 0x0A)
    (.ok (s.putLanes s.active false d s.ccw fun l =>
      let x := s.f32In (s.vread 0 a.toNat l).toNat
      let y := s.f32In (s.f32Src b l)
      let z := if readsD then s.f32In (s.vread 2 d.toNat l).toNat else .fin false 0 0
      let r := tyF32.round (s.ctl tyF32) (f x y z)
      (r.bits, f32Codes r.bits (x.isNan || y.isNan || z.isNan || r.nan) r.ovf)).advance)

/-- A f32 instruction that copies or classifies bits and writes no codes (R316). -/
def State.f32Bits (s : State) (f : Nat → Nat → Nat) (d a : BitVec 7) (b : Option (BitVec 7)) : Res :=
  s.guardAll { vs := d.toNat :: a.toNat :: (b.map (·.toNat)).toList, cc := s.guardReads } (s.ty = 0x0A)
    (.ok (s.putLanes s.active false d false fun l =>
      (f (s.vread 0 a.toNat l).toNat (match b with
        | some b => (s.vread 1 b.toNat l).toNat
        | none => 0), 0)).advance)

/-- Codes of `fcmp` (R315). -/
def fcmpCodes (x y : FVal) : Codes :=
  if x.isNan || y.isNan then codesOf true false false true
  else if x.lt y then codesOf false false true false
  else if y.lt x then codesOf true false false false
  else codesOf true true false false

/-- `fcmp` (R315). -/
def State.f32Cmp (s : State) (a b : BitVec 7) : Res :=
  s.guardAll { vs := [a.toNat, b.toNat], cc := true } (s.ty = 0x0A)
    (.ok (s.putCodes s.active fun l =>
      fcmpCodes (s.f32In (s.vread 0 a.toNat l).toNat) (s.f32In (s.vread 1 b.toNat l).toNat)).advance)

/-- The class word (R316). -/
def classWord (b : Nat) : Nat :=
  let neg := bitOf b 31
  match tyF32.decode b with
  | .nan _ => 2 ^ 8
  | .inf _ => if neg then 1 else 2 ^ 7
  | .fin _ m _ =>
    if m = 0 then (if neg then 2 ^ 3 else 2 ^ 4)
    else if tyF32.subnormal b then (if neg then 2 ^ 2 else 2 ^ 5)
    else (if neg then 2 else 2 ^ 6)

/-- `frnd`: an integral value (R316). -/
def integral (rnd : Nat) : FVal → FVal
  | .nan n => .nan n
  | .inf n => .inf n
  | .fin n m e => .fin n (roundAt rnd 0 n m e 0) 0

/-! ### Special functions (R317) -/

/-- The results wait to be written, codes with them (R250). -/
def State.sfuOp (s : State) (fn : Nat) (d a : BitVec 7) : Res :=
  s.guardAll { vs := [d.toNat, a.toNat], cc := s.guardReads || s.ccw } (s.ty = 0x0A)
    (.ok (s.defer ((lanesOf s.active).flatMap fun l =>
      let raw := (s.vread 0 a.toNat l).toNat
      let x := s.f32In raw
      let r := sfu fn (noRsr (modeRnd s.mode)) x (Config.sfuChoice fn raw)
      let bits := if s.ftz && tyF32.subnormal r.bits then r.bits / 2 ^ 31 * 2 ^ 31 else r.bits
      let nan := (tyF32.decode bits).isNan
      .vec d.toNat l (BitVec.ofNat 32 bits) ::
        (if s.ccw then [.codes l (f32Codes bits (x.isNan || nan) r.v)] else []))).advance)

/-! ### Packed instructions (R323 to R325) -/

/-- Narrow results put together from position 0, with the codes of R312 over a lane of `lw` bits. -/
def packOut (t : FloatTy) (lw : Nat) (srcNan : Bool) (rs : List FOut) : Nat × Codes :=
  let v := (rs.zipIdx).foldl (fun v r => v + r.1.bits * 2 ^ (t.w * r.2)) 0
  (v, codesOf (srcNan || rs.any (·.nan)) (rs.all fun r => r.bits % 2 ^ (t.w - 1) = 0) (bitOf v (lw - 1)) (rs.any (·.ovf)))

/-- Sub-elements of a lane. -/
def subs (t : FloatTy) (n v : Nat) : List Nat := (List.range n).map fun j => v / 2 ^ (t.w * j) % 2 ^ t.w

/-- `faddp` and its like. -/
def State.packOp (s : State) (f : FVal → FVal → FVal) (d a b : BitVec 7) : Res :=
  let t := (floatTy s.ty).getD tyF16
  s.guardAll { vs := [d.toNat, a.toNat, b.toNat], cc := s.guardReads || s.ccw } (0x08 ≤ s.ty && s.ty ≤ 0x0C && s.ty ≠ 0x0A)
    (.ok (s.putLanes s.active false d s.ccw fun l =>
      let n := 32 / t.w
      let xs := (subs t n (s.vread 0 a.toNat l).toNat).map (t.input s.ftz)
      let ys := (subs t n (s.vread 1 b.toNat l).toNat).map (t.input s.ftz)
      packOut t 32 (xs.any (·.isNan) || ys.any (·.isNan))
        ((xs.zip ys).map fun p => t.round (s.ctl t) (f p.1 p.2))).advance)

/-- `fdotp` (R324). -/
def State.dotOp (s : State) (d a b : BitVec 7) : Res :=
  let t := (floatTy s.ty).getD tyF16
  s.guardAll { vs := [d.toNat, a.toNat, b.toNat], cc := s.guardReads || s.ccw } (0x08 ≤ s.ty && s.ty ≤ 0x0C && s.ty ≠ 0x0A)
    (.ok (s.putLanes s.active false d s.ccw fun l =>
      let n := 32 / t.w
      let xs := (subs t n (s.vread 0 a.toNat l).toNat).map (t.input s.ftz)
      let ys := (subs t n (s.vread 1 b.toNat l).toNat).map (t.input s.ftz)
      let z := s.f32In (s.vread 2 d.toNat l).toNat
      let x := (xs.zip ys).foldl (fun x p => FVal.add s.rdn x (FVal.mul p.1 p.2)) z
      let r := tyF32.round (s.ctl tyF32) x
      (r.bits, f32Codes r.bits (z.isNan || xs.any (·.isNan) || ys.any (·.isNan) || r.nan) r.ovf)).advance)

/-- The wide type of a narrow one (R325). -/
def wideOf (t : FloatTy) : FloatTy :=
  if t = tyE2m1 then tyE4m3 else if t = tyE4m3 || t = tyE5m2 then tyF16 else tyF32

/-- Stochastic state of a lane. -/
def Group.stochAt (g : Group) (l : Nat) : W32 := mget 0 g.stoch l

/-- Values rounded one after another, the state advancing after each under rsr (R318). -/
def roundSeq (t : FloatTy) (c : RoundCtl) : W32 → List FVal → List FOut × W32
  | st, [] => ([], st)
  | st, x :: r =>
    let o := t.round { c with st := st.toNat } x
    let rest := roundSeq t c (if c.rnd = Rnd.rsr then stochNext st else st) r
    (o :: rest.1, rest.2)

/-- Stochastic states of a mask's lanes take new values. -/
def State.putStoch (s : State) (m : Mask) (f : Nat → W32) : State :=
  s.onCur fun g => forLanes m (fun l g => { g with stoch := mset 0 g.stoch l (f l) }) g

/-- `fpack` (R325). -/
def State.fpackOp (s : State) (d a b : BitVec 7) : Res :=
  let t := (floatTy s.ty).getD tyF16
  let w := wideOf t
  let c : RoundCtl := { s.ctl t with rnd := modeRnd s.mode }
  let run := fun l =>
    let n := 32 / w.w
    let xs := (subs w n (s.vread 0 a.toNat l).toNat ++ subs w n (s.vread 1 b.toNat l).toNat).map (w.input s.ftz)
    (xs.any (·.isNan), roundSeq t c (s.cur.stochAt l) xs)
  s.guardAll { vs := [d.toNat, a.toNat, b.toNat], cc := s.guardReads || s.ccw } (0x08 ≤ s.ty && s.ty ≤ 0x0D && s.ty ≠ 0x0A)
    (.ok ((s.putLanes s.active false d s.ccw fun l => packOut t 32 (run l).1 (run l).2.1).putStoch s.active
      fun l => (run l).2.2).advance)

/-- An exact widening, a NaN with its sign. -/
def widen (t w : FloatTy) (b : Nat) : FOut :=
  match t.decode b with
  | .nan neg => ⟨w.canonNan neg, true, false⟩
  | x => w.round ⟨0, 0, 1, false⟩ x

/-- `funpack` (R325). -/
def State.funpackOp (s : State) (d a : BitVec 7) : Res :=
  let t := (floatTy s.ty).getD tyF16
  let w := wideOf t
  s.guardAll { vs := [d.toNat, d.toNat + 1, a.toNat], evens := [d.toNat], cc := s.guardReads || s.ccw }
    (0x08 ≤ s.ty && s.ty ≤ 0x0D && s.ty ≠ 0x0A)
    (.ok (s.putLanes s.active true d s.ccw fun l =>
      packOut w 64 false ((subs t (32 / t.w) (s.vread 0 a.toNat l).toNat).map (widen t w))).advance)

/-! ### Conversions (R319 to R322) -/

/-- Instructions of the core that issued before the one of the fragment in focus and are not complete. -/
def State.earlier (s : State) : List Instr :=
  s.allGroups.flatMap fun g =>
    if g.coreKey ≠ s.coreKey then []
    else [false, true].filterMap fun b =>
      if g.info.key = s.cur.info.key && b = s.issue.slot then none
      else (g.frag b).cap.bind fun c => if s.frag.cap.all (c.cycle < ·.cycle) then some c.word.instr else none

/-- A `tblld` of the slot issued earlier and has not written it (R375). -/
def State.tabling (s : State) (n : Nat) : Bool := s.earlier.any fun i => match i with
  | .tblld c _ => c.toNat = n
  | _ => false

/-- A wait for the mill, a macro, a tile or a slot. -/
def State.matWait (s : State) : Res := .ok (s.holdAt .mill .waitMem 0 0)

/-- A table slot as a reader captured it at its issue (R374, R375): VALID and of the issuing context. -/
def State.tableSlot (s : State) (n : Nat) : Option (List (BitVec 16)) :=
  match oget (match s.frag.cap with
    | none => (s.core s.coreKey).tslots
    | some c => c.tables) n with
  | some t => if t.ctx = s.cur.info.ctx && t.part = s.pid then some t.entries else none
  | none => none

/-- `cvt` and `cvtsr` (R319, R320). -/
def State.cvtOp (s : State) (rnd : Nat) (d a : BitVec 7) (imm : BitVec 7) : Res :=
  let src := fld imm 4 0
  let slot := fld imm 6 5
  let dst := s.ty
  let sw := typeBits src = 64
  let dw := typeBits dst = 64
  let usesTable := src = 0x0E || dst = 0x0E
  let typeOk := !(src = 0x0E && dst = 0x0E) && (slot = 0 || usesTable)
  let evens := (if dw then [d.toNat] else []) ++ (if sw then [a.toNat] else [])
  let c : RoundCtl := { rnd := rnd, st := 0, ovt := ovtEntry s.operands.ovt ((floatTy dst).getD tyF32), ftz := s.ftz }
  s.guardAll { vs := regs dw d ++ regs sw a, evens := evens, cc := s.guardReads || s.ccw } typeOk
    (if usesTable && s.tabling slot then s.matWait
     else match if usesTable then s.tableSlot slot else some [] with
     | none => .flt s { cause := Cause.illegalOperand }
     | some table =>
       let lane := fun l =>
         let b := s.vreg sw 0 a l
         let r := convert src dst s.sat { c with st := (s.cur.stochAt l).toNat } table table b
         (r, (srcVal src s.ftz table b).isNan)
       let isFloat := (floatTy dst).isSome
       let out := fun l =>
         let r := lane l
         let w := typeBits dst
         let zero := if isFloat then r.1.1.bits % 2 ^ (w - 1) = 0 else if dst = 0x0F then false
           else if dst = 0x0E then (table.getD r.1.1.bits 0).toNat % 2 ^ 15 = 0 else r.1.1.bits = 0
         (r.1.1.bits, codesOf (r.2 || r.1.1.nan) zero (bitOf r.1.1.bits (if dw then 63 else 31)) r.1.1.ovf)
       .ok ((s.putLanes s.active dw d s.ccw out).putStoch s.active fun l =>
         if rnd = Rnd.rsr && (lane l).1.2 then stochNext (s.cur.stochAt l) else s.cur.stochAt l).advance)

/-- `cvtsr.seed` (R319). -/
def State.seedOp (s : State) (a : BitVec 7) : Res :=
  s.guardAll { vs := [a.toNat], cc := s.guardReads } true
    (.ok (s.putStoch s.active fun l => let v := s.vread 0 a.toNat l; if v = 0 then 1 else v).advance)

/-! ### Meanings -/

/-- R313. -/
def execFaddU (d a : BitVec 7) (b : BitVec 6) (s : State) : Out := (s.f32Op (fun x y _ => x.add s.rdn y) false d a (.u b)).out

/-- R313. -/
def execFmulU (d a : BitVec 7) (b : BitVec 6) (s : State) : Out := (s.f32Op (fun x y _ => x.mul y) false d a (.u b)).out

/-- R313, R314. -/
def execFmacU (d a : BitVec 7) (b : BitVec 6) (s : State) : Out := (s.f32Op (fun x y z => (x.mul y).add s.rdn z) true d a (.u b)).out

/-- R313. -/
def execFadd (d a b : BitVec 7) (s : State) : Out := (s.f32Op (fun x y _ => x.add s.rdn y) false d a (.v b)).out

/-- R313. -/
def execFsub (d a b : BitVec 7) (s : State) : Out := (s.f32Op (fun x y _ => x.add s.rdn y.flip) false d a (.v b)).out

/-- R313. -/
def execFmul (d a b : BitVec 7) (s : State) : Out := (s.f32Op (fun x y _ => x.mul y) false d a (.v b)).out

/-- R314. -/
def execFmac (d a b : BitVec 7) (s : State) : Out := (s.f32Op (fun x y z => (x.mul y).add s.rdn z) true d a (.v b)).out

/-- R314. -/
def execFmsc (d a b : BitVec 7) (s : State) : Out := (s.f32Op (fun x y z => (x.mul y).add s.rdn z.flip) true d a (.v b)).out

/-- R313. -/
def execFmin (d a b : BitVec 7) (s : State) : Out := (s.f32Op (fun x y _ => x.pick false y) false d a (.v b)).out

/-- R313. -/
def execFmax (d a b : BitVec 7) (s : State) : Out := (s.f32Op (fun x y _ => x.pick true y) false d a (.v b)).out

/-- R315. -/
def execFcmp (a b : BitVec 7) (s : State) : Out := (s.f32Cmp a b).out

/-- R316. -/
def execFabs (d a : BitVec 7) (s : State) : Out := (s.f32Bits (fun x _ => x % 2 ^ 31) d a none).out

/-- R316. -/
def execFneg (d a : BitVec 7) (s : State) : Out := (s.f32Bits (fun x _ => (x + 2 ^ 31) % 2 ^ 32) d a none).out

/-- R316. -/
def execFclass (d a : BitVec 7) (s : State) : Out := (s.f32Bits (fun x _ => classWord x) d a none).out

/-- R316. -/
def execFrnd (d a : BitVec 7) (s : State) : Out := (s.f32Op (fun x _ _ => integral (noRsr (modeRnd s.mode)) x) false d a (.i 0)).out

/-- R316. -/
def execFcopysign (d a b : BitVec 7) (s : State) : Out := (s.f32Bits (fun x y => x % 2 ^ 31 + y / 2 ^ 31 * 2 ^ 31) d a (some b)).out

/-- R323. -/
def execFaddp (d a b : BitVec 7) (s : State) : Out := (s.packOp (fun x y => x.add s.rdn y) d a b).out

/-- R323. -/
def execFsubp (d a b : BitVec 7) (s : State) : Out := (s.packOp (fun x y => x.add s.rdn y.flip) d a b).out

/-- R323. -/
def execFmulp (d a b : BitVec 7) (s : State) : Out := (s.packOp FVal.mul d a b).out

/-- R323. -/
def execFmaxp (d a b : BitVec 7) (s : State) : Out := (s.packOp (FVal.pick true) d a b).out

/-- R323. -/
def execFminp (d a b : BitVec 7) (s : State) : Out := (s.packOp (FVal.pick false) d a b).out

/-- R324. -/
def execFdotp (d a b : BitVec 7) (s : State) : Out := (s.dotOp d a b).out

/-- R325. -/
def execFpack (d a b : BitVec 7) (s : State) : Out := (s.fpackOp d a b).out

/-- R325. -/
def execFunpack (d a : BitVec 7) (s : State) : Out := (s.funpackOp d a).out

/-- R317. -/
def execFrcp (d a : BitVec 7) (s : State) : Out := (s.sfuOp 0 d a).out

/-- R317. -/
def execFrsq (d a : BitVec 7) (s : State) : Out := (s.sfuOp 1 d a).out

/-- R317. -/
def execFsqrt (d a : BitVec 7) (s : State) : Out := (s.sfuOp 2 d a).out

/-- R317. -/
def execFexp2 (d a : BitVec 7) (s : State) : Out := (s.sfuOp 3 d a).out

/-- R317. -/
def execFlog2 (d a : BitVec 7) (s : State) : Out := (s.sfuOp 4 d a).out

/-- R317. -/
def execFsin (d a : BitVec 7) (s : State) : Out := (s.sfuOp 5 d a).out

/-- R317. -/
def execFcos (d a : BitVec 7) (s : State) : Out := (s.sfuOp 6 d a).out

/-- R317. -/
def execFtanh (d a : BitVec 7) (s : State) : Out := (s.sfuOp 7 d a).out

/-- R319 to R322. -/
def execCvt (d a : BitVec 7) (i : BitVec 7) (s : State) : Out := (s.cvtOp (modeRnd s.mode) d a i).out

/-- R319 to R322. -/
def execCvtsr (d a : BitVec 7) (i : BitVec 7) (s : State) : Out := (s.cvtOp Rnd.rsr d a i).out

/-- R319. -/
def execCvtsrSeed (a : BitVec 7) (s : State) : Out := (s.seedOp a).out

end Sys2Proof.Machine
end

