-- ==== Sys2Proof/Machine/Store.lean ====
section
/-! DEFINITION. The core store: local addresses (R76 to R80), tags and held accesses (R82 to R84), stash lines (R85 to
R88), lent lines (R91), and the forwarding of stores into publisher regions (R97 to R99). -/

namespace Sys2Proof.Machine

/-! ### Local addresses -/

/-- What a local address names. -/
inductive LTarget where
  | win (blk : BlockKey) (off : Nat)
  | reg (grp n lane byte : Nat)
deriving DecidableEq, Repr

/-- The block of rank `m` in the gang of a group (R204). -/
def GroupInfo.member (i : GroupInfo) (m : Nat) : BlockKey := { i.key.blk with blk := i.gang * i.gangSize + m }

/-- The map entry that covers a window offset (R85). A harvest block's whole window is backed at HBACK (R91). -/
def Block.entryAt (b : Block) (off : Nat) : Option StashEntry :=
  if b.harv then some ⟨0, b.hback, b.localKib * 1024, true⟩
  else (b.smap.find? fun e => e.2.lbase ≤ off && off < e.2.lbase + e.2.len).map (·.2)

def State.mappedAt (s : State) (k : BlockKey) (off : Nat) : Bool :=
  match s.block? k with
  | some b => (b.entryAt off).isSome
  | none => false

/-- The checks of R78 in order. `special` names the instructions of order 4 that the register form refuses. -/
def State.localAddr (s : State) (a : W32) (size : Nat) (tagged special : Bool) : Except (BitVec 8) LTarget :=
  let i := s.cur.info
  let gang := a.getLsbD 30
  let member := fld a 29 28
  let off := fld a 19 0
  if !a.getLsbD 31 then
    let blk := if gang then i.member member else i.key.blk
    if fld a 27 20 ≠ 0 || (!gang && member ≠ 0) then .error Cause.registerWindow
    else if (gang && i.gangSize ≤ member) || i.localKib * 1024 < off + size then .error Cause.registerWindow
    else if off % size ≠ 0 then .error Cause.misaligned
    else if (tagged || blk ≠ i.key.blk) && s.mappedAt blk off then .error Cause.illegalOperand
    else .ok (.win blk off)
  else
    let grp := fld a 17 14
    let n := fld a 13 7
    if fld a 30 18 ≠ 0 then .error Cause.registerWindow
    else if i.harv || i.groups ≤ grp || i.nregs ≤ n then .error Cause.registerWindow
    else if 4 < size || tagged || special then .error Cause.illegalOperand
    else if a.toNat % size ≠ 0 then .error Cause.misaligned
    else .ok (.reg grp n (fld a 6 2) (fld a 1 0))

/-! ### Window bytes -/

def Block.readWin (b : Block) (off n : Nat) : List Byte := (span off n).map (mget 0 b.win)

def putWin (m : NatMap Byte) (off : Nat) : List Byte → NatMap Byte
  | [] => m
  | x :: r => putWin (mset 0 m off x) (off + 1) r

/-- Words that bytes `off` to `off + n - 1` fall in. -/
def wordsOf (off n : Nat) : List Nat := span (off / 4) ((off + n - 1) / 4 + 1 - off / 4)

/-- Words a store writes whole. -/
def wholeWords (off n : Nat) : List Nat := (wordsOf off n).filter fun w => off ≤ 4 * w && 4 * w + 4 ≤ off + n

def Block.poisonedAt (b : Block) (off n : Nat) : Bool := (wordsOf off n).any (mget false b.winPoison)

/-- The byte mask of `n` bytes of a line. -/
def byteMask (off n : Nat) : BitVec 64 := BitVec.ofNat 64 ((2 ^ n - 1) * 2 ^ (off % 64))

/-- Bytes written: the dirty mask of a stash line takes them, a word written whole loses its poison. -/
def Block.writeWin (b : Block) (off : Nat) (bs : List Byte) (writer : Nat) : Block :=
  { b with
    win := putWin b.win off bs
    winPoison := (wholeWords off bs.length).foldl (fun m w => mset false m w false) b.winPoison
    stash := match oget b.stash (off / 64) with
      | some l => oset b.stash (off / 64) { l with dirty := l.dirty ||| byteMask off bs.length, writer := writer }
      | none => b.stash }

/-! ### Subscriptions: sending -/

/-- An outbound entry forwards stores of these bytes (R95, R97). -/
def SubEntry.covers (e : SubEntry) (off : Nat) : Bool :=
  (e.st = .active || e.st = .switching || e.st = .memory) && e.poff ≤ off && off < e.poff + e.len

/-- The entry writes what it has sent to the subscriber's image (R105), also while a resume waits for that (R107). -/
def SubEntry.toImage (e : SubEntry) : Bool := e.st = .memory || (e.st = .switching && !e.marked)

/-- The inbound entry at the other end. -/
def State.inboundOf (s : State) (e : SubEntry) : Option SubEntry := (s.block? e.peer).bind fun b => oget b.inb e.peerHandle

/-- The pending list of the subscriber's image is full (R105). -/
def State.listFull (s : State) (e : SubEntry) : Bool := (s.inboundOf e).any fun i => 8 ≤ i.pending.length

/-- Batches sent and not applied of an outbound entry. -/
def State.inFlight (s : State) (e : SubEntry) : Nat :=
  if e.toImage then e.recv.length
  else match s.inboundOf e with
    | some i => i.recv.length
    | none => 0

/-- Words of a line that hold bytes of a mask. -/
def maskWords (m : BitVec 64) : List Nat := (List.range 16).filter fun i => fld m (4 * i + 3) (4 * i) ≠ 0

/-- A store of the bytes of a mask into a line adds to the open batch: same line, and in handoff mode no word twice (R98). -/
def SubEntry.joins (e : SubEntry) (line : Nat) (mask : BitVec 64) : Bool :=
  match e.opened with
  | none => false
  | some b => b.off = e.soff + (line - e.poff) &&
    (e.overwrite || (maskWords mask).all fun w => fld b.mask (4 * w + 3) (4 * w) = 0)

/-- A store of the bytes of a mask into a line would close a fifth batch of some entry (R99). -/
def State.lineFull (s : State) (pub : Block) (line : Nat) (mask : BitVec 64) : Bool :=
  pub.outb.any fun h => h.2.covers line && h.2.opened.isSome && !h.2.joins line mask &&
    4 ≤ s.inFlight h.2 + h.2.unsent.length

def State.batchFull (s : State) (pub : Block) (off n : Nat) : Bool := s.lineFull pub (off / 64 * 64) (byteMask off n)

/-- Closed batches are sent in closing order while fewer than 4 are unapplied (R99); with a full pending list they wait (R105). -/
def State.sendOut (s : State) (pub : BlockKey) (h : Nat) : State :=
  forN 8 (fun _ s =>
    match s.block? pub with
    | none => s
    | some b =>
      match oget b.outb h with
      | none => s
      | some e =>
        match e.unsent with
        | [] => s
        | x :: r =>
          if e.st = .switching || e.st = .orphaned || !b.resident || 4 ≤ s.inFlight e || (e.st = .memory && s.listFull e) then s
          else if e.st = .memory then s.setBlock { b with outb := oset b.outb h { e with unsent := r, recv := e.recv ++ [x] } }
          else
            let s := s.setBlock { b with outb := oset b.outb h { e with unsent := r } }
            s.onBlock e.peer fun q =>
              match oget q.inb e.peerHandle with
              | some i => { q with inb := oset q.inb e.peerHandle { i with recv := i.recv ++ [x] } }
              | none => q) s

/-- The open batch of an entry closes (R98). -/
def State.closeBatch (s : State) (pub : BlockKey) (h : Nat) : State :=
  let s := s.onBlock pub fun b =>
    match oget b.outb h with
    | some e => match e.opened with
      | some x => { b with outb := oset b.outb h { e with opened := none, unsent := e.unsent ++ [x], closed := e.closed + 1 } }
      | none => b
    | none => b
  s.sendOut pub h

/-- Every open batch of a block closes. -/
def State.closeAll (s : State) (pub : BlockKey) : State :=
  match s.block? pub with
  | some b => b.outb.foldl (fun s e => s.closeBatch pub e.1) s
  | none => s

/-- The bytes of a mask, as they stand in their line after one store, are forwarded to every entry that covers them (R97,
R98). -/
def State.forwardLine (s : State) (pub : BlockKey) (line : Nat) (mask : BitVec 64) : State :=
  match s.block? pub with
  | none => s
  | some b => b.outb.foldl (fun s he =>
      if he.2.covers line then
        let s := if he.2.opened.isSome && !he.2.joins line mask then s.closeBatch pub he.1 else s
        s.onBlock pub fun b =>
          match oget b.outb he.1 with
          | none => b
          | some e =>
            let o := e.opened.getD ⟨e.soff + (line - e.poff), 0, []⟩
            let o := { o with
              mask := o.mask ||| mask
              data := (List.range 64).foldl (fun m j =>
                if mask.getLsbD j then mset 0 m j (mget 0 b.win (line + j)) else m) o.data }
            { b with outb := oset b.outb he.1 { e with opened := some o } }
      else s) s

def State.forward (s : State) (pub : BlockKey) (off n : Nat) : State := s.forwardLine pub (off / 64 * 64) (byteMask off n)

/-! ### Tags and held accesses (R82 to R84) -/

def Block.full (b : Block) (w : Nat) : Bool := mget false b.tags w

def Block.setTag (b : Block) (w : Nat) (t : Bool) : Block := { b with tags := mset false b.tags w t }

/-- A held access of this slot remains at some word. -/
def State.stillHeld (s : State) (k : GroupKey) (slot : Bool) : Bool :=
  s.blocks.any fun b => b.waitQ.any fun w => match w.who with
    | .lane g sl _ _ => g = k && sl = slot
    | .sub _ => false

/-- A lane has been served: its done bit, its result if it has one, and READY when it was the last. -/
def State.serveLane (s : State) (k : GroupKey) (slot : Bool) (lane : Nat) (w : Option ResWrite) : State :=
  let s := s.onGroup k fun g =>
    let f := g.frag slot
    let g := g.setFrag slot { f with done := f.done ||| (1#32 <<< lane) }
    match w with
    | some x => { g with pend := g.pend ++ [⟨f.mask, [x], f.checkedFor, false, f.pc⟩] }
    | none => g
  if s.stillHeld k slot then s
  else s.onGroup k fun g => g.onFrag slot fun f =>
    { f with st := if f.st = .waitTag then .ready else f.st, hold := if f.st = .waitTag then .none else f.hold }

def Block.word (b : Block) (w : Nat) : W32 := valOfBytes 32 (b.readWin (4 * w) 4)

/-- One word of a batch written to the window in its masked bytes, its tag set (R100). -/
def Block.applyWord (b : Block) (x : Batch) (w : Nat) : Block :=
  let b := (span 0 4).foldl (fun b i =>
    let j := (4 * w + i) % 64
    if x.mask.getLsbD j then { b with win := mset 0 b.win (4 * w + i) (mget 0 x.data j) } else b) b
  { b.setTag w true with winPoison := if fld x.mask (4 * w % 64 + 3) (4 * w % 64) = 15 then mset false b.winPoison w false else b.winPoison }

/-- Words of a batch that its mask covers, ascending: window word numbers. -/
def Batch.words (x : Batch) : List Nat :=
  ((List.range 16).filter fun i => fld x.mask (4 * i + 3) (4 * i) ≠ 0).map (x.off / 4 + ·)

/-- One held access is served if the tag lets it (R84). -/
def State.serveOne (s : State) (blk : BlockKey) (e : TagWait) : State :=
  match s.block? blk with
  | none => s
  | some b =>
    let w := e.off / 4
    let s' := s.setBlock { b with waitQ := b.waitQ.erase e }
    match e.who with
    | .sub h =>
      if b.full w then s
      else match oget b.inb h with
        | none => s'
        | some i => match i.recv with
          | [] => s'
          | x :: _ =>
            let b := { b with waitQ := b.waitQ.erase e }.applyWord x w
            s'.setBlock { b with inb := oset b.inb h { i with held := false, wordsDone := i.wordsDone + 1 } }
    | .lane k slot lane reg =>
      match e.op with
      | .ldf => if b.full w then s'.serveLane k slot lane (some (.vec reg lane (b.word w))) else s
      | .take =>
        if b.full w then
          (s'.onBlock blk (·.setTag w false)).serveLane k slot lane (some (.vec reg lane (b.word w)))
        else s
      | .ste =>
        if b.full w || s.batchFull b e.off 4 then s
        else
          let s' := s'.onBlock blk fun b => (b.writeWin e.off (bytesOf 4 e.val) k.grp).setTag w true
          (s'.forward blk e.off 4).serveLane k slot lane none

/-- The held accesses of a word are examined in the order in which they began waiting (R84). -/
def State.serveOnce (s : State) (blk : BlockKey) (w : Nat) : State :=
  match s.block? blk with
  | none => s
  | some b => (b.waitQ.filter fun e => e.off / 4 = w).foldl (fun s e => s.serveOne blk e) s

/-- A word's tag has changed: its held accesses are examined, and again after every change that one of them makes. -/
def State.serveWord (s : State) (blk : BlockKey) (w : Nat) : State :=
  forN (match s.block? blk with
    | some b => (b.waitQ.filter fun e => e.off / 4 = w).length
    | none => 0) (fun _ s => s.serveOnce blk w) s

/-- A tag set and the held accesses served. -/
def State.putTag (s : State) (blk : BlockKey) (w : Nat) (t : Bool) : State :=
  (s.onBlock blk (·.setTag w t)).serveWord blk w

/-! ### Lent lines (R91) -/

/-- What an access to the store comes to before its data. -/
inductive LOut where
  | ok (s : State)
  | flt (f : Flt) (s : State)
  | hold (h : Hold) (s : State)

/-- The harvest line that occupies a line of an owner. -/
def State.lentTo (s : State) (own : BlockKey) (line : Nat) : Option (Block × Nat × StashLine) :=
  s.blocks.findSome? fun b => (b.stash.find? fun l => l.2.lent = some (own, line)).map fun l => (b, l.1, l.2)

def lineBytes (b : Block) (line : Nat) : List Byte := b.readWin (64 * line) 64

/-- A harvest line leaves the store: its window bytes and state go. -/
def Block.dropLine (b : Block) (line : Nat) : Block :=
  { b with stash := odel b.stash line, win := putWin b.win (64 * line) (List.replicate 64 0) }

/-- Reclaim of a lent line: a CLEAN one is dropped, a DIRTY one moves into a lend writeback buffer; none when all 8 are
busy. -/
def State.reclaim (s : State) (own : BlockKey) (line : Nat) : Option State :=
  match s.lentTo own line with
  | none => some s
  | some (b, hl, l) =>
    if l.dirty = 0 then some (s.setBlock (b.dropLine hl))
    else
      let k : CoreKey := ⟨b.slice, b.core⟩
      match (List.range 8).find? fun i => (oget (s.core k).lend i).isNone with
      | none => none
      | some i =>
        let buf : LendBuf := ⟨b.key, hl, lineBytes b hl, l.dirty, l.writer, false, 0⟩
        some ((s.setBlock (b.dropLine hl)).onCore k fun c => { c with lend := oset c.lend i buf })

/-- Lendable lines of the owners on a core: those not touched and not lent. -/
def State.lendable (s : State) (k : CoreKey) : List (BlockKey × Nat) :=
  s.blocks.flatMap fun b =>
    if b.crit && b.resident && !b.exited && b.slice = k.slice && b.core = k.core then
      ((List.range (b.localKib * 16)).filter fun l => !mget false b.touched l && (s.lentTo b.key l).isNone).map (b.key, ·)
    else []

/-- The first touch of a line of an owner block. -/
def State.ownTouch (s : State) (blk : BlockKey) (off : Nat) : LOut :=
  match s.block? blk with
  | none => .ok s
  | some b =>
    let l := off / 64
    if !b.crit || mget false b.touched l then .ok s
    else match s.reclaim blk l with
      | some s => .ok (s.onBlock blk fun b => { b with touched := mset false b.touched l true })
      | none => .hold .lend s

/-! ### Stash lines (R85 to R88) -/

/-- Level of a translation's leaf, by its size. -/
def Translation.level (t : Translation) : Nat := if 30 ≤ t.size then 2 else if 21 ≤ t.size then 1 else 0

def permissionFlt (addr : W64) (level kind : Nat) : Flt :=
  { cause := Cause.permission, addr := addr, detail := tdet 1 level kind Reason.permission 0 }

/-- What a translation means for a stash line of the group in focus: STASH and RAW are needed, host memory is refused
(R86, R453), a LOST line and a device register give the cause of any group access (R19, R24, R201), and inside a
transaction a versioned line is refused (R148). TADDR holds the global address that was translated (R69). -/
def State.stashCheck (s : State) (t : Translation) (ppa : Nat) (gva : W64) (kind : Nat) : Option Flt :=
  let x := s.part s.pid
  let flt := fun (c : BitVec 8) => some ({ cause := c, addr := gva } : Flt)
  if !t.stash || t.fmt ≠ 0 then some (permissionFlt gva t.level kind)
  else match x.space ppa with
    | .host => some (permissionFlt gva t.level kind)
    | .window sl _ => flt (if x.mask.getLsbD sl then Cause.misaligned else Cause.shutter)
    | .control _ => flt Cause.misaligned
    | .none => some { cause := Cause.stage2, addr := gva, detail := tdet 2 t.level kind Reason.map (t.ipa + gva.toNat % 2 ^ t.size) }
    | .mem =>
      if x.lost ppa then flt Cause.shutter
      else if s.cur.tx.opened && (t.ver || s.chain s.pid ppa ≠ .none) then flt Cause.illegalOperand
      else none

/-- A translation for a stash line; a refusal is made only on what the tables hold now (R54). -/
def State.stashXlate (s : State) (gva : W64) (kind : Nat) : LOut :=
  match s.locate s.coreKey (s.ask kind) gva fun t ppa => (s.stashCheck t ppa gva kind).isSome with
  | .ok t ppa s => match s.stashCheck t ppa gva kind with
    | none => .ok s
    | some f => .flt f s
  | .flt c d s => .flt { cause := c, addr := gva, detail := d } s
  | .held s => .hold .walk s
  | .lost s => .flt { cause := Cause.shutter, addr := gva } s

/-- A load or store of a group to a line that may be mapped: an INVALID line starts its fill, the first store checks W
(R86). `la` is the local address that a fault reports. A store to a read-only entry raises PERMISSION before a fill is
checked, with TDET level 0: the manual gives neither that order nor the level (DESIGN CHOICE, log 36). -/
def State.stashTouch (s : State) (blk : BlockKey) (off : Nat) (store : Bool) (la : W64) : LOut :=
  match s.block? blk with
  | none => .ok s
  | some b =>
    match b.entryAt off with
    | none => .ok s
    | some e =>
      let line := off / 64
      let gva := e.gbase + BitVec.ofNat 64 (64 * line - e.lbase)
      if store && !e.rw then .flt (permissionFlt la 0 Kind.store) s
      else
        let wcheck := fun (s : State) (k : State → LOut) =>
          if store then match s.stashXlate gva Kind.store with
            | .ok s => k s
            | r => r
          else k s
        match oget b.stash line with
        | some l => if l.dirty = 0 || s.cur.tx.opened then wcheck s .ok else .ok s
        | none =>
          match s.stashXlate gva Kind.load with
          | .ok s => wcheck s fun s =>
              if b.harv && (s.lendable ⟨b.slice, b.core⟩).isEmpty then .hold .lend s else .hold (.fill blk line) s
          | r => r

/-- Everything that an access to window bytes waits for or faults on before its data: a saved gang member (R80), a lent
line, a stash fill, and with `room` the room for the batch that a store closes. -/
def State.winReady (s : State) (blk : BlockKey) (off n : Nat) (store room : Bool) (la : W64) : LOut :=
  match s.block? blk with
  | none => .ok s
  | some b =>
    if !b.resident then .hold .gang s
    else match s.ownTouch blk off with
      | .ok s =>
        match s.stashTouch blk off store la with
        | .ok s => if store && room && s.batchFull b off n then .hold .batch s else .ok s
        | r => r
      | r => r

/-- A plain store into a window: bytes, then forwarding (R97). Tags stay. -/
def State.winStore (s : State) (blk : BlockKey) (off : Nat) (bs : List Byte) : State :=
  (s.onBlock blk fun b => b.writeWin off bs s.cur.info.key.grp).forward blk off bs.length

def State.winBytes (s : State) (blk : BlockKey) (off n : Nat) : List Byte :=
  match s.block? blk with
  | some b => b.readWin off n
  | none => List.replicate n 0

def State.winPoisoned (s : State) (blk : BlockKey) (off n : Nat) : Bool :=
  match s.block? blk with
  | some b => b.poisonedAt off n
  | none => false

/-! ### Register form (R77, R79) -/

/-- A lane's register as a register-form access reads it: the issuing group's own under the unchecked-issue rule. -/
def State.regLane (s : State) (grp n lane : Nat) : W32 :=
  if grp = s.cur.info.key.grp then s.vread 30 n lane
  else match s.group? { s.cur.info.key with grp := grp } with
    | some g => g.vget n lane
    | none => 0

def State.regStore (s : State) (grp n lane : Nat) (v : W32) : State :=
  if grp = s.cur.info.key.grp then s.vwrite n lane v
  else s.onGroup { s.cur.info.key with grp := grp } fun g => g.vset n lane v

/-- The register's word is poisoned (R128). -/
def State.regPoisoned (s : State) (grp n lane : Nat) : Bool :=
  if grp = s.cur.info.key.grp then mget false s.cur.regPoison (32 * n + lane)
  else match s.group? { s.cur.info.key with grp := grp } with
    | some g => mget false g.regPoison (32 * n + lane)
    | none => false

/-- The word is marked poisoned again, after a write of part of it (R128). -/
def State.regMark (s : State) (grp n lane : Nat) : State :=
  let f : Group → Group := fun g => { g with regPoison := mset false g.regPoison (32 * n + lane) true }
  if grp = s.cur.info.key.grp then { s with cur := f s.cur } else s.onGroup { s.cur.info.key with grp := grp } f

end Sys2Proof.Machine
end

