-- ==== Sys2Proof/Machine/Sync.lean ====
section
/-! DEFINITION. Barriers (R211, R364), waits for subscription updates (R102), and the end of a group (R278). -/

namespace Sys2Proof.Machine

/-! ### Waits for updates -/

def State.goalMet (s : State) (u : UpdateGoal) : Bool :=
  match s.block? u.blk with
  | none => true
  | some b => match oget b.outb u.handle with
    | none => true
    | some e => decide (u.count ≤ e.appliedN) || e.st = .orphaned

/-- What a block's outbound entries have closed so far and not seen applied. -/
def State.goalsOf (s : State) (k : BlockKey) : List UpdateGoal :=
  match s.block? k with
  | none => []
  | some b => (b.outb.map fun e => ⟨k, e.1, e.2.closed⟩).filter fun u => !s.goalMet u

def State.unmet (s : State) (gs : List UpdateGoal) : List UpdateGoal := gs.filter fun u => !s.goalMet u

/-- A fragment whose updates have all been applied completes its `subflush` or departs from its gang barrier; the others
go on waiting for what is left. -/
def State.wakeSlot (s : State) (g : Group) (slot : Bool) : Group :=
  let f := g.frag slot
  match f.hold with
  | .flush gs => if (s.unmet gs).isEmpty then g.finish slot else g.setFrag slot { f with hold := .flush (s.unmet gs) }
  | .depart gs =>
    if (s.unmet gs).isEmpty then { g.finish slot with gbarArrived := false }
    else g.setFrag slot { f with hold := .depart (s.unmet gs) }
  | _ => g

def State.wakeGroup (s : State) (g : Group) : Group :=
  let g := s.wakeSlot (s.wakeSlot g false) true
  { g with gbarLeft := g.gbarLeft.map s.unmet }

def State.wakeGoals (s : State) : State := s.mapGroups s.wakeGroup

/-! ### Barriers -/

def Group.departing (g : Group) : Bool :=
  let d := fun (f : Frag) => match f.hold with
    | .depart _ => true
    | _ => false
  d g.f0 || d g.f1 || g.gbarLeft.isSome

/-- Slots in WAIT_BAR complete their instruction. -/
def Group.releaseBar (g : Group) : Group :=
  let go := fun (b : Bool) (g : Group) => if (g.frag b).st = .waitBar && (g.frag b).hold = .none then g.finish b else g
  { go true (go false g) with barArrived := false }

/-- Slots in WAIT_BAR at a `gbar` wait for the goals, if any. -/
def Group.releaseGbar (g : Group) (goals : List UpdateGoal) : Group :=
  let go := fun (b : Bool) (g : Group) =>
    if (g.frag b).st = .waitBar && (g.frag b).hold = .gbar then
      if goals.isEmpty then g.finish b else g.onFrag b fun f => { f with hold := .depart goals }
    else g
  let g := go true (go false g)
  if goals.isEmpty then { g with gbarArrived := false } else g

/-- The phase of a block's barrier completes when every group that has not exited has arrived (R364). -/
def State.barPhase (s : State) (k : BlockKey) : State :=
  let live := s.allGroups.filter fun g => g.info.key.blk = k && g.state ≠ .exited && g.state ≠ .none
  if live.all (·.barArrived) then
    s.mapGroups fun g => if g.info.key.blk = k && g.barArrived then g.releaseBar else g
  else s

def GroupInfo.sameGang (i j : GroupInfo) : Bool :=
  i.key.blk.part = j.key.blk.part && i.key.blk.grid = j.key.blk.grid && i.gang = j.gang

/-- The phase of a gang's barrier, and departures that wait for the updates of every store before the last arrival (R364,
R102). -/
def State.gbarPhase (s : State) (i : GroupInfo) : State :=
  let live := s.allGroups.filter fun g => g.info.sameGang i && g.state ≠ .exited && g.state ≠ .none
  if live.all fun g => g.gbarArrived && !g.departing then
    let s := (List.range i.gangSize).foldl (fun s m => s.closeAll (i.member m)) s
    let goals := (List.range i.gangSize).flatMap fun m => s.goalsOf (i.member m)
    s.mapGroups fun g => if g.info.sameGang i && g.gbarArrived then g.releaseGbar goals else g
  else s

/-- The group arrives at the barrier its fragment waits at (R211). -/
def State.barArrive (s : State) (k : GroupKey) (gang : Bool) : State :=
  match s.group? k with
  | none => s
  | some g =>
    if gang then
      let s := s.closeAll k.blk
      (s.setGroup { (s.group? k).getD g with gbarArrived := true }).gbarPhase g.info
    else (s.setGroup { g with barArrived := true }).barPhase k.blk

/-! ### The end of a group -/

/-- Both slots are FREE and the stack is empty: the group exits (R218). Its snapshot closes (R139), its stack area is freed
(R221), and it no longer counts at a barrier (R364). -/
def State.groupExit (s : State) (k : GroupKey) : State :=
  match s.group? k with
  | none => s
  | some g =>
    let s := match g.snap with
      | some t => s.onPart k.blk.part (·.dropSnap t)
      | none => s
    let s := s.setGroup { g with
      state := .exited, snap := none, area := none, lc0 := .none, lc1 := .none, lc2 := .none, barArrived := false
      gbarArrived := false, gbarLeft := none }
    let s := match g.area with
      | some a => s.onPart k.blk.part fun x => { x with areas := x.areas.erase a }
      | none => s
    (s.barPhase k.blk).gbarPhase g.info

/-- Products of the group that have not written their rows (R388). -/
def State.multiplies (s : State) (k : GroupKey) : Bool := s.cores.any fun c => c.mmaQ.any fun j => j.group = k

/-- The group ends if nothing of it is left, once its products have written their rows (R388). -/
def State.exitIfEmpty (s : State) (k : GroupKey) : State :=
  match s.group? k with
  | none => s
  | some g =>
    if !g.f0.busy && !g.f1.busy && g.stack.isEmpty && g.state ≠ .exited && !s.multiplies k then s.groupExit k else s

end Sys2Proof.Machine
end

