-- ==== Sys2Proof/Machine/Regs.lean ====
section
/-! DEFINITION. Device registers (R11, R20, R24, R25, R45): what a read returns and what a write does. A write that is a
command queues the command's step, which comes next. -/

namespace Sys2Proof.Machine

/-! ### Helpers -/

def b2w (b : Bool) : W64 := if b then 1 else 0

/-- A register's writable bits replaced (R11, R13). -/
def masked (mask old new : W64) : W64 := (old &&& ~~~mask) ||| (new &&& mask)

/-- The step of a command, taken next. -/
def State.queueStep (s : State) (e : Event) : State := { s with agenda := s.agenda ++ [e] }

/-- Log2 of the entries of a ring, bits 4:1 of FLRING and FQBASE: 4 to 12, other values act as 4 (R395, R454). -/
def ringLog (w : W64) : Nat := let l := fld w 4 1; if 4 ≤ l && l ≤ 12 then l else 4

/-! ### The MTC's registers (R20, R22) -/

def MtcStep.code : MtcStep → Nat
  | .idle => 0
  | .drain => 1
  | .migrate => 2
  | .reprogram => 3
  | .scrub => 4
  | .opening => 5
  | .rebalance => 6

/-- MSTAT. DONE reads 0 outside steps 2 and 6 (R34); STEP reads 0 while a DISSOLVE scrubs (DESIGN CHOICE, log 132). -/
def State.mstat (s : State) : W64 :=
  let m := s.mtc
  let base := b2w m.mrefused <<< 1 ||| m.mresult.setWidth 64 <<< 24
  match m.run with
  | none => base
  | some r =>
    let move := fld r.word 7 0 = 3
    let moves := r.step = .migrate || r.step = .rebalance
    base ||| 1 ||| (if move then BitVec.ofNat 64 (r.step.code * 16) else 0) |||
      (if move && moves then BitVec.ofNat 64 (r.moved * 256) else 0)

/-- The selected record of the MTC log; zero if it is no longer held. -/
def State.mlogrec (s : State) : BitVec 128 :=
  let n := fld s.mtc.mlogcnt 31 0
  let i := fld s.mtc.mlogidx 31 0
  let back := (n + 2 ^ 32 - i) % 2 ^ 32
  if back = 0 || 256 < back then 0 else (s.mtc.log.drop (back - 1)).headD 0

/-- MLOGCNT, MLOGIDX, MLOGREC0, MLOGREC1 as the management agent reads them; zero for any other source (R22). -/
def State.mlogRead (s : State) (auth : Bool) (n : Nat) : W64 :=
  if !auth then 0
  else match n with
    | 0 => s.mtc.mlogcnt
    | 1 => s.mtc.mlogidx
    | 2 => s.mlogrec.setWidth 64
    | 3 => (s.mlogrec >>> 64).setWidth 64
    | _ => 0

/-- Results of MTC commands (R21). -/
def MRes.ok : BitVec 8 := 0
def MRes.badOp : BitVec 8 := 1
def MRes.busy : BitVec 8 := 2
def MRes.notConnected : BitVec 8 := 3
def MRes.capacity : BitVec 8 := 4
def MRes.notAuthorised : BitVec 8 := 5
def MRes.timeout : BitVec 8 := 6
def MRes.migrationError : BitVec 8 := 7
def MRes.keys : BitVec 8 := 8

/-- A command finishes: RESULT, and its log record (R21, R22), whose SLICE and PART are those of the MCMD word, with PV 1
(DESIGN CHOICE, log 132). -/
def State.mtcResult (s : State) (word : W64) (r : BitVec 8) : State :=
  let s := { s with mtc := { s.mtc with mresult := r, run := none } }
  s.mtcLog 7 (fld word 15 12) (some (fld word 11 8)) ((r.setWidth 64 <<< 56) ||| (word &&& 0x00FFFFFFFFFFFFFF))

/-- The arguments that the running command captured, or the registers where none runs (R20). -/
def Module.marg (m : Module) : W64 × W64 :=
  match m.run with
  | some r => (r.marg0, r.marg1)
  | none => (m.marg0, m.marg1)

/-- A write to an MTC register, which only a module that has booted takes (R457, R463). MCMD starts its command, with MARG0 and
MARG1 as they are now, whose step comes next. -/
def State.mtcWrite (s : State) (auth : Bool) (n : Nat) (w : W64) : State :=
  let m := s.mtc
  if !m.on || !m.verified then s
  else match n with
  | 0 =>
    if m.run.isSome then { s with mtc := { m with mrefused := true } }
    else if !auth then s.mtcResult w MRes.notAuthorised
    else
      let go := fun (i : Instr) =>
        { s with mtc := { m with run := some ⟨w, m.marg0, m.marg1, fld w 15 12, fld w 11 8, fld w 11 8, .idle, none, 0, 0⟩ } }.queueStep
          ⟨i, { StepArgs.zero with auth := true, w := w }⟩
      match fld w 7 0 with
      | 1 => go .form
      | 2 => go .dissolve
      | 3 => go .move
      | 4 => go .tops
      | 5 => go .keys
      | 6 => go .attest
      | _ => s.mtcResult w MRes.badOp
  | 1 => if auth then { s with mtc := { m with marg0 := w } } else s
  | 2 => if auth then { s with mtc := { m with marg1 := w } } else s
  | 3 => if auth && w.getLsbD 1 then { s with mtc := { m with mrefused := false } } else s
  | 4 => if auth then { s with mtc := { m with mlogidx := masked 0xFFFFFFFF m.mlogidx w } } else s
  | _ => s

/-! ### Partition-wide registers (R45) -/

/-- Plain read-write registers by offset: writable bits. -/
def partMask (off : Nat) : Option W64 :=
  match off with
  | 0x0100 => some 0x0FFFFFFFFFFFF001
  | 0x0108 => some 0xFFFFFFFFFFFFF000
  | 0x0118 => some 0x0000FFFFFFFFFFF8
  | 0x0120 => some 0x0000FFFFFFFFFFF8
  | 0x0140 => some 0x0000FFFFFFFFF000
  | 0x0200 => some 0x03FFFFFFFFFFF001
  | 0x0230 => some 0x3F
  | 0x0248 => some 0xFFFFFFFFFFFFFFFF
  | 0x02C0 => some 0x0000FFFFFFFFF001
  | 0x0340 => some 0x0FFFFFFFFFFF0001
  | 0x0348 => some 0xFFFFFFFFFFFFF000
  | 0x03A0 => some 0xFFFFFFFF
  | _ => none

def Partition.plainSet (p : Partition) (off : Nat) (mask w : W64) : Partition :=
  match off with
  | 0x0100 => { p with xctb := masked mask p.xctb w }
  | 0x0108 => { p with xinva := masked mask p.xinva w }
  | 0x0118 => { p with xharvb := masked mask p.xharvb w }
  | 0x0120 => { p with xinvw := masked mask p.xinvw w }
  | 0x0140 => { p with cma := masked mask p.cma w }
  | 0x0200 => { p with qtbase := masked mask p.qtbase w }
  | 0x0230 => { p with tagto := masked mask p.tagto w }
  | 0x0248 => { p with farg := masked mask p.farg w }
  | 0x02C0 => { p with pcalw := masked mask p.pcalw w }
  | 0x0340 => { p with netcfg := masked mask p.netcfg w }
  | 0x0348 => { p with peertb := masked mask p.peertb w }
  | 0x03A0 => { p with ltol := masked mask p.ltol w }
  | _ => p

/-- A partition-wide register as it reads; `none` if the offset holds none. -/
def Partition.regGet (p : Partition) (off : Nat) : Option W64 :=
  match off with
  | 0x0100 => some p.xctb
  | 0x0108 => some p.xinva
  | 0x0110 => some 0
  | 0x0118 => some p.xharvb
  | 0x0120 => some p.xinvw
  | 0x0128 => some (status [(0, (!p.xinvQ.isEmpty).toNat), (1, decide (16 ≤ p.xinvQ.length) |>.toNat), (2, p.xinvLost.toNat),
      (3, p.xinvErr.toNat), (4, p.xinvQ.length), (32, p.xinvSeq.toNat)])
  | 0x0140 => some p.cma
  | 0x0148 => some 0
  | 0x0150 => some (status [(0, (!p.cmQ.isEmpty).toNat), (1, decide (4 ≤ p.cmQ.length) |>.toNat), (2, p.cmLost.toNat),
      (3, p.cmErr.toNat), (32, p.cmSeq.toNat)])
  | 0x0180 => some p.vpbase
  | 0x0188 => some p.vpsize
  | 0x0190 => some (status [(0, p.vpRecords.length), (24, p.vpFull.toNat), (25, p.vpErr.toNat), (32, p.vpThresh.toNat)])
  | 0x0198 => some (BitVec.ofNat 64 p.vclock)
  | 0x0200 => some p.qtbase
  | 0x0208 => some (b2w p.qcmdErr <<< 63)
  | 0x0210 => some p.spool
  | 0x0230 => some p.tagto
  | 0x0240 => some 0
  | 0x0248 => some p.farg
  | 0x0250 => some (status [(0, p.fstatErr.toNat), (32, p.fstatSeq.toNat)])
  | 0x0258 => some p.svpool
  | 0x0260 => some (status [(0, p.chunks.length), (16, p.svFull.toNat)])
  | 0x02C0 => some p.pcalw
  | 0x02C8 => some (p.dbstat.setWidth 64)
  | 0x02D0 => some (mget 0 p.ctrs 0xC0)
  | 0x02D8 => some (mget 0 p.ctrs 0xC1)
  | 0x02E0 => some (mget 0 p.ctrs 0xC2)
  | 0x0340 => some p.netcfg
  | 0x0348 => some p.peertb
  | 0x0350 => some 0
  | 0x0358 => some (status [(0, (p.ckpt.isSome || p.ckWait).toNat), (1, p.ckErr.toNat), (16, p.ckTs.toNat)])
  | 0x0360 => some p.hdmwin
  | 0x0380 => some p.flring
  | 0x0388 => some p.fldb
  | 0x0390 => some p.flcons
  | 0x0398 => some (Config.flashExtent p.id)
  | 0x03A0 => some p.ltol
  | 0x03B0 => some (p.prdy.setWidth 64)
  | _ =>
    if 0x0280 ≤ off && off < 0x02C0 then
      some (if off / 8 % 2 = 0 then mget 0 p.dbctl ((off - 0x0280) / 16) else mget 0 p.dbadd ((off - 0x0280) / 16))
    else none

def Partition.queue (p : Partition) (q : Nat) : Queue := mget .reset p.queues q

def Partition.setQueue (p : Partition) (q : Nat) (x : Queue) : Partition := { p with queues := mset .reset p.queues q x }

/-- A register of a queue's port (R223). -/
def Queue.regGet (q : Queue) (off : Nat) : W64 :=
  match off with
  | 0 => q.notify
  | 8 => q.qrd
  | 0x10 => status [(0, q.en.toNat), (1, q.wseq.toNat), (2, q.wdep.toNat), (3, q.ovr.toNat), (4, q.err.toNat), (8, q.errs.toNat)]
  | _ => 0

def maxW (a b : W64) : W64 := if a.toNat < b.toNat then b else a

/-- NOTIFY keeps the larger value (R223). -/
def Partition.notify (p : Partition) (q : Nat) (w : W64) : Partition :=
  let x := p.queue q
  p.setQueue q { x with notify := maxW x.notify w }

/-- A write to VPBASE or VPSIZE is accepted or refused (R145). -/
def Partition.vpoolWrite (p : Partition) (size : Bool) (w : W64) : Partition :=
  let base := if size then p.vpbase else masked 0x0FFF00FFFFFFF001 0 w
  let sz := if size then masked 0xFFFFFF 0 w else p.vpsize
  let above := p.htop.toNat * 2 ^ 30 < fld base 39 12 * 4096 + 128 * fld sz 23 0
  if !p.vpRecords.isEmpty || (base.getLsbD 0 && (above || fld sz 23 0 < 2)) then { p with vpErr := true }
  else { p with vpbase := base, vpsize := sz }

/-- QCMD (R221): ERR is cleared first. A command that names a reserved OP, a reserved bit or a queue above LAST does
nothing but set ERR; ENABLE and DISABLE are steps of their own. -/
def State.qcmd (s : State) (p : Nat) (w : W64) : State :=
  let s := if w.getLsbD 63 then s.onPart p fun x => { x with qcmdErr := false } else s
  let cmd := w &&& 0x7FFFFFFFFFFFFFFF
  let q := fld w 17 8
  let e : Instr → Event := fun i => ⟨i, { StepArgs.zero with part := p, queue := q }⟩
  let bad := s.onPart p fun x => { x with qcmdErr := true }
  if cmd = 0 then s
  else if fld w 7 2 ≠ 0 || fld w 62 18 ≠ 0 || fld (s.part p).qtbase 57 48 < q then bad
  else match fld w 1 0 with
    | 1 => s.queueStep (e .qcmdEnable)
    | 2 => s.queueStep (e .qcmdDisable)
    | _ => bad

/-- Steps of FCMD. -/
def isFcmd : Instr → Bool
  | .fcmdReplay => true
  | .fcmdHandle => true
  | .fcmdKill => true
  | .fcmdStop => true
  | .fcmdStopHold => true
  | .fcmdRelease => true
  | _ => false

/-- FCMD (R397): each command is a step of its own, with the FARG of this write and its place in the order of commands; a reserved
one is a REPLAY of a KIND that no record has. -/
def State.fcmd (s : State) (p : Nat) (w : W64) : State :=
  let a := { StepArgs.zero with
    part := p, gva := (s.part p).farg, n := s.cycle * 2 ^ 16 + (s.agenda.filter fun (e : Event) => isFcmd e.step).length }
  let e : Instr → State := fun i => s.queueStep ⟨i, { a with w := w }⟩
  let bad := s.queueStep ⟨.fcmdReplay, { a with w := 0x71 }⟩
  if fld w 31 7 ≠ 0 then bad
  else match fld w 3 0 with
    | 1 => e .fcmdReplay
    | 2 => e .fcmdHandle
    | 3 => e .fcmdKill
    | 4 => e .fcmdStop
    | 5 => e .fcmdStopHold
    | 6 => e .fcmdRelease
    | _ => bad

/-- A window-exposing register write (R451): a change of BASE or SIZE while EN is 1 is ignored; clearing EN waits for
the host's answers, one for each line its copies cover. -/
def State.hdmWrite (s : State) (p : Nat) (w : W64) : State :=
  let x := s.part p
  let new := masked 0x0007FFFFC0000001 0 w
  if x.hdmwin.getLsbD 0 && fld new 50 30 ≠ fld x.hdmwin 50 30 then s
  else if x.hdmwin.getLsbD 0 && !new.getLsbD 0 then
    if s.slices.any fun sl => sl.snoop.any (·.1 = p) then s.onPart p fun y => { y with hdmStop := true }
    else s.onPart p fun y => { y with hdmwin := new }
  else s.onPart p fun y => { y with hdmwin := if Config.linkHolder = some p then new else new &&& ~~~1 }

/-- FLRING (R454). -/
def Partition.flringWrite (p : Partition) (w : W64) : Partition :=
  let new := masked 0xFFFFFFFFFFFFF01F 0 w
  if !p.flring.getLsbD 0 then { p with flring := new }
  else if new.getLsbD 0 then p
  else if p.flReqs.isEmpty then { p with flring := p.flring &&& ~~~1 }
  else { p with flStop := true }

/-- A command joins a FIFO of the partition (R59, R118): none when it is full. -/
def pushCmd (n : Nat) (q : List QueuedCmd) (c : QueuedCmd) : Option (List QueuedCmd) :=
  if n ≤ q.length then none else some (q ++ [c])

/-- A write to a partition-wide register. -/
def State.partWrite (s : State) (p off : Nat) (w : W64) : State :=
  let x := s.part p
  let on := s.onPart p
  match partMask off with
  | some m => on (·.plainSet off m w)
  | none =>
    match off with
    | 0x0110 => on fun x => match pushCmd 16 x.xinvQ ⟨w, x.xinva, x.xharvb, x.xinvw, false⟩ with
        | some q => { x with xinvQ := q }
        | none => { x with xinvLost := true }
    | 0x0128 => on fun x => { x with xinvLost := x.xinvLost && !w.getLsbD 2, xinvErr := x.xinvErr && !w.getLsbD 3 }
    | 0x0148 => on fun x => match pushCmd 4 x.cmQ ⟨w, x.cma, 0, 0, false⟩ with
        | some q => { x with cmQ := q }
        | none => { x with cmLost := true }
    | 0x0150 => on fun x => { x with cmLost := x.cmLost && !w.getLsbD 2, cmErr := x.cmErr && !w.getLsbD 3 }
    | 0x0180 => on (·.vpoolWrite false w)
    | 0x0188 => on (·.vpoolWrite true w)
    | 0x0190 => on fun x => { x with
        vpFull := x.vpFull && !w.getLsbD 24, vpErr := x.vpErr && !w.getLsbD 25
        vpThresh := w.extractLsb' 32 8
        spargeDue := x.spargeDue || w.getLsbD 63 ||
          Nat.min (fld w 39 32) 100 * fld x.vpsize 23 0 < x.vpRecords.length * 100 }
    | 0x0208 => s.qcmd p w
    | 0x0210 => if x.areas.isEmpty then on fun x => { x with spool := masked 0xFFFFFFFFFFFFF801 0 w } else s
    | 0x0240 => s.fcmd p w
    | 0x0250 => on fun x => { x with fstatErr := x.fstatErr && !w.getLsbD 0 }
    | 0x0258 => if x.chunks.isEmpty then on fun x => { x with svpool := masked 0xFFFFFFFFFFFF0001 0 w } else s
    | 0x0260 => on fun x => { x with svFull := x.svFull && !w.getLsbD 16 }
    | 0x02C8 => on fun x => { x with dbstat := x.dbstat &&& ~~~(w.setWidth 4) }
    | 0x0350 => if x.ckpt.isSome || x.ckWait then on fun x => { x with ckErr := true }
        else (on fun x => { x with ckWait := true }).queueStep ⟨.checkpointStart, { StepArgs.zero with part := p, w := w }⟩
    | 0x0358 => on fun x => { x with ckErr := x.ckErr && !w.getLsbD 1 }
    | 0x0360 => s.hdmWrite p w
    | 0x0380 => on (·.flringWrite w)
    | 0x0388 => on fun x => { x with fldb := maxW x.fldb w }
    | _ =>
      if 0x0280 ≤ off && off < 0x02C0 then
        let n := (off - 0x0280) / 16
        if off / 8 % 2 = 0 then on fun x => { x with dbctl := mset 0 x.dbctl n (masked 0xFFFFFFF7 0 w) }
        else on fun x => { x with dbadd := mset 0 x.dbadd n (masked 0x000FFFFFFFFFFFFC 0 w) }
      else s

/-! ### Registers of a slice (R18, R129, R395, R409, R429, R432, R436, R460) -/

/-- Energy class weights (R432). -/
def energyWeight (c : Nat) : Nat :=
  ([8192, 205, 1024, 4096, 123, 205, 1229, 81920, 163840, 3277, 246, 410].drop c).headD 0

def State.sliceGet (s : State) (sl off : Nat) : Option W64 :=
  let x := s.slice sl
  match off with
  | 0x0000 => some (status [(0, x.shutter.toNat), (4, x.part.toNat), (8, x.drops.toNat)])
  | 0x0300 => some x.mpatrol
  | 0x0308 => some (x.merr &&& 0x0000FFFFFFFFFFFF)
  | 0x0400 => some x.fqbase
  | 0x0408 => some x.fqhead
  | 0x0410 => some x.fqtail
  | 0x0500 => some x.trctl
  | 0x0508 => some x.trgrid
  | 0x0510 => some x.trbase
  | 0x0518 => some x.trhead
  | 0x0520 => some x.trtail
  | 0x0528 => some x.trstat
  | 0x0700 => some x.mac
  | 0x0708 => some x.iplo
  | 0x0710 => some x.iphi
  | 0x0718 => some x.portstat
  | 0x0900 => some (x.srdy.setWidth 64)
  | _ =>
    if 0x0600 ≤ off && off < 0x0660 then some (BitVec.ofNat 64 (energyWeight ((off - 0x0600) / 8)))
    else if 0x0800 ≤ off && off < 0x0830 then some (mget 0 x.ctrs (0x80 + (off - 0x0800) / 8))
    else if 0x0A00 ≤ off && off < 0x0B00 then some (s.core ⟨sl, (off - 0x0A00) / 8⟩).remdone
    else if 0x1000 ≤ off && off < 0x3000 then
      let i := (off - 0x1000) % 0x100 / 8
      some (if i < 8 then mget 0 (s.core ⟨sl, (off - 0x1000) / 0x100⟩).ctrs (0x40 + i) else 0)
    else none

/-- TRCTL takes effect at every core (R409, R410): a core that stops tracing closes its frame, one that starts begins
with FIRST and a SYNC of every stream. -/
def State.trctlWrite (s : State) (sl : Nat) (w : W64) : State :=
  let old := (s.slice sl).trctl
  let new := masked 0x0000FFFFFFFFFFFF 0 w
  let s := s.onSlice sl fun x => { x with trctl := new }
  { s with cores := s.cores.map fun c =>
      if c.key.slice ≠ sl then c
      else if traced old c.key.core && !traced new c.key.core then { c with trace := c.trace.close }
      else if !traced old c.key.core && traced new c.key.core then
        { c with trace := { c.trace with first := true, synced := [], outcomes := [], lastStream := none } }
      else c }

/-- TRGRID: a stream whose group is traced from now on, or no longer is, needs a SYNC (R416). -/
def State.trgridWrite (s : State) (sl : Nat) (w : W64) : State :=
  let old := s.slice sl
  let new := { old with trgrid := masked 0x800003FFFFFFFFFF 0 w }
  let kept := fun (k : CoreKey) (st : Nat) => s.allGroups.any fun g =>
    g.coreKey = k && g.info.slot = st % 64 && old.traces g && new.traces g
  { s.setSlice new with cores := s.cores.map fun c =>
      if c.key.slice ≠ sl then c else { c with trace := { c.trace with synced := c.trace.synced.filter (kept c.key) } } }

/-- TRBASE is ignored while trace is enabled (R409). -/
def State.trbaseWrite (s : State) (sl : Nat) (w : W64) : State :=
  s.onSlice sl fun x => if x.trctl.getLsbD 0 then x else { x with trbase := masked 0x0000FFFFFFFFF03F 0 w }

/-- MPATROL: writing PERIOD 0 leaves the field (R129). -/
def Slice.patrolWrite (x : Slice) (w : W64) : Slice :=
  { x with mpatrol := BitVec.ofNat 64 ((w.getLsbD 0).toNat + 256 * if fld w 15 8 = 0 then fld x.mpatrol 15 8 else fld w 15 8) }

def State.sliceWrite (s : State) (sl off : Nat) (w : W64) : State :=
  let on := s.onSlice sl
  match off with
  | 0x0300 => on (·.patrolWrite w)
  | 0x0308 => if w.getLsbD 63 then on fun x => { x with merr := 0 } else s
  | 0x0400 => on fun x => { x with fqbase := masked 0x0000FFFFFFFFF01F 0 w }
  | 0x0410 => on fun x => { x with fqtail := w }
  | 0x0500 => s.trctlWrite sl w
  | 0x0508 => s.trgridWrite sl w
  | 0x0510 => s.trbaseWrite sl w
  | 0x0520 => on fun x => { x with trtail := w }
  | 0x0528 => on fun x => { x with trstat := if w.getLsbD 32 then x.trstat &&& 0xFFFFFFFF else x.trstat }
  | 0x0700 => on fun x => { x with mac := masked 0x0001FFFFFFFFFFFF 0 w }
  | 0x0708 => on fun x => { x with iplo := w }
  | 0x0710 => on fun x => { x with iphi := w }
  | _ => s

/-! ### The partition control block (R25, R26, R29, R30) -/

/-- An interrupt route entry; zero for a non-member slice. -/
def Partition.route (p : Partition) (i : Nat) : BitVec 32 := if p.mask.getLsbD (i / 16) then mget 0 p.irt i else 0

/-- A software write to an interrupt route entry (R30). -/
def Partition.irtWrite (p : Partition) (i : Nat) (v : BitVec 32) : Partition :=
  if p.mask.getLsbD (i / 16) && p.mask.getLsbD (fld v 3 0) then { p with irt := mset 0 p.irt i (v &&& 0x0007FFFF) }
  else p

/-- A command involves a partition: it names it, or it moves a slice between it and another. -/
def MtcRun.involves (r : MtcRun) (p : Nat) : Bool := fld r.word 11 8 = p || r.src = p || r.dst = p

def State.controlGet (s : State) (p off : Nat) : W64 :=
  let x := s.part p
  match off with
  | 0x0000 => status [(0, x.id), (4, x.mask.toNat), (20, x.htop.toNat), (31, x.ttop.toNat)]
  | 0x0008 => status [(0, x.kbase.toNat), (12, x.kcount.toNat)]
  | 0x0010 => match s.mtc.run with
    | some r => if r.involves p then s.mstat else 0
    | none => 0
  | _ =>
    if 0x1000 ≤ off && off < 0x1800 then
      let b := fun i => (mget 0 x.buckets ((off - 0x1000) / 2 + i)).toNat
      status [(0, b 0), (16, b 1), (32, b 2), (48, b 3)]
    else if 0x2000 ≤ off && off < 0x2400 then
      status [(0, (x.route ((off - 0x2000) / 4)).toNat), (32, (x.route ((off - 0x2000) / 4 + 1)).toNat)]
    else 0

def State.controlWrite (s : State) (p off : Nat) (w : W64) : State :=
  if 0x2000 ≤ off && off < 0x2400 then
    let i := (off - 0x2000) / 4
    s.onPart p fun x => (x.irtWrite i (w.setWidth 32)).irtWrite (i + 1) ((w >>> 32).setWidth 32)
  else s

/-! ### A register by its place -/

/-- The function behind a register is ready (R460). -/
def State.regReady (s : State) (t : RegTarget) : Bool :=
  match t with
  | .window p sl off =>
    let sr := (s.slice sl).srdy
    let pr := (s.part p).prdy
    if 0x0500 ≤ off && off ≤ 0x0528 || 0x0A00 ≤ off && off < 0x0B00 || 0x1000 ≤ off && off < 0x3000 then sr.getLsbD 4
    else if 0x0700 ≤ off && off ≤ 0x0718 then sr.getLsbD 5
    else if off = 0x0340 || off = 0x0348 then pr.getLsbD 2
    else if off = 0x0350 || off = 0x0358 then pr.getLsbD 3
    else if off = 0x0360 then pr.getLsbD 1
    else if 0x0380 ≤ off && off ≤ 0x0398 then pr.getLsbD 0
    else true
  | .control _ _ => true
  | .mtc _ _ => true

/-- A read of the device register at an 8-byte place (R11, R13): offsets without a register read zero, as do the
registers of a function that is not ready. -/
def State.regRead (s : State) (t : RegTarget) : W64 :=
  if !s.regReady t then 0 else
  match t with
  | .window p sl off =>
    if 0x01000000 ≤ off && off < 0x01400000 then ((s.part p).queue ((off - 0x01000000) / 0x1000)).regGet (off % 0x1000)
    else match s.sliceGet sl off with
      | some v => v
      | none => ((s.part p).regGet off).getD 0
  | .control p off => s.controlGet p off
  | .mtc auth n => if n = 3 then s.mstat else if n = 4 then s.mlogRead auth 1 else 0

/-- A write of the device register at an 8-byte place. -/
def State.regWrite (s : State) (t : RegTarget) (w : W64) : State :=
  if !s.regReady t then s else
  match t with
  | .window p sl off =>
    if 0x01000000 ≤ off && off < 0x01400000 then
      let q := (off - 0x01000000) / 0x1000
      match off % 0x1000 with
      | 0 => s.onPart p (·.notify q w)
      | 0x10 => if w.getLsbD 4 then s.onPart p fun x => x.setQueue q { x.queue q with err := false } else s
      | _ => s
    else if (s.sliceGet sl off).isSome then s.sliceWrite sl off w
    else s.partWrite p off w
  | .control p off => s.controlWrite p off w
  | .mtc auth n => s.mtcWrite auth n w

end Sys2Proof.Machine
end

