-- ==== Sys2Proof/Machine/Mesh.lean ====
section
/-! DEFINITION. The module mesh (R1, R15, R131): links between slices, connected sets, and the hops of a route; and the
charges of energy and counters that traffic makes (R429, R431 to R434). -/

namespace Sys2Proof.Machine

/-- A die-to-die link joins the slices (R1). -/
def linked (a b : Nat) : Bool :=
  let dx := (a % 4 + 4) - b % 4
  let dy := (a / 4 + 4) - b / 4
  (dx = 4 && (dy = 3 || dy = 5)) || (dy = 4 && (dx = 3 || dx = 5))

/-- The members of a set within `n` links of those of `m`. -/
def spread (mask : BitVec 16) : Nat → BitVec 16 → BitVec 16
  | 0, m => m
  | n + 1, m =>
    spread mask n ((List.range 16).foldl (fun r b =>
      if mask.getLsbD b && (List.range 16).any (fun a => m.getLsbD a && linked a b) then r ||| (1#16 <<< b) else r) m)

def lowestOf (mask : BitVec 16) : Nat := ((List.range 16).find? (mask.getLsbD ·)).getD 16

/-- The set is not empty and its links connect it (R14). -/
def connected (mask : BitVec 16) : Bool := mask ≠ 0 && spread mask 15 (1#16 <<< lowestOf mask) = mask

/-- Level in the breadth-first tree rooted at the lowest slice (R131). -/
def level (mask : BitVec 16) (a : Nat) : Nat :=
  ((List.range 16).find? fun n => (spread mask n (1#16 <<< lowestOf mask)).getLsbD a).getD 16

/-- A hop goes up: nearer the root, or at the same level to a lower id. -/
def upHop (mask : BitVec 16) (a b : Nat) : Bool :=
  level mask b < level mask a || (level mask b = level mask a && b < a)

/-- Slices that a legal up*/down* route of `n` hops may reach from those it has reached: still going up, and going down. -/
def reach (mask : BitVec 16) (st : BitVec 16 × BitVec 16) : Nat → BitVec 16 × BitVec 16
  | 0 => st
  | n + 1 =>
    let r := reach mask st n
    (List.range 16).foldl (fun q b =>
      if !mask.getLsbD b then q
      else
        let up := (List.range 16).any fun c => r.1.getLsbD c && linked c b && upHop mask c b
        let dn := (List.range 16).any fun c => (r.1.getLsbD c || r.2.getLsbD c) && linked c b && !upHop mask c b
        (if up then q.1 ||| (1#16 <<< b) else q.1, if dn then q.2 ||| (1#16 <<< b) else q.2)) r

/-- A slice alone, on a route that still goes up or that goes down. -/
def alone (down : Bool) (a : Nat) : BitVec 16 × BitVec 16 := if down then (0, 1#16 <<< a) else (1#16 <<< a, 0)

/-- A legal route of `n` hops goes on from `a` to `b`. -/
def arrives (mask : BitVec 16) (b n : Nat) (down : Bool) (a : Nat) : Bool :=
  let r := reach mask (alone down a) n
  (r.1 ||| r.2).getLsbD b

/-- The route of `n` more hops from `a` to `b`: of the next hops that a legal one takes, the lowest. -/
def routeOn (mask : BitVec 16) (b : Nat) : Nat → Bool → Nat → List Nat
  | 0, _, _ => []
  | n + 1, down, a =>
    let falls := fun c => down || !upHop mask a c
    match (List.range 16).find? fun c =>
      mask.getLsbD c && linked a c && !(down && upHop mask a c) && arrives mask b n (falls c) c with
    | some c => c :: routeOn mask b n (falls c) c
    | none => []

/-- The route between two members, as the MTC programs it (R131): a legal one of least length. It follows the member mask,
and so FORM and every change of the mask rewrite it. -/
def route (mask : BitVec 16) (a b : Nat) : List Nat :=
  if a = b then []
  else match (List.range 16).find? fun n => arrives mask b n false a with
    | some n => routeOn mask b n false a
    | none => []

/-- The slice to which `a` sends what is bound for `b`. -/
def nextHop (mask : BitVec 16) (a b : Nat) : Option Nat := (route mask a b).head?

/-- Hops of the route between two members. -/
def hops (mask : BitVec 16) (a b : Nat) : Nat := (route mask a b).length

/-! ### Energy (R431 to R434) -/

/-- The counter word with units of 2⁻¹² pJ added. -/
def addEnergy (e : W64) (units : Nat) : W64 :=
  let sum := fld e 47 0 * 4096 + fld e 59 48 + units
  if e.getLsbD 63 || 2 ^ 60 ≤ sum then (1#64 <<< 63) ||| (0xFFF#64 <<< 48) ||| 0xFFFFFFFFFFFF#64
  else BitVec.ofNat 64 (sum / 4096 + sum % 4096 * 2 ^ 48)

/-- Units of energy that fall to no group: counter 0x47 of a core, which keeps what is below a pJ (R434). -/
def State.chargeCore (s : State) (c : CoreKey) (units : Nat) : State :=
  s.onCore c fun x =>
    let n := x.energyFrac + units
    { x with ctrs := mset 0 x.ctrs 0x47 (mget 0 x.ctrs 0x47 + BitVec.ofNat 64 (n / 4096)), energyFrac := n % 4096 }

/-- Units charged to a group of core `c`, or to that core's counter 0x47 once the group has exited or its grid has been
killed (R434). -/
def State.charge (s : State) (c : CoreKey) (k : GroupKey) (units : Nat) : State :=
  match s.group? k with
  | none => s.chargeCore c units
  | some g =>
    if g.killed || g.state = .exited || g.state = .none then s.chargeCore c units
    else s.setGroup { g with energy := addEnergy g.energy units }

/-- A quantity of an energy class charged to the group in focus. -/
def State.chargeCur (s : State) (cls n : Nat) : State :=
  s.onCur fun g => { g with energy := addEnergy g.energy (energyWeight cls * n) }

/-- Units that `n` bytes of an access to a line take on their way from core `c` to the home: last-level cache, mesh hops,
and the memory behind a miss. -/
def State.trafficUnits (s : State) (c : CoreKey) (p ppa n ix : Nat) : Nat :=
  let x := s.part p
  energyWeight 6 * n + energyWeight 9 * n * hops x.mask c.slice (x.home ppa) +
    energyWeight (if ppa < 0x010000000000 then 7 else 8) * s.missBytes p ppa ix

/-- Bytes that reach the home of a line by an access of a mode for a group, whose core is `c`. -/
def State.traffic (s : State) (c : CoreKey) (p ppa n ix coh : Nat) (k : GroupKey) : State :=
  (s.charge c k (s.trafficUnits c p ppa n ix)).served p ppa coh ix

/-- A write-back of `n` bytes of a core's L1 line of a mode. R432 names the group that caused it: the one in focus where it
runs on that core, and no group else (DESIGN CHOICE, log 149). -/
def State.backTraffic (s : State) (c : CoreKey) (p ppa n coh : Nat) : State :=
  let u := s.trafficUnits c p ppa n 915
  (if s.coreKey = c && s.cur.state ≠ .none then s.charge c s.cur.info.key u else s.chargeCore c u).served p ppa coh 915

end Sys2Proof.Machine
end

