-- ==== Sys2Proof/Machine/Access.lean ====
section
/-! DEFINITION. Global accesses of a group: L1 lines and coherence modes (R89, R113 to R116), what a lane's address
reaches (R23, R24, R344), reads and writes through the modes (R115, R135), and the beats of a memory instruction (R343
to R345, R210). -/

namespace Sys2Proof.Machine

/-! ### L1 lines -/

/-- Bytes that a mask selects. -/
def countBits (m : BitVec 64) : Nat := ((List.range 64).filter (m.getLsbD ·)).length

/-- The masked bytes of a line written at its home, poisoned if `bad`; bytes of a LOST bucket are gone (R19). -/
def State.maskedWrite (s : State) (p key ln : Nat) (data : List Byte) (mask : BitVec 64) (bad : Bool) : State :=
  let base := 64 * ln
  if (s.part p).lost base || mask = 0 then s
  else
    let bs := mergeBytes (s.bytesAt p key base 64) data mask
    if s.chain p base ≠ .none then
      match s.commitLine p key base bs mask bad with
      | .ok s' => s'
      | _ => s
    else
      let s := s.memWrite p key base bs
      if bad then s.setPoison p base true else if mask = BitVec.allOnes 64 then s.clearWritten p base 64 else s

/-- The write-back of a core's L1 line: of an SC line exactly the dirty bytes (R116), of a tracked one what M holds (R113); poison
of their words goes with them (R128). -/
def State.writebackL1 (s : State) (k : CoreKey) (l : L1Line) : State :=
  if l.only = 0 || (s.part l.part).lost (64 * l.line) then s
  else
    let bad := (s.core k).badIn l.part l.line l.only
    match l with
    | .hc p ln _ => (if bad then s.setPoison p (64 * ln) true else s).backTraffic k p (64 * ln) 64 0
    | .sc p ln data dirty key _ =>
      (s.maskedWrite p key ln data dirty bad).backTraffic k p (64 * ln) (countBits dirty) 1

/-- Why a write-back of a line of an L1 must wait: its home does not take it now (R37, R124, R452), or its commit has no room
(R146). -/
def State.backHold (s : State) (l : L1Line) : Hold :=
  let base := 64 * l.line
  if l.dirty = 0 || (s.part l.part).lost base then .none
  else match s.memHold l.part base 0 true with
    | .none => if s.canCommit l.part [base] then .none else .pool
    | .bucket _ => .walk
    | h => h

/-- What a write-back that must wait leaves: one that finds the pool full sets FULL, and a sparge pass begins (R146, R147). -/
def State.backStall (s : State) (h : Hold) (p ln : Nat) : State := if h = .pool then s.stall p [64 * ln] else s

/-- A line of a core's L1 is written back and dropped; it stays while its write-back must wait. -/
def State.evictL1 (s : State) (k : CoreKey) (p ln : Nat) : State :=
  match (s.core k).l1At p ln with
  | none => s
  | some l => if s.backHold l = .none then (s.writebackL1 k l).onCore k (·.dropL1 p ln) else s

/-- A line of a core's L1 is written back and kept: SC lines clean, HC lines in M in E (R352). -/
def State.cleanL1 (s : State) (k : CoreKey) (p ln : Nat) : State :=
  match (s.core k).l1At p ln with
  | none => s
  | some l => if s.backHold l = .none then (s.writebackL1 k l).onCore k fun c => c.putL1 (match l with
      | .hc p ln st => .hc p ln (if st = .modified then .exclusive else st)
      | .sc p ln data _ key f => .sc p ln data 0 key f) else s

/-- Why a line of a core's L1 cannot be written back now. -/
def State.l1Hold (s : State) (k : CoreKey) (p ln : Nat) : Hold :=
  match (s.core k).l1At p ln with
  | none => .none
  | some l => s.backHold l

/-- KiB of the store that a block's windows take (R227): of a harvest block, those of its groups that still hold them. -/
def State.blockStore (s : State) (b : Block) : Nat :=
  let parked := (s.allGroups.filter fun g => g.info.key.blk = b.key && (g.state = .parked || g.gaveUp)).length
  (b.groups - parked) * (b.rgran + b.acc * 8) + if b.harv then 0 else b.localKib

/-- Blocks that hold windows on a core (R72). -/
def State.blocksOn (s : State) (k : CoreKey) : List Block :=
  s.blocks.filter fun b => b.placed && !b.exited && b.slice = k.slice && b.core = k.core

/-- KiB of the store that windows take on a core (R72). -/
def State.storeUsed (s : State) (k : CoreKey) : Nat := (s.blocksOn k).foldl (fun n b => n + s.blockStore b) 0

/-- Lines that the L1 holds (R72, R89). -/
def State.l1Lines (s : State) (k : CoreKey) : Nat := (Config.unifiedKib - s.storeUsed k) * 16

/-- Lines beyond the L1's size leave it; which, the device chooses by a policy it does not define (R89). -/
def State.trimL1 (s : State) (k : CoreKey) : State :=
  forN ((s.core k).l1.length - s.l1Lines k) (fun i s =>
    match ((s.core k).l1.drop (s.draw (600 + i) % (s.core k).l1.length)).head? with
    | some l => s.evictL1 k l.part l.line
    | none => s) s

/-- The L1 has given up the lines beyond its size; an allocation waits for that (R72). -/
def State.l1Fits (s : State) (k : CoreKey) : Bool := (s.core k).l1.length ≤ s.l1Lines k

/-- Cores of a partition. -/
def State.coresOf (s : State) (p : Nat) : List CoreKey :=
  (s.cores.filter fun c => (s.part p).mask.getLsbD c.key.slice).map (·.key)

/-- The directory shows another copy of the line (R112): in the L1 of another core, or at the host. -/
def State.otherCopy (s : State) (k : CoreKey) (p ln : Nat) : Bool :=
  (s.cores.any fun c => c.key ≠ k && match c.l1At p ln with
    | some l => l.isHc
    | none => false) || s.slices.any fun x => x.snoop.any fun e => e.1 = p && e.2.1 = ln

/-- How an access may find the line in the own L1: as a tracked copy, as a software-coherent one, or not at all. -/
inductive L1Mode where
  | hc | sc | none
deriving DecidableEq, Repr

def L1Line.fits (l : L1Line) : L1Mode → Bool
  | .hc => l.isHc
  | .sc => !l.isHc
  | .none => false

/-- Why the line of another mode in the own L1, which an access writes back and drops first (R115), makes it wait. -/
def State.modeHold (s : State) (k : CoreKey) (p ln : Nat) (m : L1Mode) : Hold :=
  match (s.core k).l1At p ln with
  | none => .none
  | some l => if l.fits m then .none else s.backHold l

/-- A line of another mode in the own L1 is written back and dropped (R115). -/
def State.modeCheck (s : State) (k : CoreKey) (p ln : Nat) (m : L1Mode) : State :=
  match (s.core k).l1At p ln with
  | none => s
  | some l => if l.fits m then s else s.evictL1 k p ln

/-! ### What an address reaches -/

inductive Reach where
  | mem (t : Translation) (ppa : Nat) (s : State)
  | reg (r : RegTarget) (s : State)
  | host (ppa : Nat) (s : State)
  | flt (f : Flt) (s : State)
  | hold (h : Hold) (s : State)

/-- A translation whose address lies in no space (R53): STAGE2 with the IPA that it translated. -/
def State.mapFlt (_s : State) (t : Translation) (kind : Nat) (gva : W64) : Flt :=
  { cause := Cause.stage2, addr := gva, detail := tdet 2 t.level kind Reason.map (t.ipa + gva.toNat % 2 ^ t.size) }

/-- A group's access there ends in a fault, whatever its size: a LOST line, a window of a slice that is no member, no space. -/
def Partition.shut (x : Partition) (ppa : Nat) : Bool :=
  match x.space ppa with
  | .mem => x.lost ppa
  | .window sl _ => !x.mask.getLsbD sl
  | .none => true
  | _ => false

/-- The checks of R344 on a global address: alignment, translation (R53), made again before what it names faults (R54), the window's slice (R24), device register
size (R201), LOST (R19), the bucket hold (R37). -/
def State.reachAs (s : State) (a : Ask) (size : Nat) (gva : W64) : Reach :=
  if gva.toNat % size ≠ 0 then .flt { cause := Cause.misaligned, addr := gva } s
  else match s.locate s.coreKey a gva fun _ ppa => (s.part a.part).shut ppa with
    | .flt c d s => .flt { cause := c, addr := gva, detail := d } s
    | .held s => .hold .walk s
    | .lost s => .flt { cause := Cause.shutter, addr := gva } s
    | .ok t ppa s =>
      match (s.part a.part).space ppa with
      | .mem =>
        if (s.part a.part).lost ppa then .flt { cause := Cause.shutter, addr := gva } s
        else match s.memHold a.part ppa gva (Kind.writes a.kind) with
          | .none => .mem t ppa s
          | h => .hold h s
      | .window sl off =>
        if !(s.part a.part).mask.getLsbD sl then .flt { cause := Cause.shutter, addr := gva } s
        else if size ≠ 8 then .flt { cause := Cause.misaligned, addr := gva } s
        else .reg (.window a.part sl off) s
      | .control off =>
        if size ≠ 8 then .flt { cause := Cause.misaligned, addr := gva } s else .reg (.control a.part off) s
      | .host => if (s.part a.part).hostLinked then .host ppa s else .hold (.ready 16) s
      | .none => .flt (s.mapFlt t a.kind gva) s

def State.reach (s : State) (kind size : Nat) (gva : W64) : Reach := s.reachAs (s.ask kind) size gva

/-! ### Reads -/

inductive Got where
  | data (b : List Byte) (hit : Bool) (s : State)
  | poison (s : State)
  | hold (h : Hold) (s : State)

/-- The line is versioned: its page is, or it has a chain (R135). -/
def State.versioned (s : State) (t : Translation) (ppa : Nat) : Bool := t.ver || s.chain s.pid ppa ≠ .none

/-- How the access of the group in focus may find the line in its L1: versioned lines are never held there (R137). -/
def State.l1Mode (s : State) (t : Translation) (ppa : Nat) : L1Mode :=
  if s.versioned t ppa || t.coh = 2 then .none else if t.coh = 1 then .sc else .hc

/-- How an access that works at the home, a far atomic, a stash fill or a stash writeback, may find the line in the own L1: an SC
copy it gives up first (log 41). -/
def State.homeMode (s : State) (t : Translation) (ppa : Nat) : L1Mode := if t.coh = 1 then .none else s.l1Mode t ppa

/-- A read of `n` bytes of a line by the group in focus; `ix` numbers the access. -/
def State.gRead (s : State) (t : Translation) (ppa n ix : Nat) : Got :=
  let p := s.pid
  let k := s.coreKey
  let ln := ppa / 64
  let me := s.cur.info.key
  let home := fun (s : State) (r : Reader) =>
    let b := s.homeRead p t.key ppa n r
    if b.2 then Got.poison s else .data b.1 false (s.traffic k p ppa n ix t.coh me)
  let h := s.modeHold k p ln (s.l1Mode t ppa)
  if h ≠ .none then .hold h (s.backStall h p ln)
  else if s.versioned t ppa then home ((s.evictL1 k p ln).recallHc none p ln) (if t.ver then s.cur.reader else .plain)
  else if t.coh = 2 then home ((s.evictL1 k p ln).recallHc none p ln) .plain
  else if t.coh = 1 then
    let s := s.modeCheck k p ln .sc
    let old := (s.core k).l1At p ln
    let need := byteMask ppa n
    match old with
    | some (.sc _ _ data dirty key f) =>
      if (s.core k).badIn p ln need then .poison s
      else if f || need &&& ~~~dirty = 0 then .data ((data.drop (ppa % 64)).take n) true (s.chargeCur 5 n)
      else
        let s := s.recallHc none p ln
        if s.poisoned p ppa then .poison s
        else
          let d := mergeBytes (s.bytesAt p key (64 * ln) 64) data dirty
          .data ((d.drop (ppa % 64)).take n) false
            ((s.onCore k (·.putL1 (.sc p ln d dirty key true))).traffic k p ppa 64 ix 1 me)
    | _ =>
      let s := s.recallHc none p ln
      if s.poisoned p ppa then .poison s
      else
        let d := s.bytesAt p t.key (64 * ln) 64
        let s := s.onCore k (·.putL1 (.sc p ln d 0 t.key true))
        .data ((d.drop (ppa % 64)).take n) false ((s.trimL1 k).traffic k p ppa 64 ix 1 me)
  else
    let s := s.modeCheck k p ln .hc
    match (s.core k).l1At p ln with
    | some _ =>
      if s.anyPoison p ppa n || (s.core k).badIn p ln (byteMask ppa n) then .poison s
      else .data (s.bytesAt p t.key ppa n) true (s.chargeCur 5 n)
    | none =>
      let other := s.otherCopy k p ln
      let s := s.shareHc p ln
      if s.anyPoison p ppa n then .poison s
      else
        let b := s.bytesAt p t.key ppa n
        let s := s.onCore k (·.putL1 (.hc p ln (if other then .shared else .exclusive)))
        .data b false ((s.trimL1 k).traffic k p ppa 64 ix 0 me)

/-! ### Writes -/

/-- A store of `bs` within a line by the group in focus; of a versioned line, part of one write that began when `since` was
the last timestamp issued (R142). -/
def State.gWrite (s : State) (t : Translation) (ppa ix : Nat) (gva : W64) (bs : List Byte) (since : Option Nat) : WriteEnd :=
  let p := s.pid
  let k := s.coreKey
  let ln := ppa / 64
  let me := s.cur.info.key
  if s.modeHold k p ln (s.l1Mode t ppa) ≠ .none then .wait (s.modeHold k p ln (s.l1Mode t ppa))
  else if s.versioned t ppa then
    match ((s.evictL1 k p ln).recallHc none p ln).groupWrite me p t.key ppa gva t.ver bs since with
    | .ok s => .ok (s.traffic k p ppa bs.length ix t.coh me)
    | r => r
  else if t.coh = 2 then
    let s := (s.evictL1 k p ln).recallHc none p ln
    .ok ((s.memWrite p t.key ppa bs).traffic k p ppa bs.length ix 2 me)
  else if t.coh = 1 then
    let s := s.modeCheck k p ln .sc
    let x := match (s.core k).l1At p ln with
      | some (.sc _ _ data dirty key f) => (data, dirty, key, f)
      | _ => (List.replicate 64 0, 0, t.key, false)
    let line : L1Line := .sc p ln (putLine x.1 (ppa % 64) bs) (x.2.1 ||| byteMask ppa bs.length) x.2.2.1 x.2.2.2
    .ok (((s.onCore k fun c => (c.putL1 line).clearBad p ln (byteMask ppa bs.length)).trimL1 k).chargeCur 5 bs.length)
  else
    let s := (s.modeCheck k p ln .hc).recallHc (some k) p ln
    let held := ((s.core k).l1At p ln).isSome
    let s := (s.memWrite p t.key ppa bs).onCore k fun c => (c.putL1 (.hc p ln .modified)).clearBad p ln (byteMask ppa bs.length)
    let s := s.chargeCur 5 bs.length
    .ok (if held then s else (s.trimL1 k).traffic k p ppa 64 ix 0 me)

/-! ### A lane -/

/-- What becomes of a lane's access of a beat. -/
inductive LaneEnd where
  /-- performed: register writes, and whether L1 served it -/
  | ok (s : State) (ws : List ResWrite) (hit : Bool)
  /-- performed on a versioned line inside a transaction (R144) -/
  | okVer (s : State) (ws : List ResWrite)
  | flt (f : Flt) (s : State)
  | hold (h : Hold) (s : State)
  /-- the transaction aborted, and the instruction with it -/
  | abort (s : State)

/-- A global access of a lane counts as a hit or a miss of the core's L1 (R429). -/
def State.countL1 (s : State) (hit : Bool) : State :=
  if hit then s.countCore s.coreKey 0x42 1 else (s.countCore s.coreKey 0x43 1).countGroup 5 1

/-- A load of `n` bytes at a global address; a lane hits if `l1`, the lines at issue, held its line (R210). -/
def State.loadAt (s : State) (l1 : List (Nat × Nat)) (n ix : Nat) (gva : W64) (put : Nat → List ResWrite) : LaneEnd :=
  match s.reach Kind.load n gva with
  | .flt f s => .flt f s
  | .hold h s => .hold h s
  | .reg r s => .ok (s.countL1 false) (put (s.regRead r).toNat) false
  | .host ppa s => .ok (s.countL1 false) (put (natOfBytes (s.hostRead ppa n))) false
  | .mem t ppa s =>
    match s.gRead t ppa n ix with
    | .poison s => .flt { cause := Cause.poison, addr := gva, deferred := true } (s.poisonEvent s.pid ppa)
    | .hold h s => .hold h s
    | .data b hit s' =>
      if s.cur.tx.opened && s.versioned t ppa then .okVer (s'.countL1 false) (put (natOfBytes b))
      else .ok (s'.countL1 hit) (put (natOfBytes b)) (hit && l1.contains (s.pid, ppa / 64))

/-- What a write's end means for the group in focus. -/
def State.writeEnd (s : State) (gva : W64) (e : WriteEnd) : LaneEnd :=
  match e with
  | .ok s => .ok s [] true
  | .wait h => .hold (match h with
      | .bucket _ => .bucket gva
      | h => h) s
  | .lost => .flt { cause := Cause.shutter, addr := gva } s
  | .pool s r => .flt { cause := Cause.versionPool, addr := gva, detail := BitVec.ofNat 64 r } s
  | .abort s st => .abort (s.txAbort s.cur.info.key st 0)

/-- A store at a global address, part of one write that began when `since` was the last timestamp issued. -/
def State.storeAt (s : State) (n ix : Nat) (gva : W64) (val : Nat) (since : Option Nat) : LaneEnd :=
  let bs := bytesOf n (BitVec.ofNat 64 val)
  match s.reach Kind.store n gva with
  | .flt f s => .flt f s
  | .hold h s => .hold h s
  | .reg r s => .ok ((s.regWrite r (BitVec.ofNat 64 val)).countL1 false) [] true
  | .host ppa s => .ok ((s.hostWrite ppa bs).countL1 false) [] true
  | .mem t ppa s =>
    let ln := ppa / 64
    let hit := ((s.core s.coreKey).l1At s.pid ln).any (·.fits (s.l1Mode t ppa))
    match (s.backStall (s.modeHold s.coreKey s.pid ln (s.l1Mode t ppa)) s.pid ln).writeEnd gva (s.gWrite t ppa ix gva bs since) with
    | .ok s ws h => .ok (s.countL1 hit) ws h
    | r => r

/-! ### Beats -/

/-- A result of a lane, and whether an open transaction read it from a versioned line. -/
structure LaneRes where
  lane : Nat
  ver : Bool
  res : ResWrite

/-- How far a beat has come. -/
structure Beat where
  s : State
  done : Mask
  /-- results by lane -/
  ws : List LaneRes
  miss : Mask
  /-- the lowest lane that failed, and its fault (R344) -/
  fail : Option (Nat × Flt)
  held : Option Hold
  gone : Bool

/-- A lane has performed its access. -/
def Beat.did (b : Beat) (l : Nat) (s : State) (ws : List ResWrite) (hit ver : Bool) : Beat :=
  { b with
    s := s, done := b.done ||| (1#32 <<< l), ws := b.ws ++ ws.map (⟨l, ver, ·⟩)
    miss := if hit then b.miss else b.miss ||| (1#32 <<< l) }

/-- A lane has failed. -/
def Beat.note (b : Beat) (l : Nat) (s : State) (f : Flt) : Beat :=
  { b with
    s := s
    fail := match b.fail with
      | some (k, x) => if l < k then some (l, f) else some (k, x)
      | none => some (l, f) }

/-- A lane is held. The fragment waits for the first hold that is no tagged wait; one at a word goes on there meanwhile. -/
def Beat.waits (b : Beat) (h : Hold) (s : State) : Beat :=
  { b with s := s, held := match b.held with
      | some .tags => some h
      | some x => some x
      | none => some h }

/-- One lane of a beat. -/
def Beat.lane (b : Beat) (l : Nat) (f : State → LaneEnd) : Beat :=
  if b.gone then b
  else match f b.s with
    | .ok s ws hit => b.did l s ws hit false
    | .okVer s ws => b.did l s ws false true
    | .flt f s => b.note l s f
    | .hold h s => b.waits h s
    | .abort s => { b with s := s, gone := true }

/-- Every lane of `m` not done, ascending. -/
def Beat.run (b : Beat) (m : Mask) (f : Nat → State → LaneEnd) : Beat :=
  (lanesOf (m &&& ~~~b.done)).foldl (fun b l => b.lane l (f l)) b

/-- Results of lanes wait to be written (R250). -/
def State.deferLanes (s : State) (ws : List LaneRes) : State :=
  [false, true].foldl (fun s v => match ws.filter (·.ver = v) with
    | [] => s
    | l => s.deferAs v (l.map (·.res))) s

/-- A failing instruction: after a deferred fault the fragment stops before its next instruction (R393). -/
def State.failWith (s : State) (f : Flt) (done : Mask) (beat : Nat) : Res :=
  let f := { f with done := done, beat := BitVec.ofNat 3 beat }
  .flt (if f.deferred then s.advance else s) f

/-- The state in which a fragment waits for a hold. -/
def waitOf : Hold → FragState
  | .tags => .waitTag
  | _ => .waitMem

/-- The lanes that have missed stand with what the instruction took at its issue (R210). -/
def State.noteMissed (s : State) (m : Mask) : State :=
  s.onFrag fun f => { f with cap := f.cap.map fun c => { c with missed := m } }

/-- What ends a beat before the next may begin: an abort, a failing lane, a held lane. -/
def Beat.stop (b : Beat) (i : Nat) : Option Res :=
  let s := b.s.deferLanes b.ws
  if b.gone then some (.ok b.s)
  else match b.fail with
    | some (_, f) => some (s.failWith f b.done i)
    | none => match b.held with
      | some h => some (.ok (((b.s.holdAt h (waitOf h) b.done (BitVec.ofNat 3 i)).noteMissed b.miss).deferLanes b.ws))
      | none => none

/-- The beats `is` of an instruction (R345): no lane performs an access of a beat before every lane of the beat below has
passed. `fin` ends the instruction with the results that still wait and the lanes that missed. -/
def State.beats (m : Mask) (f : Nat → Nat → State → LaneEnd) (fin : State → List LaneRes → Mask → Res) :
    List Nat → State → Mask → List LaneRes → Mask → Res
  | [], s, _, ws, miss => fin s ws miss
  | i :: is, s, done, ws, miss =>
    let b := (Beat.mk s done [] miss none none false).run m (f i)
    match b.stop i with
    | some (.ok t) => .ok (if b.gone then t else t.deferLanes ws)
    | some (.flt t x) => .flt (t.deferLanes ws) x
    | none => beats m f fin is b.s 0 (ws ++ b.ws) b.miss

/-- Beats that are left, and the lanes done of the first. -/
def State.beatsLeft (s : State) (count : Nat) : List Nat := (List.range count).drop s.frag.beat.toNat

/-- A store request that writes all 64 bytes of a line clears its poison (R128): the lines that addresses cover. -/
def wholeLines (as : List Nat) (n : Nat) : List Nat :=
  (as.map (· / 64)).eraseDups.filter fun ln =>
    (List.range 64).all fun i => as.any fun a => a ≤ 64 * ln + i && 64 * ln + i < a + n

/-! ### Loads, and the miss split (R210) -/

/-- A load ends: its results wait, and a W-marked relaxed load with hits and misses splits, outside hardware loops
(R275). Lanes that are inactive under the guard neither hit nor miss; they stay with the leading fragment, which the manual
leaves open (DESIGN CHOICE, log 148). -/
def State.finishLoad (s : State) (split : Bool) (m : Mask) (ws : List LaneRes) (miss : Mask) : Res :=
  if split && s.issue.w && !s.other.busy && !s.cur.loopActive && miss ≠ 0 && m &&& ~~~miss ≠ 0 && s.frag.redo = none then
    let lagM := miss
    let part := fun (m : Mask) (v : Bool) =>
      (⟨m, (ws.filter fun x => m.getLsbD x.lane && x.ver = v).map (·.res), s.frag.checkedFor, v, s.issue.pc⟩ : Pend)
    let lead := s.frag.mask &&& ~~~lagM
    let s := s.onCur fun g => { g with pend := g.pend ++
      [part lead false, part lead true, part lagM false, part lagM true].filter fun x => !x.writes.isEmpty }
    let s := s.advance
    let f := s.frag
    .ok (s.onCur fun g =>
      let g := g.setFrag s.issue.slot { f with mask := f.mask &&& ~~~lagM, lead := true }
      { g.setFrag (!s.issue.slot) { f with mask := lagM, lag := true, st := .waitMem, waited := 0, halted := f.halted || g.stopReq } with
        ctrs := mset 0 g.ctrs 2 (mget 0 g.ctrs 2 + 1) })
  else .ok (s.deferLanes ws).advance

/-- Global load instructions are counted once (R429). -/
def State.countLoad (s : State) : State :=
  if s.frag.cap.isNone && s.frag.done = 0 && s.frag.beat = 0 then s.countGroup 4 1 else s

/-! ### Whole instructions -/

/-- Checks 2 to 6 of R343. -/
def State.guardMem (s : State) (n : Named) (orderOk tyOk : Bool) (k : Res) : Res :=
  match s.hazard (n.vs ++ n.reached) n.us n.cc n.fl with
  | some f => .flt s f
  | none =>
    if !orderOk || !tyOk then .flt s { cause := Cause.illegalOperand }
    else if !n.vs.all (· < s.cur.info.nregs) then .flt s { cause := Cause.registerWindow }
    else if !n.evens.all (· % 2 = 0) then .flt s { cause := Cause.illegalOperand }
    else k

def loadOrder (r : BitVec 2) : Bool := r ≠ 2
def storeOrder (r : BitVec 2) : Bool := r ≠ 1

/-- Registers of a beat. -/
def beatReg (t : BitVec 7) (wide : Bool) (i : Nat) : Nat := t.toNat + i * (if wide then 2 else 1)

/-- Vector registers that a memory instruction names. -/
def memRegs (t o : BitVec 7) (wide : Bool) (count : Nat) : List Nat :=
  o.toNat :: (List.range (count * if wide then 2 else 1)).map (t.toNat + ·)

/-- A lane's value as register writes: one, or a pair. -/
def laneWrites (reg l : Nat) (wide : Bool) (v : Nat) : List ResWrite :=
  .vec reg l (BitVec.ofNat 32 v) :: if wide then [.vec (reg + 1) l (BitVec.ofNat 32 (v / 2 ^ 32))] else []

/-- A lane's register or pair as a store reads it. -/
def State.laneVal (s : State) (reg l : Nat) (wide : Bool) : Nat :=
  (s.vread 0 reg l).toNat + if wide then (s.vread 0 (reg + 1) l).toNat * 2 ^ 32 else 0

/-- `count` of the n field (R340). -/
def countOf (n : BitVec 2) : Nat := 2 ^ n.toNat

/-- A global load (R346). -/
def State.globalLoad (s : State) (t o : BitVec 7) (b : BitVec 6) (n r : BitVec 2) (lit : W32) : Res :=
  let wide := s.wideTy
  let a := if wide then 8 else 4
  let m := s.active
  let base := s.ea o b lit
  let l1 := s.l1Held
  s.guardMem { vs := memRegs t o wide (countOf n), us := [b.toNat], evens := if wide then [t.toNat] else [], cc := s.guardReads }
    (loadOrder r) (typeBits s.ty ≠ 0)
    (State.beats m (fun i l s => s.loadAt l1 a (drawIx (11 + i) 0 l) (base l + BitVec.ofNat 64 (i * a))
        (laneWrites (beatReg t wide i) l wide))
      (fun s' ws miss => s'.finishLoad (r = 0) m ws miss) (s.beatsLeft (countOf n)) s.countLoad s.frag.done [] s.missed)

/-- Beats and lanes of an instruction, up to lane `l` of beat `i`, whose access falls on the same address. -/
def State.sharers {w : Nat} (s : State) (m : Mask) (a : Nat → Nat → BitVec w) (i l : Nat) : List (Nat × Nat) :=
  let first := s.frag.beat.toNat
  (List.range (i + 1)).flatMap fun j =>
    if j < first then []
    else ((lanesOf (if j = first then m &&& ~~~s.frag.done else m)).filter fun k =>
      (j < i || k ≤ l) && a j k == a i l).map (j, ·)

/-- What lane `l` of beat `i` leaves at its address: its own value or the one that an earlier of its sharers left there,
freely (R171, R345). -/
def State.storeVal {w : Nat} (s : State) (m : Mask) (a : Nat → Nat → BitVec w) (v : Nat → Nat → Nat) (i l : Nat) : Nat :=
  match s.sharers m a i l with
  | [] => v i l
  | p :: ps => ps.foldl (fun u q =>
      let x := v q.1 q.2
      if x == u || s.draw (drawIx (11 + q.1) 1 q.2) % 2 == 0 then x else u) (v p.1 p.2)

/-- A line that the group in focus has stored whole loses its poison (R128): that of the version which its open transaction
has written, or that of memory (R136). -/
def State.clearLine (s : State) (ppa : Nat) : State :=
  let c := s.chain s.pid ppa
  match c.unc with
  | some u =>
    if s.cur.tx.opened && u.tx = s.cur.tx.id then s.setChain s.pid ppa { c with unc := some { u with poison := false } }
    else s.setPoison s.pid ppa false
  | none => s.setPoison s.pid ppa false

/-- Lines that a beat's store covers whole lose their poison (R128). -/
def State.clearPoisonOf (s : State) (as : List W64) (n : Nat) : State :=
  if s.poison.isEmpty then s
  else (wholeLines (as.map (·.toNat)) n).foldl (fun s ln =>
    match s.translateNow ⟨s.pid, s.cur.info.ctx, Kind.store, s.cur.priv⟩ (BitVec.ofNat 64 (64 * ln)) with
    | .ok t ppa _ => if (t.coh ≠ 1 || s.versioned t ppa) && (s.part s.pid).space ppa = .mem then s.clearLine ppa else s
    | _ => s) s

/-- The last timestamp issued, from which the lanes of one store instruction combine their bytes of a line (R142). -/
def State.storeSince (s : State) : Option Nat := some (s.part s.pid).issued

/-- A global store (R346). -/
def State.globalStore (s : State) (t o : BitVec 7) (b : BitVec 6) (n r : BitVec 2) (lit : W32) : Res :=
  let wide := s.wideTy
  let a := if wide then 8 else 4
  let m := s.active
  let base := s.ea o b lit
  s.guardMem { vs := memRegs t o wide (countOf n), us := [b.toNat], evens := if wide then [t.toNat] else [], cc := s.guardReads }
    (storeOrder r) (typeBits s.ty ≠ 0)
    (State.beats m (fun i l s' => s'.storeAt a (drawIx (11 + i) 0 l) (base l + BitVec.ofNat 64 (i * a))
        (s.storeVal m (fun i l => base l + BitVec.ofNat 64 (i * a)) (fun i l => s.laneVal (beatReg t wide i) l wide) i l)
        s.storeSince)
      (fun s' _ _ =>
        .ok ((List.range (countOf n)).foldl (fun s' i =>
          s'.clearPoisonOf ((lanesOf m).map fun l => base l + BitVec.ofNat 64 (i * a)) a) s').advance)
      (s.beatsLeft (countOf n)) s s.frag.done [] 0)

end Sys2Proof.Machine
end

