-- ==== Sys2Proof/Machine/LocalAcc.lean ====
section
/-! DEFINITION. Local accesses of a lane (R78, R83, R84), of both address forms, and the tagged steps. -/

namespace Sys2Proof.Machine

/-- A local address as a fault reports it. -/
def laOf (la : W32) : W64 := la.setWidth 64

/-- A word's poison found by a local access (R128). -/
def State.poisonLocal (s : State) (la : W32) : LaneEnd :=
  .flt { cause := Cause.poison, addr := laOf la, deferred := true } (s.mtcLog 3 s.cur.info.slice (some s.pid) 0)

/-- Window bytes that an access may touch now, or why not. -/
def State.winGo (s : State) (blk : BlockKey) (off n : Nat) (store : Bool) (la : W32) (k : State → LaneEnd)
    (room : Bool := true) : LaneEnd :=
  match s.winReady blk off n store room (laOf la) with
  | .flt f s => .flt f s
  | .hold h s => .hold h s
  | .ok s => k s

/-- Entries of a publisher that a store is forwarded to. -/
def State.copies (s : State) (blk : BlockKey) (off : Nat) : Nat :=
  match s.block? blk with
  | some b => (b.outb.filter fun e => e.2.covers off).length
  | none => 0

/-- A plain local load. -/
def State.localLoadAt (s : State) (n : Nat) (la : W32) (put : Nat → List ResWrite) : LaneEnd :=
  match s.localAddr la n false false with
  | .error c => .flt { cause := c, addr := laOf la } s
  | .ok (.win blk off) =>
    s.winGo blk off n false la fun s =>
      if s.winPoisoned blk off n then s.poisonLocal la
      else .ok (s.chargeCur 4 n) (put (natOfBytes (s.winBytes blk off n))) true
  | .ok (.reg grp r lane byte) =>
    if s.regPoisoned grp r lane then s.poisonLocal la
    else .ok (s.chargeCur 4 n) (put ((s.regLane grp r lane).toNat / 2 ^ (8 * byte) % 2 ^ (8 * n))) true

/-- Bytes put into a register's word. -/
def putBits (old : W32) (byte n val : Nat) : W32 := setFld old (8 * (byte + n) - 1) (8 * byte) val

/-- A plain local store, forwarded from publisher regions, whose updates are charged too (R97, R432). A store of part of a
poisoned register word leaves the word poisoned (R128). -/
def State.localStoreAt (s : State) (n : Nat) (la : W32) (val : Nat) : LaneEnd :=
  match s.localAddr la n false false with
  | .error c => .flt { cause := c, addr := laOf la } s
  | .ok (.win blk off) =>
    s.winGo blk off n true la fun s =>
      .ok ((s.winStore blk off (bytesOf n (BitVec.ofNat 64 val))).chargeCur 4 (n * (1 + s.copies blk off))) [] true
  | .ok (.reg grp r lane byte) =>
    let t := s.regStore grp r lane (putBits (s.regLane grp r lane) byte n val)
    .ok ((if n < 4 && s.regPoisoned grp r lane then t.regMark grp r lane else t).chargeCur 4 n) [] true

/-- A local read-modify-write: the old value, and the value that replaces it, if any (R83); the bytes are forwarded from a
publisher region, changed or not (R97). -/
def State.localRmwAt (s : State) (n : Nat) (la : W32) (f : Nat → Option Nat) (put : Nat → List ResWrite) : LaneEnd :=
  match s.localAddr la n false true with
  | .error c => .flt { cause := c, addr := laOf la } s
  | .ok (.win blk off) =>
    s.winGo blk off n true la fun s =>
      if s.winPoisoned blk off n then s.poisonLocal la
      else
        let old := natOfBytes (s.winBytes blk off n)
        let s := s.chargeCur 4 (n * (1 + s.copies blk off))
        .ok (match f old with
          | some v => s.winStore blk off (bytesOf n (BitVec.ofNat 64 v))
          | none => s.forward blk off n) (put old) true
  | .ok (.reg _ _ _ _) => .flt { cause := Cause.illegalOperand, addr := laOf la } s

/-! ### Tagged steps (R83, R84, R348) -/

inductive TagStep where
  | ldf | take | ste | stf | set | clr | rd
deriving DecidableEq, Repr

def TagStep.stores : TagStep → Bool
  | .ste => true
  | .stf => true
  | _ => false

def TagStep.loads : TagStep → Bool
  | .ldf => true
  | .take => true
  | _ => false

/-- Whose lane waits. -/
def State.waiter (s : State) (lane reg : Nat) : Waiter := .lane s.cur.info.key s.issue.slot lane reg

/-- The lane's access is held at its word already. -/
def State.queued (s : State) (lane : Nat) : Bool :=
  s.blocks.any fun b => b.waitQ.any fun w => match w.who with
    | .lane k sl l _ => k = s.cur.info.key && sl = s.issue.slot && l = lane
    | .sub _ => false

/-- The lane waits at its word. -/
def State.waitAt (s : State) (blk : BlockKey) (off : Nat) (op : TagOp) (la : W32) (val : Nat) (lane reg : Nat) : LaneEnd :=
  .hold .tags (s.onBlock blk fun b =>
    { b with waitQ := b.waitQ ++ [⟨off, 4, op, BitVec.ofNat 64 val, false, s.waiter lane reg, laOf la⟩] })

/-- A tag written, and the held accesses examined if it changed. -/
def State.tagTo (s : State) (blk : BlockKey) (w : Nat) (t : Bool) : State :=
  match s.block? blk with
  | some b => if b.full w = t then s else s.putTag blk w t
  | none => s

/-- One lane of a tagged instruction: word `reg` of lane, value `val` to store. A `ste` waits at its word for the tag and for
room under R99. -/
def State.tagAt (s : State) (op : TagStep) (la : W32) (lane reg val : Nat) : LaneEnd :=
  match s.localAddr la 4 true false with
  | .error c => .flt { cause := c, addr := laOf la } s
  | .ok (.reg _ _ _ _) => .flt { cause := Cause.illegalOperand, addr := laOf la } s
  | .ok (.win blk off) =>
    if s.queued lane then .hold .tags s
    else
      s.winGo blk off 4 op.stores la (room := op ≠ .ste) fun s =>
        let w := off / 4
        let full := match s.block? blk with
          | some b => b.full w
          | none => false
        let word := natOfBytes (s.winBytes blk off 4)
        let s := s.chargeCur 4 (if op.stores then 4 * (1 + s.copies blk off) else 4)
        if op.loads && full && s.winPoisoned blk off 4 then s.poisonLocal la
        else match op with
          | .ldf => if full then .ok s [.vec reg lane (BitVec.ofNat 32 word)] true else s.waitAt blk off .ldf la 0 lane reg
          | .take =>
            if full then .ok (s.tagTo blk w false) [.vec reg lane (BitVec.ofNat 32 word)] true
            else s.waitAt blk off .take la 0 lane reg
          | .ste =>
            if full || (s.block? blk).any (s.batchFull · off 4) then s.waitAt blk off .ste la val lane reg
            else .ok ((s.winStore blk off (bytesOf 4 (BitVec.ofNat 64 val))).tagTo blk w true) [] true
          | .stf => .ok ((s.winStore blk off (bytesOf 4 (BitVec.ofNat 64 val))).tagTo blk w true) [] true
          | .set => .ok (s.tagTo blk w true) [] true
          | .clr => .ok (s.tagTo blk w false) [] true
          | .rd => .ok s [.vec reg lane (if full then 1 else 0)] true

/-- Held accesses of a fragment slot leave their words. -/
def State.withdrawSlot (s : State) (k : GroupKey) (slot : Bool) : State :=
  { s with blocks := s.blocks.map fun b => { b with waitQ := b.waitQ.filter fun w => match w.who with
      | .lane g sl _ _ => !(g = k && sl = slot)
      | .sub _ => true } }

end Sys2Proof.Machine
end

