-- ==== Sys2Proof/Machine/Global.lean ====
section
/-! DEFINITION. Global loads and stores, spills, prefetch, uniform loads and stores, fences and cache maintenance (R346,
R347, R352, R354, R355). -/

namespace Sys2Proof.Machine

/-- R346. -/
def execLd (t o : BitVec 7) (b : BitVec 6) (n r : BitVec 2) (s : State) : Out := (s.globalLoad t o b n r 0).out

/-- R346. -/
def execSt (t o : BitVec 7) (b : BitVec 6) (n r : BitVec 2) (s : State) : Out := (s.globalStore t o b n r 0).out

/-- R346, R248. -/
def execLdx (t o : BitVec 7) (b : BitVec 6) (n r : BitVec 2) (lit : BitVec 32) (s : State) : Out :=
  (s.globalLoad t o b n r lit).out

/-- R346, R248. -/
def execStx (t o : BitVec 7) (b : BitVec 6) (n r : BitVec 2) (lit : BitVec 32) (s : State) : Out :=
  (s.globalStore t o b n r lit).out

/-! ### Spill and fill (R354) -/

def State.spillAddr (s : State) (o : BitVec 7) (b : BitVec 6) (l i : Nat) : W64 :=
  s.uread 1 b.toNat + 4 * (s.vread 1 o.toNat l).setWidth 64 + BitVec.ofNat 64 (4 * Config.gwidth * i)

/-- R354. -/
def execSpill (t o : BitVec 7) (b : BitVec 6) (n : BitVec 2) (s : State) : Out :=
  (s.guardMem { vs := memRegs t o false (countOf n), us := [b.toNat] } true true
    (State.beats s.frag.mask (fun i l s' => s'.storeAt 4 (drawIx (11 + i) 0 l) (s.spillAddr o b l i)
        (s.storeVal s.frag.mask (fun i l => s.spillAddr o b l i) (fun i l => s.laneVal (beatReg t false i) l false) i l)
        s.storeSince)
      (fun s' _ _ =>
        .ok ((List.range (countOf n)).foldl (fun s' i =>
          s'.clearPoisonOf ((lanesOf s.frag.mask).map fun l => s.spillAddr o b l i) 4) s').advance)
      (s.beatsLeft (countOf n)) s s.frag.done [] 0)).out

/-- R354. -/
def execFill (t o : BitVec 7) (b : BitVec 6) (n : BitVec 2) (s : State) : Out :=
  (s.guardMem { vs := memRegs t o false (countOf n), us := [b.toNat] } true true
    (State.beats s.frag.mask (fun i l s' => s'.loadAt s.l1Held 4 (drawIx (11 + i) 0 l) (s.spillAddr o b l i)
        (laneWrites (beatReg t false i) l false))
      (fun s' ws miss => s'.finishLoad false s.frag.mask ws miss)
      (s.beatsLeft (countOf n)) s.countLoad s.frag.done [] s.missed)).out

/-! ### Prefetch (R355) -/

/-- A line brought into L1 for an HC or SC page; one that would wait is dropped. None where the translation fails, which
drops the lane. -/
def State.prefetchLine (s : State) (ix : Nat) (gva : W64) : Option State :=
  match s.reach Kind.load 1 gva with
  | .mem t ppa s' =>
    if s'.versioned t ppa || t.coh = 2 then
      some (if s'.modeHold s.coreKey s.pid (ppa / 64) .none ≠ .none then s'
        else (s'.modeCheck s.coreKey s.pid (ppa / 64) .none).homeCopies s.pid ppa t.coh t.ver)
    else match s'.gRead t ppa 1 ix with
      | .data _ _ s'' => some s''
      | .poison s'' => some s''
      | .hold _ _ => some s
  | .flt _ _ => none
  | _ => some s

/-- The lines of a lane, as far as their translations hold. -/
def State.prefetchLane (s : State) (ix : Nat) (a : W64) : Nat → State
  | 0 => s
  | n + 1 => match s.prefetchLine ix a with
    | some s => s.prefetchLane ix (a + 64) n
    | none => s

/-- R355. -/
def execPrf (o : BitVec 7) (b : BitVec 6) (n : BitVec 2) (s : State) : Out :=
  (s.guardMem { vs := [o.toNat], us := [b.toNat], cc := s.guardReads } true true
    (.ok ((lanesOf s.active).foldl (fun s' l =>
      s'.prefetchLane (drawIx 11 0 l) (s.ea o b 0 l &&& ~~~63) (countOf n)) s).advance)).out

/-! ### Uniform loads and stores (R347) -/

/-- The base is local-form (R342). -/
def localForm (a : W64) : Bool := fld a 63 32 = 0xFFFFFFFF

/-- A value of the type as a uniform register takes it: sign-extended for an i-type. -/
def extendTy (ty n : Nat) (v : Nat) : W64 :=
  if (intTy ty).elim false (·.signed) then (BitVec.ofNat (8 * n) v).signExtend 64 else BitVec.ofNat 64 v

/-- A single access ends: the fragment has no lanes to report (R347). Its result waits to be written; `hit` tells whether the
L1 served it. -/
def LaneEnd.single (e : LaneEnd) (k : State → Bool → Res) : Res :=
  match e with
  | .ok s ws hit => k (s.deferLanes (ws.map (⟨0, false, ·⟩))) hit
  | .okVer s ws => k (s.deferLanes (ws.map (⟨0, true, ·⟩))) false
  | .flt f s => s.failWith f 0 0
  | .hold h s => .ok (s.holdAt h (waitOf h) 0 0)
  | .abort s => .ok s

/-- R347. -/
def execLdu (t : BitVec 6) (b : BitVec 4) (r : BitVec 2) (s : State) : Out :=
  let n := typeBits s.ty / 8
  let a := s.uread 1 b.toNat
  let put := fun v => [ResWrite.uni t.toNat (extendTy s.ty n v)]
  (s.guardMem { us := [t.toNat, b.toNat] } (loadOrder r) (typeBits s.ty ≠ 4)
    (if localForm a then
      (s.localLoadAt n (a.setWidth 32) put).single fun s _ => .ok s.advance
    else (s.countLoad.loadAt s.l1Held n (drawIx 11 0 0) a put).single fun s _ => .ok s.advance)).out

/-- R347. -/
def execStu (t : BitVec 6) (b : BitVec 4) (r : BitVec 2) (s : State) : Out :=
  let n := typeBits s.ty / 8
  let a := s.uread 1 b.toNat
  let v := (s.uread 0 t.toNat).toNat % 2 ^ (8 * n)
  (s.guardMem { us := [t.toNat, b.toNat] } (storeOrder r) (typeBits s.ty ≠ 4)
    ((if localForm a then s.localStoreAt n (a.setWidth 32) v else s.storeAt n (drawIx 11 0 0) a v none).single
      fun s _ => .ok s.advance)).out

/-! ### Fences (R176, R352) -/

/-- A fence orders accesses that this machine performs in order: it advances. Kinds other than 1, 2 and 3 do not decode
(R352). -/
def execFence (_i : BitVec 12) (s : State) : Out := (Res.ok s.advance).out

/-! ### Cache maintenance (R352) -/

/-- Lines of a range in ascending order with their translations; stops at the first page whose translation faults, and
before a line for which `stays` gives a wait. The translation is made once a page. -/
def State.eachLine (s : State) (gva : W64) (len : Nat) (stays : State → Nat → Hold) (f : State → Nat → State) : LOut :=
  let first := gva.toNat / 64
  let n := if len = 0 then 0 else (gva.toNat + len - 1) / 64 + 1 - first
  let pages := if n = 0 then 0 else (first + n - 1) / 64 + 1 - first / 64
  (List.range pages).foldl (fun acc i =>
    match acc with
    | .ok s =>
      let page := first / 64 + i
      let a : W64 := BitVec.ofNat 64 (4096 * page)
      match s.translate s.coreKey (s.ask Kind.load) a with
      | .ok _ ppa s =>
        (List.range 64).foldl (fun acc j =>
          match acc with
          | .ok s =>
            let ln := 64 * page + j
            if first ≤ ln && ln < first + n then
              match stays s (ppa / 64 + j) with
              | .none => .ok (f s (ppa / 64 + j))
              | h => .hold h (s.backStall h s.pid (ppa / 64 + j))
            else .ok s
          | e => e) (.ok s)
      | .flt c d s => .flt { cause := c, addr := a, detail := d } s
      | .held s => .hold .walk s
      | .lost s => .flt { cause := Cause.shutter, addr := a } s
    | e => e) (.ok s)

/-- The shape of the maintenance functions: a length above 2³⁰ is refused, 0 covers nothing. -/
def State.maintain (s : State) (a b : BitVec 6) (stays : State → Nat → Hold) (f : State → Nat → State) : Res :=
  let len := (s.uread 1 b.toNat).toNat
  s.guardRegs [] [a.toNat, b.toNat] false false
    (if 2 ^ 30 < len then .flt s { cause := Cause.illegalOperand }
    else match s.eachLine (s.uread 0 a.toNat) len stays f with
      | .ok s => .ok s.advance
      | .hold h s => .ok (s.holdAt h .waitMem 0 0)
      | .flt x s => .flt s x)

/-- The line's write-back must wait. -/
def State.lineHold (s : State) (ln : Nat) : Hold := s.l1Hold s.coreKey s.pid ln

/-- R352. -/
def execCwb (a b : BitVec 6) (s : State) : Out :=
  (s.maintain a b State.lineHold fun s ln => s.cleanL1 s.coreKey s.pid ln).out

/-- R352: SC lines are dropped with their dirty bytes; HC lines stay. -/
def execCinv (a b : BitVec 6) (s : State) : Out :=
  (s.maintain a b (fun _ _ => .none) fun s ln =>
    match (s.core s.coreKey).l1At s.pid ln with
    | some l => if l.isHc then s else s.onCore s.coreKey (·.dropL1 s.pid ln)
    | none => s).out

/-- R352. -/
def execCwbinv (a b : BitVec 6) (s : State) : Out := (s.maintain a b State.lineHold fun s ln => s.evictL1 s.coreKey s.pid ln).out

end Sys2Proof.Machine
end

