-- ==== Sys2Proof/Machine/Atomic.lean ====
section
/-! DEFINITION. Atomics and reductions (R119 to R121, R347, R350, R351). -/

namespace Sys2Proof.Machine

/-! ### Operations -/

inductive AtomOp where
  | add | min | max | and | or | xor | exch | cas | fadd | faddp
deriving DecidableEq, Repr

/-- The lanes of one address are performed one at a time (R119). -/
def AtomOp.oneByOne : AtomOp → Bool
  | .exch => true
  | .cas => true
  | _ => false

/-- Accepted types (R350). -/
def AtomOp.takes (op : AtomOp) (t : Nat) : Bool :=
  match op with
  | .add => wholeTypes t
  | .min => wholeTypes t
  | .max => wholeTypes t
  | .fadd => t = 0x0A
  | .faddp => t = 0x08 || t = 0x09
  | _ => wholeTypes t || t = 0x0A

/-- The FP32 add of R119: rne, no flush. -/
def fadd32 (a b : Nat) : Nat :=
  (tyF32.round ⟨Rnd.rne, 0, 1, false⟩ (FVal.add false (tyF32.decode a) (tyF32.decode b))).bits

/-- The packed add of R323 under rne and the overflow entry captured at issue; of one element (R347), the upper one is zero. -/
def addPacked (ty : Nat) (ovt : BitVec 16) (ftz : Bool) (a b : Nat) : Nat :=
  let t := (floatTy ty).getD tyF16
  let c : RoundCtl := ⟨Rnd.rne, 0, ovtEntry ovt t, ftz⟩
  let one := fun (i : Nat) =>
    (t.round c (FVal.add false (t.input ftz (a / 2 ^ (16 * i) % 2 ^ 16)) (t.input ftz (b / 2 ^ (16 * i) % 2 ^ 16)))).bits
  one 0 + one 1 * 2 ^ 16

/-- What an atomic's arithmetic depends on; `w` bits of memory take part. -/
structure AtomCtx where
  op : AtomOp
  ty : Nat
  ovt : BitVec 16
  ftz : Bool
  w : Nat
deriving DecidableEq, Repr

/-- `combine(op, old, operand)`; exch gives the operand. -/
def AtomCtx.combine (c : AtomCtx) (old v : Nat) : Nat :=
  let t : IntTy := ⟨c.w, (bitTy c.ty).signed⟩
  match c.op with
  | .add => (old + v) % 2 ^ c.w
  | .min => if t.read v < t.read old then v else old
  | .max => if t.read old < t.read v then v else old
  | .and => old &&& v
  | .or => old ||| v
  | .xor => old ^^^ v
  | .exch => v
  | .cas => v
  | .fadd => fadd32 old v
  | .faddp => addPacked c.ty c.ovt c.ftz old v

/-- `identity(op)` (R119). -/
def AtomCtx.identity (c : AtomCtx) : Nat :=
  let t : IntTy := ⟨c.w, (bitTy c.ty).signed⟩
  match c.op with
  | .and => 2 ^ c.w - 1
  | .min => wrap c.w t.hi
  | .max => wrap c.w t.lo
  | _ => 0

/-- The combined operand of lanes in ascending order, and what each lane's return is combined from. -/
def AtomCtx.aggregate (c : AtomCtx) : Nat → List (Nat × Nat) → Nat × List (Nat × Nat)
  | agg, [] => (agg, [])
  | agg, (l, v) :: r =>
    let q := c.aggregate (c.combine agg v) r
    (q.1, (l, agg) :: q.2)

/-! ### One address -/

/-- One read-modify-write: the value it finds, and whether a transaction found it in a versioned line (R144). -/
inductive RmwOut where
  | ok (old : Nat) (ver : Bool) (s : State)
  | flt (f : Flt) (s : State)
  | hold (h : Hold) (s : State)
  | abort (s : State)

/-- The read-modify-write of `n` bytes in a line of memory, near in the own L1 or far at the home (R120). `f` gives the
new value, if any is written. Of a versioned line, what follows the timestamp `since` is one commit (R148). -/
def State.rmwMem (s : State) (t : Translation) (ppa n ix : Nat) (gva : W64) (returns : Bool) (f : Nat → Option Nat)
    (since : Option Nat := none) : RmwOut :=
  let p := s.pid
  let k := s.coreKey
  let ln := ppa / 64
  let me := s.cur.info.key
  let bad := fun (s : State) => RmwOut.flt { cause := Cause.poison, addr := gva, deferred := true } (s.poisonEvent p ppa)
  let h := s.modeHold k p ln (s.homeMode t ppa)
  if h ≠ .none then .hold h (s.backStall h p ln)
  else if s.versioned t ppa then
    let s := (s.evictL1 k p ln).recallHc none p ln
    let r := s.homeRead p t.key ppa n (if s.cur.tx.opened then s.cur.reader else .plain)
    if r.2 then bad s
    else
      let old := natOfBytes r.1
      let tx := s.cur.tx.opened
      let new := match f old with
        | some v => some v
        | none => if tx then some old else none
      match new with
      | none => .ok old false ((s.traffic k p ppa n ix t.coh me).countL1 false)
      | some v =>
        match s.groupWrite me p t.key ppa gva t.ver (bytesOf n (BitVec.ofNat 64 v)) since with
        | .ok s => .ok old tx ((s.traffic k p ppa n ix t.coh me).countL1 false)
        | .wait h => .hold (match h with
            | .bucket _ => .bucket gva
            | h => h) s
        | .lost => .flt { cause := Cause.shutter, addr := gva } s
        | .pool s r => .flt { cause := Cause.versionPool, addr := gva, detail := BitVec.ofNat 64 r } s
        | .abort s st => .abort (s.txAbort me st 0)
  else
    let near := returns && t.coh = 0 && modeScope s.mode ≠ 5 && match (s.core k).l1At p ln with
      | some (.hc _ _ .exclusive) => true
      | some (.hc _ _ .modified) => true
      | _ => false
    let s := if near then s else (s.modeCheck k p ln (s.homeMode t ppa)).recallHc none p ln
    if s.anyPoison p ppa n || (near && (s.core k).badIn p ln (byteMask ppa n)) then bad s
    else
      let old := natOfBytes (s.bytesAt p t.key ppa n)
      let s := match f old with
        | some v => s.memWrite p t.key ppa (bytesOf n (BitVec.ofNat 64 v))
        | none => s
      if near then .ok old false (((s.onCore k (·.putL1 (.hc p ln .modified))).chargeCur 5 n).countL1 true)
      else .ok old false ((s.traffic k p ppa n ix t.coh me).countL1 false)

/-- An atomic of host memory: add, exch or cas of 32 or 64 bits (R120). -/
def AtomOp.atHost : AtomOp → Bool
  | .add => true
  | .exch => true
  | .cas => true
  | _ => false

/-- A read-modify-write at what an address reaches. An aligned atomic of 8 bytes on a device register reads it and writes it,
which R201 neither allows nor refuses (DESIGN CHOICE, log 40). -/
def State.rmwAt (s : State) (r : Reach) (op : AtomOp) (n ix : Nat) (gva : W64) (returns : Bool) (f : Nat → Option Nat)
    (since : Option Nat := none) : RmwOut :=
  match r with
  | .flt x s => .flt x s
  | .hold h s => .hold h s
  | .reg t _ =>
    let old := (s.regRead t).toNat
    .ok old false ((match f old with
      | some v => s.regWrite t (BitVec.ofNat 64 v)
      | none => s).countL1 false)
  | .host ppa _ =>
    if op.atHost && 4 ≤ n then
      let old := natOfBytes (s.hostRead ppa n)
      .ok old false ((match f old with
        | some v => s.hostWrite ppa (bytesOf n (BitVec.ofNat 64 v))
        | none => s).countL1 false)
    else .flt { cause := Cause.illegalOperand, addr := gva } s
  | .mem t ppa _ => s.rmwMem t ppa n ix gva returns f since

/-! ### One instruction -/

/-- An atomic's operands and returns by lane. -/
structure AtomForm where
  c : AtomCtx
  n : Nat
  returns : Bool
  /-- operand and, for cas, new value -/
  val : Nat → Nat × Nat
  put : Nat → Nat → List ResWrite
  /-- one atomic of the fragment, which the aggregator does not touch (R347, R351) -/
  alone : Bool := false

/-- A lane's step on an old value. -/
def AtomForm.step (a : AtomForm) (l old : Nat) : Option Nat :=
  if a.c.op = .cas then (if old = (a.val l).1 then some (a.val l).2 else none) else some (a.c.combine old (a.val l).1)

def Beat.add (b : Beat) (s : State) (ls : List Nat) (ws : List LaneRes) : Beat :=
  { b with s := s, done := ls.foldl (fun m l => m ||| (1#32 <<< l)) b.done, ws := b.ws ++ ws }

/-- The outcome of one address for its lanes. -/
def Beat.rmw (b : Beat) (r : RmwOut) (ls : List Nat) (ret : Nat → List (Nat × ResWrite)) : Beat :=
  match r with
  | .ok old ver s => b.add s ls ((ret old).map fun x => ⟨x.1, ver, x.2⟩)
  | .flt f s => b.note (ls.headD 0) s f
  | .hold h s => { b with s := s, held := b.held.orElse fun _ => some h }
  | .abort s => { b with s := s, gone := true }

/-- The lanes of one address (R119): aggregated, or one at a time. -/
def Beat.address (b : Beat) (a : AtomForm) (ls : List Nat) (go : State → (Nat → Option Nat) → RmwOut) : Beat :=
  if b.gone then b
  else if a.c.op.oneByOne || a.alone then
    ls.foldl (fun b l => if b.gone then b else
      b.rmw (go b.s (a.step l)) [l] fun old => if a.returns then (a.put l old).map (l, ·) else []) b
  else
    let q := a.c.aggregate a.c.identity (ls.map fun l => (l, (a.val l).1))
    b.rmw (go b.s fun old => some (a.c.combine old q.1)) ls fun old =>
      if a.returns then q.2.flatMap fun x => (a.put x.1 (a.c.combine old x.2)).map (x.1, ·) else []

/-- Distinct addresses with their lanes in ascending order. -/
def byAddress {α : Type} [DecidableEq α] (l : List (Nat × α)) : List (α × List Nat) :=
  (l.map (·.2)).eraseDups.map fun a => (a, (l.filter (·.2 = a)).map (·.1))

/-- Eligible lanes (R119): not done, and translated. A lane that fails or is held is noted in the beat. -/
def Beat.eligible (b : Beat) (n : Nat) (ls : List (Nat × W64)) : Beat × List (Nat × W64) :=
  ls.foldl (fun q x =>
    match q.1.s.reach Kind.atomic n x.2 with
    | .flt f s => (q.1.note x.1 s f, q.2)
    | .hold h s => ({ q.1 with s := s, held := q.1.held.orElse fun _ => some h }, q.2)
    | .reg _ s => ({ q.1 with s := s }, q.2 ++ [x])
    | .host _ s => ({ q.1 with s := s }, q.2 ++ [x])
    | .mem _ _ s => ({ q.1 with s := s }, q.2 ++ [x])) (b, [])

/-- Every address of the eligible lanes. -/
def Beat.atomics (b : Beat) (a : AtomForm) (ls : List (Nat × W64)) : Beat :=
  let q := b.eligible a.n ls
  (byAddress q.2).foldl (fun b x =>
    let since := b.s.storeSince
    b.address a x.2 fun s f =>
      s.rmwAt (s.reach Kind.atomic a.n x.1) a.c.op a.n (drawIx 11 0 (x.2.headD 0)) x.1 a.returns f since) q.1

/-- A local address as an aggregated read-modify-write. -/
def localRmw (n : Nat) (la : W32) (s : State) (f : Nat → Option Nat) : RmwOut :=
  match s.localAddr la n false true with
  | .ok (.win blk off) =>
    let old := natOfBytes (s.winBytes blk off n)
    match s.localRmwAt n la f fun _ => [] with
    | .ok s _ _ => .ok old false s
    | .okVer s _ => .ok old true s
    | .flt f s => .flt f s
    | .hold h s => .hold h s
    | .abort s => .abort s
  | .ok (.reg _ _ _ _) => .flt { cause := Cause.illegalOperand, addr := laOf la } s
  | .error c => .flt { cause := c, addr := laOf la } s

/-- The same over local addresses (R83). -/
def Beat.localAtomics (b : Beat) (a : AtomForm) (ls : List (Nat × W32)) : Beat :=
  (byAddress ls).foldl (fun b x => b.address a x.2 fun s f => localRmw a.n x.1 s f) b

def State.atomCtx (s : State) (op : AtomOp) (n : Nat) : AtomCtx := ⟨op, s.ty, s.operands.ovt, modeFtz s.mode, 8 * n⟩

/-- Codes of a value returned (R351). -/
def AtomCtx.codes (c : AtomCtx) (old cmp : Nat) : Codes :=
  codesOf false (if c.op = .cas then old = cmp else old = 0) (bitOf old (c.w - 1)) false

/-- Registers of the operand: one, a pair, and for cas twice as many, aligned as R256 asks. -/
def AtomOp.regs (op : AtomOp) (t : BitVec 7) (wide : Bool) : List Nat :=
  (List.range ((if wide then 2 else 1) * if op = .cas then 2 else 1)).map (t.toNat + ·)

/-- `atom` and `red` (R351). -/
def State.atomOp (s : State) (op : AtomOp) (returns : Bool) (t o : BitVec 7) (b : BitVec 4) (r : BitVec 2) : Res :=
  let wide := s.wideTy
  let n := if wide then 8 else 4
  let c := s.atomCtx op n
  let k := if wide then 2 else 1
  let codes := returns && s.ccw
  let rs := op.regs t wide
  let val := fun l => (s.laneVal t.toNat l wide, if op = .cas then s.laneVal (t.toNat + k) l wide else 0)
  let form : AtomForm := {
    c := c, n := n, returns := returns, val := val
    put := fun l old => laneWrites t.toNat l wide old ++ if codes then [.codes l (c.codes old (val l).1)] else [] }
  let align := t.toNat % (if wide then rs.length else 1) = 0
  match s.guardMem { vs := o.toNat :: rs, us := [b.toNat], cc := s.guardReads || codes } (returns || storeOrder r) (op.takes s.ty)
      (.ok s) with
  | .flt s f => .flt s f
  | .ok _ =>
    if !align then .flt s { cause := Cause.illegalOperand }
    else
      let left := lanesOf (s.active &&& ~~~s.frag.done)
      let ea := s.ea o (b.setWidth 6) 0
      let b0 := Beat.mk s s.frag.done [] 0 none none false
      let b1 := if localForm (s.uread 1 b.toNat) then b0.localAtomics form (left.map fun l => (l, (ea l).setWidth 32))
        else b0.atomics form (left.map fun l => (l, ea l))
      match b1.stop 0 with
      | some r => r
      | none => .ok (b1.s.deferLanes b1.ws).advance

/-- `atomu` (R347, R351): one atomic for the fragment, on one element of TYPE. -/
def State.atomuOp (s : State) (op : AtomOp) (t : BitVec 6) (b : BitVec 4) : Res :=
  let n := typeBits s.ty / 8
  let c := s.atomCtx op n
  let v := (s.uread 0 t.toNat).toNat % 2 ^ c.w
  let v2 := if op = .cas then (s.uread 2 (t.toNat + 1)).toNat % 2 ^ c.w else 0
  let a := s.uread 1 b.toNat
  let form : AtomForm := {
    c := c, n := n, returns := true, val := fun _ => (v, v2)
    put := fun _ old => .uni t.toNat (extendTy s.ty n old) :: if s.ccw then [.flags (c.codes old v)] else []
    alone := true }
  s.guardMem { us := t.toNat :: b.toNat :: (if op = .cas then [t.toNat + 1] else []), fl := s.ccw } true
    (op.takes s.ty && !(op = .cas && t = 63))
    (let b0 := Beat.mk s 0 [] 0 none none false
     let b1 := if localForm a then b0.localAtomics form [(0, a.setWidth 32)] else b0.atomics form [(0, a)]
     let b1 := { b1 with done := 0 }
     match b1.stop 0 with
     | some r => r
     | none => .ok (b1.s.deferLanes b1.ws).advance)

/-! ### The instructions -/

/-- R351. -/
def execAtomAdd (t o : BitVec 7) (b : BitVec 4) (r : BitVec 2) (s : State) : Out := (s.atomOp .add true t o b r).out

/-- R351. -/
def execAtomMin (t o : BitVec 7) (b : BitVec 4) (r : BitVec 2) (s : State) : Out := (s.atomOp .min true t o b r).out

/-- R351. -/
def execAtomMax (t o : BitVec 7) (b : BitVec 4) (r : BitVec 2) (s : State) : Out := (s.atomOp .max true t o b r).out

/-- R351. -/
def execAtomAnd (t o : BitVec 7) (b : BitVec 4) (r : BitVec 2) (s : State) : Out := (s.atomOp .and true t o b r).out

/-- R351. -/
def execAtomOr (t o : BitVec 7) (b : BitVec 4) (r : BitVec 2) (s : State) : Out := (s.atomOp .or true t o b r).out

/-- R351. -/
def execAtomXor (t o : BitVec 7) (b : BitVec 4) (r : BitVec 2) (s : State) : Out := (s.atomOp .xor true t o b r).out

/-- R351. -/
def execAtomExch (t o : BitVec 7) (b : BitVec 4) (r : BitVec 2) (s : State) : Out := (s.atomOp .exch true t o b r).out

/-- R351. -/
def execAtomCas (t o : BitVec 7) (b : BitVec 4) (r : BitVec 2) (s : State) : Out := (s.atomOp .cas true t o b r).out

/-- R351. -/
def execAtomFadd (t o : BitVec 7) (b : BitVec 4) (r : BitVec 2) (s : State) : Out := (s.atomOp .fadd true t o b r).out

/-- R351. -/
def execAtomFaddp (t o : BitVec 7) (b : BitVec 4) (r : BitVec 2) (s : State) : Out := (s.atomOp .faddp true t o b r).out

/-- R351: performed at the home or the store, returns nothing. -/
def execRedAdd (t o : BitVec 7) (b : BitVec 4) (r : BitVec 2) (s : State) : Out := (s.atomOp .add false t o b r).out

/-- R351: performed at the home or the store, returns nothing. -/
def execRedMin (t o : BitVec 7) (b : BitVec 4) (r : BitVec 2) (s : State) : Out := (s.atomOp .min false t o b r).out

/-- R351: performed at the home or the store, returns nothing. -/
def execRedMax (t o : BitVec 7) (b : BitVec 4) (r : BitVec 2) (s : State) : Out := (s.atomOp .max false t o b r).out

/-- R351: performed at the home or the store, returns nothing. -/
def execRedAnd (t o : BitVec 7) (b : BitVec 4) (r : BitVec 2) (s : State) : Out := (s.atomOp .and false t o b r).out

/-- R351: performed at the home or the store, returns nothing. -/
def execRedOr (t o : BitVec 7) (b : BitVec 4) (r : BitVec 2) (s : State) : Out := (s.atomOp .or false t o b r).out

/-- R351: performed at the home or the store, returns nothing. -/
def execRedXor (t o : BitVec 7) (b : BitVec 4) (r : BitVec 2) (s : State) : Out := (s.atomOp .xor false t o b r).out

/-- R351: performed at the home or the store, returns nothing. -/
def execRedFadd (t o : BitVec 7) (b : BitVec 4) (r : BitVec 2) (s : State) : Out := (s.atomOp .fadd false t o b r).out

/-- R351: performed at the home or the store, returns nothing. -/
def execRedFaddp (t o : BitVec 7) (b : BitVec 4) (r : BitVec 2) (s : State) : Out := (s.atomOp .faddp false t o b r).out

/-- R351, R347. -/
def execAtomuAdd (t : BitVec 6) (b : BitVec 4) (_r : BitVec 2) (s : State) : Out := (s.atomuOp .add t b).out

/-- R351, R347. -/
def execAtomuMin (t : BitVec 6) (b : BitVec 4) (_r : BitVec 2) (s : State) : Out := (s.atomuOp .min t b).out

/-- R351, R347. -/
def execAtomuMax (t : BitVec 6) (b : BitVec 4) (_r : BitVec 2) (s : State) : Out := (s.atomuOp .max t b).out

/-- R351, R347. -/
def execAtomuAnd (t : BitVec 6) (b : BitVec 4) (_r : BitVec 2) (s : State) : Out := (s.atomuOp .and t b).out

/-- R351, R347. -/
def execAtomuOr (t : BitVec 6) (b : BitVec 4) (_r : BitVec 2) (s : State) : Out := (s.atomuOp .or t b).out

/-- R351, R347. -/
def execAtomuXor (t : BitVec 6) (b : BitVec 4) (_r : BitVec 2) (s : State) : Out := (s.atomuOp .xor t b).out

/-- R351, R347. -/
def execAtomuExch (t : BitVec 6) (b : BitVec 4) (_r : BitVec 2) (s : State) : Out := (s.atomuOp .exch t b).out

/-- R351, R347. -/
def execAtomuCas (t : BitVec 6) (b : BitVec 4) (_r : BitVec 2) (s : State) : Out := (s.atomuOp .cas t b).out

/-- R351, R347. -/
def execAtomuFadd (t : BitVec 6) (b : BitVec 4) (_r : BitVec 2) (s : State) : Out := (s.atomuOp .fadd t b).out

/-- R351, R347. -/
def execAtomuFaddp (t : BitVec 6) (b : BitVec 4) (_r : BitVec 2) (s : State) : Out := (s.atomuOp .faddp t b).out

end Sys2Proof.Machine
end

