-- ==== Sys2Proof/Machine/Control.lean ====
section
/-! DEFINITION. Control flow, loops, mode and system instructions (R266 to R284). -/

namespace Sys2Proof.Machine

/-! ### Shared shapes -/

/-- A fixed-latency uniform result and the next instruction. -/
def State.finishU (s : State) (d : BitVec 6) (v : W64) : Res := .ok (s.uniform d v none).advance

/-- The level check of privileged instructions (R259). -/
def State.privileged (s : State) (k : Res) : Res := check s.cur.priv { cause := Cause.privilege } s k

/-- A branch target: a word offset from the branch's own PC (R246). -/
def State.target {w : Nat} (s : State) (o : BitVec w) : W64 := s.issue.pc + 4 * o.signExtend 64

/-- A register target, checked for alignment, with the TADDR of its fault (R268, R282, R391). -/
def aligned (t addr : W64) (s : State) (k : Res) : Res :=
  check (t.setWidth 2 = 0) { cause := Cause.misaligned, addr := addr } s k

def illegal (s : State) : Res := .flt s { cause := Cause.illegalOperand }

/-! ### System instructions -/

/-- R277. -/
def execNop (s : State) : Out := (Res.ok s.advance).out

/-- `exit` (R278): the slot frees, a miss split ends (R210), outstanding results of the lanes are discarded. -/
def State.exitLanes (s : State) : State :=
  let m := s.frag.mask
  let s := s.onCur fun g => ((g.discard m).endMissSplit).setFrag s.issue.slot .none
  (s.exitIfEmpty s.cur.info.key).onBlock s.cur.info.key.blk fun b =>
    { b with lastExit := some (s.cur.info.key.grp, s.issue.slot, s.issue.pc, m) }

/-- R278. -/
def execExit (s : State) : Out := (check (!s.cur.tx.opened) { cause := Cause.illegalOperand } s (.ok s.exitLanes)).out

/-- R279. -/
def execTrap (i : BitVec 12) (s : State) : Out :=
  (Res.flt s { cause := Cause.software, addr := i.signExtend 64, after := true }).out

/-- R279. -/
def execBrk (i : BitVec 12) (s : State) : Out :=
  (Res.flt s { cause := Cause.breakpoint, addr := i.signExtend 64, after := true }).out

/-- The fragment of a slot goes onto the stack and the former top record into the slot. -/
def Group.exchange (g : Group) (slot : Bool) : Group :=
  match g.stack with
  | [] => g
  | top :: rest => (Group.push { g with stack := rest } (g.frag slot)).setFrag slot top

/-- R280. -/
def execYield (s : State) : Out :=
  (Res.ok (
    if s.cur.stack.isEmpty then
      let s' := s.advance
      if s.cur.canIssue (!s.issue.slot) then s'.onFrag fun f => { f with yielded := true } else s'
    else s.advance.onCur (·.exchange s.issue.slot))).out

/-- R281: under a stop request that is pending the slot counts as stopped at once (R219). -/
def execSleep (i : BitVec 12) (s : State) : Out :=
  (Res.ok (s.advance.onFrag fun f =>
    { f with sleeping := i ≠ 0 && !s.cur.stopReq, halted := f.halted || (i ≠ 0 && s.cur.stopReq) })).out

/-- R282. -/
def execEret (s : State) : Out :=
  (s.privileged (aligned (s.cur.trap s.issue.slot).tpc 0 s (.ok s.eret))).out

/-! ### MODE -/

/-- MODE with the selected fields replaced (R254): mask bits 0 to 6 select TYPE, RND, GUARD, CCW, SCOPE, FTZ, SAT. -/
def mergeMode (old lit : W32) (mask : BitVec 12) : W32 :=
  [(0, 4, 0), (1, 7, 5), (2, 11, 8), (3, 12, 12), (4, 15, 13), (5, 16, 16), (6, 17, 17)].foldl
    (fun (m : W32) (f : Nat × Nat × Nat) =>
      if mask.getLsbD f.1 then setFld m f.2.1 f.2.2 (fld lit f.2.1 f.2.2) else m) old

/-- A selected field holds a reserved code. -/
def reservedMode (lit : W32) (mask : BitVec 12) : Bool :=
  (mask.getLsbD 0 && 0x11 < fld lit 4 0) || (mask.getLsbD 1 && 5 < fld lit 7 5) ||
  (mask.getLsbD 2 && fld lit 11 8 = 15) || (mask.getLsbD 4 && 5 < fld lit 15 13)

/-- R254. -/
def execSetm (d : BitVec 6) (i : BitVec 12) (lit : BitVec 32) (s : State) : Out :=
  (s.guardAll { us := [d.toNat] } true
    (if fld lit 31 18 ≠ 0 || reservedMode lit i then illegal s
     else ({ s with cur := { s.cur with mode := mergeMode s.cur.mode lit i } }).finishU d (s.cur.mode.setWidth 64))).out

/-- R254. -/
def execGetm (d : BitVec 6) (s : State) : Out :=
  (s.guardAll { us := [d.toNat] } true (s.finishU d (s.cur.mode.setWidth 64))).out

/-! ### Special registers (R204, R255) -/

/-- A user-level register; the per-lane ones are none. -/
def State.userSr (s : State) (n : Nat) : Option W64 :=
  let i := s.cur.info
  match n with
  | 0x000 => some (BitVec.ofNat 64 Config.gwidth)
  | 0x003 => some (BitVec.ofNat 64 i.key.grp)
  | 0x004 => some (BitVec.ofNat 64 (i.key.blk.blk % 2 ^ 32))
  | 0x005 => some (BitVec.ofNat 64 (i.gang % 2 ^ 32 + i.rank * 2 ^ 32))
  | 0x006 => some (BitVec.ofNat 64 i.core)
  | 0x007 => some (BitVec.ofNat 64 i.slice)
  | 0x008 => some (BitVec.ofNat 64 i.key.blk.part)
  | 0x010 => some (BitVec.ofNat 64 (s.cycle - s.cur.clkBase))
  | 0x011 => some (BitVec.ofNat 64 (s.part s.pid).vclock)
  | 0x020 => some i.iterBeg
  | 0x021 => some i.iterEnd
  | 0x022 => some i.fixup
  | _ => none

/-- A privileged register: the trap state of the issuing slot (R391). -/
def State.trapSr (s : State) (n : Nat) : Option W64 :=
  let t := s.cur.trap s.issue.slot
  match n with
  | 0x040 => some t.tpc
  | 0x041 => some (t.tcause.setWidth 64)
  | 0x042 => some t.taddr
  | 0x043 => some (t.tmask.setWidth 64)
  | 0x044 => some ((t.tmask >>> 64).setWidth 64)
  | 0x045 => some (t.tbeat.setWidth 64)
  | _ => none

/-- A write of a privileged register (R283): mask bits of lanes at or above GWIDTH are ignored. -/
def Trap.write (t : Trap) (n : Nat) (v : W64) : Option Trap :=
  match n with
  | 0x040 => some { t with tpc := v }
  | 0x041 => some { t with tcause := v.setWidth 8 }
  | 0x042 => some { t with taddr := v }
  | 0x043 => some { t with tmask := (v.setWidth 32).setWidth 128 }
  | 0x044 => some t
  | 0x045 => some { t with tbeat := v.setWidth 3 }
  | _ => none

/-- R283. -/
def execMovsr (d : BitVec 6) (i : BitVec 12) (s : State) : Out :=
  (s.guardAll { us := [d.toNat] } true
    (match s.userSr i.toNat with
     | some v => s.finishU d v
     | none =>
       match s.trapSr i.toNat with
       | some v => s.privileged (s.finishU d v)
       | none => illegal s)).out

/-- R283. -/
def execMovrs (a : BitVec 6) (i : BitVec 12) (s : State) : Out :=
  (s.guardAll { us := [a.toNat] } true
    (match (s.cur.trap s.issue.slot).write i.toNat (s.uread 0 a.toNat) with
     | some t => s.privileged (.ok (s.onCur (·.setTrap s.issue.slot t)).advance)
     | none => illegal s)).out

/-! ### The overflow table (R155, R284) -/

def ovtOk (v : W64) : Bool :=
  let f := fun lo => fld v (lo + 1) lo
  fld v 63 12 = 0 && f 0 ≠ 3 && f 2 ≠ 3 && f 4 ≠ 3 && f 6 ≠ 3 && f 4 ≠ 1 && f 8 = 0 && f 10 = 0

/-- R284. -/
def execLdovt (b : BitVec 6) (s : State) : Out :=
  (s.guardAll { us := [b.toNat] } true
    (s.privileged
      (if ovtOk (s.uread 0 b.toNat) then
        .ok (State.advance { s with cur := { s.cur with ovt := (s.uread 0 b.toNat).setWidth 16 } })
       else illegal s))).out

/-- R284. -/
def execRdovt (d : BitVec 6) (s : State) : Out :=
  (s.guardAll { us := [d.toNat] } true (s.finishU d (s.cur.ovt.setWidth 64))).out

/-! ### Branches (R266 to R269) -/

/-- R267. -/
def execBra (o : BitVec 24) (s : State) : Out := (Res.ok (s.jump (s.target o))).out

/-- R267. -/
def execBrc (c : BitVec 4) (o : BitVec 20) (s : State) : Out :=
  (s.guardAll { fl := c ≠ 0 } true
    (let t := condHolds c.toNat (s.flread 0)
     let s := s.onCur (·.outcome s.issue.slot t)
     .ok (if t then s.jump (s.target o) else s.advance))).out

/-- A call: the link, then one level deeper. -/
def State.callTo (s : State) (d : BitVec 6) (t : W64) : Res :=
  if s.frag.depth = 255 then .flt s { cause := Cause.reconvOverflow }
  else .ok (((s.uwrite d.toNat (s.issue.pc + 4)).jump t).onFrag fun f => { f with depth := f.depth + 1 })

/-- R267. -/
def execBrl (d : BitVec 6) (o : BitVec 18) (s : State) : Out :=
  (s.guardAll { us := [d.toNat] } true (s.callTo d (s.target o))).out

/-- R268. -/
def execJmp (b : BitVec 6) (s : State) : Out :=
  (s.guardAll { us := [b.toNat] } true (aligned (s.uread 0 b.toNat) (s.uread 0 b.toNat) s (.ok (s.jump (s.uread 0 b.toNat))))).out

/-- R268. -/
def execJal (d : BitVec 6) (b : BitVec 6) (s : State) : Out :=
  (s.guardAll { us := [d.toNat, b.toNat] } true
    (aligned (s.uread 0 b.toNat) 0 s (s.callTo d (s.uread 0 b.toNat)))).out

/-- R268. -/
def execRet (b : BitVec 6) (s : State) : Out :=
  (s.guardAll { us := [b.toNat] } true
    (aligned (s.uread 0 b.toNat) 0 s
      (if s.frag.depth = 0 then illegal s
       else .ok ((s.jump (s.uread 0 b.toNat)).onFrag fun f => { f with depth := f.depth - 1 })))).out

/-- The lanes of the fragment that take a branch (R269). -/
def State.takers (s : State) (c : BitVec 4) : Mask :=
  maskOf fun l => s.frag.mask.getLsbD l && condHolds c.toNat (s.ccread 0 l)

/-- A fragment split off, READY at `pc` (R209). -/
def Frag.part (f : Frag) (m : Mask) (pc : W64) : Frag :=
  { Frag.none with mask := m, pc := pc, depth := f.depth, st := .ready, ord := f.ord }

/-- R209: N stays in F's slot and T takes the other when it is FREE; otherwise the side with fewer lanes, T on a tie,
goes onto the stack. -/
def State.split (s : State) (t : Mask) (target : W64) : Res :=
  let f := s.frag
  let n := f.mask &&& ~~~t
  let ft := f.part t target
  let fn := f.part n (s.issue.pc + 4)
  let count := fun (s : State) => s.countGroup 2 1
  if !s.other.busy then .ok (count (s.onCur fun g => (g.setFrag s.issue.slot fn).setFrag (!s.issue.slot) ft))
  else if 64 ≤ s.cur.stack.length then .flt s { cause := Cause.reconvOverflow }
  else if popMask n < popMask t then .ok (count (s.onCur fun g => (g.push fn).setFrag s.issue.slot ft))
  else .ok (count (s.onCur fun g => (g.push ft).setFrag s.issue.slot fn))

/-- R269. -/
def execBrv (c : BitVec 4) (o : BitVec 20) (s : State) : Out :=
  (s.guardAll { cc := c ≠ 0 } true
    (let t := s.takers c
     if t = s.frag.mask then .ok ((s.onCur (·.outcome s.issue.slot true)).jump (s.target o))
     else if t = 0 then .ok (s.onCur (·.outcome s.issue.slot false)).advance
     else if s.cur.loopActive then illegal s
     else s.split t (s.target o))).out

/-! ### Reconvergence (R271) -/

/-- R271. -/
def execRcv (s : State) : Out := (Res.ok (s.onFrag fun f => { f with st := .waitRcv })).out

/-- R271. -/
def execJoin (s : State) : Out := (Res.ok (s.onFrag fun f => { f with st := .waitJoin })).out

/-! ### Hardware loops (R272 to R276) -/

/-- The body lies inside that of every active counter. -/
def Group.nests (g : Group) (start stop : W64) : Bool :=
  [0, 1, 2].all fun k => !(g.lc k).active || ((g.lc k).start ≤ start && stop ≤ (g.lc k).stop)

def Group.activeCount (g : Group) : Nat := ([0, 1, 2].filter fun k => (g.lc k).active).length

/-- R273. -/
def State.startLoop (s : State) (lc n : Nat) (len : BitVec 8) : Res :=
  let start := s.issue.pc + 4
  let stop := start + 4 * len.setWidth 64
  if 2 ^ 32 - 1 < n || (s.cur.lc lc).active || s.other.busy then illegal s
  else if !s.cur.nests start stop then illegal s
  else if n = 0 then .ok (s.jump (stop + 4))
  else
    .ok ((s.onCur fun g => g.setLc lc ⟨BitVec.ofNat 32 n, BitVec.ofNat 2 g.activeCount, len, start⟩).jump start)

/-- R273. -/
def execLoop (c : BitVec 2) (a : BitVec 6) (n : BitVec 8) (s : State) : Out :=
  (s.guardAll { us := [a.toNat] } true (s.startLoop c.toNat (s.uread 0 a.toNat).toNat n)).out

/-- R273. -/
def execLoopi (c : BitVec 2) (i : BitVec 14) (n : BitVec 8) (s : State) : Out := (s.startLoop c.toNat i.toNat n).out

/-- The counter and every counter nested deeper end. -/
def Group.endLoops (g : Group) (i : Nat) : Group :=
  let nest := (g.lc i).nest.toNat
  [0, 1, 2].foldl (fun g' k =>
    if k = i || nest < (g.lc k).nest.toNat then g'.setLc k { g.lc k with count := 0 } else g') g

/-- R276. -/
def execBrkl (i : BitVec 12) (s : State) : Out :=
  (if (s.cur.lc i.toNat).active then
    .ok ((s.onCur (·.endLoops i.toNat)).jump ((s.cur.lc i.toNat).stop + 4))
   else illegal s).out

/-- R276. -/
def execRdlc (d : BitVec 6) (i : BitVec 12) (s : State) : Out :=
  (s.guardAll { us := [d.toNat] } true (s.finishU d ((s.cur.lc i.toNat).count.setWidth 64))).out

/-- R276. -/
def execWrlc (i : BitVec 6) (b : BitVec 6) (s : State) : Out :=
  (s.guardAll { us := [b.toNat] } true
    (let v := s.uread 0 b.toNat
     if 2 ^ 32 - 1 < v.toNat || (!(s.cur.lc i.toNat).active && v ≠ 0) then illegal s
     else .ok (s.onCur fun g => g.setLc i.toNat { g.lc i.toNat with count := v.setWidth 32 }).advance)).out

end Sys2Proof.Machine
end

