-- ==== Sys2Proof/Machine/Device.lean ====
section
/-! DEFINITION. Reads and writes of agents other than a group's lanes: instruction-level reads of a group (R37), and
coherent accesses of queues, engines, ports and controllers at the homes (R115, R135, R148). -/

namespace Sys2Proof.Machine

/-! ### A read that belongs to an instruction as a whole -/

/-- `n` bytes, aligned to `n`, read as a relaxed load of the group (R362, R366, R371). -/
def State.instrRead (s : State) (n : Nat) (gva : W64) (k : List Byte → State → Res) : Res :=
  match s.reach Kind.load n gva with
  | .flt f s => s.failWith f 0 0
  | .hold h s => .ok (s.holdAt h .waitMem 0 0)
  | .reg _ s => .flt s { cause := Cause.misaligned, addr := gva }
  | .host ppa s => k (s.hostRead ppa n) s
  | .mem t ppa s =>
    match s.gRead t ppa n (drawIx 11 0 0) with
    | .poison s => (s.poisonEvent s.pid ppa).failWith { cause := Cause.poison, addr := gva, deferred := true } 0 0
    | .hold h s => .ok (s.holdAt h .waitMem 0 0)
    | .data b _ s => k b s

/-! ### Devices -/

/-- A device step that cannot go on yet is taken up again. -/
def State.again (s : State) (i : Instr) : State := { s with later := s.later ++ [⟨i, s.args⟩] }

/-- What a device's access comes to. -/
inductive DevOut where
  | ok (b : List Byte) (poison : Bool) (s : State)
  | flt (cause : BitVec 8) (detail : W64) (s : State)
  | wait (s : State)
  | lost (s : State)

/-- An untranslated coherent read of a range within a line, KEY_ID 0 (R65). -/
def State.physRead (s : State) (p ppa n : Nat) : DevOut :=
  let x := s.part p
  if x.space ppa ≠ .mem then .flt Cause.stage2 0 s
  else if x.lost ppa then .lost s
  else if s.memHold p ppa 0 false ≠ .none then .wait (s.knock p ppa)
  else
    let s := s.homeCopies p ppa 0 false
    let r := s.homeRead p 0 ppa n .plain
    .ok r.1 r.2 s

/-- A device register named by a device's access of `n` bytes: the checks of R24 and R201. -/
def State.devReg (s : State) (a : Ask) (sp : Space) (gva : W64) (n : Nat) : Except (BitVec 8) RegTarget :=
  match sp with
  | .window sl off =>
    if !(s.part a.part).mask.getLsbD sl then .error Cause.shutter
    else if n = 8 && gva.toNat % 8 = 0 then .ok (.window a.part sl off)
    else .error Cause.misaligned
  | .control off => if n = 8 && gva.toNat % 8 = 0 then .ok (.control a.part off) else .error Cause.misaligned
  | _ => .error Cause.stage2

/-- A translated coherent read of a range within a line. -/
def State.devRead (s : State) (a : Ask) (r : Reader) (gva : W64) (n : Nat) : DevOut :=
  match s.translateNow a gva with
  | .flt c d s => .flt c d s
  | .held s => .wait s
  | .lost s => .lost s
  | .ok t ppa s =>
    let x := s.part a.part
    match x.space ppa with
    | .mem =>
      if x.lost ppa then .lost s
      else if s.memHold a.part ppa gva false ≠ .none then .wait (s.knock a.part ppa)
      else
        let s := s.homeCopies a.part ppa t.coh t.ver
        let b := s.homeRead a.part t.key ppa n (if t.ver then r else .plain)
        .ok b.1 b.2 s
    | .host => if x.hostLinked then .ok (s.hostRead ppa n) false s else .wait s
    | sp => match s.devReg a sp gva n with
      | .ok g => .ok (bytesOf 8 (s.regRead g)) false s
      | .error c => .flt c (if c = Cause.stage2 then tdet 2 t.level a.kind Reason.map (t.ipa + gva.toNat % 2 ^ t.size) else 0) s

/-- A coherent write of a mode at the home of a range within a line: copies are recalled, a versioned line commits (R135). -/
def State.putHome (s : State) (p key ppa : Nat) (ver : Bool) (bs : List Byte) (coh : Nat := 0) : WriteEnd :=
  let s := s.recallHc none p (ppa / 64)
  if s.claimed p ppa then .wait .claim
  else if s.hostHolds p ppa true then .wait .host
  else if s.homeHold p ppa 0 ≠ .none then .wait (s.homeHold p ppa 0)
  else (s.served p ppa coh).homeWrite p key ppa ver bs

/-- The bytes of a mask written at the home of their line, which its writer may write now: a versioned line commits (R148),
and the line's poison goes only if the mask covers it and comes with poisoned bytes (R128). -/
def State.putLine (s : State) (p key base : Nat) (ver : Bool) (bs : List Byte) (mask : BitVec 64) (bad : Bool)
    (coh : Nat := 0) : WriteEnd :=
  if (s.part p).lost base then .lost
  else
    let s := (s.recallHc none p (base / 64)).served p base coh
    let line := mergeBytes (s.bytesAt p key base 64) bs mask
    if ver || s.chain p base ≠ .none then s.commitLine p key base line mask bad
    else
      let t := s.memWrite p key base line
      .ok (if bad then t.setPoison p base true else if mask = BitVec.allOnes 64 then t.clearWritten p base 64 else t)

/-- The same by an agent that holds no claim on the line. -/
def State.putMask (s : State) (p key base : Nat) (ver : Bool) (bs : List Byte) (mask : BitVec 64) (bad : Bool)
    (coh : Nat := 0) : WriteEnd :=
  if s.claimed p base then .wait .claim
  else if s.hostHolds p base true then .wait .host
  else if s.homeHold p base 0 ≠ .none then .wait (s.homeHold p base 0)
  else s.putLine p key base ver bs mask bad coh

def WriteEnd.dev (e : WriteEnd) (s0 : State) : DevOut :=
  match e with
  | .ok s => .ok [] false s
  | .wait _ => .wait s0
  | .lost => .lost s0
  | .pool s _ => .wait s
  | .abort s _ => .wait s

/-- An untranslated coherent write within a line, KEY_ID 0. -/
def State.physWrite (s : State) (p ppa : Nat) (bs : List Byte) : DevOut :=
  if !(s.part p).inMemory ppa bs.length then .flt Cause.stage2 0 s
  else (s.putHome p 0 ppa false bs).dev (s.knock p ppa)

/-- A coherent write within a line, whose address has been translated. -/
def XOut.devWrite (x : XOut) (a : Ask) (gva : W64) (bs : List Byte) : DevOut :=
  match x with
  | .flt c d s => .flt c d s
  | .held s => .wait s
  | .lost s => .lost s
  | .ok t ppa s =>
    match (s.part a.part).space ppa with
    | .mem => (s.putHome a.part t.key ppa t.ver bs t.coh).dev (s.knock a.part ppa)
    | .host => if (s.part a.part).hostLinked then .ok [] false (s.hostWrite ppa bs) else .wait s
    | sp => match s.devReg a sp gva bs.length with
      | .ok g => .ok [] false (s.regWrite g (valOfBytes 64 bs))
      | .error c => .flt c (if c = Cause.stage2 then tdet 2 t.level a.kind Reason.map (t.ipa + gva.toNat % 2 ^ t.size) else 0) s

/-- A translated coherent write within a line. -/
def State.devWrite (s : State) (a : Ask) (gva : W64) (bs : List Byte) : DevOut := (s.translateNow a gva).devWrite a gva bs

/-! ### Fragments that wait -/

/-- Fragments whose hold meets a test become READY and issue again. -/
def State.wake (s : State) (p : GroupInfo → Hold → Bool) : State :=
  let go := fun (i : GroupInfo) (f : Frag) =>
    if f.st = .waitMem && p i f.hold then { f with st := .ready, hold := .none } else f
  s.mapGroups fun g => { g with f0 := go g.info g.f0, f1 := go g.info g.f1 }

/-- An outbound entry changes. -/
def State.onOut (s : State) (k : BlockKey) (h : Nat) (f : SubEntry → SubEntry) : State :=
  s.onBlock k fun b => match oget b.outb h with
    | some e => { b with outb := oset b.outb h (f e) }
    | none => b

/-- An inbound entry changes. -/
def State.onInb (s : State) (k : BlockKey) (h : Nat) (f : SubEntry → SubEntry) : State :=
  s.onBlock k fun b => match oget b.inb h with
    | some e => { b with inb := oset b.inb h (f e) }
    | none => b

/-- Accesses that waited for room in an outbound entry go on (R99). -/
def State.roomAt (s : State) (pub : BlockKey) : State :=
  let s := match s.block? pub with
    | none => s
    | some b => (b.waitQ.map fun (w : TagWait) => w.off / 4).eraseDups.foldl (fun s w => s.serveWord pub w) s
  s.wake fun i h => h = Hold.batch && i.key.blk.part = pub.part && i.key.blk.grid = pub.grid

/-- A fragment of a core's groups that waits to queue a copy request, one of them freely where there are several. -/
def State.kicker (s : State) (k : CoreKey) : Option (GroupKey × Bool × CopyReq) :=
  let l := s.allGroups.flatMap fun g => if g.coreKey = k then [false, true].filterMap fun b => match (g.frag b).hold with
      | .kick q => some (g.info.key, b, q)
      | _ => none
    else []
  (l.drop (s.draw 8 % l.length)).head?

/-- The engine's queue has room: a `kick` that waits queues its request and completes (R366). -/
def State.takeKick (s : State) (k : CoreKey) : State :=
  let c := s.core k
  if 16 ≤ c.engQ.length + (if c.eng.isSome then 1 else 0) then s
  else match s.kicker k with
    | none => s
    | some (g, b, q) => (s.onCore k fun c => { c with engQ := c.engQ ++ [{ q with core := k }] }).onGroup g (·.finish b)

/-- The hold waits for a bucket in transit. -/
def Hold.isBucket : Hold → Bool
  | .walk => true
  | .bucket _ => true
  | .fetch _ => true
  | _ => false

end Sys2Proof.Machine
end

