-- ==== Sys2Proof/Machine/Coord.lean ====
section
/-! DEFINITION. Snapshots, transactions, barriers, counters, copy requests and child launches (R357 to R361, R364 to R367,
R371, R133, R139 to R144, R237, R238). -/

namespace Sys2Proof.Machine

/-! ### The version sequencer (R133, R134) -/

/-- A timestamp request: the sequencer's partition, or the fragment waits while bucket 0 is in transit, or SHUTTER when
it is lost. -/
def State.atSequencer (s : State) (k : Partition → Res) : Res :=
  let x := s.part s.pid
  if x.seqLost || x.lost 0 then .flt s { cause := Cause.shutter }
  else if x.transit 0 then .ok (s.holdAt .pool .waitMem 0 0)
  else k x

/-- The next timestamp, none past the limit: it counts as issued and not complete. -/
def Partition.nextTs (p : Partition) : Option (Nat × Partition) :=
  if 2 ^ 64 - 1 ≤ p.issued then none
  else some (p.issued + 1, { p with issued := p.issued + 1, committing := p.committing ++ [p.issued + 1] })

/-- The commit with timestamp `t` is complete: the clock may advance (R133, R143), and it is counted (R429). -/
def Partition.commitDone (p : Partition) (t : Nat) : Partition :=
  { p with
    committing := p.committing.erase t
    ctrs := mset 0 p.ctrs 0xC0 (mget 0 p.ctrs 0xC0 + 1) }

/-! ### Snapshots (R359) -/

/-- R359. -/
def execSnapopen (d : BitVec 6) (s : State) : Out :=
  (s.guardRegs [] [d.toNat, d.toNat + 1] false false
    (if d.toNat % 2 = 1 || s.cur.snap.isSome then illegal s
    else s.atSequencer fun x =>
      let r := x.vclock
      match x.takeSnap r with
      | none => .ok (s.defer [.uni d.toNat 1, .uni (d.toNat + 1) 0]).advance
      | some x =>
        let s := (s.onPart s.pid fun _ => x).onCur fun g => { g with snap := some r }
        .ok (s.defer [.uni d.toNat 0, .uni (d.toNat + 1) (BitVec.ofNat 64 r)]).advance)).out

/-- R359. -/
def execSnapclose (s : State) : Out :=
  (match s.cur.snap with
    | none => Res.ok s.advance
    | some t => .ok ((s.onPart s.pid (·.dropSnap t)).onCur fun g => { g with snap := none }).advance).out

/-- R359: fixed-latency. -/
def execVts (d : BitVec 6) (s : State) : Out :=
  (s.guardRegs [] [d.toNat] false false (s.finishU d (BitVec.ofNat 64 (s.part s.pid).vclock))).out

/-! ### Transactions (R360, R361) -/

/-- R360. -/
def execTxbegin (i : BitVec 12) (s : State) : Out :=
  (if s.other.busy then illegal s
  else if s.cur.tx.opened then .ok (s.txAbort s.cur.info.key 7 0)
  else s.atSequencer fun x =>
    let tgt := s.target i
    let r := x.vclock
    match x.takeSnap r with
    | none =>
      .ok ((s.onCur fun g => { g with tx := { g.tx with opened := false, status := 2 } }).jump tgt)
    | some x =>
      let s := s.onPart s.pid fun _ => { x with nextTx := x.nextTx + 1 }
      .ok (s.onCur fun g => { g with tx := {
        opened := true, status := g.tx.status, cause := g.tx.cause, lines := 0, rts := BitVec.ofNat 64 r, id := x.nextTx
        mask := s.frag.mask, height := g.stack.length, target := tgt, depth := s.frag.depth, aborting := none } }).advance).out

/-- Lines with an uncommitted version of a transaction. -/
def Partition.writeSet (p : Partition) (tx : Nat) : List Nat :=
  (p.chains.filter fun c => match c.2.unc with
    | some u => u.tx = tx
    | none => false).map (·.1)

/-- An uncommitted version becomes the current one with timestamp `t` (R143). -/
def State.markLine (s : State) (p t line : Nat) : State :=
  let base := 64 * line
  let c := s.chain p base
  match c.unc with
  | none => s
  | some u =>
    let old : Version := ⟨c.ts, s.bytesAt p u.key base 64, s.poisoned p base, none⟩
    let s := s.memWrite p u.key base u.data
    let s := s.setPoison p base u.poison
    s.setChain p base { ts := t, older := old :: c.older, unc := none, made := true }

/-- The walk that sets D of a page again before a commit changes it (R56): a harvest may have cleared it since the store (R64). -/
def State.redirty (s : State) (line : Nat) : Option State :=
  match (s.chain s.pid (64 * line)).unc with
  | none => some s
  | some u => match s.translateNow (s.ask Kind.store) u.gva with
    | .ok _ ppa t => some (if ppa / 64 = line then t else s)
    | .held _ => none
    | _ => some s

/-- R361, R143: the fragment waits until the version clock reaches the commit's timestamp. -/
def execTxcommit (d : BitVec 6) (s : State) : Out :=
  (s.guardRegs [] [d.toNat] false false
    (if !s.cur.tx.opened || s.other.busy then illegal s
    else
      let rts := s.cur.tx.rts.toNat
      let close := fun (s : State) => s.onCur fun g => { g with tx := { g.tx with opened := false, status := 0, rts := 0 } }
      let set := (s.part s.pid).writeSet s.cur.tx.id
      if set.isEmpty then .ok ((close (s.onPart s.pid (·.dropSnap rts))).uwrite d.toNat (BitVec.ofNat 64 (s.part s.pid).vclock)).advance
      else if set.any fun l => (s.redirty l).isNone then .ok (s.holdAt .walk .waitMem 0 0)
      else s.atSequencer fun x =>
        match x.nextTs with
        | none => .ok (s.txAbort s.cur.info.key 4 0)
        | some (t, x) =>
          let s := set.foldl (fun s l => ((s.redirty l).getD s).markLine s.pid t l) (s.onPart s.pid fun _ => x)
          .ok ((close s).holdAt (.commit t d.toNat rts) .waitMem 0 0))).out

/-- R361. -/
def execTxabort (s : State) : Out :=
  (Res.ok (if s.cur.tx.opened then s.txAbort s.cur.info.key 3 0 else s.advance)).out

/-- The transaction status word (R144). -/
def Tx.word (t : Tx) : W64 :=
  Sys2Proof.Machine.status [(0, t.opened.toNat), (1, t.status.toNat), (8, t.cause.toNat), (16, t.lines.toNat),
    (32, if t.opened then fld t.rts 31 0 else 0)]

/-- R361. -/
def execTxstat (d : BitVec 6) (s : State) : Out :=
  (s.guardRegs [] [d.toNat] false false (.ok (s.defer [.uni d.toNat s.cur.tx.word]).advance)).out

/-! ### Barriers (R211, R364) -/

/-- The fragment waits; its group arrives if every lane left is in it. A `gbar` that issues again after a TAG_TIMEOUT has
arrived already, and waits to depart (R349, R364). -/
def State.barrier (s : State) (gang : Bool) : State :=
  match gang, s.cur.gbarLeft with
  | true, some gs => (s.onFrag fun f => { f with st := .waitBar, hold := .depart gs }).onCur fun g => { g with gbarLeft := none }
  | _, _ =>
    let whole := s.frag.mask = s.cur.live
    let s := s.onFrag fun f => { f with st := .waitBar, hold := if gang then .gbar else .none }
    if whole then s.barArrive s.cur.info.key gang else s

/-- R364. -/
def execBar (s : State) : Out := (Res.ok (s.barrier false)).out

/-- R364. -/
def execGbar (s : State) : Out := (Res.ok (s.barrier true)).out

/-! ### Counters (R365) -/

/-- The counter word and whether the wait is over. -/
def counterMet (word t : W32) : Bool := (word - t).toNat < 2 ^ 31

/-- R365: an add at the counter, with the tag set full in the local form. -/
def execArrive (a b : BitVec 6) (s : State) : Out :=
  let x := s.uread 0 a.toNat
  let n := (s.uread 1 b.toNat).setWidth 32
  (s.guardRegs [] [a.toNat, b.toNat] false false
    (if x.toNat % 4 ≠ 0 then .flt s { cause := Cause.misaligned, addr := x }
    else if localForm x then
      let la : W32 := x.setWidth 32
      match s.localAddr la 4 true false with
      | .ok (.win blk off) =>
        (s.winGo blk off 4 true la fun s =>
          if s.winPoisoned blk off 4 then s.poisonLocal la
          else
            let v : W32 := valOfBytes 32 (s.winBytes blk off 4) + n
            let s := s.chargeCur 4 (4 * (1 + s.copies blk off))
            .ok ((s.winStore blk off (bytesOf 4 v)).tagTo blk (off / 4) true) [] true).single fun s _ => .ok s.advance
      | .ok (.reg _ _ _ _) => .flt s { cause := Cause.illegalOperand, addr := laOf la }
      | .error c => .flt s { cause := c, addr := laOf la }
    else
      match s.reach Kind.atomic 4 x with
      | .flt f s => s.failWith f 0 0
      | .hold h s => .ok (s.holdAt h .waitMem 0 0)
      | .mem t ppa s' =>
        if t.ver then .flt s' { cause := Cause.illegalOperand, addr := x }
        else match s'.rmwMem t ppa 4 (drawIx 11 0 0) x false fun old => some ((old + n.toNat) % 2 ^ 32) with
          | .ok _ _ s => .ok s.advance
          | .flt f s => s.failWith f 0 0
          | .hold h s => .ok (s.holdAt h .waitMem 0 0)
          | .abort s => .ok s
      | r => match s.rmwAt r .add 4 (drawIx 11 0 0) x false fun old => some ((old + n.toNat) % 2 ^ 32) with
          | .ok _ _ s => .ok s.advance
          | .flt f s => s.failWith f 0 0
          | .hold h s => .ok (s.holdAt h .waitMem 0 0)
          | .abort s => .ok s)).out

/-- The check of a `cntwait` at `x` for target `t`: completes the fragment, keeps it waiting, or faults. -/
def State.cntCheck (s : State) (x : W64) (t : W32) : Res :=
  let wait := fun (s : State) => Res.ok (s.holdAt (.counter x t) .waitTag 0 0)
  let done := fun (s : State) => Res.ok (s.onFrag fun f => { f with st := .ready, hold := .none }).advance
  if localForm x then
    let la : W32 := x.setWidth 32
    match s.localAddr la 4 true false with
    | .ok (.win blk off) =>
      match s.winReady blk off 4 false false (laOf la) with
      | .flt f s => .flt s f
      | .hold h s => .ok (s.holdAt h .waitMem 0 0)
      | .ok s =>
        if s.winPoisoned blk off 4 then (s.poisonLocal la).single fun s _ => .ok s
        else
          let full := match s.block? blk with
            | some b => b.full (off / 4)
            | none => false
          let s := s.chargeCur 4 4
          if full && counterMet (valOfBytes 32 (s.winBytes blk off 4)) t then done s else wait s
    | .ok (.reg _ _ _ _) => .flt s { cause := Cause.illegalOperand, addr := laOf la }
    | .error c => .flt s { cause := c, addr := laOf la }
  else
    match s.reach Kind.load 4 x with
    | .flt f s => s.failWith f 0 0
    | .hold h s => .ok (s.holdAt h .waitMem 0 0)
    | .reg _ s => .flt s { cause := Cause.misaligned, addr := x }
    | .host ppa s => if counterMet (valOfBytes 32 (s.hostRead ppa 4)) t then done s else wait s
    | .mem tr ppa s =>
      if tr.ver then .flt s { cause := Cause.illegalOperand, addr := x }
      else
        let s := s.copiesFor s.pid ppa tr.coh false
        if s.anyPoison s.pid ppa 4 then
          (s.poisonEvent s.pid ppa).failWith { cause := Cause.poison, addr := x, deferred := true } 0 0
        else
        let met := counterMet (s.readMem s.pid tr.key ppa 4 32) t
        let s := s.traffic s.coreKey s.pid ppa 4 (drawIx 11 0 0) tr.coh s.cur.info.key
        if met then done s else wait s

/-- R365: reads at the home or the store, and waits in WAIT_TAG. -/
def execCntwait (a b : BitVec 6) (s : State) : Out :=
  let x := s.uread 0 a.toNat
  (s.guardRegs [] [a.toNat, b.toNat] false false
    (if x.toNat % 4 ≠ 0 then .flt s { cause := Cause.misaligned, addr := x }
    else s.cntCheck x ((s.uread 1 b.toNat).setWidth 32))).out

/-! ### Copy requests (R366, R367) -/

/-- Bytes of an element of a record. -/
def copyEsz (r : BitVec 512) : Nat := 2 ^ fld r 5 4

/-- The arithmetic that a REDUCE names. -/
def redOp (n : Nat) : Option AtomOp :=
  match n with
  | 0 => some .add
  | 1 => some .min
  | 2 => some .max
  | 3 => some .and
  | 4 => some .or
  | 5 => some .xor
  | 6 => some .fadd
  | _ => none

/-- A PUT into a queue of the peer (R446): DST names it. -/
def copyLaunch (r : BitVec 512) : Option Nat :=
  if fld r 3 0 = 6 && 0xFFFE000000000000 ≤ fld r 191 128 && fld r 191 128 < 0xFFFE000000000400 then
    some (fld r 191 128 - 0xFFFE000000000000)
  else none

/-- The checks of R367, the limits of R368 that a record shows, and the form of a remote launch (R446). -/
def copyOk (r : BitVec 512) : Bool :=
  let op := fld r 3 0
  let rows := fld r 223 192
  let cols := fld r 255 224
  let peer := fld r 47 32
  fld r 7 6 = 0 && fld r 11 11 = 0 && fld r 31 17 = 0 && fld r 63 48 = 0 &&
  1 ≤ op && op ≤ 8 && 1 ≤ rows && 1 ≤ cols && rows * cols * copyEsz r ≤ 2 ^ 32 && fld r 383 320 % 8 = 0 &&
  (if op ≤ 5 then peer = 0xFFFF else if op ≤ 7 then peer ≠ 0xFFFF else true) &&
  (op = 3 || fld r 447 416 = 0) && (op = 3 || op = 5 || fld r 511 448 = 0) &&
  (op ≠ 3 || (cols ≤ fld r 479 448 && rows ≤ fld r 511 480)) &&
  (op ≠ 8 || match redOp (fld r 10 8) with
    | some o => o.takes (fld r 16 12) && fld r 16 12 ≠ 0x08 && fld r 16 12 ≠ 0x09 && copyEsz r = typeBits (fld r 16 12) / 8
    | none => false) &&
  (op ≠ 8 || fld r 191 160 ≠ 0xFFFFFFFF) &&
  ((copyLaunch r).isNone || (rows = 1 && cols = 8 && copyEsz r = 8))

/-- R366: a request that finds the queue full waits as it was read and checked. -/
def execKick (a : BitVec 6) (s : State) : Out :=
  let x := s.uread 0 a.toNat
  (s.guardRegs [] [a.toNat] false false
    (s.instrRead 64 x fun b s =>
      let r := valOfBytes 512 b
      if !copyOk r then .flt s { cause := Cause.illegalOperand, addr := x }
      else
        let c := s.core s.coreKey
        let q : CopyReq := ⟨r, s.cur.info.key, s.cur.info.ctx, s.cur.priv, s.cur.reader.rts, s.coreKey⟩
        if 16 ≤ c.engQ.length + (if c.eng.isSome then 1 else 0) then .ok (s.holdAt (.kick q) .waitMem 0 0)
        else .ok (s.onCore s.coreKey fun c => { c with engQ := c.engQ ++ [q] }).advance)).out

/-! ### Child launch (R237, R238, R371) -/

/-- Every page of a ring translates as a store: the first failure. -/
def State.ringPages (s : State) (ring : W64) (n : Nat) : LOut :=
  (List.range n).foldl (fun acc i =>
    match acc with
    | .ok s =>
      let a := ring + BitVec.ofNat 64 (4096 * i)
      match s.translate s.coreKey (s.ask Kind.store) a with
      | .ok _ _ s => .ok s
      | .flt c d s => .flt { cause := c, addr := a, detail := d } s
      | .held s => .hold .walk s
      | .lost s => .flt { cause := Cause.shutter, addr := a } s
    | e => e) (.ok s)

/-- Address of the reserve counter of a queue (R222). -/
def Partition.rsvAddr (p : Partition) (q : Nat) : Nat := fld p.qtbase 47 12 * 4096 + 64 * q + 24

/-- A launch reference recorded against a queue's ring index (R238): none when the list is full. -/
def Partition.launchRef (p : Partition) (q i : Nat) (ts : Option Nat) : Option Partition :=
  match ts with
  | none => some p
  | some t =>
    if 1024 ≤ p.launchRefs.length then none
    else (p.takeSnap t).map fun p => { p with launchRefs := p.launchRefs ++ [(q, i, t)] }

/-- Why a launch must wait before it reserves: its accesses to the reserve counter and to the ring slot are not taken now. -/
def State.launchHold (s : State) (ra : Nat) (slot : W64) : Hold :=
  match s.memHold s.pid ra 0 true, s.translateNow (s.ask Kind.store) slot with
  | .bucket _, _ => .walk
  | .none, .held _ => .walk
  | .none, .ok _ ppa _ =>
    if (s.part s.pid).space ppa = .mem && !(s.part s.pid).lost ppa then
      match s.memHold s.pid ppa slot true with
      | .none => if s.canCommit s.pid [ra, ppa] then .none else .pool
      | h => h
    else if s.canCommit s.pid [ra] then .none else .pool
  | h, _ => h

/-- R371, R237. -/
def execLaunch (d a b : BitVec 6) (s : State) : Out :=
  let q := (s.uread 0 a.toNat).toNat
  let img := s.uread 1 b.toNat
  (s.guardRegs [] [d.toNat, a.toNat, b.toNat] false false
    (if s.cur.info.harv then .flt s { cause := Cause.illegalInstruction }
    else s.instrRead 64 img fun bs s =>
      let x := s.part s.pid
      let e := (x.queue q).entry
      let fin := fun (s : State) (v : W64) => Res.ok (s.defer [.uni d.toNat v]).advance
      if fld x.qtbase 57 48 < q || !(x.queue q).en || fld e 23 12 ≠ s.cur.info.ctx then fin s 1
      else
        let size := 2 ^ fld e 4 1
        match s.ringPages (e.extractLsb' 64 64) ((64 * size + 4095) / 4096) with
        | .flt f s => .flt s f
        | .hold h s => .ok (s.holdAt h .waitMem 0 0)
        | .ok s =>
          let ra := x.rsvAddr q
          let i := s.readMem s.pid 0 ra 8 64
          let slot := e.extractLsb' 64 64 + BitVec.ofNat 64 (64 * (i.toNat % size))
          if size ≤ (i - (x.queue q).qrd).toNat then fin s 2
          else if s.launchHold ra slot ≠ .none then .ok ((s.stall s.pid [ra]).holdAt (s.launchHold ra slot) .waitMem 0 0)
          else if ((s.part s.pid).launchRef q i.toNat s.cur.reader.rts).isNone then fin s 3
          else
            let lap := i.toNat / size % 65536
            let put := fun (s : State) =>
              let s := s.onPart s.pid fun x => (x.launchRef q i.toNat s.cur.reader.rts).getD x
              let s := s.deviceWrite s.pid ra (bytesOf 8 (i + 1))
              fin (s.onPart s.pid fun y => y.notify q (i + 1)) (Sys2Proof.Machine.status [(32, i.toNat % 2 ^ 32)])
            match s.devWrite (s.ask Kind.store) slot (bytesOf 2 (BitVec.ofNat 16 lap) ++ bs.drop 2) with
            | .ok _ _ s => put s
            | .flt _ _ s => put s
            | .lost s => put s
            | .wait s => .ok (s.holdAt .pool .waitMem 0 0))).out

end Sys2Proof.Machine
end

