-- ==== Sys2Proof/Machine/Local.lean ====
section
/-! DEFINITION. Local-window, tagged and stash instructions (R346, R348, R353). -/

namespace Sys2Proof.Machine

/-- A lane's local address, low 32 bits of `ea` (R265). -/
def State.localEa (s : State) (o : BitVec 7) (b : BitVec 6) (l : Nat) : W32 := (s.ea o b 0 l).setWidth 32

/-- Registers of the group's own that the lanes left of a plain access reach through the register form: to them the
unchecked-issue rule applies too (R79, R250). -/
def State.reachedRegs (s : State) (a count : Nat) (o : BitVec 7) (b : BitVec 6) : List Nat :=
  (s.beatsLeft count).flatMap fun i =>
    (lanesOf (if i = s.frag.beat.toNat then s.active &&& ~~~s.frag.done else s.active)).filterMap fun l =>
      match s.localAddr (s.localEa o b l + BitVec.ofNat 32 (i * a)) a false false with
      | .ok (.reg grp n _ _) => if grp = s.cur.info.key.grp then some n else none
      | _ => none

/-- R346. -/
def execLdl (t o : BitVec 7) (b : BitVec 6) (n r : BitVec 2) (s : State) : Out :=
  let wide := s.wideTy
  let a := if wide then 8 else 4
  (s.guardMem { vs := memRegs t o wide (countOf n), us := [b.toNat], evens := if wide then [t.toNat] else [],
                cc := s.guardReads, reached := s.reachedRegs a (countOf n) o b }
    (loadOrder r) (typeBits s.ty ≠ 0)
    (State.beats s.active (fun i l s' => s'.localLoadAt a (s.localEa o b l + BitVec.ofNat 32 (i * a))
        (laneWrites (beatReg t wide i) l wide))
      (fun s' ws _ => .ok (s'.deferLanes ws).advance) (s.beatsLeft (countOf n)) s s.frag.done [] 0)).out

/-- R346. -/
def execStl (t o : BitVec 7) (b : BitVec 6) (n r : BitVec 2) (s : State) : Out :=
  let wide := s.wideTy
  let a := if wide then 8 else 4
  (s.guardMem { vs := memRegs t o wide (countOf n), us := [b.toNat], evens := if wide then [t.toNat] else [],
                cc := s.guardReads, reached := s.reachedRegs a (countOf n) o b }
    (storeOrder r) (typeBits s.ty ≠ 0)
    (State.beats s.active (fun i l s' => s'.localStoreAt a (s.localEa o b l + BitVec.ofNat 32 (i * a))
        (s.storeVal s.active (fun i l => s.localEa o b l + BitVec.ofNat 32 (i * a))
          (fun i l => s.laneVal (beatReg t wide i) l wide) i l))
      (fun s' _ _ => .ok s'.advance) (s.beatsLeft (countOf n)) s s.frag.done [] 0)).out

/-! ### Tagged instructions (R348) -/

/-- Types that a tagged instruction takes. -/
def taggedTypes (t : Nat) : Bool := t = 0x02 || t = 0x06 || t = 0x0A

/-- A tagged instruction. On a fault its waiting lanes leave their words (R349). -/
def State.tagged (s : State) (op : TagStep) (t o : BitVec 7) (named : Bool) (b : BitVec 4) : Res :=
  let r := s.guardMem { vs := o.toNat :: if named then [t.toNat] else [], us := [b.toNat], cc := s.guardReads } true
    (taggedTypes s.ty)
    (State.beats s.active (fun _ l s' => s'.tagAt op (s.localEa o (b.setWidth 6) l) l t.toNat
        (if op.stores then s.laneVal t.toNat l false else 0))
      (fun s' ws _ => .ok (s'.deferLanes ws).advance) (s.beatsLeft 1) s s.frag.done [] 0)
  match r with
  | .flt s' f => .flt (s'.withdrawSlot s.cur.info.key s.issue.slot) f
  | .ok s' => .ok s'

/-- R348: waits for full. -/
def execLdf (t o : BitVec 7) (b : BitVec 4) (_r : BitVec 2) (s : State) : Out := (s.tagged .ldf t o true b).out

/-- R348: waits for full, leaves empty. -/
def execLdfTake (t o : BitVec 7) (b : BitVec 4) (_r : BitVec 2) (s : State) : Out := (s.tagged .take t o true b).out

/-- R348: waits for empty, leaves full. -/
def execSte (t o : BitVec 7) (b : BitVec 4) (_r : BitVec 2) (s : State) : Out := (s.tagged .ste t o true b).out

/-- R348. -/
def execStf (t o : BitVec 7) (b : BitVec 4) (_r : BitVec 2) (s : State) : Out := (s.tagged .stf t o true b).out

/-- R348. -/
def execTset (o : BitVec 7) (b : BitVec 4) (_r : BitVec 2) (s : State) : Out := (s.tagged .set 0 o false b).out

/-- R348. -/
def execTclr (o : BitVec 7) (b : BitVec 4) (_r : BitVec 2) (s : State) : Out := (s.tagged .clr 0 o false b).out

/-- R348. -/
def execTrd (t o : BitVec 7) (b : BitVec 4) (_r : BitVec 2) (s : State) : Out := (s.tagged .rd t o true b).out

/-! ### Stash instructions (R353) -/

def State.myBlock (s : State) : Option Block := s.block? s.cur.info.key.blk

/-- Lines of a map entry. -/
def StashEntry.lines (e : StashEntry) : List Nat := span (e.lbase / 64) (e.len / 64)

/-- A line of the range is subscribed or published (R96). -/
def Block.subscribed (b : Block) (lo len : Nat) : Bool :=
  let hit := fun (a n : Nat) => a < lo + len && lo < a + n
  (b.inb.any fun e => hit e.2.soff e.2.len) || (b.outb.any fun e => hit e.2.poff e.2.len)

/-- SUBSCRIPTION with a reason of R94. -/
def subFlt (reason : Nat) : Flt := { cause := Cause.subscription, detail := BitVec.ofNat 64 reason }

/-- Window bytes and tags of a range are discarded. -/
def Block.clearRange (b : Block) (lo len : Nat) : Block :=
  { b with
    win := b.win.filter fun e => !(lo ≤ e.1 && e.1 < lo + len)
    tags := b.tags.filter fun e => !(lo ≤ 4 * e.1 && 4 * e.1 < lo + len)
    winPoison := b.winPoison.filter fun e => !(lo ≤ 4 * e.1 && 4 * e.1 < lo + len) }

/-- Stash states of a range are INVALID. -/
def Block.invalidate (b : Block) (e : StashEntry) : Block :=
  { b with stash := b.stash.filter fun l => !(e.lbase ≤ 64 * l.1 && 64 * l.1 < e.lbase + e.len) }

/-- Bytes and tags of a range of a block's window go, and the accesses held at its words are examined (R84). -/
def State.clearWords (s : State) (k : BlockKey) (lo len : Nat) : State :=
  let words := match s.block? k with
    | some b => ((b.waitQ.map fun (e : TagWait) => e.off / 4).filter fun w => lo ≤ 4 * w && 4 * w < lo + len).eraseDups
    | none => []
  words.foldl (fun s w => s.serveWord k w) (s.onBlock k (·.clearRange lo len))

/-- R353: fills a stash map entry. -/
def execSmap (d a b : BitVec 6) (s : State) : Out :=
  let x := s.uread 0 d.toNat
  let g := s.uread 1 a.toNat
  let m := s.uread 2 b.toNat
  let lbase := fld x 19 0
  let len := fld m 19 0
  let n := fld m 34 32
  (s.guardRegs [] [d.toNat, a.toNat, b.toNat] false false
    (match s.myBlock with
    | none => .ok s.advance
    | some blk =>
      let overlaps := blk.smap.any fun e => e.2.lbase < lbase + len && lbase < e.2.lbase + e.2.len
      if fld x 63 20 ≠ 0 || fld m 31 20 ≠ 0 || fld m 39 35 ≠ 0 || fld m 63 41 ≠ 0 ||
          lbase % 64 ≠ 0 || g.toNat % 64 ≠ 0 || len % 64 ≠ 0 || len = 0 || blk.localKib * 1024 < lbase + len ||
          (oget blk.smap n).isSome || overlaps || blk.harv then .flt s { cause := Cause.illegalOperand }
      else if blk.subscribed lbase len then .flt s (subFlt 5)
      else
        let e : StashEntry := ⟨lbase, g, len, m.getLsbD 40⟩
        .ok (((s.setBlock (blk.invalidate e)).clearWords blk.key lbase len).onBlock blk.key fun b =>
          { b with smap := oset b.smap n e }).advance)).out

/-- Some dirty byte of a line stands in a poisoned word. -/
def Block.poisonedBytes (b : Block) (line : Nat) (dirty : BitVec 64) : Bool :=
  (List.range 16).any fun i => fld dirty (4 * i + 3) (4 * i) ≠ 0 && mget false b.winPoison (16 * line + i)

/-- The home of a stash line that is written back. -/
inductive StashHome where
  | home (t : Translation) (ppa : Nat) (s : State)
  | flt (f : Flt) (s : State)
  | hold (h : Hold) (s : State)

/-- Where the dirty bytes of a stash line go, translated with KIND 1; a PPA that is no memory is refused only on what the tables
hold now (R54). -/
def State.stashHome (s : State) (gva : W64) : StashHome :=
  let p := s.pid
  match s.locate s.coreKey (s.ask Kind.store) gva fun _ ppa => (s.part p).space ppa ≠ .mem || (s.part p).lost ppa with
  | .flt c d s => .flt { cause := c, addr := gva, detail := d } s
  | .held s => .hold .walk s
  | .lost s => .flt { cause := Cause.shutter, addr := gva } s
  | .ok t ppa s =>
    let x := s.part p
    match x.space ppa with
    | .mem =>
      if x.lost ppa then .flt { cause := Cause.shutter, addr := gva } s
      else match s.memHold p ppa gva true with
        | .none => .home t ppa s
        | h => .hold h s
    | .host => .flt (permissionFlt gva t.level Kind.store) s
    | .window sl _ => .flt { cause := if x.mask.getLsbD sl then Cause.misaligned else Cause.shutter, addr := gva } s
    | .control _ => .flt { cause := Cause.misaligned, addr := gva } s
    | .none => .flt (s.mapFlt t Kind.store gva) s

/-- The dirty bytes of a stash line written back at its home (R87), translated with KIND 1 in the block's context; the
line becomes CLEAN. -/
def State.stashBack (s : State) (blk : BlockKey) (line : Nat) : LOut :=
  match s.block? blk with
  | none => .ok s
  | some b =>
    match oget b.stash line, b.entryAt (64 * line) with
    | some l, some e =>
      if l.dirty = 0 then .ok s
      else
        let gva := e.gbase + BitVec.ofNat 64 (64 * line - e.lbase)
        match s.stashHome gva with
        | .flt f s => .flt f s
        | .hold h s => .hold h s
        | .home t ppa s =>
          let h := s.modeHold s.coreKey s.pid (ppa / 64) (s.homeMode t ppa)
          if h ≠ .none then .hold h (s.backStall h s.pid (ppa / 64)) else
          let s := (s.modeCheck s.coreKey s.pid (ppa / 64) (s.homeMode t ppa)).recallHc none s.pid (ppa / 64)
          let old := (s.homeRead s.pid t.key (ppa / 64 * 64) 64 .plain).1
          let bs := mergeBytes old (lineBytes b line) l.dirty
          let clean := fun (s : State) => s.onBlock blk fun b =>
            { b with stash := oset b.stash line { l with dirty := 0 } }
          let bad := b.poisonedBytes line l.dirty
          let s := s.traffic s.coreKey s.pid ppa 64 (drawIx 11 line 60) t.coh s.cur.info.key
          if s.versioned t ppa then
            match s.commitLine s.pid t.key (ppa / 64 * 64) bs l.dirty bad with
            | .ok s => .ok (clean s)
            | .wait h => .hold h s
            | .lost => .flt { cause := Cause.shutter, addr := gva } s
            | .pool s r => .flt { cause := Cause.versionPool, addr := gva, detail := BitVec.ofNat 64 r } s
            | .abort s _ => .ok s
          else
            let s := s.memWrite s.pid t.key (ppa / 64 * 64) bs
            let s := if l.dirty = BitVec.allOnes 64 then s.clearWritten s.pid (ppa / 64 * 64) 64 else s
            .ok (clean (if bad then s.setPoison s.pid ppa true else s))
    | _, _ => .ok s

/-- Lines written back one after another; a line that faults or is held stops the rest. -/
def State.stashBacks (s : State) (blk : BlockKey) (ls : List Nat) : LOut :=
  ls.foldl (fun acc l =>
    match acc with
    | .ok s => s.stashBack blk l
    | e => e) (.ok s)

/-- The shape of `sunmap`, `swb` and `sinv`: the entry named, or ILLEGAL_OPERAND for reserved bits and a free entry. -/
def State.onEntry (s : State) (b : BitVec 6) (k : Block → Nat → StashEntry → Res) : Res :=
  let x := s.uread 2 b.toNat
  s.guardRegs [] [b.toNat] false false
    (if fld x 63 3 ≠ 0 then .flt s { cause := Cause.illegalOperand }
    else match s.myBlock with
      | none => .flt s { cause := Cause.illegalOperand }
      | some blk => match oget blk.smap (fld x 2 0) with
        | none => .flt s { cause := Cause.illegalOperand }
        | some e => k blk (fld x 2 0) e)

/-- What a writeback of lines comes to for the instruction. -/
def LOut.res (r : LOut) (k : State → State) : Res :=
  match r with
  | .ok s => .ok (k s).advance
  | .flt f s => .flt s f
  | .hold h s => .ok (s.holdAt h .waitMem 0 0)

/-- R353: writes back, then frees the entry; the range reads zero with empty tags. -/
def execSunmap (b : BitVec 6) (s : State) : Out :=
  (s.onEntry b fun blk n e =>
    (s.stashBacks blk.key e.lines).res fun s =>
      ((s.onBlock blk.key fun b => { b.invalidate e with smap := odel b.smap n }).clearWords blk.key e.lbase e.len)).out

/-- R353: writes back and keeps the lines CLEAN. -/
def execSwb (b : BitVec 6) (s : State) : Out :=
  (s.onEntry b fun blk _ e => (s.stashBacks blk.key e.lines).res id).out

/-- R353: sets every line INVALID. -/
def execSinv (b : BitVec 6) (s : State) : Out :=
  (s.onEntry b fun blk _ e => .ok ((s.onBlock blk.key (·.invalidate e)).clearWords blk.key e.lbase e.len).advance).out

end Sys2Proof.Machine
end

