-- ==== Sys2Proof/Machine/Image.lean ====
section
/-! DEFINITION. Ranges of partition memory that the device reads and writes without translation, the layout of a block's
save image (R404 to R406), and the parts of it that change while the block is saved (R105 to R108). -/

namespace Sys2Proof.Machine

/-! ### Ranges -/

/-- The parts of `n` bytes from `a` that fall in each line: address, offset in the range, length. -/
def lineParts (a n : Nat) : List (Nat × Nat × Nat) :=
  (List.range ((n + 63) / 64 + 1)).filterMap fun i =>
    let lo := Nat.max a (a / 64 * 64 + 64 * i)
    let hi := Nat.min (a + n) (a / 64 * 64 + 64 * i + 64)
    if lo < hi then some (lo, lo - a, hi - lo) else none

/-- What stands before an untranslated access to a range. -/
inductive RangeState where
  | ready | waits | fails | poisoned
deriving DecidableEq, Repr

/-- Bytes that lie in no memory or a lost bucket fail, as does a commit without a sequencer (R134); a bucket in transit, a claim
or a host copy makes the access wait, as does a commit without room (R133, R146); a read of poison is refused. -/
def State.rangeState (s : State) (p a n : Nat) (write : Bool) : RangeState :=
  let ls := lineParts a n
  if !(s.part p).inMemory a n || (ls.any fun l => (s.part p).lost l.1) ||
      (write && (s.part p).seqLost && ls.any fun l => s.chain p l.1 ≠ .none) then .fails
  else if ls.any fun l => s.memHold p l.1 0 write ≠ .none then .waits
  else if write && !s.canCommit p (ls.map (·.1)) then .waits
  else if !write && (s.anyPoison p a n || ls.any fun l => s.badCopy p (l.1 / 64)) then .poisoned
  else .ready

/-- Homes of a range that sleep wake, while the access waits (R462). -/
def State.knockRange (s : State) (p a n : Nat) : State := (lineParts a n).foldl (fun s l => s.knock p l.1) s

/-- What a write of a range that waits leaves (R146). -/
def State.stallRange (s : State) (p a n : Nat) : State := (s.knockRange p a n).stall p ((lineParts a n).map (·.1))

/-- A coherent untranslated write under KEY_ID 0 (R65), where `rangeState` finds the range ready. -/
def State.writeRange (s : State) (p a : Nat) (bs : List Byte) : State :=
  (lineParts a bs.length).foldl (fun s l =>
    ((s.recallHc none p (l.1 / 64)).served p l.1 0).deviceWrite p l.1 ((bs.drop l.2.1).take l.2.2)) s

/-- What a coherent untranslated read under KEY_ID 0 returns; `readLines` is what it leaves at the homes. -/
def State.readRange (s : State) (p a n : Nat) : List Byte :=
  (lineParts a n).flatMap fun l => (s.homeRead p 0 l.1 l.2.2 .plain).1

/-! ### The image of a block (R405, R406) -/

def alignUp (n a : Nat) : Nat := (n + a - 1) / a * a

def Block.groupSize (b : Block) : Nat := 2048 + b.rgran * 1024 + b.acc * 8192

def Block.groupOff (b : Block) (i : Nat) : Nat := 0x9000 + i * b.groupSize

def Block.windowOff (b : Block) : Nat := alignUp (b.groupOff b.groups) 4096

def Block.tagsOff (b : Block) : Nat := alignUp (b.windowOff + b.localKib * 1024) 64

def Block.linesOff (b : Block) : Nat := alignUp (b.tagsOff + b.localKib * 32) 64

def Block.imageSize (b : Block) : Nat := b.linesOff + b.localKib * 256

def Block.imageChunks (b : Block) : Nat := (b.imageSize + 65535) / 65536

/-- PPA of the image of a block. -/
def State.imageBase (s : State) (b : Block) : Nat :=
  fld (s.part b.key.part).svpool 47 16 * 65536 + match b.image with
    | some c => c.1 * 65536
    | none => 0

/-- Bytes at an offset of a block's image. -/
def State.imageWrite (s : State) (k : BlockKey) (off : Nat) (bs : List Byte) : State :=
  match s.block? k with
  | some b => s.writeRange k.part (s.imageBase b + off) bs
  | none => s

/-- A field that software must not change (R406). -/
def State.imageField (s : State) (k : BlockKey) (off : Nat) (bs : List Byte) : State :=
  (s.imageWrite k off bs).onBlock k fun b => { b with imageBytes := oset b.imageBytes off bs }

/-- The lowest run of `n` free chunks of a pool of `count` (R404). -/
def freeRun (used : List Nat) (count n : Nat) : Option Nat :=
  (List.range (count + 1 - n)).find? fun c => (List.range n).all fun i => !used.contains (c + i)

/-! ### Subscription entries in an image (R405) -/

/-- State codes of R110. -/
def SubState.code : SubState → Nat
  | .active => 1
  | .switching => 2
  | .memory => 3
  | .orphaned => 4

/-- The status word of R110. -/
def SubEntry.word (e : SubEntry) (out held : Bool) (queued : Nat) : W64 :=
  Sys2Proof.Machine.status [(0, e.st.code), (4, e.overwrite.toNat), (5, out.toNat), (6, held.toNat), (8, queued),
    (16, e.dropped.toNat), (32, e.applied.toNat)]

/-- Route word: where the other party runs or last ran, its handle, and whether it is saved. -/
def State.routeWord (s : State) (e : SubEntry) : W64 :=
  match s.block? e.peer with
  | some b => Sys2Proof.Machine.status
      [(0, b.slice % 16), (4, b.core % 32), (12, e.peerHandle % 16), (16, (!b.resident).toNat)]
  | none => 0

def Batch.bytes (x : Batch) : List Byte :=
  (List.range 64).map (mget 0 x.data) ++ bytesOf 8 x.mask ++ bytesOf 8 (BitVec.ofNat 64 x.off) ++ List.replicate 48 0

/-- Batches of an entry that its image lists: the list of R405 holds 8, and what an outbound entry has closed beyond them
stays with the entry (log 131). -/
def SubEntry.listed (e : SubEntry) (out : Bool) : List Batch := (if out then e.unsent else e.pending).take 8

def State.entryBytes (s : State) (e : SubEntry) (out : Bool) : List Byte :=
  bytesOf 16 e.desc ++ bytesOf 8 (e.word out false (e.listed out).length) ++ bytesOf 8 (s.routeWord e)

def entryOff (out : Bool) (h : Nat) : Nat := (if out then 0x340 else 0x140) + 32 * h

def listOff (out : Bool) (h : Nat) : Nat := (if out then 0x5000 else 0x1000) + 1024 * h

/-- The image of a saved block follows one of its entries. -/
def State.imageEntry (s : State) (k : BlockKey) (out : Bool) (h : Nat) : State :=
  match s.block? k with
  | none => s
  | some b =>
    if b.image.isNone then s
    else
      let e := oget (if out then b.outb else b.inb) h
      let bs := match e with
        | some e => s.entryBytes e out
        | none => List.replicate 32 0
      let ls := match e with
        | some e => (e.listed out).flatMap Batch.bytes
        | none => []
      (s.imageField k (entryOff out h) bs).imageField k (listOff out h) (ls ++ List.replicate (1024 - ls.length) 0)

/-- Why the writes of `imageEntry` must wait. -/
def State.imageHold (s : State) (k : BlockKey) (out : Bool) (h : Nat) : Hold :=
  match s.block? k with
  | none => .none
  | some b =>
    if b.image.isNone then .none
    else
      let ls := (lineParts (s.imageBase b + entryOff out h) 32 ++ lineParts (s.imageBase b + listOff out h) 1024).map (·.1)
      match ls.find? fun a => !(s.part k.part).lost a && s.memHold k.part a 0 true ≠ .none with
      | some a => match s.memHold k.part a 0 true with
        | .bucket _ => .walk
        | h => h
      | none => if s.canCommit k.part ls then .none else .pool

/-! ### Window words of an image (R105) -/

def State.imageTag (s : State) (b : Block) (w : Nat) : Bool :=
  ((s.readRange b.key.part (s.imageBase b + b.tagsOff + w / 8) 1).headD 0).getLsbD (w % 8)

/-- A batch without the words below index `n` of its words, and with those alone. -/
def Batch.rest (x : Batch) (n : Nat) : Batch :=
  { x with mask := ((x.words.drop n).foldl (fun m w => m ||| byteMask (4 * w) 4) 0) &&& x.mask }

def Batch.first (x : Batch) (n : Nat) : Batch :=
  { x with mask := ((x.words.take n).foldl (fun m w => m ||| byteMask (4 * w) 4) 0) &&& x.mask }

/-- The words of a batch that an image takes: none behind a pending list, and in handoff mode those before the first whose
tag is full (R105). -/
def State.imageTakes (s : State) (b : Block) (e : SubEntry) (x : Batch) : Nat :=
  if !e.pending.isEmpty then 0
  else if e.overwrite then x.words.length
  else (x.words.takeWhile fun w => !s.imageTag b w).length

/-- PPA of a batch's line in an image, and of the two bytes that hold its tags. -/
def State.batchAt (s : State) (b : Block) (x : Batch) : Nat := s.imageBase b + b.windowOff + x.off
def State.batchTags (s : State) (b : Block) (x : Batch) : Nat := s.imageBase b + b.tagsOff + x.off / 32

/-- The masked bytes of a batch written to an image as one write (R142), and then its tags. -/
def State.imageLine (s : State) (b : Block) (x : Batch) : State :=
  let p := b.key.part
  let s := match s.putLine p 0 (s.batchAt b x) false ((List.range 64).map (mget 0 x.data)) x.mask false with
    | .ok s => s
    | _ => s
  let t := s.batchTags b x
  let old : BitVec 16 := valOfBytes 16 (s.readRange p t 2)
  s.writeRange p t (bytesOf 2 (x.words.foldl (fun m w => m ||| (1#16 <<< (w % 16))) old))

/-- What comes of writing a batch to an image: done, or the part that goes to the pending list. -/
def State.imageBatch (s : State) (b : Block) (e : SubEntry) (x : Batch) : State × Option Batch :=
  let n := s.imageTakes b e x
  (if n = 0 then s else s.imageLine b (x.first n), if n < x.words.length then some (x.rest n) else none)

/-- The bytes of an image that a batch for inbound entry `h` touches, in order: its tags, the line's data, and the record of the
pending list (R106). -/
def State.imageParts (s : State) (b : Block) (e : SubEntry) (h : Nat) (x : Batch) : List (Nat × Nat) :=
  let n := s.imageTakes b e x
  (if e.pending.isEmpty then [(s.batchTags b x, 2)] else []) ++ (if n = 0 then [] else [(s.batchAt b x, 64)]) ++
    if n < x.words.length then [(s.imageBase b + listOff false h + 128 * e.pending.length, 128)] else []

/-- What stands before the write of a batch to an image, and the address concerned. -/
def State.imageReady (s : State) (b : Block) (e : SubEntry) (h : Nat) (x : Batch) : RangeState × Nat :=
  let at_ := fun (q : Nat × Nat) => match s.rangeState b.key.part q.1 q.2 true with
    | .ready => if q.2 = 2 && s.anyPoison b.key.part q.1 2 then RangeState.poisoned else .ready
    | r => r
  match (s.imageParts b e h x).find? fun q => at_ q ≠ .ready with
  | some q => (at_ q, q.1)
  | none => (.ready, s.batchAt b x)

/-- What a batch whose write must wait leaves. -/
def State.imageStall (s : State) (b : Block) (e : SubEntry) (h : Nat) (x : Batch) : State :=
  (s.imageParts b e h x).foldl (fun s q => s.stallRange b.key.part q.1 q.2) s

end Sys2Proof.Machine
end

