-- ==== Sys2Proof/Machine/Subscribe.lean ====
section
/-! DEFINITION. `subscribe`, `unsub`, `subflush` and `substat` (R92 to R95, R102, R103, R110, R362, R363). -/

namespace Sys2Proof.Machine

/-! ### The descriptor (R93, R94) -/

/-- The block that a descriptor names. -/
def GroupInfo.publisher (i : GroupInfo) (d : BitVec 128) : BlockKey :=
  if fld d 75 74 = 0 then i.member (fld d 81 80) else { i.key.blk with blk := fld d 127 96 }

/-- Blocks of the grid. -/
def State.gridBlocks (s : State) (k : BlockKey) : Nat :=
  match (s.part k.part).grids.find? (·.handle = k.grid) with
  | some g => g.blocks
  | none => 0

/-- A map entry of the block covers a line of the range (R94). -/
def Block.mapsAny (b : Block) (lo len : Nat) : Bool :=
  b.smap.any fun e => e.2.lbase < lo + len && lo < e.2.lbase + e.2.len

/-- The reason of R94 that a descriptor meets first; 0 if it passes. -/
def State.subCheck (s : State) (d : BitVec 128) : Nat :=
  let i := s.cur.info
  let soff := fld d 19 0
  let poff := fld d 43 24
  let len := fld d 67 48
  let kind := fld d 75 74
  let win := i.localKib * 1024
  let pub := i.publisher d
  let maps := fun (k : BlockKey) (lo : Nat) => match s.block? k with
    | some b => b.mapsAny lo len
    | none => false
  let harv := fun (k : BlockKey) => match s.block? k with
    | some b => b.harv
    | none => false
  if fld d 23 20 ≠ 0 || fld d 47 44 ≠ 0 || fld d 71 68 ≠ 0 || fld d 73 73 ≠ 0 || fld d 79 76 ≠ 0 || fld d 95 82 ≠ 0 ||
      2 ≤ kind || (kind = 0 && fld d 127 96 ≠ 0) || (kind = 1 && fld d 81 80 ≠ 0) then 1
  else if soff % 64 ≠ 0 || poff % 64 ≠ 0 || len % 64 ≠ 0 || len = 0 then 2
  else if win < soff + len || win < poff + len ||
      (if kind = 0 then i.gangSize ≤ fld d 81 80 else s.gridBlocks i.key.blk ≤ fld d 127 96) then 3
  else if pub = i.key.blk then 4
  else if maps i.key.blk soff || maps pub poff then 5
  else if harv pub then 6
  else 0

/-! ### Entries (R92, R95) -/

/-- Entries in use on a core, of one direction. -/
def State.coreEntries (s : State) (sl core : Nat) (out : Bool) : Nat :=
  (s.blocks.filter fun b => b.placed && !b.exited && b.slice = sl && b.core = core).foldl
    (fun n b => n + (if out then b.outb.length else b.inb.length)) 0

/-- The lowest free handle of a block (R472). -/
def freeHandle (used : NatMap SubEntry) : Nat := ((List.range 16).find? fun h => (oget used h).isNone).getD 0

/-- A new entry. -/
def SubEntry.start (d : BitVec 128) (peer : BlockKey) (h : Nat) : SubEntry where
  soff := fld d 19 0
  poff := fld d 43 24
  len := fld d 67 48
  overwrite := d.getLsbD 72
  st := .active
  peer := peer
  peerHandle := h
  opened := none
  unsent := []
  recv := []
  pending := []
  closed := 0
  applied := 0
  appliedN := 0
  dropped := 0
  held := false
  wordsDone := 0
  marked := false
  faulted := false
  closing := false
  desc := d

/-- The status of R95 for a descriptor that passed, and the new inbound handle. -/
def State.subAllocate (s : State) (d : BitVec 128) : State × Nat × Nat :=
  let i := s.cur.info
  let pk := i.publisher d
  match s.block? i.key.blk, s.block? pk with
  | some me, some pub =>
    if pub.exited then (s, 1, 0)
    else if 16 ≤ pub.outb.length || (pub.placed && 16 ≤ s.coreEntries pub.slice pub.core true) then (s, 2, 0)
    else if 16 ≤ me.inb.length || 16 ≤ s.coreEntries me.slice me.core false then (s, 3, 0)
    else if me.inb.any fun e => e.2.soff < fld d 19 0 + fld d 67 48 && fld d 19 0 < e.2.soff + e.2.len then (s, 4, 0)
    else
      let h := freeHandle me.inb
      let o := freeHandle pub.outb
      let s := s.onBlock i.key.blk fun b => { b with inb := oset b.inb h (SubEntry.start d pk o) }
      ((s.onBlock pk fun b => { b with outb := oset b.outb o (SubEntry.start d i.key.blk h) }).imageEntry pk true o, 0, h)
  | _, _ => (s, 1, 0)

/-- Why the image of a saved publisher cannot take the new entry now (R95). -/
def State.subHold (s : State) (d : BitVec 128) : Hold :=
  let pk := s.cur.info.publisher d
  match s.block? pk with
  | some pub => s.imageHold pk true (freeHandle pub.outb)
  | none => .none

/-- R362. -/
def execSubscribe (d a : BitVec 6) (s : State) : Out :=
  (s.guardRegs [] [d.toNat, a.toNat] false false
    (if s.cur.info.harv then .flt s { cause := Cause.illegalInstruction }
    else s.instrRead 16 (s.uread 0 a.toNat) fun bs s =>
      let desc := valOfBytes 128 bs
      let r := s.subCheck desc
      if r ≠ 0 then .flt s (subFlt r)
      else
        let x := s.subAllocate desc
        if x.2.1 = 0 && s.subHold desc ≠ .none then .ok (s.holdAt (s.subHold desc) .waitMem 0 0)
        else .ok (x.1.defer [.uni d.toNat (Sys2Proof.Machine.status [(0, x.2.1), (8, x.2.2)])]).advance)).out

/-! ### Teardown (R103) -/

/-- Batches discarded, counted in DROPPED, which saturates (R110). -/
def SubEntry.drop (e : SubEntry) : SubEntry :=
  { e with
    recv := [], unsent := [], held := false
    dropped := BitVec.ofNat 16 (Nat.min (e.dropped.toNat + e.recv.length + e.unsent.length) 0xFFFF) }

/-- An entry that is torn down takes what its outbound entry had closed, at most 4 batches at a time (R99, R103). -/
def SubEntry.refill (e : SubEntry) : SubEntry :=
  let n := 4 - e.recv.length
  { e with recv := e.recv ++ e.unsent.take n, unsent := e.unsent.drop n }

/-- The outbound entry sends everything it holds and is freed; the inbound entry is torn down. -/
def State.unsubscribe (s : State) (k : BlockKey) (h : Nat) : State :=
  match (s.block? k).bind fun b => oget b.inb h with
  | none => s
  | some e =>
    let s := s.closeBatch e.peer e.peerHandle
    let rest := match (s.block? e.peer).bind fun b => oget b.outb e.peerHandle with
      | some o => o.unsent
      | none => []
    let s := (s.onBlock e.peer fun b => { b with outb := odel b.outb e.peerHandle }).imageEntry e.peer true e.peerHandle
    let s := s.onBlock k fun b =>
      match oget b.inb h with
      | none => b
      | some i =>
        let i := SubEntry.refill { i with unsent := rest, closing := true }
        let i := if i.held then i.drop else i
        let b := { b with waitQ := b.waitQ.filter fun w => w.who ≠ Waiter.sub h }
        if i.recv.isEmpty then { b with inb := odel b.inb h } else { b with inb := oset b.inb h i }
    s.roomAt e.peer

/-- No batch of a subscription that is torn down remains. -/
def State.unsubDone (s : State) (k : BlockKey) (h : Nat) : Bool :=
  match (s.block? k).bind fun b => oget b.inb h with
  | some e => !e.closing
  | none => true

/-- The teardown ends, or the fragment waits for its last batches. Its lanes count as done from here on: after a save the
instruction waits again and tears nothing down (R401). -/
def State.unsubWait (s : State) (h : Nat) : Res :=
  let k := s.cur.info.key.blk
  if s.unsubDone k h then .ok s.advance else .ok (s.holdAt (.unsub k h) .waitMem s.frag.mask 0)

/-- R363. -/
def execUnsub (b : BitVec 6) (s : State) : Out :=
  let v := s.uread 0 b.toNat
  (s.guardRegs [] [b.toNat] false false
    (if s.frag.done ≠ 0 then s.unsubWait v.toNat
    else match s.myBlock.bind fun x => oget x.inb v.toNat with
      | some e =>
        if 15 < v.toNat || e.closing then .flt s (subFlt 1)
        else if s.imageHold e.peer true e.peerHandle ≠ .none then
          .ok (s.holdAt (s.imageHold e.peer true e.peerHandle) .waitMem 0 0)
        else (s.unsubscribe s.cur.info.key.blk v.toNat).unsubWait v.toNat
      | none => .flt s (subFlt 1))).out

/-- R102, R363. -/
def execSubflush (s : State) : Out :=
  let s := s.closeAll s.cur.info.key.blk
  let goals := s.goalsOf s.cur.info.key.blk
  (Res.ok (if goals.isEmpty then s.advance else s.holdAt (.flush goals) .waitTag 0 0)).out

/-! ### The status word (R110) -/

/-- The status word of an entry of a block, zero when it is free. -/
def State.substat (s : State) (k : BlockKey) (h : Nat) (out : Bool) : W64 :=
  match s.block? k with
  | none => 0
  | some b =>
    if out then
      match oget b.outb h with
      | none => 0
      | some e =>
        let peer := (s.block? e.peer).bind fun q => oget q.inb e.peerHandle
        let pending := match peer with
          | some i => i.pending.length
          | none => 0
        e.word true (match peer with | some i => i.held | none => false) (s.inFlight e + pending)
    else
      match oget b.inb h with
      | none => 0
      | some e => e.word false e.held (e.recv.length + e.pending.length)

/-- R363, inbound. -/
def execSubstatIn (d h : BitVec 6) (s : State) : Out :=
  (s.guardRegs [] [d.toNat] false false
    (.ok (s.defer [.uni d.toNat (s.substat s.cur.info.key.blk h.toNat false)]).advance)).out

/-- R363, outbound. -/
def execSubstatOut (d h : BitVec 6) (s : State) : Out :=
  (s.guardRegs [] [d.toNat] false false
    (.ok (s.defer [.uni d.toNat (s.substat s.cur.info.key.blk h.toNat true)]).advance)).out

end Sys2Proof.Machine
end

