-- ==== Sys2Proof/Machine/Matrix.lean ====
section
/-! DEFINITION. Matrix instructions: table slots, B slots and the mill (R156 to R166, R373 to R382), `mma` (R167, R168,
R383 to R388) and the accumulator (R389). -/

namespace Sys2Proof.Machine

/-! ### Types and operands -/

/-- TYPE code (R151) of a matrix type code (R258). -/
def matType (m : Nat) : Nat :=
  match m with
  | 0 => 0x10
  | 1 => 0x11
  | 2 => 0x0D
  | 3 => 0x00
  | 4 => 0x04
  | 5 => 0x0B
  | 6 => 0x0C
  | 7 => 0x01
  | 8 => 0x05
  | 9 => 0x08
  | _ => 0x09

def matWidth (m : Nat) : Nat := typeBits (matType m)

def matFloat (m : Nat) : Bool := (floatTy (matType m)).isSome

/-- The value of an element code. -/
def matVal (m code : Nat) : FVal := srcVal (matType m) false [] code

/-- Bytes as a map that lists those other than a default. -/
def toMap (d : Byte) (l : List Byte) : NatMap Byte := (l.zipIdx.filter fun x => x.1 ≠ d).map fun x => (x.2, x.1)

/-- The bytes of a map from index `i`, `n` of them. -/
def denseFrom (d : Byte) : Nat → Nat → NatMap Byte → List Byte
  | _, 0, _ => []
  | i, n + 1, [] => d :: denseFrom d (i + 1) n []
  | i, n + 1, (k, v) :: r => if k = i then v :: denseFrom d (i + 1) n r else d :: denseFrom d (i + 1) n ((k, v) :: r)

/-- Checks that every matrix instruction makes: HAZARD, and no harvest group (R213, R377). -/
def State.matGuard (s : State) (vs us : List Nat) (cc : Bool) (k : Res) : Res :=
  match s.hazard vs us cc false with
  | some f => .flt s f
  | none => if s.cur.info.harv then .flt s { cause := Cause.illegalInstruction } else k

/-- The B slot that an instruction replaces or clears, and the one that it reads (R375). -/
def Instr.writesSlot : Instr → Option Nat
  | .bload q _ _ _ _ => some q.toNat
  | .brel q => some q.toNat
  | _ => none
def Instr.readsSlot : Instr → Option Nat
  | .mma _ q _ _ _ => some q.toNat
  | .mmaZ _ q _ _ _ => some q.toNat
  | _ => none

/-- A mill load of this slot is on its way, or an instruction that writes the slot issued earlier and waits (R375). -/
def State.loading (s : State) (slot : Nat) : Bool :=
  (match (s.core s.coreKey).mill with
   | some m => m.slot = slot
   | none => false) || s.earlier.any fun i => Instr.writesSlot i = some slot

/-- The slot cannot be written yet: one that reads or writes it issued earlier and waits (R375). -/
def State.slotInUse (s : State) (slot : Nat) : Bool :=
  s.loading slot || s.earlier.any fun i => Instr.readsSlot i = some slot

/-! ### Table slots (R378) -/

/-- A table slot is written; readers that issued after the `tblld` capture the new entries (R375). -/
def State.putTable (s : State) (n : Nat) (es : List (BitVec 16)) : State :=
  let t : TSlot := ⟨es, s.cur.info.ctx, s.pid⟩
  let k := s.coreKey
  let at_ := s.capture.cycle
  let take := fun (f : Frag) => { f with cap := f.cap.map fun c => if at_ < c.cycle then { c with tables := oset c.tables n t } else c }
  (s.onCore k fun x => { x with tslots := oset x.tslots n t }).mapGroups fun g =>
    if g.coreKey = k then { g with f0 := take g.f0, f1 := take g.f1 } else g

/-- R378. -/
def execTblld (c : BitVec 3) (a : BitVec 6) (s : State) : Out :=
  (s.matGuard [] [a.toNat] false
    (if s.tabling c.toNat then s.matWait
    else s.instrRead 32 (s.uread 0 a.toNat) fun b s =>
      .ok (s.putTable c.toNat ((List.range 16).map fun i => valOfBytes 16 ((b.drop (2 * i)).take 2))).advance)).out

/-- R378. -/
def execTblrd (d : BitVec 7) (c : BitVec 3) (s : State) : Out :=
  (match s.hazard [d.toNat] [] s.guardReads false with
    | some f => Res.flt s f
    | none =>
      if s.cur.info.nregs ≤ d.toNat then .flt s { cause := Cause.registerWindow }
      else if s.cur.info.harv then .flt s { cause := Cause.illegalInstruction }
      else if s.tabling c.toNat then s.matWait
      else match s.tableSlot c.toNat with
        | none => illegal s
        | some es =>
          .ok (s.defer ((lanesOf s.active).map fun l =>
            .vec d.toNat l (if l < 16 then (es.getD l 0).setWidth 32 else 0))).advance).out

/-! ### The mill's reads (R166, R380) -/

/-- What the mill's reads come to. -/
inductive MillOut where
  | ok (b : List Byte) (s : State)
  | flt (f : Flt) (s : State)
  | hold (h : Hold) (s : State)

/-- What the mill's translation of an address comes to. -/
inductive MillPage where
  | ok (t : Translation) (ppa : Nat) (s : State)
  | flt (f : Flt) (s : State)
  | hold (h : Hold) (s : State)

/-- The POISON of a mill load, which a LOST bucket raises too (R19, R128). -/
def millPoison (gva : W64) : Flt := { cause := Cause.poison, addr := gva, deferred := true }

def State.millPage (s : State) (gva : W64) : MillPage :=
  match s.translate s.coreKey (s.ask Kind.mill) gva with
  | .ok t ppa s => .ok t ppa s
  | .flt c d s => .flt { cause := c, addr := gva, detail := d } s
  | .held s => .hold .walk s
  | .lost s => .flt (millPoison gva) s

/-- `n` bytes within a line; an engine's claim does not hold the read (R124). `bad` judges the page by its FMT, its first byte
and the first byte read. -/
def State.millChunk (s : State) (bad : Nat → W64 → W64 → Option Flt) (gva : W64) (n : Nat) : MillOut :=
  match s.millPage gva with
  | .flt f s => .flt f s
  | .hold h s => .hold h s
  | .ok t ppa s =>
    let x := s.part s.pid
    match bad t.fmt (BitVec.ofNat 64 (gva.toNat / 2 ^ t.size * 2 ^ t.size)) gva with
    | some f => .flt f s
    | none =>
      match x.space ppa with
      | .host => .ok (s.hostRead ppa n) s
      | .window sl _ => .flt { cause := if x.mask.getLsbD sl then Cause.misaligned else Cause.shutter, addr := gva } s
      | .control _ => .flt { cause := Cause.misaligned, addr := gva } s
      | .none => .flt (s.mapFlt t Kind.mill gva) s
      | .mem =>
        if x.lost ppa then .flt (millPoison gva) s
        else match s.readHold s.pid ppa gva true with
          | .bucket _ => .hold .walk s
          | .none =>
            if s.spoilt 3 s.coreKey then .flt (millPoison gva) (s.received 3 s.coreKey)
            else match s.gRead t ppa n (drawIx 11 0 0) with
            | .poison s => .flt (millPoison gva) (s.poisonEvent s.pid ppa)
            | .hold h s => .hold h s
            | .data b _ s => .ok b s
          | h => .hold h s

/-- A range cut at line boundaries. -/
def pieces (a : W64) (n : Nat) : List (W64 × Nat) :=
  (List.range (n / 64 + 2)).filterMap fun i =>
    let first := a.toNat / 64 * 64 + 64 * i
    let lo := Nat.max first a.toNat
    let hi := Nat.min (first + 64) (a.toNat + n)
    if lo < hi then some (BitVec.ofNat 64 lo, hi - lo) else none

/-- A range read in ascending order. -/
def State.millRead (s : State) (bad : Nat → W64 → W64 → Option Flt) (a : W64) (n : Nat) : MillOut :=
  (pieces a n).foldl (fun acc p =>
    match acc with
    | .ok b s => match s.millChunk bad p.1 p.2 with
      | .ok b' s => .ok (b ++ b') s
      | e => e
    | e => e) (.ok [] s)

def MillOut.bind (r : MillOut) (k : List Byte → State → Res) : Res :=
  match r with
  | .ok b s => k b s
  | .flt f s => s.failWith f 0 0
  | .hold h s => .ok (s.holdAt h .waitMem 0 0)

/-! ### Codebooks (R158) -/

/-- The code of a matrix type that holds a bf16 entry's value. -/
def exactCode (m : Nat) (e : BitVec 16) : Option Nat :=
  match tyBf16.decode e.toNat with
  | .fin neg mant ex =>
    match floatTy (matType m) with
    | some t =>
      let r := t.roundFin ⟨Rnd.rne, 0, 0, false⟩ neg mant ex
      if !r.ovf && (t.decode r.bits).eqReal (.fin neg mant ex) then some r.bits else none
    | none => match intTy (matType m) with
      | some t =>
        let r := toInteger t ⟨Rnd.rne, 0, 0, false⟩ (.fin neg mant ex)
        if !r.ovf && (FVal.ofInt (t.read r.bits)).eqReal (.fin neg mant ex) then some r.bits else none
      | none => none
  | _ => none

/-! ### Grist tensors (R161 to R165) -/

/-- A prefix code: length, code, symbol. -/
abbrev PrefixCode := List (Nat × Nat × Nat)

/-- The canonical code of LENS (R162). -/
def canonical (lens : List Nat) : PrefixCode :=
  let syms := (List.range 16).flatMap fun n => if n = 0 then [] else (List.range 16).filterMap fun i =>
    if lens.getD i 0 = n then some (n, i) else none
  (syms.foldl (fun acc x =>
    match acc.1 with
    | none => (some (x.1, 0), [(x.1, 0, x.2)])
    | some (pn, pc) =>
      let c := (pc + 1) * 2 ^ (x.1 - pn)
      (some (x.1, c), acc.2 ++ [(x.1, c, x.2)])) (none, [])).2

/-- Σ 2^(−len) at most 1, and a symbol present (R162). -/
def lensValid (lens : List Nat) : Bool :=
  let k := lens.foldl (fun n l => n + if l = 0 then 0 else 2 ^ (15 - l)) 0
  0 < k && k ≤ 2 ^ 15

/-- A fault of a mill load (R165). TILE has the low 32 bits of the tile asked for, whose number has 64 (DESIGN CHOICE, log 146). -/
def gristFlt (tile reason sym : Nat) (addr : W64) : Flt :=
  { cause := Cause.malformedGrist, addr := addr, detail := BitVec.ofNat 64 (reason + tile % 2 ^ 32 * 2 ^ 8 + sym % 2 ^ 16 * 2 ^ 40) }

/-- How far a stream is decoded: bits read, the code so far, symbols newest first, bytes at hand from the current one. -/
structure Grist where
  s : State
  pos : Nat
  code : Nat
  len : Nat
  out : List Nat
  count : Nat
  line : List Byte

inductive GristOut where
  | ok (g : Grist)
  | flt (f : Flt) (s : State)
  | hold (h : Hold) (s : State)

/-- What a stream's decoder is given. -/
structure GristJob where
  code : PrefixCode
  longest : Nat
  need : Nat
  tile : Nat
  /-- the stream's first byte and its length -/
  base : W64
  bytes : Nat
  bad : Nat → W64 → W64 → Option Flt

/-- One bit. A code is found unassigned once it is as long as the longest one (R162; DESIGN CHOICE, log 145). -/
def GristJob.bit (j : GristJob) (g : Grist) : GristOut :=
  let at_ := j.base + BitVec.ofNat 64 (g.pos / 8)
  let fetched := if g.line.isEmpty then
      g.s.millChunk j.bad at_ (Nat.min (64 - at_.toNat % 64) (j.bytes - g.pos / 8))
    else .ok g.line g.s
  match fetched with
  | .flt f s => .flt f s
  | .hold h s => .hold h s
  | .ok line s =>
    let b := ((line.headD 0).toNat / 2 ^ (7 - g.pos % 8)) % 2
    let code := 2 * g.code + b
    let len := g.len + 1
    let rest := if g.pos % 8 = 7 then line.drop 1 else line
    let g1 := { g with s := s, pos := g.pos + 1, code := code, len := len, line := rest }
    match j.code.find? fun x => x.1 = len && x.2.1 = code with
    | some x => .ok { g1 with code := 0, len := 0, out := x.2.2 :: g.out, count := g.count + 1 }
    | none =>
      if j.longest ≤ len then
        .flt (gristFlt j.tile 4 g.count (j.base + BitVec.ofNat 64 ((g.pos + 1 - len) / 8))) s
      else .ok g1

/-- The symbols of a stream: checks 6 to 8 of R165. The fuel is the stream's length in bits. -/
def GristJob.run (j : GristJob) : Nat → Grist → GristOut
  | fuel, g =>
    if g.count = j.need then
      let byte := g.pos / 8
      if g.pos % 8 ≠ 0 && (g.line.headD 0).toNat % 2 ^ (8 - g.pos % 8) ≠ 0 then
        .flt (gristFlt j.tile 6 g.count (j.base + BitVec.ofNat 64 byte)) g.s
      else if (g.pos + 7) / 8 < j.bytes then
        .flt (gristFlt j.tile 6 g.count (j.base + BitVec.ofNat 64 ((g.pos + 7) / 8))) g.s
      else .ok g
    else match fuel with
      | 0 => .flt (gristFlt j.tile 5 g.count (j.base + BitVec.ofNat 64 j.bytes)) g.s
      | fuel + 1 => match j.bit g with
        | .ok g => run j fuel g
        | r => r

/-- Element codes of a tile as bytes (R160): element `i` at bit `i · w`. -/
def packTile (w : Nat) (es : List Nat) : List Byte :=
  if w = 4 then
    (List.range (es.length / 2)).zip (pairs es) |>.map fun x => BitVec.ofNat 8 x.2
  else es.flatMap fun e => bytesOf (w / 8) (BitVec.ofNat 16 e)
where
  pairs : List Nat → List Nat
    | a :: b :: r => (a + 16 * b) :: pairs r
    | _ => []

/-- The mill load of tile `t` of the tensor at `g` for width `w` (R165): its cb4 codes. No check of R165 looks at the alignment
of `g`, and so the load goes on from any (log 144); entry `t` is judged before entry `t + 1` is read (log 147; both DESIGN
CHOICE). -/
def State.gristLoad (s : State) (g : W64) (t w : Nat) (k : List Nat → State → Res) : Res :=
  let bad := fun (fmt : Nat) (_ first : W64) => if fmt = 0x10 then none else some (gristFlt t 7 0 first)
  (s.millRead bad g 64).bind fun hb s =>
    let h := valOfBytes 512 hb
    let lens := (List.range 16).map fun i => fld h (67 + 4 * i) (64 + 4 * i)
    let kt := if fld h 9 8 = 0 then 96 else if fld h 9 8 = 1 then 192 else 384
    let tiles := fld h 47 16
    let index := h.extractLsb' 128 64
    let data := h.extractLsb' 192 64
    let dlen := fld h 319 256
    if fld h 7 0 ≠ 1 || fld h 9 8 = 3 || fld h 15 10 ≠ 0 || fld h 63 48 ≠ 0 || fld h 511 320 ≠ 0 ||
        index.toNat % 8 ≠ 0 || data.toNat % 64 ≠ 0 || !lensValid lens then .flt s (gristFlt t 1 0 g)
    else if kt * w ≠ 1536 then .flt s { cause := Cause.illegalOperand, addr := g }
    else if tiles ≤ t then .flt s (gristFlt t 2 0 g)
    else
      let ea := g + index + BitVec.ofNat 64 (8 * t)
      (s.millRead bad ea 8).bind fun b0 s =>
        let e0 := natOfBytes b0
        if 2 ^ 40 ≤ e0 then .flt s (gristFlt t 3 0 ea)
        else (s.millRead bad (ea + 8) 8).bind fun b1 s =>
          let e1 := natOfBytes b1
          let o1 := e1 % 2 ^ 40
          if 2 ^ 40 ≤ e1 || o1 < e0 || dlen < o1 || (t + 1 = tiles && o1 ≠ dlen) then .flt s (gristFlt t 3 0 (ea + 8))
          else
            let code := canonical lens
            let j : GristJob := ⟨code, (code.map (·.1)).foldl Nat.max 0, 64 * kt, t, g + data + BitVec.ofNat 64 e0, o1 - e0, bad⟩
            match j.run (8 * (o1 - e0)) ⟨s, 0, 0, 0, [], 0, []⟩ with
            | .ok r => k r.out.reverse r.s
            | .flt f s => s.failWith f 0 0
            | .hold h s => .ok (s.holdAt h .waitMem 0 0)

/-! ### `bload` and `brel` (R379 to R382) -/

/-- The matrix type of a B-tile FMT (R379). -/
def tileType (fmt : Nat) : Option Nat :=
  match fmt with
  | 0x09 => some 3
  | 0x0A => some 5
  | 0x0B => some 6
  | 0x0C => some 2
  | 0x0D => some 0
  | 0x0E => some 10
  | 0x0F => some 9
  | _ => none

/-- The tile is complete: it waits to be committed. -/
def State.millDone (s : State) (slot : Nat) (c : BSlot) : Res :=
  .ok ((s.onCore s.coreKey fun k => { k with mill := some ⟨s.cur.info.key, s.issue.slot, slot, c, s.capture.cycle⟩ }).holdAt .mill .waitMem 0 0)

/-- The scale array (R156, R380 order 5). -/
def State.scaleRead (s : State) (a : W64) (kt : Nat) (k : NatMap Byte → State → Res) : Res :=
  if a = 0 then k [] s
  else if a.toNat % 64 ≠ 0 then .flt s { cause := Cause.misaligned, addr := a }
  else (s.millRead (fun fmt _ first => if fmt = 0x08 then none else some { cause := Cause.illegalOperand, addr := first }) a (2 * kt)).bind
    fun b s => k (toMap 0x7F b) s

/-- R379, R380. -/
def execBload (q : BitVec 3) (y : BitVec 4) (c : BitVec 3) (a b : BitVec 6) (s : State) : Out :=
  let m := y.toNat
  let w := matWidth m
  let kt := 1536 / w
  let base := s.uread 0 a.toNat
  let scales := s.uread 1 (a.toNat + 1)
  let t := (s.uread 2 b.toNat).toNat
  let slot := fun (tile : List Byte) (sc : NatMap Byte) => BSlot.mk m (toMap 0 tile) sc s.cur.info.ctx s.pid []
  (s.matGuard [] [a.toNat, a.toNat + 1, b.toNat] false
    (if (s.core s.coreKey).mill.isSome || s.slotInUse q.toNat then s.matWait
    else match s.millPage base with
      | .flt f s => s.failWith f 0 0
      | .hold h s => .ok (s.holdAt h .waitMem 0 0)
      | .ok page _ s =>
        let fmt := page.fmt
        if fmt = 0x10 then
          if s.tabling c.toNat then s.matWait else
          match s.tableSlot c.toNat with
          | none => .flt s { cause := Cause.illegalOperand, addr := BitVec.ofNat 64 c.toNat }
          | some es =>
            let codes := es.map (exactCode m)
            match (List.range 16).find? fun i => (codes.getD i none).isNone with
            | some i => .flt s { cause := Cause.inexactCodebook, addr := BitVec.ofNat 64 i }
            | none =>
              s.scaleRead scales kt fun sc s => s.gristLoad base t w fun syms s =>
                s.millDone q.toNat (slot (packTile w (syms.map fun x => ((codes.getD x none).getD 0))) sc)
        else if tileType fmt ≠ some m then .flt s { cause := Cause.illegalOperand, addr := base }
        else if base.toNat % 64 ≠ 0 then .flt s { cause := Cause.misaligned, addr := base }
        else s.scaleRead scales kt fun sc s =>
          (s.millRead (fun f page _ => if f = fmt then none else some { cause := Cause.illegalOperand, addr := page })
            (base + BitVec.ofNat 64 (12288 * t)) 12288).bind fun bs s => s.millDone q.toNat (slot bs sc))).out

/-- R382. -/
def execBrel (q : BitVec 3) (s : State) : Out :=
  (s.matGuard [] [] false
    (if s.slotInUse q.toNat then s.matWait
    else match oget (s.core s.coreKey).bslots q.toNat with
      | none => .ok s.advance
      | some b =>
        if b.ctx = s.cur.info.ctx && b.part = s.pid then
          .ok (s.onCore s.coreKey fun k => { k with bslots := odel k.bslots q.toNat }).advance
        else illegal s)).out

/-! ### `mma` (R383 to R388) -/

/-- K of a product (R383). -/
def mmaK (wa wb : Nat) : Nat := 1536 / Nat.max wa wb

/-- Bytes of the A tile, and of its scales (R384). -/
def mmaBytes (k wa : Nat) : Nat := 32 * k * wa / 8
def mmaScaleBytes (k : Nat) : Nat := 32 * k / 32

/-- Checks 5 to 7 of R385 on the ranges: address, length, alignment. -/
def State.mmaRanges (s : State) (rs : List (W32 × Nat × Nat)) : Option Flt :=
  let win := s.cur.info.localKib * 1024
  let blk := s.cur.info.key.blk
  let at_ := fun (a : W32) (c : BitVec 8) => some ({ cause := c, addr := laOf a } : Flt)
  (rs.findSome? fun r => if fld r.1 31 20 ≠ 0 || win < fld r.1 19 0 + r.2.1 then at_ r.1 Cause.registerWindow else none).orElse fun _ =>
  (rs.findSome? fun r => if r.1.toNat % r.2.2 ≠ 0 then at_ r.1 Cause.misaligned else none).orElse fun _ =>
  rs.findSome? fun r =>
    ((List.range (r.2.1 / 64 + 2)).find? fun i => fld r.1 19 0 / 64 * 64 + 64 * i < fld r.1 19 0 + r.2.1 &&
      s.mappedAt blk (fld r.1 19 0 / 64 * 64 + 64 * i)).bind fun i =>
        at_ (BitVec.ofNat 32 (Nat.max (fld r.1 19 0) (fld r.1 19 0 / 64 * 64 + 64 * i))) Cause.illegalOperand

/-- Lines of the ranges touched as loads (R91). -/
def State.touchRanges (s : State) (rs : List (W32 × Nat × Nat)) : LOut :=
  rs.foldl (fun acc r => (List.range (r.2.1 / 64 + 2)).foldl (fun acc i =>
    match acc with
    | .ok s =>
      let o := fld r.1 19 0 / 64 * 64 + 64 * i
      if o < fld r.1 19 0 + r.2.1 then s.winReady s.cur.info.key.blk o 1 false false (laOf r.1) else .ok s
    | e => e) acc) (.ok s)

/-- A job of the group on the tile is not complete (R388). -/
def State.tileBusy (s : State) (tile : Nat) : Bool :=
  (s.core s.coreKey).mmaQ.any fun j => j.group = s.cur.info.key && j.tile = tile

/-- Lanes whose A bytes or scales lie in a poisoned word. -/
def Block.aPoison (b : Block) (a : Nat) (sa : Option Nat) (k wa : Nat) : Mask :=
  if b.winPoison.isEmpty then 0
  else maskOf fun l =>
    ((List.range (k / 16)).any fun g => b.poisonedAt (a + g * 64 * wa + l * 2 * wa) (2 * wa)) ||
    match sa with
    | some x => (List.range (k / 32)).any fun j => b.poisonedAt (x + j * 32 + l) 1
    | none => false

/-- `mma` and `mma.z` (R385, R386): operands are captured and the job queues at its macro. -/
def State.mmaOp (s : State) (c : BitVec 2) (q : BitVec 3) (y : BitVec 4) (a b : BitVec 6) (zero : Bool) : Res :=
  s.matGuard [] [a.toNat, b.toNat] s.guardReads
    (if s.cur.info.acc ≤ c.toNat then .flt s { cause := Cause.registerWindow }
    else if s.loading q.toNat then s.matWait
    else match oget (s.core s.coreKey).bslots q.toNat with
      | none => illegal s
      | some sl =>
        let wa := matWidth y.toNat
        let wb := matWidth sl.btype
        let k := mmaK wa wb
        let la : W32 := (s.uread 0 a.toNat).setWidth 32
        let ls : W32 := (s.uread 1 b.toNat).setWidth 32
        let has := b ≠ 0
        let rs := (la, mmaBytes k wa, 128) :: if has then [(ls, mmaScaleBytes k, 32)] else []
        if sl.ctx ≠ s.cur.info.ctx || sl.part ≠ s.pid then illegal s
        else if matFloat y.toNat != matFloat sl.btype then illegal s
        else match s.mmaRanges rs with
          | some f => .flt s f
          | none =>
            if 2 ≤ ((s.core s.coreKey).mmaQ.filter (·.slot = q.toNat)).length then s.matWait
            else match s.touchRanges rs with
              | .flt f s => .flt s f
              | .hold h s => .ok (s.holdAt h .waitMem 0 0)
              | .ok s =>
                match s.myBlock with
                | none => .ok s.advance
                | some blk =>
                  let j : MmaJob := {
                    group := s.cur.info.key, tile := c.toNat, slot := q.toNat, zero := zero, atype := y.toNat
                    mask := s.active
                    a := toMap 0 (blk.readWin (fld la 19 0) (mmaBytes k wa))
                    scales := if has then toMap 0x7F (blk.readWin (fld ls 19 0) (mmaScaleBytes k)) else []
                    hasScales := has
                    poison := blk.aPoison (fld la 19 0) (if has then some (fld ls 19 0) else none) k wa
                    bslot := sl }
                  let macs := popMask s.active * 64 * k
                  let s := s.charge s.coreKey s.cur.info.key (macs * 246 * wa * wb / 64)
                  .ok (s.onCore s.coreKey fun x => { x with mmaQ := x.mmaQ ++ [j] }).advance)

/-- R386. -/
def execMma (c : BitVec 2) (q : BitVec 3) (y : BitVec 4) (a b : BitVec 6) (s : State) : Out := (s.mmaOp c q y a b false).out

/-- R386: from +0. -/
def execMmaZ (c : BitVec 2) (q : BitVec 3) (y : BitVec 4) (a b : BitVec 6) (s : State) : Out := (s.mmaOp c q y a b true).out

/-- A fragment waits still: for the mill or a slot, for a macro or a tile, or for a table slot (R375, R388). -/
def State.matBlocked (s : State) (g : Group) (slot : Bool) (i : Instr) : Bool :=
  let s := { s with cur := g, issue := { s.issue with slot := slot } }
  match i with
  | .bload q _ c _ _ => (s.core s.coreKey).mill.isSome || s.slotInUse q.toNat || s.tabling c.toNat
  | .brel q => s.slotInUse q.toNat
  | .mma _ q _ _ _ => s.loading q.toNat || 2 ≤ ((s.core s.coreKey).mmaQ.filter (·.slot = q.toNat)).length
  | .mmaZ _ q _ _ _ => s.loading q.toNat || 2 ≤ ((s.core s.coreKey).mmaQ.filter (·.slot = q.toNat)).length
  | .tblld c _ => s.tabling c.toNat
  | .tblrd _ c => s.tabling c.toNat
  | .accz t => s.tileBusy t.toNat
  | .accrd t _ _ _ => s.tileBusy t.toNat
  | .accwr t _ _ _ => s.tileBusy t.toNat
  | .accsc t _ _ _ => s.tileBusy t.toNat
  | .cvt _ _ i => s.tabling (fld i 6 5)
  | .cvtsr _ _ i => s.tabling (fld i 6 5)
  | _ => false

/-- Matrix instructions that nothing holds back any more go on. -/
def State.wakeMatrix (s : State) : State :=
  let go := fun (g : Group) (b : Bool) (f : Frag) => match f.hold, f.cap with
    | .mill, some c => if s.matBlocked g b c.word.instr then f else { f with st := .ready, hold := .none }
    | _, _ => f
  s.mapGroups fun g => { g with f0 := go g false g.f0, f1 := go g true g.f1 }

/-! ### Accumulation (R167, R168) -/

/-- Rounding of a group: rne to f32, overflow to infinity, subnormals kept. -/
def accCtl : RoundCtl := ⟨Rnd.rne, 0, 1, false⟩

/-- `round_f32(x + Σ products)` of one group. -/
def accStep (x : Nat) (ps : List FVal) : Nat := (tyF32.round accCtl (ps.foldl (FVal.add false) (tyF32.decode x))).bits

/-- Sixteen at a time. -/
def groups16 : Nat → List FVal → List (List FVal)
  | 0, _ => []
  | n + 1, l => l.take 16 :: groups16 n (l.drop 16)

/-- The groups of a row and a column in ascending order. -/
def accRow (k x : Nat) (ps : List FVal) : Nat := (groups16 (k / 16) ps).foldl accStep x

/-- Elements of a packed number. -/
def elems (w n v : Nat) : List Nat := (List.range n).map fun i => v / 2 ^ (w * i) % 2 ^ w

/-- Elements of a lane's A row with their scales (R384). -/
def MmaJob.row (j : MmaJob) (k l : Nat) : List FVal :=
  let wa := matWidth j.atype
  let as := denseFrom 0 0 (mmaBytes k wa) j.a
  let ss := denseFrom 0x7F 0 (mmaScaleBytes k) j.scales
  let els := (List.range (k / 16)).flatMap fun g =>
    elems wa 16 (natOfBytes ((as.drop (g * 64 * wa + l * 2 * wa)).take (2 * wa)))
  (els.zipIdx).map fun e => (matVal j.atype e.1).mul (e8m0Val (ss.getD (e.2 / 32 * 32 + l) 0x7F).toNat)

/-- Elements of a B column with their scales (R156, R160). -/
def BSlot.column (b : BSlot) (k c : Nat) : List FVal :=
  let w := matWidth b.btype
  let kt := 1536 / w
  let bytes := (denseFrom 0 0 12288 b.tile).drop (192 * c) |>.take 192
  let ss := denseFrom 0x7F 0 (2 * kt) b.scales
  ((elems w k (natOfBytes bytes)).zipIdx).map fun e =>
    (matVal b.btype e.1).mul (e8m0Val (ss.getD (c * (kt / 32) + e.2 / 32) 0x7F).toNat)

/-- Words of a B slot that a product with K elements of each column reads: of the tile, and from word 3072 on of the scales
(R156, R160, R373). -/
def BSlot.reads (b : BSlot) (k word : Nat) : Bool :=
  let per := 1536 / matWidth b.btype / 32
  if word < 3072 then word % 48 * 32 < k * matWidth b.btype
  else (List.range 4).any fun i => (4 * (word - 3072) + i) % per < k / 32

/-- A product as the sum takes it: integers are exact and have no −0 (R168). -/
def prodOf (float : Bool) : FVal → FVal
  | .fin neg m e => .fin (neg && (float || m ≠ 0)) m e
  | x => x

def accIx (t l c : Nat) : Nat := (32 * t + l) * 64 + c

/-- The tile rows that a job writes (R386, R387). -/
def Group.runMma (g : Group) (j : MmaJob) : Group :=
  let k := mmaK (matWidth j.atype) (matWidth j.bslot.btype)
  let cols := (List.range 64).map (j.bslot.column k)
  let slotBad := j.bslot.poison.any fun e => e.2 && j.bslot.reads k e.1
  let g := forLanes j.mask (fun l g =>
    let row := j.row k l
    cols.zipIdx.foldl (fun g c =>
      let x := if j.zero then 0 else (mget 0 g.acc (accIx j.tile l c.2)).toNat
      let v := accRow k x ((row.zip c.1).map fun p => prodOf (matFloat j.atype) (p.1.mul p.2))
      { g with acc := mset 0 g.acc (accIx j.tile l c.2) (BitVec.ofNat 32 v) }) g) g
  let old := mget 0 g.accPoison j.tile
  let kept := if j.zero then old &&& ~~~j.mask else old
  { g with accPoison := mset 0 g.accPoison j.tile (kept ||| (if slotBad then j.mask else j.mask &&& j.poison)) }

/-! ### Accumulator access (R389) -/

/-- Checks 1 to 3 of R389: tile, columns, registers. -/
def State.accGuard (s : State) (t : BitVec 2) (vs : List Nat) (b : Option (BitVec 6 × Nat)) (k : Nat → Res) : Res :=
  let col := match b with
    | some (r, _) => (s.uread 0 r.toNat).toNat
    | none => 0
  let n := match b with
    | some (_, c) => c
    | none => 0
  s.matGuard vs (match b with | some (r, _) => [r.toNat] | none => []) s.guardReads
    (if s.cur.info.acc ≤ t.toNat then .flt s { cause := Cause.registerWindow }
    else if 64 < col + n then illegal s
    else if !vs.all (· < s.cur.info.nregs) then .flt s { cause := Cause.registerWindow }
    else if s.tileBusy t.toNat then s.matWait
    else k col)

/-- R389. -/
def execAccz (t : BitVec 2) (s : State) : Out :=
  (s.accGuard t [] none fun _ =>
    .ok (s.onCur fun g =>
      { g with
        acc := g.acc.filter fun e => !(e.1 / 2048 = t.toNat && s.active.getLsbD (e.1 / 64 % 32))
        accPoison := mset 0 g.accPoison t.toNat (mget 0 g.accPoison t.toNat &&& ~~~s.active) }).advance).out

/-- Types that `accrd` converts to. -/
def accTypes (t : Nat) : Bool :=
  t = 0x0A || t = 0x08 || t = 0x09 || t = 0x0B || t = 0x0C || t = 0x0D || t = 0x00 || t = 0x04 || t = 0x01 || t = 0x05 ||
  t = 0x02 || t = 0x06

/-- R389. -/
def execAccrd (t : BitVec 2) (v : BitVec 7) (b : BitVec 6) (n : BitVec 2) (s : State) : Out :=
  (s.accGuard t ((List.range (countOf n)).map (v.toNat + ·)) (some (b, countOf n)) fun col =>
    if !accTypes s.ty then illegal s
    else
      let bad := s.active &&& mget 0 s.cur.accPoison t.toNat &&& ~~~s.frag.done
      let good := s.active &&& ~~~s.frag.done &&& ~~~mget 0 s.cur.accPoison t.toNat
      let c : RoundCtl := ⟨noRsr (modeRnd s.mode), 0, ovtEntry s.operands.ovt ((floatTy s.ty).getD tyF32), s.ftz⟩
      let s' := s.defer ((lanesOf good).flatMap fun l => (List.range (countOf n)).map fun i =>
        .vec (v.toNat + i) l (BitVec.ofNat 32
          (convert 0x0A s.ty s.sat c [] [] (mget 0 s.cur.acc (accIx t.toNat l (col + i))).toNat).1.bits))
      if bad = 0 then .ok s'.advance
      else .flt s' { cause := Cause.poison, done := s.active &&& ~~~bad }).out

/-- R389. -/
def execAccwr (t : BitVec 2) (v : BitVec 7) (b : BitVec 6) (n : BitVec 2) (s : State) : Out :=
  (s.accGuard t ((List.range (countOf n)).map (v.toNat + ·)) (some (b, countOf n)) fun col =>
    .ok (s.onCur fun g => forLanes s.active (fun l g => forN (countOf n) (fun i g =>
      { g with acc := mset 0 g.acc (accIx t.toNat l (col + i)) (s.vread 0 (v.toNat + i) l) }) g) g).advance).out

/-- R389. -/
def execAccsc (t : BitVec 2) (v : BitVec 7) (b : BitVec 6) (n : BitVec 2) (s : State) : Out :=
  (s.accGuard t [v.toNat] (some (b, countOf n)) fun col =>
    .ok (s.onCur fun g => forLanes s.active (fun l g => forN (countOf n) (fun i g =>
      let ix := accIx t.toNat l (col + i)
      let x := FVal.mul (s.f32In (mget 0 g.acc ix).toNat) (s.f32In (s.vread 0 v.toNat l).toNat)
      let r := tyF32.round { s.ctl tyF32 with ovt := 1 } x
      { g with acc := mset 0 g.acc ix (BitVec.ofNat 32 r.bits) }) g) g).advance).out

end Sys2Proof.Machine
end

