-- ==== Sys2Proof/Machine/Observe.lean ====
section
/-! DEFINITION. `perfrd`, `enrd`, `tsrd` and `sample` (R428 to R430). -/

namespace Sys2Proof.Machine

/-- A counter that R429 assigns. -/
def counterExists (i : Nat) : Bool := i < 0x06 || (0x40 ≤ i && i < 0x48) || (0x80 ≤ i && i < 0x86) || (0xC0 ≤ i && i < 0xC3)

/-- The allow-list of the group's grid lets it read a counter (R430). -/
def State.counterAllowed (s : State) (i : Nat) : Bool :=
  let g := (s.part s.pid).grids.find? (·.handle = s.cur.info.key.blk.grid)
  counterExists i && match g.bind (·.allow) with
    | some bits => bits.getLsbD i
    | none => decide (i ≤ 0x3F)

def State.counter (s : State) (i : Nat) : W64 :=
  if i < 0x40 then mget 0 s.cur.ctrs i
  else if i < 0x80 then mget 0 (s.core s.coreKey).ctrs i
  else if i < 0xC0 then mget 0 (s.slice s.cur.info.slice).ctrs i
  else mget 0 (s.part s.pid).ctrs i

/-- R428: V is written at issue. -/
def execPerfrd (d : BitVec 6) (i : BitVec 12) (s : State) : Out :=
  let ok := s.counterAllowed i.toNat
  let f := s.flread 0
  (s.guardRegs [] [d.toNat] false true
    (.ok ((s.flwrite (codesOf (Codes.c f) (Codes.z f) (Codes.n f) !ok)).defer [.uni d.toNat (if ok then s.counter i.toNat else 0)]).advance)).out

/-- R428. -/
def execEnrd (d : BitVec 6) (_i : BitVec 12) (s : State) : Out :=
  (s.guardRegs [] [d.toNat] false false (.ok (s.defer [.uni d.toNat s.cur.energy]).advance)).out

/-- R428. -/
def execTsrd (d : BitVec 6) (i : BitVec 12) (s : State) : Out :=
  (s.guardRegs [] [d.toNat] false false
    (.ok (s.defer [.uni d.toNat (BitVec.ofNat 64 (if i = 0 then s.ttime s.cur.info.slice else s.refns))]).advance)).out

/-- R428. -/
def execSample (a : BitVec 6) (s : State) : Out :=
  let v : W32 := (s.uread 0 a.toNat).setWidth 32
  let s' := s.advance
  (s.guardRegs [] [a.toNat] false false (.ok (s'.emit s'.cur s.issue.slot (.mark v)))).out

end Sys2Proof.Machine
end

