-- ==== Sys2Proof/Machine/Arbiter.lean ====
section
/-! DEFINITION. Steps inside a core: the fragment arbiter (R212), results that arrive (R210, R250), the ends of sleeps
and waits (R281, R349, R365), mill loads and products that finish (R381, R388). -/

namespace Sys2Proof.Machine

/-! ### The fragment arbiter (R212) -/

/-- One arbiter step of the group that `args` names, if its rule is the first that matches. -/
def State.arbiter (s : State) (i : Instr) (act : Group → State → State) : Out :=
  match s.group? s.args.group with
  | some g => .next (
      if g.arbitrates && (g.arbiterRule = some i || (i = .arbiterFuse && g.canFuse)) then act g s else s)
  | none => .next s

/-- The fused fragment: the lower slot takes both masks and keeps its state, or READY where the states differ. -/
def Frag.fuse (a b : Frag) : Frag :=
  let st := if a.st = b.st then a.st else .ready
  { a with
    mask := a.mask ||| b.mask, lead := false, lag := false
    st := if st = .waitLag then .ready else st
    hold := if a.st = b.st then a.hold else .none
    sleeping := a.sleeping && b.sleeping, yielded := false, waited := 0
    unwatched := a.unwatched && b.unwatched, halted := a.halted || b.halted }

/-- A `join` or barrier whose condition is met: READY after a `join`, arrival at a barrier. -/
def State.meetPoint (s : State) (k : GroupKey) (slot : Bool) : State :=
  match s.group? k with
  | none => s
  | some g =>
    let f := g.frag slot
    if f.mask ≠ g.live then s
    else if f.st = .waitJoin then s.setGroup (g.finish slot)
    else if g.unarrived f then s.barArrive k (f.hold = .gbar)
    else s

/-- R212 rule 1. -/
def execArbiterFuse (s : State) : Out :=
  s.arbiter .arbiterFuse fun g s =>
    let s := (s.setGroup ((g.setFrag false (g.f0.fuse g.f1)).setFrag true .none)).meetPoint g.info.key false
    s.emitOf g.info.key false (.frag 1)

/-- R212 rule 2. -/
def execArbiterPop (s : State) : Out :=
  s.arbiter .arbiterPop fun g s =>
    match g.stack with
    | [] => s
    | top :: rest =>
      let slot := g.f0.st ≠ .free
      (s.setGroup (({ g with stack := rest }).setFrag slot top)).emitOf g.info.key slot (.frag 2)

/-- The slot whose PC is higher; slot 1 when the PCs are equal. -/
def Group.higher (g : Group) : Bool := decide (g.f0.pc.toNat ≤ g.f1.pc.toNat)

/-- R212 rule 3. -/
def execArbiterExchange (s : State) : Out :=
  s.arbiter .arbiterExchange fun g s =>
    (s.setGroup (g.exchange g.higher)).emitOf g.info.key g.higher (.frag 3)

/-- R212 rule 4: the fragment goes on after its `rcv`, the lower PC first. -/
def execArbiterReleaseRcv (s : State) : Out :=
  s.arbiter .arbiterReleaseRcv fun g s =>
    let slot := if g.f0.st = .waitRcv && g.f1.st = .waitRcv then !g.higher else g.f0.st ≠ .waitRcv
    (s.setGroup (g.finish slot)).emitOf g.info.key slot (.frag 4)

/-- R212 rule 5. -/
def execArbiterJoinMet (s : State) : Out :=
  s.arbiter .arbiterJoinMet fun g s =>
    let slot := g.f0.st = .free
    let s := s.meetPoint g.info.key slot
    if (g.frag slot).st = .waitJoin then s.emitOf g.info.key slot (.frag 4) else s

/-- R212 rule 6: the fault is raised at the instruction of the higher slot. -/
def execArbiterJoinError (s : State) : Out :=
  s.arbiter .arbiterJoinError fun g s =>
    let s := s.focus g.info.key
    State.raise { s with issue := ⟨g.higher, false, false, 1, (g.frag g.higher).pc, .join⟩ } { cause := Cause.illegalOperand }

/-! ### Results that arrive -/

/-- A fragment whose results are all written leaves its wait before a W marker (R249). -/
def Group.resultsIn (g : Group) : Group :=
  let go := fun (f : Frag) =>
    if f.hold = .results && g.pend.all fun p => p.mask &&& f.mask = 0 then { f with st := .ready, hold := .none } else f
  { g with f0 := go g.f0, f1 := go g.f1 }

/-- R210: the missing lanes of a miss split have their data. -/
def execLagDataReturn (s : State) : Out :=
  .next (s.onGroup s.args.group fun g =>
    let f := g.frag s.args.frag
    if f.lag && f.st = .waitMem && f.hold = .none then
      ((g.drain f.mask).onFrag s.args.frag fun f => { f with st := .ready }).resultsIn
    else g)

/-- R250: one outstanding result is written, whole; of a parked group, to its cellar copy (R216). -/
def execResultWriteback (s : State) : Out :=
  .next (s.onGroup s.args.group fun g =>
    match g.pend[s.args.n]? with
    | none => g
    | some p =>
      let g' := p.writes.foldl (fun g w => w.apply g) g
      Group.resultsIn { g' with pend := g.pend.eraseIdx s.args.n })

/-- R281. -/
def execSleepExpire (s : State) : Out :=
  .next (s.onGroup s.args.group fun g => g.onFrag s.args.frag fun f => { f with sleeping := false })

/-! ### Waits that end -/

/-- The group of a device step in focus, with its waiting fragment's instruction as the one at issue. -/
def State.resumeAt (s : State) : State :=
  let s' := s.focus s.args.group
  let f := s'.cur.frag s.args.frag
  { s' with issue := match f.cap with
      | some c => ⟨s.args.frag, c.word.w, c.word.s, c.word.words, f.pc, c.word.instr⟩
      | none => ⟨s.args.frag, false, false, 1, f.pc, .nop⟩ }

/-- Lowest lane of a slot that is still held at a word, and the local address by which it named it. -/
def State.lowestWaiting (s : State) (k : GroupKey) (slot : Bool) : Option (Nat × W64) :=
  let l := s.blocks.flatMap fun b => b.waitQ.filterMap fun w => match w.who with
    | .lane g sl lane _ => if g = k && sl = slot then some (lane, w.addr) else none
    | .sub _ => none
  l.foldl (fun best x => match best with
    | none => some x
    | some y => if x.1 < y.1 then some x else best) none

/-- The word that a held handoff batch of a goal waits at, in the subscriber's window (R363). -/
def State.heldWord (s : State) (gs : List UpdateGoal) : Option Nat :=
  (s.unmet gs).findSome? fun u =>
    match (s.block? u.blk).bind fun b => oget b.outb u.handle with
    | none => none
    | some e => match s.block? e.peer with
      | none => none
      | some p => (p.waitQ.find? fun w => w.who = Waiter.sub e.peerHandle).map (·.off)

/-- The address registers of a tagged instruction. -/
def tagBase : Instr → Option (BitVec 7 × BitVec 4)
  | .ldf _ o b _ => some (o, b)
  | .ldfTake _ o b _ => some (o, b)
  | .ste _ o b _ => some (o, b)
  | _ => none

/-- The local address of the lowest lane that a slot's tagged instruction has not served. -/
def State.unserved (s : State) (g : Group) (slot : Bool) : Option W64 :=
  let s := State.resumeAt { s with args := { g.args with frag := slot } }
  match (lanesOf (s.active &&& ~~~s.frag.done)).head?, tagBase s.issue.instr with
  | some l, some (o, b) => some (laOf (s.localEa o (b.setWidth 6) l))
  | _, _ => none

/-- What a TAG_TIMEOUT of a waiting fragment reports as TADDR; none while the wait has no limit (R102, R349, R363,
R365); LIMIT 0 sets none. -/
def State.timeoutAddr (s : State) (g : Group) (slot : Bool) : Option W64 :=
  let f := g.frag slot
  if fld (s.part g.info.key.blk.part).tagto 5 0 = 0 then none
  else match f.hold with
  | .counter a _ => some a
  | .flush gs => (s.heldWord gs).map (BitVec.ofNat 64 ·)
  | .depart gs => (s.heldWord gs).map (BitVec.ofNat 64 ·)
  | _ => (s.lowestWaiting g.info.key slot).map fun w => (s.unserved g slot).getD w.2

/-- Cycles after which a tagged wait ends: 1 to 9 act as 10, 41 to 63 as 40 (R349). -/
def tagLimit (tagto : W64) : Nat :=
  let l := fld tagto 5 0
  2 ^ (if l < 10 then 10 else if 40 < l then 40 else l)

/-- A wait has lasted that long: from the issue of its instruction, or at a free time for the departure from a barrier. -/
def State.timedOut (s : State) (g : Group) (slot : Bool) : Bool :=
  (s.timeoutAddr g slot).isSome && match (g.frag slot).cap with
    | some c => decide (c.cycle + tagLimit (s.part g.info.key.blk.part).tagto ≤ s.cycle)
    | none => true

/-- The updates that a `gbar` which raises TAG_TIMEOUT still waits for: it has arrived (R364). -/
def Frag.left (f : Frag) : Option (List UpdateGoal) := match f.hold with
  | .depart gs => some gs
  | _ => Option.none

/-- R349: TAG_TIMEOUT, the lanes served in TMASK, the others withdrawn. -/
def execTagTimeout (s : State) : Out :=
  .next (match s.group? s.args.group with
    | none => s
    | some g =>
      match s.timeoutAddr g s.args.frag with
      | none => s
      | some a =>
        let s := s.resumeAt
        let f := s.frag
        ((s.withdrawSlot g.info.key s.args.frag).onCur fun g => { g with gbarLeft := f.left }).raise { cause := Cause.tagTimeout, addr := a, done := f.done, beat := f.beat })

/-- R365: the counter is read again. -/
def execCntwaitRecheck (s : State) : Out :=
  match s.group? s.args.group with
  | none => .next s
  | some g => match (g.frag s.args.frag).hold with
    | .counter a t => (s.resumeAt.cntCheck a t).out
    | _ => .next s

/-! ### The mill and the macros -/

/-- The fragment of a mill load is still at its `bload`: no abort of a transaction has put it elsewhere (R144). -/
def MillLoad.waits (m : MillLoad) (g : Group) : Bool :=
  let f := g.frag m.frag
  f.hold = .mill && match f.cap with
    | some c => c.cycle = m.cycle
    | none => false

/-- R381: a complete tile with its scales replaces the slot's contents, and the `bload` ends. -/
def execBloadCommit (s : State) : Out :=
  .next (match (s.core s.args.coreKey).mill with
    | none => s
    | some m =>
      let s := s.onCore s.args.coreKey fun c => { c with mill := none, bslots := oset c.bslots m.slot m.content }
      (s.onGroup m.group fun g => if m.waits g then g.finish m.frag else g).charge s.args.coreKey m.group
        (energyWeight 11 * (12288 + 2 * (1536 / matWidth m.content.btype))))

/-- R388: the first product of a macro ends; products on one tile take effect in issue order. A group that waits
only for it ends. -/
def execMmaComplete (s : State) : Out :=
  .next (
    let q := (s.core s.args.coreKey).mmaQ
    match q.find? fun j => j.slot = s.args.n with
    | none => s
    | some j =>
      let before := q.takeWhile (· ≠ j)
      if before.any fun x => x.group = j.group && x.tile = j.tile then s
      else
        let s := s.onGroup j.group (·.runMma j)
        let s := s.onCore s.args.coreKey fun c => { c with mmaQ := c.mmaQ.erase j }
        (s.countCore s.args.coreKey 0x41 (8 + matWidth j.atype * popMask j.mask)).exitIfEmpty j.group)

end Sys2Proof.Machine
end

