-- ==== Sys2Proof/Machine/Lend.lean ====
section
/-! DEFINITION. Windows that are cleared (R73), stash lines that fill (R86) and lend writeback buffers (R91). -/

namespace Sys2Proof.Machine

/-- R73: the windows of a block placed for the first time are clear, and its groups run (R218), once the revocation that
makes room for them has ended (R215) and the L1 has left their place (R72); a group that one has taken back in the meantime
is parked. Their streams emit a SYNC (R416). -/
def execWindowClearDone (s : State) : Out :=
  let s := match s.block? s.args.block with
    | some b => s.trimL1 ⟨b.slice, b.core⟩
    | none => s
  let fresh := match s.block? s.args.block with
    | some b => b.restoring = 0 && (s.core ⟨b.slice, b.core⟩).revoking.isEmpty && s.l1Fits ⟨b.slice, b.core⟩
    | none => false
  let mine := fun (g : Group) => fresh && g.info.key.blk = s.args.block && g.state = .placed
  let ks := (s.allGroups.filter mine).map (·.info.key)
  let s := s.mapGroups fun g => if mine g then
    { g with gaveUp := false, state := if g.gaveUp then .parked else if g.stopReq then .stopping else .running } else g
  .next ((ks.foldl (fun s k => s.emitSyncs k) s).wake fun _ h => h = .lend)

/-! ### Stash fills (R86) -/

/-- Fragments that wait for this fill issue again. -/
def State.wakeFill (s : State) (blk : BlockKey) (line : Nat) : State := s.wake fun _ h => h = .fill blk line

/-- A line of the window takes the bytes of a fill; a poisoned line poisons its words (R128). A harvest line takes one
of the lendable lines of the owners on its core. -/
def State.fillLine (s : State) (blk : BlockKey) (line : Nat) (bs : List Byte) (poison : Bool) : State :=
  match s.block? blk with
  | none => s
  | some b =>
    let lend := s.lendable ⟨b.slice, b.core⟩
    let place := (lend.drop (s.draw 6 % lend.length)).head?
    if b.harv && place.isNone then s
    else s.setBlock { b with
      win := putWin b.win (64 * line) bs
      winPoison := (wordsOf (64 * line) 64).foldl (fun m w => mset false m w poison) b.winPoison
      stash := oset b.stash line ⟨0, if b.harv then place else none, s.cur.info.key.grp⟩ }

/-- The fill of the line that a fragment waits for, read at the home, since no L1 holds stash lines (R89); a line that cannot be
read now is left to the access, which finds why when it issues again. -/
def execStashFill (s : State) : Out :=
  .next (match s.group? s.args.group with
    | none => s
    | some g => match (g.frag s.args.frag).hold with
      | .fill blk line =>
        let s := s.resumeAt
        match (s.block? blk).bind fun b => b.entryAt (64 * line) with
        | none => s.wakeFill blk line
        | some e =>
          let gva := e.gbase + BitVec.ofNat 64 (64 * line - e.lbase)
          match s.reach Kind.load 64 gva with
          | .mem t ppa s =>
            let h := s.modeHold s.coreKey s.pid (ppa / 64) (s.homeMode t ppa)
            if !t.stash || t.fmt ≠ 0 then s.wakeFill blk line
            else if h ≠ .none then (s.backStall h s.pid (ppa / 64)).onFrag fun f => { f with hold := h }
            else
              let s := (s.modeCheck s.coreKey s.pid (ppa / 64) (s.homeMode t ppa)).copiesFor s.pid ppa t.coh t.ver
              let b := s.homeRead s.pid t.key ppa 64 .plain
              let bad := s.spoilt 4 s.coreKey
              let s := s.received 4 s.coreKey
              let s := s.traffic s.coreKey s.pid ppa 64 (drawIx 11 line 60) t.coh s.cur.info.key
              ((if b.2 then s.poisonNotice s.pid ppa else s).fillLine blk line b.1 (b.2 || bad)).wakeFill blk line
          | .host _ s => s.wakeFill blk line
          | .reg _ s => s.wakeFill blk line
          | .flt _ s => s.wakeFill blk line
          | .hold h s => s.onFrag fun f => { f with hold := h }
      | _ => s)

/-! ### Lend writeback buffers (R91) -/

/-- A fault of an agent other than a group waits to be posted (R394 to R396). -/
def asyncRecord (cause : BitVec 8) (kind : Nat) (handle : BitVec 32) (addr detail grid : W64) (priv : Bool := false) :
    BitVec 512 :=
  (0 : BitVec 64) ++ grid ++ (0 : BitVec 128) ++ detail ++ addr ++ (0 : BitVec 64) ++ handle ++
    BitVec.ofNat 32 (cause.toNat + kind * 256 + if priv then 4096 else 0)

/-- An agent handle (R396). -/
def agentHandle (sl core serial : Nat) : BitVec 32 := BitVec.ofNat 32 (sl % 16 + core % 32 * 16 + serial % 2 ^ 23 * 512)

def State.postAsync (s : State) (sl : Nat) (r : BitVec 512) : State :=
  s.onSlice sl fun x => { x with faults := x.faults ++ [⟨r, none, false⟩] }

/-- The dirty bytes of a line written at its home, in the context of a block; a write that waits is taken up later. -/
def State.writeDirty (s : State) (a : Ask) (gva : W64) (bs : List Byte) (dirty : BitVec 64) : DevOut :=
  match s.translateNow a gva with
  | .flt c d s => .flt c d s
  | .held s => .wait s
  | .lost s => .lost s
  | .ok t ppa s =>
    match (s.part a.part).space ppa with
    | .mem => (s.putMask a.part t.key (ppa / 64 * 64) t.ver bs dirty false t.coh).dev (s.knock a.part ppa)
    | .host => .flt Cause.permission (tdet 1 t.level a.kind Reason.permission 0) s
    | .none => .flt Cause.stage2 (s.mapFlt t a.kind gva).detail s
    | sp => match s.devReg a sp gva 64 with
      | .ok _ => .flt Cause.misaligned 0 s
      | .error c => .flt c 0 s

/-- A buffer writes its line to the harvest window's memory, or reports a fault of the group that wrote it. -/
def execLendWriteback (s : State) : Out :=
  .next (
    let k := s.args.coreKey
    match oget (s.core k).lend s.args.n with
    | none => s
    | some buf =>
      if buf.faulted then s
      else match s.block? buf.block with
        | none => s.onCore k fun c => { c with lend := odel c.lend s.args.n }
        | some b =>
          let gva := b.hback + BitVec.ofNat 64 (64 * buf.line)
          let flt := fun (s : State) (c : BitVec 8) (d : W64) =>
            let w := s.group? ⟨buf.block, buf.group⟩
            let h := agentHandle k.slice k.core (w.elim 0 (·.info.serial.toNat))
            (s.onCore k fun x => { x with lend := oset x.lend s.args.n { buf with faulted := true, handle := h } }).postAsync k.slice
              (asyncRecord c 3 h gva d (BitVec.ofNat 64 buf.block.grid) (w.any (·.priv)))
          match s.writeDirty ⟨buf.block.part, b.ctx, Kind.store, false⟩ gva buf.data buf.dirty with
          | .ok _ _ s =>
            (s.onCore k fun c => { c with lend := odel c.lend s.args.n }).wake fun _ h => h = .lend
          | .flt c d s => flt s c d
          | .lost s => flt s Cause.shutter 0
          | .wait s => s)

end Sys2Proof.Machine
end

