-- ==== Sys2Proof/Machine/Mtc.lean ====
section
/-! DEFINITION. The trust controller: its commands (R14 to R16, R20, R21, R27, R28, R30, R32), the resize procedure (R33
to R41), attestation (R459), and errors and faults that it reports (R17, R19, R22, R127, R132). -/

namespace Sys2Proof.Machine

/-! ### Checks -/

/-- Tops of MARG0 or MARG1. -/
def topH (m : W64) : Nat := fld m 10 0
def topT (m : W64) : Nat := fld m 27 16

/-- Reserved fields of MARG0 and MARG1 are zero (R20). -/
def margOk (m : W64) : Bool := fld m 15 11 = 0 && fld m 31 28 = 0 && !m.getLsbD 44 && fld m 63 58 = 0

def topsOk (m : W64) : Bool := 1 ≤ topH m && topH m ≤ 1024 && topT m ≤ 2048

/-- Buckets that a slice homes, LOST ones of no slice (R19). -/
def Partition.held (p : Partition) (sl : Nat) : List Nat :=
  (List.range 1024).filter fun b =>
    fld (mget 0 p.buckets b) 3 0 = sl && !(mget 0 p.buckets b).getLsbD 9

/-- R28 for one slice. -/
def fits (buckets htop ttop : Nat) : Bool := buckets * htop ≤ 65536 && buckets * ttop ≤ 131072

/-- R28 for every member. -/
def Partition.capacity (p : Partition) (htop ttop : Nat) : Bool :=
  p.members.all fun m => fits (p.held m).length htop ttop

/-- Buckets that a member of rank `i` among `n` homes after FORM (R27). -/
def roundRobin (n i : Nat) : Nat := ((List.range 1024).filter fun b => b % n = i).length

/-- A region of memory lies below the tops. -/
def below (htop ttop base size : Nat) : Bool :=
  if base < 0x010000000000 then base + size ≤ htop * 2 ^ 30 else base + size ≤ 0x010000000000 + ttop * 2 ^ 30

def trLog2 (b : W64) : Nat := let l := fld b 5 0; if 6 ≤ l && l ≤ 24 then l else 6

/-- Frames of a slice that are not written yet. -/
def State.framesHeld (s : State) (sl : Nat) : Bool :=
  s.cores.any fun c => c.key.slice = sl && (!c.trace.frame.isEmpty || !c.trace.held.isEmpty || !c.trace.outcomes.isEmpty)

/-- The regions of a partition that enabled device registers name (R33): base and size. -/
def State.regions (s : State) (x : Partition) : List (Nat × Nat) :=
  let at12 := fun (w : W64) => fld w 47 12 * 4096
  let last := fld x.xctb 59 48
  (if x.xctb.getLsbD 0 then [(at12 x.xctb, 32 * (last + 1))] else []) ++
  (if x.qtbase.getLsbD 0 then [(at12 x.qtbase, 64 * (fld x.qtbase 57 48 + 1))] else []) ++
  (if x.spool.getLsbD 0 then [(fld x.spool 47 11 * 2048, fld x.spool 63 48 * 2048)] else []) ++
  (if x.vpbase.getLsbD 0 then [(fld x.vpbase 39 12 * 4096, 128 * fld x.vpsize 23 0)] else []) ++
  (if x.svpool.getLsbD 0 then [(fld x.svpool 47 16 * 65536, fld x.svpool 63 48 * 65536)] else []) ++
  (if x.flring.getLsbD 0 then [(at12 x.flring, 64 * 2 ^ ringLog x.flring)] else []) ++
  (if 0 < fld x.peertb 63 48 then [(at12 x.peertb, 64 * fld x.peertb 63 48)] else []) ++
  (if x.pcalw.getLsbD 0 then [(at12 x.pcalw, 32 * (last + 1))] else []) ++
  x.members.flatMap fun m =>
    let y := s.slice m
    (if y.fqbase.getLsbD 0 then [(at12 y.fqbase, 64 * 2 ^ ringLog y.fqbase)] else []) ++
    (if y.trctl.getLsbD 0 || s.framesHeld m then [(at12 y.trbase, 64 * 2 ^ trLog2 y.trbase)] else [])

def State.regionsBelow (s : State) (x : Partition) (m : W64) : Bool :=
  (s.regions x).all fun r => below (topH m) (topT m) r.1 r.2

/-! ### Keys (R32) -/

/-- Key ranges that another partition or id holds. -/
def State.keyRanges (s : State) (but : Nat) : List (Nat × Nat) :=
  ((s.parts.filter (·.id ≠ but)).map fun p => (p.kbase.toNat, p.kcount.toNat)) ++
  (s.mtc.keyResv.filter (·.1 ≠ but)).map (·.2)

/-- The range for a new partition: the one reserved, else the lowest free key. -/
def State.keysFor (s : State) (p : Nat) : Option (Nat × Nat) :=
  match oget s.mtc.keyResv p with
  | some r => some r
  | none =>
    ((List.range 4096).find? fun k => (s.keyRanges p).all fun r => k < r.1 || r.1 + r.2 ≤ k).map (·, 1)

/-! ### Rows and slices that are discarded -/

/-- Rows at or above the tops go (R34); when they return below a top they read zero. -/
def State.discardAbove (s : State) (p htop ttop : Nat) : State :=
  let gone := fun (a : Nat) => a / 2 ^ 48 = p && !below htop ttop (a % 2 ^ 48) 1
  { s with
    mem := s.mem.filter fun e => !gone e.1
    lineKey := s.lineKey.filter fun e => !gone (64 * e.1)
    poison := s.poison.filter fun e => !gone (64 * e.1)
    stale := s.stale.filter fun e => !gone (4 * e.1)
    cores := s.cores.map fun c => c.keepL1 fun l => !(l.part = p && !below htop ttop (64 * l.line) 1)
    slices := s.slices.map fun y => { y with llc := y.llc.filter fun e => !gone (64 * e.1) }
    parts := s.parts.map fun x =>
      if x.id = p then { x with chains := x.chains.filter fun e => below htop ttop (64 * e.1) 1 } else x }

/-- The tops of a partition change. -/
def State.setTops (s : State) (p : Nat) (m : W64) : State :=
  (s.discardAbove p (topH m) (topT m)).onPart p fun x =>
    { x with htop := BitVec.ofNat 11 (topH m), ttop := BitVec.ofNat 12 (topT m) }

/-- Scrub of a sealed slice (R39): cores, clusters, host cores, trace, counters and translation caches go; its
registers take their reset values. The groups of a block that has been saved stay (R469). -/
def State.scrubSlice (s : State) (sl : Nat) : State :=
  let mine := fun (g : Group) => g.info.slice = sl && g.state ≠ .none && (s.block? g.info.key.blk).all (·.placed)
  let s := if mine s.cur then { s with cur := Group.start .none .none } else s
  { s with
    groups := s.groups.filter fun g => !mine g
    blocks := s.blocks.filter fun b => b.slice ≠ sl || !b.placed
    cores := s.cores.filter (·.key.slice ≠ sl)
    spoiled := s.spoiled.filter (·.2.slice ≠ sl)
    clusters := s.clusters.filter fun e => e.1 / Config.clusters ≠ sl
    slices := s.slices.map fun (x : Slice) =>
      if x.id = sl then { Slice.reset sl with srdy := x.srdy, power := x.power, failed := x.failed, scrubbing := true }
      else { x with claims := x.claims.filter (·.1.slice ≠ sl) } }

/-! ### FORM (R21, R27, R30, R32) -/

/-- Bits of an interrupt route after FORM for kind `k`: host core 0 of the lowest slice. -/
def formRoute (lowest k : Nat) : BitVec 32 := BitVec.ofNat 32 (lowest + if k = 7 then 128 + 256 else 0)

def routesOf (mask : BitVec 16) (lowest : Nat) (irt : NatMap (BitVec 32)) (only : Nat → Bool) : NatMap (BitVec 32) :=
  (List.range 256).foldl (fun m i =>
    if mask.getLsbD (i / 16) && only (i / 16) then mset 0 m i (formRoute lowest (i % 16)) else m) irt

/-- Network boot of a slice's boot host core (R457). -/
def State.bootHost (s : State) (sl : Nat) : State := s.onHcore sl 0 fun h => { h with online := true, booted := true }

/-- A new partition with its shutters open. -/
def State.formPart (s : State) (p : Nat) (mask : BitVec 16) (m : W64) (keys : Nat × Nat) : State :=
  let ms := (List.range 16).filter (mask.getLsbD ·)
  let lowest := ms.headD 0
  let buckets := (List.range 1024).foldl (fun t b => mset 0 t b (BitVec.ofNat 16 ((ms.drop (b % ms.length)).headD 0))) []
  let x : Partition := { Partition.reset p with
    mask := mask, htop := BitVec.ofNat 11 (topH m), ttop := BitVec.ofNat 12 (topT m)
    kbase := BitVec.ofNat 12 keys.1, kcount := BitVec.ofNat 13 keys.2, buckets := buckets
    irt := routesOf mask lowest [] fun _ => true }
  let s := s.discardAbove p 0 0
  let s := { s with
    parts := upsert (·.id = p) x s.parts
    mtc := { s.mtc with keyResv := odel s.mtc.keyResv p }
    slices := s.slices.map fun (y : Slice) =>
      if mask.getLsbD y.id then
        { y with shutter := 1, part := BitVec.ofNat 4 p, drops := 0, openedAt := s.cycle, scrubbing := false }
      else y }
  s.bootHost lowest

/-- FORM of a mask under an id with tops: its result, and the state. -/
def State.form (s : State) (p : Nat) (mask : BitVec 16) (m : W64) : BitVec 8 × State :=
  let n := ((List.range 16).filter (mask.getLsbD ·)).length
  if !topsOk m then (MRes.badOp, s)
  else if (s.part? p).isSome || (s.parts.any fun x => x.mask &&& mask ≠ 0) ||
      (s.slices.any fun y => mask.getLsbD y.id && (y.shutter ≠ 0 || y.scrubbing)) then
    (MRes.busy, s)
  else if !connected mask then (MRes.notConnected, s)
  else if !(List.range n).all fun i => fits (roundRobin n i) (topH m) (topT m) then (MRes.capacity, s)
  else match s.keysFor p with
    | none => (MRes.keys, s)
    | some k => (MRes.ok, s.formPart p mask m k)

/-- The reserved field of MCMD is zero, and so are those of MARG0 and MARG1 (R21). -/
def State.cmdOk (s : State) (w : W64) : Bool := fld w 63 48 = 0 && margOk s.mtc.marg.1 && margOk s.mtc.marg.2

/-- The MTC takes commands: power is on, and its firmware and configuration are verified (R457, R463). -/
def State.mtcTakes (s : State) (k : Out) : Out := if s.mtc.on && s.mtc.verified then k else .next s

/-- A command that ends at once. -/
def State.mtcEnd (s : State) (r : BitVec 8 × State) : Out := .next (r.2.mtcResult s.args.w r.1)

/-- R21. -/
def execForm (s : State) : Out :=
  let w := s.args.w
  s.mtcTakes <| s.mtcEnd (if !s.cmdOk w then (MRes.badOp, s) else s.form (fld w 11 8) (w.extractLsb' 16 16) s.mtc.marg.1)

/-- R21: every member is sealed and its scrub begins; DISSOLVE_SCRUB_DONE ends the command. -/
def execDissolve (s : State) : Out :=
  let w := s.args.w
  let p := fld w 11 8
  s.mtcTakes <| if !s.cmdOk w || (s.part? p).isNone then s.mtcEnd (MRes.badOp, s)
  else
    let ms := (s.part p).members
    let s := ms.foldl (fun s m => s.scrubSlice m) s
    let s := s.discardAbove p 0 0
    let dead := fun (g : Group) => g.info.key.blk.part = p && g.state ≠ .none
    .next { s with
      cur := if dead s.cur then Group.start .none .none else s.cur
      groups := s.groups.filter fun g => !dead g
      blocks := s.blocks.filter (·.key.part ≠ p)
      mtc := { s.mtc with run := some ⟨w, s.mtc.marg.1, s.mtc.marg.2, fld w 15 12, p, p, .scrub, none, 0, 0⟩ } }

/-- R21: the key range is freed and the command ends. -/
def execDissolveScrubDone (s : State) : Out :=
  match s.mtc.run with
  | none => .next s
  | some r =>
    if fld r.word 7 0 ≠ 2 || r.step ≠ .scrub then .next s
    else
      let ms := (s.part r.src).members
      let s := { s with
        parts := s.parts.filter (·.id ≠ r.src)
        slices := s.slices.map fun (y : Slice) => if ms.contains y.id then { y with scrubbing := false } else y }
      .next (s.mtcResult r.word MRes.ok)

/-- R21, with the checks of R28 and R33. -/
def execTops (s : State) : Out :=
  let w := s.args.w
  let p := fld w 11 8
  let m := s.mtc.marg.1
  s.mtcTakes <| s.mtcEnd (match s.part? p with
    | none => (MRes.badOp, s)
    | some x =>
      if !s.cmdOk w || !topsOk m then (MRes.badOp, s)
      else if !x.capacity (topH m) (topT m) || !s.regionsBelow x m then (MRes.capacity, s)
      else (MRes.ok, s.setTops p m))

/-- R32. -/
def execKeys (s : State) : Out :=
  let w := s.args.w
  let p := fld w 11 8
  let base := fld s.mtc.marg.1 43 32
  let n := fld s.mtc.marg.1 57 45
  s.mtcTakes <| s.mtcEnd (
    if !s.cmdOk w || n = 0 || 4096 < n then (MRes.badOp, s)
    else if (s.part? p).isSome then (MRes.busy, s)
    else if 4096 < base + n || (s.keyRanges p).any (fun r => base < r.1 + r.2 && r.1 < base + n) then (MRes.keys, s)
    else (MRes.ok, { s with mtc := { s.mtc with keyResv := oset s.mtc.keyResv p (base, n) } }))

/-! ### ATTEST (R458, R459) -/

/-- The statement of R459 over a nonce. -/
def State.attestation (s : State) (p : Nat) (nonce : List Byte) : List Byte :=
  [0x4F, 0x56, 0x4C, 0x2D, 0x54, 0x31, 0x36, 0x00] ++ (List.range 16).map Config.attestSerial ++
  (List.range 64).map Config.attestFirmwareDigest ++ (List.range 64).map Config.attestConfigDigest ++
  bytesOf 2 (s.part p).mask ++ [BitVec.ofNat 8 p, 0] ++ bytesOf 4 (BitVec.ofNat 32 s.mtc.attest) ++ nonce ++
  List.replicate 32 0

/-- The bytes of the buffer after the nonce. The index of the signature and the OID have the byte order of RFC 8391 (DEDUCED,
log 151). -/
def State.attestBytes (s : State) (p : Nat) (nonce : List Byte) : List Byte :=
  let st := s.attestation p nonce
  let word := fun (n : Nat) => (bytesOf 4 (BitVec.ofNat 32 n)).reverse
  st ++ word s.mtc.attest ++ (List.range 9728).map (Config.attestSignature s.mtc.attest st) ++ List.replicate 60 0 ++
    word 0xC ++ (List.range 64).map Config.attestRoot ++ (List.range 64).map Config.attestSeed ++
    List.replicate (0x4000 - 0x2804) 0

/-- R459: the buffer's accesses wait as any at their homes do. -/
def execAttest (s : State) : Out :=
  let w := s.args.w
  let p := fld w 11 8
  let m := s.mtc.marg.1
  let base := fld m 47 12 * 4096
  s.mtcTakes <| match s.part? p with
  | none => s.mtcEnd (MRes.badOp, s)
  | some x =>
    if fld w 63 48 ≠ 0 || fld m 11 0 ≠ 0 || fld m 63 48 ≠ 0 || s.mtc.marg.2 ≠ 0 || x.htop.toNat * 2 ^ 30 < base + 0x4000 then
      s.mtcEnd (MRes.badOp, s)
    else match s.rangeState p base 0x4000 true with
      | .fails => s.mtcEnd (MRes.badOp, s)
      | .waits =>
        if Config.attestKeys ≤ s.mtc.attest then s.mtcEnd (MRes.keys, s)
        else .next ((s.stallRange p base 0x4000).again .attest)
      | _ =>
        if Config.attestKeys ≤ s.mtc.attest then s.mtcEnd (MRes.keys, s)
        else
          let st := s.attestBytes p (s.readRange p base 64)
          let s := (s.readLines p base 64).writeRange p (base + 0x40) st
          s.mtcEnd (MRes.ok, { s with mtc := { s.mtc with attest := s.mtc.attest + 1 } })

/-! ### MOVE (R33 to R41) -/

/-- A kind 7 notice to a partition at the start of a step (R34). -/
def State.notice (s : State) (p moved : Nat) : State :=
  match s.part? p with
  | none => s
  | some x => s.interrupt p (((x.members.filter (· ≠ moved)).head?).getD moved) 7

/-- A step of the running MOVE begins. -/
def State.enterStep (s : State) (r : MtcRun) (st : MtcStep) : State :=
  let s := { s with mtc := { s.mtc with run := some { r with step := st, bucket := none, failures := 0, moved := 0 } } }
  let s := s.notice r.src r.slice
  if r.dst = r.src then s else s.notice r.dst r.slice

/-- Buckets that the slice holds in Q once the table is balanced (R41), and the largest count left on another member. -/
def rebalanced (counts : List Nat) : Nat → Nat → Nat × List Nat
  | 0, got => (got, counts)
  | n + 1, got =>
    let m := counts.foldl Nat.max 0
    if m ≤ got + 1 then (got, counts)
    else rebalanced ((counts.takeWhile (· ≠ m)) ++ (m - 1) :: (counts.dropWhile (· ≠ m)).drop 1) n (got + 1)

/-- The preconditions of R33 in order. -/
def State.moveCheck (s : State) (w : W64) : BitVec 8 :=
  let sl := fld w 15 12
  let q := fld w 11 8
  let m0 := s.mtc.marg.1
  let m1 := s.mtc.marg.2
  let src := s.parts.find? (·.mask.getLsbD sl)
  if !s.cmdOk w || !topsOk m0 || !topsOk m1 then MRes.badOp
  else match src with
    | none => MRes.notConnected
    | some p =>
      let rest := p.mask &&& ~~~(1#16 <<< sl)
      let counts := (p.members.filter (· ≠ sl)).map fun m => (p.held m).length
      let total := (counts.foldl (· + ·) 0) + (p.held sl).length
      let n := counts.length
      let spreadOk := (List.range n).all fun i =>
        fits (Nat.max ((counts.drop i).headD 0) ((total + n - 1) / n)) (topH m0) (topT m0)
      if rest = 0 then MRes.notConnected
      else if q = p.id then MRes.badOp
      else if !connected rest then MRes.notConnected
      else match s.part? q with
        | none =>
          if (s.keysFor q).isNone then MRes.keys
          else if !spreadOk || !fits 1024 (topH m1) (topT m1) then MRes.capacity
          else if !s.regionsBelow p m0 then MRes.capacity
          else if p.htop.toNat < topH m0 || p.ttop.toNat < topT m0 then MRes.capacity
          else MRes.ok
        | some x =>
          let r := rebalanced (x.members.map fun m => (x.held m).length) 1024 0
          if !x.members.any (linked sl) then MRes.notConnected
          else if !spreadOk || !(r.1 :: r.2).all (fun c => fits c (topH m1) (topT m1)) then MRes.capacity
          else if !s.regionsBelow p m0 || !s.regionsBelow x m1 then MRes.capacity
          else if p.htop.toNat < topH m0 || p.ttop.toNat < topT m0 then MRes.capacity
          else MRes.ok

/-- A stop request to every gang with a block on the slice (R35). -/
def State.drainSlice (s : State) (sl : Nat) : State :=
  ((s.blocks.filter fun b => b.slice = sl && b.placed && !b.exited).map fun b => (b.key.part, b.key.grid, b.gang)).eraseDups
    |>.foldl (fun s k => s.stopGang k.1 k.2.1 k.2.2 false) s

/-- R33, R34, R35: the checks, the source's tops, and step 1. -/
def execMove (s : State) : Out :=
  let w := s.args.w
  let sl := fld w 15 12
  let r := s.moveCheck w
  s.mtcTakes <| if r ≠ MRes.ok then s.mtcEnd (r, s)
  else
    let p := ((s.parts.find? (·.mask.getLsbD sl)).map (·.id)).getD 0
    let run : MtcRun := ⟨w, s.mtc.marg.1, s.mtc.marg.2, sl, p, fld w 11 8, .drain, none, 0, 0⟩
    let s := s.setTops p run.marg0
    let s := s.enterStep run .drain
    let s := s.onSlice sl fun x => { x with shutter := 2 }
    .next ((s.drainSlice sl).rouse sl .move)

/-- The move ends early: a draining shutter returns to open (R35, R36), and no bucket stays in transit. -/
def State.moveFails (s : State) (r : MtcRun) (res : BitVec 8) : State :=
  let still := fun (x : Partition) => { x with buckets := x.buckets.map fun e => (e.1, setFld e.2 8 4 0) }
  let s := match r.bucket with
    | some _ => (s.onPart r.src still).onPart r.dst still
    | none => s
  (s.onSlice r.slice fun x => { x with shutter := if x.shutter = 2 then 1 else x.shutter, scrubbing := false }).mtcResult r.word res

/-- A block of the slice whose save waits for room in the save pool (R404). -/
def State.poolWaits (s : State) (sl : Nat) : Bool :=
  s.blocks.any fun b => b.slice = sl && b.resident && !b.exited &&
    let x := s.part b.key.part
    !x.svpool.getLsbD 0 || (freeRun x.chunks (fld x.svpool 63 48) b.imageChunks).isNone

/-- What DEADLINE bounds (R35, R404): the slice's host cores are online, or a save waits for room. -/
def State.overdue (s : State) (r : MtcRun) : Bool :=
  fld r.word 7 0 = 3 && r.step = .drain && ((s.slice r.slice).hcores.any (·.2.online) || s.poolWaits r.slice)

/-- R35: DEADLINE expires. -/
def execDrainTimeout (s : State) : Out :=
  .next (match s.mtc.run with
    | none => s
    | some r => if s.overdue r then s.moveFails r MRes.timeout else s)

/-- Everything on the slice has stopped (R35): no block, no copy request, no port operation. -/
def State.drainedSlice (s : State) (r : MtcRun) : Bool :=
  (s.blocks.all fun b => b.slice ≠ r.slice || !b.placed || b.exited) &&
  (s.cores.all fun c => c.key.slice ≠ r.slice || (c.engQ.isEmpty && c.eng.isNone)) &&
  ((s.part r.src).links.all fun l => l.1 % 16 ≠ r.slice || (l.2.window.isEmpty && l.2.msgs.isEmpty && l.2.redo.isEmpty))

/-- The member with the fewest buckets, the lowest id on a tie. -/
def Partition.fewest (p : Partition) (but : Nat) : Nat :=
  let l := p.members.filter (· ≠ but)
  let m := l.foldl (fun m a => Nat.min m (p.held a).length) 1025
  (l.find? fun a => (p.held a).length = m).getD 0

/-- The member with the most buckets, the lowest id on a tie. -/
def Partition.most (p : Partition) (but : Nat) : Nat :=
  let l := p.members.filter (· ≠ but)
  let m := l.foldl (fun m a => Nat.max m (p.held a).length) 0
  (l.find? fun a => (p.held a).length = m).getD 0

/-- R36: TRANSIT and DEST of one bucket in every copy of the table. -/
def State.startBucket (s : State) (r : MtcRun) (p b dest : Nat) : State :=
  let s := s.onPart p fun x => { x with buckets := mset 0 x.buckets b (setFld (setFld (mget 0 x.buckets b) 7 4 dest) 8 8 1) }
  { s with mtc := { s.mtc with run := some { r with bucket := some b, failures := 0 } } }

/-- Steps 3 and 4 (R38, R39): the slice leaves its partition and its scrub begins. -/
def State.reprogram (s : State) (r : MtcRun) : State :=
  let s := s.enterStep r .reprogram
  let s := (s.onSlice r.slice fun x => { x with shutter := 0 }).onPart r.src fun x =>
    let x := { x with mask := x.mask &&& ~~~(1#16 <<< r.slice) }
    { x with
      irt := (List.range 256).foldl (fun m i =>
        let e := mget 0 x.irt i
        mset 0 m i (if i / 16 = r.slice then 0 else if fld e 3 0 = r.slice then setFld e 6 0 x.lowest else e)) []
      links := x.links.filter fun l => l.1 % 16 ≠ r.slice }
  let r := (s.mtc.run).getD r
  (s.enterStep r .scrub).scrubSlice r.slice

/-- R41: the target's tops, and OK. -/
def State.moveDone (s : State) (r : MtcRun) : State := (s.setTops r.dst r.marg1).mtcResult r.word MRes.ok

/-- R41: some member holds more than one bucket more than the slice. -/
def Partition.unbalanced (p : Partition) (sl : Nat) : Bool :=
  p.members.any fun m => m ≠ sl && (p.held sl).length + 1 < (p.held m).length

/-- R36, R41. The host cores of a draining slice are offline (R35) when the first bucket moves: their operating system
has seen to that. -/
def execMigrateBucket (s : State) : Out :=
  .next (match s.mtc.run with
    | none => s
    | some r =>
      if fld r.word 7 0 ≠ 3 || r.bucket.isSome then s
      else
        let beginMove := fun (s : State) (r : MtcRun) =>
          let x := s.part r.src
          match x.held r.slice with
          | [] => s.reprogram r
          | b :: _ => s.startBucket r r.src b (x.fewest r.slice)
        match r.step with
        | .drain =>
          if !s.drainedSlice r then s
          else
            let s := s.onSlice r.slice fun y => { y with hcores := y.hcores.map fun h => (h.1, { h.2 with online := false }) }
            let s := s.enterStep r .migrate
            beginMove s ((s.mtc.run).getD r)
        | .migrate => beginMove s r
        | .rebalance =>
          let x := s.part r.dst
          if !x.unbalanced r.slice then s.moveDone r
          else
            let src := x.most r.slice
            s.startBucket r r.dst ((x.held src).headD 0) r.slice
        | _ => s)

/-- Fragments whose accesses a bucket held go on (R36). -/
def State.releaseBuckets (s : State) (p : Nat) : State :=
  s.wake fun i h => i.key.blk.part = p && (h.isBucket || h = .pool)

/-- The old home still completes accesses to the bucket that it has accepted (R36 step 2): an engine holds a claim on one of
its lines, or the host a copy, which it gives up as for a back-invalidation (R112, R452). -/
def State.bucketBusy (s : State) (p b : Nat) : Bool :=
  let mine := fun (q ln : Nat) => q = p && bucketOf (64 * ln) = b
  s.slices.any fun y => (y.claims.any fun c => mine c.2.1 c.2.2) || y.snoop.any fun e => mine e.1 e.2.1

/-- The bucket's lines leave the last-level cache of their home, whose tracked copies are recalled first (R36 step 3, R112). -/
def State.bucketLeaves (s : State) (p b : Nat) : State :=
  let mine := fun (q ln : Nat) => q = p && bucketOf (64 * ln) = b
  let s := (s.cores.flatMap fun c => c.l1.filter fun l => l.isHc && mine l.part l.line).foldl
    (fun s l => s.recallHc none p l.line) s
  { s with
    slices := s.slices.map fun y => { y with llc := y.llc.filter fun e => !mine (e.1 / 2 ^ 42) (e.1 % 2 ^ 42) } }

/-- R36, R38, R41. -/
def execBucketSwitch (s : State) : Out :=
  .next (match s.mtc.run with
    | none => s
    | some r =>
      match r.bucket with
      | none => s
      | some b =>
        let p := if r.step = .rebalance then r.dst else r.src
        if s.bucketBusy p b then s else
        let s := (s.bucketLeaves p b).onPart p fun x =>
          let e := mget 0 x.buckets b
          { x with buckets := mset 0 x.buckets b (setFld (setFld e 3 0 (fld e 7 4)) 8 4 0) }
        let r := { r with bucket := none, failures := 0, moved := r.moved + 1 }
        let s := { s with mtc := { s.mtc with run := some r } }
        let s := s.releaseBuckets p
        if r.step = .rebalance then (if (s.part p).unbalanced r.slice then s else s.moveDone r)
        else if ((s.part p).held r.slice).isEmpty then s.reprogram r
        else s)

/-- R36: a granule's copy failed; the arguments say whether the same granule failed before. -/
def execMigrationError (s : State) : Out :=
  .next (match s.mtc.run with
    | none => s
    | some r =>
      match r.bucket with
      | none => s
      | some _ =>
        let n := if s.args.ok then r.failures + 1 else 1
        let p := if r.step = .rebalance then r.dst else r.src
        if n < 3 then { s with mtc := { s.mtc with run := some { r with failures := n } } }
        else
          (s.moveFails r MRes.migrationError).releaseBuckets p)

/-- R40: step 5, then step 6. -/
def execScrubDone (s : State) : Out :=
  .next (match s.mtc.run with
    | none => s
    | some r =>
      if fld r.word 7 0 ≠ 3 || r.step ≠ .scrub then s
      else
        let s := s.onSlice r.slice fun x => { x with scrubbing := false }
        let q := r.dst
        let fresh := (s.part? q).isNone
        let s :=
          if fresh then
            s.formPart q (1#16 <<< r.slice) r.marg1 ((s.keysFor q).getD (0, 1))
          else
            let s := s.onPart q fun x =>
              let x := { x with mask := x.mask ||| (1#16 <<< r.slice) }
              { x with irt := routesOf x.mask x.lowest x.irt fun m => m = r.slice }
            s.onSlice r.slice fun x => { x with shutter := 1, part := BitVec.ofNat 4 q, drops := 0, openedAt := s.cycle }
        let s := s.enterStep r .opening
        let s := s.enterStep ((s.mtc.run).getD r) .rebalance
        let r := (s.mtc.run).getD r
        if (s.part q).unbalanced r.slice then s else s.moveDone r)

/-! ### Errors and faults -/

/-- R17: a flit that the shutter does not pass is dropped and counted, and its record names the flit's own partition (DESIGN
CHOICE, log 132); MNT-class traffic of the MTC always passes
(`priv` says that the flit is of that kind, `half` that it belongs to a bucket migration, `up` that it would bring new
work). -/
def execFlitRefused (s : State) : Out :=
  .next (
    let a := s.args
    let x := s.slice a.slice
    let own := x.shutter ≠ 0 && a.src = some x.part.toNat
    let passes := a.priv || (own && (x.shutter = 1 || !a.up)) || (x.shutter = 2 && a.half)
    if passes then s
    else
      let s := if x.shutter = 0 then s
        else s.onSlice a.slice fun x => { x with drops := BitVec.ofNat 16 (Nat.min (x.drops.toNat + 1) 0xFFFF) }
      s.mtcLog 1 a.slice a.src 0)

/-- The partition of a slice, if its shutter is not sealed. -/
def Slice.owner (x : Slice) : Option Nat := if x.shutter = 0 then none else some x.part.toNat

/-- R19. -/
def execSliceFault (s : State) : Out :=
  let p := (s.slice s.args.slice).owner
  .next ((s.errorRecord p s.args.slice).mtcLog 4 s.args.slice p 0)

/-- A group ends with its slice. -/
def State.killSlice (s : State) (sl : Nat) : State :=
  (s.scrubSlice sl).onSlice sl fun x => { x with shutter := 0, failed := true, scrubbing := false }

/-- Every member of the partition is sealed (R19). -/
def State.sealedOff (s : State) (p : Nat) : Bool :=
  match s.part? p with
  | some x => x.members.all fun m => (s.slice m).shutter = 0
  | none => false

/-- A MOVE that runs ends with MIGRATION_ERROR if the slice that it moves has failed, or a partition that it moves it from
or to has been sealed (DESIGN CHOICE, log 133). -/
def State.moveLost (s : State) : State :=
  match s.mtc.run with
  | some r =>
    if fld r.word 7 0 = 3 && r.step ≠ .idle && ((s.slice r.slice).failed || s.sealedOff r.src || s.sealedOff r.dst) then
      (s.moveFails r MRes.migrationError).releaseBuckets r.src
    else s
  | none => s

/-- The buckets of a lost slice are LOST, and none of them is in transit any more; a bucket in transit to it stays where it
is. -/
def Partition.loseSlice (x : Partition) (sl : Nat) : Partition :=
  let lost := x.held sl
  { x with
    mask := x.mask &&& ~~~(1#16 <<< sl)
    buckets := (lost.foldl (fun m b => mset 0 m b (setFld (mget 0 m b ||| 0x200) 8 4 0)) x.buckets).map fun e =>
      (e.1, if e.2.getLsbD 8 && fld e.2 7 4 = sl then setFld e.2 8 4 0 else e.2)
    irt := x.irt.filter fun e => e.1 / 16 ≠ sl
    links := x.links.filter fun l => l.1 % 16 ≠ sl
    seqLost := x.seqLost || lost.contains 0
    chains := x.chains.filter fun e => !lost.contains (bucketOf (64 * e.1)) }

/-- R19: the slice is sealed and lost; its buckets are LOST, or the whole partition is sealed when what remains is not
connected, and then keeps its mask, tops and keys until a DISSOLVE. The loss is reported in either case, by the source of
kind 2 of the lowest member that remains (DESIGN CHOICE, log 133). -/
def execFatalSliceFault (s : State) : Out :=
  let sl := s.args.slice
  let p := (s.slice sl).owner
  let s := s.mtcLog 5 sl p 0
  .next (match p with
    | none => (s.onSlice sl fun x => { x with failed := true }).moveLost
    | some p =>
      let s := s.killSlice sl
      let rest := (s.part p).mask &&& ~~~(1#16 <<< sl)
      if !connected rest then
        let s := s.errorRecord (some p) (if rest = 0 then sl else lowestOf rest)
        { s with slices := s.slices.map fun (x : Slice) => if rest.getLsbD x.id then { x with shutter := 0 } else x }.moveLost
      else
        let lost := (s.part p).held sl
        let s := s.onPart p (·.loseSlice sl)
        let gone := fun (a : Nat) => a / 2 ^ 48 = p && lost.contains (bucketOf (a % 2 ^ 48))
        let s := { s with
          mem := s.mem.filter fun e => !gone e.1
          poison := s.poison.filter fun e => !gone (64 * e.1)
          lineKey := s.lineKey.filter fun e => !gone (64 * e.1)
          mtc := { s.mtc with run := s.mtc.run.map fun (r : MtcRun) =>
            match r.bucket with
            | some b => if (if r.step = MtcStep.rebalance then r.dst else r.src) = p && !(s.part p).transit (b * 2 ^ 20) then
                { r with bucket := none } else r
            | none => r } }
        let s := lost.foldl (fun s b => s.mtcLog 6 sl (some p) (BitVec.ofNat 64 b)) s
        let s := (s.releaseBuckets p).wake fun i h => h = Hold.claim && i.key.blk.part = p
        (s.errorRecord (some p) (lowestOf rest)).moveLost)

/-- Uncorrectable errors poisoned, MERR.UE (R129). -/
def State.countUe (s : State) (sl : Nat) : State :=
  s.onSlice sl fun x => { x with merr := setFld x.merr 31 16 (Nat.min (fld x.merr 31 16 + 1) 0xFFFF) }

/-- The line becomes poisoned at its home, which counts and reports it. -/
def State.poisonLine (s : State) (p ppa : Nat) : State :=
  let h := (s.part p).home ppa
  (((s.setPoison p ppa true).countUe h).mtcLog 2 h (some p) (BitVec.ofNat 64 ppa)).errorRecord (some p) h

/-- Words of an L1 line that a core holds are poisoned (R128). -/
def State.poisonL1 (s : State) (k : CoreKey) (p ln : Nat) (words : Nat → Bool) : State :=
  s.onCore k fun c => if (c.l1At p ln).isNone then c
    else { c with l1Bad := (((List.range 16).filter words).map fun w => (p, ln, w)) ++ c.l1Bad.filter fun w => !(w.1 = p && w.2.1 = ln && words w.2.2) }

/-- R127: the data is poisoned: a line of memory; or, with `half`, a word of a core's store by kind: 0 of a local window, 1 of a
register window or of its cellar copy, 2 a row of an accumulator tile, whose words share one mark (R387), 3 of a B slot, which
a product that waits in its macro still reads (R388), 4 of an L1 line. The record of a word of a core, which has no PPA, holds
ARG 0 (DESIGN CHOICE, log 132). -/
def execUncorrectableError (s : State) : Out :=
  let a := s.args
  .next (if a.half then
      let s := match a.kind.toNat with
        | 0 => s.onBlock a.block fun b => { b with winPoison := mset false b.winPoison a.n true }
        | 1 => s.onGroup a.group fun g => { g with regPoison := mset false g.regPoison a.n true }
        | 2 => s.onGroup a.group fun g =>
            { g with accPoison := mset 0 g.accPoison (a.n / 32) (mget 0 g.accPoison (a.n / 32) ||| (1#32 <<< (a.n % 32))) }
        | 3 =>
          let mark := fun (b : BSlot) => { b with poison := mset false b.poison a.n true }
          s.onCore a.coreKey fun c => { c with
            bslots := c.bslots.map fun (e : Nat × BSlot) => if e.1 = a.line then (e.1, mark e.2) else e
            mmaQ := c.mmaQ.map fun (j : MmaJob) => if j.slot = a.line then { j with bslot := mark j.bslot } else j }
        | _ => s.poisonL1 a.coreKey a.part a.line fun i => decide (i = a.n)
      ((s.countUe a.slice).mtcLog 2 a.slice (some a.part) 0).errorRecord (some a.part) a.slice
    else s.poisonLine a.part a.ppa)

/-- A value returned to lanes of a group comes poisoned (R121, R132): of result `n` of the group the lanes `m` keep their
destinations, the lanes stay done, and the instruction raises POISON. The fragment finishes an instruction that it is in
first. -/
def State.spoilResult (s : State) (n : Nat) (m : Mask) : Option State :=
  let s := s.focus s.args.group
  match s.cur.pend[n]? with
  | none => some s
  | some p =>
    let slot := decide (p.mask &&& s.cur.f0.mask = 0 || s.cur.f0.st = .free) && s.cur.f1.busy
    let f := s.cur.frag slot
    if f.cap.isSome || f.redo.isSome || (s.cur.trap slot).phase ≠ .none then none
    else
      let left := p.writes.filter fun w => match w with
        | .vec _ l _ => !m.getLsbD l
        | .codes l _ => !m.getLsbD l
        | _ => false
      let s := s.onCur fun g => { g with pend := g.pend.take n ++
        (if left.isEmpty then [] else [{ p with writes := left }]) ++ g.pend.drop (n + 1) }
      some (({ s with issue := ⟨slot, false, false, 1, p.pc, .nop⟩ }).raise
        { cause := Cause.poison, addr := s.args.gva, done := p.mask, deferred := true })

/-- R132: a flit that has failed `n` times in a row; after the third its payload is poisoned for the agent that awaits it:
the home of a line that it writes, or, with `half`, by kind: 0 the group whose result `line` it brings, for lanes `w`; 1 an L1
that fills words `w` of line `line`; any other an agent of a core, or of a slice, whose next payload it is part of (`spoilt`). -/
def execFlitCrcFail (s : State) : Out :=
  let a := s.args
  let report := fun (s : State) => ((s.countUe a.slice).mtcLog 2 a.slice (some a.part) 0).errorRecord (some a.part) a.slice
  .next (if a.n < 3 then s
    else if a.half then
      match a.kind.toNat with
      | 0 => match s.spoilResult a.line (a.w.setWidth 32) with
        | none => s.again .flitCrcFail
        | some s => report s
      | 1 => report (s.poisonL1 a.coreKey a.part a.line fun i => a.w.getLsbD i)
      | k => report { s with spoiled := (k, if 6 ≤ k then ⟨a.slice, 0⟩ else a.coreKey) :: s.spoiled }
    else s.poisonLine a.part a.ppa)

/-! ### Device registers -/

/-- R30: the arguments name a partition, an entry and a value. -/
def execIrtWrite (s : State) : Out := .next (s.onPart s.args.part fun x => x.irtWrite s.args.n (s.args.w.setWidth 32))

/-- R11. -/
def execRegisterWrite (s : State) : Out := .next (s.regWrite s.args.reg s.args.w)

end Sys2Proof.Machine
end

