-- ==== Sys2Proof/Machine/Xlate.lean ====
section
/-! DEFINITION. Walks that fill the translation caches (R53, R57, R58), and the invalidation and harvest commands (R59 to
R64). -/

namespace Sys2Proof.Machine

/-! ### A walk (R53, R57, R58) -/

/-- R53: a walk for an address of a core's agents ends. A fault belongs to the access, which takes it when it issues. -/
def execTranslationWalk (s : State) : Out :=
  let a : Ask := ⟨s.args.part, s.args.ctx, s.args.kind.toNat, s.args.priv⟩
  .next (match s.translate s.args.coreKey a s.args.gva with
    | .ok _ _ s => s
    | .flt _ _ s => s
    | .held s => s
    | .lost s => s)

/-! ### Invalidation commands (R59 to R61) -/

/-- Translations, walk entries and context entries of a partition that meet a test leave every cache. -/
def State.purge (s : State) (p : Nat) (t : Translation → Bool) (t2 : Translation → Bool) (w : WalkEntry → Bool)
    (c : CtxEntry → Bool) : State :=
  { s with
    cores := s.cores.map fun (x : Core) => { x with tlb := x.tlb.filter fun e => !(e.part = p && t e) }
    clusters := s.clusters.map fun x => (x.1, { x.2 with
      tlb := x.2.tlb.filter fun e => !(e.part = p && t e)
      s2tlb := x.2.s2tlb.filter fun e => !(e.part = p && t2 e)
      walk := x.2.walk.filter fun e => !(e.part = p && w e)
      ctxs := x.2.ctxs.filter fun e => !(e.part = p && c e) }) }

/-- Fields of XINVC. -/
def QueuedCmd.code (q : QueuedCmd) : Nat := fld q.op 3 0
def QueuedCmd.ctx (q : QueuedCmd) : Nat := fld q.op 15 4
def QueuedCmd.asid (q : QueuedCmd) : Nat := fld q.op 31 16
def QueuedCmd.vmid (q : QueuedCmd) : Nat := fld q.op 47 32
def QueuedCmd.bytes (q : QueuedCmd) : Nat := (fld q.op 63 48 + 1) * 4096

/-- The range `lo`, `len` meets the `2 ^ size` bytes from `a`. -/
def meets (lo len a size : Nat) : Bool := lo < a + 2 ^ size && a < lo + len

/-- The head of the FIFO runs, if it is a command of this code. -/
def State.runXinv (s : State) (code : Nat) (f : QueuedCmd → State → State) : Out :=
  let p := s.args.part
  match (s.part p).xinvQ with
  | [] => .next s
  | q :: r =>
    if q.ran || q.code ≠ code then .next s
    else .next ((f q s).onPart p fun x => { x with xinvQ := { q with ran := true } :: r })

/-- R60. -/
def execXinvVa (s : State) : Out :=
  s.runXinv 1 fun q s => s.purge s.args.part
    (fun t => t.s1 && t.vmid = q.vmid && (t.global || t.asid = q.asid) && meets (q.addr.toNat % 2 ^ 52) q.bytes t.gva t.size)
    (fun _ => false) (fun _ => false) (fun _ => false)

/-- R60. -/
def execXinvAsid (s : State) : Out :=
  s.runXinv 2 fun q s => s.purge s.args.part (fun t => t.s1 && t.vmid = q.vmid && !t.global && t.asid = q.asid)
    (fun _ => false) (fun _ => false) (fun _ => false)

/-- R60. -/
def execXinvVms1 (s : State) : Out :=
  s.runXinv 3 fun q s => s.purge s.args.part (fun t => t.s1 && t.vmid = q.vmid) (fun _ => false) (·.vmid = q.vmid)
    (fun _ => false)

/-- What an IPA command removes: with the range's stage-2 translations, everything that a walk through them could have
left, which is any translation and walk entry of the VMID. -/
def State.purgeIpa (s : State) (p : Nat) (q : QueuedCmd) : State :=
  s.purge p (·.vmid = q.vmid) (·.vmid = q.vmid) (·.vmid = q.vmid) fun _ => false

/-- An IPA operand with nonzero bits 63:48 (R60). -/
def QueuedCmd.badIpa (q : QueuedCmd) : Bool := fld q.addr 63 48 ≠ 0

/-- R60. -/
def execXinvIpa (s : State) : Out :=
  s.runXinv 4 fun q s => if q.badIpa then s else s.purgeIpa s.args.part q

/-- R60. -/
def execXinvVmid (s : State) : Out :=
  s.runXinv 5 fun q s => s.purge s.args.part (·.vmid = q.vmid) (·.vmid = q.vmid) (·.vmid = q.vmid) fun _ => false

/-- R60. -/
def execXinvCtx (s : State) : Out :=
  s.runXinv 6 fun q s => s.purge s.args.part (·.ctx = q.ctx) (·.ctx = q.ctx) (·.ctx = q.ctx) (·.ctx = q.ctx)

/-- R60. -/
def execXinvAll (s : State) : Out :=
  s.runXinv 7 fun _ s => s.purge s.args.part (fun _ => true) (fun _ => true) (fun _ => true) fun _ => true

/-! ### HARVEST (R63, R64) -/

/-- Root of the stage-2 tables of a VMID: that of the lowest context id that is valid with it and stage 2 on. -/
def State.vmRoot (s : State) (p vmid : Nat) : Option Nat :=
  (List.range (fld (s.part p).xctb 59 48 + 1)).findSome? fun c =>
    match s.ctxEntry none ⟨p, c, 0, false⟩ with
    | .ok e => if e.getLsbD 2 && fld e 47 32 = vmid then some (fld e 175 128) else none
    | .error _ => none

/-- What the walk to a page's stage-2 leaf comes to: the leaf's entries, 16 of a leaf of 64 KiB, and its D. -/
inductive PageD where
  | leaf (ents : List Nat) (d : Bool)
  | none
  | held
deriving DecidableEq, Repr

/-- The stage-2 leaf of a page; D is set if it is in any of the leaf's entries, which it covers all. The pages of a range that
runs past IPA 2⁴⁸ go on at 0 (DESIGN CHOICE, log 141). -/
def State.leafD (s : State) (p root ipa : Nat) : PageD :=
  match s.walk2 p Kind.load ipa 3 root with
  | .ok l =>
    let ents := if l.size = 16 then (List.range 16).map fun i => l.ent / 128 * 128 + 8 * i else [l.ent]
    .leaf ents (l.d || ents.any fun e => (s.readMem p 0 e 8 64).getLsbD 4)
  | .error .held => .held
  | .error _ => .none

/-- Bits of the bitmap, 8 to a byte. -/
def packBits : Nat → List Bool → List Byte
  | 0, _ => []
  | n + 1, l => BitVec.ofNat 8 (((l.take 8).zipIdx).foldl (fun v b => if b.1 then v + 2 ^ b.2 else v) 0) :: packBits n (l.drop 8)

/-- The bitmap lies in the partition's memory. -/
def State.bitmapOk (s : State) (p : Nat) (q : QueuedCmd) : Bool :=
  (s.part p).inMemory (fld q.aux 47 3 * 8) ((q.bytes / 4096 + 7) / 8)

def QueuedCmd.badHarvest (q : QueuedCmd) (s : State) (p : Nat) : Bool := q.badIpa || !s.bitmapOk p q

/-- R63: what HARVEST does once nothing holds it. -/
def QueuedCmd.harvest (q : QueuedCmd) (p : Nat) (s : State) : State :=
    if q.badHarvest s p then s
    else
      let n := q.bytes / 4096
      let leaves := match s.vmRoot p q.vmid with
        | none => List.replicate n PageD.none
        | some root => (List.range n).map fun i => s.leafD p root (q.addr.toNat % 2 ^ 48 + 4096 * i)
      let s' := leaves.eraseDups.foldl (fun s' l => match l with
        | .leaf es true => es.foldl (fun s' e => s'.memWrite p 0 e (bytesOf 8 (s'.readMem p 0 e 8 64 &&& ~~~0x10#64))) s'
        | _ => s') s
      let bits := leaves.map fun l => match l with
        | .leaf _ d => d
        | _ => false
      (s'.writeRange p (fld q.aux 47 3 * 8) (packBits ((n + 7) / 8) bits)).purgeIpa p q

/-- Why a HARVEST cannot run now: a table read is held, or its bitmap cannot be written (R37, R133). -/
def State.harvestWaits (s : State) (p : Nat) (q : QueuedCmd) : Bool :=
  let n := q.bytes / 4096
  ((List.range (fld (s.part p).xctb 59 48 + 1)).any fun c => match s.ctxEntry none ⟨p, c, 0, false⟩ with
    | .error .held => true
    | _ => false) ||
  (match s.vmRoot p q.vmid with
   | none => false
   | some root => (List.range n).any fun i => s.leafD p root (q.addr.toNat % 2 ^ 48 + 4096 * i) = .held) ||
    s.rangeState p (fld q.aux 47 3 * 8) ((n + 7) / 8) true = .waits

/-- R63. -/
def execHarvest (s : State) : Out :=
  let p := s.args.part
  match (s.part p).xinvQ with
  | [] => .next s
  | q :: _ =>
    if q.code = 8 && !q.ran && !q.badHarvest s p && s.harvestWaits p q then
      .next (s.stallRange p (fld q.aux 47 3 * 8) ((q.bytes / 4096 + 7) / 8))
    else s.runXinv 8 fun q s => q.harvest p s

/-! ### Completion (R61) -/

/-- The command at the head is discarded (R60, R63). -/
def State.xinvBad (s : State) (p : Nat) (q : QueuedCmd) : Bool :=
  q.code = 0 || 9 ≤ q.code || (q.code = 4 && q.badIpa) || (q.code = 8 && q.badHarvest s p)

/-- R60, R61. -/
def execXinvComplete (s : State) : Out :=
  let p := s.args.part
  .next (match (s.part p).xinvQ with
    | [] => s
    | q :: r =>
      if !q.ran && s.xinvBad p q then s.onPart p fun x => { x with xinvQ := r, xinvErr := true, xinvSeq := x.xinvSeq + 1 }
      else if !q.ran then s
      else
        let a := fld q.word 47 3 * 8
        let fin := fun (s : State) => s.onPart p fun x => { x with xinvQ := r, xinvSeq := x.xinvSeq + 1 }
        if a = 0 then fin s
        else if !(s.part p).inMemory a 8 then (fin s).onPart p fun x => { x with xinvErr := true }
        else match s.rangeState p a 8 true with
          | .waits => s.stallRange p a 8
          | .fails => fin s
          | _ => (fin s).writeRange p a (bytesOf 8 (((s.part p).xinvSeq + 1).setWidth 64)))

end Sys2Proof.Machine
end

