-- ==== Sys2Proof/Machine/Home.lean ====
section
/-! DEFINITION. The home agent: requests in home order (R112 to R114, R200), cache maintenance (R116, R118), patrol scrub
and error counts (R129). -/

namespace Sys2Proof.Machine

/-! ### Requests (R113, R114) -/

/-- The KEY_ID of a host core's access: 0, or `hkeysel` under virtualisation; none, an access fault, at or above KCOUNT
(R67). -/
def State.hostKey (s : State) (q : HomeReq) : Option Nat :=
  let k := (s.hcore q.slice q.hcore).hkeysel.toNat
  if !q.virt then some 0 else if k < (s.part q.part).kcount.toNat then some k else none

/-- The value that a host core's AMO stores: swap, add, and, or, xor, max, min, maxu, minu in this order, then
compare-and-swap, which may store nothing. -/
def amoNew (op w : Nat) (old v v2 : Nat) : Option Nat :=
  let t : IntTy := ⟨w, true⟩
  match op with
  | 0 => some v
  | 1 => some ((old + v) % 2 ^ w)
  | 2 => some (old &&& v)
  | 3 => some (old ||| v)
  | 4 => some (old ^^^ v)
  | 5 => some (if t.read old < t.read v then v else old)
  | 6 => some (if t.read v < t.read old then v else old)
  | 7 => some (Nat.max old v)
  | 8 => some (Nat.min old v)
  | _ => if old = v then some v2 else none

/-- Eviction of a line from the last-level cache (R112, R137): copies are recalled, the transaction that holds an
uncommitted version aborts with status 2, and every older version is spilled; the line stays while an engine's claim or a
host copy stands, or the pool has no room. -/
def State.evictLine (s : State) (p ppa : Nat) : State :=
  if s.claimed p ppa || s.hostHolds p ppa true then s.again .homeRequest
  else
    let gone := fun (s : State) => s.onSlice ((s.part p).home ppa) fun y => { y with llc := mset 0 y.llc (lineIx p ppa) 0 }
    let s := s.recallHc none p (ppa / 64)
    if s.chain p ppa = .none then gone s
    else
      let s := s.abortHolder p ppa 2
      let r := forN 8 (fun _ (q : Option (State × Chain)) => q.bind fun x =>
        if x.2.older.any (!·.spilled) then x.1.spillOldest p ppa x.2 true else some x) (some (s, s.chain p ppa))
      match r with
      | some (s, c) => gone (s.setChain p ppa c)
      | none => s.poolFull p

/-- A host core's write has been answered, or is taken up again. -/
def WriteEnd.home (e : WriteEnd) (s0 : State) : State :=
  match e with
  | .ok s => s
  | .pool s _ => s.again .homeRequest
  | .abort s _ => s
  | .wait _ => s0.again .homeRequest
  | .lost => s0

/-- Who makes a request: a host core, or the control core of a cluster (under core 8 and above of the slice), as the agent
that awaits a payload. -/
def requester (q : HomeReq) : CoreKey := ⟨q.slice, match q.ctl with
  | some c => 8 + c
  | none => q.hcore⟩

/-- A core of the cluster whose control core makes the request. -/
def ctlCore (q : HomeReq) (c : Nat) : CoreKey := ⟨q.slice, Config.coresPerCluster * c⟩

/-- The access raises an access fault of the host core, the hardware-error one with `hw` (R19, R67, R128). -/
def State.hostFault (s : State) (q : HomeReq) (hw : Bool) : State :=
  if q.ctl.isSome then s else s.onHcore q.slice q.hcore fun h => { h with fault := some (hw, q.ppa) }

/-- The reservation of the core that makes a request. -/
def State.resvOf (s : State) (q : HomeReq) : Option (Nat × Nat) := match q.ctl with
  | some c => (s.clusterAt (clusterIx (ctlCore q c))).ccResv
  | none => (s.hcore q.slice q.hcore).resv

def State.setResv (s : State) (q : HomeReq) (r : Option (Nat × Nat)) : State := match q.ctl with
  | some c => s.onCluster (clusterIx (ctlCore q c)) fun x => { x with ccResv := r }
  | none => s.onHcore q.slice q.hcore fun h => { h with resv := r }

/-- Poisoned data, in memory or as it arrives, refuses a host core's read (R128, R132). -/
def State.hostPoison (s : State) (q : HomeReq) (ppa n : Nat) : Option State :=
  if s.anyPoison q.part ppa n || s.badCopy q.part (ppa / 64) then some ((s.poisonNotice q.part ppa).hostFault q true)
  else if s.spoilt 5 (requester q) then some ((s.received 5 (requester q)).hostFault q true)
  else none

/-- A host core's read-modify-write: `f` gives what replaces the old value, if anything does. -/
def State.hostRmw (s : State) (q : HomeReq) (key ppa n : Nat) (ver : Bool) (f : Nat → Option Nat) : State :=
  match (s.part q.part).space ppa with
  | .host =>
    if !(s.part q.part).hostLinked then s.again .homeRequest
    else match f (natOfBytes (s.hostRead ppa n)) with
      | some v => s.hostWrite ppa (bytesOf n (BitVec.ofNat 64 v))
      | none => s
  | .mem =>
    if (s.part q.part).lost ppa then s.hostFault q true
    else if s.memHold q.part ppa 0 true ≠ .none then (s.knock q.part ppa).again .homeRequest
    else match s.hostPoison q ppa n with
      | some t => t
      | none => match f (natOfBytes (s.homeRead q.part key ppa n .plain).1) with
        | some v => (s.putHome q.part key ppa ver (bytesOf n (BitVec.ofNat 64 v))).home s
        | none => s.homeCopies q.part ppa 0 ver
  | _ => s

/-- A host core's load. -/
def State.hostLoad (s : State) (q : HomeReq) (ppa n : Nat) (ver : Bool) : State :=
  if (s.part q.part).space ppa ≠ .mem then s
  else if (s.part q.part).lost ppa then s.hostFault q true
  else if s.memHold q.part ppa 0 false ≠ .none then (s.knock q.part ppa).again .homeRequest
  else (s.hostPoison q ppa n).getD (s.homeCopies q.part ppa 0 ver)

/-- A host core's access at a PPA under a KEY_ID. A store-conditional stores if the reservation of its line stands, and may
fail then too; it ends the reservation. -/
def State.hostAccess (s : State) (q : HomeReq) (key ppa : Nat) (ver : Bool) : State :=
  let p := q.part
  match q.op with
  | .load n => s.hostLoad q ppa n ver
  | .reserve n => (s.hostLoad q ppa n ver).setResv q (some (p, ppa / 64))
  | .store n v => match (s.part p).space ppa with
    | .host => if (s.part p).hostLinked then s.hostWrite ppa (bytesOf n v) else s.again .homeRequest
    | .mem => if (s.part p).lost ppa then s.hostFault q true else (s.putHome p key ppa ver (bytesOf n v)).home (s.knock p ppa)
    | _ => s
  | .conditional n v =>
    if s.resvOf q ≠ some (p, ppa / 64) || s.draw 1 % 2 = 1 then s.setResv q none
    else if (s.part p).space ppa = .mem && s.memHold p ppa 0 true ≠ .none then (s.knock p ppa).again .homeRequest
    else (s.hostRmw q key ppa n ver fun _ => some v.toNat).setResv q none
  | .amo o n v v2 => s.hostRmw q key ppa n ver fun old => amoNew o (8 * n) old (v.toNat % 2 ^ (8 * n)) (v2.toNat % 2 ^ (8 * n))
  | .hkeysel _ => s
  | .evict => s

/-- The access of a cluster's control core at `gva`, privileged and in the context of the grid that it serves (R239). -/
def State.ctlAccess (s : State) (q : HomeReq) (c : Nat) : State :=
  let k := ctlCore q c
  match (s.clusterAt (clusterIx k)).cc with
  | none => s
  | some (p, h) => match (s.part p).grids.find? (·.handle = h) with
    | none => s
    | some g =>
      let kind := match q.op with
        | .load _ => Kind.load
        | .reserve _ => Kind.load
        | .amo _ _ _ _ => Kind.atomic
        | _ => Kind.store
      match s.translate k ⟨p, g.ctx, kind, true⟩ q.gva with
      | .ok t ppa s => s.hostAccess { q with part := p, ppa := ppa } t.key ppa t.ver
      | .held s => s.again .homeRequest
      | .flt _ _ s => s
      | .lost s => s

/-- R114, R200: a request that its home cannot accept yet is held, with the KEY_ID that it was made with, and accepted when
released. -/
def execHomeRequest (s : State) : Out :=
  let q := s.args.req
  .next (match q.ctl, q.op with
    | some c, _ => s.ctlAccess q c
    | none, .evict => s.evictLine q.part q.ppa
    | none, .hkeysel v => s.onHcore q.slice q.hcore fun h => { h with hkeysel := v }
    | none, _ => match q.key.orElse fun _ => s.hostKey q with
      | none => s.hostFault q false
      | some key => State.hostAccess { s with args := { s.args with req := { q with key := some key } } } q key q.ppa false)

/-- R113: the L1 keeps S after the forward of a load and nothing after any other. -/
def execHomeForward (s : State) : Out :=
  let k := s.args.coreKey
  .next (match (s.core k).l1At s.args.part s.args.line with
    | some (.hc p ln _) => s.onCore k fun c => match s.args.fwd with
        | .forwardLoad => c.putL1 (.hc p ln .shared)
        | .forwardStore => c.dropL1 p ln
        | .invalidate => c.dropL1 p ln
        | .recall => c.dropL1 p ln
    | _ => s)

/-- R113: the copy that was acknowledged is gone. -/
def execInvalidateAck (s : State) : Out :=
  .next (match (s.core s.args.coreKey).l1At s.args.part s.args.line with
    | some (.hc p ln _) => s.onCore s.args.coreKey (·.dropL1 p ln)
    | _ => s)

/-! ### Maintenance commands (R118) -/

def QueuedCmd.cmBase (q : QueuedCmd) : Nat := fld q.addr 47 12 * 4096

/-- A command that is discarded at the head of the FIFO. -/
def State.cmBad (s : State) (p : Nat) (q : QueuedCmd) : Bool :=
  (q.code ≠ 1 && q.code ≠ 2) || fld q.op 47 4 ≠ 0 || !(s.part p).inMemory q.cmBase q.bytes

/-- L1 lines of a range in the cores of the partition: core, line. -/
def State.linesIn (s : State) (p base n : Nat) : List (CoreKey × Nat) :=
  s.cores.flatMap fun c =>
    if (s.part p).mask.getLsbD c.key.slice then
      (c.l1.filter fun l => l.part = p && base ≤ 64 * l.line && 64 * l.line < base + n).map fun l => (c.key, l.line)
    else []

/-- The command at the head acts on every line; it goes on until every write-back has been performed at its home. -/
def State.runCm (s : State) (code : Nat) (f : State → CoreKey → Nat → Nat → State) : Out :=
  let p := s.args.part
  match (s.part p).cmQ with
  | [] => .next s
  | q :: r =>
    if q.ran || q.code ≠ code || s.cmBad p q then .next s
    else
      let ls := s.linesIn p q.cmBase q.bytes
      let s := ls.foldl (fun s x => f s x.1 p x.2) s
      if ls.any fun x => s.l1Hold x.1 p x.2 ≠ .none then .next (s.stall p (ls.map (64 * ·.2)))
      else .next (s.onPart p fun y => { y with cmQ := { q with ran := true } :: r })

/-- R118. -/
def execL1wb (s : State) : Out := s.runCm 1 fun s k p ln => s.cleanL1 k p ln

/-- R118. -/
def execL1wbinv (s : State) : Out := s.runCm 2 fun s k p ln => s.evictL1 k p ln

/-- R118. -/
def execCmComplete (s : State) : Out :=
  let p := s.args.part
  .next (match (s.part p).cmQ with
    | [] => s
    | q :: r =>
      if s.cmBad p q then s.onPart p fun x => { x with cmQ := r, cmErr := true, cmSeq := x.cmSeq + 1 }
      else if q.ran then s.onPart p fun x => { x with cmQ := r, cmSeq := x.cmSeq + 1 }
      else s)

/-! ### Patrol scrub (R129) -/

/-- A count of 16 bits that saturates. -/
def bump16 (w : W64) (hi lo : Nat) : W64 := setFld w hi lo (Nat.min (fld w hi lo + 1) 0xFFFF)

/-- R129: one line, as the arguments say it was found. -/
def execPatrolRead (s : State) : Out :=
  let sl := s.args.slice
  let x := s.slice sl
  let p := x.part.toNat
  .next (if !x.mpatrol.getLsbD 0 || x.shutter = 0 || (s.part p).home s.args.ppa ≠ sl then s
    else match s.args.patrol with
      | .clean => s
      | .correctable => s.onSlice sl fun x => { x with merr := bump16 x.merr 15 0 }
      | .uncorrectable =>
        let s := (s.onSlice sl fun x => { x with merr := bump16 x.merr 31 16 }).setPoison p s.args.ppa true
        (s.mtcLog 2 sl (some p) (BitVec.ofNat 64 s.args.ppa)).errorRecord (some p) sl)

/-- R129. -/
def execMerrClr (s : State) : Out := .next (s.sliceWrite s.args.slice 0x308 (1#64 <<< 63))

end Sys2Proof.Machine
end

