-- ==== Sys2Proof/Machine/Version.lean ====
section
/-! DEFINITION. The version sequencer (R133, R134, R143), the sparge collector (R147), the version pool's registers (R145),
and accesses held on a bucket in transit (R37). -/

namespace Sys2Proof.Machine

/-- R133, R134: the request is held while bucket 0 is in transit, and is refused past the limit or once bucket 0 is LOST. -/
def execTimestampRequest (s : State) : Out :=
  let x := s.part s.args.part
  .next (if x.seqLost || x.lost 0 then s
    else if x.transit 0 then s.again .timestampRequest
    else match x.nextTs with
      | none => s
      | some (_, x) => s.onPart s.args.part fun _ => x)

/-- A fragment whose commit the version clock has reached takes its result, which no instruction of it reads early (R143,
R361). -/
def Group.takeCommit (clock : Nat) (slot : Bool) (g : Group) : Group :=
  let f := g.frag slot
  match f.hold with
  | .commit ts sd _ =>
    if ts ≤ clock then
      (g.sset sd (BitVec.ofNat 64 ts)).finish slot
    else g
  | _ => g

/-- The read timestamps that commits up to the version clock have kept live. -/
def Group.commitRefs (clock : Nat) (g : Group) : List Nat :=
  [g.f0, g.f1].filterMap fun f => match f.hold with
    | .commit ts _ r => if ts ≤ clock then some r else none
    | _ => none

/-- R143: the commit with the timestamp of the arguments has marked its versions. -/
def execCommitComplete (s : State) : Out :=
  let p := s.args.part
  if !(s.part p).committing.contains s.args.n then .next s
  else
    let s := s.onPart p (·.commitDone s.args.n)
    let clock := (s.part p).vclock
    let refs := (s.allGroups.filter (·.info.key.blk.part = p)).flatMap (Group.commitRefs clock)
    let s := refs.foldl (fun s r => s.onPart p (·.dropSnap r)) s
    .next (s.mapGroups fun g => if g.info.key.blk.part = p then (g.takeCommit clock false).takeCommit clock true else g)

/-! ### Sparge (R147) -/

/-- A chain without the versions that no live read timestamp reaches. -/
def Partition.spargeChain (p : Partition) (c : Chain) : Chain := { c with older := p.keepReached c.ts c.older }

/-- Records that the chains of a partition hold. -/
def chainRecords (cs : NatMap Chain) : List Nat := cs.flatMap fun e => e.2.older.filterMap (·.record)

/-- NEXT of each record names the next older spilled version. -/
def State.relink (s : State) (p : Nat) : List Version → State
  | [] => s
  | v :: r =>
    let s := match v.record with
      | none => s
      | some i =>
        let x := s.part p
        let next := (r.find? Version.spilled).bind (·.record)
        s.memWrite p (fld x.vpbase 59 48) (fld x.vpbase 39 12 * 4096 + 128 * i + 80)
          (bytesOf 4 (BitVec.ofNat 32 (next.getD 0xFFFFFFFF)))
    s.relink p r

/-- R147: a line whose chain is reduced to its current version is an ordinary line again (R135). -/
def execSpargePass (s : State) : Out :=
  let p := s.args.part
  let x := s.part p
  let cs := (x.chains.map fun e => (e.1, x.spargeChain e.2)).filter fun e => e.2.older ≠ [] || e.2.unc.isSome
  let changed := cs.filter fun e => x.chains.any fun o => o.1 = e.1 && o.2 ≠ e.2
  let s := s.onPart p fun x => { x with chains := cs, vpRecords := chainRecords cs, spargeDue := false }
  let s := changed.foldl (fun s e => s.relink p e.2.older) s
  .next (s.wake fun i h => i.key.blk.part = p && h = .pool)

/-- R145. -/
def execVpstatRun (s : State) : Out := .next (s.onPart s.args.part fun x => { x with spargeDue := true })

/-- R145: `half` of the arguments names VPSIZE. -/
def execVpoolWrite (s : State) : Out := .next (s.onPart s.args.part fun x => x.vpoolWrite s.args.half s.args.w)

/-! ### R37 -/

/-- The group's fragment is held on a bucket that is still in transit: BUCKET_TRANSIT, which a replay takes up again. The
fault of an access is deferred; that of a fetch stands before its instruction. -/
def execBucketTransit (s : State) : Out :=
  match s.group? s.args.group with
  | none => .next s
  | some g =>
    let f := g.frag s.args.frag
    match f.hold with
    | .fetch a => .next (s.resumeAt.raise { cause := Cause.bucketTransit, addr := a, done := f.done, beat := f.beat })
    | .bucket a =>
      let s := s.resumeAt
      (s.failWith { cause := Cause.bucketTransit, addr := a, deferred := true } f.done f.beat.toNat).out
    | _ => .next s

end Sys2Proof.Machine
end

