-- ==== Sys2Proof/Machine/Kill.lean ====
section
/-! DEFINITION. What ends with a block or a grid: subscriptions (R104), store, stack areas and chunks (R221, R404), and a
grid that is killed (R399). -/

namespace Sys2Proof.Machine

/-! ### Subscriptions at an exit (R104) -/

/-- The inbound entries of a block and the outbound entries that match them are freed; batches in flight go. -/
def State.endInbound (s : State) (k : BlockKey) : State :=
  match s.block? k with
  | none => s
  | some b =>
    let s := s.onBlock k fun b => { b with
      inb := [], waitQ := b.waitQ.filter fun w => match w.who with
        | .sub _ => false
        | .lane _ _ _ _ => true }
    b.inb.foldl (fun s e =>
      if e.2.st = .orphaned then s
      else ((s.onBlock e.2.peer fun q => { q with outb := odel q.outb e.2.peerHandle }).imageEntry e.2.peer true
        e.2.peerHandle).roomAt e.2.peer) s

/-- The images that the exit of a block edits can take it now (R104). -/
def State.exitHold (s : State) (b : Block) : Bool :=
  (b.inb.any fun e => e.2.st ≠ .orphaned && s.imageHold e.2.peer true e.2.peerHandle ≠ .none) ||
    b.outb.any fun e => s.imageHold e.2.peer false e.2.peerHandle ≠ .none

/-- The subscribers of a block keep orphaned entries. -/
def State.endOutbound (s : State) (k : BlockKey) : State :=
  match s.block? k with
  | none => s
  | some b =>
    let s := s.onBlock k fun b => { b with outb := [] }
    b.outb.foldl (fun s e =>
      (s.onBlock e.2.peer fun q => { q with inb := match oget q.inb e.2.peerHandle with
        | some i => oset q.inb e.2.peerHandle { i with st := .orphaned }
        | none => q.inb }).imageEntry e.2.peer false e.2.peerHandle) s

/-! ### What a block holds -/

/-- Groups of a block leave the machine; their stack areas are freed (R221). -/
def State.dropGroups (s : State) (k : BlockKey) : State :=
  let gs := s.allGroups.filter fun g => g.info.key.blk = k && g.state ≠ .none
  let areas := gs.filterMap (·.area)
  let s := s.onPart k.part fun x => { x with areas := x.areas.filter fun a => !areas.contains a }
  { s with
    cur := if s.cur.info.key.blk = k then Group.start .none .none else s.cur
    groups := s.groups.filter (·.info.key.blk ≠ k) }

/-- The chunks of a block's image are freed (R404). -/
def State.dropImage (s : State) (k : BlockKey) : State :=
  match (s.block? k).bind (·.image) with
  | none => s
  | some c =>
    let s := s.onPart k.part fun x => { x with chunks := x.chunks.filter fun i => i < c.1 || c.1 + c.2 ≤ i }
    s.onBlock k fun b => { b with image := none, imageBytes := [] }

/-- Lend writeback buffers of a block's lines. -/
def State.dropLend (s : State) (k : BlockKey) : State :=
  { s with cores := s.cores.map fun (c : Core) => { c with lend := c.lend.filter fun e => e.2.block ≠ k } }

/-- Blocks of a gang that are still there. -/
def State.gangBlocks (s : State) (p grid gang : Nat) : List Block :=
  s.blocks.filter fun b => b.key.part = p && b.key.grid = grid && b.gang = gang

/-- With no grid left, no fragment may still execute a word fetched earlier (R247). -/
def State.calmCode (s : State) (p : Nat) : State :=
  if (s.part p).grids.isEmpty then { s with stale := s.stale.filter fun e => 4 * e.1 / 2 ^ 48 ≠ p } else s

/-- The control cores of clusters that meet a test and serve a grid with no block left on them are reset (R239). -/
def State.idleControl (s : State) (p grid : Nat) (cl : Nat → Bool) : State :=
  { s with clusters := s.clusters.map fun e =>
      if cl e.1 && e.2.cc = some (p, grid) && s.blocks.all fun b => !(b.key.part = p && b.key.grid = grid && b.placed && !b.exited &&
          b.slice * Config.clusters + b.core / Config.coresPerCluster = e.1) then
        (e.1, { e.2 with cc := none, ccResv := none, ccPc := 0, ccA0 := 0, ccA1 := 0, ring := [], ringLost := 0, ccWaiting := false, ccRead := 0 })
      else e }

/-! ### Lent lines (R91) -/

/-- Lent lines of an owner that a harvest line occupies leave the store as at a first touch, as far as lend writeback buffers
are free, but those of the harvest blocks left out; true when none is left. -/
def State.reclaimFor (s : State) (b : Block) (out : BlockKey → Bool) : State × Bool :=
  (List.range (b.localKib * 16)).foldl (fun q l =>
    match q.1.lentTo b.key l with
    | none => q
    | some (h, _, _) =>
      if out h.key then q
      else match q.1.reclaim b.key l with
        | some s => (s.onBlock b.key fun b => { b with touched := mset false b.touched l true }, q.2)
        | none => (q.1, false)) (s, true)

def State.reclaimAll (s : State) (b : Block) : State × Bool := s.reclaimFor b fun _ => false

/-! ### KILL (R399) -/

/-- A fault record names this grid (R396). -/
def recordGrid (r : BitVec 512) : Nat := fld r 447 384

/-- Instructions that store, or read and modify, global memory. -/
def performs : Instr → Bool
  | .st _ _ _ _ _ => true
  | .stx _ _ _ _ _ _ => true
  | .stu _ _ _ => true
  | .spill _ _ _ _ => true
  | .redAdd _ _ _ _ => true
  | .redMin _ _ _ _ => true
  | .redMax _ _ _ _ => true
  | .redAnd _ _ _ _ => true
  | .redOr _ _ _ _ => true
  | .redXor _ _ _ _ => true
  | .redFadd _ _ _ _ => true
  | .redFaddp _ _ _ _ => true
  | .atomAdd _ _ _ _ => true
  | .atomMin _ _ _ _ => true
  | .atomMax _ _ _ _ => true
  | .atomAnd _ _ _ _ => true
  | .atomOr _ _ _ _ => true
  | .atomXor _ _ _ _ => true
  | .atomExch _ _ _ _ => true
  | .atomCas _ _ _ _ => true
  | .atomFadd _ _ _ _ => true
  | .atomFaddp _ _ _ _ => true
  | .atomuAdd _ _ _ => true
  | .atomuMin _ _ _ => true
  | .atomuMax _ _ _ => true
  | .atomuAnd _ _ _ => true
  | .atomuOr _ _ _ => true
  | .atomuXor _ _ _ => true
  | .atomuExch _ _ _ => true
  | .atomuCas _ _ _ => true
  | .atomuFadd _ _ _ => true
  | .atomuFaddp _ _ _ => true
  | _ => false

/-- Holds of an access at its home, or on its way there. -/
def Hold.outside : Hold → Bool
  | .none => true
  | .walk => true
  | .bucket _ => true
  | .claim => true
  | .ready _ => true
  | .host => true
  | .pool => true
  | _ => false

/-- The slot's store, atomic or reduction has issued, and is held at a home. -/
def Group.outlives (g : Group) (slot : Bool) : Bool :=
  let f := g.frag slot
  (g.trap slot).phase = .none && (f.st = .ready || f.st = .waitMem) && f.hold.outside && match f.cap with
    | some c => performs c.word.instr
    | none => false

/-- What remains of a group of a killed grid (R399): its stores, atomics and reductions that have issued. -/
def Group.remains (g : Group) : Option Group :=
  if g.tx.opened || g.tx.aborting.isSome || !(g.outlives false || g.outlives true) then none
  else some { g with
    state := .parked, killed := true, pend := [], stack := [], area := none, checks := []
    f0 := if g.outlives false then g.f0 else Frag.none, f1 := if g.outlives true then g.f1 else Frag.none }

/-- What a killed group had issued has performed, or has ended in a fault: nothing of it is left. -/
def State.sweepKilled (s : State) : State :=
  let ended := fun (g : Group) => g.killed && !(g.outlives false || g.outlives true)
  { s with
    cur := if ended s.cur then Group.start .none .none else s.cur
    groups := s.groups.filter fun g => !ended g }

/-- R399: a grid's groups, requests, images and areas go; what it had issued to memory goes on to perform. -/
def State.killGrid (s : State) (p grid : Nat) : State :=
  let mine := fun (k : BlockKey) => k.part = p && k.grid = grid
  let gs := s.allGroups.filter fun g => mine g.info.key.blk && g.state ≠ .none
  let s := gs.foldl (fun s g => if g.tx.opened then s.txAbort g.info.key 5 0 else s) s
  let refs := gs.flatMap fun g => g.snap.toList ++ [g.f0, g.f1].filterMap fun f => match f.hold with
    | .commit _ _ r => some r
    | _ => none
  let s := refs.foldl (fun s t => s.onPart p (·.dropSnap t)) s
  let s := match (s.part p).grids.find? (·.handle = grid) with
    | some g => match g.snap with
      | some t => s.onPart p (·.dropSnap t)
      | none => s
    | none => s
  let ks := (s.blocks.filter fun b => mine b.key).map (·.key)
  let s := ks.foldl (fun s k => ((s.dropGroups k).dropImage k).dropLend k) s
  let s := { s with
    cur := if mine s.cur.info.key.blk then Group.start .none .none else s.cur
    groups := (s.groups.filter fun (g : Group) => !mine g.info.key.blk) ++ gs.filterMap Group.remains }
  let dead := fun (c : Core) => match c.eng with
    | some r => mine r.req.group.blk
    | none => false
  let gone := (s.cores.filter dead).map (·.key)
  let s := { s with
    blocks := s.blocks.filter fun b => !mine b.key
    slices := s.slices.map fun (x : Slice) => { x with
      claims := x.claims.filter fun c => !gone.contains c.1
      faults := x.faults.filter fun f => match f.group with
        | some k => !mine k.blk
        | none => recordGrid f.record ≠ grid || x.owner ≠ some p }
    cores := s.cores.map fun (c : Core) => { c with
      engQ := c.engQ.filter fun q => !mine q.group.blk
      eng := if dead c then none else c.eng
      mmaQ := c.mmaQ.filter fun j => !mine j.group.blk
      mill := match c.mill with
        | some m => if mine m.group.blk then none else some m
        | none => none
      revoking := c.revoking.filter fun k => !mine k.blk } }
  let s := s.onPart p fun x => { x with
    grids := x.grids.filter (·.handle ≠ grid)
    lists := x.lists.map fun l => (l.1, l.2.filter fun e => match e with
      | .grid h => h ≠ grid
      | .restore h _ _ _ _ => h ≠ grid)
    links := x.links.map fun l => (l.1, { l.2 with msgs := l.2.msgs.filter fun m => !gone.contains m.core }) }
  let s := s.wake fun i h => i.key.blk.part = p && (h = .claim || h = .mill || h = .lend || h = .pool)
  let s := (s.cores.map (·.key)).foldl (fun s k => s.takeKick k) s
  (s.idleControl p grid fun _ => true).calmCode p

/-- Before a grid ends, the lines that its owners lend to harvest blocks of other grids leave the store (R91); false while lend
writeback buffers are full. -/
def State.killReady (s : State) (p grid : Nat) : State × Bool :=
  let mine := fun (k : BlockKey) => k.part = p && k.grid = grid
  (s.blocks.filter fun b => mine b.key && b.crit && b.resident && !b.exited).foldl (fun q b =>
    let r := q.1.reclaimFor b mine
    (r.1, q.2 && r.2)) (s, true)

/-- A block whose image holds poison, which the step `i` finds: its grid ends with a POISON record (R404). -/
def State.imagePoison (s : State) (b : Block) (i : Instr) : State :=
  let r := asyncRecord Cause.poison 0 (agentHandle b.slice b.core 0) 0 0 (BitVec.ofNat 64 b.key.grid)
  match s.killReady b.key.part b.key.grid with
  | (s, true) => (s.killGrid b.key.part b.key.grid).postAsync b.slice r
  | (s, false) => s.again i

end Sys2Proof.Machine
end

