-- ==== Sys2Proof/Machine/Subs.lean ====
section
/-! DEFINITION. Steps of subscriptions: batches that close and are applied (R98, R100), and the sequences around a saved
subscriber (R105 to R107). -/

namespace Sys2Proof.Machine

/-! ### Counting and room -/

/-- The batches that an outbound entry has seen applied or written to an image (R102): all that it closed but those still
on their way or on a pending list. -/
def State.countApplied (s : State) (pub : BlockKey) (h : Nat) : State :=
  match (s.block? pub).bind fun b => oget b.outb h with
  | none => s
  | some o =>
    let there := match s.inboundOf o with
      | some i => i.recv.length + i.pending.length
      | none => 0
    let n := o.closed - (o.unsent.length + o.recv.length + there)
    s.onOut pub h fun o => { o with appliedN := Nat.max o.appliedN n }

/-- One batch of a subscription is applied in full: APPLIED of both entries (R110), room for the next (R99). The outbound
entry of a subscription that is torn down is gone, and its handle may name another. -/
def State.batchDone (s : State) (pub : BlockKey) (h : Nat) (sub : BlockKey) (i : Nat) : State :=
  let up := fun (e : SubEntry) => { e with applied := e.applied + 1 }
  let mine := fun (e : SubEntry) => if e.peer = sub && e.peerHandle = i then up e else e
  let s := ((s.onOut pub h mine).onInb sub i up).countApplied pub h
  (s.sendOut pub h).roomAt pub

/-! ### R98 -/

/-- R98. -/
def execBatchTimeout (s : State) : Out := .next (s.closeBatch s.args.block s.args.n)

/-! ### Applying (R100) -/

/-- A torn-down entry with nothing left is freed, and its `unsub` completes (R103). -/
def State.closeEntry (s : State) (k : BlockKey) (h : Nat) : State :=
  let s := s.onInb k h fun e => if e.closing then e.refill else e
  match (s.block? k).bind fun b => oget b.inb h with
  | some e =>
    if e.closing && e.recv.isEmpty then
      let s := s.onBlock k fun b => { b with inb := odel b.inb h }
      s.mapGroups fun g =>
        let go := fun (b : Bool) (g : Group) => if (g.frag b).hold = .unsub k h then g.finish b else g
        go true (go false g)
    else s
  | none => s

/-- The next step of the batch at the head of an inbound entry: one word, or the end of the batch. A torn-down entry
discards a batch that would be held (R103). -/
def State.applyNext (s : State) (k : BlockKey) (h : Nat) : State :=
  match s.block? k with
  | none => s
  | some b =>
    match oget b.inb h with
    | none => s
    | some e =>
      match e.recv with
      | [] => s
      | x :: r =>
        if e.held then s
        else match x.words.drop e.wordsDone with
          | [] =>
            ((s.onInb k h fun e => { e with recv := r, wordsDone := 0 }).batchDone e.peer e.peerHandle k h).closeEntry k h
          | w :: _ =>
            match s.ownTouch k (4 * w) with
            | .ok s =>
              if !e.overwrite && b.full w then
                if e.closing then (s.onInb k h SubEntry.drop).closeEntry k h
                else s.onBlock k fun b =>
                  { b with
                    inb := oset b.inb h { e with held := true }
                    waitQ := b.waitQ ++ [⟨4 * w, 4, .ste, 0, false, Waiter.sub h, 0⟩] }
              else
                let s := s.onBlock k fun b =>
                  let b := b.applyWord x w
                  { b with inb := oset b.inb h { e with wordsDone := e.wordsDone + 1 } }
                if b.full w then s else s.serveWord k w
            | _ => s

/-- R100: one word of one batch. -/
def execBatchApply (s : State) : Out :=
  .next (match s.block? s.args.block with
    | some b => if b.resident && !b.exited then s.applyNext s.args.block s.args.n else s
    | none => s)

/-! ### R105 -/

/-- A memory-target write that faults (R106): the record names the outbound entry's core and the image address. -/
def State.imageFault (s : State) (pub : BlockKey) (h : Nat) (b : Block) (at_ : Nat) : State :=
  let pb := (s.block? pub).getD b
  let s := s.onOut pub h fun o => { o with faulted := true }
  s.postAsync pb.slice (asyncRecord Cause.subscription 2 (agentHandle pb.slice pb.core 0)
    (BitVec.ofNat 64 at_) 7 (BitVec.ofNat 64 b.key.grid))

/-- R105 step 4: the outbound entry named by the arguments closes its batch, sends a mark and holds what follows. -/
def execSubRedirect (s : State) : Out :=
  let k := s.args.block
  .next (match (s.block? k).bind fun b => oget b.outb s.args.n with
    | none => s
    | some o =>
      match (s.block? o.peer).bind fun b => oget b.inb o.peerHandle with
      | none => s
      | some i =>
        if i.st ≠ .switching || o.st ≠ .active then s
        else if s.imageHold k true s.args.n ≠ .none then s.again .subRedirect
        else
          let s := s.closeBatch k s.args.n
          (s.onOut k s.args.n fun o => { o with st := .switching, marked := true }).imageEntry k true s.args.n)

/-- One batch that arrived before the mark goes to the image (R105 step 5): true if it has, otherwise the mark waits, or the
outbound entry waits for a command. -/
def State.markBatch (s : State) (k : BlockKey) (h : Nat) (x : Batch) : State × Option Bool :=
  match s.block? k with
  | none => (s, none)
  | some b => match oget b.inb h with
    | none => (s, none)
    | some e =>
      match s.imageReady b e h x with
      | (.waits, _) => (s.imageStall b e h x, some true)
      | (.fails, a) => (s.imageFault e.peer e.peerHandle b a, some false)
      | (.poisoned, a) => (s.imageFault e.peer e.peerHandle b a, some false)
      | (.ready, _) =>
        let r := s.imageBatch b e x
        let s := r.1.onInb k h fun e => { e with recv := e.recv.drop 1, wordsDone := 0 }
        let s := match r.2 with
          | none => s
          | some y =>
            if e.pending.length < 8 then s.onInb k h fun e => { e with pending := e.pending ++ [y] }
            else s.onOut e.peer e.peerHandle fun o => { o with recv := o.recv ++ [y] }
        (if r.2.isSome then s.countApplied e.peer e.peerHandle else s.batchDone e.peer e.peerHandle k h, none)

/-- R105 steps 5 and 6, at the inbound entry named by the arguments. Batches that find a full pending list wait at the
outbound entry. -/
def execSubMark (s : State) : Out :=
  let k := s.args.block
  let h := s.args.n
  match s.block? k with
  | none => .next s
  | some b =>
    match oget b.inb h with
    | none => .next s
    | some e =>
      match (s.block? e.peer).bind fun q => oget q.outb e.peerHandle with
      | none => .next s
      | some o =>
        if !o.marked || o.faulted || b.image.isNone then .next s
        else if s.imageHold k false h ≠ .none || s.imageHold e.peer true e.peerHandle ≠ .none then .next (s.again .subMark)
        else
          let r := e.recv.foldl (fun (q : State × Option Bool) x => if q.2.isSome then q else q.1.markBatch k h x) (s, none)
          match r.2 with
          | some true => .next (r.1.again .subMark)
          | some false => .next r.1
          | none =>
            let s := (r.1.onInb k h fun e => { e with st := .memory }).imageEntry k false h
            let s := (s.onOut e.peer e.peerHandle fun o => { o with st := .memory, marked := false }).imageEntry e.peer true e.peerHandle
            .next (s.sendOut e.peer e.peerHandle)

/-! ### R106 -/

/-- One batch of the outbound entry named by the arguments. -/
def execMemoryTargetWrite (s : State) : Out :=
  let k := s.args.block
  let h := s.args.n
  .next (match (s.block? k).bind fun b => oget b.outb h with
    | none => s
    | some o =>
      match o.recv with
      | [] => s
      | x :: r =>
        if !o.toImage || o.faulted then s
        else match s.block? o.peer with
          | none => s
          | some b =>
            match oget b.inb o.peerHandle with
            | none => s
            | some e =>
              if 8 ≤ e.pending.length || s.imageHold o.peer false o.peerHandle ≠ .none then s
              else match s.imageReady b e o.peerHandle x with
                | (.waits, _) => s.imageStall b e o.peerHandle x
                | (.fails, a) => s.imageFault k h b a
                | (.poisoned, a) => s.imageFault k h b a
                | (.ready, _) =>
                  let q := s.imageBatch b e x
                  let s := q.1.onOut k h fun o => { o with recv := r }
                  let s := s.onInb o.peer o.peerHandle fun e => { e with pending := e.pending ++ q.2.toList }
                  let s := s.imageEntry o.peer false o.peerHandle
                  if q.2.isSome then ((s.countApplied k h).sendOut k h).roomAt k
                  else s.batchDone k h o.peer o.peerHandle)

/-! ### R107 -/

/-- R107 step 3: the outbound entry named by the arguments reads SWITCHING until it has no image write left; then it replies
ready and sends to the new core, first what waits for a full pending list. -/
def execSubResume (s : State) : Out :=
  let k := s.args.block
  match (s.block? k).bind fun b => oget b.outb s.args.n with
  | none => .next s
  | some o =>
    match s.block? o.peer with
    | none => .next s
    | some b =>
      if b.restoring ≠ 1 || o.st = .active then .next s
      else if s.imageHold k true s.args.n ≠ .none then .next (s.again .subResume)
      else if !o.toImage || o.st = .memory || (o.recv ≠ [] && !s.listFull o) || o.faulted then
        .next (((s.onOut k s.args.n fun o => if o.st = .memory then { o with st := .switching } else o).imageEntry k true
          s.args.n).again .subResume)
      else
        let s := s.onInb o.peer o.peerHandle fun i => { i with recv := i.recv ++ o.recv }
        let s := (s.onOut k s.args.n fun o => { o with st := .active, recv := [] }).imageEntry k true s.args.n
        .next (s.sendOut k s.args.n)

/-- Every entry of a block that is being restored has replied. -/
def State.allReplied (s : State) (b : Block) : Bool :=
  b.inb.all fun e => e.2.st = .orphaned || match (s.block? e.2.peer).bind fun q => oget q.outb e.2.peerHandle with
    | some o => o.peer ≠ b.key || o.peerHandle ≠ e.1 || o.st = .active
    | none => true

/-- Tags of a window from their bytes. -/
def tagsOf (bs : List Byte) : NatMap Bool :=
  (bs.zipIdx).foldl (fun m b => (List.range 8).foldl (fun m i => if b.1.getLsbD i then mset false m (8 * b.2 + i) true else m) m) []

/-- R107 steps 4 and 5. -/
def execSubReady (s : State) : Out :=
  let k := s.args.block
  match s.block? k with
  | none => .next s
  | some b =>
    if b.restoring ≠ 1 || !s.allReplied b then .next s
    else
      let a := s.imageBase b + b.windowOff
      match s.rangeState k.part a (b.imageSize - b.windowOff) false with
      | .waits => .next ((s.knockRange k.part a (b.imageSize - b.windowOff)).again .subReady)
      | .fails => .next (s.again .subReady)
      | .poisoned => .next (s.imagePoison b .subReady)
      | .ready =>
        let s := s.readLines k.part a (b.imageSize - b.windowOff)
        let win := putWin [] 0 (s.readRange k.part a (b.localKib * 1024))
        let tags := tagsOf (s.readRange k.part (s.imageBase b + b.tagsOff) (b.localKib * 32))
        let s := s.onBlock k fun b => { b with
          win := win, tags := tags, restoring := 2
          touched := ((win.map fun (e : Nat × Byte) => e.1 / 64) ++ tags.map fun (e : Nat × Bool) => e.1 / 16).foldl (fun m l => mset false m l true) b.touched
          inb := b.inb.map fun e => (e.1, { e.2 with
            recv := e.2.pending ++ e.2.recv, pending := [], st := if e.2.st = .orphaned then .orphaned else .active }) }
        .next (b.inb.foldl (fun s e => forN 256 (fun _ s => s.applyNext k e.1) s) s)

end Sys2Proof.Machine
end

