-- ==== Sys2Proof/Machine/Queue.lean ====
section
/-! DEFINITION. Device queues (R221 to R230, R237, R238): commands, ring slots, checks of a packet, dependencies,
acceptance, markers and completion. -/

namespace Sys2Proof.Machine

/-! ### Accesses of a queue -/

/-- A translated coherent read of bytes that may cross lines. -/
def State.gvaRead (s : State) (a : Ask) (gva : W64) (n : Nat) : DevOut :=
  (lineParts gva.toNat n).foldl (fun acc l =>
    match acc with
    | .ok b p s =>
      match s.devRead a .plain (BitVec.ofNat 64 l.1) l.2.2 with
      | .ok c q s => .ok (b ++ c) (p || q) s
      | r => r
    | r => r) (.ok [] false s)

/-- A translated coherent write of bytes that may cross lines. -/
def State.gvaWrite (s : State) (a : Ask) (gva : W64) (bs : List Byte) : DevOut :=
  (lineParts gva.toNat bs.length).foldl (fun acc l =>
    match acc with
    | .ok _ _ s => s.devWrite a (BitVec.ofNat 64 l.1) ((bs.drop l.2.1).take l.2.2)
    | r => r) (.ok [] false s)

/-- Fields of a queue's entry (R222). -/
def Queue.size (q : Queue) : Nat := 2 ^ fld q.entry 4 1
def Queue.ctx (q : Queue) : Nat := fld q.entry 23 12
def Queue.ring (q : Queue) : W64 := q.entry.extractLsb' 64 64
def Queue.errBase (q : Queue) : W64 := q.entry.extractLsb' 128 64

def State.queueOf (s : State) (p q : Nat) : Queue := (s.part p).queue q

def State.onQueue (s : State) (p q : Nat) (f : Queue → Queue) : State := s.onPart p fun x => x.setQueue q (f (x.queue q))

def Queue.ask (q : Queue) (p kind : Nat) : Ask := ⟨p, q.ctx, kind, false⟩

/-- The queue's interrupt: source kind 1 of slice ISLICE (R222). -/
def State.queueIrq (s : State) (p : Nat) (q : Queue) : State := s.interrupt p (fld q.entry 11 8) 1

/-! ### Commands (R221, R222) -/

/-- Launch references recorded against ring indices that the queue has not read are released (R238). -/
def State.releaseRefs (s : State) (p q : Nat) : State :=
  let from_ := (s.queueOf p q).qrd.toNat
  let gone := (s.part p).launchRefs.filter fun r => r.1 = q && from_ ≤ r.2.1
  let s := s.onPart p fun x => { x with launchRefs := x.launchRefs.filter fun r => !(r.1 = q && from_ ≤ r.2.1) }
  gone.foldl (fun s r => s.onPart p (·.dropSnap r.2.2)) s

/-- The queue reads no further slot. -/
def Queue.stop (q : Queue) : Queue := { q with en := false, wseq := false, wdep := false, ready := none }

/-- The checks of R222 on an entry. -/
def entryOk (e : BitVec 512) : Bool :=
  e.getLsbD 0 && fld e 4 1 ≠ 0 && fld e 63 24 = 0 && fld e 511 320 = 0 && fld e 127 64 % (64 * 2 ^ fld e 4 1) = 0

/-- R222. -/
def execQcmdEnable (s : State) : Out :=
  let p := s.args.part
  let q := s.args.queue
  let x := s.part p
  let bad := fun (s : State) => s.onPart p fun x => { x with qcmdErr := true }
  if !x.qtbase.getLsbD 0 || fld x.qtbase 57 48 < q then .next (bad s)
  else
    let a := fld x.qtbase 47 12 * 4096 + 64 * q
    match s.rangeState p a 64 false with
    | .waits => .next ((s.knockRange p a 64).again .qcmdEnable)
    | .fails => .next (bad s)
    | .poisoned => .next (bad s)
    | .ready =>
      let e : BitVec 512 := valOfBytes 512 (s.readRange p a 64)
      if entryOk e then
        .next ((s.readLines p a 64).onQueue p q fun y => { y with en := true, entry := e, ovr := false, wseq := false })
      else .next (bad (s.readLines p a 64))

/-- R222. -/
def execQcmdDisable (s : State) : Out :=
  let p := s.args.part
  let q := s.args.queue
  .next ((s.releaseRefs p q).onQueue p q Queue.stop)

/-- R221. -/
def execQcmdErrClear (s : State) : Out := .next (s.onPart s.args.part fun x => { x with qcmdErr := false })

/-- R223. -/
def execNotify (s : State) : Out := .next (s.onPart s.args.part (·.notify s.args.queue s.args.w))

/-- R221. -/
def execSpoolWrite (s : State) : Out := .next (s.partWrite s.args.part 0x0210 s.args.w)

/-! ### Rejection (R228) -/

/-- The slot is behind the queue. -/
def Queue.next (q : Queue) : Queue := { q with qrd := q.qrd + 1, ready := none, wdep := false, wseq := false }

/-- An error record: 16 bytes with the ring index and the reason; an error is the state while its write must wait. -/
def State.errRecordAt (s : State) (p q : Nat) (ix : W64) (reason : Nat) : Except State State :=
  let x := s.queueOf p q
  let a := x.errBase + BitVec.ofNat 64 (16 * (x.errs.toNat % 16))
  let bs := bytesOf 8 ix ++ bytesOf 8 (BitVec.ofNat 64 reason)
  let irq := fun (s : State) => if x.entry.getLsbD 7 then s.queueIrq p x else s
  match s.gvaWrite (x.ask p Kind.store) a bs with
  | .ok _ _ s => .ok (irq (s.onQueue p q fun y => { y with errs := y.errs + 1, err := true }))
  | .flt _ _ s => .ok (irq (s.onQueue p q fun y => { y with err := true }))
  | .lost s => .ok (irq (s.onQueue p q fun y => { y with err := true }))
  | .wait s => .error s

/-- The error record of the slot at QRD. -/
def State.errRecord (s : State) (p q reason : Nat) : Except State State := s.errRecordAt p q (s.queueOf p q).qrd reason

/-- A launch reference of the slot at QRD (R238): its timestamp, and the list without it. -/
def Partition.takeRef (x : Partition) (q i : Nat) : Option (Nat × Partition) :=
  (x.launchRefs.find? fun r => r.1 = q && r.2.1 = i).map fun r => (r.2.2, { x with launchRefs := x.launchRefs.erase r })

def State.dropRef (s : State) (p q : Nat) : State :=
  match (s.part p).takeRef q (s.queueOf p q).qrd.toNat with
  | some (t, x) => (s.onPart p fun _ => x).onPart p (·.dropSnap t)
  | none => s

/-- The packet at QRD is rejected. -/
def State.reject (s : State) (p q reason : Nat) : State :=
  match s.errRecord p q reason with
  | .ok s => (s.dropRef p q).onQueue p q Queue.next
  | .error s => s

/-! ### The checks of a packet (R225, R226, R228) -/

def Pk.type (k : BitVec 512) : Nat := fld k 19 16
def Pk.gx (k : BitVec 512) : Nat := fld k 159 128
def Pk.gy (k : BitVec 512) : Nat := fld k 191 160
def Pk.gz (k : BitVec 512) : Nat := fld k 223 192
def Pk.bdim (k : BitVec 512) : Nat := fld k 255 224

/-- Blocks of the grid. -/
def Pk.blocks (k : BitVec 512) : Nat := if Pk.type k = 1 then Pk.gx k * Pk.gy k * Pk.gz k else Pk.gx k

/-- The checks that need only the packet: the first reason, 0 if it passes. -/
def packetCheck (k : BitVec 512) (pcap : Nat) : Nat :=
  let t := Pk.type k
  if t = 0 || 4 ≤ t then 1
  else if fld k 63 24 ≠ 0 || (t = 1 && fld k 255 254 ≠ 0) ||
      (t = 3 && (fld k 21 20 ≠ 0 || k.getLsbD 23 || fld k 127 64 ≠ 0 || fld k 255 128 ≠ 0 || fld k 319 256 ≠ 0)) then 2
  else if fld k 127 64 % 64 ≠ 0 || fld k 383 320 % 4 ≠ 0 || fld k 511 448 % 4 ≠ 0 then 3
  else if t = 1 && (Pk.gx k = 0 || Pk.gy k = 0 || Pk.gz k = 0 || 2 ^ 32 < Pk.blocks k) then 5
  else if t = 2 && (Pk.gx k = 0 || Pk.bdim k = 0) then 5
  else if pcap < fld k 21 20 then 7
  else 0

def Hd.entry (h : BitVec 512) : Nat := fld h 31 0
def Hd.rgran (h : BitVec 512) : Nat := fld h 36 32
def Hd.acc (h : BitVec 512) : Nat := fld h 39 37
def Hd.localKib (h : BitVec 512) : Nat := fld h 49 40
def Hd.groups (h : BitVec 512) : Nat := fld h 54 50
def Hd.gang (h : BitVec 512) : Nat := fld h 57 55
def Hd.crit (h : BitVec 512) : Bool := h.getLsbD 58
def Hd.harv (h : BitVec 512) : Bool := h.getLsbD 59
def Hd.ccent (h : BitVec 512) : Nat := fld h 159 128

/-- SPTCNT as the table of R226 places it; the worked images of chapters 11, 23 and 24 have it in bits 127:112, reserved there
(DEDUCED, log 152). -/
def Hd.sptcnt (h : BitVec 512) : Nat := fld h 111 96

/-- R227. -/
def Hd.need (h : BitVec 512) : Nat :=
  Hd.groups h * (Hd.rgran h + Hd.acc h * 8) + if Hd.harv h then 0 else Hd.localKib h

/-- The checks that need the header. -/
def headerCheck (k h : BitVec 512) : Nat :=
  let bx := Pk.bdim k % 1024 * (Pk.bdim k / 1024 % 1024) * (Pk.bdim k / 1048576 % 1024)
  let pers := h.getLsbD 61
  let n := Hd.gang h
  let g := Hd.groups h
  if h.getLsbD 63 || fld h 127 112 ≠ 0 || fld h 511 160 ≠ 0 then 2
  else if Hd.entry h % 4 ≠ 0 || fld h 95 64 % 8 ≠ 0 then 3
  else if 16 < Hd.rgran h then 4
  else if (Pk.type k = 1 && bx ≠ g * Config.gwidth) || Pk.blocks k % n ≠ 0 || pers ≠ decide (Pk.type k = 2) then 5
  else if 5 ≤ Hd.acc h || 768 < Hd.localKib h || g = 0 || 17 ≤ g || n = 0 || 5 ≤ n || Config.storeKib < Hd.need h ||
      (Hd.crit h && Hd.harv h) || (Hd.harv h && (Hd.acc h ≠ 0 || pers || Hd.ccent h ≠ 0 || 8 < g)) then 6
  else 0

/-! ### Acceptance (R230) -/

/-- The handle of the grid at QRD (R396). -/
def gridHandle (q : Nat) (i : W64) : Nat := q + fld i 31 0 * 1024

/-- PPA of the allow-list of a context (R430). -/
def Partition.allowAt (x : Partition) (ctx : Nat) : Nat := fld x.pcalw 47 12 * 4096 + 32 * ctx

/-- The allow-list copy of a context (R430). -/
def State.allowCopy (s : State) (p ctx : Nat) : Option (BitVec 256) :=
  let x := s.part p
  if !x.pcalw.getLsbD 0 then none
  else match s.rangeState p (x.allowAt ctx) 32 false with
    | .ready => some (valOfBytes 256 (s.readRange p (x.allowAt ctx) 32))
    | _ => some 0

/-- The allow-list cannot be read yet. -/
def State.allowWaits (s : State) (p ctx : Nat) : Bool :=
  let x := s.part p
  x.pcalw.getLsbD 0 && s.rangeState p (x.allowAt ctx) 32 false = .waits

/-- A marker waits for every grid of its queue that has not completed. -/
def State.acceptMarker (s : State) (p q : Nat) (k : BitVec 512) : State :=
  let gs := ((s.part p).grids.filter (·.queue = q)).map (·.handle)
  s.onQueue p q fun x =>
    { x.next with markers := x.markers ++ [(k.extractLsb' 320 64, k.extractLsb' 384 32, k.getLsbD 22, gs)] }

/-- A grid joins the dispatch list of its priority. -/
def State.addGrid (s : State) (p q : Nat) (k h : BitVec 512) (hback : W64) (snap : Option Nat) : State :=
  let x := s.queueOf p q
  let g : Grid := {
    handle := gridHandle q x.qrd, queue := q, ctx := x.ctx, packet := k, header := h, hback := hback, prio := fld k 21 20
    irq := k.getLsbD 22 || x.entry.getLsbD 7, blocks := Pk.blocks k, gangSize := Hd.gang h, nextGang := 0, exited := 0
    snap := snap, allow := s.allowCopy p x.ctx, stopping := none, held := false, killed := false, since := s.cycle, ran := [] }
  let s := if (s.part p).pcalw.getLsbD 0 then s.readLines p ((s.part p).allowAt x.ctx) 32 else s
  (s.onPart p fun y => { y with
    grids := y.grids ++ [g]
    lists := mset [] y.lists g.prio (mget [] y.lists g.prio ++ [.grid g.handle]) }).onQueue p q Queue.next

/-- The dependency is met: once the allow-list can be read (R430), acceptance with the snapshot of R230 and R238, or
rejection with reason 8; with reason 9 where the snapshot table is LOST (R134). -/
def State.accept (s : State) (p q : Nat) (k h : BitVec 512) (hback : W64) : State :=
  let i := (s.queueOf p q).qrd.toNat
  let wants := h.getLsbD 60 || k.getLsbD 23
  if Pk.type k = 3 then (s.dropRef p q).acceptMarker p q k
  else if s.allowWaits p (s.queueOf p q).ctx then s.knockRange p ((s.part p).allowAt (s.queueOf p q).ctx) 32
  else if wants && (s.part p).seqLost then s.reject p q 9
  else match (s.part p).takeRef q i with
    | some (t, x) =>
      let s := s.onPart p fun _ => x
      if wants then s.addGrid p q k h hback (some t) else (s.onPart p (·.dropSnap t)).addGrid p q k h hback none
    | none =>
      if !wants then s.addGrid p q k h hback none
      else if (s.part p).transit 0 then s
      else match (s.part p).takeSnap (s.part p).vclock with
        | some x => (s.onPart p fun _ => x).addGrid p q k h hback (some (s.part p).vclock)
        | none => s.reject p q 8

/-- The doubleword at ARG of a harvest grid: HBACK (R231), or reason 9. -/
def State.readHback (s : State) (p q : Nat) (k h : BitVec 512) (f : W64 → State → State) : State :=
  if !Hd.harv h then f 0 s
  else match s.gvaRead ((s.queueOf p q).ask p Kind.load) (k.extractLsb' 256 64) 8 with
    | .ok b false s => f (valOfBytes 64 b) s
    | .wait u => s.knocked u
    | _ => s.reject p q 9

/-- A packet in its slot passed the lap check: its own checks, the header's, and acceptance unless it depends on a word. -/
def State.takePacket (s : State) (p q : Nat) (k : BitVec 512) : State :=
  let x := s.queueOf p q
  let go := fun (h : BitVec 512) (s : State) =>
    if Pk.type k = 3 then
      if fld k 511 448 = 0 then s.accept p q k 0 0
      else s.onQueue p q fun x => { x with wseq := false, wdep := true, ready := some (k, 0, 0) }
    else
      s.readHback p q k h fun hb s =>
        if fld k 511 448 = 0 then s.accept p q k h hb
        else s.onQueue p q fun x => { x with wseq := false, wdep := true, ready := some (k, h, hb) }
  let r := packetCheck k (fld x.entry 6 5)
  if r ≠ 0 then s.reject p q r
  else if Pk.type k = 3 then go 0 s
  else match s.gvaRead (x.ask p Kind.load) (k.extractLsb' 64 64) 64 with
    | .wait u => s.knocked u
    | .ok b false s =>
      let h := valOfBytes 512 b
      let r := headerCheck k h
      if r ≠ 0 then s.reject p q r else go h s
    | _ => s.reject p q 9

/-! ### The ring (R224) -/

/-- A fault on the ring read stops the queue. -/
def State.ringFault (s : State) (p q : Nat) : State :=
  match s.errRecord p q 9 with
  | .ok s => (s.releaseRefs p q).onQueue p q Queue.stop
  | .error s => s

/-- The slot at QRD is read. -/
def State.readSlot (s : State) (p q : Nat) : State :=
  let x := s.queueOf p q
  if !x.en || x.ready.isSome || x.notify.toNat ≤ x.qrd.toNat then s
  else
    let i := x.qrd.toNat
    let lap := i / x.size % 65536
    match s.devRead (x.ask p Kind.load) .plain (x.ring + BitVec.ofNat 64 (64 * (i % x.size))) 64 with
    | .wait u => s.knocked u
    | .ok b false s =>
      let k := valOfBytes 512 b
      if fld k 15 0 = (lap + 1) % 65536 then
        (s.releaseRefs p q).onQueue p q fun y => { y.stop with ovr := true }
      else if fld k 15 0 ≠ lap then s.onQueue p q fun y => { y with wseq := true }
      else s.takePacket p q k
    | _ => s.ringFault p q

/-- R224. -/
def execQueueReadSlot (s : State) : Out :=
  .next (if (s.queueOf s.args.part s.args.queue).wseq then s else s.readSlot s.args.part s.args.queue)

/-- R224. -/
def execWseqRetry (s : State) : Out :=
  .next (if (s.queueOf s.args.part s.args.queue).wseq then s.readSlot s.args.part s.args.queue else s)

/-! ### R229 -/

/-- R229: one read of the dependency word. A harvest grid's HBACK is read again at acceptance (R231). -/
def execDependencyCheck (s : State) : Out :=
  let p := s.args.part
  let q := s.args.queue
  let x := s.queueOf p q
  .next (match x.ready with
    | none => s
    | some (k, h, _) =>
      if !x.en then s
      else match s.devRead (x.ask p Kind.load) .plain (k.extractLsb' 448 64) 4 with
        | .wait u => s.knocked u
        | .ok b false s =>
          if natOfBytes b < fld k 447 416 then s
          else s.readHback p q k h fun hb s => s.accept p q k h hb
        | _ => s.reject p q 9)

/-! ### Markers and completion (R230) -/

/-- A completion word is written, in the context of its queue; an error is the state while the write waits. -/
def State.completionWord (s : State) (p q ctx : Nat) (caddr : W64) (cval : W32) : Except State State :=
  if caddr = 0 then .ok s
  else match s.devWrite ⟨p, ctx, Kind.store, false⟩ caddr (bytesOf 4 cval) with
    | .ok _ _ s => .ok s
    | .wait s => .error s
    | .flt _ _ s => .ok (s.onQueue p q fun x => { x with err := true })
    | .lost s => .ok (s.onQueue p q fun x => { x with err := true })

/-- R230. -/
def execMarkerComplete (s : State) : Out :=
  let p := s.args.part
  let q := s.args.queue
  let x := s.queueOf p q
  .next (match x.markers.find? fun m => m.2.2.2.all fun g => (s.part p).grids.all (·.handle ≠ g) with
    | none => s
    | some m =>
      match s.completionWord p q x.ctx m.1 m.2.1 with
      | .error s => s
      | .ok s =>
        let s := s.onQueue p q fun y => { y with markers := y.markers.erase m }
        if m.2.2.1 || x.entry.getLsbD 7 then s.queueIrq p x else s)

/-- SC lines that the cores of a list hold dirty (R116). -/
def State.dirtyLines (s : State) (ks : List CoreKey) (p : Nat) : List (CoreKey × Nat) :=
  ks.flatMap fun k => ((s.core k).l1.filter fun l => l.part = p && l.dirty ≠ 0).map fun l => (k, l.line)

/-- R230: every block has exited; SC lines are written back (R116), then the completion word. -/
def execGridComplete (s : State) : Out :=
  let p := s.args.part
  .next (match (s.part p).grids.find? (·.handle = s.args.grid) with
    | none => s
    | some g =>
      let ls := s.dirtyLines g.ran p
      if g.exited < g.blocks then s
      else if ls.any fun l => s.l1Hold l.1 p l.2 ≠ .none then s.stall p (ls.map (64 * ·.2))
      else
        let s := ls.foldl (fun s l => s.cleanL1 l.1 p l.2) s
        match s.completionWord p g.queue g.ctx (g.packet.extractLsb' 320 64) (g.packet.extractLsb' 384 32) with
        | .error s => s
        | .ok s =>
          let s := match g.snap with
            | some t => s.onPart p (·.dropSnap t)
            | none => s
          let s := (s.onPart p fun x => { x with grids := x.grids.filter (·.handle ≠ g.handle) }).calmCode p
          if g.irq then s.queueIrq p (s.queueOf p g.queue) else s)

end Sys2Proof.Machine
end

