-- ==== Sys2Proof/Machine/Harvest.lean ====
section
/-! DEFINITION. Slots of a core, and the revocation and resume of harvest groups (R215 to R217). -/

namespace Sys2Proof.Machine

/-! ### Slots -/

/-- The group holds a slot of its core. -/
def State.holdsSlot (s : State) (g : Group) : Bool :=
  match g.state with
  | .none => false
  | .saved => false
  | .parked => false
  | .exited => !g.gaveUp && match s.block? g.info.key.blk with
    | some b => b.placed
    | none => false
  | _ => !g.gaveUp

/-- Groups that hold slots of a core. -/
def State.groupsOn (s : State) (k : CoreKey) : List Group :=
  s.allGroups.filter fun g => g.coreKey = k && s.holdsSlot g

/-- Slots that are free, lowest first, with the slots of some groups counted as free. -/
def State.freeSlots (s : State) (k : CoreKey) (but : GroupInfo → Bool) : List Nat :=
  let used := ((s.groupsOn k).filter fun g => !but g.info).map (·.info.slot)
  (List.range Config.groupSlots).filter fun i => !used.contains i

/-! ### Which groups a revocation takes (R215) -/

/-- Resident harvest groups of a core, most recently placed first. -/
def State.harvestOn (s : State) (k : CoreKey) : List Group :=
  let age := fun (g : Group) => ((s.core k).serial - g.info.serial).toNat
  ((s.groupsOn k).filter (·.info.harv)).foldl (fun l g => insertBy (fun a b => decide (age a ≤ age b)) g l) []

/-- From the front, as many groups as bring `slots` and `kib` down to nothing. -/
def takeVictims : List Group → Nat → Nat → List Group
  | [], _, _ => []
  | g :: r, slots, kib =>
    if slots = 0 && kib = 0 then [] else g :: takeVictims r (slots - 1) (kib - (g.info.rgran + g.info.acc * 8))

/-- Harvest groups that must go so that a block of `slots` groups and `kib` KiB fits; `blk` is that block, which does not
count if it is placed already. -/
def State.victims (s : State) (k : CoreKey) (blk : BlockKey) (slots kib : Nat) : List Group :=
  let used := ((s.groupsOn k).filter fun g => g.info.key.blk ≠ blk).length
  let store := ((s.blocksOn k).filter (·.key ≠ blk)).foldl (fun n b => n + s.blockStore b) 0
  takeVictims (s.harvestOn k) (used + slots - Config.groupSlots) (store + kib - Config.storeKib)

/-- The group is parked (R216): its window and control state leave the core, its fault and its outstanding accesses stay;
a sleep ends. A group that does not run gives up its slot and window and keeps its state (R218). -/
def Group.park (g : Group) : Group :=
  if g.state = .exited || g.state = .placed then { g with gaveUp := true }
  else { g with
    state := .parked
    f0 := { g.f0 with sleeping := false, waited := 0 }
    f1 := { g.f1 with sleeping := false, waited := 0 } }

/-- The streams of a group emit a STOP (R418): `cause` is that of a fault. -/
def State.emitStop (s : State) (k : GroupKey) (slot : Bool) (kind : Nat) (cause : BitVec 8) : State :=
  match s.group? k with
  | none => s
  | some g =>
    let f := g.frag slot
    if f.busy then s.emit g slot (.stop kind cause (if kind = 0 then (g.trap slot).tpc else f.pc)) else s

def State.emitStops (s : State) (k : GroupKey) (kind : Nat) : State := (s.emitStop k false kind 0).emitStop k true kind 0

/-- A revocation of these groups of a core starts. -/
def State.revoke (s : State) (k : CoreKey) (gs : List GroupKey) : State :=
  if gs.isEmpty then s
  else
    let s := (bySlot (gs.filterMap s.group?)).foldl (fun s x => if x.state = .placed then s else s.emitStops x.info.key 4) s
    let s := s.mapGroups fun g => if gs.contains g.info.key then g.park else g
    (s.onCore k fun c => { c with revoking := c.revoking ++ gs }).countCore k 0x46 gs.length

/-- R215: for a new block as many groups as it needs, for a drain or a stop all of them. -/
def execRevocation (s : State) : Out :=
  let k := s.args.coreKey
  let gs := match s.args.need with
    | none => s.harvestOn k
    | some n => s.victims k s.args.block s.args.n ((n + 1023) / 1024)
  .next (s.revoke k (gs.map (·.info.key)))

/-- R215. -/
def execRevocationComplete (s : State) : Out :=
  .next ((s.onCore s.args.coreKey fun c => { c with revoking := [] }).trimL1 s.args.coreKey)

/-! ### Resume (R217) -/

/-- The state in which a group goes on: a fault that is posted or waits to be keeps it FAULTED. -/
def Group.resumed (g : Group) : GroupState :=
  if g.t0.phase ≠ .none || g.t1.phase ≠ .none then .faulted
  else if g.stopReq then .stopping
  else .running

/-- A placement or restore of a non-harvest block is under way on a core. -/
def State.placing (s : State) (k : CoreKey) : Bool :=
  (s.groupsOn k).any fun g => g.state = .placed && !g.info.harv

/-- Slot and store for a parked group, and nothing under way on its core. -/
def State.canResume (s : State) (g : Group) : Bool :=
  let k := g.coreKey
  g.state = .parked && !g.killed && !g.stopReq && (s.core k).revoking.isEmpty && !s.placing k &&
    !(s.freeSlots k fun _ => false).isEmpty && decide (s.storeUsed k + g.info.rgran + g.info.acc * 8 ≤ Config.storeKib)

/-- R217, once the L1 has left the place of the group's window (R72). -/
def execHarvestResume (s : State) : Out :=
  .next (match s.group? s.args.group with
    | none => s
    | some g =>
      if !s.canResume g then s
      else
        let slot := (s.freeSlots g.coreKey fun _ => false).headD 0
        let h := { g with info := { g.info with slot := slot }, state := g.resumed, ctrs := [] }
        let t := (s.setGroup h).trimL1 g.coreKey
        if t.l1Fits g.coreKey then t.emitSyncs h.info.key else t.setGroup g)

end Sys2Proof.Machine
end

