-- ==== Sys2Proof/Machine/Claim.lean ====
section
/-! DEFINITION. Dispatch and placement (R231 to R236) and the control cores (R239, R240). -/

namespace Sys2Proof.Machine

/-! ### Control-core events (R240) -/

/-- R240: a read pops one event, or returns 0 if the ring is empty. With `half` the control core then waits in `wfi` until an
event arrives. -/
def execCceventRead (s : State) : Out :=
  .next (s.onCluster (s.args.slice * Config.clusters + s.args.cluster) fun c =>
    { c with ring := c.ring.drop 1, ccRead := c.ring.headD 0, ccWaiting := s.args.half && c.ring.drop 1 = [] && c.cc.isSome })

/-! ### Iterations of a persistent grid (R236) -/

def iterAt (n blocks b : Nat) : Nat := b * n / blocks

/-- ITERBEG, ITEREND and FIXUP of block `b`. -/
def iterRange (n per blocks b : Nat) : W64 × W64 × W64 :=
  let beg := iterAt n blocks b
  let fin := iterAt n blocks (b + 1)
  let k := (fin - 1) / per
  let lim := Nat.min ((k + 1) * per) n
  let head := beg < fin && beg % per ≠ 0
  let tail := beg < fin && beg ≤ k * per && fin < lim
  let later := ((List.range blocks).filter fun c => b < c && iterAt n blocks c < lim &&
    iterAt n blocks c < iterAt n blocks (c + 1)).length
  (BitVec.ofNat 64 beg, BitVec.ofNat 64 fin,
    Sys2Proof.Machine.status [(0, head.toNat), (1, tail.toNat), (32, if tail then Nat.min later 0xFFFF else 0)])

/-! ### The placement test (R234) -/

/-- What each block of a gang needs of its core. -/
structure Need where
  groups : Nat
  kib : Nat
  harv : Bool
  ins : Nat
  outs : Nat
  /-- lent lines for the stash lines of a restored harvest block -/
  lines : Nat
  cc : Bool
  grid : Nat

/-- Groups of a core that hold cellar entries and shadows (R214), one taken back before it ran among them. -/
def State.shadows (s : State) (k : CoreKey) : Nat :=
  (s.allGroups.filter fun g => g.coreKey = k && g.info.harv && !g.killed &&
    (s.holdsSlot g || g.state = .parked || (g.state = .placed && g.gaveUp))).length

def State.fitsCore (s : State) (p : Nat) (k : CoreKey) (n : Need) : Bool :=
  let slots := (s.freeSlots k fun i => !n.harv && i.harv).length
  let store := ((s.blocksOn k).filter fun b => n.harv || !b.harv).foldl (fun m b => m + s.blockStore b) 0
  n.groups ≤ slots && store + n.kib ≤ Config.storeKib &&
    s.coreEntries k.slice k.core false + n.ins ≤ 16 && s.coreEntries k.slice k.core true + n.outs ≤ 16 &&
    (!n.harv || ((s.blocksOn k).any (fun b => b.crit && b.resident) && s.shadows k + n.groups ≤ 8 &&
      n.lines ≤ (s.lendable k).length)) &&
    (!n.cc || match (s.clusterAt (clusterIx k)).cc with
      | none => true
      | some c => c = (p, n.grid))

/-- A slice that may claim (R233, R460). -/
def State.sliceOpen (s : State) (p sl : Nat) : Bool :=
  let x := s.slice sl
  (s.part p).mask.getLsbD sl && x.shutter = 1 && x.srdy.getLsbD 4

/-- Cores in ascending order for blocks in rank order, each on the next core that fits it. -/
def fitRanks (fits : Nat → Need → Bool) : List Nat → List Need → Option (List Nat)
  | _, [] => some []
  | [], _ :: _ => none
  | c :: cs, n :: ns => if fits c n then (fitRanks fits cs ns).map (c :: ·) else fitRanks fits cs (n :: ns)

/-- The cores that the blocks of a gang take on a cluster, in rank order. -/
def State.fitCluster (s : State) (p sl cl : Nat) (ns : List Need) : Option (List Nat) :=
  fitRanks (fun c n => s.fitsCore p ⟨sl, c⟩ n) (span (cl * Config.coresPerCluster) Config.coresPerCluster) ns

/-- Free group slots of a cluster. -/
def State.clusterSlots (s : State) (sl cl : Nat) (harv : Bool) : Nat :=
  (span (cl * Config.coresPerCluster) Config.coresPerCluster).foldl
    (fun m c => m + (s.freeSlots ⟨sl, c⟩ fun i => !harv && i.harv).length) 0

/-- The fitting cluster with the most free slots, the lower number on a tie. -/
def State.pickCluster (s : State) (p sl : Nat) (ns : List Need) (ok : Nat → Bool) : Option (List Nat) :=
  ((List.range Config.clusters).foldl (fun (best : Option (Nat × List Nat)) cl =>
    if !ok cl then best
    else match s.fitCluster p sl cl ns with
      | none => best
      | some l =>
        let m := s.clusterSlots sl cl (ns.any (·.harv))
        match best with
        | some b => if b.1 < m then some (m, l) else best
        | none => some (m, l)) none).map (·.2)

/-- Free stack areas (R221), lowest first. -/
def Partition.freeAreas (x : Partition) : List Nat :=
  if x.spool.getLsbD 0 then (List.range (fld x.spool 63 48)).filter fun a => !x.areas.contains a else []

/-! ### Placing a gang (R231, R234) -/

def Grid.need (g : Grid) : Need :=
  ⟨Hd.groups g.header, Hd.need g.header, Hd.harv g.header, 0, 0, 0, Hd.ccent g.header ≠ 0, g.handle⟩

/-- The start values of a group (R231). -/
def Grid.startGroup (g : Grid) (i : GroupInfo) (area : Nat) : Group :=
  let k := g.packet
  let x := Group.start i .placed
  let two := Pk.type k = 2
  let s1 := k.extractLsb' 256 64
  let s2 := k.extractLsb' 160 64
  let x := (x.sset 1 s1).sset 2 (if two then s2 else k.extractLsb' 128 64)
  let x := x.sset 3 (if two then BitVec.ofNat 64 (Pk.bdim k) else BitVec.ofNat 64 (Pk.gz k + Pk.bdim k * 2 ^ 32))
  { x with
    area := some area, launchSnap := g.snap
    f0 := { Frag.none with
      mask := BitVec.allOnes 32, st := .ready
      pc := i.kaddr + BitVec.ofNat 64 (Hd.entry g.header) } }

/-- One block of a gang placed on a core; revocations that it needs come next (R215). -/
def State.placeBlock (s : State) (p : Nat) (g : Grid) (gang rank : Nat) (k : CoreKey) : State :=
  let h := g.header
  let b := gang * g.gangSize + rank
  let key : BlockKey := ⟨p, g.handle, b⟩
  let vs := if Hd.harv h then [] else (s.victims k key (Hd.groups h) (Hd.need h)).map (·.info.key)
  let slots := s.freeSlots k fun i => vs.contains i.key
  let areas := (s.part p).freeAreas
  let it := if Pk.type g.packet = 2 then
      iterRange (Pk.gy g.packet + Pk.gz g.packet * 2 ^ 32) (Pk.bdim g.packet) g.blocks b else (0, 0, 0)
  let info : Nat → GroupInfo := fun i => {
    key := ⟨key, i⟩, slice := k.slice, core := k.core, slot := (slots.drop i).headD 0
    serial := (s.core k).serial + BitVec.ofNat 23 (i + 1), ctx := g.ctx, gang := gang, rank := rank
    gangSize := g.gangSize, groups := Hd.groups h, rgran := Hd.rgran h, acc := Hd.acc h, localKib := Hd.localKib h
    crit := Hd.crit h, harv := Hd.harv h, checked := h.getLsbD 62, kaddr := g.packet.extractLsb' 64 64
    sptoff := h.extractLsb' 64 32, sptcnt := BitVec.ofNat 16 (Hd.sptcnt h), iterBeg := it.1, iterEnd := it.2.1, fixup := it.2.2 }
  let n := Hd.groups h
  let gs := (List.range n).map fun i =>
    { g.startGroup (info i) ((areas.drop i).headD 0) with clkBase := s.cycle }
  let s := { s with
    groups := s.groups ++ gs
    blocks := s.blocks ++ [Block.start (info 0) (g.hback + BitVec.ofNat 64 (b * Hd.localKib h * 1024))] }
  let s := s.onPart p fun x => { x with areas := x.areas ++ areas.take n }
  let s := s.onCore k fun c => { c with serial := c.serial + BitVec.ofNat 23 n }
  let s := if vs.isEmpty then s
    else s.queueStep ⟨.revocation, { StepArgs.zero with
      part := p, grid := g.handle, blk := b, slice := k.slice, core := k.core, n := n, need := some (Hd.need h * 1024) }⟩
  s.trimL1 k

/-- The control core of a cluster starts (R239). -/
def State.startControl (s : State) (cl p : Nat) (g : Grid) (gang : Nat) : State :=
  if Hd.ccent g.header = 0 || (s.clusterAt cl).cc.isSome then s
  else s.onCluster cl fun c => { c with
    cc := some (p, g.handle), ccPc := g.packet.extractLsb' 64 64 + BitVec.ofNat 64 (Hd.ccent g.header)
    ccA0 := g.packet.extractLsb' 256 64, ccA1 := BitVec.ofNat 64 gang, ring := [], ringLost := 0, ccWaiting := false, ccRead := 0, ccResv := none }

def gangWord (kind gang : Nat) : W64 := Sys2Proof.Machine.status [(0, kind), (16, gang % 2 ^ 32)]

/-- A gang placed on the cores of one cluster, in rank order; the grid hands out the next gang from here on. -/
def State.placeGang (s : State) (p : Nat) (g : Grid) (gang sl : Nat) (cores : List Nat) : State :=
  let cl := clusterIx ⟨sl, cores.headD 0⟩
  let s := (cores.zipIdx).foldl (fun s c => s.placeBlock p g gang c.2 ⟨sl, c.1⟩) s
  let s := (s.startControl cl p g gang).ccEvent cl p g.handle (gangWord Ev.placed gang)
  s.onPart p fun x => { x with
    lastClaim := sl
    grids := x.grids.map fun y => if y.handle = g.handle then { y with nextGang := gang + 1 } else y
    lists := if (gang + 1) * g.gangSize < g.blocks then x.lists
      else x.lists.map fun l => (l.1, l.2.filter (· ≠ .grid g.handle)) }

/-! ### Candidates (R233) -/

/-- Slices of a partition, the one after the most recent claimer first. -/
def Partition.turnOrder (x : Partition) : List Nat :=
  (x.members.filter fun m => x.lastClaim < m) ++ x.members.filter fun m => m ≤ x.lastClaim

/-- The next gang of a grid on a slice. -/
def State.fitNext (s : State) (p sl : Nat) (g : Grid) : Option (List Nat) :=
  if (s.part p).freeAreas.length < g.gangSize * Hd.groups g.header then none
  else s.pickCluster p sl (List.replicate g.gangSize g.need) fun _ => true

/-- Every gang of a type 2 grid placed at once (R234), or none. -/
def State.placeWhole (s : State) (p : Nat) (g : Grid) : Option State :=
  let gangs := g.blocks / g.gangSize
  if 16 * 32 * Config.groupSlots < gangs then none
  else (List.range gangs).foldl (fun acc i => acc.bind fun s =>
    ((s.part p).turnOrder.findSome? fun sl =>
      if s.sliceOpen p sl then (s.fitNext p sl g).map (sl, ·) else none).map fun c =>
        s.placeGang p g i c.1 c.2) (some s)

/-- Slices that sleep and take gangs of a type 2 grid, which must wake before it is claimed (R462). -/
def State.asleepFor (s : State) (p : Nat) (g : Grid) : List Nat :=
  match s.placeWhole p g with
  | none => []
  | some t => ((t.blocks.filter fun b => b.key.part = p && b.key.grid = g.handle && (s.slice b.slice).power ≠ 0).map
      (·.slice)).eraseDups

/-- Blocks of a saved gang, by rank. -/
def State.savedGang (s : State) (p grid gang : Nat) : List Block :=
  (s.gangBlocks p grid gang).foldl (fun l b => insertBy (fun x y => decide (x.rank ≤ y.rank)) b l) []

/-- What a saved block needs of its core. -/
def Block.restoreNeed (b : Block) (cc : Bool) (grid : Nat) : Need where
  groups := b.groups
  kib := b.groups * (b.rgran + b.acc * 8) + if b.harv then 0 else b.localKib
  harv := b.harv
  ins := b.inb.length
  outs := b.outb.length
  lines := if b.harv then b.stash.length else 0
  cc := cc
  grid := grid

/-- The cores that take a restore entry on a slice, of the clusters that may have it (R235). -/
def State.fitRestore (s : State) (p sl grid gang : Nat) (ok : Nat → Bool) : Option (List Nat) :=
  let cc := match (s.part p).grids.find? (·.handle = grid) with
    | some g => Hd.ccent g.header ≠ 0
    | none => false
  s.pickCluster p sl ((s.savedGang p grid gang).map fun b => b.restoreNeed cc grid) ok

/-- Clusters of a slice that may take a restore entry. -/
def homeAllows (home : Option (Nat × Nat)) (fitted sl cl : Nat) : Bool :=
  match home with
  | none => true
  | some h => h.1 = sl && (h.2 = cl || 1024 ≤ fitted)

/-- The next gang of a dispatch entry fits on a slice. -/
def State.entryFits (s : State) (p sl : Nat) (e : DispatchEntry) : Bool :=
  match e with
  | .grid h => match (s.part p).grids.find? (·.handle = h) with
    | none => false
    | some g =>
      if g.stopping.isSome || g.held then false
      else if Pk.type g.packet = 2 then (s.placeWhole p g).isSome
      else (s.fitNext p sl g).isSome
  | .restore h gang home _ fitted =>
    (s.part p).grids.any (fun g => g.handle = h && g.stopping.isNone) &&
      (s.fitRestore p sl h gang (homeAllows home fitted sl)).isSome

/-- Within a list, the first of the first 8 entries that fits. -/
def State.candidate (s : State) (p sl : Nat) : Option DispatchEntry :=
  if !s.sliceOpen p sl then none
  else [3, 2, 1, 0].findSome? fun i => ((mget [] (s.part p).lists i).take 8).find? fun e => s.entryFits p sl e

/-- The slice that claims first. -/
def State.claimer (s : State) (p : Nat) : Option Nat :=
  (s.part p).turnOrder.find? fun sl => (s.candidate p sl).isSome

/-! ### Restore entries (R107, R407) -/

/-- A saved block gets its core: its groups are placed under new handles, and its publishers receive a resume. -/
def State.restoreBlock (s : State) (b : Block) (k : CoreKey) : State :=
  let gs := (s.allGroups.filter fun g => g.info.key.blk = b.key).foldl
    (fun l g => insertBy (fun (x y : Group) => decide (x.info.key.grp ≤ y.info.key.grp)) g l) []
  let kib := b.groups * (b.rgran + b.acc * 8) + if b.harv then 0 else b.localKib
  let vs := if b.harv then [] else (s.victims k b.key b.groups kib).map (·.info.key)
  let slots := s.freeSlots k fun i => vs.contains i.key
  let serial := (s.core k).serial
  let s := (gs.zipIdx).foldl (fun s x => s.onGroup x.1.info.key fun g => { g with
    info := { g.info with slice := k.slice, core := k.core, slot := (slots.drop x.2).headD 0, serial := serial + BitVec.ofNat 23 (x.2 + 1) }
    state := if g.state = .exited then .exited else .placed, storeTime := 0 }) s
  let s := s.onCore k fun c => { c with serial := c.serial + BitVec.ofNat 23 gs.length }
  let s := s.onBlock b.key fun b => { b with
    slice := k.slice, core := k.core, restoring := 1, drained := false
    inb := b.inb.map fun e => (e.1, if e.2.st = .orphaned then e.2 else { e.2 with st := .switching }) }
  let s := if vs.isEmpty then s
    else s.queueStep ⟨.revocation, { StepArgs.zero with
      part := b.key.part, grid := b.key.grid, blk := b.key.blk, slice := k.slice, core := k.core, n := b.groups
      need := some (kib * 1024) }⟩
  let s := b.inb.foldl (fun s e =>
    if e.2.st = .orphaned then s
    else s.queueStep ⟨.subResume, { StepArgs.zero with
      part := e.2.peer.part, grid := e.2.peer.grid, blk := e.2.peer.blk, n := e.2.peerHandle }⟩) s
  s.trimL1 k

/-- A saved gang placed on the cores of one cluster. -/
def State.restoreGang (s : State) (p grid gang sl : Nat) (cores : List Nat) : State :=
  let cl := clusterIx ⟨sl, cores.headD 0⟩
  let s := ((s.savedGang p grid gang).zip cores).foldl (fun s x => s.restoreBlock x.1 ⟨sl, x.2⟩) s
  let s := match (s.part p).grids.find? (·.handle = grid) with
    | some g => s.startControl cl p g gang
    | none => s
  let s := s.ccEvent cl p grid (gangWord Ev.restored gang)
  s.onPart p fun x => { x with
    lastClaim := sl
    lists := x.lists.map fun l => (l.1, l.2.filter fun e => match e with
      | .restore h n _ _ _ => !(h = grid && n = gang)
      | .grid _ => true) }

/-- R233 to R235: the distributor of the slice that the arguments name claims, if it is the one that claims first. -/
def execGangClaim (s : State) : Out :=
  .next (
    let sl := s.args.slice
    match (s.slice sl).owner with
    | none => s
    | some p =>
      if s.claimer p ≠ some sl || (s.slice sl).power ≠ 0 then s
      else match s.candidate p sl with
        | none => s
        | some (.grid h) => match (s.part p).grids.find? (·.handle = h) with
          | none => s
          | some g =>
            if Pk.type g.packet = 2 then if (s.asleepFor p g).isEmpty then (s.placeWhole p g).getD s else s
            else match s.fitNext p sl g with
              | some l => s.placeGang p g g.nextGang sl l
              | none => s
        | some (.restore h gang home _ fitted) =>
          match s.fitRestore p sl h gang (homeAllows home fitted sl) with
          | some l => s.restoreGang p h gang sl l
          | none => s)

/-- R235: another cluster of the home slice has fitted the entry for 1,024 cycles. -/
def execRestoreDonate (s : State) : Out :=
  let a := s.args
  .next (s.onPart a.part fun x => { x with
    lists := x.lists.map fun l => (l.1, l.2.map fun e => match e with
      | .restore h gang (some c) sl f =>
        if h = a.grid && gang = a.gang && (s.fitRestore a.part c.1 h gang fun cl => cl ≠ c.2).isSome then
          .restore h gang (some c) sl (Nat.max f 1024)
        else e
      | _ => e) })

end Sys2Proof.Machine
end

