-- ==== Sys2Proof/Machine/Cross.lean ====
section
/-! DEFINITION. Cross-lane and quad instructions (R328 to R339). -/

namespace Sys2Proof.Machine

/-! ### Shuffles (R332) -/

/-- A shuffle: source lane by lane, none out of range. -/
def State.shuffle (s : State) (d a : BitVec 7) (extra : List Nat) (codes : Bool) (m : Nat → Option Nat) : Res :=
  let wide := s.wideTy
  let lw := if wide then 64 else 32
  let evens := if wide then [d.toNat, a.toNat] else []
  s.guardAll { vs := regs wide d ++ regs wide a ++ extra, evens := evens, cc := s.guardReads || codes } true
    (.ok (s.putLanes s.active wide d codes fun l =>
      let x := s.vreg wide 0 a ((m l).getD l)
      (x, codesOf (m l).isNone (x = 0) (bitOf x (lw - 1)) false)).advance)

/-- The offset of an imm7 (R329): absolute, or GWIDTH / 2^k. -/
def shflOffset (i : BitVec 7) : Nat :=
  if i.getLsbD 6 then Config.gwidth / 2 ^ fld i 2 0 else fld i 5 0

def inGroup (m : Nat) : Option Nat := if m < Config.gwidth then some m else none

/-- R332. -/
def execShflIdx (d a b : BitVec 7) (s : State) : Out :=
  (s.shuffle d a [b.toNat] s.ccw fun l => some ((s.vread 1 b.toNat l).toNat % Config.gwidth)).out

/-- R332. -/
def execShflUp (d a : BitVec 7) (i : BitVec 7) (s : State) : Out :=
  (s.shuffle d a [] s.ccw fun l => if shflOffset i ≤ l then some (l - shflOffset i) else none).out

/-- R332. -/
def execShflDn (d a : BitVec 7) (i : BitVec 7) (s : State) : Out :=
  (s.shuffle d a [] s.ccw fun l => inGroup (l + shflOffset i)).out

/-- R332. -/
def execShflXor (d a : BitVec 7) (i : BitVec 7) (s : State) : Out :=
  (s.shuffle d a [] s.ccw fun l => inGroup (l ^^^ shflOffset i)).out

/-- R332, R329. -/
def execQswap (d a : BitVec 7) (q y : BitVec 2) (s : State) : Out :=
  (s.shuffle d a [] false fun l =>
    some (if y = 0 then l ^^^ 1 else if y = 1 then l ^^^ 2 else if y = 2 then l ^^^ 3 else 4 * (l / 4) + q.toNat)).out

/-! ### Reductions and scans (R333) -/

/-- Lanes of a span code. -/
def spanLanes (n : Nat) : Nat := if n = 6 then Config.gwidth else Nat.min (2 ^ (n + 2)) Config.gwidth

/-- A value with its V and NaN marks. -/
structure Part where
  val : Nat
  v : Bool
  nan : Bool
deriving DecidableEq, Repr

/-- The combination of integer operands (R333), ops 0 to 5; the identity of none. -/
def combineInts (t : IntTy) (sat : Bool) (op : Nat) (xs : List Nat) : Part :=
  let rs := xs.map t.read
  match op with
  | 0 =>
    let e := t.narrow sat rs.sum false
    ⟨e.val, e.v, false⟩
  | 1 => ⟨wrap t.w (rs.foldl min t.hi), false, false⟩
  | 2 => ⟨wrap t.w (rs.foldl max t.lo), false, false⟩
  | 3 => ⟨xs.foldl (· &&& ·) (2 ^ t.w - 1), false, false⟩
  | 4 => ⟨xs.foldl (· ||| ·) 0, false, false⟩
  | _ => ⟨xs.foldl (· ^^^ ·) 0, false, false⟩

/-- A f32 operand as it enters a sum, flushed (R311). -/
def State.f32Part (s : State) (b : Nat) : Part :=
  let b := if modeFtz s.mode && tyF32.subnormal b then b / 2 ^ 31 * 2 ^ 31 else b
  ⟨b, false, (tyF32.decode b).isNan⟩

/-- One f32 addition of partial values. -/
def State.addPart (s : State) (a b : Part) : Part :=
  let c := s.ctl tyF32
  let r := tyF32.round c ((tyF32.decode a.val).add (c.rnd = Rnd.rdn) (tyF32.decode b.val))
  ⟨r.bits, a.v || b.v || r.ovf, a.nan || b.nan || r.nan⟩

def State.addOpt (s : State) : Option Part → Option Part → Option Part
  | none, b => b
  | a, none => a
  | some a, some b => some (s.addPart a b)

/-- One step of the fixed tree: runs take the sum of their two halves. -/
def State.treeStep (s : State) : List (Option Part) → List (Option Part)
  | a :: b :: r => s.addOpt a b :: s.treeStep r
  | l => l

/-- The tree over a segment. -/
def State.tree (s : State) : Nat → List (Option Part) → Option Part
  | 0, l => l.headD none
  | n + 1, l => s.tree n (s.treeStep l)

/-- −0, the identity of fadd. -/
def fzero : Part := ⟨0x80000000, false, false⟩

/-- Lanes of a segment. -/
def laneRun (base n : Nat) : List Nat := (List.range n).map (base + ·)

/-- The combination that a lane receives: of the contributors among `ms` in the segment that starts at `base`. -/
def State.combineLanes (s : State) (op base span : Nat) (a : BitVec 7) (ms : Nat → Bool) (tree : Bool) : Part :=
  let wide := s.wideTy
  let lanes := (laneRun base span).filter fun m => s.active.getLsbD m && ms m
  if op = 6 then
    if tree then
      (s.tree 7 ((laneRun base span).map fun m =>
        if s.active.getLsbD m && ms m then some (s.f32Part (s.vreg false 0 a m)) else none)).getD fzero
    else
      match lanes.map fun m => s.f32Part (s.vreg false 0 a m) with
      | [] => fzero
      | x :: r => r.foldl s.addPart x
  else combineInts (bitTy s.ty) s.sat op (lanes.map (s.vreg wide 0 a))

/-- `lred` and `scan`. -/
def State.collective (s : State) (d a : BitVec 7) (n o : BitVec 3) (part : Nat → Nat → Part) : Res :=
  let fadd := o = 6
  let wide := s.wideTy
  let lw := if wide then 64 else 32
  let evens := if wide then [d.toNat, a.toNat] else []
  s.guardAll { vs := regs wide d ++ regs wide a, evens := evens, cc := s.guardReads || s.ccw }
    (if fadd then s.ty = 0x0A else wholeTypes s.ty)
    (.ok (s.putLanes s.active wide d s.ccw fun l =>
      let k := spanLanes n.toNat
      let r := part l (l / k * k)
      (r.val, codesOf (fadd && r.nan) (if fadd then r.val % 2 ^ 31 = 0 else r.val = 0) (bitOf r.val (lw - 1)) r.v)).advance)

/-- R333. -/
def execLred (d a : BitVec 7) (n o : BitVec 3) (s : State) : Out :=
  (s.collective d a n o fun _ base =>
    s.combineLanes o.toNat base (spanLanes n.toNat) a (fun _ => true) true).out

/-- R333. -/
def execScan (d a : BitVec 7) (e : BitVec 1) (n o : BitVec 3) (s : State) : Out :=
  (s.collective d a n o fun l base =>
    s.combineLanes o.toNat base (spanLanes n.toNat) a (fun m => if e = 1 then m < l else m ≤ l) false).out

/-! ### Votes, ballots and lane access (R334 to R337) -/

/-- Uniform flags with Z alone. -/
def zFlag (z : Bool) : Codes := codesOf false z false false

/-- R334. -/
def State.voteOp (s : State) (d : BitVec 6) (a : BitVec 7) (m : BitVec 2) : Res :=
  let wide := s.wideTy
  let xs := (lanesOf s.active).map (s.vreg wide 0 a)
  let r :=
    if m = 0 then xs.all (· ≠ 0) else if m = 1 then xs.any (· ≠ 0) else xs.all fun x => x = xs.headD x
  s.guardAll { vs := regs wide a, us := [d.toNat], evens := if wide then [a.toNat] else [], cc := s.guardReads, fl := true }
    true (.ok (s.uniform d (if r then 1 else 0) (some (zFlag (!r)))).advance)

/-- R334. -/
def execVote (d : BitVec 6) (a : BitVec 7) (m : BitVec 2) (s : State) : Out := (s.voteOp d a m).out

/-- R335. -/
def State.ballotOp (s : State) (d : BitVec 6) (a : BitVec 7) : Res :=
  let wide := s.wideTy
  let r := maskOf fun l => s.active.getLsbD l && s.vreg wide 0 a l ≠ 0
  s.guardAll { vs := regs wide a, us := [d.toNat], evens := if wide then [a.toNat] else [], cc := s.guardReads, fl := s.ccw }
    true (.ok (s.uniform d (r.setWidth 64) (if s.ccw then some (zFlag (r = 0)) else none)).advance)

/-- R335. -/
def execBallot (d : BitVec 6) (a : BitVec 7) (s : State) : Out := (s.ballotOp d a).out

/-- A lane index below GWIDTH (R330). -/
def laneIndex (i : BitVec 7) (s : State) (k : Res) : Res :=
  check (i.toNat < Config.gwidth) { cause := Cause.illegalOperand } s k

/-- R336. -/
def execRdlane (d : BitVec 6) (a : BitVec 7) (i : BitVec 7) (s : State) : Out :=
  (s.guardAll { vs := regs s.wideTy a, us := [d.toNat], evens := if s.wideTy then [a.toNat] else [] } true
    (laneIndex i s (.ok (s.uniform d (BitVec.ofNat 64 (s.vreg s.wideTy 0 a i.toNat)) none).advance))).out

/-- R336. -/
def execWrlane (d : BitVec 7) (a : BitVec 6) (i : BitVec 7) (s : State) : Out :=
  (s.guardAll { vs := regs s.wideTy d, us := [a.toNat], evens := if s.wideTy then [d.toNat] else [], cc := s.guardReads }
    true
    (laneIndex i s
      (.ok (if s.active.getLsbD i.toNat then s.putLane s.wideTy d i.toNat (s.uread 0 a.toNat).toNat else s).advance))).out

/-- R336. -/
def execBcast (d a : BitVec 7) (i : BitVec 7) (s : State) : Out :=
  (s.guardAll { vs := regs s.wideTy d ++ regs s.wideTy a, cc := s.guardReads
                evens := if s.wideTy then [d.toNat, a.toNat] else [] } true
    (laneIndex i s
      (.ok (s.putLanes s.active s.wideTy d false fun _ => (s.vreg s.wideTy 0 a i.toNat, 0)).advance))).out

/-- R337. -/
def execMatchLane (d a : BitVec 7) (s : State) : Out :=
  (s.guardAll { vs := regs s.wideTy d ++ regs s.wideTy a, cc := s.guardReads || s.ccw
                evens := if s.wideTy then [d.toNat, a.toNat] else [] } true
    (.ok (s.putLanes s.active s.wideTy d s.ccw fun l =>
      let m := ((lanesOf s.active).find? fun m => s.vreg s.wideTy 0 a m = s.vreg s.wideTy 0 a l).getD l
      (m, zFlag (m = l))).advance)).out

/-- A lane number or mark written to the 32-bit lane of each active lane (R337). -/
def State.laneMark (s : State) (d : BitVec 7) (codes : Bool) (f : Nat → Nat) : Res :=
  s.guardAll { vs := [d.toNat], cc := s.guardReads || codes } true
    (.ok (s.putLanes s.active false d codes fun l => (f l, zFlag (f l = 0))).advance)

/-- R337. -/
def execElect (d : BitVec 7) (s : State) : Out :=
  (s.laneMark d s.ccw fun l => if l = lowLane s.active then 1 else 0).out

/-- R337. -/
def execLid (d : BitVec 7) (s : State) : Out := (s.laneMark d false fun l => l).out

/-- R337. -/
def execQid (d : BitVec 7) (s : State) : Out := (s.laneMark d false fun l => l / 4).out

end Sys2Proof.Machine
end

