-- ==== Sys2Proof/Machine/Save.lean ====
section
/-! DEFINITION. Saving a block and restoring it (R217, R219, R264, R401 to R407, R105, R108). -/

namespace Sys2Proof.Machine

/-! ### Stopped slots (R219, R401) -/

/-- A slot that counts as stopped (R219, R401): FREE, at a fault, in a join state, in a wait, or at its stop. -/
def Group.slotStopped (g : Group) (slot : Bool) : Bool :=
  let f := g.frag slot
  f.st = .free || (g.trap slot).phase ≠ .none || f.st.join || f.st = .waitTag || f.st = .waitMem ||
    ((f.halted || g.splitFault slot) && f.st = .ready && f.cap.isNone)

/-- Every access that the slot has issued has performed, or waits where it is withdrawn (R401). -/
def Group.slotQuiet (g : Group) (slot : Bool) : Bool :=
  let f := g.frag slot
  f.st ≠ .waitMem || match f.hold with
    | .gang => true
    | .unsub _ _ => true
    | .results => true
    | .fetch _ => true
    | .walk => f.cap.isNone
    | _ => false

/-- Everything that a slot of a parked group has issued has performed, but an access that waits for a lendable line
(R91, R217). -/
def Group.slotParked (g : Group) (slot : Bool) : Bool :=
  let f := g.frag slot
  (g.slotQuiet slot || f.hold = .lend) && (f.st ≠ .ready || f.cap.isNone)

/-- Every group of the block has come to rest. -/
def State.blockStopped (s : State) (b : Block) : Bool :=
  (s.allGroups.filter fun g => g.info.key.blk = b.key && g.state ≠ .none && g.state ≠ .exited).all fun g =>
    if b.harv then g.state = .parked && g.pend.isEmpty && g.slotParked false && g.slotParked true
    else g.stopReq && (g.state = .stopping || g.state = .faulted) && g.slotStopped false && g.slotStopped true &&
      g.slotQuiet false && g.slotQuiet true

/-- The slot has stopped for the watchdog, which a waiting tagged access keeps running (R402, R403). -/
def Group.slotAtRest (g : Group) (slot : Bool) : Bool := g.slotStopped slot && (g.frag slot).st ≠ .waitTag

/-- Products and mill loads of the block have ended (R401 step 3). -/
def State.matrixIdle (s : State) (b : Block) : Bool :=
  s.cores.all fun c => (c.mmaQ.all fun j => j.group.blk ≠ b.key) && match c.mill with
    | some m => m.group.blk ≠ b.key
    | none => true

/-! ### What a partial save keeps (R264, R403) -/

/-- The word at `pc` carries the S bit, as a fetch of the group finds it. -/
def State.atSafe (s : State) (g : Group) (pc : W64) : Bool :=
  match s.quietRead g pc 4 Kind.fetch with
  | none => false
  | some b => match decode (valOfBytes 32 b) 0 with
    | .ok d => d.s
    | .error _ => false

/-- The safe-point entry of the instruction with S = 1 at which a slot has stopped, or waits before it issues (R249). -/
def State.slotPoint (s : State) (g : Group) (slot : Bool) : Option (Nat × SafePoint) :=
  let f := g.frag slot
  if f.halted && (f.st = .ready || (f.st = .waitMem && f.hold = .results)) && f.cap.isNone && (g.trap slot).phase = .none &&
      !g.watchdog && s.atSafe g f.pc then
    match s.safePoint g f.pc with
    | some (i, e) => if e.clean then some (i, e) else none
    | none => none
  else none

/-- Entries of the busy slots when all have one and the stack is empty; none for a full save. -/
def State.livePoints (s : State) (g : Group) : Option (List (Bool × Nat × SafePoint)) :=
  let busy := [false, true].filter fun b => (g.frag b).busy
  let l := busy.filterMap fun b => (s.slotPoint g b).map (b, ·)
  if g.stack.isEmpty && l.length = busy.length && !busy.isEmpty then some l else none

/-- The group with only the registers and tiles that its stop keeps. -/
def Group.keepLive (g : Group) (l : List (Bool × Nat × SafePoint)) : Group :=
  let sl := l.foldl (fun m e => m ||| e.2.2.slive) (0 : W64)
  let vl := l.foldl (fun m e => m ||| e.2.2.vlive) (0 : BitVec 128)
  let al := l.foldl (fun m e => m ||| e.2.2.alive) (0 : BitVec 4)
  { g with
    sregs := g.sregs.filter fun e => sl.getLsbD e.1
    vregs := g.vregs.filter fun e => vl.getLsbD (e.1 / 32)
    regPoison := g.regPoison.filter fun e => vl.getLsbD (e.1 / 32)
    acc := g.acc.filter fun e => al.getLsbD (e.1 / 2048)
    accPoison := g.accPoison.filter fun e => al.getLsbD e.1 }

/-- The slot as a save leaves it: its wait withdrawn, the lanes done kept (R401), the ordinal it was saved at (R406). -/
def Frag.saved (f : Frag) (ord : BitVec 16) : Frag :=
  if f.st = .free then { f with ord := 0xFFFF }
  else
    let back := f.st = .waitMem || f.st = .waitTag
    { f with
      st := if back then .ready else f.st, hold := if back then .none else f.hold
      cap := Option.none, halted := false, sleeping := false, yielded := false, waited := 0, ord := ord }

/-- The trap state that a save keeps: TPC names the instruction at which the slot has stopped (R251), TMASK and TBEAT are the done
lanes of a wait that is withdrawn (R401), and a posted fault is raised again at the restore. -/
def Group.savedTrap (g : Group) (slot : Bool) : Trap :=
  let t := g.trap slot
  let f := g.frag slot
  match t.phase with
  | .none =>
    if f.cap.isSome then
      if f.st = .waitMem || f.st = .waitTag then { t with tmask := f.done.setWidth 128, tbeat := f.beat } else t
    else if (f.halted && f.st = .ready) || f.st = .waitMem then { t with tpc := f.pc }
    else t
  | .held => t
  | _ => { t with phase := .raised }

/-- A group at rest, as its image holds it; the ordinals are 0xFFFF in a full save. -/
def State.savedGroup (s : State) (g : Group) : Group :=
  let g := g.drainAll
  let pts := s.livePoints g
  let ord := fun (b : Bool) => match pts with
    | some l => match l.find? (·.1 = b) with
      | some e => BitVec.ofNat 16 e.2.1
      | none => 0xFFFF
    | none => 0xFFFF
  let k := match pts with
    | some l => g.keepLive l
    | none => g
  { k with
    t0 := g.savedTrap false, t1 := g.savedTrap true
    f0 := g.f0.saved (ord false), f1 := g.f1.saved (ord true)
    state := if g.state = .exited then .exited else .saved
    clkBase := s.cycle - g.clkBase, stopReq := false, watchdog := false, gaveUp := false }

/-! ### The group image (R406) -/

def FragState.code : FragState → Nat
  | .free => 0
  | .ready => 1
  | .waitMem => 2
  | .waitTag => 3
  | .waitRcv => 4
  | .waitJoin => 5
  | .waitBar => 6
  | .waitLag => 7

/-- A fragment record (R207). -/
def Frag.bytes (f : Frag) : List Byte :=
  bytesOf 16 (f.mask.setWidth 128) ++ bytesOf 8 f.pc ++ [f.depth,
    BitVec.ofNat 8 (f.st.code + (if f.lead then 16 else 0) + if f.lag then 32 else 0)] ++ List.replicate 6 0

def LoopCtr.bytes (c : LoopCtr) : List Byte :=
  bytesOf 8 (c.count.setWidth 64 ||| c.nest.setWidth 64 <<< 32 ||| c.len.setWidth 64 <<< 34) ++ bytesOf 8 c.start

def Trap.bytes (t : Trap) : List Byte :=
  bytesOf 8 t.tpc ++ bytesOf 8 (t.tcause.setWidth 64) ++ bytesOf 8 t.taddr ++ bytesOf 8 t.detail ++ bytesOf 16 t.tmask ++
    bytesOf 8 (t.tbeat.setWidth 64) ++ bytesOf 8 t.rpc

/-- GSTAT: bit 8 for the fault that is posted again, bit 9 for one that the other slot holds (R391). -/
def Group.gstat (g : Group) (full : Bool) : W64 :=
  let first := g.t0.phase ≠ .none || g.t1.phase ≠ .none
  let both := g.t0.phase ≠ .none && g.t1.phase ≠ .none
  Sys2Proof.Machine.status [(0, g.stack.length), (7, g.priv.toNat), (8, first.toNat), (9, both.toNat), (10, full.toNat),
    (11, g.barArrived.toNat), (12, g.gbarArrived.toNat), (16, g.f0.ord.toNat), (32, g.f1.ord.toNat)]

/-- Bytes 0x000 to 0x17F. -/
def Group.imageHead (g : Group) (full : Bool) : List Byte :=
  g.f0.bytes ++ g.f1.bytes ++ bytesOf 8 (g.gstat full) ++ bytesOf 8 (g.mode.setWidth 64) ++ bytesOf 8 (g.ovt.setWidth 64) ++
    bytesOf 8 (g.flags.setWidth 64) ++ g.lc0.bytes ++ g.lc1.bytes ++ g.lc2.bytes ++ g.t0.bytes ++ g.t1.bytes ++
    bytesOf 8 g.tx.word ++ bytesOf 8 (BitVec.ofNat 64 (g.snap.getD (g.launchSnap.getD 0))) ++
    bytesOf 8 (b2w g.snap.isSome <<< 63) ++ bytesOf 8 g.energy ++ bytesOf 8 (BitVec.ofNat 64 g.clkBase) ++
    bytesOf 8 (BitVec.ofNat 64 (g.area.getD 0)) ++
    ((List.range 4).flatMap fun t => bytesOf 16 ((mget 0 g.accPoison t).setWidth 128))

/-- Bytes 0x380 to 0x7FF. -/
def Group.imageTail (g : Group) : List Byte :=
  let cc := (List.range 16).map fun i => (g.ccget (2 * i)).setWidth 8 ||| (g.ccget (2 * i + 1)).setWidth 8 <<< 4
  let st := (List.range 32).flatMap fun l => bytesOf 4 (mget 0 g.stoch l)
  cc ++ List.replicate 48 0 ++ st ++ List.replicate (384 + 576) 0

def Group.imageUni (g : Group) : List Byte := (List.range 64).flatMap fun n => bytesOf 8 (g.sget n)

def Group.imageVec (g : Group) : List Byte :=
  (List.range (g.info.rgran * 8)).flatMap fun n => (List.range 32).flatMap fun l => bytesOf 4 (g.vget n l)

def Group.imageAcc (g : Group) : List Byte := (List.range (g.info.acc * 2048)).flatMap fun i => bytesOf 4 (mget 0 g.acc i)

/-- A group written into its block's image: registers and tiles apart, which software may change. -/
def State.writeGroup (s : State) (b : Block) (g : Group) (full : Bool) : State :=
  let o := b.groupOff g.info.key.grp
  let s := (s.imageField b.key o (g.imageHead full)).imageField b.key (o + 0x380) g.imageTail
  ((s.imageWrite b.key (o + 0x180) g.imageUni).imageWrite b.key (o + 0x800) g.imageVec).imageWrite b.key
    (o + 0x800 + b.rgran * 1024) g.imageAcc

/-- PPA of a stack area. -/
def State.areaAt (s : State) (p a : Nat) : Nat := fld (s.part p).spool 47 11 * 2048 + 2048 * a

/-- The stack area of a group takes the whole stack, the bottom record first (R208). -/
def State.writeStack (s : State) (g : Group) : State :=
  match g.area with
  | none => s
  | some a => s.writeRange g.info.key.blk.part (s.areaAt g.info.key.blk.part a) (g.stack.reverse.flatMap Frag.bytes)

/-- Records below the top two of a running group's stack stand in its area (R208), once their home takes them. -/
def State.deepRecords (s : State) (g : Group) : State :=
  match g.area, g.stack.drop 2 with
  | some a, r :: rs =>
    let p := g.info.key.blk.part
    let bs := (r :: rs).reverse.flatMap Frag.bytes
    if s.rangeState p (s.areaAt p a) bs.length true = .ready && s.readRange p (s.areaAt p a) bs.length ≠ bs then
      s.writeRange p (s.areaAt p a) bs
    else s
  | _, _ => s

/-- The stack areas follow the stacks. -/
def State.keepStacks (s : State) : State :=
  if s.allGroups.all (·.stack.length ≤ 2) then s else s.allGroups.foldl State.deepRecords s

/-! ### The block image (R405) -/

/-- Bytes 0x0000 to 0x013F. -/
def Block.imageHead (b : Block) (drained : Bool) : List Byte :=
  let img : W64 := Sys2Proof.Machine.status [(0, 1), (8, b.groups), (16, b.rgran), (21, b.acc), (24, b.localKib), (34, b.rank),
    (36, b.ctx), (48, b.crit.toNat), (49, b.harv.toNat)]
  let home : W64 := Sys2Proof.Machine.status
    [(0, b.core / Config.coresPerCluster), (4, b.slice), (8, drained.toNat)]
  let maps := (List.range 8).flatMap fun i => match oget b.smap i with
    | some e => bytesOf 8 (BitVec.ofNat 64 e.lbase) ++ bytesOf 8 e.gbase ++ bytesOf 8 (BitVec.ofNat 64 e.len) ++
        bytesOf 8 (Sys2Proof.Machine.status [(0, 1), (1, e.rw.toNat)])
    | none => List.replicate 32 0
  bytesOf 8 img ++ bytesOf 8 (BitVec.ofNat 64 b.key.grid) ++ bytesOf 8 (BitVec.ofNat 64 b.key.blk) ++ bytesOf 8 b.kaddr ++
    bytesOf 8 home ++ List.replicate 24 0 ++ maps

/-- The stash line table. -/
def Block.imageLines (b : Block) : List Byte :=
  (List.range (b.localKib * 16)).flatMap fun l => match oget b.stash l with
    | some x => bytesOf 8 (if x.dirty = 0 then (1 : W64) else 2) ++ bytesOf 8 x.dirty
    | none => List.replicate 16 0

/-- Tags as a bitmap. -/
def Block.imageTags (b : Block) : List Byte := packBits (b.localKib * 32) ((List.range (b.localKib * 256)).map b.full)

/-! ### Saving -/

/-- Entries of the block as the save finds them (R105, R108), and its stash lines, which occupy no lent line any more: held words
withdrawn and batches in part applied cut down;
what a publisher wrote to an image and has not performed stands before what it has not sent. -/
def Block.saveSubs (b : Block) : Block :=
  { b with
    inb := b.inb.map fun e => (e.1, { e.2 with
      st := if e.2.st = .orphaned then .orphaned else .switching, held := false, wordsDone := 0
      recv := match e.2.recv with
        | [] => []
        | x :: r => x.rest e.2.wordsDone :: r })
    outb := b.outb.map fun e => (e.1, { e.2 with recv := [], unsent := e.2.recv ++ e.2.unsent })
    waitQ := []
    stash := b.stash.map fun e => (e.1, { e.2 with lent := none }) }

/-- Redirects to the publishers of a block, and the marks that come back (R105). -/
def State.redirects (s : State) (b : Block) : State :=
  b.inb.foldl (fun s e =>
    if e.2.st = .orphaned then s
    else
      let a := { StepArgs.zero with part := b.key.part, grid := b.key.grid }
      (s.queueStep ⟨.subRedirect, { a with blk := e.2.peer.blk, n := e.2.peerHandle }⟩).queueStep
        ⟨.subMark, { a with blk := b.key.blk, n := e.1 }⟩) s

/-- Every gang of a grid that was handed out is saved: a STOP or STOP_HOLD completes (R398, R400). -/
def State.stopDone (s : State) (p grid : Nat) : State :=
  match (s.part p).grids.find? (·.handle = grid) with
  | none => s
  | some g => match g.stopping with
    | none => s
    | some hold =>
      if s.blocks.any fun b => b.key.part = p && b.key.grid = grid && !b.exited && (b.placed || b.image.isNone) then s
      else s.onPart p fun x => { x with
        fstatSeq := x.fstatSeq + 1
        grids := x.grids.map fun y => if y.handle = grid then { y with stopping := none, held := y.held || hold } else y }

/-- Restore entries stand ahead of every grid entry of their list (R232). -/
def putRestore (e : DispatchEntry) : List DispatchEntry → List DispatchEntry
  | [] => [e]
  | .grid h :: r => e :: .grid h :: r
  | x :: r => x :: putRestore e r

/-- The gang of a block that was saved: once all its blocks are, it becomes a restore entry unless it is held. -/
def State.gangSaved (s : State) (b : Block) : State :=
  let p := b.key.part
  let g := b.key.grid
  let l := (s.gangBlocks p g b.gang).filter (!·.exited)
  if l.isEmpty then s.stopDone p g
  else if l.any fun x => x.placed || x.image.isNone then s
  else
    let cl := clusterIx ⟨b.slice, b.core⟩
    let s := s.ccEvent cl p g (gangWord Ev.saved b.gang)
    let home := if l.any (·.drained) then none else some (b.slice, b.core / Config.coresPerCluster)
    let prio := match (s.part p).grids.find? (·.handle = g) with
      | some x => x.prio
      | none => 0
    let s := if l.any (·.heldStop) then s
      else s.onPart p fun x => { x with
        lists := mset [] x.lists prio (putRestore (.restore g b.gang home b.slice 0) (mget [] x.lists prio)) }
    s.stopDone p g

/-- The image written and the core left (R401 steps 4 to 6). -/
def State.writeImage (s : State) (b0 : Block) (chunk : Nat) : State :=
  let k := b0.key
  let n := b0.imageChunks
  let drained := (s.slice b0.slice).shutter = 2
  let s := s.closeAll k
  let s := s.onPart k.part fun x => { x with chunks := x.chunks ++ span chunk n }
  let s := s.onBlock k fun b => { b.saveSubs with image := some (chunk, n), imageBytes := [], drained := drained
                                                  homeCluster := b.core / Config.coresPerCluster }
  let b := (s.block? k).getD b0
  let gs := bySlot (s.allGroups.filter fun g => g.info.key.blk = k && g.state ≠ .none)
  let s := gs.foldl (fun s g => if g.state = .parked then s else s.emitStops g.info.key (if g.watchdog then 3 else 1)) s
  let s := gs.foldl (fun s g => s.readPoints g) s
  let s := { s with blocks := gs.foldl (fun (bs : List Block) (g : Group) => bs.map (Block.withdraw · g.info.key)) s.blocks }
  let s := gs.foldl (fun s g =>
    let full := (s.livePoints g).isNone
    let x := s.savedGroup g
    let s := ((s.writeStack x).writeGroup b x full).setGroup x
    x.regPoison.foldl (fun s e => s.setPoison k.part (s.imageBase b + b.groupOff g.info.key.grp + 0x800 + 4 * e.1) true) s) s
  let s := (s.imageField k 0 (b.imageHead drained)).imageField k 0x540 (List.replicate 2752 0)
  let s := (List.range 16).foldl (fun s h => (s.imageEntry k false h).imageEntry k true h) s
  let base := s.imageBase b
  let s := s.imageWrite k b.windowOff (b.readWin 0 (b.localKib * 1024))
  let s := (b.winPoison.map (·.1 / 16)).eraseDups.foldl (fun s l => s.setPoison k.part (base + b.windowOff + 64 * l) true) s
  let s := (s.imageWrite k b.tagsOff b.imageTags).imageField k b.linesOff b.imageLines
  let s := (s.dirtyLines [⟨b.slice, b.core⟩] k.part).foldl (fun (s : State) l => s.cleanL1 l.1 k.part l.2) s
  let s := s.onBlock k fun b => { b with
    resident := false, win := [], tags := [], winPoison := [], savedOn := some ⟨b.slice, b.core⟩ }
  ((s.redirects b).gangSaved ((s.block? k).getD b)).wake fun _ h => h = Hold.lend

/-- Every place that a save writes takes the writes now. -/
def State.saveReady (s : State) (b : Block) (chunk : Nat) : Bool :=
  let p := b.key.part
  let x := s.part p
  s.rangeState p (fld x.svpool 47 16 * 65536 + chunk * 65536) b.imageSize true = .ready &&
    (s.dirtyLines [⟨b.slice, b.core⟩] p).all (fun l => s.l1Hold l.1 p l.2 = .none) &&
    s.allGroups.all fun g => g.info.key.blk ≠ b.key || match g.area with
      | some a => g.stack.isEmpty || s.rangeState p (s.areaAt p a) 2048 true = .ready
      | none => true

/-- A block at rest is saved, once the pool has room (R404). -/
def State.saveBlock (s : State) (b : Block) : State :=
  let p := b.key.part
  let open_ := (s.allGroups.filter fun g => g.info.key.blk = b.key && g.tx.opened)
  if !b.resident || b.exited || !s.blockStopped b || !s.matrixIdle b then s
  else if !open_.isEmpty then open_.foldl (fun s g => s.txAbort g.info.key 5 0) s
  else
    let x := s.part p
    if !x.svpool.getLsbD 0 then s
    else match freeRun x.chunks (fld x.svpool 63 48) b.imageChunks with
      | none => s.onPart p fun x => { x with svFull := true }
      | some c =>
        if !s.saveReady b c then s
        else match if b.crit then s.reclaimAll b else (s, true) with
          | (s, false) => s
          | (s, true) => s.writeImage ((s.block? b.key).getD b) c

/-- R401. -/
def execGroupSave (s : State) : Out :=
  .next (match s.block? s.args.block with
    | some b => if b.harv then s else s.saveBlock b
    | none => s)

/-- R217: the groups of a harvest block are parked, and their outstanding results are written first. -/
def execHarvestSave (s : State) : Out :=
  .next (match s.block? s.args.block with
    | some b => if b.harv then s.saveBlock b else s
    | none => s)

/-! ### Restoring (R407) -/

/-- A group with the registers and tiles that its image holds. -/
def State.loadGroup (s : State) (b : Block) (g : Group) : Group :=
  let rd := fun o n => s.readRange b.key.part (s.imageBase b + b.groupOff g.info.key.grp + o) n
  let word := fun (l : List Byte) (w i : Nat) => (l.drop (w * i)).take w
  let us := rd 0x180 512
  let vs := rd 0x800 (b.rgran * 1024)
  let as := rd (0x800 + b.rgran * 1024) (b.acc * 8192)
  { g with
    sregs := forN 63 (fun i m => mset 0 m (i + 1) (valOfBytes 64 (word us 8 (i + 1)))) []
    vregs := forN (b.rgran * 256) (fun i m => mset 0 m i (valOfBytes 32 (word vs 4 i))) []
    acc := forN (b.acc * 2048) (fun i m => mset 0 m i (valOfBytes 32 (word as 4 i))) []
    regPoison := []
    state := if g.state = .exited then .exited else if g.gaveUp then .parked else g.resumed
    gaveUp := g.gaveUp && g.state = .exited
    ctrs := []
    clkBase := s.cycle - g.clkBase }

/-- `n` elements of a list, each chosen by its draw and none twice. -/
def pickEach {α : Type} [DecidableEq α] (d : Nat → Nat) : Nat → List α → List α
  | 0, _ => []
  | n + 1, l => match (l.drop (d n % l.length)).head? with
    | none => []
    | some x => x :: pickEach d n (l.erase x)

/-- Stash lines of a restored harvest block on lendable lines of its new core, which the device chooses freely (R91, log 126). -/
def Block.relend (b : Block) (d : Nat → Nat) (l : List (BlockKey × Nat)) : Block :=
  { b with stash := (b.stash.zip (pickEach d b.stash.length l)).map fun e => (e.1.1, { e.1.2 with lent := some e.2 }) }

/-- The device's fields of an image are as it last wrote them (R406). -/
def State.imageIntact (s : State) (b : Block) : Bool :=
  b.imageBytes.all fun e => s.readRange b.key.part (s.imageBase b + e.1) e.2.length = e.2

/-- R407. -/
def execRestore (s : State) : Out :=
  let k := s.args.block
  match s.block? k with
  | none => .next s
  | some b =>
    let c : CoreKey := ⟨b.slice, b.core⟩
    let sc := if b.savedOn = some c then [] else ((s.core c).l1.filter fun l => l.part = k.part && !l.isHc).map (·.line)
    if b.restoring ≠ 2 || !(s.core c).revoking.isEmpty || b.image.isNone then .next s
    else if sc.any fun l => s.l1Hold c k.part l ≠ .none then .next (s.again .restore)
    else match s.rangeState k.part (s.imageBase b) b.imageSize false with
      | .waits => .next ((s.knockRange k.part (s.imageBase b) b.imageSize).again .restore)
      | .fails => .next (s.again .restore)
      | .poisoned => .next (s.imagePoison b .restore)
      | .ready =>
        if !s.imageIntact b then .fault .imageChanged
        else if b.harv && (s.lendable c).length < b.stash.length then .next (s.again .restore)
        else if !(s.trimL1 c).l1Fits c then .next ((s.trimL1 c).again .restore)
        else
          let s := sc.foldl (fun s l => s.evictL1 c k.part l) ((s.trimL1 c).readLines k.part (s.imageBase b) b.imageSize)
          let mine := fun (g : Group) => g.info.key.blk = k && g.state ≠ .none
          let ks := (bySlot (s.allGroups.filter mine)).map (·.info.key)
          let s := s.mapGroups fun g => if mine g then s.loadGroup b g else g
          let lend := s.lendable c
          let d := fun i => s.draw (1100 + i)
          let s := (s.dropImage k).onBlock k fun b =>
            let b := { b with resident := true, restoring := 0 }
            if b.harv then b.relend d lend else b
          let s := ks.foldl (fun s g => s.emitSyncs g) s
          let s := b.outb.foldl (fun s e => s.sendOut k e.1) s
          .next (s.wake fun i h => (h = .gang || h = .lend) && i.key.blk.part = k.part)

end Sys2Proof.Machine
end

