-- ==== Sys2Proof/Machine/Traps.lean ====
section
/-! DEFINITION. The fault queues (R395, R396), the commands of R397 to R400, the watchdog (R402), and the exit of a block
(R87, R104). -/

namespace Sys2Proof.Machine

/-! ### Posting (R395) -/

/-- The record of a slot's fault (R396). -/
def Group.record (g : Group) (slot : Bool) : BitVec 512 :=
  let t := g.trap slot
  let low : BitVec 32 := BitVec.ofNat 32 (t.tcause.toNat + (if slot then 2048 else 0) + (if t.priv then 4096 else 0) +
    (if t.defer then 8192 else 0) + t.tbeat.toNat * 16384)
  t.rpc ++ BitVec.ofNat 64 g.info.key.blk.grid ++ t.tmask ++ t.detail ++ t.taddr ++ t.tpc ++
    agentHandle g.info.slice g.info.core g.info.serial.toNat ++ low

/-- Records that the ring of a slice holds; LOG2 below 4 or above 12 acts as 4. -/
def Slice.ringSize (x : Slice) : Nat := 2 ^ ringLog x.fqbase

/-- PPA of the record that FQHEAD counts next. -/
def Slice.faultAddr (x : Slice) : Nat := fld x.fqbase 47 12 * 4096 + 64 * (x.fqhead.toNat % x.ringSize)

/-- The queue takes a record now. -/
def State.fqReady (s : State) (sl : Nat) : Bool :=
  let x := s.slice sl
  match x.owner with
  | none => false
  | some p =>
    x.fqbase.getLsbD 0 && (x.fqhead - x.fqtail).toNat ≠ x.ringSize &&
      s.rangeState p x.faultAddr 64 true = .ready

/-- A record is written, FQHEAD advances, and the interrupt is raised. -/
def State.putRecord (s : State) (sl : Nat) (r : BitVec 512) : State :=
  let x := s.slice sl
  let p := x.part.toNat
  let s := s.writeRange p x.faultAddr (bytesOf 64 r)
  (s.onSlice sl fun x => { x with fqhead := x.fqhead + 1 }).interrupt p sl 0

/-- A slot's fault that waits to be posted, of a group on the slice. -/
def State.raisedOn (s : State) (sl : Nat) : Option (GroupKey × Bool) :=
  s.allGroups.findSome? fun g =>
    if g.info.slice = sl && g.state ≠ .none && g.state ≠ .saved && g.state ≠ .placed then
      if g.t0.phase = .raised then some (g.info.key, false)
      else if g.t1.phase = .raised then some (g.info.key, true)
      else none
    else none

def Group.onTrap (g : Group) (slot : Bool) (f : Trap → Trap) : Group := g.setTrap slot (f (g.trap slot))

/-- R395: the oldest record of another agent, else the fault of a group. -/
def execFaultPost (s : State) : Out :=
  let sl := s.args.slice
  .next (if !s.fqReady sl then s
    else match (s.slice sl).faults with
      | f :: r => (s.onSlice sl fun x => { x with faults := r }).putRecord sl f.record
      | [] =>
        match s.raisedOn sl with
        | none => s
        | some (k, slot) =>
          match s.group? k with
          | none => s
          | some g =>
            let s := s.putRecord sl (g.record slot)
            let s := s.setGroup (g.onTrap slot fun t => { t with phase := .posted })
            s.emitStop k slot 0 (g.trap slot).tcause)

/-! ### Commands (R397, R398) -/

def State.fcmdBad (s : State) : State := s.onPart s.args.part fun x => { x with fstatErr := true, fstatSeq := x.fstatSeq + 1 }

def State.fcmdDone (s : State) : State := s.onPart s.args.part fun x => { x with fstatSeq := x.fstatSeq + 1 }

/-- A command before this one that meets a test still waits. -/
def State.fcmdQueued (s : State) (p : StepArgs → Bool) : Bool :=
  s.later.any fun e => isFcmd e.step && e.args.part = s.args.part && decide (e.args.n < s.args.n) && p e.args

/-- A command waits behind those before it, which take effect and complete in their order (R397): behind one that waits, and behind
the stop of a grid. What a stop may itself wait for does not: a KILL, but behind a command of its own grid, and a REPLAY of an
agent that is no group (R91). -/
def State.fcmdHeld (s : State) : Bool :=
  ((s.part s.args.part).grids.any fun g => g.stopping.isSome) || s.fcmdQueued fun _ => true

/-- A command of the step `i` that acts at once, or sets ERR. -/
def State.fcmdEnd (s : State) (i : Instr) (held : Bool) (r : Option State) : Out :=
  .next (if held then s.again i
    else match r with
      | some s => s.fcmdDone
      | none => s.fcmdBad)

/-- The handle that FCMD names, and KIND. -/
def fcmdHandle (a : StepArgs) : BitVec 32 := a.w.extractLsb' 32 32
def fcmdKind (a : StepArgs) : Nat := fld a.w 6 4

/-- The group and slot whose posted record has the handle. -/
def State.postedAt (s : State) (p : Nat) (h : BitVec 32) : Option (GroupKey × Bool) :=
  s.allGroups.findSome? fun g =>
    if g.info.key.blk.part = p && g.state ≠ .none && agentHandle g.info.slice g.info.core g.info.serial.toNat = h then
      if g.t0.phase = .posted then some (g.info.key, false)
      else if g.t1.phase = .posted then some (g.info.key, true)
      else none
    else none

/-- The slot's fault is no longer pending; a fault held by the other slot is posted next (R391). -/
def Group.clearFault (g : Group) (slot : Bool) : Group :=
  let g := g.onTrap slot fun t => { t with phase := .none }
  g.onTrap (!slot) fun t => { t with phase := if t.phase = .held then .raised else t.phase }

/-- The group goes on, or resumes that way when it is unparked. -/
def Group.goesOn (g : Group) : Group := { g with state := if g.state = .parked then .parked else g.resumed }

/-- REPLAY of a group's record: the done lanes stand as TMASK and TBEAT hold them. -/
def Group.replay (g : Group) (slot : Bool) : Group :=
  let t := g.trap slot
  ((g.clearFault slot).onFrag slot fun f => { f with
    pc := t.tpc, done := t.tmask.setWidth 32, beat := t.tbeat, redo := if t.defer then some t.rpc else none
    st := .ready, hold := .none, unwatched := true, cap := none }).goesOn

/-- HANDLE: privileged level at the handler. -/
def Group.handOver (g : Group) (slot : Bool) (a : W64) : Group :=
  ((({ g with priv := true }).clearFault slot).onFrag slot fun f => { f with
    pc := a, done := 0, beat := 0, redo := none, st := .ready, hold := .none, cap := none }).goesOn

/-- The first core whose copy request waits for a command. -/
def State.faultedEngine (s : State) (p : Nat) (h : BitVec 32) : Option CoreKey :=
  (s.cores.find? fun c => agentHandle c.key.slice c.key.core 0 = h && match c.eng with
    | some e => e.faulted && e.req.group.blk.part = p
    | none => false).map (·.key)

/-- The first outbound entry on a core that waits for a command. -/
def State.faultedEntry (s : State) (p : Nat) (h : BitVec 32) : Option (BlockKey × Nat) :=
  s.blocks.findSome? fun b =>
    if b.key.part = p && agentHandle b.slice b.core 0 = h then (b.outb.find? (·.2.faulted)).map fun e => (b.key, e.1) else none

/-- The first lend writeback buffer that waits for a command. -/
def State.faultedBuf (s : State) (p : Nat) (h : BitVec 32) : Option (CoreKey × Nat) :=
  s.cores.findSome? fun c => (c.lend.find? fun e => e.2.faulted && e.2.block.part = p && e.2.handle = h).map fun e => (c.key, e.1)

/-- The handle of the checkpoint engine's records (R396). -/
def State.ckptHandle (s : State) (p : Nat) : BitVec 32 := agentHandle (s.part p).lowest 31 0

/-- REPLAY for each kind of record; none if it names no agent awaiting it. -/
def State.replayKind (s : State) (p kind : Nat) (h : BitVec 32) : Option State :=
  match kind with
  | 0 => (s.postedAt p h).map fun x => (s.onGroup x.1 (·.replay x.2)).emitOf x.1 x.2 .sync
  | 1 => (s.faultedEngine p h).map fun k => s.onCore k fun c => { c with eng := match c.eng with
      | some e => some { e with faulted := false }
      | none => none }
  | 2 => (s.faultedEntry p h).map fun x =>
    let s := s.onOut x.1 x.2 fun o => { o with faulted := false }
    match (s.block? x.1).bind fun b => oget b.outb x.2 with
    | some o => if o.marked then s.queueStep ⟨.subMark, { StepArgs.zero with
        part := p, grid := o.peer.grid, blk := o.peer.blk, n := o.peerHandle }⟩ else s
    | none => s
  | 3 => (s.faultedBuf p h).map fun x => s.onCore x.1 fun c => { c with lend := c.lend.map fun e =>
      if e.1 = x.2 then (e.1, { e.2 with faulted := false }) else e }
  | 5 => match (s.part p).ckpt with
    | some c =>
      if c.faulted && h = s.ckptHandle p then some (s.onPart p fun x => { x with ckpt := some { c with faulted := false } })
      else none
    | none => none
  | _ => none

/-- R398. -/
def execFcmdReplay (s : State) : Out := s.fcmdEnd .fcmdReplay (fcmdKind s.args = 0 && s.fcmdHeld) (s.replayKind s.args.part (fcmdKind s.args) (fcmdHandle s.args))

/-- R398. -/
def execFcmdHandle (s : State) : Out :=
  let p := s.args.part
  let a := s.args.gva
  s.fcmdEnd .fcmdHandle s.fcmdHeld (if (fcmdKind s.args) ≠ 0 || a.toNat % 4 ≠ 0 then none
    else (s.postedAt p (fcmdHandle s.args)).map fun x =>
      ((s.onGroup x.1 (·.handOver x.2 a)).emitOf x.1 x.2 .sync).emitOf x.1 x.2 (.tgt a))

/-! ### Checkpoints that end (R449) -/

/-- The key under which the checkpoint engine of a partition claims lines (R122). -/
def ckptClaim : CoreKey := ⟨16, 16⟩

/-- The snapshot is released and the completion word written: CVAL and the status; false while the write waits. -/
def State.ckptEnd (s : State) (p : Nat) (c : Checkpoint) (status : Nat) : State × Bool :=
  let caddr := c.desc.extractLsb' 64 64
  let word : W64 := BitVec.ofNat 64 (fld c.desc 159 128 + status * 2 ^ 32)
  let fin := fun (s : State) =>
    let s := { s with slices := s.slices.map fun (y : Slice) =>
      { y with claims := y.claims.filter fun x => !(x.1 = ckptClaim && x.2.1 = p) } }
    ((s.onPart p fun x =>
      let x := if status = 3 || status = 4 || c.members.isEmpty then x else x.dropSnap c.ts
      { x with ckpt := none }).wake fun i h => h = Hold.claim && i.key.blk.part = p, true)
  match s.devWrite ⟨p, fld c.desc 11 0, Kind.store, false⟩ caddr (bytesOf 8 word) with
  | .ok _ _ s => fin s
  | .flt _ _ s => fin s
  | .lost s => fin s
  | .wait s => (s, false)

/-! ### KILL, STOP and RELEASE (R399, R400) -/

/-- The live grid that the FARG of a command names. -/
def State.liveGrid (s : State) (p : Nat) : Option Grid := (s.part p).grids.find? fun g => BitVec.ofNat 64 g.handle = s.args.gva

/-- R398, R399. A stop of the grid that is under way ends with it. -/
def execFcmdKill (s : State) : Out :=
  let p := s.args.part
  if s.fcmdQueued fun a => a.gva = s.args.gva then .next (s.again .fcmdKill)
  else if s.args.gva = BitVec.allOnes 64 then
    match (s.part p).ckpt with
    | some c =>
      if !c.faulted then .next s.fcmdBad
      else match s.ckptEnd p c 5 with
        | (s, true) => .next s.fcmdDone
        | (s, false) => .next (s.again .fcmdKill)
    | none => .next s.fcmdBad
  else match s.liveGrid p with
    | none => .next s.fcmdBad
    | some g => match s.killReady p g.handle with
      | (s, false) => .next (s.again .fcmdKill)
      | (s, true) => .next ((if g.stopping.isSome then s.fcmdDone else s).killGrid p g.handle).fcmdDone

/-- Gangs of a grid with a block that holds a core. -/
def State.runningGangs (s : State) (p grid : Nat) : List Nat :=
  ((s.blocks.filter fun b => b.key.part = p && b.key.grid = grid && !b.exited && (b.placed || b.image.isNone)).map (·.gang)).eraseDups

/-- The stop of a grid: a command that finds another stop of the grid under way waits for it. With `hold`, gangs that
are saved already leave the dispatch lists too. -/
def State.stopGrid (s : State) (hold : Bool) : Out :=
  let p := s.args.part
  if s.fcmdHeld then .next (s.again (if hold then .fcmdStopHold else .fcmdStop))
  else match s.liveGrid p with
    | none => .next s.fcmdBad
    | some g =>
      let s := s.onPart p fun x => { x with
        grids := x.grids.map fun y => if y.handle = g.handle then { y with stopping := some hold } else y
        lists := if hold then x.lists.map fun l => (l.1, l.2.filter fun e => match e with
            | .restore h _ _ _ _ => h ≠ g.handle
            | .grid _ => true)
          else x.lists }
      let s := if hold then
          { s with blocks := s.blocks.map fun (b : Block) =>
              if b.key.part = p && b.key.grid = g.handle && !b.exited then { b with heldStop := true } else b }
        else s
      let s := (s.runningGangs p g.handle).foldl (fun s n => s.stopGang p g.handle n hold) s
      .next (s.stopDone p g.handle)

/-- R400. -/
def execFcmdStop (s : State) : Out := s.stopGrid false

/-- R400. -/
def execFcmdStopHold (s : State) : Out := s.stopGrid true

/-- R400: held gangs return to dispatch, one that is still being saved once it is. -/
def execFcmdRelease (s : State) : Out :=
  let p := s.args.part
  s.fcmdEnd .fcmdRelease s.fcmdHeld (match s.liveGrid p with
    | none => none
    | some g =>
      let held := s.blocks.filter fun b => b.key.part = p && b.key.grid = g.handle && b.heldStop && !b.exited
      if held.isEmpty && !g.held then none
      else
        let saved : List (Nat × Option (Nat × Nat) × Nat) := (held.filter fun b =>
            (s.gangBlocks p g.handle b.gang).all fun c => c.exited || (!c.placed && c.image.isSome)).map fun b =>
          (b.gang, if b.drained then none else some (b.slice, b.core / Config.coresPerCluster), b.slice)
        let gangs := saved.foldl (fun l x => if l.any (·.1 = x.1) then l else l ++ [x]) []
        let s := { s with blocks := s.blocks.map fun (b : Block) =>
          if b.key.part = p && b.key.grid = g.handle then { b with heldStop := false } else b }
        some (s.onPart p fun x => { x with
          grids := x.grids.map fun y => if y.handle = g.handle then { y with held := false } else y
          lists := gangs.foldl (fun ls e =>
            mset [] ls g.prio (putRestore (.restore g.handle e.1 e.2.1 e.2.2 0) (mget [] ls g.prio))) x.lists }))

/-! ### The watchdog (R402) -/

/-- R402: slots that have not stopped do so before their next issue, and a notice is posted. -/
def execWatchdogExpire (s : State) : Out :=
  .next (match s.group? s.args.group with
    | none => s
    | some g =>
      if !g.stopReq || g.watchdog || g.state = .saved || (g.slotAtRest false && g.slotAtRest true) then s
      else
        let halt := fun (f : Frag) => if f.busy then { f with halted := true, sleeping := false } else f
        let s := s.setGroup { g with watchdog := true, f0 := halt g.f0, f1 := halt g.f1 }
        s.postAsync g.info.slice (asyncRecord Cause.watchdog 4
          (agentHandle g.info.slice g.info.core g.info.serial.toNat) 0 0 (BitVec.ofNat 64 g.info.key.blk.grid) g.priv))

/-- R404. -/
def execSvpoolWrite (s : State) : Out := .next (s.partWrite s.args.part 0x0258 s.args.w)

/-! ### The exit of a block (R87, R104) -/

/-- A writeback fault at exit stands at the `exit` that ended the last group (R87). -/
def State.exitFault (s : State) (b : Block) (f : Flt) : State :=
  match b.lastExit with
  | none => s
  | some (grp, slot, pc, m) =>
    let k : GroupKey := ⟨b.key, grp⟩
    let s := s.focus k
    let s := s.onCur fun g =>
      { g.setFrag slot { Frag.none with mask := m, pc := pc, st := .ready } with
        state := if g.stopReq then .stopping else .running }
    State.raise { s with issue := ⟨slot, false, false, 1, pc, .exit⟩ } f

/-- The block leaves its core and the machine. -/
def State.leaveCore (s : State) (b : Block) : State :=
  let k : CoreKey := ⟨b.slice, b.core⟩
  let w : W64 := Sys2Proof.Machine.status [(0, Ev.blockExit), (8, b.rank % 4), (16, b.gang % 2 ^ 32)]
  let s := (s.endOutbound b.key).endInbound b.key
  let s := s.ccEvent (clusterIx k) b.key.part b.key.grid w
  let s := s.dropGroups b.key
  let s := { s with blocks := s.blocks.filter (·.key ≠ b.key) }
  let s := s.onPart b.key.part fun x => { x with grids := x.grids.map fun g =>
    if g.handle = b.key.grid then { g with exited := g.exited + 1, ran := if g.ran.contains k then g.ran else g.ran ++ [k] } else g }
  let s := s.idleControl b.key.part b.key.grid (· = clusterIx k)
  let s := s.wake fun _ h => h = .lend || h = .gang
  s.gangSaved b

/-- R87, R104: the publisher's updates are applied and the stash lines written back before the windows are freed. -/
def execBlockExit (s : State) : Out :=
  .next (match s.block? s.args.block with
    | none => s
    | some b =>
      let gs := s.allGroups.filter fun g => g.info.key.blk = b.key && g.state ≠ .none
      if b.exited || !b.resident || gs.isEmpty || gs.any fun g => g.state ≠ .exited then s
      else
        let s := s.closeAll b.key
        let busy := s.cores.any fun c => c.lend.any fun e => e.2.block = b.key
        if !(s.goalsOf b.key).isEmpty || busy || s.exitHold b then s
        else match if b.crit then s.reclaimAll b else (s, true) with
          | (s, false) => s
          | (s, true) =>
            let g := (b.lastExit.map (·.1)).getD 0
            let s := s.focus ⟨b.key, g⟩
            match s.stashBacks b.key (b.stash.map (·.1)) with
            | .flt f s => s.exitFault b f
            | .hold _ s => s
            | .ok s => s.leaveCore b)

end Sys2Proof.Machine
end

