-- ==== Sys2Proof/Machine/Trace.lean ====
section
/-! DEFINITION. The trace ring and its timers (R409 to R416), sample rounds (R421 to R424), and static energy (R433). -/

namespace Sys2Proof.Machine

/-! ### Control and frames (R409 to R411) -/

/-- R409. -/
def execTrctlWrite (s : State) : Out := .next (s.sliceWrite s.args.slice 0x0500 s.args.w)

/-- R409. -/
def execTrbaseWrite (s : State) : Out := .next (s.sliceWrite s.args.slice 0x0510 s.args.w)

/-- Address of the frame that TRHEAD counts next. -/
def Slice.frameAddr (x : Slice) : Nat := fld x.trbase 47 12 * 4096 + 64 * (x.trhead.toNat % 2 ^ trLog2 x.trbase)

/-- The ring has room for a frame. -/
def Slice.frameRoom (x : Slice) : Bool := (x.trhead - x.trtail).toNat ≠ 2 ^ trLog2 x.trbase

/-- A frame held by a core of the slice can be written now, or is given up where no memory takes it. -/
def State.frameReady (s : State) (k : CoreKey) : Bool :=
  let x := s.slice k.slice
  !(s.core k).trace.held.isEmpty && x.frameRoom && match x.owner with
    | some p => s.rangeState p x.frameAddr 64 true ≠ .waits
    | none => false

/-- R410: the oldest held frame of a core, before TRHEAD advances. A LOSS that is due takes the room that it leaves (R411). -/
def execTraceFrameWrite (s : State) : Out :=
  let k := s.args.coreKey
  let x := s.slice k.slice
  .next (if !s.frameReady k then s
    else match (s.core k).trace.held with
      | [] => s
      | f :: r =>
        let p := x.part.toNat
        let s := if s.rangeState p x.frameAddr 64 true = .ready then s.writeRange p x.frameAddr f else s
        ((s.onCore k fun c => { c with trace := { c.trace with held := r } }).onSlice k.slice fun y =>
          { y with trhead := y.trhead + 1 }).withTrace k (·.report))

/-- R410: the open frame goes out 4,096 cycles after its first packet. -/
def execFrameAgeTimer (s : State) : Out := .next (s.onCore s.args.coreKey fun c => { c with trace := c.trace.close })

/-- R413: pending outcomes go out 256 cycles after the first. -/
def execBrFlushTimer (s : State) : Out :=
  let k := s.args.coreKey
  .next (s.withTrace k fun x => x.report.branches (s.streamGroup k x.u.outcomeStream))

/-- R416: each stream emits a SYNC before its next packet. -/
def execSyncPeriod (s : State) : Out :=
  .next (s.onCore s.args.coreKey fun c => { c with trace := { c.trace with synced := [] } })

/-- FREQ: the new core clock at this time, which becomes the time base (R412, R414). -/
def State.emitFreq (s : State) (k : CoreKey) (mhz : Nat) : State :=
  if !traced (s.slice k.slice).trctl k.core then s
  else
    let t := s.ttime k.slice
    let bs := 0x07 :: (bytesOf 2 (BitVec.ofNat 16 mhz) ++ bytesOf 8 (BitVec.ofNat 64 t) ++ bytesOf 8 (BitVec.ofNat 64 s.refns))
    s.withTrace k fun x =>
      let x := (x.report.branches (s.streamGroup k x.u.outcomeStream)).put bs
      { x with u := { x.u with timeBase := t } }

/-! ### Sample rounds (R421 to R424) -/

/-- R423: index of the entry with the lowest OFFSET at or above PC − KADDR. -/
def State.nextOrdinal (s : State) (g : Group) (pc : W64) : BitVec 16 :=
  let at_ := (pc - g.info.kaddr).toNat
  ((List.range g.info.sptcnt.toNat).findSome? fun i =>
    match s.safePointEntry g i with
    | none => some (0xFFFF : BitVec 16)
    | some e => if at_ ≤ e.offset.toNat then some (BitVec.ofNat 16 i) else none).getD 0xFFFF

/-- Status, ORD and NEXT of a slot (R422). Which of ISSUED, FETCH and READY a fragment that could issue is in at the cycle of
the sample is a free value. -/
def State.sampleStatus (s : State) (g : Group) (slot : Bool) : Nat × BitVec 16 × Bool :=
  let f := g.frag slot
  let pick := s.draw (if slot then 701 else 700) % 3
  let can := g.canIssue slot
  let fetching := match f.hold with
    | .fetch _ => true
    | _ => false
  if g.state = .exited then (9, 0xFFFF, false)
  else if (g.trap slot).phase ≠ .none then (7, f.ord, false)
  else if g.state = .parked then (6, f.ord, false)
  else if g.stopReq then (8, f.ord, false)
  else if can && pick = 0 then (0, f.ord, false)
  else if fetching || (can && pick = 1) then (5, s.nextOrdinal g f.pc, true)
  else if f.sleeping then (10, f.ord, false)
  else if f.st = .waitMem then (2, f.ord, false)
  else if f.st = .waitTag then (3, f.ord, false)
  else if f.st.join then (4, f.ord, false)
  else (1, f.ord, false)

/-- A SAMPLE record (R424). -/
def State.sampleRecord (s : State) (g : Group) (slot : Bool) : List Byte :=
  let q := s.sampleStatus g slot
  let off : W32 := if q.1 = 9 then 0xFFFFFFFF else ((g.frag slot).pc - g.info.kaddr).setWidth 32
  0x0A :: BitVec.ofNat 8 (streamOf g slot) :: BitVec.ofNat 8 q.1 :: (bytesOf 2 q.2.1 ++
    [BitVec.ofNat 8 (q.2.2.toNat + 2 * g.info.harv.toNat + 4 * g.info.crit.toNat)] ++ bytesOf 4 off ++
    bytesOf 4 (BitVec.ofNat 32 g.info.key.blk.blk) ++ [BitVec.ofNat 8 g.info.key.grp])

/-- The traced group in group slot `n` of a core: the one that holds it, else a parked one that last held it. -/
def State.tracedAt (s : State) (k : CoreKey) (n : Nat) : Option Group :=
  let here := s.allGroups.filter fun g => g.coreKey = k && g.info.slot = n && !g.killed
  let ok := fun (g : Group) => (s.slice k.slice).traces g
  match here.find? s.holdsSlot with
  | some g => if ok g then some g else none
  | none => here.find? fun g => g.state = .parked && ok g

/-- R421: the next group slot that holds a traced group, in ascending order with wrap-around. -/
def execSampleRound (s : State) : Out :=
  let k := s.args.coreKey
  .next (
    let x := s.slice k.slice
    if !traced x.trctl k.core || !x.trctl.getLsbD 2 then s
    else
      let first := (s.core k).trace.sampleNext
      match ((List.range Config.groupSlots).map fun i => (first + i) % Config.groupSlots).find? fun n => (s.tracedAt k n).isSome with
      | none => s
      | some n =>
        match s.tracedAt k n with
        | none => s
        | some g =>
          let s := s.onCore k fun c => { c with trace := { c.trace with sampleNext := (n + 1) % Config.groupSlots } }
          let put := fun (b : Bool) (t : State) => t.emit g b (.record (s.sampleRecord g b))
          if !g.f0.busy && !g.f1.busy then put false s
          else
            let s' := if g.f0.busy then put false s else s
            if g.f1.busy then put true s' else s')

/-! ### Static energy (R433) -/

/-- Common multiple of the numbers of groups a block may have. -/
def shareUnit : Nat := 720720

/-- The store that a group resident or parked on its core holds, in parts of a KiB. -/
def State.heldStore (s : State) (g : Group) : Nat :=
  if g.killed || !(s.holdsSlot g || g.state = .parked) then 0
  else if g.state = .parked then 16 * shareUnit
  else
    let loc := match s.block? g.info.key.blk with
      | some b => if b.harv then 0 else b.localKib
      | none => 0
    (g.info.rgran + 8 * g.info.acc) * shareUnit + loc * shareUnit / g.info.groups

/-- Time passes on the cores: the store that their groups hold, times the cycles. -/
def State.holdTime (s : State) (n : Nat) : State :=
  let held := (s.allGroups.map fun g => (g.coreKey, n * s.heldStore g)).foldl (fun s x =>
    if x.2 = 0 then s else s.onCore x.1 fun c => { c with storeTime := c.storeTime + x.2 }) s
  { s.mapGroups fun g => { g with storeTime := g.storeTime + n * s.heldStore g } with cores := held.cores }

/-- R433: a core's static energy of one interval goes to the groups that were on it, in proportion to the store that they
held over it; what is left, the share of a group that has left the core among it, goes to counter 0x47. -/
def execEnergyInterval (s : State) : Out :=
  let k := s.args.coreKey
  let e := Config.staticEnergy s.free
  let total := (s.core k).storeTime
  let gs := s.allGroups.filter fun g => g.coreKey = k && g.storeTime ≠ 0
  let shares := gs.map fun g => (g.info.key, e * g.storeTime / total)
  let t := shares.foldl (fun s x => s.charge k x.1 x.2) s
  let t := (t.onCore k fun c => { c with storeTime := 0 }).mapGroups fun g => if g.coreKey = k then { g with storeTime := 0 } else g
  .next (t.chargeCore k (e - shares.foldl (fun n x => n + x.2) 0))

end Sys2Proof.Machine
end

