-- ==== Sys2Proof/Machine/Port.lean ====
section
/-! DEFINITION. Peers and links of the slice transport (R435 to R443): packets sent, acknowledged, and sent again. -/

namespace Sys2Proof.Machine

/-! ### Peers (R437, R438) -/

def Partition.netOn (x : Partition) : Bool := x.netcfg.getLsbD 0 && fld x.netcfg 55 40 ≠ 0

/-- PPA of a peer entry. -/
def Partition.peerAt (x : Partition) (n : Nat) : Nat := fld x.peertb 47 12 * 4096 + 64 * n

/-- A peer entry; none if PEER is at or above COUNT, or the entry is invalid or cannot be read. -/
def State.peerEntry (s : State) (p n : Nat) : Option (BitVec 512) :=
  let x := s.part p
  if fld x.peertb 63 48 ≤ n then none
  else if s.rangeState p (x.peerAt n) 64 false = .ready then
    let e : BitVec 512 := valOfBytes 512 (s.readRange p (x.peerAt n) 64)
    if e.getLsbD 0 && fld e 7 6 = 0 && fld e 31 22 = 0 && fld e 63 56 = 0 && fld e 511 256 = 0 then some e else none
  else none

/-- A peer entry cannot be read yet: its home is in transit, or wakes. -/
def State.peerWaits (s : State) (p n : Nat) : Bool :=
  decide (n < fld (s.part p).peertb 63 48) && s.rangeState p ((s.part p).peerAt n) 64 false = .waits

/-- What reading a peer entry leaves at its home, which it wakes if it sleeps. -/
def State.readPeer (s : State) (p n : Nat) : State :=
  let x := s.part p
  if fld x.peertb 63 48 ≤ n then s
  else if s.rangeState p (x.peerAt n) 64 false = .waits then s.knock p (x.peerAt n)
  else s.readLines p (x.peerAt n) 64

/-- The sending port: the entry's slice, or the one that asks (R438). -/
def portOf (x : Partition) (e : BitVec 512) (sl : Nat) : Nat :=
  if e.getLsbD 1 || !x.mask.getLsbD (fld e 5 2) then sl else fld e 5 2

/-! ### Links (R440, R441) -/

/-- The number of a slice's link: the index of the peer's entry, and the port at the other end. -/
def linkTo (peer : Nat) (ip : BitVec 128) : Nat := peer + 65536 * ip.toNat

/-- The link of an entry's own receiving port. -/
def entryLink (peer : Nat) (e : BitVec 512) : Nat := linkTo peer (e.extractLsb' 128 128)

/-- The peer of a link, and the port at its other end. -/
def peerOf (idx : Nat) : Nat := idx % 65536
def portIp (idx : Nat) : BitVec 128 := BitVec.ofNat 128 (idx / 65536)

def linkKey (sl idx : Nat) : Nat := sl + 16 * idx

def State.link (s : State) (p sl idx : Nat) : Link := mget Link.reset (s.part p).links (linkKey sl idx)

def State.onLink (s : State) (p sl idx : Nat) (f : Link → Link) : State :=
  s.onPart p fun x => { x with links := mset Link.reset x.links (linkKey sl idx) (f (mget Link.reset x.links (linkKey sl idx))) }

/-- `a` is at or before `b` in the numbering of a link, which wraps. -/
def seqLe (a b : BitVec 32) : Bool := decide ((b - a).toNat < 2 ^ 31)

/-- The port sends frames (R436). -/
def State.portLive (s : State) (sl : Nat) : Bool := (s.slice sl).mac.getLsbD 48 && (s.slice sl).portstat.getLsbD 0

/-- Another message finds room (R441, R443). -/
def Link.room (l : Link) : Bool := decide (l.window.length < 256) && decide ((l.msn + 1 - l.aPeer).toNat ≤ 4096)

/-! ### Packets and frames (R435, R439) -/

/-- One byte of the CRC-32 of IEEE 802.3: the spec names no polynomial (PRESUMED, log 155). -/
def crcByte (c : BitVec 32) (b : Byte) : BitVec 32 :=
  forN 8 (fun _ c => if c.getLsbD 0 then (c >>> 1) ^^^ 0xEDB88320#32 else c >>> 1) (c ^^^ b.setWidth 32)

def crc32 (bs : List Byte) : BitVec 32 := ~~~ bs.foldl crcByte (BitVec.allOnes 32)

/-- The header's 32 bytes (R439). -/
def headerBytes (k : Packet) : List Byte :=
  bytesOf 8 (k.reserved.extractLsb' 7 8 ++ k.snode ++ k.dpeer ++ k.reserved.extractLsb' 0 7 ++ BitVec.ofBool k.poison ++ k.op ++ k.ver) ++
  bytesOf 8 (k.msn ++ k.psn) ++ bytesOf 8 k.raddr ++
  bytesOf 8 (k.ackpsn ++ k.reserved.extractLsb' 15 8 ++ k.rtype ++ k.redop ++ k.len)

/-- The CRC over header and payload. -/
def packetSum (k : Packet) : BitVec 32 := crc32 (headerBytes k ++ k.payload)

/-- The packet with its CRC. -/
def sealed (k : Packet) : Packet := { k with crc := packetSum k }

/-- The bytes of a packet in a datagram. -/
def packetBytes (k : Packet) : List Byte := headerBytes k ++ k.payload ++ bytesOf 4 k.crc

/-- The sum of the 16-bit words of bytes in network order. -/
def sum16 : List Byte → Nat
  | [] => 0
  | [a] => a.toNat * 256
  | a :: b :: r => a.toNat * 256 + b.toNat + sum16 r

/-- The UDP checksum of a frame, over IPv6's pseudo-header too (RFC 768, RFC 8200). -/
def frameChecksum (f : Frame) : BitVec 16 :=
  let d := packetBytes f.packet
  let n := d.length + 8
  let ips := (List.range 8).foldl (fun t i => t + fld f.sip (16 * i + 15) (16 * i) + fld f.dip (16 * i + 15) (16 * i)) 0
  let t := ips + n + f.nextHeader.toNat + f.sport.toNat + f.dport.toNat + n + sum16 d
  let t := t % 65536 + t / 65536
  let t := t % 65536 + t / 65536
  if t = 65535 then 0xFFFF else BitVec.ofNat 16 (65535 - t)

/-- The frame that carries a packet on a link: the port's addresses, the next hop, the transport's UDP port as source and
destination (log 153). -/
def State.frameFor (s : State) (p sl idx : Nat) (k : Packet) : Frame :=
  let y := s.slice sl
  let port := (s.part p).netcfg.extractLsb' 40 16
  let f : Frame := ⟨(s.link p sl idx).dmac, y.mac.extractLsb' 0 48, 0x86DD, 17, y.iphi ++ y.iplo, portIp idx, port, port, 0, k⟩
  { f with sum := frameChecksum f }

/-- The frame is addressed to this port, as a datagram of the transport with a sound checksum (R435). -/
def State.addressed (s : State) (p sl : Nat) (f : Frame) : Bool :=
  let y := s.slice sl
  f.dmac = y.mac.extractLsb' 0 48 && f.etherType = 0x86DD && f.nextHeader = 17 && f.dip = y.iphi ++ y.iplo &&
  f.dport = (s.part p).netcfg.extractLsb' 40 16 && f.sum = frameChecksum f

/-- A packet leaves the port, if the port sends and the transport is on (R436, R437). -/
def State.transmit (s : State) (p sl idx : Nat) (k : Packet) : State :=
  if s.portLive sl && (s.part p).netOn then s.onLink p sl idx fun l => { l with out := s.frameFor p sl idx k :: l.out } else s

/-- A packet to the peer that holds the entry of index `dpeer` for this partition. -/
def State.header (s : State) (p sl idx op : Nat) (dpeer : BitVec 16) : Packet where
  ver := 1
  op := BitVec.ofNat 4 op
  poison := false
  reserved := 0
  dpeer := dpeer
  snode := (s.part p).netcfg.extractLsb' 16 24
  psn := 0
  msn := 0
  raddr := 0
  len := 0
  redop := 0
  rtype := 0
  ackpsn := (s.link p sl idx).rxPsn
  payload := []
  crc := 0

/-- The link sends to the next hop of its peer's entry (R438). -/
def State.aim (s : State) (p sl idx : Nat) (e : BitVec 512) : State :=
  s.onLink p sl idx fun l => { l with dmac := e.extractLsb' 80 48 }

/-- A packet takes the next PSN and its replay entry, and is sent. -/
def State.sendPacket (s : State) (p sl idx : Nat) (w : SentPacket) : State :=
  let l := s.link p sl idx
  let k := sealed { w.packet with psn := l.psn + 1, ackpsn := l.rxPsn }
  (s.onLink p sl idx fun l => { l with psn := k.psn, window := l.window ++ [{ w with packet := k, sends := 1 }] }).transmit p sl idx k

/-- A message of a request takes the next MSN. -/
def State.sendMessage (s : State) (p sl idx : Nat) (w : SentPacket) : State :=
  let n := (s.link p sl idx).msn + 1
  (s.onLink p sl idx fun l => { l with msn := n, msgs := l.msgs ++ [⟨n, l.psn + 1, w.core, w.msg⟩] }).sendPacket p sl idx
    { w with packet := { w.packet with msn := n } }

/-- An ACK or a NAK: no number of its own. PSN names the packet it answers, MSN holds APPLIED in an ACK. -/
def State.answer (s : State) (p sl idx op reason : Nat) (dpeer : BitVec 16) (psn : BitVec 32) : State :=
  let l := s.link p sl idx
  s.transmit p sl idx (sealed { s.header p sl idx op dpeer with
    psn := psn, msn := if op = 6 then l.applied else 0, redop := BitVec.ofNat 3 reason })

/-- RPEER of a peer's entry, as far as it can be read. -/
def State.rpeer (s : State) (p peer : Nat) : BitVec 16 :=
  match s.peerEntry p peer with
  | some e => e.extractLsb' 64 16
  | none => 0

def State.sendAck (s : State) (p sl idx : Nat) (psn : BitVec 32) : State :=
  s.answer p sl idx 6 0 (s.rpeer p (peerOf idx)) psn

/-! ### Requests that end with REMOTE (R441) -/

/-- A remote request has failed; it ends once `n` of its messages are known to be applied. -/
def EngRun.remoteEnd (r : EngRun) (n : Nat) : EngRun :=
  { r with status := 2, ended := true, await := if r.ended && r.status = 2 then Nat.min r.await n else n }

/-- A request, or a checkpoint of the partition, ends with status REMOTE. -/
def State.endRemote (s : State) (p : Nat) (k : CoreKey) (n : EngRun → Nat) : State :=
  if k.slice = 16 then s.onPart p fun x => { x with ckpt := x.ckpt.map fun c => { c with status := 2 } }
  else s.onCore k fun c => { c with eng := c.eng.map fun r => r.remoteEnd (n r) }

/-- After 16 sends of a packet every request with a message outstanding on the link ends (R441). -/
def State.linkDead (s : State) (p sl idx : Nat) : State :=
  let ms := (s.link p sl idx).msgs
  (ms.foldl (fun s m => s.endRemote p m.core (·.applied)) s).onLink p sl idx fun l => { l with msgs := [], window := [], redo := [] }

/-- A SKIP takes the place of a replay entry that fails its CRC check, whose message is to be built again; a SKIP of its own
is made anew (R442). -/
def State.skip (s : State) (p sl idx : Nat) (w : SentPacket) : State :=
  let k := sealed { w.packet with op := 8, poison := false, payload := [], len := 0, ackpsn := (s.link p sl idx).rxPsn }
  let s := s.onLink p sl idx fun l => { l with window := l.window.map fun y =>
    if y.packet.psn = k.psn then { y with packet := k, sends := y.sends + 1 } else y }
  let s := s.transmit p sl idx k
  if w.packet.op = 8 then s
  else
    (s.onSlice sl fun y => { y with portstat := setFld y.portstat 63 48 (Nat.min (fld y.portstat 63 48 + 1) 0xFFFF) }).onLink
      p sl idx fun l => { l with redo := l.redo ++ [w] }

/-- Packets of a link numbered from `a` on are sent again from their replay entries; `bad` says which entries fail their CRC
check (R442). -/
def State.resend (s : State) (p sl idx : Nat) (a : BitVec 32) (bad : Nat → Bool) : State :=
  let ws := (s.link p sl idx).window
  if ws.any fun w => seqLe a w.packet.psn && 16 ≤ w.sends then s.linkDead p sl idx
  else
    ws.zipIdx.foldl (fun s w =>
      if !seqLe a w.1.packet.psn then s
      else if bad w.2 || w.1.packet.crc ≠ packetSum w.1.packet then s.skip p sl idx w.1
      else
        let k := sealed { w.1.packet with ackpsn := (s.link p sl idx).rxPsn }
        (s.onLink p sl idx fun l => { l with window := l.window.map fun y =>
          if y.packet.psn = k.psn then { y with packet := k, sends := y.sends + 1 } else y }).transmit p sl idx k) s

/-- Receipt of every packet up to ACKPSN is acknowledged: their replay entries are freed. -/
def State.acknowledged (s : State) (p sl idx : Nat) (a : BitVec 32) : State :=
  s.onLink p sl idx fun l => { l with window := l.window.filter fun w => !seqLe w.packet.psn a }

end Sys2Proof.Machine
end

