-- ==== Sys2Proof/Machine/Engine.lean ====
section
/-! DEFINITION. Copy request engines (R122 to R124, R366 to R370, R440, R445) and the checkpoint engine (R447 to R449). -/

namespace Sys2Proof.Machine

/-! ### Copy request records (R367) -/

def CopyReq.part (q : CopyReq) : Nat := q.group.blk.part
def CopyReq.op (q : CopyReq) : Nat := fld q.record 3 0
def CopyReq.esz (q : CopyReq) : Nat := copyEsz q.record
def CopyReq.peer (q : CopyReq) : Nat := fld q.record 47 32
def CopyReq.src (q : CopyReq) : W64 := q.record.extractLsb' 64 64
def CopyReq.dst (q : CopyReq) : W64 := q.record.extractLsb' 128 64
def CopyReq.nrows (q : CopyReq) : Nat := fld q.record 223 192
def CopyReq.ncols (q : CopyReq) : Nat := fld q.record 255 224
def CopyReq.sstride (q : CopyReq) : Nat := fld q.record 287 256
def CopyReq.dstride (q : CopyReq) : Nat := fld q.record 319 288
def CopyReq.caddr (q : CopyReq) : W64 := q.record.extractLsb' 320 64
def CopyReq.cval (q : CopyReq) : Nat := fld q.record 415 384
def CopyReq.dcols (q : CopyReq) : Nat := fld q.record 479 448
def CopyReq.drows (q : CopyReq) : Nat := fld q.record 511 480
def CopyReq.index (q : CopyReq) : W64 := q.record.extractLsb' 448 64

def CopyReq.remote (q : CopyReq) : Bool := q.peer ≠ 0xFFFF
/-- GET brings data in; the other remote requests send it out. -/
def CopyReq.gets (q : CopyReq) : Bool := q.op = 7
def CopyReq.sends (q : CopyReq) : Bool := q.remote && !q.gets
def CopyReq.ask (q : CopyReq) (kind : Nat) : Ask := ⟨q.part, q.ctx, kind, q.priv⟩

/-- The address names the kicking block's local window. -/
def inWindow (a : W64) : Bool := fld a 63 32 = 0xFFFFFFFF

/-! ### What an engine's access comes to -/

inductive EngOut (α : Type) where
  | ok (x : α) (s : State)
  | flt (f : Flt) (s : State)
  | wait (s : State)
  /-- a commit waits for a record of the partition's version pool (R146) -/
  | full (p : Nat)
  | lost (s : State)

def EngOut.bind {α β : Type} (r : EngOut α) (k : α → State → EngOut β) : EngOut β :=
  match r with
  | .ok x s => k x s
  | .flt f s => .flt f s
  | .wait s => .wait s
  | .full p => .full p
  | .lost s => .lost s

/-- What a write of a line comes to. -/
def WriteEnd.eng (e : WriteEnd) (s0 : State) (p : Nat) (k : State → EngOut Unit) : EngOut Unit :=
  match e with
  | .ok s => k s
  | .lost => .lost s0
  | .pool _ _ => .full p
  | _ => .wait s0

/-- `f` over a list, the state passing through. -/
def engMap {α β : Type} (f : α → State → EngOut β) : List α → State → EngOut (List β)
  | [], s => .ok [] s
  | a :: r, s => (f a s).bind fun b s => (engMap f r s).bind fun bs s => .ok (b :: bs) s

/-- A byte with its poison mark. -/
abbrev EngByte := Byte × Bool

/-! ### Addresses of an engine -/

/-- An address of the engine, translated in its core (R58); before what a translation makes fault it is found again (R54). -/
def State.engXlate (s : State) (q : CopyReq) (kind : Nat) (a : W64) : XOut :=
  s.locate q.core (q.ask kind) a fun _ ppa => (s.part q.part).shut ppa

/-- The memory that a translated address names: a line of the partition that is not LOST, or host memory. No register takes a
byte or a line (R24, R201). -/
def XOut.memory (x : XOut) (ask : Ask) (a : W64) : EngOut (Translation × Nat) :=
  match x with
  | .flt c d s => .flt { cause := c, addr := a, detail := d } s
  | .held s => .wait s
  | .lost s => .lost s
  | .ok t ppa s =>
    let y := s.part ask.part
    match y.space ppa with
    | .mem => if y.lost ppa then .lost s else .ok (t, ppa) s
    | .host => if y.hostLinked then .ok (t, ppa) s else .wait s
    | .window sl _ => .flt { cause := if y.mask.getLsbD sl then Cause.misaligned else Cause.shutter, addr := a } s
    | .control _ => .flt { cause := Cause.misaligned, addr := a } s
    | .none => .flt (s.mapFlt t ask.kind a) s

def State.engMem (s : State) (q : CopyReq) (kind : Nat) (a : W64) : EngOut (Translation × Nat) :=
  (s.engXlate q kind a).memory (q.ask kind) a

/-- PPA of an address that a request reads; 0 in a window. -/
def State.engPpa (s : State) (q : CopyReq) (a : W64) : Nat :=
  if inWindow a then 0
  else match s.engXlate q Kind.engRead a with
    | .ok _ ppa _ => ppa
    | _ => 0

/-- A byte of the partition's memory, read at its home for an engine: a claim of another engine does not hold it (R124). -/
def State.homeByte (s : State) (p : Nat) (t : Translation) (ppa : Nat) (a : W64) (r : Reader) : EngOut EngByte :=
  if s.readHold p ppa a true ≠ .none then .wait (s.knock p ppa)
  else
    let s := s.copiesFor p ppa t.coh t.ver
    let b := s.homeRead p t.key ppa 1 (if t.ver then r else .plain)
    .ok (b.1.headD 0, b.2) s

/-- The last-level cache serves a line whose bytes are read one by one: at the first of them, and where it lacks the line. -/
def State.servedByte (s : State) (p ppa coh ix : Nat) : State :=
  if ppa % 64 = 0 || mget 0 (s.slice ((s.part p).home ppa)).llc (lineIx p ppa) = 0 then s.served p ppa coh ix else s

/-- A byte read for a request: charged to the group that kicked it (R432). -/
def State.engTraffic (s : State) (q : CopyReq) (ppa coh : Nat) : State :=
  (s.charge q.core q.group (s.trafficUnits q.core q.part ppa 1 901)).servedByte q.part ppa coh 901

/-- A payload that the engine awaits: poisoned after three failed flits (R132). -/
def State.engGot (s : State) (q : CopyReq) (b : EngByte) : EngOut EngByte :=
  .ok (b.1, b.2 || s.spoilt 2 q.core) (s.received 2 q.core)

/-- A byte of the kicking block's window. While the block is saved the request waits; once the block is gone, and in a
mapped line that is not filled, the byte is a free value. -/
def State.engWin (s : State) (q : CopyReq) (a : W64) : EngOut EngByte :=
  match s.block? q.group.blk with
  | none => .ok (BitVec.ofNat 8 (s.draw (2000 + a.toNat)), false) s
  | some b =>
    let off := fld a 31 0
    if b.localKib * 1024 ≤ off then .flt { cause := Cause.registerWindow, addr := a } s
    else if !b.resident then .wait s
    else if (b.entryAt off).isSome && (oget b.stash (off / 64)).isNone then
      .ok (BitVec.ofNat 8 (s.draw (2000 + a.toNat)), false) s
    else .ok (mget 0 b.win off, mget false b.winPoison (off / 4)) (s.charge q.core q.group (energyWeight 4))

/-- One byte read as a load of the engine. -/
def State.engByte (s : State) (q : CopyReq) (a : W64) : EngOut EngByte :=
  if inWindow a then s.engWin q a
  else (s.engMem q Kind.engRead a).bind fun x s =>
    if (s.part q.part).space x.2 = .host then s.engGot q ((s.hostRead x.2 1).headD 0, false)
    else (s.homeByte q.part x.1 x.2 a ⟨q.rts, none⟩).bind fun b s => (s.engTraffic q x.2 x.1.coh).engGot q b

def State.engBytes (s : State) (q : CopyReq) (a : W64) (n : Nat) : EngOut (List EngByte) :=
  engMap (fun i s => s.engByte q (a + BitVec.ofNat 64 i)) (List.range n) s

/-! ### The shape of a request (R368) -/

/-- Element width of a linear page format (R159). -/
def linearBits (fmt : Nat) : Option Nat :=
  if fmt = 4 || fmt = 5 then some 4 else if 1 ≤ fmt && fmt ≤ 3 then some 8 else if fmt = 6 || fmt = 7 then some 16 else none

/-- FMT of the page of an address. -/
def State.engFmt (s : State) (q : CopyReq) (kind : Nat) (a : W64) : EngOut Nat :=
  if inWindow a then .ok 0 s
  else match s.engXlate q kind a with
    | .ok t _ s => .ok t.fmt s
    | .flt c d s => .flt { cause := c, addr := a, detail := d } s
    | .held s => .wait s
    | .lost s => .lost s

/-- Bits of an element: those of a linear source page in a GATHER or REBLOCK. -/
def State.engWidth (s : State) (q : CopyReq) : EngOut Nat :=
  if q.op = 4 || q.op = 5 then (s.engFmt q Kind.engRead q.src).bind fun f s => .ok ((linearBits f).getD (8 * q.esz)) s
  else .ok (8 * q.esz) s

/-- Destination rows, and bytes of each. -/
def CopyReq.outRows (q : CopyReq) : Nat :=
  if q.op = 2 then q.ncols else if q.op = 3 then q.drows else if q.op = 4 then 1 else q.nrows

def CopyReq.rowBytes (q : CopyReq) (w : Nat) : Nat :=
  if q.op = 2 then q.nrows * q.esz else if q.op = 3 then q.dcols * q.esz else if q.op = 4 then 12288
  else if q.op = 5 then q.ncols * w / 8 else q.ncols * q.esz

def CopyReq.rowAt (q : CopyReq) (r : Nat) : W64 := q.dst + BitVec.ofNat 64 (r * q.dstride)
def CopyReq.srcRow (q : CopyReq) (r : Nat) : W64 := q.src + BitVec.ofNat 64 (r * q.sstride)

/-- A destination line: GVA / 64, and the bytes of it that rows cover. -/
def linesOf (a : W64) (n : Nat) : List Nat := if n = 0 then [] else span (a.toNat / 64) ((a.toNat % 64 + n + 63) / 64)

/-- A number into a rising list without repeats. -/
def insertNat (x : Nat) : List Nat → List Nat
  | [] => [x]
  | y :: r => if x = y then y :: r else if x < y then x :: y :: r else y :: insertNat x r

/-- The destination lines in ascending order. -/
def CopyReq.destLines (q : CopyReq) (w : Nat) : List Nat :=
  ((List.range q.outRows).flatMap fun r => linesOf (q.rowAt r) (q.rowBytes w)).foldr insertNat []

/-- Index entry of row `r` of a GATHER. -/
def State.engIndex (s : State) (q : CopyReq) (r : Nat) : EngOut (Nat × Bool) :=
  (s.engBytes q (q.index + BitVec.ofNat 64 (4 * r)) 4).bind fun bs s =>
    .ok (natOfBytes (bs.map (·.1)), bs.any (·.2)) s

/-- Address of the row that row `r` of a GATHER copies. -/
def State.engGather (s : State) (q : CopyReq) (r : Nat) : EngOut (W64 × Bool) :=
  (s.engIndex q r).bind fun i s => .ok (q.src + BitVec.ofNat 64 (i.1 * q.sstride), i.2) s

/-- Byte `j` of destination row `r`. Bytes of a pad element above the 4 of AUX0 are free values. -/
def State.engCell (s : State) (q : CopyReq) (w r j : Nat) : EngOut EngByte :=
  let e := q.esz
  if q.op = 2 then s.engByte q (q.srcRow (j / e) + BitVec.ofNat 64 (r * e + j % e))
  else if q.op = 3 then
    if r < q.nrows && j / e < q.ncols then s.engByte q (q.srcRow r + BitVec.ofNat 64 j)
    else if j % e < 4 then .ok (BitVec.ofNat 8 (fld q.record 447 416 / 2 ^ (8 * (j % e))), false) s
    else .ok (BitVec.ofNat 8 (s.draw (1900 + j % e)), false) s
  else if q.op = 4 then
    let c := j / 192
    let i := j % 192
    let code := fun (k : Nat) (s : State) =>
      (s.engByte q (q.srcRow k + BitVec.ofNat 64 (c * w / 8))).bind fun b s =>
        .ok ((if c % 2 = 1 then b.1 >>> 4 else b.1 &&& 0x0F), b.2) s
    if w = 4 then (code (2 * i) s).bind fun lo s => (code (2 * i + 1) s).bind fun hi s =>
      .ok (lo.1 ||| (hi.1 <<< 4), lo.2 || hi.2) s
    else s.engByte q (q.srcRow (8 * i / w) + BitVec.ofNat 64 (c * w / 8 + i % (w / 8)))
  else if q.op = 5 then
    (s.engGather q r).bind fun a s => (s.engByte q (a.1 + BitVec.ofNat 64 j)).bind fun b s => .ok (b.1, b.2 || a.2) s
  else s.engByte q (q.srcRow r + BitVec.ofNat 64 j)

/-- The destination byte at an address: of the elements that fall on it, which one it holds at last is a free value. -/
def State.engDest (s : State) (q : CopyReq) (w : Nat) (a : W64) : EngOut (Option EngByte) :=
  let rs := (List.range q.outRows).filter fun r => (a - q.rowAt r).toNat < q.rowBytes w
  let one := match rs with
    | [] => none
    | [r] => some r
    | l => (l.drop (s.draw (3000 + a.toNat % 64) % l.length)).head?
  match one with
  | none => .ok none s
  | some r => (s.engCell q w r (a - q.rowAt r).toNat).bind fun b s => .ok (some b) s

/-! ### Messages (R440) -/

/-- A message: destination row, offset in it, length. -/
def CopyReq.messages (q : CopyReq) : List (Nat × Nat × Nat) :=
  if (copyLaunch q.record).isSome then [(0, 0, 64)]
  else (List.range q.nrows).flatMap fun r =>
    let a := (q.rowAt r).toNat
    let n := q.rowBytes 0
    (List.range ((a % 4096 + n + 4095) / 4096)).map fun i =>
      let lo := Nat.max a (a / 4096 * 4096 + 4096 * i)
      let hi := Nat.min (a + n) (a / 4096 * 4096 + 4096 * i + 4096)
      (r, lo - a, hi - lo)

/-- Bytes of the first `n` messages. -/
def CopyReq.sentBytes (q : CopyReq) (n : Nat) : Nat := (q.messages.take n).foldl (fun k m => k + m.2.2) 0

/-- The byte that a GET has brought for an address. -/
def EngRun.brought (r : EngRun) (a : W64) : Option EngByte :=
  (r.req.messages.zipIdx.filterMap fun m =>
    let o := (a - r.req.rowAt m.1.1 - BitVec.ofNat 64 m.1.2.1).toNat
    if o < m.1.2.2 then match oget r.got m.2 with
      | some g => some ((g.1.drop o).headD 0, g.2)
      | none => none
    else none).head?

/-- A message that covers the line has not been answered. -/
def EngRun.awaits (r : EngRun) (line : Nat) : Bool :=
  r.req.messages.zipIdx.any fun m =>
    (linesOf (r.req.rowAt m.1.1 + BitVec.ofNat 64 m.1.2.1) m.1.2.2).contains line && (oget r.got m.2).isNone

/-! ### Running requests -/

def State.onEng (s : State) (k : CoreKey) (f : EngRun → EngRun) : State := s.onCore k fun c => { c with eng := c.eng.map f }

/-- The request ends with a status. -/
def State.engStatus (s : State) (k : CoreKey) (n : Nat) : State := s.onEng k fun r => { r with status := n, ended := true }

/-- A fault of an access stops the request: ENGINE_FAULT comes next (R370). -/
def State.engStop (s : State) (k : CoreKey) (f : Flt) : State :=
  { s with agenda := s.agenda ++ [⟨.engineFault, { StepArgs.zero with
      slice := k.slice, core := k.core, n := f.cause.toNat, gva := f.addr, w := f.detail }⟩] }

/-- What an access that did not succeed does to the request. -/
def EngOut.fin {α : Type} (r : EngOut α) (k : CoreKey) (s0 : State) (go : α → State → State) : State :=
  match r with
  | .ok x s => go x s
  | .flt f _ => s0.engStop k f
  | .wait s => s0.knocked s
  | .full p => s0.poolFull p
  | .lost _ => s0.engStatus k 1

/-- The destination is in the kicking block's window. -/
def EngRun.local_ (r : EngRun) : Bool := !r.req.sends && inWindow r.req.dst

/-- Where a message of a request has its source. -/
def CopyReq.from_ (q : CopyReq) (m : Nat × Nat × Nat) : W64 := q.srcRow m.1 + BitVec.ofNat 64 m.2.1

def State.engPayload (s : State) (q : CopyReq) (m : Nat × Nat × Nat) : EngOut (List EngByte) :=
  if q.gets then .ok [] s else s.engBytes q (q.from_ m) m.2.2

/-- Poison that a message takes to another partition is reported where it was read (R19). -/
def State.sentPoison (s : State) (q : CopyReq) (m : Nat × Nat × Nat) (bs : List EngByte) : State :=
  match bs.findIdx? (·.2) with
  | none => s
  | some i =>
    let ppa := s.engPpa q (q.from_ m + BitVec.ofNat 64 i)
    s.poisonAt q.part (if ppa = 0 then q.core.slice else (s.part q.part).home ppa) ppa

/-- The next message of a remote request goes out when the link has room. Without a transport, or without a valid peer entry, the
request ends with REMOTE (R437, R438). -/
def State.sendNext (s : State) (k : CoreKey) (r : EngRun) : State :=
  let q := r.req
  let x := s.part q.part
  match (q.messages.drop r.sent).head? with
  | none => s
  | some m =>
    if !x.netOn then s.endRemote q.part k (·.applied)
    else if s.peerWaits q.part q.peer then s.readPeer q.part q.peer
    else match s.peerEntry q.part q.peer with
    | none => s.endRemote q.part k (·.sent)
    | some e =>
      let sl := portOf x e k.slice
      let idx := entryLink q.peer e
      if !(s.link q.part sl idx).room then s
      else (s.engPayload q m).fin k s fun bs s =>
        let s := ((s.readPeer q.part q.peer).aim q.part sl idx e).sentPoison q m bs
        let h := s.header q.part sl idx 1 (e.extractLsb' 64 16)
        let bad := bs.any (·.2)
        let pkt : Packet := match copyLaunch q.record with
          | some n => { h with op := 5, raddr := BitVec.ofNat 64 n, len := 64, payload := bs.map (·.1) }
          | none =>
            if q.gets then { h with op := 2, raddr := q.from_ m, len := BitVec.ofNat 16 m.2.2 }
            else
              { h with
                op := if q.op = 8 then 4 else 1, poison := bad, raddr := q.rowAt m.1 + BitVec.ofNat 64 m.2.1
                len := BitVec.ofNat 16 m.2.2
                redop := if q.op = 8 then q.record.extractLsb' 8 3 else 0
                rtype := if q.op = 8 then q.record.extractLsb' 12 5 else 0
                payload := bs.map (·.1) }
        (s.sendMessage q.part sl idx ⟨pkt, 0, k, r.sent, some q⟩).onEng k fun r =>
          { r with sent := r.sent + 1, status := if bad then 1 else r.status }

/-- R366: the engine takes its next request; while a remote one runs, its next message goes out (R440). -/
def execEngineRequestStart (s : State) : Out :=
  let k := s.args.coreKey
  let c := s.core k
  .next (match c.eng with
    | none =>
      match c.engQ with
      | [] => s
      | q :: rest =>
        let no := q.op = 4 && (inWindow q.src || inWindow q.dst)
        s.onCore k fun c => { c with
          engQ := rest, eng := some ⟨q, 0, [], [], [], if no then 3 else 0, no, false, 0, 0, [], 0⟩ }
    | some r => if r.req.remote && !r.ended && !r.faulted then s.sendNext k r else s)

/-! ### Claims (R122, R123) -/

/-- The pages that a range touches. -/
def pagesOf (a : W64) (n : Nat) : List W64 :=
  if n = 0 then [] else a :: (List.range ((a.toNat % 4096 + n - 1) / 4096)).map fun i =>
    BitVec.ofNat 64 (a.toNat / 4096 * 4096 + 4096 * (i + 1))

/-- Every page has a format that meets the test. -/
def State.fmtAll (s : State) (q : CopyReq) (kind : Nat) (ok : Nat → Bool) (as : List W64) : EngOut Bool :=
  (engMap (fun a s => s.engFmt q kind a) as s).bind fun fs s => .ok (fs.all ok) s

/-- The FMT test of a segment (R369). -/
def State.fmtTest (s : State) (q : CopyReq) (w : Nat) (lines : List Nat) : EngOut Bool :=
  if q.op = 4 then
    (s.engFmt q Kind.engRead q.src).bind fun f s =>
      if (linearBits f).isNone || q.nrows ≠ 1536 / w || q.ncols ≠ 64 then .ok false s
      else (s.fmtAll q Kind.engRead (· = f) ((List.range q.nrows).flatMap fun r => pagesOf (q.srcRow r) (64 * w / 8))).bind fun a s =>
        (s.fmtAll q Kind.engWrite (· = f + 8) (lines.map fun l => BitVec.ofNat 64 (64 * l))).bind fun b s => .ok (a && b) s
  else if q.op = 5 then
    if w = 4 && q.ncols % 2 = 1 then .ok false s
    else
      let rs := (List.range q.nrows).filter fun r => (linesOf (q.rowAt r) (q.rowBytes w)).any lines.contains
      (engMap (fun r s => s.engGather q r) rs s).bind fun as s =>
        s.fmtAll q Kind.engRead (fun f => (linearBits f).getD (8 * q.esz) = w) (as.flatMap fun a => pagesOf a.1 (q.rowBytes w))
  else .ok true s

/-- The PPA line of each destination line, refused where no memory takes a line. -/
def State.lineAddrs (s : State) (q : CopyReq) (lines : List Nat) : EngOut (List (Nat × Nat)) :=
  engMap (fun l s => (s.engMem q Kind.engWrite (BitVec.ofNat 64 (64 * l))).bind fun x s => .ok (l, x.2 / 64) s) lines s

/-- A pair into a list that rises by its second part. -/
def insertLine (x : Nat × Nat) : List (Nat × Nat) → List (Nat × Nat)
  | [] => [x]
  | y :: r => if x.2 ≤ y.2 then x :: y :: r else y :: insertLine x r

/-- A segment starts: its lines are translated and tested. -/
def State.startSegment (s : State) (k : CoreKey) (r : EngRun) (w : Nat) (lines : List Nat) : State :=
  ((s.lineAddrs r.req lines).bind fun ps s => (s.fmtTest r.req w lines).bind fun ok s => .ok (ps, ok) s).fin k s fun x s =>
    if !x.2 then s.engStatus k 3
    else s.onEng k fun r => { r with next := r.next + lines.length, todo := x.1.foldr insertLine [] }

/-- Eight ways of the line's set at its home are pinned by claims (R123). -/
def State.setFull (s : State) (p ln : Nat) : Bool :=
  let cs := (s.slice ((s.part p).home (64 * ln))).claims
  8 ≤ cs.length && 8 ≤ (cs.filter fun c => Config.llcSet (lineIx c.2.1 (64 * c.2.2)) = Config.llcSet (lineIx p (64 * ln))).length

/-- A line is granted exclusive to an engine after the recall of every copy, and pinned in the last-level cache; none while the
claim waits. -/
def State.claimLine (s : State) (k : CoreKey) (p ln : Nat) : Option State :=
  if s.memHold p (64 * ln) 0 true ≠ .none || s.setFull p ln then none
  else some (((s.recallHc none p ln).served p (64 * ln) 0).onSlice ((s.part p).home (64 * ln)) fun y => { y with claims := y.claims ++ [(k, p, ln)] })

/-- A claim of an engine is released; requests that waited for it are accepted. -/
def State.unclaim (s : State) (k : CoreKey) (p ln : Nat) : State :=
  let s := { s with slices := s.slices.map fun (y : Slice) => { y with claims := y.claims.filter (· ≠ (k, p, ln)) } }
  s.wake fun i h => h = Hold.claim && i.key.blk.part = p

/-- The next line of a segment; a line with no home here is not claimed (R453). -/
def State.grant (s : State) (k : CoreKey) (r : EngRun) : State :=
  match r.todo with
  | [] => s
  | l :: rest =>
    let p := r.req.part
    let take := fun (s : State) => s.onEng k fun r => { r with todo := rest, claims := r.claims ++ [l] }
    match (s.part p).space (64 * l.2) with
    | .host => take s
    | _ =>
      if (s.part p).lost (64 * l.2) then s.engStatus k 1
      else match s.claimLine k p l.2 with
        | some s => take s
        | none => s.knock p (64 * l.2)

/-- R122: the next destination line, in ascending PPA order within a segment. -/
def execClaim (s : State) : Out :=
  let k := s.args.coreKey
  .next (match (s.core k).eng with
    | none => s
    | some r =>
      if r.ended || r.faulted || r.req.sends || r.local_ then s
      else if !r.todo.isEmpty then s.grant k r
      else if !r.claims.isEmpty then s
      else (s.engWidth r.req).fin k s fun w s =>
        s.startSegment k r w (((r.req.destLines w).drop r.next).take 4096))

/-! ### Writing back and release (R122) -/

/-- The mask of the bytes that are there. -/
def presentMask (bs : List (Option EngByte)) : BitVec 64 :=
  bs.zipIdx.foldl (fun m b => if b.1.isSome then m ||| (1#64 <<< b.2) else m) 0

/-- Bytes that are sound, put into host memory: the shutter refuses poisoned ones (R18). -/
def State.hostPut (s : State) (ppa : Nat) (bs : List (Option EngByte)) : State :=
  bs.zipIdx.foldl (fun s b => match b.1 with
    | some (x, false) => s.hostWrite (ppa + b.2) [x]
    | _ => s) s

/-- Bytes of a line that the engine has claimed, written back in one step (R122, R170). What the home accepted before its
bucket went into transit it still completes (R36). -/
def State.engPut (s : State) (q : CopyReq) (k : CoreKey) (line : Nat) (bs : List (Option EngByte)) : EngOut Unit :=
  let a : W64 := BitVec.ofNat 64 (64 * line)
  let data := bs.map fun b => (b.getD (0, false)).1
  let bad := bs.any fun b => (b.getD (0, false)).2
  let mask := presentMask bs
  (s.engMem q Kind.engWrite a).bind fun x s =>
    let t := x.1
    let ppa := x.2
    if (s.part q.part).space ppa = .host then .ok () ((if bad then s.poisonAt q.part k.slice ppa else s).hostPut ppa bs)
    else if mask = 0 then .ok () s
    else
      let s := s.charge k q.group (s.trafficUnits k q.part ppa ((bs.filter (·.isSome)).length) 914)
      (s.putLine q.part t.key ppa t.ver data mask bad t.coh).eng s q.part fun s =>
        .ok () (if bad then s.poisonPassed q.part ppa else s)

/-- What the destination holds before a REDUCE. -/
def State.engOld (s : State) (q : CopyReq) (a : W64) : EngOut EngByte :=
  (s.engMem q Kind.engWrite a).bind fun x s =>
    if (s.part q.part).space x.2 = .host then .ok ((s.hostRead x.2 1).headD 0, false) s
    else
      let s := s.engTraffic q x.2 x.1.coh
      let b := s.homeRead q.part x.1.key x.2 1 .plain
      .ok (b.1.headD 0, b.2) s

/-- Bytes put into options that stand for the bytes from some address on. -/
def putOpts (bs : List (Option EngByte)) (at_ : Nat) (xs : List EngByte) : List (Option EngByte) :=
  bs.take at_ ++ xs.map some ++ bs.drop (at_ + xs.length)

/-- Elements of a REDUCE with bytes in a line, but those that run over an end of it whose other line has been released:
destination and source addresses. -/
def EngRun.elemsIn (r : EngRun) (line : Nat) : List (W64 × W64) :=
  let q := r.req
  let crossed := fun (m : Nat) => r.kept.any fun e => e.1 / 64 = line && if line = m then 56 ≤ e.1 % 64 else e.1 % 64 < 8
  (List.range q.nrows).flatMap fun i => (List.range q.ncols).filterMap fun c =>
    let a := q.rowAt i + BitVec.ofNat 64 (c * q.esz)
    let lo := a.toNat / 64
    let hi := (a.toNat + q.esz - 1) / 64
    if (lo = line || hi = line) && (lo = hi || !crossed lo) then some (a, q.srcRow i + BitVec.ofNat 64 (c * q.esz)) else none

/-- One element combined into the bytes of a line and its neighbours (R368). -/
def State.engReduce (s : State) (q : CopyReq) (line : Nat) (bs : List (Option EngByte)) (a src : W64) :
    EngOut (List (Option EngByte)) :=
  match redOp (fld q.record 10 8) with
  | none => .ok bs s
  | some op =>
    let n := q.esz
    let at_ := a.toNat + 64 - 64 * line
    let old := fun (i : Nat) (s : State) => match (bs.drop (at_ + i)).head? with
      | some (some x) => EngOut.ok x s
      | _ => s.engOld q (a + BitVec.ofNat 64 i)
    (engMap old (List.range n) s).bind fun os s => (s.engBytes q src n).bind fun xs s =>
      let c : AtomCtx := ⟨op, fld q.record 16 12, 0, false, 8 * n⟩
      let v := c.combine (natOfBytes (os.map (·.1))) (natOfBytes (xs.map (·.1)))
      let bad := os.any (·.2) || xs.any (·.2)
      .ok (putOpts bs at_ ((bytesOf n (BitVec.ofNat 64 v)).map fun b => (b, bad))) s

/-- The bytes that a request gives the line before, a line, and the next one: only elements of a REDUCE that run over an end
of the line give bytes to its neighbours, which take them at their own release (R170). -/
def State.engLine (s : State) (r : EngRun) (w line : Nat) : EngOut (List (Option EngByte)) :=
  let q := r.req
  let base : W64 := BitVec.ofNat 64 (64 * line)
  let none64 : List (Option EngByte) := List.replicate 64 none
  let alone := fun (x : List (Option EngByte)) => none64 ++ x ++ none64
  if q.op = 8 then
    let kept := (List.range 64).map fun i => oget r.kept (64 * line + i)
    (r.elemsIn line).foldl (fun acc e => acc.bind fun bs s => s.engReduce q line bs e.1 e.2) (EngOut.ok (alone kept) s)
  else if q.gets then .ok (alone ((List.range 64).map fun i => r.brought (base + BitVec.ofNat 64 i))) s
  else (engMap (fun i s => s.engDest q w (base + BitVec.ofNat 64 i)) (List.range 64) s).bind fun x s => .ok (alone x) s

/-- The bytes of the neighbours that a released line leaves to them. -/
def EngRun.keep (r : EngRun) (line : Nat) (bs : List (Option EngByte)) : EngRun :=
  let side := bs.zipIdx.filterMap fun b => match b.1 with
    | some x => if 64 ≤ b.2 && b.2 < 128 then none else some (64 * line + b.2 - 64, x)
    | none => none
  { r with kept := side.foldl (fun m e => oset m e.1 e.2) r.kept }

/-- R122: a claimed line is written back and released; the requests that waited for it are accepted. It may be so while later
lines of its segment are still unclaimed (DESIGN CHOICE, log 143). -/
def execClaimRelease (s : State) : Out :=
  let k := s.args.coreKey
  .next (match (s.core k).eng with
    | none => s
    | some r =>
      let q := r.req
      match if r.ended || r.faulted then none else (r.claims.drop s.args.n).head? with
      | none => s
      | some l =>
        if q.gets && r.awaits l.1 then s
        else ((s.engWidth q).bind fun w s => (s.engLine r w l.1).bind fun bs s =>
          (s.engPut q k l.1 ((bs.drop 64).take 64)).bind fun _ s => .ok bs s).fin k s fun bs s =>
          let bad := ((bs.drop 64).take 64).any fun b => (b.getD (0, false)).2
          let s := s.onEng k fun r => { r.keep l.1 bs with
            claims := r.claims.filter (· ≠ l), status := if bad then 1 else r.status }
          s.unclaim k q.part l.2)

/-! ### Completion and faults (R369, R370, R445) -/

/-- The write of a line of the window, as one store: tags, forwarded updates, lent lines (R83, R91, R97). -/
def State.engWindow (s : State) (q : CopyReq) (line : Nat) (bs : List (Option EngByte)) : EngOut Unit :=
  match s.block? q.group.blk with
  | none => .ok () s
  | some b =>
    let k := b.key
    let off := 64 * (line % 2 ^ 26)
    let full := b.localKib * 1024 ≤ off
    if full then .flt { cause := Cause.registerWindow, addr := BitVec.ofNat 64 (64 * line) } s
    else if !b.resident || s.lineFull b off (presentMask bs) then .wait s
    else match s.ownTouch k off with
      | .hold _ s => .wait s
      | .flt f s => .flt f s
      | .ok s =>
        let s := bs.zipIdx.foldl (fun s x => match x.1 with
          | some y => s.onBlock k fun b =>
              let b := b.writeWin (off + x.2) [y.1] q.group.grp
              { b with winPoison := if y.2 then mset false b.winPoison ((off + x.2) / 4) true else b.winPoison }
          | none => s) s
        let words := (List.range 16).filter fun i => ((bs.drop (4 * i)).take 4).any (·.isSome)
        let s := words.foldl (fun s i =>
          if ((bs.drop (4 * i)).take 4).all fun b => b.isSome && !(b.getD (0, false)).2 then
            s.onBlock k fun b => { b with winPoison := mset false b.winPoison (off / 4 + i) false }
          else s) s
        let s := s.forwardLine k off (presentMask bs)
        let s := s.charge q.core q.group (energyWeight 4 * (bs.filter (·.isSome)).length)
        let s := if bs.any fun b => (b.getD (0, false)).2 then s.poisonAt q.part q.core.slice 0 else s
        .ok () (words.foldl (fun s i => s.putTag k (off / 4 + i) true) s)

/-- The next line of a local destination. -/
def State.engLocal (s : State) (k : CoreKey) (r : EngRun) : Option State :=
  match s.engWidth r.req with
  | .ok w s' =>
    match ((r.req.destLines w).drop r.next).head? with
    | none => none
    | some l =>
      some (((if r.next = 0 then s'.fmtTest r.req w (r.req.destLines w) else .ok true s').bind fun ok s =>
        if !ok then .ok (false, false) s
        else if r.req.gets && r.awaits l then .wait s
        else (s.engLine r w l).bind fun bs s => (s.engWindow r.req l ((bs.drop 64).take 64)).bind fun _ s =>
          .ok (true, bs.any fun b => (b.getD (0, false)).2) s).fin k s fun x s =>
        if !x.1 then s.engStatus k 3
        else s.onEng k fun r => { r with next := r.next + 1, status := if x.2 then 1 else r.status })
  | r' => some (r'.fin k s fun _ s => s)

/-- Nothing of the request is left to do: what it has sent is applied at the peer, or answered (R445); of one that failed, what
comes before the failure (R441). -/
def State.engDone (s : State) (r : EngRun) : Bool :=
  if r.ended then !r.req.remote || decide ((if r.status = 2 then r.await else r.sent) ≤ r.applied)
  else match s.engWidth r.req with
    | .ok w _ =>
      let all := r.req.messages.length
      (!r.req.remote || r.sent = all) &&
        (if r.req.sends then decide (all ≤ r.applied)
         else decide ((r.req.destLines w).length ≤ r.next) && r.todo.isEmpty && r.claims.isEmpty)
    | _ => false

/-- The completion word written, from `s` to `t`, is charged as the request's other traffic. -/
def State.engWord (s : State) (q : CopyReq) (t : State) : State :=
  let ppa := s.engPpa q q.caddr
  if (s.part q.part).space ppa = .mem then t.charge q.core q.group (s.trafficUnits q.core q.part ppa 8 914) else t

/-- R369, R445: the completion word, if the request names one; a word that faults is skipped. -/
def execEngineComplete (s : State) : Out :=
  let k := s.args.coreKey
  .next (match (s.core k).eng with
    | none => s
    | some r =>
      let q := r.req
      if r.faulted then s
      else
        match if r.local_ && !r.ended then s.engLocal k r else none with
        | some s => s
        | none =>
          if !s.engDone r then
            (if r.req.remote && !(s.part q.part).netOn then s.endRemote q.part k (·.applied) else s)
          else
            let word : W64 := BitVec.ofNat 64 (q.cval + r.status * 2 ^ 32)
            let fin := fun (s : State) =>
              let s := s.onCore k fun c => { c with
                eng := none
                remdone := if r.status = 2 then BitVec.ofNat 64 (q.sentBytes (Nat.min r.applied r.await)) else c.remdone }
              let s := s.onPart q.part fun x => { x with links := x.links.map fun l =>
                (l.1, { l.2 with msgs := l.2.msgs.filter fun m => m.core ≠ k }) }
              let s := { s with slices := s.slices.map fun (y : Slice) => { y with claims := y.claims.filter fun c => c.1 ≠ k } }
              (s.wake fun i h => h = Hold.claim && i.key.blk.part = q.part).takeKick k
            if q.caddr = 0 then fin s
            else match (s.engXlate q Kind.engWrite q.caddr).devWrite (q.ask Kind.engWrite) q.caddr (bytesOf 8 word) with
              | .ok _ _ t => fin (s.engWord q t)
              | .flt _ _ _ => fin s
              | .lost _ => fin s
              | .wait t => s.knocked t)

/-- R370: the request stops, and a record is posted against the kicking grid. -/
def execEngineFault (s : State) : Out :=
  let k := s.args.coreKey
  .next (match (s.core k).eng with
    | none => s
    | some r =>
      if r.faulted || r.ended then s
      else
        let rec_ := asyncRecord (BitVec.ofNat 8 s.args.n) 1 (agentHandle k.slice k.core 0) s.args.gva s.args.w
          (BitVec.ofNat 64 r.req.group.blk.grid) r.req.priv
        (s.onEng k fun r => { r with faulted := true }).postAsync k.slice rec_)

/-! ### Checkpoints (R447 to R449) -/

/-- Fields of a descriptor's header (R448). -/
def Checkpoint.ctx (c : Checkpoint) : Nat := fld c.desc 11 0
def Checkpoint.g (c : Checkpoint) : Nat := fld c.desc 19 16 + 1
def Checkpoint.self_ (c : Checkpoint) : Nat := fld c.desc 23 20
def Checkpoint.unit (c : Checkpoint) : Nat := 2 ^ (fld c.desc 27 24 + 12)
/-- Pieces of 4 KiB in a unit. -/
def Checkpoint.pieces (c : Checkpoint) : Nat := 2 ^ fld c.desc 27 24
def Checkpoint.units (c : Checkpoint) : Nat := (c.total + c.unit - 1) / c.unit
def Checkpoint.stripes (c : Checkpoint) : Nat := (c.units + c.g - 2) / (c.g - 1)

def ckptHeadOk (d : BitVec 512) : Bool :=
  fld d 15 12 = 0 && fld d 31 28 = 0 && fld d 63 48 = 0 && fld d 191 160 = 0 && fld d 511 256 = 0 &&
  1 ≤ fld d 19 16 && (fld d 23 20 ≤ fld d 19 16 || fld d 23 20 = 15) && fld d 27 24 ≤ 8 &&
  1 ≤ fld d 47 32 && fld d 47 32 ≤ 1024

/-- A member entry passes its checks: PEER and REGION. -/
def State.memberOk (s : State) (p : Nat) (self_ : Bool) (m : BitVec 128) : Bool :=
  fld m 63 16 = 0 && fld m 127 64 % 4096 = 0 &&
    if self_ then fld m 15 0 = 0xFFFF else fld m 15 0 ≠ 0xFFFF && (s.peerEntry p (fld m 15 0)).isSome

/-- The checkpoint writes no unit and no header any more: it has failed, or never began. -/
def Checkpoint.over (c : Checkpoint) : Bool := decide (2 ≤ c.status) || c.members.isEmpty

/-- A descriptor at a PPA, read and checked, and the snapshot: true while either waits. A descriptor that cannot be read ends
the command without a completion word; where the sequencer is LOST no snapshot can be taken, and the status is POISONED
(R19, R134). -/
def State.ckptBegin (s : State) (p a : Nat) : State × Bool :=
  let done := fun (s : State) => (s.onPart p fun x => { x with ckWait := false }, false)
  let words := fun (a n : Nat) => (List.range n).map fun i => (valOfBytes 128 (s.readRange p (a + 16 * i) 16) : BitVec 128)
  match s.rangeState p a 64 false with
  | .waits => (s.knock p a, true)
  | .ready =>
    let d : BitVec 512 := valOfBytes 512 (s.readRange p a 64)
    let bad : Checkpoint := ⟨d, [], [], 0, 0, 3, [], [], false, 0, 0, [], []⟩
    let s := s.readLines p a 64
    let set := fun (c : Checkpoint) (s : State) => s.onPart p fun x => { x with ckpt := some c }
    if !ckptHeadOk d then done (set bad s)
    else
      let g := fld d 19 16 + 1
      let n := fld d 47 32
      match s.rangeState p (a + 64) (256 + 16 * n) false with
      | .waits => (s.knockRange p (a + 64) (256 + 16 * n), true)
      | .ready =>
        let s := s.readLines p (a + 64) (256 + 16 * n)
        let ms := words (a + 64) g
        let ss := words (a + 320) n
        let s := ms.zipIdx.foldl (fun s m => if m.2 = fld d 23 20 then s else s.readPeer p (fld m.1 15 0)) s
        if ms.zipIdx.any fun m => m.2 ≠ fld d 23 20 && s.peerWaits p (fld m.1 15 0) then (s, true)
        else
        let ok := (ms.zipIdx.all fun m => s.memberOk p (m.2 = fld d 23 20) m.1) && ss.all fun x => fld x 127 106 = 0
        if !ok then done (set bad s)
        else if (s.part p).seqLost then done (set { bad with status := 1 } s)
        else if (s.part p).transit 0 then (s, true)
        else match (s.part p).takeSnap (s.part p).vclock with
          | none => done (set { bad with status := 4 } s)
          | some x =>
            let ts := x.vclock
            let c : Checkpoint := ⟨d, ms.map fun m => (fld m 15 0, m.extractLsb' 64 64), ss, ts,
              ss.foldl (fun t x => t + fld x 103 64) 0, 0, [], [], false, 0, 0, [], []⟩
            done (s.onPart p fun _ => { x with ckpt := some c, ckTs := BitVec.ofNat 48 ts })
      | _ => done (set bad s)
  | _ => done s

/-- Address of byte `i` of the stream. -/
def segAddr : List (BitVec 128) → Nat → Option W64
  | [], _ => none
  | x :: r, i => if i < fld x 103 64 then some (x.extractLsb' 0 64 + BitVec.ofNat 64 i) else segAddr r (i - fld x 103 64)

/-- Byte `i` of the stream, zero behind its end; a LOST byte counts as poisoned (R19). -/
def State.ckptByte (s : State) (p : Nat) (c : Checkpoint) (i : Nat) : EngOut EngByte :=
  match segAddr c.segments i with
  | none => .ok (0, false) s
  | some a =>
    let ask : Ask := ⟨p, c.ctx, Kind.engRead, false⟩
    match (s.translateNow ask a).memory ask a with
    | .ok x s =>
      if (s.part p).space x.2 = .host then .ok ((s.hostRead x.2 1).headD 0, false) s
      else (s.homeByte p x.1 x.2 a ⟨some c.ts, none⟩).bind fun b s => .ok b (s.servedByte p x.2 x.1.coh 901)
    | .lost s => .ok (0, true) s
    | .flt f s => .flt f s
    | .wait s => .wait s
    | .full q => .full q

/-- A piece of 4 KiB of data unit `u`. -/
def State.ckptPiece (s : State) (p : Nat) (c : Checkpoint) (u n : Nat) : EngOut (List EngByte) :=
  engMap (fun i s => s.ckptByte p c (u * c.unit + n * 4096 + i)) (List.range 4096) s

def xorBytes (a b : List EngByte) : List EngByte := (a.zip b).map fun x => (x.1.1 ^^^ x.2.1, x.1.2 || x.2.2)

/-- The pieces that the members get: the parity on its member, data unit `j` of stripe `t` on member (p + 1 + j) mod G. -/
def Checkpoint.place (c : Checkpoint) (t : Nat) (ds : List (List EngByte)) : List (Nat × List EngByte) :=
  let par := ds.foldl xorBytes (List.replicate 4096 (0, false))
  (t % c.g, par) :: ds.zipIdx.map fun d => ((t % c.g + 1 + d.2) % c.g, d.1)

/-- Pieces of a segment: 4,096 lines (R123). -/
def ckptSegment : Nat := 64

def State.onCkpt (s : State) (p : Nat) (f : Checkpoint → Checkpoint) : State :=
  s.onPart p fun x => { x with ckpt := x.ckpt.map f }

def Checkpoint.ask (c : Checkpoint) (p kind : Nat) : Ask := ⟨p, c.ctx, kind, false⟩

/-- A LOST line of SELF's region is not written: the status is POISONED, and this member gets no header (R19, R449). -/
def Checkpoint.selfLost (c : Checkpoint) : Checkpoint :=
  { c with status := if c.status = 0 then 1 else c.status, headed := c.headed ++ [c.self_] }

/-- Bytes written to SELF's region, with its lines claimed. Poison does not reach host memory (R18). -/
def State.ckptLocal (s : State) (p : Nat) (c : Checkpoint) (a : W64) (bs : List EngByte) : EngOut Unit :=
  (engMap (fun l s =>
    let a' : W64 := BitVec.ofNat 64 l.1
    let xs := (bs.drop l.2.1).take l.2.2
    match (s.translateNow (c.ask p Kind.engWrite) a').memory (c.ask p Kind.engWrite) a' with
    | .ok x s =>
      let t := x.1
      let ppa := x.2
      if (s.part p).space ppa = .host then EngOut.ok () (s.hostPut ppa (xs.map some))
      else
        (s.putLine p t.key (ppa / 64 * 64) t.ver (List.replicate (ppa % 64) 0 ++ xs.map (·.1)) (byteMask ppa l.2.2)
          (xs.any (·.2)) t.coh).eng s p fun s => .ok () s
    | .lost s => .ok () (s.onCkpt p (·.selfLost))
    | .flt f s => .flt f s
    | .wait s => .wait s
    | .full q => .full q) (lineParts a.toNat bs.length) s).bind fun _ s => .ok () s

/-- Lines of SELF's region to be claimed: GVA line, PPA line, in ascending PPA order. Lines without a home here, or LOST, are
not claimed. -/
def State.ckptLines (s : State) (p : Nat) (c : Checkpoint) (a : W64) (n : Nat) : EngOut (List (Nat × Nat)) :=
  (engMap (fun i s =>
    let a' : W64 := a + BitVec.ofNat 64 (64 * i)
    match s.translateNow (c.ask p Kind.engWrite) a' with
    | .flt cz d s => EngOut.flt { cause := cz, addr := a', detail := d } s
    | .held s => .wait s
    | .lost s => .ok [] s
    | .ok _ ppa s => .ok (if (s.part p).space ppa = .mem && !(s.part p).lost ppa then [(a'.toNat / 64, ppa / 64)] else []) s)
    (List.range n) s).bind fun ls s => .ok (ls.flatten.foldr insertLine []) s

/-- The claims that can be taken now, in their order. -/
def State.ckptTake (s : State) (p : Nat) : List (Nat × Nat) → List (Nat × Nat) → State × List (Nat × Nat) × List (Nat × Nat)
  | [], got => (s, [], got)
  | l :: r, got => match s.claimLine ckptClaim p l.2 with
    | some s => s.ckptTake p r (got ++ [l])
    | none => (s.knock p (64 * l.2), l :: r, got)

/-- Claims on the lines of a range are released. -/
def State.ckptRelease (s : State) (p : Nat) (a : W64) (n : Nat) : State :=
  match (s.part p).ckpt with
  | none => s
  | some c =>
    let mine := fun (l : Nat × Nat) => decide (a.toNat / 64 ≤ l.1) && decide (l.1 < a.toNat / 64 + n)
    ((c.claims.filter mine).foldl (fun s l => s.unclaim ckptClaim p l.2) s).onCkpt p fun c =>
      { c with claims := c.claims.filter fun l => !mine l }

/-- The key under which the checkpoint's messages to a member stand. -/
def ckptCore (m : Nat) : CoreKey := ⟨16, m⟩

/-- Port and peer entry of a member. -/
def State.memberPort (s : State) (p : Nat) (c : Checkpoint) (m : Nat) : Option (Nat × Nat × BitVec 512) :=
  match c.members[m]? with
  | none => none
  | some x => (s.peerEntry p x.1).map fun e => (portOf (s.part p) e (s.part p).lowest, x.1, e)

/-- Room for as many messages to a member, which is not SELF. -/
def State.memberRoom (s : State) (p : Nat) (c : Checkpoint) (m n : Nat) : Bool :=
  m = c.self_ || match s.memberPort p c m with
    | none => match c.members[m]? with
      | some e => !s.peerWaits p e.1
      | none => true
    | some x =>
      let l := s.link p x.1 (entryLink x.2.1 x.2.2)
      decide (l.window.length + n ≤ 256) && decide ((l.msn + BitVec.ofNat 32 n - l.aPeer).toNat ≤ 4096)

/-- Room for a piece of every unit of a stripe: its pieces on one link are at most as many as there are members. -/
def State.ckptRoom (s : State) (p : Nat) (c : Checkpoint) : Bool := (List.range c.g).all fun m => s.memberRoom p c m c.g

/-- Bytes to a member at an offset of its region. -/
def State.ckptWrite (s : State) (p : Nat) (c : Checkpoint) (m off : Nat) (bs : List EngByte) : EngOut Unit :=
  let region := ((c.members[m]?).getD (0, 0)).2 + BitVec.ofNat 64 off
  if m = c.self_ then s.ckptLocal p c region bs
  else match if (s.part p).netOn then s.memberPort p c m else none with
    | none => .ok () (s.onPart p fun x => { x with ckpt := x.ckpt.map fun c => { c with status := 2 } })
    | some x =>
      let idx := entryLink x.2.1 x.2.2
      let s := (s.readPeer p x.2.1).aim p x.1 idx x.2.2
      let h := s.header p x.1 idx 1 (x.2.2.extractLsb' 64 16)
      .ok () (s.sendMessage p x.1 idx ⟨{ h with
        poison := bs.any (·.2), raddr := region, len := BitVec.ofNat 16 bs.length, payload := bs.map (·.1) }, 0, ckptCore m, off, none⟩)

/-- A fault stops the checkpoint with its snapshot held, and a record of KIND 5 is posted. -/
def State.ckptFault (s : State) (p : Nat) (f : Flt) : State :=
  let r := asyncRecord f.cause 5 (s.ckptHandle p) f.addr f.detail (BitVec.allOnes 64)
  (s.onPart p fun x => { x with ckpt := x.ckpt.map fun c => { c with faulted := true } }).postAsync (s.part p).lowest r

/-- What an access of the checkpoint that did not succeed does to it. -/
def EngOut.ckpt {α : Type} (r : EngOut α) (p : Nat) (s0 : State) (go : α → State → State) : State :=
  match r with
  | .ok x s => go x s
  | .flt f _ => s0.ckptFault p f
  | .wait s => s0.knocked s
  | .full q => s0.poolFull q
  | .lost _ => s0

/-- REGION of this partition's own member, if it is one. -/
def Checkpoint.region (c : Checkpoint) : Option W64 :=
  if c.self_ < c.g then (c.members[c.self_]?).map (·.2) else none

/-- Piece `n` of every data unit of stripe `t`. -/
def State.ckptPieces (s : State) (p : Nat) (c : Checkpoint) (t n : Nat) : EngOut (List (List EngByte)) :=
  engMap (fun j s => s.ckptPiece p c (t * (c.g - 1) + j) n) (List.range (c.g - 1)) s

/-- Poison in the pieces of a stripe is reported where it was read; what is LOST is poison without a PPA (R19). -/
def State.ckptPoison (s : State) (p : Nat) (c : Checkpoint) (t n : Nat) (ds : List (List EngByte)) : State :=
  match ds.flatten.findIdx? (·.2) with
  | none => s
  | some i =>
    let ppa := match segAddr c.segments ((t * (c.g - 1) + i / 4096) * c.unit + n * 4096 + i % 4096) with
      | some a => match s.translateNow ⟨p, c.ctx, Kind.engRead, false⟩ a with
        | .ok _ ppa _ => ppa
        | _ => 0
      | none => 0
    s.poisonAt p (if ppa = 0 then (s.part p).lowest else (s.part p).home ppa) ppa

/-- One piece of every unit of a stripe is read and placed; a piece of SELF's region releases its lines. -/
def State.ckptPut (s : State) (p : Nat) (c : Checkpoint) : State :=
  let t := c.piece / c.pieces
  let n := c.piece % c.pieces
  ((s.ckptPieces p c t n).bind fun ds s =>
    let s := s.ckptPoison p c t n ds
    let ps := c.place t ds
    let order := (ps.filter (·.1 = c.self_)) ++ ps.filter (·.1 ≠ c.self_)
    (engMap (fun x s => s.ckptWrite p c x.1 (4096 + t * c.unit + n * 4096) x.2) order s).bind fun _ s =>
      .ok (ds.any fun d => d.any (·.2)) s).ckpt p s fun bad s =>
    let s := match c.region with
      | some a => s.ckptRelease p (a + BitVec.ofNat 64 (4096 + 4096 * c.piece)) 64
      | none => s
    s.onCkpt p fun c => { c with piece := c.piece + 1, status := if bad && c.status = 0 then 1 else c.status }

/-- The next step of a checkpoint: the lines of the next segment of SELF's region are named, or claimed, or a piece is
written. -/
def State.ckptStep (s : State) (p : Nat) (c : Checkpoint) : State :=
  let all := c.stripes * c.pieces
  if all ≤ c.piece || c.faulted || c.over || !s.ckptRoom p c then s
  else match c.region with
    | none => s.ckptPut p c
    | some a =>
      if !c.todo.isEmpty then
        let r := s.ckptTake p c.todo []
        r.1.onCkpt p fun c => { c with todo := r.2.1, claims := c.claims ++ r.2.2 }
      else if c.taken ≤ c.piece then
        let n := Nat.min ckptSegment (all - c.piece)
        (s.ckptLines p c (a + BitVec.ofNat 64 (4096 + 4096 * c.piece)) (64 * n)).ckpt p s fun ls s =>
          s.onCkpt p fun c => { c with taken := c.piece + n, todo := ls }
      else s.ckptPut p c

/-- The header of a member is written: that of SELF's region under a claim on its line. -/
def State.ckptHead (s : State) (p : Nat) (c : Checkpoint) (m : Nat) (bs : List Byte) : EngOut Unit :=
  let put := fun (s : State) => s.ckptWrite p c m 0 (bs.map fun b => (b, false))
  match if m = c.self_ then c.region else none with
  | none => put s
  | some a => (s.ckptLines p c a 1).bind fun ls s' => match s'.ckptTake p ls [] with
    | (s', [], got) => (put s').bind fun _ s => .ok () (got.foldl (fun s l => s.unclaim ckptClaim p l.2) s)
    | _ => .wait s

/-- R449: the command's descriptor is read and the snapshot taken; then the stripes go out piece by piece. -/
def execCheckpointStart (s : State) : Out :=
  let p := s.args.part
  .next (match (s.part p).ckpt with
    | some c => s.ckptStep p c
    | none =>
      if !(s.part p).ckWait then s else
      let r := s.ckptBegin p (fld s.args.w 47 6 * 64)
      if r.2 then r.1.again .checkpointStart else r.1)

/-- A member has acknowledged all that was sent to it. -/
def State.memberQuiet (s : State) (p m : Nat) : Bool :=
  (s.part p).links.all fun l => l.2.msgs.all fun x => x.core ≠ ckptCore m

/-- A member's header (R449). -/
def Checkpoint.head (c : Checkpoint) (m : Nat) : List Byte :=
  bytesOf 8 (c.desc.extractLsb' 192 64) ++ bytesOf 8 (BitVec.ofNat 64 c.ts) ++ bytesOf 8 (BitVec.ofNat 64 c.total) ++
    [BitVec.ofNat 8 c.g, BitVec.ofNat 8 m, BitVec.ofNat 8 (fld c.desc 27 24)] ++ List.replicate 37 0

/-- R449: the header of a member whose units are all acknowledged; the last one ends the checkpoint. A checkpoint that
failed writes no header. -/
def execCheckpointMemberDone (s : State) : Out :=
  let p := s.args.part
  let m := s.args.n
  .next (match (s.part p).ckpt with
    | none => s
    | some c =>
      let fin := fun (s : State) (st : Nat) => match s.ckptEnd p c st with
        | (s, true) => s.onPart p fun x => { x with links := x.links.map fun l =>
            (l.1, { l.2 with msgs := l.2.msgs.filter fun y => y.core.slice ≠ 16 }) }
        | (s, false) => s
      if c.faulted then s
      else if c.over then fin s c.status
      else if c.piece < c.stripes * c.pieces || !s.memberQuiet p m then s
      else if c.headed.contains m then
        let c' := { c with done := if c.done.contains m then c.done else c.done ++ [m] }
        let s := s.onPart p fun x => { x with ckpt := some c' }
        if (List.range c.g).all c'.done.contains then fin s c.status else s
      else if !s.memberRoom p c m 1 then s
      else (s.ckptHead p c m (c.head m)).ckpt p s fun _ s => s.onCkpt p fun c => { c with headed := c.headed ++ [m] })

end Sys2Proof.Machine
end

