-- ==== Sys2Proof/Machine/Net.lean ====
section
/-! DEFINITION. Packets that arrive at a slice's port (R435, R436, R439 to R446). -/

namespace Sys2Proof.Machine

/-! ### Receipt (R435, R440, R441) -/

/-- A frame dropped and counted. -/
def State.netDrop (s : State) (sl : Nat) : State :=
  s.onSlice sl fun y => { y with portstat := setFld y.portstat 47 32 (Nat.min (fld y.portstat 47 32 + 1) 0xFFFF) }

/-- The form of R440's second check. -/
def packetFormed (k : Packet) : Bool :=
  k.ver = 1 && 1 ≤ k.op.toNat && k.op.toNat ≤ 8 && k.reserved = 0 && decide (k.len.toNat ≤ 4096) &&
  k.payload.length = (if k.op = 2 then 0 else k.len.toNat)

/-- What a packet's step works on: partition, port, link and peer entry, packet. -/
structure Arrival where
  part : Nat
  port : Nat
  link : Nat
  entry : BitVec 512
  k : Packet

/-- The checks of the peer entry, in order (R440); `bit` is the bit of it that the operation needs. -/
def State.letPass (s : State) (self_ : Instr) (p sl idx : Nat) (k : Packet) (bit : Option Nat) (go : Arrival → State → State) :
    State :=
  let peer := peerOf idx
  let refuse := fun (s : State) => s.answer p sl idx 7 2 (s.rpeer p peer) k.psn
  let s := s.readPeer p peer
  if s.peerWaits p peer then s.again self_
  else match s.peerEntry p peer with
  | none => refuse s
  | some e =>
    if fld e 55 32 ≠ k.snode.toNat then refuse s
    else if match bit with
        | some b => !e.getLsbD b
        | none => false then refuse s
    else go ⟨p, sl, idx, e, k⟩ (s.acknowledged p sl idx k.ackpsn)

/-- A frame's checks, in order (R435, R440), for a packet of operation `op`. A sleeping slice's port buffers a frame and wakes
it (R462). Answers go back to the port that sent it. -/
def State.arrive (s : State) (self_ : Instr) (op : Nat) (bit : Option Nat) (go : Arrival → State → State) : State :=
  let sl := s.args.slice
  let f := s.args.frame
  let k := f.packet
  match (s.slice sl).owner with
  | none => s.netDrop sl
  | some p =>
    if !s.portLive sl then s
    else if !s.addressed p sl f then s.netDrop sl
    else if (s.slice sl).power ≠ 0 then
      (s.again self_).rouse sl .frame
    else if !(s.part p).netOn || k.crc ≠ packetSum k then s
    else if !packetFormed k then s.netDrop sl
    else if k.op.toNat ≠ op then s
    else
      let idx := linkTo k.dpeer.toNat f.sip
      (s.onLink p sl idx fun l => { l with dmac := f.smac }).letPass self_ p sl idx k bit go

/-- The first PSN that a link lacks moves past those received. -/
def Link.settle (l : Link) : Link :=
  forN l.rxSet.length (fun _ l =>
    if l.rxSet.contains (l.rxPsn + 1) then { l with rxPsn := l.rxPsn + 1, rxSet := l.rxSet.erase (l.rxPsn + 1) } else l) l

/-- A packet with a PSN of its own is received: an ACK, or NAK GAP when an earlier one lacks. -/
def State.receipt (s : State) (a : Arrival) : State :=
  let l := s.link a.part a.port a.link
  let s :=
    if seqLe a.k.psn l.rxPsn || l.rxSet.contains a.k.psn then s
    else s.onLink a.part a.port a.link fun l => { l with rxSet := l.rxSet ++ [a.k.psn] }.settle
  if (s.link a.part a.port a.link).rxSet.isEmpty then s.sendAck a.part a.port a.link a.k.psn
  else s.answer a.part a.port a.link 7 1 (a.entry.extractLsb' 64 16) a.k.psn

/-! ### Messages, applied once and in order (R443, R444) -/

/-- What performing a message comes to: done, refused with a NAK reason, or not yet. -/
inductive MsgEnd where
  | done (s : State)
  | refused (reason : Nat) (s : State)
  | wait (s : State)

/-- The MSN that the receiver performs next. -/
def Link.turn (l : Link) : BitVec 32 := l.applied + 1 + BitVec.ofNat 32 l.performed.length

/-- The message whose turn it is is performed, and counts for APPLIED; so does one that is refused (DEDUCED, log 99). -/
def State.takeTurn (s : State) (a : Arrival) (perform : Arrival → State → MsgEnd) : State :=
  let l := s.link a.part a.port a.link
  if a.k.msn ≠ l.turn || l.heldMsgs.all fun h => h.msn ≠ a.k.msn then s
  else
    let pass := fun (s : State) => s.onLink a.part a.port a.link fun l =>
      { l with heldMsgs := l.heldMsgs.filter fun h => h.msn ≠ a.k.msn, performed := l.performed ++ [a.k.msn] }
    match perform a s with
    | .done s => pass s
    | .refused r s => (pass s).answer a.part a.port a.link 7 r (a.entry.extractLsb' 64 16) a.k.psn
    | .wait s => s

/-- A message is received, once, and held until its turn. -/
def State.takeMsg (s : State) (a : Arrival) (perform : Arrival → State → MsgEnd) : State :=
  let l := s.link a.part a.port a.link
  let old := seqLe a.k.msn l.applied || l.performed.contains a.k.msn || l.heldMsgs.any fun h => h.msn = a.k.msn
  ((if old then s
    else s.onLink a.part a.port a.link fun l => { l with heldMsgs := l.heldMsgs ++ [a.k] }).receipt a).takeTurn a perform

/-- A message that the receiver holds is taken up again (`half`, on link `line`), by its peer's entry as it stands now: without one it
is refused. -/
def State.heldTurn (s : State) (op : Nat) (perform : Arrival → State → MsgEnd) : State :=
  let sl := s.args.slice
  let idx := s.args.line
  match (s.slice sl).owner with
  | none => s
  | some p =>
    let l := s.link p sl idx
    match l.heldMsgs.find? fun k => k.msn = l.turn && k.op.toNat = op with
    | none => s
    | some k =>
      let s := s.readPeer p (peerOf idx)
      if (s.slice sl).power ≠ 0 || s.peerWaits p (peerOf idx) then s
      else match s.peerEntry p (peerOf idx) with
        | some e => s.takeTurn ⟨p, sl, idx, e, k⟩ perform
        | none => s.takeTurn ⟨p, sl, idx, 0, k⟩ fun _ s => .refused 2 s

/-- A message arrives, or one that is held is taken up. -/
def State.message (s : State) (self_ : Instr) (op : Nat) (bit : Option Nat) (perform : Arrival → State → MsgEnd) : State :=
  if s.args.half then s.heldTurn op perform
  else s.arrive self_ op bit fun a s => s.takeMsg a perform

/-- The context in which the peer's accesses are translated. -/
def Arrival.ask (a : Arrival) (kind : Nat) : Ask := ⟨a.part, fld a.entry 19 8, kind, false⟩

/-- Bytes of a message, where it has any, written at their homes as an engine writes: its lines are free, or it waits. Poisoned
bytes do not reach host memory (R18); a versioned line without a sequencer refuses them (R134). -/
def State.netWrite (s : State) (a : Arrival) (bs : List (Option Byte)) (poison : Bool) : MsgEnd :=
  match s.translateNow (a.ask Kind.engWrite) a.k.raddr with
  | .flt _ _ s => .refused 3 s
  | .held s => .wait s
  | .lost s => .refused 2 s
  | .ok t ppa s =>
    let x := s.part a.part
    match x.space ppa with
    | .host =>
      if !x.hostLinked then .wait s
      else .done ((if poison then s.poisonAt a.part a.port ppa else s).hostPut ppa (bs.map fun b => b.map fun b => (b, poison)))
    | .mem =>
      let ls := lineParts ppa bs.length
      if ls.any fun l => x.lost l.1 then .refused 2 s
      else if x.seqLost && (t.ver || ls.any fun l => s.chain a.part l.1 ≠ .none) then .refused 2 s
      else if ls.any fun l => s.memHold a.part l.1 a.k.raddr true ≠ .none then .wait (s.knockRange a.part ppa bs.length)
      else if !s.canCommit a.part (ls.map (·.1)) then .wait (s.stall a.part (ls.map (·.1)))
      else
        match ls.foldl (fun (acc : Option State) l => match acc with
          | none => none
          | some s =>
            let part := List.replicate (l.1 % 64) none ++ (bs.drop l.2.1).take l.2.2
            let mask := presentMask (part.map fun b => b.map fun b => (b, poison))
            if mask = 0 then some s
            else match s.putLine a.part t.key (l.1 / 64 * 64) t.ver (part.map (·.getD 0)) mask poison t.coh with
              | .ok s => some s
              | _ => none) (some s) with
        | some s => .done (if poison then s.poisonPassed a.part ppa else s)
        | none => .wait s
    | _ => .refused 3 s

/-- R444. -/
def execNetPut (s : State) : Out :=
  .next (s.message .netPut 1 (some 21) fun a s => s.netWrite a (a.k.payload.map some) a.k.poison)

/-- The bytes that a GETREQ asks for, read line by line, with their poison, which is reported; LOST bytes count as poisoned. -/
def State.netRead (s : State) (a : Arrival) (n : Nat) : EngOut (List EngByte) :=
  (engMap (fun l s =>
    let gva := BitVec.ofNat 64 l.1
    match s.devRead (a.ask Kind.engRead) .plain gva l.2.2 with
    | .ok b p s =>
      let bad := p || s.spoilt 6 ⟨a.port, 0⟩
      let s := if p then (match s.translateNow (a.ask Kind.engRead) gva with
        | .ok _ ppa _ => s.poisonPassed a.part ppa
        | _ => s) else s
      EngOut.ok (b.map fun b => (b, bad)) (s.received 6 ⟨a.port, 0⟩)
    | .flt c d s => .flt { cause := c, detail := d } s
    | .wait s => .wait s
    | .lost s => .ok (List.replicate l.2.2 (0, true)) s) (lineParts a.k.raddr.toNat n) s).bind fun ls s => .ok ls.flatten s

/-- R444: LEN of a GETREQ is the length asked; the GETRSP carries the MSN of the message it answers. -/
def execNetGetreq (s : State) : Out :=
  .next (s.message .netGetreq 2 (some 20) fun a s =>
    if 256 ≤ (s.link a.part a.port a.link).window.length then .wait s
    else match s.netRead a a.k.len.toNat with
      | .flt _ s => .refused 3 s
      | .wait s => .wait s
      | .full p => .wait (s.poolFull p)
      | .lost s => .refused 2 s
      | .ok bs s =>
        let h := s.header a.part a.port a.link 3 (a.entry.extractLsb' 64 16)
        .done (s.sendPacket a.part a.port a.link ⟨{ h with
          msn := a.k.msn, raddr := BitVec.ofNat 64 a.k.len.toNat, len := a.k.len, poison := bs.any (·.2)
          payload := bs.map (·.1) }, 0, ⟨17, 0⟩, a.k.raddr.toNat, none⟩))

/-- R444: the answer to a GETREQ reaches the request, which writes it when the line is released. -/
def execNetGetrsp (s : State) : Out :=
  .next (s.arrive .netGetrsp 3 none fun a s =>
    let s := s.receipt a
    match (s.link a.part a.port a.link).msgs.find? fun m => m.msn = a.k.msn with
    | none => s
    | some m =>
      let s := s.onLink a.part a.port a.link fun l => { l with msgs := l.msgs.filter fun x => x.msn ≠ a.k.msn }
      s.onEng m.core fun r =>
        if r.req.gets then
          let got := oset r.got m.msg (a.k.payload, a.k.poison)
          { r with got := got, applied := ((List.range r.req.messages.length).find? fun i => (oget got i).isNone).getD r.req.messages.length }
        else r)

/-- Bytes of an element that lie in a poisoned line. -/
def State.redPoison (s : State) (p ppa n i : Nat) : Bool := s.anyPoison p (ppa + n * i) n

/-- The bytes that a RED leaves: each whole element combined with what stands there, but those that `skip` names; of an element
that the message holds only in part the bytes are free values (DESIGN CHOICE, log 154). -/
def State.redBytes (s : State) (c : AtomCtx) (n : Nat) (old new : List Byte) (skip : Nat → Bool) : List (Option Byte) :=
  ((List.range (new.length / n)).flatMap fun i =>
    let at_ := fun (l : List Byte) => natOfBytes ((l.drop (n * i)).take n)
    if skip i then List.replicate n none
    else (bytesOf n (BitVec.ofNat 64 (c.combine (at_ old) (at_ new)))).map some) ++
  (List.range (new.length % n)).map fun i => some (BitVec.ofNat 8 (s.draw (960 + i)))

/-- The reduction of a RED: an operation that R350 allows on the type, and its width; others perform nothing (log 154). -/
def redOf (k : Packet) : Option (AtomCtx × Nat) :=
  match redOp k.redop.toNat with
  | some o =>
    let n := typeBits k.rtype.toNat / 8
    if o.takes k.rtype.toNat && k.rtype ≠ 0x08 && k.rtype ≠ 0x09 && n ≠ 0 then some (⟨o, k.rtype.toNat, 0, false, 8 * n⟩, n) else none
  | none => none

/-- R444: each element is performed as a reduction; on a poisoned line it is not performed (R121). In host memory only what
R120 lets the host perform is. -/
def execNetRed (s : State) : Out :=
  .next (s.message .netRed 4 (some 21) fun a s =>
    match redOf a.k, s.translateNow (a.ask Kind.engWrite) a.k.raddr with
    | none, _ => .done s
    | _, .flt _ _ s => .refused 3 s
    | _, .held s => .wait s
    | _, .lost s => .refused 2 s
    | some (c, n), .ok t ppa s' =>
      let len := a.k.payload.length
      match (s'.part a.part).space ppa with
      | .mem =>
        let s' := (lineParts ppa len).foldl (fun s l => s.recallHc none a.part (l.1 / 64)) s'
        let old := (lineParts ppa len).flatMap fun l => (s'.homeRead a.part t.key l.1 l.2.2 .plain).1
        match s'.netWrite a (s'.redBytes c n old a.k.payload (s'.redPoison a.part ppa n)) a.k.poison with
        | .done u => .done ((lineParts ppa len).foldl (fun u l =>
            if s'.poisoned a.part l.1 then u.poisonNotice a.part l.1 else u) u)
        | e => e
      | .host =>
        if !c.op.atHost || n < 4 then .refused 3 s'
        else s'.netWrite a (s'.redBytes c n (s'.hostRead ppa len) a.k.payload fun _ => false) a.k.poison
      | _ => .refused 3 s')

/-! ### Remote launch (R446) -/

/-- PCAP of the sender's valid ACL entry. -/
def State.aclEntry (s : State) (p acl node : Nat) : Option Nat :=
  if s.rangeState p acl 512 false = .ready then
    (List.range 64).findSome? fun i =>
      let e : W64 := valOfBytes 64 (s.readRange p (acl + 8 * i) 8)
      if e.getLsbD 0 && fld e 31 8 = node then some (fld e 2 1) else none
  else none

/-- The image with its lap, and its PRIO cut to PCAP. -/
def launchImage (lap pcap : Nat) (bs : List Byte) : List Byte :=
  let k : BitVec 512 := valOfBytes 512 bs
  let k := setFld k 15 0 lap
  bytesOf 64 (if pcap < fld k 21 20 then setFld k 21 20 pcap else k)

/-- Every page of a queue's ring translates as a store in its context. -/
def State.ringStores (s : State) (p : Nat) (x : Queue) : EngOut Unit :=
  (engMap (fun i s =>
    match s.translateNow (x.ask p Kind.store) (x.ring + BitVec.ofNat 64 (4096 * i)) with
    | .ok _ _ s => EngOut.ok () s
    | .flt c d s => .flt { cause := c, detail := d } s
    | .held s => .wait s
    | .lost s => .lost s) (List.range ((64 * x.size + 4095) / 4096)) s).bind fun _ s => .ok () s

/-- A refusal with an error record, whose ring index is all ones. -/
def State.refuseLaunch (s : State) (p q reason : Nat) : MsgEnd :=
  match s.errRecordAt p q (BitVec.allOnes 64) reason with
  | .ok s => .refused 4 s
  | .error s => .wait s

/-- The reserve, copy and notify of R237 for a sender whose cap is `cap`. -/
def State.launchInto (s : State) (p q cap : Nat) (payload : List Byte) : MsgEnd :=
  let x := s.queueOf p q
  let ra := (s.part p).rsvAddr q
  match s.ringStores p x with
  | .flt _ s => .refused 3 s
  | .wait s => .wait s
  | .full p => .wait (s.poolFull p)
  | .lost s => .refused 2 s
  | .ok _ s =>
    if s.rangeState p ra 8 true ≠ .ready then .wait (s.stallRange p ra 8)
    else
      let i : W64 := valOfBytes 64 (s.readRange p ra 8)
      let s := s.readLines p ra 8
      if x.size ≤ (i - x.qrd).toNat then s.refuseLaunch p q 11
      else
        let slot := x.ring + BitVec.ofNat 64 (64 * (i.toNat % x.size))
        match s.gvaWrite (x.ask p Kind.store) slot (launchImage (i.toNat / x.size % 65536) cap payload) with
        | .wait s => .wait s
        | .flt _ _ _ => .refused 3 s
        | .lost s => .refused 2 s
        | .ok _ _ s => .done ((s.writeRange p ra (bytesOf 8 (i + 1))).onPart p fun y => y.notify q (i + 1))

/-- R446: reserve, copy and notify as R237 does, in the queue's context. -/
def State.netLaunch (s : State) (a : Arrival) : MsgEnd :=
  let p := a.part
  let q := a.k.raddr.toNat
  let x := s.queueOf p q
  let acl := fld x.entry 319 256
  if fld (s.part p).qtbase 57 48 < q || !x.en then .refused 4 s
  else if acl = 0 then s.refuseLaunch p q 10
  else if s.rangeState p acl 512 false = .waits then .wait (s.knockRange p acl 512)
  else
    let cap := s.aclEntry p acl a.k.snode.toNat
    let s := if s.rangeState p acl 512 false = .ready then s.readLines p acl 512 else s
    match cap with
    | none => s.refuseLaunch p q 10
    | some cap => s.launchInto p q cap a.k.payload

/-- R446. -/
def execNetLaunch (s : State) : Out :=
  .next (s.message .netLaunch 5 (some 21) fun a s =>
    if a.k.len = 64 then s.netLaunch a else .refused 4 s)

/-! ### Acknowledgements (R441, R442) -/

/-- Messages up to APPLIED are applied at the peer; GETs wait for their answers. -/
def State.appliedUpTo (s : State) (a : Arrival) (n : BitVec 32) : State :=
  let l := s.link a.part a.port a.link
  if seqLe n l.aPeer then s
  else
    let gets := fun (m : SentMsg) => match (s.core m.core).eng with
      | some r => m.core.slice ≠ 16 && r.req.gets
      | none => false
    let gone := l.msgs.filter fun m => seqLe m.msn n && !gets m
    let s := s.onLink a.part a.port a.link fun l => { l with aPeer := n, msgs := l.msgs.filter fun m => !gone.contains m }
    gone.foldl (fun s m => if m.core.slice = 16 then s else s.onEng m.core fun r => { r with applied := r.applied + 1 }) s

/-- Bytes that can no longer be read, sent as poison (DESIGN CHOICE, log 156). -/
def gone (n : Nat) : List EngByte := List.replicate n (0, true)

/-- What a checkpoint sends at an offset of a member's region: its header, or a piece of a unit. -/
def State.ckptAgain (s : State) (p : Nat) (m off n : Nat) : EngOut (List EngByte) :=
  match (s.part p).ckpt with
  | none => .ok (gone n) s
  | some c =>
    if off = 0 then .ok ((c.head m).map fun b => (b, false)) s
    else
      let t := (off - 4096) / c.unit
      (s.ckptPieces p c t ((off - 4096) % c.unit / 4096)).bind fun ds s =>
        .ok (((c.place t ds).find? (·.1 = m)).map (·.2) |>.getD (gone n)) s

/-- A request's message read again; one whose request has ended has no fault to take. -/
def State.engAgain (s : State) (w : SentPacket) : EngOut (List EngByte) :=
  match w.req.bind fun q => (q.messages.drop w.msg).head?.map fun m => (q, m) with
  | none => .ok (gone w.packet.len.toNat) s
  | some (q, m) =>
    match s.engPayload q m with
    | .lost s => .ok (gone m.2.2) (s.engStatus w.core 1)
    | .flt f s' => if (s.core w.core).eng.any fun r => r.req = q && !r.ended then .flt f s' else .ok (gone m.2.2) s
    | r => r

/-- The payload of a message, built again from its source (R442). -/
def State.rebuild (s : State) (p sl idx : Nat) (w : SentPacket) : EngOut (List EngByte) :=
  let n := w.packet.len.toNat
  if w.packet.op = 3 then
    match s.peerEntry p (peerOf idx) with
    | none => .ok (gone n) s
    | some e => match s.netRead ⟨p, sl, idx, e, { w.packet with raddr := BitVec.ofNat 64 w.msg }⟩ n with
      | .flt _ _ => .ok (gone n) s
      | r => r
  else if w.core.slice = 16 then s.ckptAgain p w.core.core w.msg n
  else s.engAgain w

/-- A rebuilt message goes out under its MSN and a new PSN. -/
def State.sendAgain (s : State) (p sl idx : Nat) (w : SentPacket) (bs : List EngByte) : State :=
  (s.onLink p sl idx fun l => { l with
    redo := l.redo.drop 1
    msgs := if w.packet.op = 3 then l.msgs
      else l.msgs.map fun m => if m.msn = w.packet.msn then { m with psn := l.psn + 1 } else m }).sendPacket p sl idx
    { w with packet := { w.packet with payload := bs.map (·.1), poison := w.packet.op ≠ 5 && bs.any (·.2) } }

/-- Messages of a link are built again while its window has room; one whose source cannot be read yet waits, one whose source
faults stops its request. -/
def State.redo (s : State) (p sl idx : Nat) : State :=
  forN (s.link p sl idx).redo.length (fun _ s =>
    match (s.link p sl idx).redo.head? with
    | none => s
    | some w =>
      if 256 ≤ (s.link p sl idx).window.length then s
      else match s.rebuild p sl idx w with
        | .ok bs t => t.sendAgain p sl idx w bs
        | .wait t => s.knocked t
        | .full q => s.poolFull q
        | .lost _ => s.sendAgain p sl idx w (gone w.packet.len.toNat)
        | .flt f _ =>
          if w.core.slice = 16 then (if (s.part p).ckpt.any (·.faulted) then s else s.ckptFault p f)
          else if (s.core w.core).eng.any (·.faulted) then s else s.engStop w.core f) s

/-- R441: APPLIED, and the messages that wait for room to be built again. -/
def execNetAck (s : State) : Out :=
  .next (s.arrive .netAck 6 none fun a s => (s.appliedUpTo a a.k.msn).redo a.part a.port a.link)

/-- R441: a gap is filled from the replay entries; another reason ends the request whose packet it names, and no later message of
it is awaited. `half` marks a replay entry, number `n`, that fails its CRC check (R442). -/
def execNetNak (s : State) : Out :=
  .next (s.arrive .netNak 7 none fun a s =>
    if a.k.redop = 1 then
      (s.resend a.part a.port a.link (a.k.ackpsn + 1) fun i => s.args.half && i = s.args.n).redo a.part a.port a.link
    else match (s.link a.part a.port a.link).msgs.find? fun m => m.psn = a.k.psn with
      | none => s
      | some m =>
        (s.onLink a.part a.port a.link fun l => { l with
          msgs := l.msgs.filter fun x => x.core ≠ m.core || x.msg < m.msg
          redo := l.redo.filter fun w => w.core ≠ m.core || w.msg < m.msg }).endRemote a.part m.core fun _ => m.msg)

/-- R442: the PSN counts as received. -/
def execNetSkip (s : State) : Out := .next (s.arrive .netSkip 8 none fun a s => s.receipt a)

/-- R441: RTO has passed with no acknowledgement on a link; `half` and `n` as for a NAK, `line` the link. -/
def execRetransmitTimeout (s : State) : Out :=
  let sl := s.args.slice
  let idx := s.args.line
  .next (match (s.slice sl).owner with
    | none => s
    | some p => (match (s.link p sl idx).window with
      | [] => s
      | w :: _ => s.resend p sl idx w.packet.psn fun i => s.args.half && i = s.args.n).redo p sl idx)

/-- R443, R444: APPLIED passes the messages performed, and an ACK carries it. -/
def execAppliedAdvance (s : State) : Out :=
  let sl := s.args.slice
  let idx := s.args.line
  .next (match (s.slice sl).owner with
    | none => s
    | some p =>
      let l := s.link p sl idx
      if l.performed.isEmpty then s
      else
        let n := l.applied + BitVec.ofNat 32 l.performed.length
        (s.onLink p sl idx fun l => { l with applied := n, performed := [] }).sendAck p sl idx l.rxPsn)

/-! ### The link (R436) -/

/-- R436: UP and RATE change, readiness follows (R460), and source kind 3 is raised. -/
def execLinkStateChange (s : State) : Out :=
  let sl := s.args.slice
  let s := s.onSlice sl fun y => { y with
    portstat := setFld (setFld y.portstat 0 0 s.args.up.toNat) 1 1 s.args.half.toNat
    srdy := if s.args.up then y.srdy ||| 0x20 else y.srdy &&& 0x1F }
  .next (match (s.slice sl).owner with
    | some p => s.interrupt p sl 3
    | none => s)

end Sys2Proof.Machine
end

