-- ==== Sys2Proof/Machine/Storage.lean ====
section
/-! DEFINITION. The host link (R450 to R453) and flash storage (R454 to R456). -/

namespace Sys2Proof.Machine

/-! ### The host window (R451, R452) -/

/-- A write of a partition-wide register: ignored while its function is not ready (R460). -/
def State.wideWrite (s : State) (p off : Nat) (w : W64) : State :=
  if s.regReady (.window p (s.part p).lowest off) then s.partWrite p off w else s

/-- R451. -/
def execHdmwinWrite (s : State) : Out := .next (s.wideWrite s.args.part 0x0360 s.args.w)

/-- A PPA lies in the exposed window. -/
def Partition.exposed (x : Partition) (ppa : Nat) : Bool :=
  x.hdmwin.getLsbD 0 && !x.hdmStop &&
    let b := fld x.hdmwin 39 30 * 2 ^ 30
    b ≤ ppa && ppa < b + Nat.min (fld x.hdmwin 50 40) 1024 * 2 ^ 30

/-- The entry of a line in the snoop filters. -/
def State.snooped (s : State) (p ln : Nat) : Option (Nat × Nat × Bool) :=
  s.slices.findSome? fun y => y.snoop.find? fun e => e.1 = p && e.2.1 = ln

/-- The host's copy of a line is recorded in the snoop filter of its home, the most recent last. -/
def State.recordHost (s : State) (p ln : Nat) (own : Bool) : State :=
  s.onSlice ((s.part p).home (64 * ln)) fun y =>
    { y with snoop := (y.snoop.filter fun e => !(e.1 = p && e.2.1 = ln)) ++ [(p, ln, own)] }

/-- A host write reaches the home: a versioned line commits (R142). -/
def State.hostStore (s : State) (p ppa : Nat) (v : BitVec 512) : WriteEnd :=
  s.putLine p 0 (ppa / 64 * 64) false (bytesOf 64 v) (BitVec.allOnes 64) false

/-- A new line needs room in the snoop filter of a home: a full one asks the host for the line recorded least recently (R452). -/
def State.snoopRoom (s : State) (p ln : Nat) : Bool :=
  (s.snooped p ln).isSome || decide ((s.slice ((s.part p).home (64 * ln))).snoop.length < 65536)

def State.askOldest (s : State) (h : Nat) : State :=
  s.onSlice h fun y => { y with snoopOut := y.snoopOut.or ((y.snoop.head?).map fun e => (e.1, e.2.1)) }

/-- A host read of a line, which the host then caches, to modify it if `hot`. A versioned line is held in no copy outside its home
(R137). -/
def State.hostFetch (s : State) (p ppa : Nat) (hot : Bool) : State :=
  let ln := ppa / 64
  let agent : CoreKey := ⟨(s.part p).home ppa, 0⟩
  if s.poisoned p ppa || s.badCopy p ln then s.poisonNotice p ppa
  else if s.spoilt 7 agent then s.received 7 agent
  else
    let s := ((if hot || s.chain p ppa ≠ .none then s.recallHc none p ln else s.shareHc p ln).served p ppa 0)
    if s.chain p ppa ≠ .none then s else s.recordHost p ln hot

/-- R452: `store` none is a read of a line; otherwise a write. A request that finds a full filter waits until the host has given up
the oldest line. -/
def execHostRequest (s : State) : Out :=
  let p := s.args.part
  let q := s.args.host
  let x := s.part p
  let ln := q.ppa / 64
  .next (if Config.linkHolder ≠ some p || !x.exposed q.ppa || x.space q.ppa ≠ .mem || x.lost q.ppa then s
    else if s.homeHold p q.ppa 0 ≠ .none || s.claimed p q.ppa then (s.knock p q.ppa).again .hostRequest
    else match q.store with
      | some v =>
        match s.hostStore p q.ppa v with
        | .ok s => s.onSlice (x.home q.ppa) fun y => { y with snoop := y.snoop.filter fun e => !(e.1 = p && e.2.1 = ln) }
        | .lost => s
        | .pool s _ => s.again .hostRequest
        | _ => s.again .hostRequest
      | none =>
        if s.chain p q.ppa = .none && !s.snoopRoom p ln then (s.askOldest (x.home q.ppa)).again .hostRequest
        else s.hostFetch p q.ppa s.args.hot)

/-- R452: the host answers for a line, with its data if it held the line modified; a HDMWIN write that waited for the last
answer takes effect. -/
def execBiResponse (s : State) : Out :=
  let p := s.args.part
  let ln := s.args.line
  .next (match s.snooped p ln with
    | none => s
    | some e =>
      let done := fun (s : State) =>
        let s := { s with slices := s.slices.map fun (y : Slice) => { y with
          snoop := y.snoop.filter fun e => !(e.1 = p && e.2.1 = ln)
          snoopOut := y.snoopOut.filter (· ≠ (p, ln)) } }
        let s := if (s.part p).hdmStop && s.slices.all fun y => y.snoop.all (·.1 ≠ p) then
            s.onPart p fun y => { y with hdmStop := false, hdmwin := y.hdmwin &&& ~~~1 }
          else s
        s.wake fun i h => h = .host && i.key.blk.part = p
      match if e.2.2 then s.args.data else none with
      | none => done s
      | some v =>
        if s.homeHold p (64 * ln) 0 ≠ .none then (s.knock p (64 * ln)).again .biResponse
        else match s.hostStore p (64 * ln) v with
          | .ok s => done s
          | .lost => done s
          | .pool s _ => s.again .biResponse
          | _ => s.again .biResponse)

/-- R450. -/
def execHostLinkEvent (s : State) : Out :=
  .next (match Config.linkHolder with
    | some p => if (s.part? p).isSome then s.interrupt p (s.part p).lowest 5 else s
    | none => s)

/-! ### The flash ring (R454, R455) -/

/-- R454. -/
def execFldb (s : State) : Out := .next (s.wideWrite s.args.part 0x0388 s.args.w)

/-- R454. -/
def execFlringWrite (s : State) : Out := .next (s.wideWrite s.args.part 0x0380 s.args.w)

def Partition.flSize (x : Partition) : Nat := 2 ^ ringLog x.flring

def Partition.flAddr (x : Partition) (i : Nat) : Nat := fld x.flring 47 12 * 4096 + 64 * (i % x.flSize)

/-- The controller may read an entry. -/
def Partition.flReady (x : Partition) : Bool := x.flring.getLsbD 0 && !x.flStop && x.prdy.getLsbD 0 && decide (x.flcons.toNat < x.fldb.toNat)

/-- STATUS is written to entry `i`, bit 7 with a code; `none` while the write waits. -/
def State.flStatus (s : State) (p i code : Nat) : Option State :=
  let a := (s.part p).flAddr i + 1
  match s.rangeState p a 1 true with
  | .waits => none
  | .fails => some s
  | _ => some (s.writeRange p a [BitVec.ofNat 8 (128 + code)])

/-- The interrupt of a completion (R29). -/
def State.flIrq (s : State) (p : Nat) : State := s.interrupt p (fld (s.part p).flring 63 60) 4

/-- R455: an entry that cannot be read ends with STATUS POISON (R19). -/
def execFlashEntryRead (s : State) : Out :=
  let p := s.args.part
  let x := s.part p
  let i := x.flcons.toNat
  .next (if !x.flReady then s
    else
      let next := fun (s : State) => s.onPart p fun y => { y with flcons := y.flcons + 1 }
      match s.rangeState p (x.flAddr i) 64 false with
      | .waits => s.knockRange p (x.flAddr i) 64
      | .ready =>
        let e : BitVec 512 := valOfBytes 512 (s.readRange p (x.flAddr i) 64)
        (next (s.readLines p (x.flAddr i) 64)).onPart p fun y => { y with flReqs := y.flReqs ++ [⟨i, e⟩] }
      | _ => match s.flStatus p i 5 with
        | some s => (next s).flIrq p
        | none => s.stallRange p (x.flAddr i + 1) 1)

/-! ### Flash requests (R456) -/

def FlashReq.op (r : FlashReq) : Nat := fld r.entry 3 0
def FlashReq.count (r : FlashReq) : Nat := fld r.entry 23 16 + 1
def FlashReq.lba (r : FlashReq) : Nat := fld r.entry 111 64
def FlashReq.buf (r : FlashReq) : W64 := r.entry.extractLsb' 128 64

/-- The block ranges of two requests overlap. -/
def FlashReq.overlaps (a b : FlashReq) : Bool := decide (a.lba < b.lba + b.count) && decide (b.lba < a.lba + a.count)

/-- RESERVED, then RANGE; 0 if the request is performed. -/
def FlashReq.check (r : FlashReq) (cap : Nat) : Nat :=
  let e := r.entry
  if fld e 7 4 ≠ 0 || fld e 31 24 ≠ 0 || fld e 127 112 ≠ 0 || fld e 511 192 ≠ 0 || r.op = 0 || 4 ≤ r.op then 1
  else if cap < r.lba + r.count || (r.op ≠ 3 && r.buf.toNat % 4096 ≠ 0) then 2
  else 0

/-- Key of byte `i` of a partition's block. -/
def flashIx (p b i : Nat) : Nat := (p * 2 ^ 48 + b) * 4096 + i

def State.onFlash (s : State) (f : Module → Module) : State := { s with mtc := f s.mtc }

/-- What a transfer comes to: its status, or it waits, as a whole, for a record of a pool where one is named (R146). -/
inductive FlashEnd where
  | ended (status : Nat) (s : State)
  | wait (full : Option Nat) (s : State)

/-- One line of a READ, written as an engine writes; poison does not reach host memory (R18). -/
def State.flashLine (s : State) (a : Ask) (gva : W64) (bs : List Byte) (bad : Bool) : EngOut Unit :=
  let ask := { a with kind := Kind.engWrite }
  ((s.translateNow ask gva).memory ask gva).bind fun x s =>
    let t := x.1
    let ppa := x.2
    if (s.part a.part).space ppa = .host then
      .ok () (if bad then s.poisonAt a.part (s.part a.part).lowest ppa else s.hostWrite ppa bs)
    else
      (s.putMask a.part t.key ppa t.ver bs (BitVec.allOnes 64) bad t.coh).eng (s.knock a.part ppa) a.part fun s =>
        .ok () (if bad then s.poisonPassed a.part ppa else s)

/-- Blocks copied to BUF, in order; blocks already copied stay copied when one fails. -/
def State.flashRead (s : State) (a : Ask) (r : FlashReq) : List Nat → Nat → FlashEnd
  | [], st => .ended st s
  | b :: bs, st =>
    let blk := r.lba + b
    let bad := mget false s.mtc.flashPoison (a.part * 2 ^ 48 + blk)
    match engMap (fun i s => s.flashLine a (r.buf + BitVec.ofNat 64 (4096 * b + 64 * i))
        ((List.range 64).map fun j => mget 0 s.mtc.flash (flashIx a.part blk (64 * i + j))) bad) (List.range 64) s with
    | .ok _ s => flashRead s a r bs (if bad then 5 else st)
    | .flt _ s => .ended 3 s
    | .lost s => .ended 5 s
    | .full p => .wait (some p) s
    | .wait t => .wait none t

/-- A line of BUF; poison that it holds is reported (R19). -/
def State.flashLoad (s : State) (a : Ask) (gva : W64) : EngOut (List EngByte) :=
  let ask := { a with kind := Kind.engRead }
  match s.devRead ask .plain gva 64 with
  | .ok b p s =>
    .ok (b.map fun x => (x, p)) (match if p then s.translateNow ask gva else .held s with
      | .ok _ ppa _ => s.poisonPassed a.part ppa
      | _ => s)
  | .flt c d s => .flt { cause := c, detail := d } s
  | .wait s => .wait s
  | .lost s => .lost s

/-- A WRITE that has read poison stores its blocks poisoned: those of its `n` first that it has copied. -/
def State.flashBad (s : State) (p : Nat) (r : FlashReq) (n st : Nat) : State :=
  if st ≠ 5 then s
  else s.onFlash fun m => { m with
    flashPoison := (List.range n).foldl (fun f i => mset false f (p * 2 ^ 48 + r.lba + i) true) m.flashPoison }

/-- Blocks copied from BUF, in order. -/
def State.flashWrite (s : State) (a : Ask) (r : FlashReq) : List Nat → Nat → FlashEnd
  | [], st => .ended st (s.flashBad a.part r r.count st)
  | b :: bs, st =>
    let blk := r.lba + b
    match engMap (fun i s => s.flashLoad a (r.buf + BitVec.ofNat 64 (4096 * b + 64 * i))) (List.range 64) s with
    | .ok ls s =>
      let data := ls.flatten
      flashWrite (s.onFlash fun m => { m with
        flash := data.zipIdx.foldl (fun f x => mset 0 f (flashIx a.part blk x.2) x.1.1) m.flash
        flashPoison := mset false m.flashPoison (a.part * 2 ^ 48 + blk) false }) a r bs (if data.any (·.2) then 5 else st)
    | .flt _ s => .ended 3 (s.flashBad a.part r b st)
    | .lost s => .ended 5 (s.flashBad a.part r b st)
    | .full p => .wait (some p) s
    | .wait t => .wait none t

/-- TRIM: the blocks read as zero. -/
def State.flashTrim (s : State) (p : Nat) (r : FlashReq) : State :=
  let lo := p * 2 ^ 48 + r.lba
  s.onFlash fun m => { m with
    flash := mdrop (fun k => lo ≤ k / 4096 && k / 4096 < lo + r.count) m.flash
    flashPoison := mdrop (fun k => lo ≤ k && k < lo + r.count) m.flashPoison }

/-- One request performed; `media` is a failure of the medium. -/
def State.flashRun (s : State) (p : Nat) (r : FlashReq) (media : Bool) : FlashEnd :=
  let c := r.check (Config.flashExtent p).toNat
  let a : Ask := ⟨p, fld (s.part p).flring 59 48, Kind.engRead, false⟩
  if c ≠ 0 then .ended c s
  else if media then .ended 4 s
  else if r.op = 1 then s.flashRead a r (List.range r.count) 0
  else if r.op = 2 then s.flashWrite a r (List.range r.count) 0
  else .ended 0 (s.flashTrim p r)

/-- R456: request number `n` of those read ends, if no earlier one overlaps it; `half` marks a failure of the medium. A
clear of EN that waited for the last one takes effect. -/
def execFlashComplete (s : State) : Out :=
  let p := s.args.part
  let x := s.part p
  .next (match (x.flReqs.drop s.args.n).head? with
    | none => s
    | some r =>
      if (x.flReqs.take s.args.n).any r.overlaps then s
      else match s.flashRun p r s.args.half with
        | .wait f t => f.elim (s.knocked t) s.poolFull
        | .ended st s' => match s'.flStatus p r.index st with
          | none => s.stallRange p ((s.part p).flAddr r.index + 1) 1
          | some s =>
            let s := s.flIrq p
            s.onPart p fun y =>
              let rest := y.flReqs.eraseIdx s.args.n
              if y.flStop && rest.isEmpty then { y with flReqs := rest, flStop := false, flring := y.flring &&& ~~~1 }
              else { y with flReqs := rest })

end Sys2Proof.Machine
end

