-- ==== Sys2Proof/Machine/Power.lean ====
section
/-! DEFINITION. Bring-up (R457, R460) and power states (R461 to R463). -/

namespace Sys2Proof.Machine

/-! ### Bring-up -/

/-- The partitions that the module configuration names are formed. -/
def State.bootParts (s : State) : State :=
  Config.bootForms.foldl (fun s f => (s.form (fld f.1 11 8) (f.1.extractLsb' 16 16) f.2.1).2) s

/-- R457: `ok` says that firmware and configuration pass their checks; otherwise every shutter stays sealed. -/
def execPowerOn (s : State) : Out :=
  .next (if s.mtc.on then s
    else
      let s := { s with mtc := { s.mtc with on := true, verified := s.args.ok } }
      if s.args.ok then s.bootParts else s)

/-- R457: after a failed check a new image is accepted, `ok` if it verifies. -/
def execBootImageLoad (s : State) : Out :=
  .next (if !s.mtc.on || s.mtc.verified || !s.args.ok then s
    else State.bootParts { s with mtc := { s.mtc with verified := true } })

/-- A hold that a slice which wakes, or a function that is ready, ends: of an access at slice `n`, or of a table walk. -/
def Hold.readied (h : Hold) (n : Option Nat) : Bool :=
  match h with
  | .ready m => n.all (· = m)
  | .walk => true
  | _ => false

/-- R460: a function is ready; accesses held for it go on. Nothing is while the module is off (R463). -/
def execReadiness (s : State) : Out :=
  if !s.mtc.on then .next s else
  let s := match s.args.ready with
    | .slice sl b => s.onSlice sl fun y => { y with srdy := y.srdy ||| (1#6 <<< b) }
    | .part p b => s.onPart p fun y => { y with prdy := y.prdy ||| (1#4 <<< b) }
  .next (s.wake fun _ h => h.readied none)

/-! ### Power states -/

/-- R461: no group, no copy request, no command that involves it, as a member of the partition or as the slice named, and every host
core in WFI; one that was never started waits too. -/
def State.idleSlice (s : State) (sl : Nat) : Bool :=
  (s.allGroups.all fun g => g.state = .none || g.state = .saved || g.info.slice ≠ sl) &&
  (s.cores.all fun c => c.key.slice ≠ sl || (c.engQ.isEmpty && c.eng.isNone)) &&
  (match s.mtc.run with
    | some r => r.slice ≠ sl && !(s.part r.src).mask.getLsbD sl && !(s.part r.dst).mask.getLsbD sl
    | none => true) &&
  (s.slice sl).hcores.all fun h => !h.2.online || h.2.wfi

/-- The deepest state whose exit latency is within a tolerance in ns. -/
def deepest (tol : Nat) : Nat := if 150000 ≤ tol then 3 else if 20000 ≤ tol then 2 else if 1000 ≤ tol then 1 else 0

/-- Cores of a slice that trace. -/
def State.coresIn (s : State) (sl : Nat) : List CoreKey :=
  ((List.range (Config.clusters * Config.coresPerCluster)).filter (traced (s.slice sl).trctl ·)).map (⟨sl, ·⟩)

/-- R461, R374: an idle slice goes into a deeper state than it is in. -/
def execPowerStateEnter (s : State) : Out :=
  let sl := s.args.slice
  .next (match (s.slice sl).owner with
    | none => s
    | some p =>
      let n := deepest (fld (s.part p).ltol 31 0)
      let old := (s.slice sl).power.toNat
      if n ≤ old || (s.slice sl).waking || !s.idleSlice sl then s
      else
        let s := if old = 0 then (s.coresIn sl).foldl (fun s k => s.emitFreq k 0) s else s
        let s := s.onSlice sl fun y => { y with power := BitVec.ofNat 2 n }
        if n = 1 then s
        else { s with cores := s.cores.map fun c => if c.key.slice = sl then { c with bslots := [], tslots := [] } else c })

/-- R462. -/
def execPowerWake (s : State) : Out :=
  .next (s.onSlice s.args.slice fun y => if y.power = 0 then y else { y with waking := true })

/-- R462: the slice is in S0, and the requests that wait go on. -/
def execWakeComplete (s : State) : Out :=
  let sl := s.args.slice
  .next (if !(s.slice sl).waking then s
    else
      let s := s.onSlice sl fun y => { y with power := 0, waking := false }
      let s := (s.coresIn sl).foldl (fun s k => s.emitFreq k s.mtc.clock) s
      s.wake fun _ h => h.readied (some sl))

/-- R463: one step of 100 MHz, down while a limit is passed (`hot`), up again once the cause clears. -/
def execThermalStep (s : State) : Out :=
  let old := s.mtc.clock
  let new := if s.args.hot then (if 100 < old then old - 100 else old) else Nat.min 1900 (old + 100)
  .next (if new = old || !s.mtc.on then s
    else
      let s := { s with mtc := { s.mtc with clock := new } }
      let awake := s.slices.filter (·.power = 0)
      let s := (awake.flatMap fun y => s.coresIn y.id).foldl (fun s k => s.emitFreq k new) s
      (s.slices.filter fun y => y.owner.isSome).foldl (fun s y => s.interrupt y.part.toNat y.id 6) s)

/-- The writes to flash that were accepted are finished (R456). -/
def State.holdUp (s : State) : State :=
  s.parts.foldl (fun s x => x.flReqs.foldl (fun s r =>
    if r.op ≠ 2 then s
    else match s.flashRun x.id r false with
      | .ended _ s => s
      | .wait _ _ => s) s) s

/-- R456, R463: everything goes but flash and the MTC's protected store (R458). -/
def execPowerLoss (s : State) : Out :=
  let s := s.holdUp
  .next { State.reset with
    mtc := { Module.reset with flash := s.mtc.flash, flashPoison := s.mtc.flashPoison, attest := s.mtc.attest }
    hostMem := s.hostMem, free := s.free, agenda := [] }

end Sys2Proof.Machine
end

