-- ==== Sys2Proof/Machine/Uniform.lean ====
section
/-! DEFINITION. Uniform integer instructions (R302 to R305). -/

namespace Sys2Proof.Machine

/-- A uniform operation on 64-bit values with flags (R302): flags under MODE.CCW, never when `silent`. -/
def State.uniOp (s : State) (op : EltOp) (silent readsD : Bool) (d : BitVec 6) (us : List Nat) (a b : W64) : Res :=
  let flags := s.ccw && !silent
  let dv := if readsD then (s.uread 2 d.toNat).toNat else 0
  let e := op i64 false { a := a.toNat, b := b.toNat, d := dv, cin := false }
  s.guardAll { us := d.toNat :: us, fl := flags } true
    (.ok (s.uniform d (BitVec.ofNat 64 e.val) (if flags then some (resultCodes 64 e.val e.c e.v) else none)).advance)

/-- The shape of the U3 functions with three registers. -/
def State.uni3 (s : State) (op : EltOp) (d a b : BitVec 6) : Res :=
  s.uniOp op false false d [a.toNat, b.toNat] (s.uread 0 a.toNat) (s.uread 1 b.toNat)

/-- The shape of the functions with one source. -/
def State.uni2 (s : State) (op : EltOp) (silent : Bool) (d a : BitVec 6) : Res :=
  s.uniOp op silent false d [a.toNat] (s.uread 0 a.toNat) 0

/-- `scmp` writes only flags. -/
def State.uniCmp (s : State) (a b : BitVec 6) : Res :=
  s.guardAll { us := [a.toNat, b.toNat], fl := true } true
    (.ok (s.flwrite (cmpCodes 64 (s.uread 0 a.toNat).toNat (s.uread 1 b.toNat).toNat)).advance)

/-- `ssel` selects by GUARD over the uniform flags. -/
def State.uniSel (s : State) (d a b : BitVec 6) : Res :=
  s.guardAll { us := [d.toNat, a.toNat, b.toNat], fl := s.guardReads } true
    (.ok (s.uniform d (if condHolds (modeGuard s.mode) (s.flread 0) then s.uread 0 a.toNat else s.uread 1 b.toNat)
      none).advance)

/-- R302. -/
def execSadd (d a b : BitVec 6) (s : State) : Out := (s.uni3 eltAdd d a b).out

/-- R302. -/
def execSsub (d a b : BitVec 6) (s : State) : Out := (s.uni3 eltSub d a b).out

/-- R302. -/
def execSmul (d a b : BitVec 6) (s : State) : Out := (s.uni3 eltMul d a b).out

/-- R302. -/
def execSmulh (d a b : BitVec 6) (s : State) : Out := (s.uni3 eltMulh d a b).out

/-- R303. -/
def execSdiv (d a b : BitVec 6) (s : State) : Out := (s.uni3 eltSdiv d a b).out

/-- R303. -/
def execSrem (d a b : BitVec 6) (s : State) : Out := (s.uni3 eltSrem d a b).out

/-- R302. -/
def execSand (d a b : BitVec 6) (s : State) : Out := (s.uni3 eltAnd d a b).out

/-- R302. -/
def execSor (d a b : BitVec 6) (s : State) : Out := (s.uni3 eltOr d a b).out

/-- R302. -/
def execSxor (d a b : BitVec 6) (s : State) : Out := (s.uni3 eltXor d a b).out

/-- R302, R294. -/
def execSshl (d a b : BitVec 6) (s : State) : Out := (s.uni3 eltShl d a b).out

/-- R302, R294. -/
def execSshr (d a b : BitVec 6) (s : State) : Out := (s.uni3 eltSshr d a b).out

/-- R302, R294. -/
def execSsra (d a b : BitVec 6) (s : State) : Out := (s.uni3 eltShr d a b).out

/-- R302. -/
def execSmin (d a b : BitVec 6) (s : State) : Out := (s.uni3 eltMin d a b).out

/-- R302. -/
def execSmax (d a b : BitVec 6) (s : State) : Out := (s.uni3 eltMax d a b).out

/-- R302. -/
def execScmp (a b : BitVec 6) (s : State) : Out := (s.uniCmp a b).out

/-- R302. -/
def execSsel (d a b : BitVec 6) (s : State) : Out := (s.uniSel d a b).out

/-- R302. -/
def execSmov (d a : BitVec 6) (s : State) : Out := (s.uniOp eltSecond true false d [a.toNat] 0 (s.uread 0 a.toNat)).out

/-- R302. -/
def execSpopc (d a : BitVec 6) (s : State) : Out := (s.uni2 eltPopc false d a).out

/-- R302. -/
def execSclz (d a : BitVec 6) (s : State) : Out := (s.uni2 eltClz false d a).out

/-- R304. -/
def execSbfe (d a b : BitVec 6) (s : State) : Out := (s.uni3 eltSbfe d a b).out

/-- R304. -/
def execSbfi (d a b : BitVec 6) (s : State) : Out := (s.uniOp eltBfi false true d [a.toNat, b.toNat] (s.uread 0 a.toNat) (s.uread 1 b.toNat)).out

/-- R305. -/
def execSaddi (d a : BitVec 6) (i : BitVec 12) (s : State) : Out := (s.uniOp eltAdd false false d [a.toNat] (s.uread 0 a.toNat) (i.signExtend 64)).out

/-- R305. -/
def execSmovl (d : BitVec 6) (lit : BitVec 32) (s : State) : Out := (s.uniOp eltSecond true false d [] 0 (lit.signExtend 64)).out

/-- R305. -/
def execSmovh (d : BitVec 6) (lit : BitVec 32) (s : State) : Out := (s.uniOp eltSecond true false d [] 0 (lit ++ (s.uread 0 d.toNat).setWidth 32)).out

end Sys2Proof.Machine
end

