-- ==== Sys2Proof/Machine/VecInt.lean ====
section
/-! DEFINITION. Vector integer instructions (R286 to R301). -/

namespace Sys2Proof.Machine

/-! ### Forms (R286, R290 to R296) -/

def addForm : VecForm := { types := eltTypes, op := eltAdd }
def adcForm : VecForm := { types := wholeTypes, op := eltAdc, carry := true }
def subForm : VecForm := { types := eltTypes, op := eltSub }
def sbbForm : VecForm := { types := wholeTypes, op := eltSbb, carry := true }
def mulForm : VecForm := { types := eltTypes, op := eltMul }
def mulhForm : VecForm := { types := eltTypes, op := eltMulh }
def madForm : VecForm := { types := eltTypes, op := eltMad, readsD := true }
def absdiffForm : VecForm := { types := eltTypes, op := eltAbsdiff }
def andForm : VecForm := { types := bitTypes, op := eltAnd }
def orForm : VecForm := { types := bitTypes, op := eltOr }
def xorForm : VecForm := { types := bitTypes, op := eltXor }
def andnForm : VecForm := { types := bitTypes, op := eltAndn }
def shlForm : VecForm := { types := eltTypes, op := eltShl, shift := true }
def shrForm : VecForm := { types := eltTypes, op := eltShr, shift := true }
def rolForm : VecForm := { types := eltTypes, op := eltRol, shift := true }
def rorForm : VecForm := { types := eltTypes, op := eltRor, shift := true }
def minForm : VecForm := { types := eltTypes, op := eltMin }
def maxForm : VecForm := { types := eltTypes, op := eltMax }
def popcForm : VecForm := { types := eltTypes, op := eltPopc }
def clzForm : VecForm := { types := eltTypes, op := eltClz }
def brevForm : VecForm := { types := eltTypes, op := eltBrev }
def bfeForm : VecForm := { types := wholeTypes, op := eltBfe }
def bfiForm : VecForm := { types := wholeTypes, op := eltBfi, readsD := true }
def absForm : VecForm := { types := eltTypes, op := eltAbs }
def negForm : VecForm := { types := eltTypes, op := eltNeg }
def movForm : VecForm := { types := bitTypes, op := eltSecond, noCodes := true }
def moviForm : VecForm := { types := eltTypes, op := eltSecond, noCodes := true }

/-! ### Shapes of their own -/

/-- One source (R290, R295). -/
def State.vecUn (s : State) (fm : VecForm) (d a : BitVec 7) : Res := s.vecOp fm d a (.v a)

/-- The operation of `shifti` (R257). -/
def shiftOf (o : BitVec 2) : VecForm :=
  if o = 0 then shlForm else if o = 1 then shrForm else if o = 2 then rolForm else rorForm

/-- `sel` writes every lane of the fragment (R299). -/
def State.vecSel (s : State) (d a : BitVec 7) (b : Src) : Res :=
  let t := bitTy s.ty
  let wide := s.wideTy
  let lw := if wide then 64 else 32
  let evens := if wide then d.toNat :: a.toNat :: b.vregs false else []
  s.guardAll { vs := regs wide d ++ regs wide a ++ b.vregs wide, us := b.uregs, evens := evens, cc := s.guardReads }
    (bitTypes s.ty)
    (.ok (s.putLanes s.frag.mask wide d false fun l =>
      (if condHolds (modeGuard s.mode) (s.ccread 0 l) then s.vreg wide 0 a l
       else (laneElts t lw fun j => ⟨s.src wide 1 b t.w l j, false, false⟩).val, 0)).advance)

/-- `mov` copies a lane or pair (R300). -/
def State.vecMov (s : State) (d a : BitVec 7) : Res :=
  let wide := s.wideTy
  let evens := if wide then [d.toNat, a.toNat] else []
  s.guardAll { vs := regs wide d ++ regs wide a, evens := evens, cc := s.guardReads } (bitTypes s.ty)
    (.ok (s.putLanes s.active wide d false fun l => (s.vreg wide 0 a l, 0)).advance)

/-- `movi` writes the immediate into every sub-element (R300). -/
def State.vecMovi (s : State) (d : BitVec 7) (i : BitVec 10) : Res :=
  let t := bitTy s.ty
  let wide := s.wideTy
  let lw := if wide then 64 else 32
  s.guardAll { vs := regs wide d, evens := if wide then [d.toNat] else [], cc := s.guardReads } (eltTypes s.ty)
    (.ok (s.putLanes s.active wide d false fun l =>
      ((laneElts t lw fun j => ⟨s.src wide 1 (.i i) t.w l j, false, false⟩).val, 0)).advance)

/-- `ext` widens sub-element 0, or the lane (R297). -/
def State.vecExt (s : State) (d a : BitVec 7) : Res :=
  let t := bitTy s.ty
  let wide := s.wideTy
  let from_ : IntTy := { t with w := Nat.min t.w 32 }
  let lw := if wide then 64 else 32
  s.guardAll { vs := regs wide d ++ [a.toNat], evens := if wide then [d.toNat] else [], cc := s.guardReads || s.ccw }
    (eltTypes s.ty)
    (.ok (s.putLanes s.active wide d s.ccw fun l =>
      let v := wrap lw (from_.read ((s.vread 0 a.toNat l).toNat % 2 ^ from_.w))
      (v, resultCodes lw v false false)).advance)

/-- `dot4` (R292). -/
def State.vecDot4 (s : State) (d a b : BitVec 7) : Res :=
  let t := bitTy s.ty
  let lane : IntTy := ⟨32, t.signed⟩
  s.guardAll { vs := [d.toNat, a.toNat, b.toNat], cc := s.guardReads || s.ccw } (s.ty = 0 || s.ty = 4)
    (.ok (s.putLanes s.active false d s.ccw fun l =>
      let av := (s.vread 0 a.toNat l).toNat
      let bv := (s.vread 1 b.toNat l).toNat
      let x := (List.range 4).foldl (fun x j =>
        x + t.read (av / 2 ^ (8 * j) % 256) * t.read (bv / 2 ^ (8 * j) % 256)) (lane.read (s.vread 2 d.toNat l).toNat)
      let e := lane.narrow s.sat x false
      (e.val, resultCodes 32 e.val e.c e.v)).advance)


/-! ### Meanings -/

/-- R290. -/
def execAdd (d a b : BitVec 7) (s : State) : Out := (s.vecOp addForm d a (.v b)).out

/-- R291. -/
def execAdc (d a b : BitVec 7) (s : State) : Out := (s.vecOp adcForm d a (.v b)).out

/-- R290. -/
def execSub (d a b : BitVec 7) (s : State) : Out := (s.vecOp subForm d a (.v b)).out

/-- R291. -/
def execSbb (d a b : BitVec 7) (s : State) : Out := (s.vecOp sbbForm d a (.v b)).out

/-- R290. -/
def execMul (d a b : BitVec 7) (s : State) : Out := (s.vecOp mulForm d a (.v b)).out

/-- R290. -/
def execMulh (d a b : BitVec 7) (s : State) : Out := (s.vecOp mulhForm d a (.v b)).out

/-- R290. -/
def execMad (d a b : BitVec 7) (s : State) : Out := (s.vecOp madForm d a (.v b)).out

/-- R290. -/
def execAbsdiff (d a b : BitVec 7) (s : State) : Out := (s.vecOp absdiffForm d a (.v b)).out

/-- R293. -/
def execAnd (d a b : BitVec 7) (s : State) : Out := (s.vecOp andForm d a (.v b)).out

/-- R293. -/
def execOr (d a b : BitVec 7) (s : State) : Out := (s.vecOp orForm d a (.v b)).out

/-- R293. -/
def execXor (d a b : BitVec 7) (s : State) : Out := (s.vecOp xorForm d a (.v b)).out

/-- R293. -/
def execAndn (d a b : BitVec 7) (s : State) : Out := (s.vecOp andnForm d a (.v b)).out

/-- R294. -/
def execShl (d a b : BitVec 7) (s : State) : Out := (s.vecOp shlForm d a (.v b)).out

/-- R294. -/
def execShr (d a b : BitVec 7) (s : State) : Out := (s.vecOp shrForm d a (.v b)).out

/-- R294. -/
def execRol (d a b : BitVec 7) (s : State) : Out := (s.vecOp rolForm d a (.v b)).out

/-- R294. -/
def execRor (d a b : BitVec 7) (s : State) : Out := (s.vecOp rorForm d a (.v b)).out

/-- R290. -/
def execMin (d a b : BitVec 7) (s : State) : Out := (s.vecOp minForm d a (.v b)).out

/-- R290. -/
def execMax (d a b : BitVec 7) (s : State) : Out := (s.vecOp maxForm d a (.v b)).out

/-- R298. -/
def execCmp (a b : BitVec 7) (s : State) : Out := (s.vecCmp cmpCodes a (.v b)).out

/-- R298. -/
def execTest (a b : BitVec 7) (s : State) : Out := (s.vecCmp testCodes a (.v b)).out

/-- R299. -/
def execSel (d a b : BitVec 7) (s : State) : Out := (s.vecSel d a (.v b)).out

/-- R300. -/
def execMov (d a : BitVec 7) (s : State) : Out := (s.vecMov d a).out

/-- R295. -/
def execPopc (d a : BitVec 7) (s : State) : Out := (s.vecUn popcForm d a).out

/-- R295. -/
def execClz (d a : BitVec 7) (s : State) : Out := (s.vecUn clzForm d a).out

/-- R295. -/
def execBrev (d a : BitVec 7) (s : State) : Out := (s.vecUn brevForm d a).out

/-- R296. -/
def execBfe (d a b : BitVec 7) (s : State) : Out := (s.vecOp bfeForm d a (.v b)).out

/-- R296. -/
def execBfi (d a b : BitVec 7) (s : State) : Out := (s.vecOp bfiForm d a (.v b)).out

/-- R290. -/
def execAbs (d a : BitVec 7) (s : State) : Out := (s.vecUn absForm d a).out

/-- R290. -/
def execNeg (d a : BitVec 7) (s : State) : Out := (s.vecUn negForm d a).out

/-- R297. -/
def execExt (d a : BitVec 7) (s : State) : Out := (s.vecExt d a).out

/-- R292. -/
def execDot4 (d a b : BitVec 7) (s : State) : Out := (s.vecDot4 d a b).out

/-- R290, R257. -/
def execAddi (d a : BitVec 7) (i : BitVec 10) (s : State) : Out := (s.vecOp addForm d a (.i i)).out

/-- R290, R257. -/
def execMuli (d a : BitVec 7) (i : BitVec 10) (s : State) : Out := (s.vecOp mulForm d a (.i i)).out

/-- R294, R257. -/
def execShifti (d a : BitVec 7) (o : BitVec 2) (n : BitVec 6) (s : State) : Out := (s.vecOp (shiftOf o) d a (.i (n.setWidth 10))).out

/-- R298, R257. -/
def execCmpi (a : BitVec 7) (i : BitVec 10) (s : State) : Out := (s.vecCmp cmpCodes a (.i i)).out

/-- R300, R257. -/
def execMovi (d : BitVec 7) (i : BitVec 10) (s : State) : Out := (s.vecMovi d i).out

/-- R290, R287. -/
def execAddU (d a : BitVec 7) (b : BitVec 6) (s : State) : Out := (s.vecOp addForm d a (.u b)).out

/-- R290, R287. -/
def execSubU (d a : BitVec 7) (b : BitVec 6) (s : State) : Out := (s.vecOp subForm d a (.u b)).out

/-- R290, R287. -/
def execMulU (d a : BitVec 7) (b : BitVec 6) (s : State) : Out := (s.vecOp mulForm d a (.u b)).out

/-- R290, R287. -/
def execMadU (d a : BitVec 7) (b : BitVec 6) (s : State) : Out := (s.vecOp madForm d a (.u b)).out

/-- R293, R287. -/
def execAndU (d a : BitVec 7) (b : BitVec 6) (s : State) : Out := (s.vecOp andForm d a (.u b)).out

/-- R293, R287. -/
def execOrU (d a : BitVec 7) (b : BitVec 6) (s : State) : Out := (s.vecOp orForm d a (.u b)).out

/-- R293, R287. -/
def execXorU (d a : BitVec 7) (b : BitVec 6) (s : State) : Out := (s.vecOp xorForm d a (.u b)).out

/-- R294, R287. -/
def execShlU (d a : BitVec 7) (b : BitVec 6) (s : State) : Out := (s.vecOp shlForm d a (.u b)).out

/-- R294, R287. -/
def execShrU (d a : BitVec 7) (b : BitVec 6) (s : State) : Out := (s.vecOp shrForm d a (.u b)).out

/-- R290, R287. -/
def execMinU (d a : BitVec 7) (b : BitVec 6) (s : State) : Out := (s.vecOp minForm d a (.u b)).out

/-- R290, R287. -/
def execMaxU (d a : BitVec 7) (b : BitVec 6) (s : State) : Out := (s.vecOp maxForm d a (.u b)).out

/-- R298, R287. -/
def execCmpU (a : BitVec 7) (b : BitVec 6) (s : State) : Out := (s.vecCmp cmpCodes a (.u b)).out

/-- R299, R287. -/
def execSelU (d a : BitVec 7) (b : BitVec 6) (s : State) : Out := (s.vecSel d a (.u b)).out

end Sys2Proof.Machine
end

