-- ==== Sys2Proof/Machine/Dispatch.lean ====
section
/-! DEFINITION. The meaning of each instruction: one arm for each row of the opcode table. -/

namespace Sys2Proof.Machine

def exec (i : Instr) (s : State) : Host.Outcome State Fault Refusal :=
  match i with
  | .nop => Sys2Proof.Machine.execNop s
  | .exit => Sys2Proof.Machine.execExit s
  | .trap imm => Sys2Proof.Machine.execTrap imm s
  | .brk imm => Sys2Proof.Machine.execBrk imm s
  | .yield => Sys2Proof.Machine.execYield s
  | .sleep imm => Sys2Proof.Machine.execSleep imm s
  | .eret => Sys2Proof.Machine.execEret s
  | .setm d imm lit => Sys2Proof.Machine.execSetm d imm lit s
  | .getm d => Sys2Proof.Machine.execGetm d s
  | .movsr d imm => Sys2Proof.Machine.execMovsr d imm s
  | .movrs a imm => Sys2Proof.Machine.execMovrs a imm s
  | .ldovt b => Sys2Proof.Machine.execLdovt b s
  | .rdovt d => Sys2Proof.Machine.execRdovt d s
  | .bra o => Sys2Proof.Machine.execBra o s
  | .brc c o => Sys2Proof.Machine.execBrc c o s
  | .brl d o => Sys2Proof.Machine.execBrl d o s
  | .jmp b => Sys2Proof.Machine.execJmp b s
  | .jal d b => Sys2Proof.Machine.execJal d b s
  | .ret b => Sys2Proof.Machine.execRet b s
  | .brv c o => Sys2Proof.Machine.execBrv c o s
  | .rcv => Sys2Proof.Machine.execRcv s
  | .join => Sys2Proof.Machine.execJoin s
  | .loop c a n => Sys2Proof.Machine.execLoop c a n s
  | .loopi c imm n => Sys2Proof.Machine.execLoopi c imm n s
  | .brkl imm => Sys2Proof.Machine.execBrkl imm s
  | .rdlc d imm => Sys2Proof.Machine.execRdlc d imm s
  | .wrlc imm b => Sys2Proof.Machine.execWrlc imm b s
  | .add d a b => Sys2Proof.Machine.execAdd d a b s
  | .adc d a b => Sys2Proof.Machine.execAdc d a b s
  | .sub d a b => Sys2Proof.Machine.execSub d a b s
  | .sbb d a b => Sys2Proof.Machine.execSbb d a b s
  | .mul d a b => Sys2Proof.Machine.execMul d a b s
  | .mulh d a b => Sys2Proof.Machine.execMulh d a b s
  | .mad d a b => Sys2Proof.Machine.execMad d a b s
  | .absdiff d a b => Sys2Proof.Machine.execAbsdiff d a b s
  | .and d a b => Sys2Proof.Machine.execAnd d a b s
  | .or d a b => Sys2Proof.Machine.execOr d a b s
  | .xor d a b => Sys2Proof.Machine.execXor d a b s
  | .andn d a b => Sys2Proof.Machine.execAndn d a b s
  | .shl d a b => Sys2Proof.Machine.execShl d a b s
  | .shr d a b => Sys2Proof.Machine.execShr d a b s
  | .rol d a b => Sys2Proof.Machine.execRol d a b s
  | .ror d a b => Sys2Proof.Machine.execRor d a b s
  | .min d a b => Sys2Proof.Machine.execMin d a b s
  | .max d a b => Sys2Proof.Machine.execMax d a b s
  | .cmp a b => Sys2Proof.Machine.execCmp a b s
  | .test a b => Sys2Proof.Machine.execTest a b s
  | .sel d a b => Sys2Proof.Machine.execSel d a b s
  | .mov d a => Sys2Proof.Machine.execMov d a s
  | .popc d a => Sys2Proof.Machine.execPopc d a s
  | .clz d a => Sys2Proof.Machine.execClz d a s
  | .brev d a => Sys2Proof.Machine.execBrev d a s
  | .bfe d a b => Sys2Proof.Machine.execBfe d a b s
  | .bfi d a b => Sys2Proof.Machine.execBfi d a b s
  | .abs d a => Sys2Proof.Machine.execAbs d a s
  | .neg d a => Sys2Proof.Machine.execNeg d a s
  | .ext d a => Sys2Proof.Machine.execExt d a s
  | .dot4 d a b => Sys2Proof.Machine.execDot4 d a b s
  | .addi d a imm => Sys2Proof.Machine.execAddi d a imm s
  | .muli d a imm => Sys2Proof.Machine.execMuli d a imm s
  | .shifti d a o n => Sys2Proof.Machine.execShifti d a o n s
  | .cmpi a imm => Sys2Proof.Machine.execCmpi a imm s
  | .movi d imm => Sys2Proof.Machine.execMovi d imm s
  | .addU d a b => Sys2Proof.Machine.execAddU d a b s
  | .subU d a b => Sys2Proof.Machine.execSubU d a b s
  | .mulU d a b => Sys2Proof.Machine.execMulU d a b s
  | .madU d a b => Sys2Proof.Machine.execMadU d a b s
  | .andU d a b => Sys2Proof.Machine.execAndU d a b s
  | .orU d a b => Sys2Proof.Machine.execOrU d a b s
  | .xorU d a b => Sys2Proof.Machine.execXorU d a b s
  | .shlU d a b => Sys2Proof.Machine.execShlU d a b s
  | .shrU d a b => Sys2Proof.Machine.execShrU d a b s
  | .minU d a b => Sys2Proof.Machine.execMinU d a b s
  | .maxU d a b => Sys2Proof.Machine.execMaxU d a b s
  | .cmpU a b => Sys2Proof.Machine.execCmpU a b s
  | .faddU d a b => Sys2Proof.Machine.execFaddU d a b s
  | .fmulU d a b => Sys2Proof.Machine.execFmulU d a b s
  | .fmacU d a b => Sys2Proof.Machine.execFmacU d a b s
  | .selU d a b => Sys2Proof.Machine.execSelU d a b s
  | .fadd d a b => Sys2Proof.Machine.execFadd d a b s
  | .fsub d a b => Sys2Proof.Machine.execFsub d a b s
  | .fmul d a b => Sys2Proof.Machine.execFmul d a b s
  | .fmac d a b => Sys2Proof.Machine.execFmac d a b s
  | .fmsc d a b => Sys2Proof.Machine.execFmsc d a b s
  | .fmin d a b => Sys2Proof.Machine.execFmin d a b s
  | .fmax d a b => Sys2Proof.Machine.execFmax d a b s
  | .fcmp a b => Sys2Proof.Machine.execFcmp a b s
  | .fabs d a => Sys2Proof.Machine.execFabs d a s
  | .fneg d a => Sys2Proof.Machine.execFneg d a s
  | .fclass d a => Sys2Proof.Machine.execFclass d a s
  | .frnd d a => Sys2Proof.Machine.execFrnd d a s
  | .fcopysign d a b => Sys2Proof.Machine.execFcopysign d a b s
  | .faddp d a b => Sys2Proof.Machine.execFaddp d a b s
  | .fsubp d a b => Sys2Proof.Machine.execFsubp d a b s
  | .fmulp d a b => Sys2Proof.Machine.execFmulp d a b s
  | .fmaxp d a b => Sys2Proof.Machine.execFmaxp d a b s
  | .fminp d a b => Sys2Proof.Machine.execFminp d a b s
  | .fdotp d a b => Sys2Proof.Machine.execFdotp d a b s
  | .fpack d a b => Sys2Proof.Machine.execFpack d a b s
  | .funpack d a => Sys2Proof.Machine.execFunpack d a s
  | .frcp d a => Sys2Proof.Machine.execFrcp d a s
  | .frsq d a => Sys2Proof.Machine.execFrsq d a s
  | .fsqrt d a => Sys2Proof.Machine.execFsqrt d a s
  | .fexp2 d a => Sys2Proof.Machine.execFexp2 d a s
  | .flog2 d a => Sys2Proof.Machine.execFlog2 d a s
  | .fsin d a => Sys2Proof.Machine.execFsin d a s
  | .fcos d a => Sys2Proof.Machine.execFcos d a s
  | .ftanh d a => Sys2Proof.Machine.execFtanh d a s
  | .cvt d a imm => Sys2Proof.Machine.execCvt d a imm s
  | .cvtsr d a imm => Sys2Proof.Machine.execCvtsr d a imm s
  | .cvtsrSeed a => Sys2Proof.Machine.execCvtsrSeed a s
  | .shflIdx d a b => Sys2Proof.Machine.execShflIdx d a b s
  | .shflUp d a imm => Sys2Proof.Machine.execShflUp d a imm s
  | .shflDn d a imm => Sys2Proof.Machine.execShflDn d a imm s
  | .shflXor d a imm => Sys2Proof.Machine.execShflXor d a imm s
  | .qswap d a q y => Sys2Proof.Machine.execQswap d a q y s
  | .lred d a n o => Sys2Proof.Machine.execLred d a n o s
  | .scan d a e n o => Sys2Proof.Machine.execScan d a e n o s
  | .vote d a m => Sys2Proof.Machine.execVote d a m s
  | .ballot d a => Sys2Proof.Machine.execBallot d a s
  | .rdlane d a imm => Sys2Proof.Machine.execRdlane d a imm s
  | .wrlane d a imm => Sys2Proof.Machine.execWrlane d a imm s
  | .bcast d a imm => Sys2Proof.Machine.execBcast d a imm s
  | .matchLane d a => Sys2Proof.Machine.execMatchLane d a s
  | .elect d => Sys2Proof.Machine.execElect d s
  | .lid d => Sys2Proof.Machine.execLid d s
  | .qid d => Sys2Proof.Machine.execQid d s
  | .sadd d a b => Sys2Proof.Machine.execSadd d a b s
  | .ssub d a b => Sys2Proof.Machine.execSsub d a b s
  | .smul d a b => Sys2Proof.Machine.execSmul d a b s
  | .smulh d a b => Sys2Proof.Machine.execSmulh d a b s
  | .sdiv d a b => Sys2Proof.Machine.execSdiv d a b s
  | .srem d a b => Sys2Proof.Machine.execSrem d a b s
  | .sand d a b => Sys2Proof.Machine.execSand d a b s
  | .sor d a b => Sys2Proof.Machine.execSor d a b s
  | .sxor d a b => Sys2Proof.Machine.execSxor d a b s
  | .sshl d a b => Sys2Proof.Machine.execSshl d a b s
  | .sshr d a b => Sys2Proof.Machine.execSshr d a b s
  | .ssra d a b => Sys2Proof.Machine.execSsra d a b s
  | .smin d a b => Sys2Proof.Machine.execSmin d a b s
  | .smax d a b => Sys2Proof.Machine.execSmax d a b s
  | .scmp a b => Sys2Proof.Machine.execScmp a b s
  | .ssel d a b => Sys2Proof.Machine.execSsel d a b s
  | .smov d a => Sys2Proof.Machine.execSmov d a s
  | .spopc d a => Sys2Proof.Machine.execSpopc d a s
  | .sclz d a => Sys2Proof.Machine.execSclz d a s
  | .sbfe d a b => Sys2Proof.Machine.execSbfe d a b s
  | .sbfi d a b => Sys2Proof.Machine.execSbfi d a b s
  | .saddi d a imm => Sys2Proof.Machine.execSaddi d a imm s
  | .smovl d lit => Sys2Proof.Machine.execSmovl d lit s
  | .smovh d lit => Sys2Proof.Machine.execSmovh d lit s
  | .ld t o b n r => Sys2Proof.Machine.execLd t o b n r s
  | .st t o b n r => Sys2Proof.Machine.execSt t o b n r s
  | .ldx t o b n r lit => Sys2Proof.Machine.execLdx t o b n r lit s
  | .stx t o b n r lit => Sys2Proof.Machine.execStx t o b n r lit s
  | .ldl t o b n r => Sys2Proof.Machine.execLdl t o b n r s
  | .stl t o b n r => Sys2Proof.Machine.execStl t o b n r s
  | .ldf t o b r => Sys2Proof.Machine.execLdf t o b r s
  | .ldfTake t o b r => Sys2Proof.Machine.execLdfTake t o b r s
  | .ste t o b r => Sys2Proof.Machine.execSte t o b r s
  | .stf t o b r => Sys2Proof.Machine.execStf t o b r s
  | .tset o b r => Sys2Proof.Machine.execTset o b r s
  | .tclr o b r => Sys2Proof.Machine.execTclr o b r s
  | .trd t o b r => Sys2Proof.Machine.execTrd t o b r s
  | .atomAdd t o b r => Sys2Proof.Machine.execAtomAdd t o b r s
  | .atomMin t o b r => Sys2Proof.Machine.execAtomMin t o b r s
  | .atomMax t o b r => Sys2Proof.Machine.execAtomMax t o b r s
  | .atomAnd t o b r => Sys2Proof.Machine.execAtomAnd t o b r s
  | .atomOr t o b r => Sys2Proof.Machine.execAtomOr t o b r s
  | .atomXor t o b r => Sys2Proof.Machine.execAtomXor t o b r s
  | .atomExch t o b r => Sys2Proof.Machine.execAtomExch t o b r s
  | .atomCas t o b r => Sys2Proof.Machine.execAtomCas t o b r s
  | .atomFadd t o b r => Sys2Proof.Machine.execAtomFadd t o b r s
  | .atomFaddp t o b r => Sys2Proof.Machine.execAtomFaddp t o b r s
  | .redAdd t o b r => Sys2Proof.Machine.execRedAdd t o b r s
  | .redMin t o b r => Sys2Proof.Machine.execRedMin t o b r s
  | .redMax t o b r => Sys2Proof.Machine.execRedMax t o b r s
  | .redAnd t o b r => Sys2Proof.Machine.execRedAnd t o b r s
  | .redOr t o b r => Sys2Proof.Machine.execRedOr t o b r s
  | .redXor t o b r => Sys2Proof.Machine.execRedXor t o b r s
  | .redFadd t o b r => Sys2Proof.Machine.execRedFadd t o b r s
  | .redFaddp t o b r => Sys2Proof.Machine.execRedFaddp t o b r s
  | .ldu t b r => Sys2Proof.Machine.execLdu t b r s
  | .stu t b r => Sys2Proof.Machine.execStu t b r s
  | .atomuAdd t b r => Sys2Proof.Machine.execAtomuAdd t b r s
  | .atomuMin t b r => Sys2Proof.Machine.execAtomuMin t b r s
  | .atomuMax t b r => Sys2Proof.Machine.execAtomuMax t b r s
  | .atomuAnd t b r => Sys2Proof.Machine.execAtomuAnd t b r s
  | .atomuOr t b r => Sys2Proof.Machine.execAtomuOr t b r s
  | .atomuXor t b r => Sys2Proof.Machine.execAtomuXor t b r s
  | .atomuExch t b r => Sys2Proof.Machine.execAtomuExch t b r s
  | .atomuCas t b r => Sys2Proof.Machine.execAtomuCas t b r s
  | .atomuFadd t b r => Sys2Proof.Machine.execAtomuFadd t b r s
  | .atomuFaddp t b r => Sys2Proof.Machine.execAtomuFaddp t b r s
  | .fence imm => Sys2Proof.Machine.execFence imm s
  | .cwb a b => Sys2Proof.Machine.execCwb a b s
  | .cinv a b => Sys2Proof.Machine.execCinv a b s
  | .cwbinv a b => Sys2Proof.Machine.execCwbinv a b s
  | .smap d a b => Sys2Proof.Machine.execSmap d a b s
  | .sunmap b => Sys2Proof.Machine.execSunmap b s
  | .swb b => Sys2Proof.Machine.execSwb b s
  | .sinv b => Sys2Proof.Machine.execSinv b s
  | .spill t o b n => Sys2Proof.Machine.execSpill t o b n s
  | .fill t o b n => Sys2Proof.Machine.execFill t o b n s
  | .prf o b n => Sys2Proof.Machine.execPrf o b n s
  | .snapopen d => Sys2Proof.Machine.execSnapopen d s
  | .snapclose => Sys2Proof.Machine.execSnapclose s
  | .txbegin imm => Sys2Proof.Machine.execTxbegin imm s
  | .txcommit d => Sys2Proof.Machine.execTxcommit d s
  | .txabort => Sys2Proof.Machine.execTxabort s
  | .txstat d => Sys2Proof.Machine.execTxstat d s
  | .vts d => Sys2Proof.Machine.execVts d s
  | .subscribe d a => Sys2Proof.Machine.execSubscribe d a s
  | .unsub b => Sys2Proof.Machine.execUnsub b s
  | .subflush => Sys2Proof.Machine.execSubflush s
  | .substatIn d h => Sys2Proof.Machine.execSubstatIn d h s
  | .substatOut d h => Sys2Proof.Machine.execSubstatOut d h s
  | .bar => Sys2Proof.Machine.execBar s
  | .gbar => Sys2Proof.Machine.execGbar s
  | .arrive a b => Sys2Proof.Machine.execArrive a b s
  | .cntwait a b => Sys2Proof.Machine.execCntwait a b s
  | .kick a => Sys2Proof.Machine.execKick a s
  | .launch d a b => Sys2Proof.Machine.execLaunch d a b s
  | .bload q y c a b => Sys2Proof.Machine.execBload q y c a b s
  | .brel q => Sys2Proof.Machine.execBrel q s
  | .tblld c a => Sys2Proof.Machine.execTblld c a s
  | .tblrd d c => Sys2Proof.Machine.execTblrd d c s
  | .mma c q y a b => Sys2Proof.Machine.execMma c q y a b s
  | .mmaZ c q y a b => Sys2Proof.Machine.execMmaZ c q y a b s
  | .accz t => Sys2Proof.Machine.execAccz t s
  | .accrd t v b n => Sys2Proof.Machine.execAccrd t v b n s
  | .accwr t v b n => Sys2Proof.Machine.execAccwr t v b n s
  | .accsc t v b n => Sys2Proof.Machine.execAccsc t v b n s
  | .perfrd d imm => Sys2Proof.Machine.execPerfrd d imm s
  | .enrd d imm => Sys2Proof.Machine.execEnrd d imm s
  | .tsrd d imm => Sys2Proof.Machine.execTsrd d imm s
  | .sample a => Sys2Proof.Machine.execSample a s
  | .form => Sys2Proof.Machine.execForm s
  | .dissolve => Sys2Proof.Machine.execDissolve s
  | .move => Sys2Proof.Machine.execMove s
  | .tops => Sys2Proof.Machine.execTops s
  | .keys => Sys2Proof.Machine.execKeys s
  | .attest => Sys2Proof.Machine.execAttest s
  | .drainTimeout => Sys2Proof.Machine.execDrainTimeout s
  | .migrateBucket => Sys2Proof.Machine.execMigrateBucket s
  | .bucketSwitch => Sys2Proof.Machine.execBucketSwitch s
  | .migrationError => Sys2Proof.Machine.execMigrationError s
  | .scrubDone => Sys2Proof.Machine.execScrubDone s
  | .flitRefused => Sys2Proof.Machine.execFlitRefused s
  | .sliceFault => Sys2Proof.Machine.execSliceFault s
  | .fatalSliceFault => Sys2Proof.Machine.execFatalSliceFault s
  | .uncorrectableError => Sys2Proof.Machine.execUncorrectableError s
  | .flitCrcFail => Sys2Proof.Machine.execFlitCrcFail s
  | .irtWrite => Sys2Proof.Machine.execIrtWrite s
  | .registerWrite => Sys2Proof.Machine.execRegisterWrite s
  | .translationWalk => Sys2Proof.Machine.execTranslationWalk s
  | .xinvVa => Sys2Proof.Machine.execXinvVa s
  | .xinvAsid => Sys2Proof.Machine.execXinvAsid s
  | .xinvVms1 => Sys2Proof.Machine.execXinvVms1 s
  | .xinvIpa => Sys2Proof.Machine.execXinvIpa s
  | .xinvVmid => Sys2Proof.Machine.execXinvVmid s
  | .xinvCtx => Sys2Proof.Machine.execXinvCtx s
  | .xinvAll => Sys2Proof.Machine.execXinvAll s
  | .harvest => Sys2Proof.Machine.execHarvest s
  | .xinvComplete => Sys2Proof.Machine.execXinvComplete s
  | .windowClearDone => Sys2Proof.Machine.execWindowClearDone s
  | .stashFill => Sys2Proof.Machine.execStashFill s
  | .lendWriteback => Sys2Proof.Machine.execLendWriteback s
  | .batchTimeout => Sys2Proof.Machine.execBatchTimeout s
  | .batchApply => Sys2Proof.Machine.execBatchApply s
  | .subRedirect => Sys2Proof.Machine.execSubRedirect s
  | .subMark => Sys2Proof.Machine.execSubMark s
  | .memoryTargetWrite => Sys2Proof.Machine.execMemoryTargetWrite s
  | .subResume => Sys2Proof.Machine.execSubResume s
  | .subReady => Sys2Proof.Machine.execSubReady s
  | .homeRequest => Sys2Proof.Machine.execHomeRequest s
  | .homeForward => Sys2Proof.Machine.execHomeForward s
  | .invalidateAck => Sys2Proof.Machine.execInvalidateAck s
  | .claim => Sys2Proof.Machine.execClaim s
  | .claimRelease => Sys2Proof.Machine.execClaimRelease s
  | .l1wb => Sys2Proof.Machine.execL1wb s
  | .l1wbinv => Sys2Proof.Machine.execL1wbinv s
  | .cmComplete => Sys2Proof.Machine.execCmComplete s
  | .patrolRead => Sys2Proof.Machine.execPatrolRead s
  | .merrClr => Sys2Proof.Machine.execMerrClr s
  | .timestampRequest => Sys2Proof.Machine.execTimestampRequest s
  | .commitComplete => Sys2Proof.Machine.execCommitComplete s
  | .spargePass => Sys2Proof.Machine.execSpargePass s
  | .vpstatRun => Sys2Proof.Machine.execVpstatRun s
  | .vpoolWrite => Sys2Proof.Machine.execVpoolWrite s
  | .bucketTransit => Sys2Proof.Machine.execBucketTransit s
  | .arbiterFuse => Sys2Proof.Machine.execArbiterFuse s
  | .arbiterPop => Sys2Proof.Machine.execArbiterPop s
  | .arbiterExchange => Sys2Proof.Machine.execArbiterExchange s
  | .arbiterReleaseRcv => Sys2Proof.Machine.execArbiterReleaseRcv s
  | .arbiterJoinMet => Sys2Proof.Machine.execArbiterJoinMet s
  | .arbiterJoinError => Sys2Proof.Machine.execArbiterJoinError s
  | .lagDataReturn => Sys2Proof.Machine.execLagDataReturn s
  | .resultWriteback => Sys2Proof.Machine.execResultWriteback s
  | .revocation => Sys2Proof.Machine.execRevocation s
  | .revocationComplete => Sys2Proof.Machine.execRevocationComplete s
  | .harvestResume => Sys2Proof.Machine.execHarvestResume s
  | .harvestSave => Sys2Proof.Machine.execHarvestSave s
  | .qcmdEnable => Sys2Proof.Machine.execQcmdEnable s
  | .qcmdDisable => Sys2Proof.Machine.execQcmdDisable s
  | .qcmdErrClear => Sys2Proof.Machine.execQcmdErrClear s
  | .notify => Sys2Proof.Machine.execNotify s
  | .spoolWrite => Sys2Proof.Machine.execSpoolWrite s
  | .queueReadSlot => Sys2Proof.Machine.execQueueReadSlot s
  | .wseqRetry => Sys2Proof.Machine.execWseqRetry s
  | .dependencyCheck => Sys2Proof.Machine.execDependencyCheck s
  | .markerComplete => Sys2Proof.Machine.execMarkerComplete s
  | .gridComplete => Sys2Proof.Machine.execGridComplete s
  | .gangClaim => Sys2Proof.Machine.execGangClaim s
  | .restoreDonate => Sys2Proof.Machine.execRestoreDonate s
  | .cceventRead => Sys2Proof.Machine.execCceventRead s
  | .sleepExpire => Sys2Proof.Machine.execSleepExpire s
  | .fcmdReplay => Sys2Proof.Machine.execFcmdReplay s
  | .fcmdHandle => Sys2Proof.Machine.execFcmdHandle s
  | .fcmdKill => Sys2Proof.Machine.execFcmdKill s
  | .fcmdStop => Sys2Proof.Machine.execFcmdStop s
  | .fcmdStopHold => Sys2Proof.Machine.execFcmdStopHold s
  | .fcmdRelease => Sys2Proof.Machine.execFcmdRelease s
  | .faultPost => Sys2Proof.Machine.execFaultPost s
  | .watchdogExpire => Sys2Proof.Machine.execWatchdogExpire s
  | .groupSave => Sys2Proof.Machine.execGroupSave s
  | .restore => Sys2Proof.Machine.execRestore s
  | .svpoolWrite => Sys2Proof.Machine.execSvpoolWrite s
  | .blockExit => Sys2Proof.Machine.execBlockExit s
  | .trctlWrite => Sys2Proof.Machine.execTrctlWrite s
  | .trbaseWrite => Sys2Proof.Machine.execTrbaseWrite s
  | .traceFrameWrite => Sys2Proof.Machine.execTraceFrameWrite s
  | .frameAgeTimer => Sys2Proof.Machine.execFrameAgeTimer s
  | .brFlushTimer => Sys2Proof.Machine.execBrFlushTimer s
  | .syncPeriod => Sys2Proof.Machine.execSyncPeriod s
  | .sampleRound => Sys2Proof.Machine.execSampleRound s
  | .energyInterval => Sys2Proof.Machine.execEnergyInterval s
  | .linkStateChange => Sys2Proof.Machine.execLinkStateChange s
  | .netPut => Sys2Proof.Machine.execNetPut s
  | .netGetreq => Sys2Proof.Machine.execNetGetreq s
  | .netGetrsp => Sys2Proof.Machine.execNetGetrsp s
  | .netRed => Sys2Proof.Machine.execNetRed s
  | .netLaunch => Sys2Proof.Machine.execNetLaunch s
  | .netAck => Sys2Proof.Machine.execNetAck s
  | .netNak => Sys2Proof.Machine.execNetNak s
  | .netSkip => Sys2Proof.Machine.execNetSkip s
  | .retransmitTimeout => Sys2Proof.Machine.execRetransmitTimeout s
  | .appliedAdvance => Sys2Proof.Machine.execAppliedAdvance s
  | .engineRequestStart => Sys2Proof.Machine.execEngineRequestStart s
  | .engineComplete => Sys2Proof.Machine.execEngineComplete s
  | .engineFault => Sys2Proof.Machine.execEngineFault s
  | .checkpointStart => Sys2Proof.Machine.execCheckpointStart s
  | .checkpointMemberDone => Sys2Proof.Machine.execCheckpointMemberDone s
  | .hdmwinWrite => Sys2Proof.Machine.execHdmwinWrite s
  | .hostRequest => Sys2Proof.Machine.execHostRequest s
  | .biResponse => Sys2Proof.Machine.execBiResponse s
  | .fldb => Sys2Proof.Machine.execFldb s
  | .flringWrite => Sys2Proof.Machine.execFlringWrite s
  | .flashEntryRead => Sys2Proof.Machine.execFlashEntryRead s
  | .flashComplete => Sys2Proof.Machine.execFlashComplete s
  | .powerOn => Sys2Proof.Machine.execPowerOn s
  | .bootImageLoad => Sys2Proof.Machine.execBootImageLoad s
  | .readiness => Sys2Proof.Machine.execReadiness s
  | .powerStateEnter => Sys2Proof.Machine.execPowerStateEnter s
  | .powerWake => Sys2Proof.Machine.execPowerWake s
  | .wakeComplete => Sys2Proof.Machine.execWakeComplete s
  | .thermalStep => Sys2Proof.Machine.execThermalStep s
  | .powerLoss => Sys2Proof.Machine.execPowerLoss s
  | .bloadCommit => Sys2Proof.Machine.execBloadCommit s
  | .mmaComplete => Sys2Proof.Machine.execMmaComplete s
  | .tagTimeout => Sys2Proof.Machine.execTagTimeout s
  | .cntwaitRecheck => Sys2Proof.Machine.execCntwaitRecheck s
  | .dissolveScrubDone => Sys2Proof.Machine.execDissolveScrubDone s
  | .hostLinkEvent => Sys2Proof.Machine.execHostLinkEvent s

end Sys2Proof.Machine
end

