-- ==== Sys2Proof/Machine/Due.lean ====
section
/-! DEFINITION. What comes next: a step of the agenda, a step of a fragment arbiter (R212), or one of the instructions
that can issue and of the device steps that go on by themselves; which of these is a free value. -/

namespace Sys2Proof.Machine

def Block.args (b : Block) : StepArgs :=
  { StepArgs.zero with
    part := b.key.part, grid := b.key.grid, blk := b.key.blk, slice := b.slice, core := b.core, gang := b.gang }

def coreArgs (k : CoreKey) : StepArgs := { StepArgs.zero with slice := k.slice, core := k.core }

/-- An event if its condition holds. -/
def evIf (b : Bool) (i : Instr) (a : StepArgs) : List Event := if b then [⟨i, a⟩] else []

/-! ### Groups and blocks -/

/-- Steps of one fragment slot. -/
def State.dueSlot (s : State) (g : Group) (slot : Bool) : List Event :=
  let f := g.frag slot
  let a := { g.args with frag := slot }
  (match f.hold with
   | .bucket _ => [⟨.bucketTransit, a⟩]
   | .fetch _ => [⟨.bucketTransit, a⟩]
   | _ => []) ++
  evIf (f.lag && f.st = .waitMem && f.hold = .none) .lagDataReturn a ++
  evIf f.sleeping .sleepExpire a ++
  evIf (s.timedOut g slot) .tagTimeout a ++
  (match f.hold with
   | .counter _ _ => [⟨.cntwaitRecheck, a⟩]
   | .fill _ _ => [⟨.stashFill, a⟩]
   | _ => [])

def State.dueGroup (s : State) (g : Group) : List Event :=
  if g.killed || g.state = .none || g.state = .saved || g.state = .placed || g.state = .exited then []
  else
    s.dueSlot g false ++ s.dueSlot g true ++
    ((List.range g.pend.length).map fun i => ⟨.resultWriteback, { g.args with n := i }⟩) ++
    evIf (g.stopReq && !g.watchdog && !(g.slotAtRest false && g.slotAtRest true)) .watchdogExpire g.args ++
    evIf (s.canResume g) .harvestResume g.args ++
    evIf (g.arbitrates && g.canFuse && g.fuseWaits) .arbiterFuse g.args

def State.dueBlock (s : State) (b : Block) : List Event :=
  let gs := s.allGroups.filter fun g => g.info.key.blk = b.key && g.state ≠ .none
  evIf (b.restoring = 0 && gs.any (·.state = .placed) && (s.core ⟨b.slice, b.core⟩).revoking.isEmpty) .windowClearDone b.args ++
  (b.outb.flatMap fun e =>
    evIf e.2.opened.isSome .batchTimeout { b.args with n := e.1 } ++
    evIf (e.2.toImage && !e.2.recv.isEmpty && !e.2.faulted) .memoryTargetWrite { b.args with n := e.1 }) ++
  (b.inb.flatMap fun e => evIf (b.resident && !e.2.recv.isEmpty && !e.2.held) .batchApply { b.args with n := e.1 }) ++
  evIf (b.restoring = 1 && s.allReplied b) .subReady b.args ++
  evIf (b.restoring = 2) .restore b.args ++
  evIf (b.resident && !b.exited && !gs.isEmpty && s.blockStopped b && gs.any (·.state ≠ .exited))
    (if b.harv then .harvestSave else .groupSave) b.args ++
  evIf (b.resident && !b.exited && !gs.isEmpty && gs.all (·.state = .exited)) .blockExit b.args

/-! ### Cores and slices -/

/-- Cores that hold anything. -/
def State.coreKeys (s : State) : List CoreKey :=
  (s.cores.map (·.key) ++ (s.allGroups.filter (·.state ≠ .none)).map (·.coreKey)).eraseDups

/-- Steps of a copy request. -/
def State.dueEngine (c : Core) : List Event :=
  let a := coreArgs c.key
  match c.eng with
  | none => evIf (!c.engQ.isEmpty) .engineRequestStart a
  | some r =>
    if r.faulted then []
    else
      evIf (r.req.remote && !r.ended && r.sent < r.req.messages.length) .engineRequestStart a ++
      evIf (!r.ended && !r.req.sends && !r.local_) .claim a ++
      (if r.ended then [] else (List.range r.claims.length).map fun i => ⟨.claimRelease, { a with n := i }⟩) ++
      [⟨.engineComplete, a⟩]

/-- Steps of a trace unit, and the end of an interval of 2,048 cycles (R433). -/
def State.dueTrace (s : State) (k : CoreKey) : List Event :=
  let c := s.core k
  let x := s.slice k.slice
  let on := traced x.trctl k.core
  evIf (s.frameReady k) .traceFrameWrite (coreArgs k) ++
  evIf (!c.trace.frame.isEmpty) .frameAgeTimer (coreArgs k) ++
  evIf (!c.trace.outcomes.isEmpty) .brFlushTimer (coreArgs k) ++
  evIf (on && !c.trace.synced.isEmpty) .syncPeriod (coreArgs k) ++
  evIf (on && x.trctl.getLsbD 2) .sampleRound (coreArgs k) ++
  evIf (2048 ≤ s.cycle) .energyInterval (coreArgs k)

def State.dueCore (s : State) (k : CoreKey) : List Event :=
  let c := s.core k
  State.dueEngine c ++ s.dueTrace k ++
  evIf c.mill.isSome .bloadCommit (coreArgs k) ++
  ((c.mmaQ.map (·.slot)).eraseDups.map fun n => ⟨.mmaComplete, { (coreArgs k) with n := n }⟩) ++
  (c.lend.flatMap fun e => evIf (!e.2.faulted) .lendWriteback { (coreArgs k) with n := e.1 }) ++
  evIf (!c.revoking.isEmpty) .revocationComplete (coreArgs k)

/-- Untranslated writes whose steps come only when their homes take them: fault records and trace frames, by partition and PPA. -/
def State.awaited (s : State) : List (Nat × Nat) :=
  s.slices.flatMap fun y => match y.owner with
    | none => []
    | some p =>
      (if y.faults.isEmpty && (s.raisedOn y.id).isNone then [] else [(p, y.faultAddr)]) ++
      if s.cores.any fun c => c.key.slice = y.id && !c.trace.held.isEmpty then [(p, y.frameAddr)] else []

/-- A sleeping slice has a reason to wake, beside the requests that wake it as they come (R462). -/
def State.wakes (s : State) (x : Slice) : Bool :=
  (s.allGroups.any fun g => g.f0.hold = .ready x.id || g.f1.hold = .ready x.id) ||
  (s.awaited.any fun a => (s.part a.1).space a.2 = .mem && (s.part a.1).home a.2 = x.id) ||
  (x.hcores.any fun h => h.2.online && !h.2.wfi) ||
  match x.owner with
  | some p => match s.claimer p with
    | none => false
    | some sl => sl = x.id || match s.candidate p sl with
      | some (.grid h) => match (s.part p).grids.find? (·.handle = h) with
        | some g => Pk.type g.packet = 2 && (s.asleepFor p g).contains x.id
        | none => false
      | _ => false
  | none => false

def State.dueSlice (s : State) (x : Slice) : List Event :=
  let a := { StepArgs.zero with slice := x.id }
  match x.owner with
  | none => []
  | some p =>
    if x.power ≠ 0 then
      if x.waking then [⟨.wakeComplete, a⟩]
      else evIf (s.wakes x) .powerWake a ++ evIf (decide (x.power.toNat < deepest (fld (s.part p).ltol 31 0)) && s.idleSlice x.id)
        .powerStateEnter a
    else
      evIf (s.fqReady x.id && (!x.faults.isEmpty || (s.raisedOn x.id).isSome)) .faultPost a ++
      evIf (deepest (fld (s.part p).ltol 31 0) ≠ 0 && s.idleSlice x.id) .powerStateEnter a ++
      evIf (s.claimer p = some x.id) .gangClaim a

/-! ### Partitions -/

/-- Steps of a device queue. -/
def Queue.due (q : Queue) (p : Partition) (i : Nat) : List Event :=
  let a := { StepArgs.zero with part := p.id, queue := i }
  let more := q.en && q.ready.isNone && decide (q.qrd.toNat < q.notify.toNat)
  evIf (more && !q.wseq) .queueReadSlot a ++
  evIf (more && q.wseq) .wseqRetry a ++
  evIf (q.en && q.ready.isSome) .dependencyCheck a ++
  evIf (q.markers.any fun m => m.2.2.2.all fun g => p.grids.all (·.handle ≠ g)) .markerComplete a

/-- The step of a message that is held at the receiver. -/
def packetStep (k : Packet) : Option Instr :=
  match k.op.toNat with
  | 1 => some .netPut
  | 2 => some .netGetreq
  | 4 => some .netRed
  | 5 => some .netLaunch
  | _ => none

/-- Steps of a link, whose key names the slice and the link. -/
def Link.due (l : Link) (key : Nat) : List Event :=
  let a := { StepArgs.zero with slice := key % 16, line := key / 16 }
  evIf (!l.window.isEmpty || !l.redo.isEmpty) .retransmitTimeout a ++
  evIf (!l.performed.isEmpty) .appliedAdvance a ++
  l.heldMsgs.filterMap fun k =>
    if k.msn = l.turn then (packetStep k).map fun i => ⟨i, { a with half := true }⟩ else none

/-- The command at the head of the invalidation FIFO. -/
def QueuedCmd.xinvStep (q : QueuedCmd) : Instr :=
  match q.code with
  | 1 => .xinvVa
  | 2 => .xinvAsid
  | 3 => .xinvVms1
  | 4 => .xinvIpa
  | 5 => .xinvVmid
  | 6 => .xinvCtx
  | 7 => .xinvAll
  | 8 => .harvest
  | _ => .xinvComplete

def State.duePart (s : State) (p : Partition) : List Event :=
  let a := { StepArgs.zero with part := p.id }
  (match p.xinvQ with
   | q :: _ => [⟨if q.ran || s.xinvBad p.id q then .xinvComplete else q.xinvStep, a⟩]
   | [] => []) ++
  (match p.cmQ with
   | q :: _ =>
     [⟨if q.ran || s.cmBad p.id q then .cmComplete else if q.code = 1 then .l1wb else .l1wbinv, a⟩]
   | [] => []) ++
  (p.committing.map fun n => ⟨.commitComplete, { a with n := n }⟩) ++
  evIf p.spargeDue .spargePass a ++
  (p.queues.flatMap fun q => q.2.due p q.1) ++
  (p.grids.flatMap fun g => evIf (g.blocks ≤ g.exited) .gridComplete { a with grid := g.handle }) ++
  (match p.ckpt with
   | none => []
   | some c =>
     if c.faulted then []
     else evIf (!c.over && decide (c.piece < c.stripes * c.pieces)) .checkpointStart a ++
       evIf (c.over || decide (c.stripes * c.pieces ≤ c.piece)) .checkpointMemberDone a ++
       if c.over then [] else (List.range c.g).map fun m => ⟨.checkpointMemberDone, { a with n := m }⟩) ++
  evIf p.flReady .flashEntryRead a ++
  ((List.range p.flReqs.length).map fun i => ⟨.flashComplete, { a with n := i }⟩) ++
  (p.links.flatMap fun l => l.2.due l.1) ++
  (p.lists.flatMap fun l => l.2.filterMap fun e => match e with
    | .restore h gang (some _) _ f =>
      if f < 1024 then some ⟨.restoreDonate, { a with grid := h, gang := gang }⟩ else none
    | _ => none)

/-- Steps of a running MTC command. -/
def State.dueMtc (s : State) : List Event :=
  match s.mtc.run with
  | none => []
  | some r =>
    if fld r.word 7 0 = 2 then evIf (r.step = .scrub) .dissolveScrubDone .zero
    else match r.step with
      | .idle => []
      | .drain => evIf (s.drainedSlice r && (s.slice r.slice).power = 0) .migrateBucket .zero ++ evIf (s.overdue r) .drainTimeout .zero
      | .scrub => [⟨.scrubDone, .zero⟩]
      | _ => [⟨if r.bucket.isSome then .bucketSwitch else .migrateBucket, .zero⟩]

/-! ### The next step -/

/-- The device steps that can go on now. -/
def State.due (s : State) : List Event :=
  s.allGroups.flatMap s.dueGroup ++ s.blocks.flatMap s.dueBlock ++ s.coreKeys.flatMap s.dueCore ++
  s.slices.flatMap s.dueSlice ++ s.parts.flatMap s.duePart ++ s.dueMtc ++ s.later

/-- A pipeline issues, or a device step goes on. -/
inductive Turn where
  | issue (sl core pipe : Nat)
  | event (e : Event)

def State.turns (s : State) : List Turn :=
  (s.pipes.map fun t => .issue t.1 t.2.1 t.2.2) ++ s.due.map .event

/-- One of the things that can happen next, a free choice where there are several. -/
def State.nextTurn (s : State) : Option Turn :=
  match s.turns with
  | [] => none
  | [t] => some t
  | l => (l.drop (s.draw 900 % l.length)).head?

/-- The fragment that R242 picks on a pipeline issues. -/
def State.issueOn (s : State) (sl core pipe : Nat) : Prep :=
  match pickCand (s.cands sl core pipe) with
  | some c =>
    let s := s.countWaits sl core pipe c
    let s := s.focus c.key
    State.issueFrag { s with issue := { s.issue with slot := c.slot } }
  | none => .done s

/-- The next step. -/
def State.prepare (s : State) : Prep :=
  match s.agenda with
  | e :: r => .event e.step { s with agenda := r, args := e.args }
  | [] =>
    match s.arbiterDue with
    | some e => .event e.step { s with args := e.args }
    | none =>
      match s.nextTurn with
      | some (.issue sl core pipe) => s.issueOn sl core pipe
      | some (.event e) => .event e.step { s with args := e.args, later := s.later.erase e }
      | none => .done s

end Sys2Proof.Machine
end

