-- ==== Sys2Proof/Machine/Settle.lean ====
section
/-! DEFINITION. What a step leaves behind beside an instruction's own effect: counters (R429), the energy of issue and of
lanes (R432), flow packets (R413), memory samples (R426), waits for updates that end (R102), lines and translations that
leave their caches (R57, R89), and time. -/

namespace Sys2Proof.Machine

/-! ### Counters and energy (R429, R432) -/

/-- The energy class charged per active lane: INT for vector integer and cross-lane instructions, FP for f32 and packed
arithmetic, SFU for major 0x1E. -/
def laneClass (i : Instr) : Option Nat :=
  match i with
  | .add _ _ _ | .adc _ _ _ | .sub _ _ _ | .sbb _ _ _ | .mul _ _ _ | .mulh _ _ _ | .mad _ _ _ | .absdiff _ _ _
  | .and _ _ _ | .or _ _ _ | .xor _ _ _ | .andn _ _ _ | .shl _ _ _ | .shr _ _ _ | .rol _ _ _ | .ror _ _ _
  | .min _ _ _ | .max _ _ _ | .cmp _ _ | .test _ _ | .sel _ _ _ | .mov _ _ | .popc _ _ | .clz _ _ | .brev _ _
  | .bfe _ _ _ | .bfi _ _ _ | .abs _ _ | .neg _ _ | .ext _ _ | .dot4 _ _ _ | .addi _ _ _ | .muli _ _ _
  | .shifti _ _ _ _ | .cmpi _ _ | .movi _ _ | .addU _ _ _ | .subU _ _ _ | .mulU _ _ _ | .madU _ _ _ | .andU _ _ _
  | .orU _ _ _ | .xorU _ _ _ | .shlU _ _ _ | .shrU _ _ _ | .minU _ _ _ | .maxU _ _ _ | .cmpU _ _ | .selU _ _ _
  | .shflIdx _ _ _ | .shflUp _ _ _ | .shflDn _ _ _ | .shflXor _ _ _ | .qswap _ _ _ _ | .lred _ _ _ _
  | .scan _ _ _ _ _ | .vote _ _ _ | .ballot _ _ | .rdlane _ _ _ | .wrlane _ _ _ | .bcast _ _ _ | .matchLane _ _
  | .elect _ | .lid _ | .qid _ =>
    some 1
  | .faddU _ _ _ | .fmulU _ _ _ | .fmacU _ _ _ | .fadd _ _ _ | .fsub _ _ _ | .fmul _ _ _ | .fmac _ _ _ | .fmsc _ _ _
  | .fmin _ _ _ | .fmax _ _ _ | .fcmp _ _ | .fabs _ _ | .fneg _ _ | .fclass _ _ | .frnd _ _ | .fcopysign _ _ _
  | .faddp _ _ _ | .fsubp _ _ _ | .fmulp _ _ _ | .fmaxp _ _ _ | .fminp _ _ _ | .fdotp _ _ _ | .fpack _ _ _
  | .funpack _ _ =>
    some 2
  | .frcp _ _ | .frsq _ _ | .fsqrt _ _ | .fexp2 _ _ | .flog2 _ _ | .fsin _ _ | .fcos _ _ | .ftanh _ _ =>
    some 3
  | _ => none

/-- An instruction issues for the first time. Cycles lost to bank conflicts (counter 0x44), flits held for buffer space
(0x85) and bytes written back to HBM4E (0x83) are free values. -/
def State.countIssue (b : State) (i : Instr) (s : State) : State :=
  let k := b.cur.info.key
  let c := b.coreKey
  let s := s.onGroup k fun g => { g with ctrs := mset 0 g.ctrs 0 (mget 0 g.ctrs 0 + 1) }
  let s := s.charge c k (energyWeight 0 + match laneClass i with
    | some n => energyWeight n * popMask b.active
    | none => 0)
  let s := (s.countCore c 0x40 1).countCore c 0x44 (s.draw 920)
  let s := if b.cur.info.harv then s.countCore c 0x45 1 else s
  (s.countSlice c.slice 0x85 (s.draw 921)).countSlice c.slice 0x83 (s.draw 922)

/-- Counter 0x01 over `n` cycles: all of them where no fragment can issue, a free part of them otherwise. -/
def Group.stall (g : Group) (n part : Nat) : Group :=
  if g.state ≠ .running then g
  else
    let m := if g.canIssue false || g.canIssue true then part % n else n
    { g with ctrs := mset 0 g.ctrs 1 (mget 0 g.ctrs 1 + BitVec.ofNat 64 m) }

/-! ### Flow packets (R413) -/

/-- The instruction at issue has raised a fault or ended its transaction. -/
def State.broke (b s : State) : Bool :=
  match s.group? b.cur.info.key with
  | none => true
  | some g => (g.trap b.issue.slot).phase ≠ .none || (b.cur.tx.opened && !g.tx.opened)

/-- Outcomes handed to the trace units. -/
def State.handOutcomes (s : State) : State :=
  if s.allGroups.all (·.checks.isEmpty) then s
  else
    let t := (bySlot s.allGroups).foldl (fun t g => g.checks.foldl (fun t c => t.emit g c.1 (.outcome c.2)) t) s
    t.mapGroups fun g => { g with checks := [] }

/-- The packet of a transfer of control, of a split, or of an exit. -/
def State.flowOf (b : State) (i : Instr) (s : State) : Option Pkt :=
  let f := s.cur.frag b.issue.slot
  let split := f.lead && !(b.cur.frag b.issue.slot).lead
  match i with
  | .jmp _ => some (.tgt f.pc)
  | .jal _ _ => some (.tgt f.pc)
  | .ret _ => some (.tgt f.pc)
  | .eret => some (.tgt f.pc)
  | .exit => some (.frag 5)
  | .brv c _ => let t := b.takers c; if t ≠ 0 && t ≠ b.frag.mask then some (.mask 0 t) else none
  | _ => if split then some (.mask 1 (s.cur.frag (!b.issue.slot)).mask) else none

/-- The packet with the stream as the event leaves it (R486); an exit leaves none, and is emitted with the stream before
it. -/
def State.traceIssue (b : State) (i : Instr) (s : State) : State :=
  if b.broke s then s
  else match b.flowOf i s with
    | some p => if i = .exit then s.emit b.cur b.issue.slot p else s.emitOf b.cur.info.key b.issue.slot p
    | none => s

/-! ### Memory samples (R426, R427) -/

/-- What an eligible instruction asks for: by lane its addresses with their result registers, and whether the registers are uniform
and whether it is an atomic. -/
structure Asked where
  lanes : List (Nat × List (W64 × Nat))
  uni : Bool
  atom : Bool

/-- A value-returning global load or atomic, and its addresses. -/
def State.asked (b : State) (i : Instr) : Option Asked :=
  let glob := fun (r : BitVec 4) (x : Asked) => if localForm (b.uread 1 r.toNat) then none else some x
  let load := fun (t : BitVec 7) (n : BitVec 2) (wide : Bool) (m : Mask) (f : Nat → Nat → W64) =>
    some (Asked.mk ((lanesOf m).map fun l => (l, (List.range (countOf n)).map fun i => (f l i, beatReg t wide i))) false false)
  let ld := fun (t o : BitVec 7) (r : BitVec 6) (n : BitVec 2) (lit : W32) =>
    load t n b.wideTy b.active fun l i => b.ea o r lit l + BitVec.ofNat 64 (i * if b.wideTy then 8 else 4)
  let atom := fun (t o : BitVec 7) (r : BitVec 4) =>
    glob r ⟨(lanesOf b.active).map fun l => (l, [(b.ea o (r.setWidth 6) 0 l, t.toNat)]), false, true⟩
  let uni := fun (t : BitVec 6) (r : BitVec 4) (atom : Bool) => glob r ⟨[(0, [(b.uread 1 r.toNat, t.toNat)])], true, atom⟩
  match i with
  | .ld t o r n _ => ld t o r n 0
  | .ldx t o r n _ lit => ld t o r n lit
  | .fill t o r n => load t n false b.frag.mask fun l i => b.spillAddr o r l i
  | .ldu t r _ => uni t r false
  | .atomAdd t o r _ => atom t o r
  | .atomMin t o r _ => atom t o r
  | .atomMax t o r _ => atom t o r
  | .atomAnd t o r _ => atom t o r
  | .atomOr t o r _ => atom t o r
  | .atomXor t o r _ => atom t o r
  | .atomExch t o r _ => atom t o r
  | .atomCas t o r _ => atom t o r
  | .atomFadd t o r _ => atom t o r
  | .atomFaddp t o r _ => atom t o r
  | .atomuAdd t r _ => uni t r true
  | .atomuMin t r _ => uni t r true
  | .atomuMax t r _ => uni t r true
  | .atomuAnd t r _ => uni t r true
  | .atomuOr t r _ => uni t r true
  | .atomuXor t r _ => uni t r true
  | .atomuExch t r _ => uni t r true
  | .atomuCas t r _ => uni t r true
  | .atomuFadd t r _ => uni t r true
  | .atomuFaddp t r _ => uni t r true
  | _ => none

/-- The line of an address as the group's translation gives it, whether its L1 serves the access, a near atomic where it holds the line in E
or M (R120), and whether the line is versioned. -/
def State.lineOf (b : State) (atom : Bool) (a : W64) : Option (Nat × Bool × Bool) :=
  match b.translate b.coreKey (b.ask (if atom then Kind.atomic else Kind.load)) a with
  | .ok t ppa _ =>
    let v := b.versioned t ppa
    let near := fun (l : L1Line) => match l with
      | .hc _ _ m => !atom || m ≠ .shared
      | .sc _ _ _ _ _ _ => !atom
    some (ppa, !v && t.coh ≠ 2 && ((b.core b.coreKey).l1At b.pid (ppa / 64)).any near, v)
  | _ => none

/-- SERVED with HOPS and bit 6, and HOME. -/
def State.servedBy (b : State) (atom : Bool) (a : W64) : Nat × Nat :=
  match b.lineOf atom a with
  | none => (6, 0)
  | some (ppa, hit, v) =>
    let x := b.part b.pid
    if x.space ppa ≠ .mem then (5, 0)
    else
      let h := x.home ppa
      let by_ :=
        if hit then 0
        else if mget 0 (b.slice h).llc (lineIx b.pid ppa) ≠ 0 then (if h = b.cur.info.slice then 1 else 2)
        else if ppa < 0x010000000000 then 3 else 4
      (by_ + (if hit then 0 else 8 * hops x.mask b.cur.info.slice h) + (if v then 64 else 0), h)

/-- A lane's address that misses L1. -/
def State.missing (b : State) (atom : Bool) (l : Nat × List (W64 × Nat)) : Option (Nat × W64 × Nat) :=
  (l.2.find? fun a => (b.lineOf atom a.1).elim true fun y => !y.2.1).map fun a => (l.1, a)

/-- The sampled request: of the lowest lane that misses L1, or of the lowest. -/
def State.sampled (b : State) (q : Asked) : Option (Nat × W64 × Nat) :=
  match q.lanes.findSome? (b.missing q.atom) with
  | some x => some x
  | none => q.lanes.head?.bind fun l => l.2.head?.map fun a => (l.1, a)

/-- The place of the instruction at issue in its kernel. -/
def State.pcOff (b : State) : W32 := (b.issue.pc - b.cur.info.kaddr).setWidth 32

/-- An eligible instruction's first issue is counted, and sampled when its turn comes and no sample is outstanding. -/
def State.countSample (b : State) (q : Asked) (u : TraceUnit) : TraceUnit :=
  let g := b.cur
  let x := b.slice g.info.slice
  let u := { u with
    memCount := u.memCount + 1
    memOpen := (g.info.key, b.issue.slot, b.pcOff) :: u.memOpen.filter fun e => e.1 ≠ g.info.key || e.2.1 ≠ b.issue.slot }
  if u.memCount % 2 ^ fld x.trctl 15 12 ≠ 0 || u.memSample.isSome then u
  else match b.sampled q with
    | none => u
    | some (l, a, r) =>
      let sv := b.servedBy q.atom a
      { u with memSample := some {
          group := g.info.key, slot := b.issue.slot, stream := BitVec.ofNat 8 (streamOf g b.issue.slot), cycle := b.cycle
          ord := b.frag.ord, pcoff := b.pcOff, gva := a, reg := r, lane := if q.uni then 33 else l
          served := sv.1, home := sv.2, held := none, waited := 0 } }

/-- A pass of the sampled instruction, from `b`: what serves it as it stands now, and the holds of R37 and R124 (R427). -/
def State.passSample (b s : State) (q : Asked) (m : MemSample) : MemSample :=
  let sv := b.servedBy q.atom m.gva
  let m := { m with served := sv.1, home := sv.2 }
  let h := ((s.group? m.group).elim Frag.none fun g => g.frag m.slot).hold
  if h.isBucket || h = .claim then { m with held := some (m.held.getD b.cycle) }
  else { m with held := none, waited := m.waited + m.held.elim 0 (b.cycle - ·) }

/-- The instruction at issue has been passed from `b` to `s`. A replay is not counted again (R426). -/
def State.sampleIssue (b : State) (i : Instr) (s : State) : State :=
  let g := b.cur
  let x := b.slice g.info.slice
  if !x.traces g || !x.trctl.getLsbD 3 then s
  else match b.asked i with
    | none => s
    | some q =>
      let me := (g.info.key, b.issue.slot, b.pcOff)
      let ended : Bool := (s.group? g.info.key).all fun g' =>
        (g'.trap b.issue.slot).phase = .none && (g'.frag b.issue.slot).cap.isNone
      s.onCore g.coreKey fun c =>
        let u : TraceUnit := if b.frag.cap.isSome || c.trace.memOpen.contains me then c.trace else b.countSample q c.trace
        let u := { u with memSample := u.memSample.map fun (m : MemSample) =>
          if m.group = g.info.key && m.slot = b.issue.slot && m.pcoff = b.pcOff then b.passSample s q m else m }
        { c with trace := if ended then { u with memOpen := u.memOpen.erase me } else u }

/-- The sampled value has not been bound yet: its instruction is partway, or is to go on for the lane after a fault, or the result
is pending. -/
def MemSample.waits (m : MemSample) (u : TraceUnit) (g : Group) : Bool :=
  g.state ≠ .exited &&
  ((g.frag m.slot).cap.any (·.cycle = m.cycle) ||
    (u.memOpen.contains (m.group, m.slot, m.pcoff) && !(g.trap m.slot).tmask.getLsbD (m.lane % 33)) ||
    g.pend.any fun p => p.writes.any fun w => match w with
      | .vec r l _ => r = m.reg && l = m.lane
      | .uni r _ => r = m.reg && m.lane = 33
      | _ => false)

/-- The lane has faulted: the slot's fault names its address. -/
def MemSample.faulted (m : MemSample) (g : Group) : Bool :=
  (g.trap m.slot).phase ≠ .none && (g.trap m.slot).taddr = m.gva && !(g.trap m.slot).tmask.getLsbD (m.lane % 33)

/-- Cycles that a request waited at its stages, in order: a free part of what is left of `left` at each that it passes, over what it is known to
have waited there. -/
def State.stageWaits (s : State) : Nat → List (Nat × Bool × Nat) → List Nat
  | _, [] => []
  | left, (i, passes, known) :: r =>
    let n := if passes then s.draw (940 + i) % (left + 1) else 0
    Nat.min (known + n) 0xFFFF :: s.stageWaits (left - n) r

/-- The queue fields of a record, of a request that `lat` cycles have passed over (R425): an L1 hit, or a lane that faults, passes no stage beside
the hold; a last-level cache hit no memory; an access to host memory no home. -/
def State.queueBytes (s : State) (m : MemSample) (lat : Nat) (fault : Bool) : List Byte :=
  let c := if fault then 6 else m.served % 8
  let n := if fault then 0 else m.served / 8 % 8
  let out := decide (1 ≤ c) && decide (c ≤ 5)
  let home := decide (1 ≤ c) && decide (c ≤ 4)
  let hold := Nat.min lat (m.waited + m.held.elim 0 (s.cycle - ·))
  (s.stageWaits (lat - hold) ([(0, out, 0), (1, out, 0)] ++ ((List.range 6).map fun i => (2 + i, home && decide (i < n), 0)) ++
    [(8, home, hold), (9, c = 3 || c = 4, 0), (10, out, 0)])).flatMap fun n => bytesOf 2 (BitVec.ofNat 16 n)

/-- The record of a sample that has ended, SERVED 6 after a fault. -/
def State.memRecord (s : State) (m : MemSample) (fault : Bool) : List Byte :=
  let lat := s.cycle - m.cycle
  let served := if fault then m.served / 8 * 8 + 6 else m.served
  0x0B :: m.stream :: (bytesOf 2 m.ord ++ [BitVec.ofNat 8 served, BitVec.ofNat 8 m.home] ++ bytesOf 4 (BitVec.ofNat 32 lat) ++
    bytesOf 4 m.pcoff ++ s.queueBytes m lat fault)

/-- A record is written by the core that took the sample, though its group be parked (R426). -/
def State.emitSample (s : State) (k : CoreKey) (g : Group) (m : MemSample) (fault : Bool) : State :=
  if !traced (s.slice k.slice).trctl k.core then s
  else s.withTrace k fun t => t.emit (s.streamGroup k) g m.slot (s.ttime k.slice) (.record (s.memRecord m fault))

/-- Samples whose lane is bound or has faulted are written; those of a group that has been killed bind nothing. -/
def State.endSamples (s : State) : State :=
  s.cores.foldl (fun s c =>
    match c.trace.memSample with
    | none => s
    | some m =>
      let drop := fun (s : State) => s.onCore c.key fun c => { c with trace := { c.trace with memSample := none } }
      match s.group? m.group with
      | none => drop s
      | some g =>
        if m.faulted g then (drop s).emitSample c.key g m true
        else if g.killed then drop s
        else if m.waits c.trace g then s
        else (drop s).emitSample c.key g m false) s

/-! ### What goes on by itself -/

/-- An element may leave a list: a cache entry by a policy that the manual does not give. -/
def dropAny {α : Type} (d : Nat) (l : List α) : List α := if d % 2 = 0 then l else l.eraseIdx (d / 2 % l.length)

/-- A slot whose `cntwait` waits: the counter is checked again after every step (R365), and the instruction completes, waits
on, or issues again to fault. -/
def State.wakeCounter (s : State) (g : Group) (b : Bool) : Group :=
  match (g.frag b).hold with
  | .counter a t =>
    match (State.resumeAt { s with args := { g.args with frag := b } }).cntCheck a t with
    | .ok u => if (u.cur.frag b).st = .ready then g.finish b else g
    | .flt _ _ => g.onFrag b fun f => { f with st := .ready, hold := .none }
  | _ => g

/-- The waits of `cntwait`s that are over, or that fault. -/
def State.wakeCounters (s : State) : State := s.mapGroups fun g => s.wakeCounter (s.wakeCounter g false) true

/-- A translation or a walk entry may leave its cache (R57). -/
def State.dropCached (s : State) : State :=
  { s with
    cores := s.cores.map fun (c : Core) => { c with tlb := dropAny (s.draw (1 + 32 * c.key.slice + c.key.core)) c.tlb }
    clusters := s.clusters.map fun e => (e.1, { e.2 with
      tlb := dropAny (s.draw (950 + 4 * e.1)) e.2.tlb
      s2tlb := dropAny (s.draw (951 + 4 * e.1)) e.2.s2tlb
      walk := dropAny (s.draw (952 + 4 * e.1)) e.2.walk
      ctxs := dropAny (s.draw (953 + 4 * e.1)) e.2.ctxs }) }

/-- Lines that L1 may give up now: those whose homes take a write-back. -/
def State.evictable (s : State) : List (CoreKey × Nat × Nat) :=
  s.cores.flatMap fun c => (c.l1.filter fun l => s.memHold l.part (64 * l.line) 0 true = .none).map fun l => (c.key, l.part, l.line)

/-- An L1 line may leave its cache by the device's choice (R89). -/
def State.evictSome (s : State) : State :=
  match s.evictable with
  | [] => s
  | l => if s.draw 910 % 2 = 0 then s
    else match (l.drop (s.draw 910 / 2 % l.length)).head? with
      | some x => s.evictL1 x.1 x.2.1 x.2.2
      | none => s

/-- TTIME stands while a slice's core clock is stopped (R414, R461). -/
def State.stopClocks (s : State) (n : Nat) : State :=
  { s with slices := s.slices.map fun (y : Slice) => if y.power = 0 then y else { y with openedAt := y.openedAt + n } }

/-- Time passes: at least one cycle, how many more is free, with the reference count of those cycles to within a
nanosecond; the next step draws other free values. -/
def State.tick (s : State) : State :=
  let n := 1 + s.draw 0
  { ((s.mapGroups fun g => g.stall n (s.draw 911)).holdTime n).stopClocks n with
    free := s.free + 1, cycle := s.cycle + n, refns := s.refns + n * 1000 / s.mtc.clock + s.draw 912 % 2 }

/-- After an instruction has issued from `b` and had its effect. -/
def State.issued (b : State) (i : Instr) (s : State) : State :=
  let s := if b.frag.cap.isNone then b.countIssue i s else s
  b.sampleIssue i (b.traceIssue i s)

/-- What stands around every step. -/
def State.settle (s : State) : State :=
  s.sweepKilled.handOutcomes.endSamples.wakeGoals.wakeMatrix.wakeCounters.keepStacks.evictSome.dropCached.tick

/-- A reservation of a host or control core ends when its line changes (R200); `b` is the state before the step. -/
def State.breakResv (b s : State) : State :=
  if (s.slices.all fun (x : Slice) => x.hcores.all (·.2.resv.isNone)) && s.clusters.all (·.2.ccResv.isNone) then s
  else
    let keep := fun (r : Option (Nat × Nat)) => r.filter fun e =>
      s.rawLine (lineIx e.1 (64 * e.2)) = b.rawLine (lineIx e.1 (64 * e.2))
    { s with
      slices := s.slices.map fun (x : Slice) => { x with hcores := x.hcores.map fun h => (h.1, { h.2 with resv := keep h.2.resv }) }
      clusters := s.clusters.map fun c => (c.1, { c.2 with ccResv := keep c.2.ccResv }) }

end Sys2Proof.Machine
end

