-- ==== Sys2Proof/Machine/Step.lean ====
section
/-! DEFINITION. One step of the machine. -/

namespace Sys2Proof.Machine

/-- The outcome with its next state changed. -/
def after (o : Host.Outcome State Fault Refusal) (f : State → State) : Host.Outcome State Fault Refusal :=
  match o with
  | .next s => .next (f s)
  | .fault x => .fault x
  | .refused r => .refused r

/-- One step: what comes next is prepared, its meaning taken, and what stands around it settled. -/
def step (s : State) : Host.Outcome State Fault Refusal :=
  match s.prepare with
  | .issue i b => after (exec i b) fun t => b.breakResv (b.issued i t).settle
  | .event i b => after (exec i b) fun t => b.breakResv t.settle
  | .done t => .next (s.breakResv t.settle)

/-- `s` with an instruction stored where the next step fetches: a group placed from outside the machine whose PC
names its words. -/
def State.withFetchWord (s : State) (nbits w : Nat) : State := s.place nbits w

end Sys2Proof.Machine
end

