-- ==== Sys2Proof/Safety.lean ====
section
/-! DEFINITION. What the statements speak of: the conditions under which an instruction completes, what the rules give
as its result, and what a frame leaves alone. -/

namespace Sys2Proof.Safety

open Sys2Proof.Machine

/-- No step of the first `n` stops. -/
def runs : Nat → State → Bool
  | 0, _ => true
  | n + 1, s =>
    match step s with
    | .next t => runs n t
    | .fault _ => false
    | .refused _ => false

/-! ### When an instruction completes -/

/-- No outstanding result can raise HAZARD: the kernel sets no CHECKED, or no result is outstanding or still to come from
an instruction that the other fragment waits with (R250). -/
def Quiet (s : State) : Prop := s.cur.info.checked = true → s.cur.pend = [] ∧ s.other.cap = none

/-- Every register named lies in the register window (R74). -/
def InWindow (s : State) (rs : List Nat) : Prop := ∀ r ∈ rs, r < s.cur.info.nregs

/-- Every register that must start a pair is even. -/
def EvenRegs (rs : List Nat) : Prop := ∀ r ∈ rs, r % 2 = 0

/-- What a vector instruction asks of its registers (R287, R288): a 64-bit type works on even:odd pairs. -/
def VecReady (s : State) (d a : BitVec 7) (b : Src) : Prop :=
  Quiet s ∧ InWindow s (regs s.wideTy d ++ regs s.wideTy a ++ b.vregs s.wideTy) ∧
    (s.wideTy = true → EvenRegs (d.toNat :: a.toNat :: b.vregs false))

/-! ### Values -/

/-- A lane of v`n`, or of the pair vn:vn+1, as the registers hold it. -/
def laneVal (g : Group) (wide : Bool) (n : BitVec 7) (l : Nat) : Nat :=
  (g.vget n.toNat l).toNat + if wide then (g.vget (n.toNat + 1) l).toNat * 2 ^ 32 else 0

/-- Sub-element `j` of `w` bits of a lane value (R149). -/
def sub (w v j : Nat) : Nat := v / 2 ^ (w * j) % 2 ^ w

/-- Width in bits of a lane or pair under MODE.TYPE. -/
def laneWidth (s : State) : Nat := if s.wideTy then 64 else 32

/-- MODE.TYPE as an integer type. -/
def tyOf (s : State) : IntTy := bitTy s.ty

/-! ### The rules of vector integer instructions -/

/-- Operands of the element-wise instructions: vd, va and the second operand; a one-source instruction names va twice. -/
def vecShape : Instr → Option (BitVec 7 × BitVec 7 × Src)
  | .add d a b => some (d, a, .v b)
  | .addU d a b => some (d, a, .u b)
  | .addi d a i => some (d, a, .i i)
  | .adc d a b => some (d, a, .v b)
  | .sub d a b => some (d, a, .v b)
  | .subU d a b => some (d, a, .u b)
  | .sbb d a b => some (d, a, .v b)
  | .mul d a b => some (d, a, .v b)
  | .mulU d a b => some (d, a, .u b)
  | .muli d a i => some (d, a, .i i)
  | .mad d a b => some (d, a, .v b)
  | .madU d a b => some (d, a, .u b)
  | .neg d a => some (d, a, .v a)
  | .abs d a => some (d, a, .v a)
  | .mulh d a b => some (d, a, .v b)
  | .absdiff d a b => some (d, a, .v b)
  | .min d a b => some (d, a, .v b)
  | .minU d a b => some (d, a, .u b)
  | .max d a b => some (d, a, .v b)
  | .maxU d a b => some (d, a, .u b)
  | .popc d a => some (d, a, .v a)
  | .clz d a => some (d, a, .v a)
  | .and d a b => some (d, a, .v b)
  | .andU d a b => some (d, a, .u b)
  | .or d a b => some (d, a, .v b)
  | .orU d a b => some (d, a, .u b)
  | .xor d a b => some (d, a, .v b)
  | .xorU d a b => some (d, a, .u b)
  | .andn d a b => some (d, a, .v b)
  | .brev d a => some (d, a, .v a)
  | .shl d a b => some (d, a, .v b)
  | .shlU d a b => some (d, a, .u b)
  | .shr d a b => some (d, a, .v b)
  | .shrU d a b => some (d, a, .u b)
  | .rol d a b => some (d, a, .v b)
  | .ror d a b => some (d, a, .v b)
  | .shifti d a _ n => some (d, a, .i (n.setWidth 10))
  | .bfe d a b => some (d, a, .v b)
  | .bfi d a b => some (d, a, .v b)
  | _ => none

/-- The TYPE codes that the instruction's class accepts (R286). -/
def vecTypes : Instr → Nat → Bool
  | .adc _ _ _, t => t = 2 || t = 3 || t = 6 || t = 7
  | .sbb _ _ _, t => t = 2 || t = 3 || t = 6 || t = 7
  | .bfe _ _ _, t => t = 2 || t = 3 || t = 6 || t = 7
  | .bfi _ _ _, t => t = 2 || t = 3 || t = 6 || t = 7
  | .and _ _ _, t => t ≤ 0x0C || t = 0x0F
  | .andU _ _ _, t => t ≤ 0x0C || t = 0x0F
  | .or _ _ _, t => t ≤ 0x0C || t = 0x0F
  | .orU _ _ _, t => t ≤ 0x0C || t = 0x0F
  | .xor _ _ _, t => t ≤ 0x0C || t = 0x0F
  | .xorU _ _ _, t => t ≤ 0x0C || t = 0x0F
  | .andn _ _ _, t => t ≤ 0x0C || t = 0x0F
  | _, t => t ≤ 7

/-- The second operand of a shift is an amount (R294). -/
def isShift : Instr → Bool
  | .shl _ _ _ => true
  | .shlU _ _ _ => true
  | .shr _ _ _ => true
  | .shrU _ _ _ => true
  | .rol _ _ _ => true
  | .ror _ _ _ => true
  | .shifti _ _ _ _ => true
  | _ => false

/-- Sub-element `j` of the second operand as the instruction reads it: a sub-element, or a shift amount. -/
def second (s : State) (i : Instr) (b : Src) (l j : Nat) : Nat :=
  if isShift i then s.amount s.wideTy 1 b (tyOf s).w l j else s.src s.wideTy 1 b (tyOf s).w l j

/-- The exact integer of the instructions that R290, R291 and R294 mark V and SAT, from A, B, D, the shift amount n and
the carry in. -/
def exactRule : Instr → Option (Int → Int → Int → Nat → Nat → Int)
  | .add _ _ _ => some fun a b _ _ _ => a + b
  | .addU _ _ _ => some fun a b _ _ _ => a + b
  | .addi _ _ _ => some fun a b _ _ _ => a + b
  | .adc _ _ _ => some fun a b _ _ c => a + b + c
  | .sub _ _ _ => some fun a b _ _ _ => a - b
  | .subU _ _ _ => some fun a b _ _ _ => a - b
  | .sbb _ _ _ => some fun a b _ _ c => a - b - (1 - c)
  | .mul _ _ _ => some fun a b _ _ _ => a * b
  | .mulU _ _ _ => some fun a b _ _ _ => a * b
  | .muli _ _ _ => some fun a b _ _ _ => a * b
  | .mad _ _ _ => some fun a b d _ _ => a * b + d
  | .madU _ _ _ => some fun a b d _ _ => a * b + d
  | .neg _ _ => some fun a _ _ _ _ => 0 - a
  | .abs _ _ => some fun a _ _ _ _ => |a|
  | .shl _ _ _ => some fun a _ _ n _ => a * 2 ^ n
  | .shlU _ _ _ => some fun a _ _ n _ => a * 2 ^ n
  | .shifti _ _ o _ => if o = 0 then some fun a _ _ n _ => a * 2 ^ n else none
  | _ => none

/-- The integer of the instructions that neither set V nor saturate, from the width, A, B and the bit pattern of A. -/
def plainRule : Instr → Option (Nat → Int → Int → Nat → Int)
  | .mulh _ _ _ => some fun w a b _ => a * b / 2 ^ w
  | .absdiff _ _ _ => some fun _ a b _ => |a - b|
  | .min _ _ _ => some fun _ a b _ => if a ≤ b then a else b
  | .minU _ _ _ => some fun _ a b _ => if a ≤ b then a else b
  | .max _ _ _ => some fun _ a b _ => if a ≤ b then b else a
  | .maxU _ _ _ => some fun _ a b _ => if a ≤ b then b else a
  | .popc _ _ => some fun w _ _ x => ((List.range w).countP x.testBit : Nat)
  | .clz _ _ => some fun w _ _ x => if x = 0 then (w : Int) else w - 1 - x.log2
  | _ => none

/-- The effective length of a bit field of `w` bits at `pos` (R296). -/
def effLen (w pos len : Nat) : Nat := if w ≤ pos then 0 else if len ≤ w - pos then len else w - pos

/-- Bit `k` of the result of the instructions that move bits, from the type, the patterns x of A, y of B and z of D
(R293 to R296). -/
def bitRule : Instr → Option (IntTy → Nat → Nat → Nat → Nat → Bool)
  | .and _ _ _ => some fun _ x y _ k => x.testBit k && y.testBit k
  | .andU _ _ _ => some fun _ x y _ k => x.testBit k && y.testBit k
  | .or _ _ _ => some fun _ x y _ k => x.testBit k || y.testBit k
  | .orU _ _ _ => some fun _ x y _ k => x.testBit k || y.testBit k
  | .xor _ _ _ => some fun _ x y _ k => x.testBit k ^^ y.testBit k
  | .xorU _ _ _ => some fun _ x y _ k => x.testBit k ^^ y.testBit k
  | .andn _ _ _ => some fun _ x y _ k => x.testBit k && !y.testBit k
  | .brev _ _ => some fun t x _ _ k => x.testBit (t.w - 1 - k)
  | .shr _ _ _ => some shrBit
  | .shrU _ _ _ => some shrBit
  | .rol _ _ _ => some rolBit
  | .ror _ _ _ => some rorBit
  | .shifti _ _ o _ => if o = 0 then none else if o = 1 then some shrBit else if o = 2 then some rolBit else some rorBit
  | .bfe _ _ _ => some fun t x y _ k =>
      let n := effLen t.w (y % 256) (y / 256 % 256)
      if k < n then x.testBit (y % 256 + k) else t.signed && decide (0 < n) && x.testBit (y % 256 + n - 1)
  | .bfi _ _ _ => some fun t x y z k =>
      let n := effLen t.w (y % 256) (y / 256 % 256)
      if y % 256 ≤ k ∧ k < y % 256 + n then x.testBit (k - y % 256) else z.testBit k
  | _ => none
where
  shrBit (t : IntTy) (x n _ k : Nat) : Bool := if k + n < t.w then x.testBit (k + n) else t.signed && x.testBit (t.w - 1)
  rolBit (t : IntTy) (x n _ k : Nat) : Bool := x.testBit ((k + t.w - n % t.w) % t.w)
  rorBit (t : IntTy) (x n _ k : Nat) : Bool := x.testBit ((k + n) % t.w)

/-- The carry term of a sub-element, from the width, the patterns of A and B (or the amount) and the carry in (R290,
R291, R294); no other instruction has one. -/
def carryRule : Instr → Option (IntTy → Nat → Nat → Nat → Bool)
  | .add _ _ _ => some addCarry
  | .addU _ _ _ => some addCarry
  | .addi _ _ _ => some addCarry
  | .adc _ _ _ => some fun t x y c => decide (2 ^ t.w ≤ x + y + c)
  | .sub _ _ _ => some subCarry
  | .subU _ _ _ => some subCarry
  | .sbb _ _ _ => some fun _ x y c => decide (y + (1 - c) ≤ x)
  | .neg _ _ => some fun _ x _ _ => decide (x = 0)
  | .shl _ _ _ => some shlCarry
  | .shlU _ _ _ => some shlCarry
  | .shr _ _ _ => some shrCarry
  | .shrU _ _ _ => some shrCarry
  | .shifti _ _ o _ => if o = 0 then some shlCarry else if o = 1 then some shrCarry else none
  | _ => none
where
  addCarry (t : IntTy) (x y _ : Nat) : Bool := decide (2 ^ t.w ≤ x + y)
  subCarry (_ : IntTy) (x y _ : Nat) : Bool := decide (y ≤ x)
  shlCarry (t : IntTy) (x n _ : Nat) : Bool := decide (1 ≤ n ∧ n ≤ t.w) && x.testBit (t.w - n)
  shrCarry (t : IntTy) (x n _ : Nat) : Bool :=
    if n = 0 then false else if n ≤ t.w then x.testBit (n - 1) else t.signed && x.testBit (t.w - 1)

/-! ### Frames -/

/-- A fragment that completes an instruction keeps all but its PC and how far it has come with the instruction there. -/
def FragStep (f g : Frag) : Prop := g = { f with pc := g.pc, done := g.done, beat := g.beat, redo := g.redo, cap := g.cap }

/-- Between `s` and `t` nothing but the group in focus changes: no byte of memory, no cache, queue, block or device
register. -/
def OnlyFocus (s t : State) : Prop := t = { s with cur := t.cur }

/-- In the group in focus only the two fragment records, the loop counters and the noted outcomes change, and only the
program counter and the progress of the issuing fragment in them. -/
def OnlyFlow (s t : State) : Prop :=
  t.cur = { s.cur with f0 := t.cur.f0, f1 := t.cur.f1, lc0 := t.cur.lc0, lc1 := t.cur.lc1, lc2 := t.cur.lc2, checks := t.cur.checks } ∧
    FragStep s.frag (t.cur.frag s.issue.slot) ∧ t.cur.frag (!s.issue.slot) = s.other

/-- `t` with the vector registers, lane codes and outstanding results of `s`. -/
def backVector (s t : State) : State := { t with cur := { t.cur with vregs := s.cur.vregs, regPoison := s.cur.regPoison, cc := s.cur.cc, pend := s.cur.pend } }

/-- `t` with the uniform registers, uniform flags and outstanding results of `s`. -/
def backUniform (s t : State) : State := { t with cur := { t.cur with sregs := s.cur.sregs, flags := s.cur.flags, pend := s.cur.pend } }

/-- Every vector register but those of `rs` reads as before, in every lane. -/
def VecKept (s t : State) (rs : List Nat) : Prop := ∀ n l, n ∉ rs → l < 32 → t.cur.vget n l = s.cur.vget n l

/-- Every byte of memory reads as before. -/
def MemKept (s t : State) : Prop := ∀ a, t.rawByte a = s.rawByte a

/-- A vector result in the registers `rs` of the lanes `m`: no other register, lane, code (unless `cc`) or byte of
memory changes, and nothing outside the group in focus. -/
def VecOnly (s t : State) (rs : List Nat) (m : Mask) (cc : Bool) : Prop :=
  OnlyFocus s t ∧ OnlyFlow s (backVector s t) ∧ VecKept s t rs ∧ MemKept s t ∧
    (∀ n l, l < 32 → m.getLsbD l = false → t.cur.vget n l = s.cur.vget n l) ∧
    (∀ l, m.getLsbD l = false → t.cur.ccget l = s.cur.ccget l) ∧ (cc = false → t.cur.cc = s.cur.cc)

/-- A uniform result in s`d`: no other uniform register, flag (unless `fl`) or byte of memory changes, and nothing
outside the group in focus. s0 reads zero throughout (R246). -/
def UniOnly (s t : State) (d : BitVec 6) (fl : Bool) : Prop :=
  OnlyFocus s t ∧ OnlyFlow s (backUniform s t) ∧ MemKept s t ∧ (∀ n, n ≠ d.toNat → t.cur.sget n = s.cur.sget n) ∧
    t.cur.sget 0 = 0 ∧ (fl = false → t.cur.flags = s.cur.flags)

/-- The codes C, Z, N and V. -/
def CodesAre (f : Codes) (c z n v : Bool) : Prop := Codes.c f = c ∧ Codes.z f = z ∧ Codes.n f = n ∧ Codes.v f = v

/-! ### Comparisons -/

/-- Operands of the integer comparisons, and whether the instruction is the bit test. -/
def cmpShape : Instr → Option (BitVec 7 × Src × Bool)
  | .cmp a b => some (a, .v b, false)
  | .cmpi a i => some (a, .i i, false)
  | .cmpU a b => some (a, .u b, false)
  | .test a b => some (a, .v b, true)
  | _ => none

/-- A pattern of `w` bits read signed. -/
def signedVal (w x : Nat) : Int := if x.testBit (w - 1) then (x : Int) - 2 ^ w else x

/-- The codes of a comparison of two patterns of `w` bits (R298). -/
def CmpCodes (w x y : Nat) (f : Codes) : Prop :=
  CodesAre f (decide (y ≤ x)) (decide (x = y)) (((x + 2 ^ w - y) % 2 ^ w).testBit (w - 1))
    (decide (signedVal w x - signedVal w y < -(2 ^ (w - 1) : Int) ∨ (2 ^ (w - 1) : Int) ≤ signedVal w x - signedVal w y))

/-- The codes of a bit test of two patterns of `w` bits (R298). -/
def TestCodes (w x y : Nat) (f : Codes) : Prop :=
  CodesAre f false (decide (x &&& y = 0)) ((x &&& y).testBit (w - 1)) false

/-! ### The rules of floating-point instructions -/

/-- Operands of the f32 instructions that round: vd, va, the second operand. -/
def f32Shape : Instr → Option (BitVec 7 × BitVec 7 × Src)
  | .fadd d a b => some (d, a, .v b)
  | .faddU d a b => some (d, a, .u b)
  | .fsub d a b => some (d, a, .v b)
  | .fmul d a b => some (d, a, .v b)
  | .fmulU d a b => some (d, a, .u b)
  | .fmac d a b => some (d, a, .v b)
  | .fmacU d a b => some (d, a, .u b)
  | .fmsc d a b => some (d, a, .v b)
  | .fmin d a b => some (d, a, .v b)
  | .fmax d a b => some (d, a, .v b)
  | .frnd d a => some (d, a, .i 0)
  | _ => none

/-- The exact result from A, B and D, under the effective rounding mode (R313, R314, R316), and whether D is read. -/
def f32Rule : Instr → Option (Bool × (Nat → FVal → FVal → FVal → FVal))
  | .fadd _ _ _ => some (false, fun r x y _ => x.add (r = 3) y)
  | .faddU _ _ _ => some (false, fun r x y _ => x.add (r = 3) y)
  | .fsub _ _ _ => some (false, fun r x y _ => x.add (r = 3) y.flip)
  | .fmul _ _ _ => some (false, fun _ x y _ => x.mul y)
  | .fmulU _ _ _ => some (false, fun _ x y _ => x.mul y)
  | .fmac _ _ _ => some (true, fun r x y z => (x.mul y).add (r = 3) z)
  | .fmacU _ _ _ => some (true, fun r x y z => (x.mul y).add (r = 3) z)
  | .fmsc _ _ _ => some (true, fun r x y z => (x.mul y).add (r = 3) z.flip)
  | .fmin _ _ _ => some (false, fun _ x y _ => x.pick false y)
  | .fmax _ _ _ => some (false, fun _ x y _ => x.pick true y)
  | .frnd _ _ => some (false, fun r x _ _ => integral r x)
  | _ => none

/-- The class of R316 as a bit number. -/
def f32Class (x : W32) : Nat :=
  if x.extractLsb' 23 8 = 255 then (if x.extractLsb' 0 23 ≠ 0 then 8 else if x.msb then 0 else 7)
  else if x.extractLsb' 23 8 = 0 then
    (if x.extractLsb' 0 23 = 0 then (if x.msb then 3 else 4) else if x.msb then 2 else 5)
  else if x.msb then 1 else 6

/-- The f32 instructions of R316 that move or classify bits: vd, va and the lane's new value from A and B. -/
def f32Move : Instr → Option (BitVec 7 × BitVec 7 × BitVec 7 × (W32 → W32 → W32))
  | .fabs d a => some (d, a, a, fun x _ => x &&& 0x7FFFFFFF)
  | .fneg d a => some (d, a, a, fun x _ => x ^^^ 0x80000000)
  | .fcopysign d a b => some (d, a, b, fun x y => (x &&& 0x7FFFFFFF) ||| (y &&& 0x80000000))
  | .fclass d a => some (d, a, a, fun x _ => 1#32 <<< f32Class x)
  | _ => none

/-- The packed instructions of R323: operands and the operation. -/
def packRule : Instr → Option (BitVec 7 × BitVec 7 × BitVec 7 × (Nat → FVal → FVal → FVal))
  | .faddp d a b => some (d, a, b, fun r x y => x.add (r = 3) y)
  | .fsubp d a b => some (d, a, b, fun r x y => x.add (r = 3) y.flip)
  | .fmulp d a b => some (d, a, b, fun _ x y => x.mul y)
  | .fminp d a b => some (d, a, b, fun _ x y => x.pick false y)
  | .fmaxp d a b => some (d, a, b, fun _ x y => x.pick true y)
  | _ => none

/-- The packed types of R323 and R324. -/
def packedTy : Nat → Option FloatTy
  | 0x08 => some tyF16
  | 0x09 => some tyBf16
  | 0x0B => some tyE4m3
  | 0x0C => some tyE5m2
  | _ => none

/-- The narrow types of R325 with their wide types. -/
def narrowTy : Nat → Option (FloatTy × FloatTy)
  | 0x08 => some (tyF16, tyF32)
  | 0x09 => some (tyBf16, tyF32)
  | 0x0B => some (tyE4m3, tyF16)
  | 0x0C => some (tyE5m2, tyF16)
  | 0x0D => some (tyE2m1, tyE4m3)
  | _ => none

/-- An input or a result of a special function after the flush of R311. -/
def flushed (s : State) (x : W32) : W32 := if modeFtz s.mode = true ∧ x.extractLsb' 23 8 = 0 then x &&& 0x80000000 else x

/-- The special results of R317, from an input pattern; none where an error bound governs. -/
def sfuSpecial (fn : Nat) (x : W32) : Option W32 :=
  let zero := x &&& 0x7FFFFFFF = 0
  let inf := x &&& 0x7FFFFFFF = 0x7F800000
  let neg := x.msb
  let one : W32 := 0x3F800000
  let nan : W32 := 0x7FC00000
  let sign := x &&& 0x80000000
  if 0x7F800000 < (x &&& 0x7FFFFFFF).toNat then some nan
  else match fn with
    | 0 => if zero then some (sign ||| 0x7F800000) else if inf then some sign else none
    | 1 => if zero then some (sign ||| 0x7F800000) else if neg then some nan else if inf then some 0 else none
    | 2 => if zero then some x else if neg then some nan else if inf then some x else none
    | 3 =>
      if neg then (if 0xC3160000 < x.toNat then some 0 else none) else if 0x43000000 ≤ x.toNat then some 0x7F800000 else none
    | 4 => if zero then some 0xFF800000 else if neg then some nan else if inf then some x else none
    | 5 => if zero then some x else if inf then some nan else none
    | 6 => if zero then some one else if inf then some nan else none
    | _ => if zero then some x else if 0x41180000 ≤ (x &&& 0x7FFFFFFF).toNat then some (sign ||| one) else none

/-! ### The rules of cross-lane instructions -/

/-- A result computed from several lanes: vd, va, and the source lane of lane l; none when it is out of range (R329,
R332). -/
def shuffleRule (s : State) : Instr → Option (BitVec 7 × BitVec 7 × List Nat × (Nat → Option Nat))
  | .shflIdx d a b => some (d, a, [b.toNat], fun l => some ((s.vread 1 b.toNat l).toNat % 32))
  | .shflUp d a i => some (d, a, [], fun l => if off i ≤ l then some (l - off i) else none)
  | .shflDn d a i => some (d, a, [], fun l => if l + off i < 32 then some (l + off i) else none)
  | .shflXor d a i => some (d, a, [], fun l => if l ^^^ off i < 32 then some (l ^^^ off i) else none)
  | .qswap d a q y => some (d, a, [], fun l =>
      some (if y = 0 then l ^^^ 1 else if y = 1 then l ^^^ 2 else if y = 2 then l ^^^ 3 else l / 4 * 4 + q.toNat))
  | _ => none
where
  off (i : BitVec 7) : Nat := if i.getLsbD 6 then 32 / 2 ^ (i.extractLsb' 0 3).toNat else (i.extractLsb' 0 6).toNat

/-- `qswap` writes no codes. -/
def isQswap : Instr → Bool
  | .qswap _ _ _ _ => true
  | _ => false

/-- Lanes of a span code (R333). -/
def spanOf (n : BitVec 3) : Nat := if n = 0 then 4 else if n = 1 then 8 else if n = 2 then 16 else 32

/-- What lane `l` of a group combines: the active lanes of its segment, for `scan` those up to it or below it. -/
def contributors (s : State) (i : Instr) (l : Nat) : List Nat :=
  match i with
  | .lred _ _ n _ => (List.range 32).filter fun m => s.active.getLsbD m && m / spanOf n = l / spanOf n
  | .scan _ _ e n _ => (List.range 32).filter fun m =>
      s.active.getLsbD m && m / spanOf n = l / spanOf n && (if e = 1 then m < l else m ≤ l)
  | _ => []

/-- Operands of `lred` and `scan`: vd, va and the operation. -/
def collectiveShape : Instr → Option (BitVec 7 × BitVec 7 × BitVec 3)
  | .lred d a _ o => some (d, a, o)
  | .scan d a _ _ o => some (d, a, o)
  | _ => none

/-- The integer combination of R333 by its op. -/
def combineRule (ty : IntTy) (o : BitVec 3) (sat : Bool) (xs : List Nat) : Nat :=
  let vs := xs.map ty.read
  match o.toNat with
  | 0 => wrap ty.w (if sat then ty.saturate vs.sum else vs.sum)
  | 1 => wrap ty.w (vs.foldr min ty.hi)
  | 2 => wrap ty.w (vs.foldr max ty.lo)
  | 3 => xs.foldr (· &&& ·) (2 ^ ty.w - 1)
  | 4 => xs.foldr (· ||| ·) 0
  | _ => xs.foldr (· ^^^ ·) 0

/-! ### The rules of uniform instructions -/

/-- A signed right shift of 64 bits. -/
def sra (x : W64) (n : Nat) : W64 := x.sshiftRight n

/-- A bit field of 64 bits (R304). -/
def fieldOf (x b : W64) : W64 :=
  let pos := (b.extractLsb' 0 8).toNat
  let n := effLen 64 pos (b.extractLsb' 8 8).toNat
  if n = 0 then 0
  else if b.getLsbD 16 then sra (x <<< (64 - pos - n)) (64 - n) else (x <<< (64 - pos - n)) >>> (64 - n)

/-- Operands and value of the uniform instructions (R302 to R305): sd, the registers named, the value. -/
def uniRule (s : State) : Instr → Option (BitVec 6 × W64)
  | .sadd d a b => some (d, s.uread 0 a.toNat + s.uread 1 b.toNat)
  | .ssub d a b => some (d, s.uread 0 a.toNat - s.uread 1 b.toNat)
  | .smul d a b => some (d, s.uread 0 a.toNat * s.uread 1 b.toNat)
  | .smulh d a b => some (d, ((s.uread 0 a.toNat).signExtend 128 * (s.uread 1 b.toNat).signExtend 128).extractLsb' 64 64)
  | .sdiv d a b => some (d, if s.uread 1 b.toNat = 0 then BitVec.allOnes 64 else (s.uread 0 a.toNat).sdiv (s.uread 1 b.toNat))
  | .srem d a b => some (d, if s.uread 1 b.toNat = 0 then s.uread 0 a.toNat else (s.uread 0 a.toNat).srem (s.uread 1 b.toNat))
  | .sand d a b => some (d, s.uread 0 a.toNat &&& s.uread 1 b.toNat)
  | .sor d a b => some (d, s.uread 0 a.toNat ||| s.uread 1 b.toNat)
  | .sxor d a b => some (d, s.uread 0 a.toNat ^^^ s.uread 1 b.toNat)
  | .sshl d a b => some (d, s.uread 0 a.toNat <<< (s.uread 1 b.toNat).toNat)
  | .sshr d a b => some (d, s.uread 0 a.toNat >>> (s.uread 1 b.toNat).toNat)
  | .ssra d a b => some (d, sra (s.uread 0 a.toNat) (s.uread 1 b.toNat).toNat)
  | .smin d a b => some (d, if (s.uread 0 a.toNat).sle (s.uread 1 b.toNat) then s.uread 0 a.toNat else s.uread 1 b.toNat)
  | .smax d a b => some (d, if (s.uread 0 a.toNat).sle (s.uread 1 b.toNat) then s.uread 1 b.toNat else s.uread 0 a.toNat)
  | .ssel d a b => some (d, if condHolds (modeGuard s.mode) (s.flread 0) then s.uread 0 a.toNat else s.uread 1 b.toNat)
  | .smov d a => some (d, s.uread 0 a.toNat)
  | .spopc d a => some (d, BitVec.ofNat 64 ((List.range 64).countP (s.uread 0 a.toNat).getLsbD))
  | .sclz d a => some (d, BitVec.ofNat 64 (if s.uread 0 a.toNat = 0 then 64 else 63 - (s.uread 0 a.toNat).toNat.log2))
  | .sbfe d a b => some (d, fieldOf (s.uread 0 a.toNat) (s.uread 1 b.toNat))
  | .sbfi d a b =>
      let x := s.uread 1 b.toNat
      let pos := (x.extractLsb' 0 8).toNat
      let m : W64 := (BitVec.ofNat 64 (2 ^ effLen 64 pos (x.extractLsb' 8 8).toNat - 1)) <<< pos
      some (d, (s.uread 2 d.toNat &&& ~~~m) ||| ((s.uread 0 a.toNat <<< pos) &&& m))
  | .saddi d a i => some (d, s.uread 0 a.toNat + i.signExtend 64)
  | .smovl d lit => some (d, lit.signExtend 64)
  | .smovh d lit => some (d, (lit.setWidth 64 <<< 32) ||| (s.uread 0 d.toNat &&& 0xFFFFFFFF))
  | _ => none

/-- `smov`, `ssel`, `smovl` and `smovh` write no flags (R302). -/
def uniSilent : Instr → Bool
  | .smov _ _ => true
  | .ssel _ _ _ => true
  | .smovl _ _ => true
  | .smovh _ _ => true
  | _ => false

/-- Carry term and V of a uniform instruction (R302, R303). -/
def uniMarks (s : State) : Instr → Bool × Bool
  | .sadd _ a b => (decide (2 ^ 64 ≤ (s.uread 0 a.toNat).toNat + (s.uread 1 b.toNat).toNat), out ((s.uread 0 a.toNat).toInt + (s.uread 1 b.toNat).toInt))
  | .saddi _ a i => (decide (2 ^ 64 ≤ (s.uread 0 a.toNat).toNat + (i.signExtend 64).toNat), out ((s.uread 0 a.toNat).toInt + i.toInt))
  | .ssub _ a b => (decide ((s.uread 1 b.toNat).toNat ≤ (s.uread 0 a.toNat).toNat), out ((s.uread 0 a.toNat).toInt - (s.uread 1 b.toNat).toInt))
  | .smul _ a b => (false, out ((s.uread 0 a.toNat).toInt * (s.uread 1 b.toNat).toInt))
  | .sdiv _ a b => (false, decide (s.uread 1 b.toNat = 0) || decide (s.uread 0 a.toNat = BitVec.intMin 64 ∧ s.uread 1 b.toNat = BitVec.allOnes 64))
  | .srem _ a b => (false, decide (s.uread 1 b.toNat = 0) || decide (s.uread 0 a.toNat = BitVec.intMin 64 ∧ s.uread 1 b.toNat = BitVec.allOnes 64))
  | .sshl _ a b =>
      let n := (s.uread 1 b.toNat).toNat
      (decide (1 ≤ n ∧ n ≤ 64) && (s.uread 0 a.toNat).getLsbD (64 - n), out ((s.uread 0 a.toNat).toInt * 2 ^ n))
  | .sshr _ a b =>
      let n := (s.uread 1 b.toNat).toNat
      (if n = 0 then false else decide (n ≤ 64) && (s.uread 0 a.toNat).getLsbD (n - 1), false)
  | .ssra _ a b =>
      let n := (s.uread 1 b.toNat).toNat
      (if n = 0 then false else if n ≤ 64 then (s.uread 0 a.toNat).getLsbD (n - 1) else (s.uread 0 a.toNat).msb, false)
  | _ => (false, false)
where
  out (x : Int) : Bool := decide (x < -(2 ^ 63) ∨ 2 ^ 63 ≤ x)

/-! ### Control flow -/

/-- After a transfer of control: the program counter and call depth of the issuing fragment; no loop counter moves
(R267, R268). -/
def Went (s t : State) (pc : W64) (depth : BitVec 8) : Prop :=
  (t.cur.frag s.issue.slot).pc = pc ∧ (t.cur.frag s.issue.slot).depth = depth ∧ ∀ k, t.cur.lc k = s.cur.lc k

/-- `t` with the uniform registers, outstanding results and call depth of `s`. -/
def backCall (s t : State) : State :=
  { t with cur := { t.cur.onFrag s.issue.slot (fun f => { f with depth := s.frag.depth }) with sregs := s.cur.sregs, pend := s.cur.pend } }

/-- A transfer of control that may write s`d`: no other register, no flag or code, and no byte of memory changes. -/
def JumpOnly (s t : State) (d : BitVec 6) : Prop :=
  OnlyFocus s t ∧ OnlyFlow s (backCall s t) ∧ MemKept s t ∧ ∀ n, n ≠ d.toNat ∨ n = 0 → t.cur.sget n = s.cur.sget n

/-- Counter `k` ends with the word at `e` (R274). -/
def endsAt (g : Group) (k : Nat) (e : W64) : Prop := (g.lc k).count ≠ 0 ∧ (g.lc k).start + 4 * (g.lc k).len.setWidth 64 = e

/-- Counter `j` is looked at before counter `k`: its NEST is higher. Active counters of equal NEST do not arise; the
model takes the lower one first. -/
def ahead (g : Group) (j k : Nat) : Prop :=
  (g.lc k).nest.toNat < (g.lc j).nest.toNat ∨ ((g.lc k).nest = (g.lc j).nest ∧ j < k)

/-- The end check at `e` takes the counters of `g` to those of `h` and repeats at `r`, or at nothing (R274). -/
def EndCheck (g h : Group) (e : W64) (r : Option W64) : Prop :=
  match r with
  | some t => ∃ k < 3, endsAt g k e ∧ 1 < (g.lc k).count.toNat ∧ t = (g.lc k).start ∧
      h.lc k = { g.lc k with count := (g.lc k).count - 1 } ∧
      ∀ j < 3, j ≠ k →
        (endsAt g j e ∧ ahead g j k → (g.lc j).count = 1 ∧ h.lc j = { g.lc j with count := 0 }) ∧
        (¬ (endsAt g j e ∧ ahead g j k) → h.lc j = g.lc j)
  | none => ∀ k < 3,
      (endsAt g k e → (g.lc k).count = 1 ∧ h.lc k = { g.lc k with count := 0 }) ∧ (¬ endsAt g k e → h.lc k = g.lc k)

/-- F completes its instruction in sequence, from the counters of `g` to those of `h`: it continues behind the words of
the instruction, or where an end check of one of its words repeats (R274); after the lanes of a deferred fault at RPC
(R398). -/
def InSequence (s : State) (g h : Group) : Prop :=
  let pc := (h.frag s.issue.slot).pc
  match s.frag.redo with
  | some r => pc = r ∧ ∀ k, h.lc k = g.lc k
  | none => ∃ m r, EndCheck g m s.issue.pc r ∧
      match r with
      | some a => pc = a ∧ ∀ k, h.lc k = m.lc k
      | none =>
        if s.issue.words = 2 then ∃ q, EndCheck m h (s.issue.pc + 4) q ∧ pc = q.getD (s.issue.pc + 8)
        else pc = s.issue.pc + BitVec.ofNat 64 (4 * s.issue.words) ∧ ∀ k, h.lc k = m.lc k

/-- The instruction raises this fault. -/
def Raises (i : Instr) (s : State) (f : Flt) : Prop := exec i s = .next (s.raise f)

/-- A record of the stack, or a fragment, by lanes, PC and DEPTH. -/
def point (f : Frag) : Mask × W64 × BitVec 8 := (f.mask, f.pc, f.depth)

/-- A fragment split off by `brv`, READY with F's DEPTH (R209). -/
def IsPart (s : State) (f : Frag) (m : Mask) (pc : W64) : Prop := point f = (m, pc, s.frag.depth) ∧ f.st = .ready

/-- MODE field that holds a bit, as the mask bit of `setm` selects it (R252, R254). -/
def modeField (k : Nat) : Nat :=
  if k < 5 then 0 else if k < 8 then 1 else if k < 12 then 2 else if k < 13 then 3 else if k < 16 then 4 else if k < 17 then 5 else 6

/-- The registers that `movsr` reads at user level (R204, R255). -/
def userRegs (s : State) : List (BitVec 12 × Nat) :=
  let i := s.cur.info
  [(0x000, 32), (0x003, i.key.grp), (0x004, i.key.blk.blk % 2 ^ 32), (0x005, i.gang % 2 ^ 32 + i.rank * 2 ^ 32), (0x006, i.core),
   (0x007, i.slice), (0x008, i.key.blk.part), (0x010, s.cycle - s.cur.clkBase), (0x011, (s.part s.pid).vclock),
   (0x020, i.iterBeg.toNat), (0x021, i.iterEnd.toNat), (0x022, i.fixup.toNat)]

/-- The privileged registers of the issuing slot's trap state: number, value, and the state after a write (R255, R283). -/
def trapRegs (t : Trap) (v : W64) : List (BitVec 12 × W64 × Trap) :=
  [(0x040, t.tpc, { t with tpc := v }), (0x041, t.tcause.setWidth 64, { t with tcause := v.setWidth 8 }),
   (0x042, t.taddr, { t with taddr := v }), (0x043, t.tmask.setWidth 64, { t with tmask := (v.setWidth 32).setWidth 128 }),
   (0x044, (t.tmask >>> 64).setWidth 64, t), (0x045, t.tbeat.setWidth 64, { t with tbeat := v.setWidth 3 })]

/-- `t` with the trap state of the issuing slot and the level as in `s`. -/
def backTrap (s t : State) : State := { t with cur := { t.cur with t0 := s.cur.t0, t1 := s.cur.t1, priv := s.cur.priv } }

/-! ### Memory instructions -/

/-- A lane has performed its access: its results, whether L1 served it, and whether an open transaction read them from a
versioned line (R144). -/
def Did (e : LaneEnd) (s : State) (us : List ResWrite) (hit ver : Bool) : Prop :=
  (e = .ok s us hit ∧ ver = false) ∨ (e = .okVer s us ∧ hit = false ∧ ver = true)

/-- Lanes perform their accesses in ascending order from one state to the next: results by lane, and the lanes that L1
did not serve. -/
inductive Performs (f : Nat → State → LaneEnd) : List Nat → State → State → List LaneRes → Mask → Prop where
  | nil (s : State) : Performs f [] s s [] 0
  | cons {l : Nat} {ls : List Nat} {s s' t : State} {ws rs : List LaneRes} {us : List ResWrite} {hit ver : Bool} {miss : Mask}
      (here : Did (f l s) s' us hit ver) (rest : Performs f ls s' t rs miss) (all : ws = us.map (fun w => ⟨l, ver, w⟩) ++ rs) :
      Performs f (l :: ls) s t ws ((if hit then 0 else 1#32 <<< l) ||| miss)

/-- Lanes try their accesses in ascending order; a lane that fails changes nothing of its own and is not done, and the
first that fails gives the fault (R344, R345). -/
inductive Tries (f : Nat → State → LaneEnd) : List Nat → State → State → List LaneRes → Mask → Option Flt → Prop where
  | nil (s : State) : Tries f [] s s [] 0 none
  | done {l : Nat} {ls : List Nat} {s s' t : State} {ws rs : List LaneRes} {us : List ResWrite} {hit ver : Bool}
      {m : Mask} {x : Option Flt} (here : Did (f l s) s' us hit ver) (rest : Tries f ls s' t rs m x)
      (all : ws = us.map (fun w => ⟨l, ver, w⟩) ++ rs) : Tries f (l :: ls) s t ws (1#32 <<< l ||| m) x
  | fails {l : Nat} {ls : List Nat} {s s' t : State} {rs : List LaneRes} {m : Mask} {x : Option Flt} {y : Flt}
      (here : f l s = .flt y s') (rest : Tries f ls s' t rs m x) : Tries f (l :: ls) s t rs m (some y)

/-- Beats one after another: no lane performs an access of a beat before every lane of the beat below (R345). -/
inductive PerformsBeats (ls : List Nat) (f : Nat → Nat → State → LaneEnd) :
    List Nat → State → State → List LaneRes → Mask → Prop where
  | nil (s : State) : PerformsBeats ls f [] s s [] 0
  | cons {i : Nat} {is : List Nat} {s s' t : State} {ws rs qs : List LaneRes} {m n : Mask}
      (beat : Performs (f i) ls s s' rs m) (rest : PerformsBeats ls f is s' t qs n) (all : ws = rs ++ qs) :
      PerformsBeats ls f (i :: is) s t ws (m ||| n)

/-- How results of lanes stand outstanding (R250): what an open transaction read of versioned lines apart (R144). -/
def outstanding (s : State) (ws : List LaneRes) : List Pend :=
  [false, true].filterMap fun v => match ws.filter (·.ver = v) with
    | [] => none
    | l => some ⟨s.frag.mask, l.map (·.res), s.frag.checkedFor, v, s.issue.pc⟩

/-- The lanes of a mask in ascending order. -/
def lanes (m : Mask) : List Nat := (List.range 32).filter fun l => m.getLsbD l

/-- Access size a of R341. -/
def accessSize (s : State) : Nat := if s.wideTy then 8 else 4

/-- Registers of one value. -/
def perValue (s : State) : Nat := if s.wideTy then 2 else 1

/-- `ea(l)` with a literal (R265, R248). -/
def eaOf (s : State) (o : BitVec 7) (b : BitVec 6) (lit : W32) (l : Nat) : W64 :=
  s.uread 1 b.toNat + BitVec.ofNat 64 ((s.vread 1 o.toNat l).toNat * typeBits s.ty / 8) + lit.signExtend 64

/-- Address of lane `l` in a beat of `spill` and `fill` (R354). -/
def rowOf (s : State) (o : BitVec 7) (b : BitVec 6) (i l : Nat) : W64 :=
  s.uread 1 b.toNat + 4 * (s.vread 1 o.toNat l).setWidth 64 + BitVec.ofNat 64 (128 * i)

/-- What a memory instruction with per-lane accesses does: its lanes, its count, the access of a beat and lane, and the
state it starts from. -/
structure Plan where
  mask : Mask
  count : Nat
  act : Nat → Nat → State → LaneEnd
  start : State
  /-- the instruction is a store -/
  stores : Bool

/-- A free number's place for beat `i` of lane `l`. -/
def slotOf (i l : Nat) : Nat := drawIx (11 + i) 0 l

/-- Global loads and stores, spills and fills by their lanes, beats and addresses (R341, R346, R354). -/
def globalPlan (s : State) : Instr → Option Plan
  | .ld t o b n _ => some (load t (fun i l => eaOf s o b 0 l + BitVec.ofNat 64 (i * accessSize s)) n)
  | .ldx t o b n _ lit => some (load t (fun i l => eaOf s o b lit l + BitVec.ofNat 64 (i * accessSize s)) n)
  | .fill t o b n => some ⟨s.frag.mask, 2 ^ n.toNat, fun i l x =>
      x.loadAt s.l1Held 4 (slotOf i l) (rowOf s o b i l) fun v => [.vec (t.toNat + i) l (BitVec.ofNat 32 v)],
      s.countLoad, false⟩
  | .st t o b n _ => some (store t (fun i l => eaOf s o b 0 l + BitVec.ofNat 64 (i * accessSize s)) n)
  | .stx t o b n _ lit => some (store t (fun i l => eaOf s o b lit l + BitVec.ofNat 64 (i * accessSize s)) n)
  | .spill t o b n => some ⟨s.frag.mask, 2 ^ n.toNat, fun i l x =>
      x.storeAt 4 (slotOf i l) (rowOf s o b i l)
        (s.storeVal s.frag.mask (rowOf s o b) (fun i l => (s.vread 0 (t.toNat + i) l).toNat) i l) s.storeSince, s, true⟩
  | _ => none
where
  reg (t : BitVec 7) (i : Nat) : Nat := t.toNat + i * perValue s
  load (t : BitVec 7) (a : Nat → Nat → W64) (n : BitVec 2) : Plan :=
    ⟨s.active, 2 ^ n.toNat, fun i l x =>
      x.loadAt s.l1Held (accessSize s) (slotOf i l) (a i l) (laneWrites (reg t i) l s.wideTy), s.countLoad, false⟩
  store (t : BitVec 7) (a : Nat → Nat → W64) (n : BitVec 2) : Plan :=
    ⟨s.active, 2 ^ n.toNat, fun i l x =>
      x.storeAt (accessSize s) (slotOf i l) (a i l)
        (s.storeVal s.active a (fun i l => s.laneVal (reg t i) l s.wideTy) i l) s.storeSince, s, true⟩

/-- Local loads and stores, and the tagged instructions (R341, R346, R348). -/
def localPlan (s : State) : Instr → Option Plan
  | .ldl t o b n _ => some ⟨s.active, 2 ^ n.toNat, fun i l x =>
      x.localLoadAt (accessSize s) (la o b l + BitVec.ofNat 32 (i * accessSize s)) (laneWrites (reg t i) l s.wideTy), s, false⟩
  | .stl t o b n _ => some ⟨s.active, 2 ^ n.toNat, fun i l x =>
      x.localStoreAt (accessSize s) (at32 o b i l)
        (s.storeVal s.active (at32 o b) (fun i l => s.laneVal (reg t i) l s.wideTy) i l), s, true⟩
  | .ldf t o b _ => some (tag .ldf t o b)
  | .ldfTake t o b _ => some (tag .take t o b)
  | .ste t o b _ => some (tag .ste t o b)
  | .stf t o b _ => some (tag .stf t o b)
  | .tset o b _ => some (tag .set 0 o b)
  | .tclr o b _ => some (tag .clr 0 o b)
  | .trd t o b _ => some (tag .rd t o b)
  | _ => none
where
  reg (t : BitVec 7) (i : Nat) : Nat := t.toNat + i * perValue s
  la (o : BitVec 7) (b : BitVec 6) (l : Nat) : W32 := (eaOf s o b 0 l).setWidth 32
  at32 (o : BitVec 7) (b : BitVec 6) (i l : Nat) : W32 := la o b l + BitVec.ofNat 32 (i * accessSize s)
  tag (op : TagStep) (t o : BitVec 7) (b : BitVec 4) : Plan :=
    ⟨s.active, 1, fun _ l x =>
      x.tagAt op (la o (b.setWidth 6) l) l t.toNat (if op.stores then (s.vread 0 t.toNat l).toNat else 0), s, op.stores⟩

/-- What the instruction asks of its registers, its order and MODE.TYPE (R340, R343, R348). -/
def memReady (s : State) : Instr → Prop
  | .ld t o _ n r => r ≠ 2 ∧ typeBits s.ty ≠ 0 ∧ vectors t o n
  | .ldx t o _ n r _ => r ≠ 2 ∧ typeBits s.ty ≠ 0 ∧ vectors t o n
  | .ldl t o _ n r => r ≠ 2 ∧ typeBits s.ty ≠ 0 ∧ vectors t o n
  | .st t o _ n r => r ≠ 1 ∧ typeBits s.ty ≠ 0 ∧ vectors t o n
  | .stx t o _ n r _ => r ≠ 1 ∧ typeBits s.ty ≠ 0 ∧ vectors t o n
  | .stl t o _ n r => r ≠ 1 ∧ typeBits s.ty ≠ 0 ∧ vectors t o n
  | .fill t o _ n => o.toNat < s.cur.info.nregs ∧ t.toNat + 2 ^ n.toNat ≤ s.cur.info.nregs
  | .spill t o _ n => o.toNat < s.cur.info.nregs ∧ t.toNat + 2 ^ n.toNat ≤ s.cur.info.nregs
  | .ldf t o _ _ => word ∧ InWindow s [o.toNat, t.toNat]
  | .ldfTake t o _ _ => word ∧ InWindow s [o.toNat, t.toNat]
  | .ste t o _ _ => word ∧ InWindow s [o.toNat, t.toNat]
  | .stf t o _ _ => word ∧ InWindow s [o.toNat, t.toNat]
  | .tset o _ _ => word ∧ InWindow s [o.toNat]
  | .tclr o _ _ => word ∧ InWindow s [o.toNat]
  | .trd t o _ _ => word ∧ InWindow s [o.toNat, t.toNat]
  | _ => False
where
  vectors (t o : BitVec 7) (n : BitVec 2) : Prop :=
    o.toNat < s.cur.info.nregs ∧ t.toNat + 2 ^ n.toNat * perValue s ≤ s.cur.info.nregs ∧ (s.wideTy = true → t.toNat % 2 = 0)
  word : Prop := s.ty = 0x02 ∨ s.ty = 0x06 ∨ s.ty = 0x0A

/-- A load that a W marker lets miss-split (R210): relaxed `ld` and `ldx` outside hardware loops, the other slot FREE,
some lanes that hit and some that miss. -/
def splits (s : State) (i : Instr) (t : State) (miss : Mask) : Prop :=
  (match i with
    | .ld _ _ _ _ r => r = 0
    | .ldx _ _ _ _ r _ => r = 0
    | _ => False) ∧
  t.issue.w = true ∧ t.other.st = .free ∧ t.cur.loopActive = false ∧ miss ≠ 0 ∧ s.active &&& ~~~miss ≠ 0 ∧ t.frag.redo = none

/-- A translation that serves an access as it stands, and the home takes it: aligned, memory, not LOST, nothing holds it
(R344). -/
def Reaches (s : State) (kind n : Nat) (gva : W64) (t : Translation) (ppa : Nat) : Prop := s.reach kind n gva = .mem t ppa s

/-- No line of another mode stands in the core's own L1 (R115). -/
def ModeFree (s : State) (ppa : Nat) (hc : Bool) : Prop :=
  ∀ x, (s.core s.coreKey).l1At s.pid (ppa / 64) = some x → x.isHc = hc

/-- The L1 holds the line and no more than its size, or has room for it. -/
def L1Room (s : State) (ppa : Nat) : Prop :=
  (((s.core s.coreKey).l1At s.pid (ppa / 64)).isSome = true ∧ (s.core s.coreKey).l1.length ≤ s.l1Lines s.coreKey) ∨
    (s.core s.coreKey).l1.length < s.l1Lines s.coreKey

/-- No L1 holds a poisoned word of the line (R128). -/
def CleanCopies (s : State) (ppa : Nat) : Prop := ∀ c ∈ s.cores, ∀ w ∈ c.l1Bad, ¬ (w.1 = s.pid ∧ w.2.1 = ppa / 64)

/-- Of the group in focus nothing but its energy and its counters changes. -/
def OnlyCounters (s t : State) : Prop := t.cur = { s.cur with energy := t.cur.energy, ctrs := t.cur.ctrs }

/-- A window line that nothing stands in the way of: its block is resident, the owner's line is touched, no stash
entry covers it, nothing is published from it (R80, R86, R91, R97). -/
def PlainWindow (s : State) (k : BlockKey) (off : Nat) (b : Block) : Prop :=
  s.block? k = some b ∧ b.resident = true ∧ (b.crit = true → mget false b.touched (off / 64) = true) ∧
    b.entryAt off = none ∧ b.outb = []

/-- What else a local store leaves alone: nothing outside the block and the group's energy counter. -/
def OnlyWindow (s t : State) (k : BlockKey) (b : Block) : Prop :=
  t = { s with cur := { s.cur with energy := t.cur.energy }, blocks := t.blocks } ∧ t.block? k = some b ∧
    ∀ j, j ≠ k → t.block? j = s.block? j

/-- Bytes of a value, the lowest first. -/
def byteOf (v i : Nat) : Byte := BitVec.ofNat 8 (v / 256 ^ i)

/-- The value of `n` bytes, the lowest first. -/
def valueOf (f : Nat → Byte) : Nat → Nat
  | 0 => 0
  | n + 1 => (f 0).toNat + 256 * valueOf (fun i => f (i + 1)) n

/-- A range lies within one line of 64 bytes. -/
def InLine (ppa n : Nat) : Prop := ppa % 64 + n ≤ 64

/-! ### Atomics -/

/-- `atom` and `red`: operation, whether it returns, vt, vo, sb, order. -/
def atomShape : Instr → Option (AtomOp × Bool × BitVec 7 × BitVec 7 × BitVec 4 × BitVec 2)
  | .atomAdd t o b r => some (.add, true, t, o, b, r)
  | .atomMin t o b r => some (.min, true, t, o, b, r)
  | .atomMax t o b r => some (.max, true, t, o, b, r)
  | .atomAnd t o b r => some (.and, true, t, o, b, r)
  | .atomOr t o b r => some (.or, true, t, o, b, r)
  | .atomXor t o b r => some (.xor, true, t, o, b, r)
  | .atomExch t o b r => some (.exch, true, t, o, b, r)
  | .atomCas t o b r => some (.cas, true, t, o, b, r)
  | .atomFadd t o b r => some (.fadd, true, t, o, b, r)
  | .atomFaddp t o b r => some (.faddp, true, t, o, b, r)
  | .redAdd t o b r => some (.add, false, t, o, b, r)
  | .redMin t o b r => some (.min, false, t, o, b, r)
  | .redMax t o b r => some (.max, false, t, o, b, r)
  | .redAnd t o b r => some (.and, false, t, o, b, r)
  | .redOr t o b r => some (.or, false, t, o, b, r)
  | .redXor t o b r => some (.xor, false, t, o, b, r)
  | .redFadd t o b r => some (.fadd, false, t, o, b, r)
  | .redFaddp t o b r => some (.faddp, false, t, o, b, r)
  | _ => none

/-- `atomu`: operation, st, sb. -/
def atomuShape : Instr → Option (AtomOp × BitVec 6 × BitVec 4)
  | .atomuAdd t b _ => some (.add, t, b)
  | .atomuMin t b _ => some (.min, t, b)
  | .atomuMax t b _ => some (.max, t, b)
  | .atomuAnd t b _ => some (.and, t, b)
  | .atomuOr t b _ => some (.or, t, b)
  | .atomuXor t b _ => some (.xor, t, b)
  | .atomuExch t b _ => some (.exch, t, b)
  | .atomuCas t b _ => some (.cas, t, b)
  | .atomuFadd t b _ => some (.fadd, t, b)
  | .atomuFaddp t b _ => some (.faddp, t, b)
  | _ => none

/-- Types an atomic takes (R350). -/
def atomTypes (op : AtomOp) (t : Nat) : Prop :=
  let whole := t = 2 ∨ t = 3 ∨ t = 6 ∨ t = 7
  match op with
  | .add => whole
  | .min => whole
  | .max => whole
  | .fadd => t = 0x0A
  | .faddp => t = 0x08 ∨ t = 0x09
  | _ => whole ∨ t = 0x0A

/-- The read-modify-write of one address: a far or near one of global memory, or one of a local window. -/
abbrev Site := State → (Nat → Option Nat) → RmwOut

/-- What an atomic returns to a lane, and whether an open transaction found it in a versioned line (R144). -/
structure LaneOld where
  lane : Nat
  old : Nat
  ver : Bool

/-- The lanes of one address (R119): combined into one step, each lane returning what it would have found; or one at a
time in ascending order for exch and cas. -/
inductive OneAddress (c : AtomCtx) (val : Nat → Nat × Nat) (go : Site) : List Nat → State → State → List LaneOld → Prop where
  | together {ls : List Nat} {s t : State} {old : Nat} {ver : Bool} (op : c.op ≠ .exch ∧ c.op ≠ .cas)
      (step : go s (fun x => some (c.combine x ((ls.map fun l => (val l).1).foldl c.combine c.identity))) = .ok old ver t) :
      OneAddress c val go ls s t
        (ls.map fun l => ⟨l, c.combine old (((ls.takeWhile (· ≠ l)).map fun k => (val k).1).foldl c.combine c.identity), ver⟩)
  | none {s : State} (op : c.op = .exch ∨ c.op = .cas) : OneAddress c val go [] s s []
  | next {l : Nat} {ls : List Nat} {s s' t : State} {old : Nat} {ver : Bool} {rs : List LaneOld} (op : c.op = .exch ∨ c.op = .cas)
      (step : go s (fun x => if c.op = .cas then (if x = (val l).1 then some (val l).2 else .none) else some (val l).1) = .ok old ver s')
      (rest : OneAddress c val go ls s' t rs) : OneAddress c val go (l :: ls) s t (⟨l, old, ver⟩ :: rs)

/-- Every address in the order of its lowest lane. The operations on one address are one write of a versioned line: they
follow the timestamp that was the last when they began (R148). -/
inductive EveryAddress (c : AtomCtx) (val : Nat → Nat × Nat) (go : Option Nat → Nat → W64 → Site) :
    List (W64 × List Nat) → State → State → List LaneOld → Prop where
  | nil (s : State) : EveryAddress c val go [] s s []
  | cons {a : W64} {ls : List Nat} {r : List (W64 × List Nat)} {s s' t : State} {xs ys : List LaneOld}
      (one : OneAddress c val (go s.storeSince (ls.headD 0) a) ls s s' xs) (rest : EveryAddress c val go r s' t ys) :
      EveryAddress c val go ((a, ls) :: r) s t (xs ++ ys)

/-- The distinct addresses of lanes, each with its lanes in ascending order. -/
def addresses (ls : List Nat) (a : Nat → W64) : List (W64 × List Nat) :=
  ((ls.map a).eraseDups).map fun x => (x, ls.filter fun l => a l = x)

/-- The translations of a global atomic, made for every lane before the first operation (R119). -/
inductive Translates (n : Nat) (a : Nat → W64) : List Nat → State → State → Prop where
  | nil (s : State) : Translates n a [] s s
  | mem {l : Nat} {ls : List Nat} {s s' t : State} {x : Translation} {ppa : Nat}
      (here : s.reach Kind.atomic n (a l) = .mem x ppa s') (rest : Translates n a ls s' t) : Translates n a (l :: ls) s t
  | reg {l : Nat} {ls : List Nat} {s s' t : State} {r : RegTarget}
      (here : s.reach Kind.atomic n (a l) = .reg r s') (rest : Translates n a ls s' t) : Translates n a (l :: ls) s t
  | host {l : Nat} {ls : List Nat} {s s' t : State} {ppa : Nat}
      (here : s.reach Kind.atomic n (a l) = .host ppa s') (rest : Translates n a ls s' t) : Translates n a (l :: ls) s t

/-- The base is local-form (R342). -/
abbrev isLocal (a : W64) : Prop := a.toNat / 2 ^ 32 = 0xFFFFFFFF

/-- Where an atomic of `n` bytes at an address is performed. -/
def siteOf (near : Bool) (op : AtomOp) (n : Nat) (returns : Bool) (since : Option Nat) (first : Nat) (a : W64) : Site :=
  fun s f =>
    if near then localRmw n (a.setWidth 32) s f
    else s.rmwAt (s.reach Kind.atomic n a) op n (drawIx 11 0 first) a returns f since

/-- Codes of a value that an atomic returns (R351). -/
def atomCodes (c : AtomCtx) (old cmp : Nat) : Codes :=
  codesOf false (if c.op = .cas then decide (old = cmp) else decide (old = 0)) (old.testBit (c.w - 1)) false

/-- Vector registers of an operand: one or a pair, twice as many for cas. -/
def operandRegs (s : State) (op : AtomOp) : Nat := perValue s * if op = .cas then 2 else 1

/-- A uniform register takes a value of a type: sign-extended for an i-type (R347). -/
def extendOf (t n v : Nat) : W64 := if t ≤ 3 then (BitVec.ofNat (8 * n) v).signExtend 64 else BitVec.ofNat 64 v

/-! ### Transactions, subscriptions, barriers and counters -/

/-- Results left outstanding (R250). -/
def Leaves (s t : State) (ws : List ResWrite) : Prop := 
  t.cur.pend = s.cur.pend ++ [⟨s.frag.mask, ws, s.frag.checkedFor, false, s.issue.pc⟩]

/-- `y` is the square root of m · 2^e rounded once under `rnd`: that of an integer bracket of 60 bits or more. -/
def IsRoot (rnd m : Nat) (e : Int) (y : W32) : Prop :=
  ∃ (q k : Nat) (h : Int), e = 2 * h + k ∧ 2 ^ 60 ≤ q ∧ q * q ≤ m * 2 ^ k ∧ m * 2 ^ k < (q + 1) * (q + 1) ∧
    y = BitVec.ofNat 32 (tyF32.roundFin ⟨rnd, 0, 1, false⟩ false (2 * q + if q * q = m * 2 ^ k then 0 else 1) (h - 1)).bits

/-- A special function gives each active lane the value of `f` at its input, with the flush of R311, and with CCW 1 the codes of
R312, V where one that can overflow gave an infinity for a finite input other than zero; they are left outstanding (R250), and no register, code or byte
of memory changes at issue. -/
def SfuLeft (f : W32 → W32) (overflows : Bool) (s t : State) (d a : BitVec 7) : Prop :=
  let x := fun l => flushed s (s.vread 0 a.toNat l)
  let y := fun l => flushed s (f (x l))
  let size := fun (w : W32) => (w &&& 0x7FFFFFFF).toNat
  ∃ c : Nat → Codes, OnlyFocus s t ∧ OnlyFlow s (backVector s t) ∧
    t.cur.vregs = s.cur.vregs ∧ t.cur.regPoison = s.cur.regPoison ∧ t.cur.cc = s.cur.cc ∧ MemKept s t ∧
    Leaves s t ((lanesOf s.active).flatMap fun l => .vec d.toNat l (y l) :: if s.ccw then [.codes l (c l)] else []) ∧
    ∀ l, CodesAre (c l) (decide (0x7F800000 < size (x l)) || decide (0x7F800000 < size (y l))) (decide (size (y l) = 0)) (y l).msb
      (overflows && decide (0 < size (x l) ∧ size (x l) < 0x7F800000 ∧ size (f (x l)) = 0x7F800000))

/-- The version sequencer answers: bucket 0 is neither LOST nor in transit (R134). -/
def SeqReady (p : Partition) : Prop := p.seqLost = false ∧ p.lost 0 = false ∧ p.transit 0 = false

/-- The live snapshot table can give a timestamp no reference (R139). -/
def TableFull (p : Partition) (ts : Nat) : Prop := 1024 ≤ p.snaps.length ∧ ts ∉ p.snaps.map (·.1)

/-- A table holds one more reference to a timestamp (R139). -/
def OneMore (p q : Partition) (ts : Nat) : Prop :=
  mget 0 q.snaps ts = mget 0 p.snaps ts + 1 ∧ ∀ x, x ≠ ts → mget 0 q.snaps x = mget 0 p.snaps x

/-- The transaction has aborted (R144): the status word, and one fragment at the abort target with the lanes and the
stack depth of `txbegin`. Registers and memory stay. -/
def Aborted (s t : State) (status : BitVec 3) (cause : BitVec 8) : Prop :=
  t.cur.tx.opened = false ∧ t.cur.tx.status = status ∧ t.cur.tx.cause = cause ∧
    t.cur.f0.pc = s.cur.tx.target ∧ t.cur.f0.mask = s.cur.tx.mask ∧ t.cur.f0.st = .ready ∧ t.cur.f1.st = .free ∧
    t.cur.stack = s.cur.stack.drop (s.cur.stack.length - s.cur.tx.height) ∧ t.cur.state = s.cur.state ∧
    t.cur.t0 = s.cur.t0 ∧ t.cur.t1 = s.cur.t1 ∧ t.cur.vregs = s.cur.vregs ∧ t.cur.sregs = s.cur.sregs ∧ MemKept s t

/-- No access is held at a tag of the range (R84). -/
def NoneHeldIn (b : Block) (lo len : Nat) : Prop :=
  ∀ w ∈ b.waitQ, 4 * (w.off / 4) < lo ∨ lo + len ≤ 4 * (w.off / 4)

/-- A read that belongs to the instruction as a whole is served from memory. -/
def Delivers (s : State) (n : Nat) (a : W64) (bs : List Byte) (u : State) : Prop :=
  ∃ t ppa v hit, s.reach Kind.load n a = .mem t ppa v ∧ v.gRead t ppa n (slotOf 0 0) = .data bs hit u

/-- The fragment waits, and issues the instruction again (R211). -/
def WaitsFor (s t : State) (h : Hold) (st : FragState) : Prop :=
  (t.cur.frag s.issue.slot).st = st ∧ (t.cur.frag s.issue.slot).hold = h ∧ point (t.cur.frag s.issue.slot) = point s.frag ∧
    t.cur.frag (!s.issue.slot) = s.other

/-- A group that a barrier counts (R364). -/
def Counted (g : Group) : Prop := g.state ≠ .exited ∧ g.state ≠ .none

/-- A group that a barrier releases: its fragments at the barrier turn READY. -/
def Released (hold : Hold) (g h : Group) : Prop :=
  h.info = g.info ∧ h.vregs = g.vregs ∧ h.sregs = g.sregs ∧
    ∀ slot, (g.frag slot).st = .waitBar → (g.frag slot).hold = hold → (h.frag slot).st = .ready

/-! ### Devices -/

/-- Nothing but the record of partition `p` changes. -/
def OnlyPart (s t : State) (p : Nat) : Prop := t = { s with parts := t.parts } ∧ ∀ j, j ≠ p → t.part? j = s.part? j

/-- A register of partition `p` changes, from `x` to `y`, and nothing else. -/
def PartSet (s t : State) (p : Nat) (y : Partition) : Prop := OnlyPart s t p ∧ t.part? p = some y

/-- Partition `p` holds queue `q` as `y`, and its other queues as `x` holds them. -/
def QueueSet (t : State) (p q : Nat) (x : Partition) (y : Queue) : Prop :=
  ∃ z, t.part? p = some z ∧ z.queue q = y ∧ ∀ j, j ≠ q → z.queue j = x.queue j

/-- A slot of a ring whose packet and header passed is accepted (R230): a marker waits for the grids before it, a grid
joins the list of its priority. -/
def Accepted (u t : State) (p q : Nat) (m h : BitVec 512) : Prop :=
  ∃ x z, u.part? p = some x ∧ t.part? p = some z ∧ t.mem = u.mem ∧
    (z.queue q).qrd = (x.queue q).qrd + 1 ∧ (z.queue q).ready = none ∧ (z.queue q).wdep = false ∧ (z.queue q).wseq = false ∧
    (Pk.type m = 3 → z.grids = x.grids ∧ (z.queue q).markers = (x.queue q).markers ++
      [(m.extractLsb' 320 64, m.extractLsb' 384 32, m.getLsbD 22, (x.grids.filter (·.queue = q)).map (·.handle))]) ∧
    (Pk.type m ≠ 3 → ∃ g, z.grids = x.grids ++ [g] ∧ g.handle = q + 1024 * ((x.queue q).qrd.toNat % 2 ^ 32) ∧ g.queue = q ∧
      g.packet = m ∧ g.header = h ∧ g.nextGang = 0 ∧ g.exited = 0 ∧ g.snap = none ∧ g.killed = false ∧
      mget [] z.lists (fld m 21 20) = mget [] x.lists (fld m 21 20) ++ [.grid g.handle])

/-- The slot at QRD is rejected (R228): an error record counted, ERR, and the next slot. -/
def Rejected (v t : State) (p q : Nat) : Prop :=
  ∃ w, v.part? p = some w ∧ t.mem = v.mem ∧ QueueSet t p q w { w.queue q with
    errs := (w.queue q).errs + 1, err := true, qrd := (w.queue q).qrd + 1, ready := none, wdep := false, wseq := false }

/-- The newest record of the MTC log is of this type, about this slice and partition (R22). -/
def Logged (t : State) (type sl : Nat) (part : Option Nat) : Prop :=
  ∃ e r, t.mtc.log = e :: r ∧ (e.setWidth 32 : BitVec 32) = BitVec.ofNat 32 (type + 256 * (sl % 16) + match part with
    | some p => 4096 * (p % 16) + 65536
    | none => 0)

/-- A command of the MTC finishes with a result (R21). -/
def Ended (t : State) (w : W64) (r : BitVec 8) : Prop :=
  t.mtc.mresult = r ∧ t.mtc.run = none ∧ Logged t 7 (fld w 15 12) (some (fld w 11 8))

/-- Bucket `b` of the copies of a table. -/
def bucketEntry (p : Partition) (b : Nat) : BitVec 16 := mget 0 p.buckets b

/-- Slice `sl` holds `y`, and nothing else changes. -/
def SliceSet (s t : State) (sl : Nat) (y : Slice) : Prop :=
  t = { s with slices := t.slices } ∧ t.slice sl = y ∧ ∀ j, j ≠ sl → t.slice j = s.slice j

/-- Core `k` holds `c`, and nothing else changes. -/
def CoreSet (s t : State) (k : CoreKey) (c : Machine.Core) : Prop :=
  t = { s with cores := t.cores } ∧ t.core k = c ∧ ∀ j, j ≠ k → t.core j = s.core j

/-- Fragments in WAIT_MEM that wait for `p` are READY again, and every group is as before otherwise. -/
def Woken (s t : State) (p : GroupInfo → Hold → Prop) : Prop :=
  ∀ k g, s.group? k = some g → ∃ h, t.group? k = some h ∧ h = { g with f0 := h.f0, f1 := h.f1 } ∧ ∀ b,
    let f := g.frag b
    ((f.st = .waitMem ∧ p g.info f.hold) → h.frag b = { f with st := .ready, hold := .none }) ∧
    (¬ (f.st = .waitMem ∧ p g.info f.hold) → h.frag b = f)

/-- R410: the open frame, if there is one, is filled with PAD and held for the ring; FIRST goes into the first. -/
def FrameHeld (u v : TraceUnit) : Prop :=
  (u.frame = [] → v = u) ∧ ∀ h r, u.frame = h :: r →
    v = { u with frame := [], first := false, held :=
      u.held ++ [((if u.first then h ||| 0x80 else h) :: r) ++ List.replicate (63 - r.length) 0] }

/-- A core's trace unit has room for `n` more bytes in its open frame. -/
def RoomFor (u : TraceUnit) (n : Nat) : Prop := u.loss = 0 ∧ u.frame ≠ [] ∧ u.frame.length + n < 64 ∧ u.held.length ≤ 30

/-- Packet steps: the operation, and the bit of the peer entry that it needs (R440). -/
def packetNeeds : Instr → Option (BitVec 4 × Option Nat)
  | .netPut => some (1, some 21)
  | .netGetreq => some (2, some 20)
  | .netGetrsp => some (3, none)
  | .netRed => some (4, some 21)
  | .netLaunch => some (5, some 21)
  | .netAck => some (6, none)
  | .netNak => some (7, none)
  | .netSkip => some (8, none)
  | _ => none

/-- The packet of the step's frame, and the number of its link. -/
def packetOf (s : State) : Packet := s.args.frame.packet

def linkNo (s : State) : Nat := linkTo (packetOf s).dpeer.toNat s.args.frame.sip

/-- The link of the packet of the step. -/
def linkOf (s t : State) (p : Nat) : Link := t.link p s.args.slice (linkNo s)

/-- A frame addressed to a port of partition `p` reaches its slice, awake, on a link that is up, with a packet whose CRC and
form pass. -/
def Arrives (s : State) (p : Nat) (x : Partition) : Prop :=
  let y := s.slice s.args.slice
  let k := packetOf s
  y.shutter ≠ 0 ∧ y.part.toNat = p ∧ s.part? p = some x ∧ y.mac.getLsbD 48 = true ∧ y.portstat.getLsbD 0 = true ∧ y.power = 0 ∧
    s.addressed p s.args.slice s.args.frame = true ∧ x.netOn = true ∧ k.crc = packetSum k ∧ packetFormed k = true

/-- The state in which the packet's peer entry is looked at: the link answers to the port that sent the frame. -/
def asked (s : State) (p : Nat) : State :=
  (s.onLink p s.args.slice (linkNo s) fun l => { l with dmac := s.args.frame.smac }).readPeer p (packetOf s).dpeer.toNat

/-- The state in which the packet is admitted: the receipt of what it acknowledges is known. -/
def admitted (s : State) (p : Nat) : State := (asked s p).acknowledged p s.args.slice (linkNo s) (packetOf s).ackpsn

/-- The packet is the next in PSN and MSN order, and the link holds no other (R441, R443). -/
def InTurn (s : State) (p : Nat) : Prop :=
  let l := linkOf s s p
  let k := packetOf s
  s.args.half = false ∧ k.psn = l.rxPsn + 1 ∧ l.rxSet = [] ∧ l.heldMsgs = [] ∧ l.performed.length ≤ 4096 ∧
    k.msn = l.applied + 1 + BitVec.ofNat 32 l.performed.length ∧ k.msn ∉ l.performed

/-- The packet as its step works on it. -/
def arrival (s : State) (p : Nat) (e : BitVec 512) : Arrival := ⟨p, s.args.slice, linkNo s, e, packetOf s⟩

/-- The state in which a message is performed: its receipt is acknowledged, and it is held. -/
def received (s : State) (p : Nat) (e : BitVec 512) : State :=
  ((admitted s p).onLink p s.args.slice (linkNo s) fun l =>
    { l with heldMsgs := l.heldMsgs ++ [packetOf s] }).receipt (arrival s p e)

/-- The message counts as passed, for APPLIED. -/
def Passed (s t : State) (p : Nat) : Prop :=
  (linkOf s t p).performed = (linkOf s s p).performed ++ [(packetOf s).msn] ∧ (linkOf s t p).heldMsgs = [] ∧
    (linkOf s t p).rxPsn = (packetOf s).psn ∧ (linkOf s t p).applied = (linkOf s s p).applied

/-- The last packet that the link sent, in a frame from this port to the one that sent the step's frame. -/
def LastSent (s t : State) (p : Nat) (f : Packet → Prop) : Prop :=
  ∃ n r, (linkOf s t p).out = n :: r ∧ f n.packet ∧ n.packet.crc = packetSum n.packet ∧ n.dmac = s.args.frame.smac ∧
    n.smac = (s.slice s.args.slice).mac.extractLsb' 0 48 ∧ n.dip = s.args.frame.sip ∧ n.sip = s.args.frame.dip ∧
    n.sum = frameChecksum n

/-- A packet of a replay entry as it goes out again (R441). -/
def again (l : Link) (k : Packet) : Packet := sealed { k with ackpsn := l.rxPsn }

/-- The window of a link after the packets from PSN `a` on are sent again. -/
def sentAgain (l : Link) (a : BitVec 32) : List SentPacket :=
  l.window.map fun y => if seqLe a y.packet.psn then { y with packet := again l y.packet, sends := y.sends + 1 } else y

/-- R441: packets from `a` on go out again from their replay entries, as long as these pass their check; at 16 sends the
requests end with REMOTE. -/
def Resent (v t : State) (p sl idx : Nat) (a : BitVec 32) : Prop :=
  let l := v.link p sl idx
  let m := t.link p sl idx
  ((∃ w ∈ l.window, seqLe a w.packet.psn = true ∧ 16 ≤ w.sends) → m.window = [] ∧ m.msgs = [] ∧ m.redo = [] ∧
    ∀ q ∈ l.msgs, q.core.slice ≠ 16 → ∀ r, (v.core q.core).eng = some r →
      ∃ z, (t.core q.core).eng = some z ∧ z.status = 2 ∧ z.ended = true) ∧
  ((∀ w ∈ l.window, seqLe a w.packet.psn = true → w.sends < 16) → (l.window.map (·.packet.psn)).Nodup → l.redo = [] →
    (∀ w ∈ l.window, w.packet.crc = packetSum w.packet) → v.portLive sl = true → (v.part p).netOn = true → (v.part? p).isSome = true →
      OnlyPart v t p ∧ m = { l with window := sentAgain l a, out :=
        ((l.window.filter fun w => seqLe a w.packet.psn).map fun w => v.frameFor p sl idx (again l w.packet)).reverse ++ l.out })

end Sys2Proof.Safety
end

