-- ==== Sys2Proof/Certificates/Slice0/Obligations.lean ====
section
/-! DEFINITION. The statements for the provers, family by family. -/

open Sys2Proof Sys2Proof.Machine Sys2Proof.Safety

/-! ### Vector integer instructions -/

/-- R290, R291, R294 (`shl`): each active lane's sub-element takes the exact integer modulo 2^w, or the saturated one
with MODE.SAT, for every type, operand form and lane. -/
def Obligations.VectorExactResults : Prop :=
  ∀ (s : State) (i : Instr) (d a : BitVec 7) (b : Src) (f : Int → Int → Int → Nat → Nat → Int),
    exactRule i = some f → vecShape i = some (d, a, b) → vecTypes i s.ty = true → VecReady s d a b →
    ∃ t, exec i s = .next t ∧ ∀ l j, s.active.getLsbD l = true → j < laneWidth s / (tyOf s).w →
      let ty := tyOf s
      let x := f (ty.read (sub ty.w (s.vreg s.wideTy 0 a l) j)) (ty.read (second s i b l j))
        (ty.read (sub ty.w (s.vreg s.wideTy 2 d l) j)) (second s i b l j) (Codes.c (s.ccread 3 l)).toNat
      sub ty.w (laneVal t.cur s.wideTy d l) j =
        wrap ty.w (if s.sat then (if x < ty.lo then ty.lo else if ty.hi < x then ty.hi else x) else x)

/-- R290 (`mulh`, `absdiff`, `min`, `max`) and R295 (`popc`, `clz`): results that never saturate. R293, R294 (`shr`, `rol`,
`ror`), R295 (`brev`), R296: every bit of every active sub-element. -/
def Obligations.VectorPlainResults : Prop :=
  ∀ (s : State) (i : Instr) (d a : BitVec 7) (b : Src),
    vecShape i = some (d, a, b) → vecTypes i s.ty = true → VecReady s d a b →
    ∃ t, exec i s = .next t ∧ ∀ l j, s.active.getLsbD l = true → j < laneWidth s / (tyOf s).w →
      let ty := tyOf s
      let x := sub ty.w (s.vreg s.wideTy 0 a l) j
      let y := second s i b l j
      let r := sub ty.w (laneVal t.cur s.wideTy d l) j
      (∀ f, plainRule i = some f → r = wrap ty.w (f ty.w (ty.read x) (ty.read y) x)) ∧
      ∀ f, bitRule i = some f → ∀ k < ty.w, r.testBit k = f ty x y (sub ty.w (s.vreg s.wideTy 2 d l) j) k

/-- R289: with CCW 1 the element-wise instructions write N and Z from the lane written, C as the OR of the carry terms
and V as the OR of "out of range"; with CCW 0 no code changes. -/
def Obligations.VectorCodes : Prop :=
  ∀ (s : State) (i : Instr) (d a : BitVec 7) (b : Src),
    vecShape i = some (d, a, b) → vecTypes i s.ty = true → VecReady s d a b →
    ∃ t, exec i s = .next t ∧
      (s.ccw = false → ∀ l, t.cur.ccget l = s.cur.ccget l) ∧
      (∀ l, s.active.getLsbD l = false → t.cur.ccget l = s.cur.ccget l) ∧
      (s.ccw = true → ∀ l, s.active.getLsbD l = true →
        let ty := tyOf s
        let js := List.range (laneWidth s / ty.w)
        let cin := (Codes.c (s.ccread 3 l)).toNat
        let va := fun j => sub ty.w (s.vreg s.wideTy 0 a l) j
        let r := laneVal t.cur s.wideTy d l
        Codes.n (t.cur.ccget l) = r.testBit (laneWidth s - 1) ∧
        Codes.z (t.cur.ccget l) = decide (r = 0) ∧
        Codes.c (t.cur.ccget l) =
          (js.any fun j => match carryRule i with
            | some f => f ty (va j) (second s i b l j) cin
            | none => false) ∧
        Codes.v (t.cur.ccget l) =
          (js.any fun j => match exactRule i with
            | some f => ty.outside (f (ty.read (va j)) (ty.read (second s i b l j))
                (ty.read (sub ty.w (s.vreg s.wideTy 2 d l) j)) (second s i b l j) cin)
            | none => false))

/-- The frame of the element-wise vector instructions: lanes that are not active, the other registers, the codes with
CCW 0, and everything outside the group keep their values. -/
def Obligations.VectorFrame : Prop :=
  ∀ (s : State) (i : Instr) (d a : BitVec 7) (b : Src),
    vecShape i = some (d, a, b) → vecTypes i s.ty = true → VecReady s d a b →
    ∃ t, exec i s = .next t ∧ VecOnly s t (regs s.wideTy d) s.active s.ccw

/-- R298: `cmp`, `cmpi`, VU `cmp` and `test` write the codes of the active lanes whatever CCW holds, and nothing else. -/
def Obligations.VectorCompare : Prop :=
  ∀ (s : State) (i : Instr) (a : BitVec 7) (b : Src) (bits : Bool),
    cmpShape i = some (a, b, bits) → (s.ty = 2 ∨ s.ty = 3 ∨ s.ty = 6 ∨ s.ty = 7) → Quiet s →
    InWindow s (regs s.wideTy a ++ b.vregs s.wideTy) → (s.wideTy = true → EvenRegs (a.toNat :: b.vregs false)) →
    ∃ t, exec i s = .next t ∧ VecOnly s t [] s.active true ∧ ∀ l, s.active.getLsbD l = true →
      let w := laneWidth s
      let x := s.vreg s.wideTy 0 a l
      let y := s.src s.wideTy 1 b w l 0
      if bits then TestCodes w x y (t.cur.ccget l) else CmpCodes w x y (t.cur.ccget l)

/-- R299, R300: `sel` selects in every lane of the fragment by GUARD over its codes; `mov` copies the lane or pair; `movi`
writes the immediate in every sub-element; none writes codes. R297: `ext` widens sub-element 0 to a 32-bit value, or the
lane to the pair for a 64-bit type. R292: `dot4` adds four exact products to the 32-bit lane of vd. -/
def Obligations.VectorMoves : Prop :=
  ∀ (s : State) (d a b : BitVec 7), Quiet s →
    ((∀ (i : Instr) (b : Src), (∃ vb, i = .sel d a vb ∧ b = .v vb) ∨ (∃ ub, i = .selU d a ub ∧ b = .u ub) →
        (s.ty ≤ 0x0C ∨ s.ty = 0x0F) → VecReady s d a b →
        ∃ t, exec i s = .next t ∧ VecOnly s t (regs s.wideTy d) s.frag.mask false ∧
          ∀ l j, s.frag.mask.getLsbD l = true → j < laneWidth s / (tyOf s).w →
            sub (tyOf s).w (laneVal t.cur s.wideTy d l) j =
              if condHolds (modeGuard s.mode) (s.ccread 0 l) then sub (tyOf s).w (s.vreg s.wideTy 0 a l) j
              else s.src s.wideTy 1 b (tyOf s).w l j) ∧
      ((s.ty ≤ 0x0C ∨ s.ty = 0x0F) → VecReady s d a (.v a) →
        ∃ t, exec (.mov d a) s = .next t ∧ VecOnly s t (regs s.wideTy d) s.active false ∧
          ∀ l, s.active.getLsbD l = true → laneVal t.cur s.wideTy d l = s.vreg s.wideTy 0 a l) ∧
      (∀ imm : BitVec 10, s.ty ≤ 7 → InWindow s (regs s.wideTy d) → (s.wideTy = true → d.toNat % 2 = 0) →
        ∃ t, exec (.movi d imm) s = .next t ∧ VecOnly s t (regs s.wideTy d) s.active false ∧
          ∀ l j, s.active.getLsbD l = true → j < laneWidth s / (tyOf s).w →
            sub (tyOf s).w (laneVal t.cur s.wideTy d l) j = wrap (tyOf s).w imm.toInt)) ∧
    (s.ty ≤ 7 → InWindow s (a.toNat :: regs s.wideTy d) → (s.wideTy = true → d.toNat % 2 = 0) →
      ∃ t, exec (.ext d a) s = .next t ∧ VecOnly s t (regs s.wideTy d) s.active s.ccw ∧
        ∀ l, s.active.getLsbD l = true →
          let w := if s.wideTy then 32 else (tyOf s).w
          let x := (s.vread 0 a.toNat l).toNat % 2 ^ w
          laneVal t.cur s.wideTy d l = wrap (laneWidth s) (if (tyOf s).signed then signedVal w x else x)) ∧
    ((s.ty = 0 ∨ s.ty = 4) → InWindow s [d.toNat, a.toNat, b.toNat] →
      ∃ t, exec (.dot4 d a b) s = .next t ∧ VecOnly s t [d.toNat] s.active s.ccw ∧
        ∀ l, s.active.getLsbD l = true →
          let read := fun (w x : Nat) => if s.ty = 0 then signedVal w x else (x : Int)
          let av := (s.vread 0 a.toNat l).toNat
          let bv := (s.vread 1 b.toNat l).toNat
          let x := read 32 (s.vread 2 d.toNat l).toNat + read 8 (sub 8 av 0) * read 8 (sub 8 bv 0) +
            read 8 (sub 8 av 1) * read 8 (sub 8 bv 1) + read 8 (sub 8 av 2) * read 8 (sub 8 bv 2) +
            read 8 (sub 8 av 3) * read 8 (sub 8 bv 3)
          let lane : IntTy := ⟨32, decide (s.ty = 0)⟩
          (t.cur.vget d.toNat l).toNat = wrap 32 (if s.sat then lane.saturate x else x) ∧
            (s.ccw = true → Codes.v (t.cur.ccget l) = lane.outside x ∧ Codes.c (t.cur.ccget l) = false))

/-! ### Floating-point instructions -/

/-- R310 to R314, R316: each f32 instruction forms its exact result from the operands after the input flush, rounds it
once under MODE.RND, and with CCW 1 writes N, Z, C (a NaN among sources and result) and V (overflow). R315: `fcmp` compares as reals and writes codes whatever CCW holds. R316: `fabs`, `fneg`, `fcopysign` and `fclass`
work on bits and write no codes. -/
def Obligations.FloatResults : Prop :=
  (∀ (s : State) (i : Instr) (d a : BitVec 7) (b : Src) (rd : Bool) (f : Nat → FVal → FVal → FVal → FVal),
    f32Shape i = some (d, a, b) → f32Rule i = some (rd, f) → s.ty = 0x0A → Quiet s →
    InWindow s (d.toNat :: a.toNat :: b.vregs false) →
    ∃ t, exec i s = .next t ∧ VecOnly s t [d.toNat] s.active s.ccw ∧ ∀ l, s.active.getLsbD l = true →
      let ftz := modeFtz s.mode
      let rnd := if modeRnd s.mode = 5 then 0 else modeRnd s.mode
      let x := tyF32.input ftz (s.vread 0 a.toNat l).toNat
      let y := tyF32.input ftz (s.src false 1 b 32 l 0)
      let z := if rd then tyF32.input ftz (s.vread 2 d.toNat l).toNat else .fin false 0 0
      let r := tyF32.round ⟨rnd, 0, 1, ftz⟩ (f rnd x y z)
      let v := t.cur.vget d.toNat l
      v = BitVec.ofNat 32 r.bits ∧
        (s.ccw = true → CodesAre (t.cur.ccget l) (x.isNan || y.isNan || z.isNan || r.nan)
          (decide (v &&& 0x7FFFFFFF = 0)) v.msb r.ovf)) ∧
  ∀ (s : State) (a b : BitVec 7), s.ty = 0x0A → Quiet s →
    (InWindow s [a.toNat, b.toNat] →
      ∃ t, exec (.fcmp a b) s = .next t ∧ VecOnly s t [] s.active true ∧ ∀ l, s.active.getLsbD l = true →
        let x := tyF32.input (modeFtz s.mode) (s.vread 0 a.toNat l).toNat
        let y := tyF32.input (modeFtz s.mode) (s.vread 1 b.toNat l).toNat
        let f := t.cur.ccget l
        if x.isNan || y.isNan then CodesAre f true false false true
        else if x.lt y then CodesAre f false false true false
        else if y.lt x then CodesAre f true false false false
        else CodesAre f true true false false) ∧
    (∀ (i : Instr) (d a b : BitVec 7) (f : W32 → W32 → W32), f32Move i = some (d, a, b, f) →
      InWindow s [d.toNat, a.toNat, b.toNat] →
      ∃ t, exec i s = .next t ∧ VecOnly s t [d.toNat] s.active false ∧ ∀ l, s.active.getLsbD l = true →
        t.cur.vget d.toNat l = f (s.vread 0 a.toNat l) (s.vread 1 b.toNat l))

/-- R323, R324: the packed instructions round each sub-element on its own under its type's overflow entry; `fdotp` adds
the exact products to the f32 lane of vd and rounds once. R325, R318: `fpack` rounds the wide sub-elements of va and then
of vb into consecutive narrow ones, the stochastic state advancing after each under rsr; `funpack` widens every narrow
sub-element of va exactly into the pair. -/
def Obligations.PackedResults : Prop :=
  (∀ (s : State) (ty : FloatTy), packedTy s.ty = some ty → Quiet s →
    let ftz := modeFtz s.mode
    let rnd := if modeRnd s.mode = 5 then 0 else modeRnd s.mode
    (∀ (i : Instr) (d a b : BitVec 7) (f : Nat → FVal → FVal → FVal), packRule i = some (d, a, b, f) →
      InWindow s [d.toNat, a.toNat, b.toNat] →
      ∃ t, exec i s = .next t ∧ VecOnly s t [d.toNat] s.active s.ccw ∧ ∀ l j, s.active.getLsbD l = true → j < 32 / ty.w →
        sub ty.w (t.cur.vget d.toNat l).toNat j =
          (ty.round ⟨rnd, 0, ovtEntry s.operands.ovt ty, ftz⟩ (f rnd
            (ty.input ftz (sub ty.w (s.vread 0 a.toNat l).toNat j))
            (ty.input ftz (sub ty.w (s.vread 1 b.toNat l).toNat j)))).bits) ∧
    (∀ d a b : BitVec 7, InWindow s [d.toNat, a.toNat, b.toNat] →
      ∃ t, exec (.fdotp d a b) s = .next t ∧ VecOnly s t [d.toNat] s.active s.ccw ∧ ∀ l, s.active.getLsbD l = true →
        let e := fun (k : Nat) (r : BitVec 7) (j : Nat) => ty.input ftz (sub ty.w (s.vread k r.toNat l).toNat j)
        let x := (List.range (32 / ty.w)).foldl (fun x j => x.add (rnd = 3) ((e 0 a j).mul (e 1 b j)))
          (tyF32.input ftz (s.vread 2 d.toNat l).toNat)
        t.cur.vget d.toNat l = BitVec.ofNat 32 (tyF32.round ⟨rnd, 0, 1, ftz⟩ x).bits)) ∧
  ∀ (s : State) (d a b : BitVec 7) (ty w : FloatTy), narrowTy s.ty = some (ty, w) → Quiet s →
    InWindow s [d.toNat, a.toNat, b.toNat] →
    (∃ t, exec (.fpack d a b) s = .next t ∧ OnlyFocus s t ∧
      OnlyFlow s { backVector s t with cur := { (backVector s t).cur with stoch := s.cur.stoch } } ∧
      VecKept s t [d.toNat] ∧ MemKept s t ∧
      (∀ l, s.active.getLsbD l = false → t.cur.stochAt l = s.cur.stochAt l ∧ ∀ n, l < 32 → t.cur.vget n l = s.cur.vget n l) ∧
      ∀ l j, s.active.getLsbD l = true → j < 32 / ty.w →
        let k := 32 / w.w
        let x := w.input (modeFtz s.mode)
          (if j < k then sub w.w (s.vread 0 a.toNat l).toNat j else sub w.w (s.vread 1 b.toNat l).toNat (j - k))
        let c : RoundCtl := ⟨modeRnd s.mode, 0, ovtEntry s.operands.ovt ty, modeFtz s.mode⟩
        let st := if modeRnd s.mode = 5 then (Nat.iterate stochNext j (s.cur.stochAt l)) else s.cur.stochAt l
        sub ty.w (t.cur.vget d.toNat l).toNat j = (ty.round { c with st := st.toNat } x).bits ∧
        t.cur.stochAt l = if modeRnd s.mode = 5 then Nat.iterate stochNext (32 / ty.w) (s.cur.stochAt l) else s.cur.stochAt l) ∧
    (d.toNat % 2 = 0 → d.toNat + 1 < s.cur.info.nregs →
      ∃ t, exec (.funpack d a) s = .next t ∧ VecOnly s t [d.toNat, d.toNat + 1] s.active s.ccw ∧
        ∀ l j, s.active.getLsbD l = true → j < 32 / ty.w →
          sub w.w (laneVal t.cur true d l) j =
            match ty.decode (sub ty.w (s.vread 0 a.toNat l).toNat j) with
            | .nan neg => w.canonNan neg
            | x => (w.round ⟨0, 0, 1, false⟩ x).bits)

/-- R317, R250, R288: each special function runs under TYPE f32 with its registers in the window. It is one fixed function of
its input, under MODE.RND too for `fsqrt` alone; its special results are those of the table, and `fsqrt` is rounded once. The
result of each active lane, with CCW 1 its codes too, is left outstanding; no register changes at issue. -/
def Obligations.SpecialFunctions : Prop :=
  ∃ F : Nat → Nat → W32 → W32,
    (∀ fn r x y, fn < 8 → sfuSpecial fn x = some y → F fn r x = y) ∧
    (∀ r x m e, tyF32.decode x.toNat = .fin false m e → m ≠ 0 → IsRoot r m e (F 2 r x)) ∧
    ∀ (s : State) (d a : BitVec 7), s.ty = 0x0A → Quiet s → InWindow s [d.toNat, a.toNat] →
      let rnd := if modeRnd s.mode = 5 then 0 else modeRnd s.mode
      (∃ t, exec (.frcp d a) s = .next t ∧ SfuLeft (F 0 0) true s t d a) ∧
      (∃ t, exec (.frsq d a) s = .next t ∧ SfuLeft (F 1 0) true s t d a) ∧
      (∃ t, exec (.fsqrt d a) s = .next t ∧ SfuLeft (F 2 rnd) false s t d a) ∧
      (∃ t, exec (.fexp2 d a) s = .next t ∧ SfuLeft (F 3 0) true s t d a) ∧
      (∃ t, exec (.flog2 d a) s = .next t ∧ SfuLeft (F 4 0) false s t d a) ∧
      (∃ t, exec (.fsin d a) s = .next t ∧ SfuLeft (F 5 0) false s t d a) ∧
      (∃ t, exec (.fcos d a) s = .next t ∧ SfuLeft (F 6 0) false s t d a) ∧
      (∃ t, exec (.ftanh d a) s = .next t ∧ SfuLeft (F 7 0) false s t d a)

/-- R318 to R322, R312: `cvt` and `cvtsr` convert one element of a lane or pair, through the captured table for cb4: to a float
rounded once, to an integer saturated or wrapped; with CCW 1 they write the codes. The stochastic state of a lane advances when
rsr rounded in it; lanes that are not active keep registers, codes and state. `cvtsr.seed` sets the states. -/
def Obligations.Conversions : Prop :=
  ∀ (s : State) (d a : BitVec 7), Quiet s →
    (∀ (i : Instr) (rnd : Nat) (imm : BitVec 7) (table : List (BitVec 16)),
      (i = .cvt d a imm ∧ rnd = modeRnd s.mode) ∨ (i = .cvtsr d a imm ∧ rnd = 5) → i.wf = true → s.ty ≤ 0x11 →
      let src := (imm.extractLsb' 0 5).toNat
      let slot := (imm.extractLsb' 5 2).toNat
      let sw := decide (typeBits src = 64)
      let dw := s.wideTy
      let cb := src = 0x0E ∨ s.ty = 0x0E
      ¬ (src = 0x0E ∧ s.ty = 0x0E) → (slot = 0 ∨ cb) → (cb → s.tabling slot = false ∧ s.tableSlot slot = some table) → (¬ cb → table = []) →
      InWindow s (regs dw d ++ regs sw a) → (dw = true → d.toNat % 2 = 0) → (sw = true → a.toNat % 2 = 0) →
      ∃ t, exec i s = .next t ∧ OnlyFocus s t ∧
        OnlyFlow s { backVector s t with cur := { (backVector s t).cur with stoch := s.cur.stoch } } ∧
        VecKept s t (regs dw d) ∧ MemKept s t ∧ (s.ccw = false → t.cur.cc = s.cur.cc) ∧
        (∀ l, s.active.getLsbD l = false → t.cur.stochAt l = s.cur.stochAt l ∧ t.cur.ccget l = s.cur.ccget l ∧
          ∀ n, l < 32 → t.cur.vget n l = s.cur.vget n l) ∧
        ∀ l, s.active.getLsbD l = true →
          let c : RoundCtl := ⟨rnd, (s.cur.stochAt l).toNat, ovtEntry s.operands.ovt ((floatTy s.ty).getD tyF32), modeFtz s.mode⟩
          let b := s.vreg sw 0 a l
          let x := srcVal src (modeFtz s.mode) table b
          let r := convert src s.ty s.sat c table table b
          let v := laneVal t.cur dw d l
          v = r.1.bits % 2 ^ laneWidth s ∧
          (∀ f, floatTy s.ty = some f → v = (f.round c x).bits) ∧
          (∀ n m, intTy s.ty = some n → intTy src = some m →
            let y := m.read (b % 2 ^ m.w)
            v = wrap n.w (if s.sat then n.saturate y else y) ∧ r.1.ovf = n.outside y) ∧
          (∀ n, intTy s.ty = some n → intTy src = none →
            (x.isNan = true → v = 0 ∧ r.1.ovf = true) ∧
            (∀ neg, x = .inf neg → v = wrap n.w (if neg then n.lo else n.hi) ∧ r.1.ovf = true) ∧
            ∀ neg m e, x = .fin neg m e →
              let y : Int := if neg then -(roundAt rnd (s.cur.stochAt l).toNat neg m e 0 : Int) else roundAt rnd (s.cur.stochAt l).toNat neg m e 0
              v = wrap n.w (n.saturate y) ∧ r.1.ovf = n.outside y) ∧
          (s.ccw = true → CodesAre (t.cur.ccget l) (x.isNan || r.1.nan)
            (if s.ty = 0x0F then false else if s.ty = 0x0E then decide ((table.getD v 0).toNat % 2 ^ 15 = 0)
              else if (floatTy s.ty).isSome then decide (v % 2 ^ (typeBits s.ty - 1) = 0) else decide (v = 0))
            (v.testBit (laneWidth s - 1)) r.1.ovf) ∧
          t.cur.stochAt l = if rnd = 5 ∧ s.ty ≠ 0x0E ∧ ¬ ((intTy s.ty).isSome = true ∧ (intTy src).isSome = true)
            then stochNext (s.cur.stochAt l) else s.cur.stochAt l) ∧
    (InWindow s [a.toNat] →
      ∃ t, exec (.cvtsrSeed a) s = .next t ∧ OnlyFocus s t ∧
        OnlyFlow s { t with cur := { t.cur with stoch := s.cur.stoch } } ∧ MemKept s t ∧
        ∀ l, t.cur.stochAt l = if s.active.getLsbD l then (if s.vread 0 a.toNat l = 0 then 1 else s.vread 0 a.toNat l)
          else s.cur.stochAt l)

/-! ### Cross-lane instructions -/

/-- R329, R332: a shuffle or `qswap` gives each active lane the value of its source lane, its own when that lane is out of
range; the shuffles write C for out of range with CCW 1. -/
def Obligations.Shuffles : Prop :=
  ∀ (s : State) (i : Instr) (d a : BitVec 7) (extra : List Nat) (m : Nat → Option Nat),
    shuffleRule s i = some (d, a, extra, m) → Quiet s → InWindow s (regs s.wideTy d ++ regs s.wideTy a ++ extra) →
    (s.wideTy = true → d.toNat % 2 = 0 ∧ a.toNat % 2 = 0) →
    ∃ t, exec i s = .next t ∧ VecOnly s t (regs s.wideTy d) s.active (s.ccw && !isQswap i) ∧
      ∀ l, s.active.getLsbD l = true →
        let x := s.vreg s.wideTy 0 a ((m l).getD l)
        laneVal t.cur s.wideTy d l = x ∧
          (s.ccw = true → isQswap i = false →
            CodesAre (t.cur.ccget l) (m l).isNone (decide (x = 0)) (x.testBit (laneWidth s - 1)) false)

/-- R333: `lred` and `scan` over integers give each active lane the exact combination of its segment's contributors,
wrapped or with SAT saturated for add; C is 0 and V marks a sum out of range. Op 6 of `scan` adds f32 contributors one at a
time in ascending lane order, rounding at every step; −0 where there is none. -/
def Obligations.ReductionsAndScans : Prop :=
  (∀ (s : State) (i : Instr) (d a : BitVec 7) (o : BitVec 3),
    collectiveShape i = some (d, a, o) → i.wf = true → o ≠ 6 → (s.ty = 2 ∨ s.ty = 3 ∨ s.ty = 6 ∨ s.ty = 7) → Quiet s →
    InWindow s (regs s.wideTy d ++ regs s.wideTy a) → (s.wideTy = true → d.toNat % 2 = 0 ∧ a.toNat % 2 = 0) →
    ∃ t, exec i s = .next t ∧ VecOnly s t (regs s.wideTy d) s.active s.ccw ∧ ∀ l, s.active.getLsbD l = true →
      let xs := (contributors s i l).map (s.vreg s.wideTy 0 a)
      let r := laneVal t.cur s.wideTy d l
      r = combineRule (tyOf s) o s.sat xs ∧
        (s.ccw = true → CodesAre (t.cur.ccget l) false (decide (r = 0)) (r.testBit (laneWidth s - 1))
          (decide (o = 0) && (tyOf s).outside (xs.map (tyOf s).read).sum))) ∧
  ∀ (s : State) (d a : BitVec 7) (e : BitVec 1) (n : BitVec 3), n ≠ 7 → s.ty = 0x0A → Quiet s →
    InWindow s [d.toNat, a.toNat] → modeFtz s.mode = false →
    ∃ t, exec (.scan d a e n 6) s = .next t ∧ VecOnly s t [d.toNat] s.active s.ccw ∧ ∀ l, s.active.getLsbD l = true →
      let rnd := if modeRnd s.mode = 5 then 0 else modeRnd s.mode
      let add := fun (x y : W32) => BitVec.ofNat 32
        (tyF32.round ⟨rnd, 0, 1, false⟩ ((tyF32.decode x.toNat).add (rnd = 3) (tyF32.decode y.toNat))).bits
      t.cur.vget d.toNat l =
        match (contributors s (.scan d a e n 6) l).map (s.vread 0 a.toNat) with
        | [] => 0x80000000
        | x :: r => r.foldl add x

/-- R334 to R336: `vote`, `ballot` and `rdlane` write a uniform register; `vote` always and `ballot` with CCW 1 write the
flags Z alone of C, Z, N and V. R336, R337: `wrlane`, `bcast`, `match`, `elect`, `lid` and `qid`. -/
def Obligations.CrossLane : Prop :=
  (∀ (s : State) (d : BitVec 6) (a : BitVec 7), Quiet s → InWindow s (regs s.wideTy a) → (s.wideTy = true → a.toNat % 2 = 0) →
    let on := (List.range 32).filter (s.active.getLsbD ·)
    let v := s.vreg s.wideTy 0 a
    (∀ m : BitVec 2, m ≠ 3 →
      ∃ t, exec (.vote d a m) s = .next t ∧ UniOnly s t d true ∧
        let r := if m = 0 then on.all fun l => decide (v l ≠ 0) else if m = 1 then on.any fun l => decide (v l ≠ 0)
          else on.all fun l => on.all fun k => decide (v l = v k)
        (d ≠ 0 → t.cur.sget d.toNat = if r then 1 else 0) ∧ CodesAre t.cur.flags false (!r) false false) ∧
    (∃ t, exec (.ballot d a) s = .next t ∧ UniOnly s t d s.ccw ∧
      (d ≠ 0 → ∀ l, (t.cur.sget d.toNat).getLsbD l = (s.active.getLsbD l && decide (v l ≠ 0))) ∧
      (s.ccw = true → CodesAre t.cur.flags false (on.all fun l => decide (v l = 0)) false false)) ∧
    (∀ i : BitVec 7, i.toNat < 32 →
      ∃ t, exec (.rdlane d a i) s = .next t ∧ UniOnly s t d false ∧
        (d ≠ 0 → t.cur.sget d.toNat = BitVec.ofNat 64 (v i.toNat)))) ∧
  ∀ (s : State) (d : BitVec 7), Quiet s → InWindow s (regs s.wideTy d) → (s.wideTy = true → d.toNat % 2 = 0) →
    (∀ (a : BitVec 6) (i : BitVec 7), i.toNat < 32 →
      ∃ t, exec (.wrlane d a i) s = .next t ∧ VecOnly s t (regs s.wideTy d) (s.active &&& (1#32 <<< i.toNat)) false ∧
        (s.active.getLsbD i.toNat = true →
          laneVal t.cur s.wideTy d i.toNat = (s.uread 0 a.toNat).toNat % 2 ^ laneWidth s)) ∧
    (∀ (a i : BitVec 7), i.toNat < 32 → InWindow s (regs s.wideTy a) → (s.wideTy = true → a.toNat % 2 = 0) →
      ∃ t, exec (.bcast d a i) s = .next t ∧ VecOnly s t (regs s.wideTy d) s.active false ∧
        ∀ l, s.active.getLsbD l = true → laneVal t.cur s.wideTy d l = s.vreg s.wideTy 0 a i.toNat) ∧
    (∀ a : BitVec 7, InWindow s (regs s.wideTy a) → (s.wideTy = true → a.toNat % 2 = 0) →
      ∃ t, exec (.matchLane d a) s = .next t ∧ VecOnly s t (regs s.wideTy d) s.active s.ccw ∧
        ∀ l, s.active.getLsbD l = true →
          let m := laneVal t.cur s.wideTy d l
          s.active.getLsbD m = true ∧ s.vreg s.wideTy 0 a m = s.vreg s.wideTy 0 a l ∧
            (∀ k, k < m → s.active.getLsbD k = true → s.vreg s.wideTy 0 a k ≠ s.vreg s.wideTy 0 a l) ∧
            (s.ccw = true → CodesAre (t.cur.ccget l) false (decide (m = l)) false false)) ∧
    (∃ t, exec (.elect d) s = .next t ∧ VecOnly s t [d.toNat] s.active s.ccw ∧
      ∀ l, s.active.getLsbD l = true →
        t.cur.vget d.toNat l = if ∀ k, k < l → s.active.getLsbD k = false then 1 else 0) ∧
    (∃ t, exec (.lid d) s = .next t ∧ VecOnly s t [d.toNat] s.active false ∧
      ∀ l, s.active.getLsbD l = true → t.cur.vget d.toNat l = BitVec.ofNat 32 l) ∧
    (∃ t, exec (.qid d) s = .next t ∧ VecOnly s t [d.toNat] s.active false ∧
      ∀ l, s.active.getLsbD l = true → t.cur.vget d.toNat l = BitVec.ofNat 32 (l / 4))

/-! ### Uniform instructions -/

/-- R302 to R305: the value each uniform instruction writes, modulo 2⁶⁴, with its frame, a write to s0 being discarded; the
uniform flags under CCW 1, and those `scmp` always writes. -/
def Obligations.UniformResults : Prop :=
  ∀ (s : State), Quiet s →
    (∀ (i : Instr) (d : BitVec 6) (v : W64), uniRule s i = some (d, v) →
      ∃ t, exec i s = .next t ∧ UniOnly s t d (s.ccw && !uniSilent i) ∧ (d ≠ 0 → t.cur.sget d.toNat = v) ∧
        (s.ccw = true → uniSilent i = false →
          CodesAre t.cur.flags (uniMarks s i).1 (decide (v = 0)) v.msb (uniMarks s i).2)) ∧
    (∀ a b : BitVec 6, ∃ t, exec (.scmp a b) s = .next t ∧ UniOnly s t 0 true ∧
      CmpCodes 64 (s.uread 0 a.toNat).toNat (s.uread 1 b.toNat).toNat t.cur.flags)

/-! ### Control flow -/

/-- R253: the sixteen conditions, and the lanes that are active under MODE.GUARD. -/
def Obligations.Conditions : Prop :=
  (∀ f : Codes, let c := Codes.c f; let z := Codes.z f; let n := Codes.n f; let v := Codes.v f
    (List.range 16).map (condHolds · f) =
      [true, z, !z, c, !c, n, !n, v, !v, c && !z, !c || z, n == v, n != v, !z && n == v, z || n != v, false]) ∧
  ∀ (s : State) (l : Nat), l < 32 →
    s.active.getLsbD l = (s.frag.mask.getLsbD l && condHolds (modeGuard s.mode) (s.ccread 0 l))

/-- R267, R268: where the branches, calls, jumps and returns go, and the link and DEPTH they leave. R209, R269: `brv` follows the lanes. All of F or none of it moves as one; a mixed outcome splits F between the two
slots, or puts the side with fewer lanes, T on a tie, onto the stack. -/
def Obligations.Branches : Prop :=
  (∀ s : State, Quiet s →
    let pc := s.issue.pc
    let depth := s.frag.depth
    (∀ o : BitVec 24, ∃ t, exec (.bra o) s = .next t ∧ Went s t (pc + 4 * o.signExtend 64) depth ∧ JumpOnly s t 0) ∧
    (∀ (c : BitVec 4) (o : BitVec 20), ∃ t, exec (.brc c o) s = .next t ∧ OnlyFocus s t ∧ OnlyFlow s t ∧ MemKept s t ∧
      if condHolds c.toNat (s.flread 0) then Went s t (pc + 4 * o.signExtend 64) depth else InSequence s s.cur t.cur) ∧
    (∀ (d : BitVec 6) (o : BitVec 18), depth ≠ 255 →
      ∃ t, exec (.brl d o) s = .next t ∧ Went s t (pc + 4 * o.signExtend 64) (depth + 1) ∧ JumpOnly s t d ∧
        (d ≠ 0 → t.cur.sget d.toNat = pc + 4)) ∧
    (∀ b : BitVec 6, (s.uread 0 b.toNat).toNat % 4 = 0 →
      (∃ t, exec (.jmp b) s = .next t ∧ Went s t (s.uread 0 b.toNat) depth ∧ JumpOnly s t 0) ∧
      (∀ d : BitVec 6, depth ≠ 255 → ∃ t, exec (.jal d b) s = .next t ∧ Went s t (s.uread 0 b.toNat) (depth + 1) ∧
        JumpOnly s t d ∧ (d ≠ 0 → t.cur.sget d.toNat = pc + 4)) ∧
      (depth ≠ 0 → ∃ t, exec (.ret b) s = .next t ∧ Went s t (s.uread 0 b.toNat) (depth - 1) ∧ JumpOnly s t 0))) ∧
  ∀ (s : State) (c : BitVec 4) (o : BitVec 20) (m : Mask), Quiet s →
    (∀ l, m.getLsbD l = (s.frag.mask.getLsbD l && condHolds c.toNat (s.ccread 0 l))) →
    let slot := s.issue.slot
    let goal := s.issue.pc + 4 * o.signExtend 64
    let rest := s.frag.mask &&& ~~~m
    (m = s.frag.mask → ∃ t, exec (.brv c o) s = .next t ∧ Went s t goal s.frag.depth ∧ JumpOnly s t 0) ∧
    (m ≠ s.frag.mask → m = 0 → ∃ t, exec (.brv c o) s = .next t ∧ InSequence s s.cur t.cur ∧ OnlyFocus s t ∧ OnlyFlow s t) ∧
    (m ≠ s.frag.mask → m ≠ 0 → s.cur.loopActive = false → (s.other.st = .free ∨ s.cur.stack.length < 64) →
      ∃ t, exec (.brv c o) s = .next t ∧ OnlyFocus s t ∧
        t.cur = { s.cur with f0 := t.cur.f0, f1 := t.cur.f1, stack := t.cur.stack, ctrs := t.cur.ctrs } ∧
        (s.other.st = .free → t.cur.stack = s.cur.stack ∧ IsPart s (t.cur.frag slot) rest (s.issue.pc + 4) ∧
          IsPart s (t.cur.frag (!slot)) m goal) ∧
        (s.other.st ≠ .free → point (t.cur.frag (!slot)) = point s.other ∧
          let low := decide (popMask rest < popMask m)
          (IsPart s (t.cur.frag slot) (if low then m else rest) (if low then goal else s.issue.pc + 4)) ∧
          t.cur.stack.map point =
            (if low then rest else m, if low then s.issue.pc + 4 else goal, s.frag.depth) :: s.cur.stack.map point))

/-- R273, R276: `loop` and `loopi` start a counter or skip the body; `brkl` ends a counter and the deeper ones; `rdlc` and
`wrlc` read and write COUNT. R246, R274: an instruction that completes in sequence goes on behind its words, or where the end check of a hardware
loop at one of them repeats; `nop` changes nothing else. -/
def Obligations.Loops : Prop :=
  (∀ (s : State), Quiet s →
    (∀ (i : Instr) (k : BitVec 2) (n : Nat) (len : BitVec 8), k ≠ 3 →
      (∃ a, i = .loop k a len ∧ n = (s.uread 0 a.toNat).toNat) ∨ (∃ c, i = .loopi k c len ∧ n = c.toNat) →
      let start := s.issue.pc + 4
      let stop := start + 4 * len.setWidth 64
      let active := (List.range 3).filter fun j => (s.cur.lc j).count ≠ 0
      if 2 ^ 32 ≤ n ∨ (s.cur.lc k.toNat).count ≠ 0 ∨ s.other.st ≠ .free ∨
          (∃ j ∈ active, start < (s.cur.lc j).start ∨ (s.cur.lc j).start + 4 * (s.cur.lc j).len.setWidth 64 < stop) then
        Raises i s { cause := Cause.illegalOperand }
      else ∃ t, exec i s = .next t ∧ OnlyFocus s t ∧ OnlyFlow s t ∧
        if n = 0 then Went s t (stop + 4) s.frag.depth
        else (t.cur.frag s.issue.slot).pc = start ∧
          t.cur.lc k.toNat = ⟨BitVec.ofNat 32 n, BitVec.ofNat 2 active.length, len, start⟩ ∧
          ∀ j < 3, j ≠ k.toNat → t.cur.lc j = s.cur.lc j) ∧
    (∀ k : BitVec 12, k.toNat < 3 → (s.cur.lc k.toNat).count ≠ 0 →
      ∃ t, exec (.brkl k) s = .next t ∧ OnlyFocus s t ∧ OnlyFlow s t ∧
        (t.cur.frag s.issue.slot).pc = (s.cur.lc k.toNat).start + 4 * (s.cur.lc k.toNat).len.setWidth 64 + 4 ∧
        ∀ j < 3, t.cur.lc j =
          if j = k.toNat ∨ (s.cur.lc k.toNat).nest.toNat < (s.cur.lc j).nest.toNat then { s.cur.lc j with count := 0 }
          else s.cur.lc j) ∧
    (∀ (d : BitVec 6) (k : BitVec 12), k.toNat < 3 → ∃ t, exec (.rdlc d k) s = .next t ∧ UniOnly s t d false ∧
      (d ≠ 0 → t.cur.sget d.toNat = ((s.cur.lc k.toNat).count).setWidth 64)) ∧
    (∀ k b : BitVec 6, k.toNat < 3 → (s.uread 0 b.toNat).toNat < 2 ^ 32 →
      ((s.cur.lc k.toNat).count ≠ 0 ∨ s.uread 0 b.toNat = 0) →
      ∃ (t : State) (g : Group), exec (.wrlc k b) s = .next t ∧ OnlyFocus s t ∧ OnlyFlow s t ∧ InSequence s g t.cur ∧
        ∀ j < 3, g.lc j = if j = k.toNat then { s.cur.lc j with count := (s.uread 0 b.toNat).setWidth 32 } else s.cur.lc j)) ∧
  ∀ (s : State) (i : Instr), Quiet s →
    (i = .nop ∨ (∃ d v, uniRule s i = some (d, v)) ∨
      ∃ d a b, vecShape i = some (d, a, b) ∧ vecTypes i s.ty = true ∧ VecReady s d a b) →
    ∃ t, exec i s = .next t ∧ InSequence s s.cur t.cur ∧
      (i = .nop → OnlyFocus s t ∧ OnlyFlow s t ∧ MemKept s t)

/-- R254, R255, R283, R284, R282: MODE, the special registers, the overflow table and `eret`. -/
def Obligations.SystemRegisters : Prop :=
  ∀ (s : State), Quiet s →
    (∀ (d : BitVec 6) (m : BitVec 12) (lit : BitVec 32), lit.toNat < 2 ^ 18 → reservedMode lit m = false →
      ∃ t, exec (.setm d m lit) s = .next t ∧ UniOnly { s with cur := { s.cur with mode := t.cur.mode } } t d false ∧
        (d ≠ 0 → t.cur.sget d.toNat = s.cur.mode.setWidth 64) ∧
        ∀ k < 32, t.cur.mode.getLsbD k =
          if k < 18 ∧ m.getLsbD (modeField k) = true then lit.getLsbD k else s.cur.mode.getLsbD k) ∧
    (∀ d : BitVec 6, ∃ t, exec (.getm d) s = .next t ∧ UniOnly s t d false ∧
      (d ≠ 0 → t.cur.sget d.toNat = s.cur.mode.setWidth 64)) ∧
    (∀ (d : BitVec 6) (n : BitVec 12) (v : Nat), (n, v) ∈ userRegs s →
      ∃ t, exec (.movsr d n) s = .next t ∧ UniOnly s t d false ∧ (d ≠ 0 → t.cur.sget d.toNat = BitVec.ofNat 64 v)) ∧
    (s.cur.priv = true → ∀ (a : BitVec 6) (n : BitVec 12) (v : W64) (x : Trap),
      (n, v, x) ∈ trapRegs (s.cur.trap s.issue.slot) (s.uread 0 a.toNat) →
      (∀ d, ∃ t, exec (.movsr d n) s = .next t ∧ UniOnly s t d false ∧ (d ≠ 0 → t.cur.sget d.toNat = v)) ∧
      ∃ t, exec (.movrs a n) s = .next t ∧ OnlyFocus s t ∧ OnlyFlow s (backTrap s t) ∧ t.cur.priv = true ∧
        t.cur.trap s.issue.slot = x ∧ t.cur.trap (!s.issue.slot) = s.cur.trap (!s.issue.slot)) ∧
    (s.cur.priv = true → ∀ b : BitVec 6, ovtOk (s.uread 0 b.toNat) = true →
      ∃ t, exec (.ldovt b) s = .next t ∧ OnlyFocus s t ∧ OnlyFlow s { t with cur := { t.cur with ovt := s.cur.ovt } } ∧
        t.cur.ovt = (s.uread 0 b.toNat).setWidth 16) ∧
    (∀ d : BitVec 6, ∃ t, exec (.rdovt d) s = .next t ∧ UniOnly s t d false ∧
      (d ≠ 0 → t.cur.sget d.toNat = s.cur.ovt.setWidth 64)) ∧
    (s.cur.priv = true → (s.cur.trap s.issue.slot).tpc.toNat % 4 = 0 →
      ∃ t, exec .eret s = .next t ∧ OnlyFocus s t ∧ t.cur.priv = false ∧ t.cur.t0 = s.cur.t0 ∧ t.cur.t1 = s.cur.t1 ∧
        t.cur.frag (!s.issue.slot) = s.other ∧ (t.cur.frag s.issue.slot).mask = s.frag.mask ∧
        (t.cur.frag s.issue.slot).pc = (s.cur.trap s.issue.slot).tpc ∧
        t.cur = { s.cur with f0 := t.cur.f0, f1 := t.cur.f1, priv := false })

/-- R278, R280, R281, R271: `exit`, `yield`, `sleep`, `rcv` and `join`. Where the spec leaves a point open, this takes
the model's choice (log entry 28). -/
def Obligations.FragmentControl : Prop :=
  ∀ s : State,
    let slot := s.issue.slot
    (s.cur.tx.opened = false →
      ∃ t, exec .exit s = .next t ∧ (t.cur.frag slot).st = .free ∧ point (t.cur.frag (!slot)) = point s.other ∧
        t.cur.stack.map point = s.cur.stack.map point ∧ t.cur.vregs = s.cur.vregs ∧ t.cur.sregs = s.cur.sregs ∧
        MemKept s t ∧ (∀ p ∈ t.cur.pend, p.mask &&& s.frag.mask = 0) ∧
        t.cur.state = (if s.other.st = .free ∧ s.cur.stack = [] ∧ s.multiplies s.cur.info.key = false then .exited else s.cur.state)) ∧
    (∃ (t : State) (g : Group), exec .yield s = .next t ∧ OnlyFocus s t ∧ InSequence s s.cur g ∧
      match s.cur.stack with
      | top :: rest => point (t.cur.frag slot) = point top ∧ point (t.cur.frag (!slot)) = point s.other ∧
          t.cur.stack.map point = (s.frag.mask, (g.frag slot).pc, s.frag.depth) :: rest.map point
      | [] => OnlyFlow s { t with cur := t.cur.onFrag slot fun f => { f with yielded := s.frag.yielded } } ∧
          (t.cur.frag slot).pc = (g.frag slot).pc ∧
          (t.cur.frag slot).yielded = (s.cur.canIssue (!slot) || s.frag.yielded)) ∧
    (∀ n : BitVec 12, ∃ t, exec (.sleep n) s = .next t ∧ OnlyFocus s t ∧ InSequence s s.cur t.cur ∧
      OnlyFlow s { t with cur := t.cur.onFrag slot fun f => { f with sleeping := s.frag.sleeping, halted := s.frag.halted } } ∧
      (t.cur.frag slot).sleeping = (decide (n ≠ 0) && !s.cur.stopReq) ∧
      (t.cur.frag slot).halted = (s.frag.halted || (decide (n ≠ 0) && s.cur.stopReq))) ∧
    (∀ (i : Instr) (st : FragState), (i = .rcv ∧ st = .waitRcv) ∨ (i = .join ∧ st = .waitJoin) →
      ∃ t, exec i s = .next t ∧ OnlyFocus s t ∧ t.cur = s.cur.setFrag slot (t.cur.frag slot) ∧
        t.cur.frag slot = { s.frag with st := st })

/-- R391, R218, R279: a fault outside a transaction fills the trap state of the slot, which stops, and the group is
FAULTED, a parked one when it resumes; its registers, the other slot and memory stay, and the control core that serves the
grid has a GROUP_FAULT event (R240). R144: inside a transaction any fault aborts it instead, with
status 6 and its cause. R279: `trap` and `brk` raise their causes with TADDR the immediate, and continue at the next
instruction. Where the spec leaves a point open, this takes the model's choice (log entry 21). -/
def Obligations.FaultsTaken : Prop :=
  ∀ (s : State),
    (∀ n : BitVec 12, Raises (.trap n) s { cause := 0x21, addr := n.signExtend 64, after := true } ∧
      Raises (.brk n) s { cause := 0x20, addr := n.signExtend 64, after := true }) ∧
    ∀ (i : Instr) (f : Flt), Raises i s f →
      (s.cur.tx.opened = true → ∃ t, exec i s = .next t ∧ Aborted s t 6 f.cause) ∧
      (s.cur.tx.opened = false →
        ∃ t, exec i s = .next t ∧ OnlyFocus s { t with clusters := s.clusters } ∧ MemKept s t ∧
          t.clusters = (s.ccEvent (clusterIx s.coreKey) s.cur.info.key.blk.part s.cur.info.key.blk.grid
            (s.cur.info.faultWord f.cause)).clusters ∧
          t.cur.state = (if s.cur.state = .parked then .parked else .faulted) ∧
          (let x := t.cur.trap s.issue.slot
           x.tpc = (if f.after then s.issue.pc + 4 else s.issue.pc) ∧ x.tcause = f.cause ∧ x.taddr = f.addr ∧
            x.tmask = f.done.setWidth 128 ∧ x.tbeat = f.beat ∧ x.detail = f.detail ∧ x.phase ≠ .none) ∧
          t.cur.trap (!s.issue.slot) = s.cur.trap (!s.issue.slot) ∧
          point (t.cur.frag s.issue.slot) = point s.frag ∧ point (t.cur.frag (!s.issue.slot)) = point s.other ∧
          t.cur = { s.cur with state := t.cur.state, f0 := t.cur.f0, f1 := t.cur.f1, t0 := t.cur.t0, t1 := t.cur.t1 })

/-- R268, R269, R278, R282 to R284, R259: the faults of control instructions. -/
def Obligations.ControlFaults : Prop :=
  ∀ (s : State), Quiet s →
    let ill : Flt := { cause := Cause.illegalOperand }
    let deep : Flt := { cause := Cause.reconvOverflow }
    let priv : Flt := { cause := Cause.privilege }
    (s.frag.depth = 255 → ∀ (d : BitVec 6) (o : BitVec 18), Raises (.brl d o) s deep) ∧
    (∀ b d : BitVec 6, let v := s.uread 0 b.toNat
      (v.toNat % 4 ≠ 0 → Raises (.jmp b) s { cause := Cause.misaligned, addr := v } ∧
        ∀ i, (i = .jal d b ∨ i = .ret b) → Raises i s { cause := Cause.misaligned }) ∧
      (v.toNat % 4 = 0 → s.frag.depth = 255 → Raises (.jal d b) s deep) ∧
      (v.toNat % 4 = 0 → s.frag.depth = 0 → Raises (.ret b) s ill)) ∧
    (∀ (c : BitVec 4) (o : BitVec 20) (l k : Nat), s.frag.mask.getLsbD l = true → s.frag.mask.getLsbD k = true →
      condHolds c.toNat (s.ccread 0 l) = true → condHolds c.toNat (s.ccread 0 k) = false →
      (s.cur.loopActive = true → Raises (.brv c o) s ill) ∧
      (s.cur.loopActive = false → s.other.st ≠ .free → 64 ≤ s.cur.stack.length → Raises (.brv c o) s deep)) ∧
    (s.cur.tx.opened = true → Raises .exit s ill) ∧
    (s.cur.priv = false → Raises .eret s priv ∧ (∀ b, Raises (.ldovt b) s priv) ∧
      ∀ (a d : BitVec 6) (n : BitVec 12), 0x40 ≤ n.toNat → n.toNat ≤ 0x45 → Raises (.movsr d n) s priv ∧ Raises (.movrs a n) s priv) ∧
    (∀ (a d : BitVec 6) (n : BitVec 12),
      (n ∉ (userRegs s).map (·.1) → (n.toNat < 0x40 ∨ 0x45 < n.toNat) → Raises (.movsr d n) s ill) ∧
      ((n.toNat < 0x40 ∨ 0x45 < n.toNat) → Raises (.movrs a n) s ill)) ∧
    (s.cur.priv = true → ∀ b, ovtOk (s.uread 0 b.toNat) = false → Raises (.ldovt b) s ill) ∧
    (s.cur.priv = true → (s.cur.trap s.issue.slot).tpc.toNat % 4 ≠ 0 →
      Raises .eret s { cause := Cause.misaligned }) ∧
    (∀ (d : BitVec 6) (m : BitVec 12) (lit : BitVec 32), (2 ^ 18 ≤ lit.toNat ∨ reservedMode lit m = true) → Raises (.setm d m lit) s ill) ∧
    (∀ k : BitVec 12, k.toNat < 3 → (s.cur.lc k.toNat).count = 0 → Raises (.brkl k) s ill) ∧
    (∀ k b : BitVec 6, k.toNat < 3 → let v := (s.uread 0 b.toNat).toNat
      (2 ^ 32 ≤ v ∨ ((s.cur.lc k.toNat).count = 0 ∧ v ≠ 0)) → Raises (.wrlc k b) s ill)

/-- R212 rules 1 to 3: fusing the fragments of a group, popping a record into a FREE slot, and exchanging the slot of
the higher PC with the top record. R212 rules 4 to 6: the release of a `rcv`, the lower PC first; a `join` whose
condition is met; two fragments that wait at different points. Where the spec leaves a point open, this takes the
model's choice (log entries 22 and 24). -/
def Obligations.FragmentArbiter : Prop :=
  (∀ (s : State) (g : Group), s.group? s.args.group = some g → g.arbitrates = true →
    (g.canFuse = true → ∃ t h, exec .arbiterFuse s = .next t ∧ t.group? s.args.group = some h ∧
      h.f0.mask = g.f0.mask ||| g.f1.mask ∧ h.f0.depth = g.f0.depth ∧ h.f0.lead = false ∧ h.f0.lag = false ∧
      h.f1.st = .free ∧ h.stack = g.stack ∧ h.vregs = g.vregs ∧ h.sregs = g.sregs ∧
      (g.f0.st ≠ g.f1.st → h.f0.st = .ready) ∧ (g.f0.st = .waitRcv → g.f1.st = .waitRcv → h.f0.st = .waitRcv)) ∧
    (∀ top rest, g.canFuse = false → (g.f0.st = .free ∨ g.f1.st = .free) → g.stack = top :: rest →
      ∃ t h, exec .arbiterPop s = .next t ∧ t.group? s.args.group = some h ∧ h.stack = rest ∧
        h.vregs = g.vregs ∧ h.sregs = g.sregs ∧
        if g.f0.st = .free then h.f0 = top ∧ h.f1 = g.f1 else h.f1 = top ∧ h.f0 = g.f0) ∧
    (∀ top rest, g.canFuse = false → g.f0.st.join = true → g.f1.st.join = true → g.stack = top :: rest →
      ∃ t h, exec .arbiterExchange s = .next t ∧ t.group? s.args.group = some h ∧
        h.vregs = g.vregs ∧ h.sregs = g.sregs ∧
        let up := decide (g.f0.pc.toNat ≤ g.f1.pc.toNat)
        h.stack.map point = point (g.frag up) :: rest.map point ∧ point (h.frag up) = point top ∧
          point (h.frag (!up)) = point (g.frag (!up)))) ∧
  ∀ (s : State) (g : Group), s.group? s.args.group = some g → g.arbitrates = true → g.canFuse = false → g.stack = [] →
    (∀ slot, (g.frag slot).st = .waitRcv →
      (let o := g.frag (!slot)
       o.st = .free ∨ (o.st.join = true ∧ o.st ≠ .waitRcv) ∨ (o.st = .waitRcv ∧
        ((g.frag slot).pc.toNat < o.pc.toNat ∨ (slot = false ∧ (g.frag slot).pc = o.pc)))) →
      ∃ t h, exec .arbiterReleaseRcv s = .next t ∧ t.group? s.args.group = some h ∧ (h.frag slot).st = .ready ∧
        (h.frag slot).mask = (g.frag slot).mask ∧ h.frag (!slot) = g.frag (!slot) ∧
        (g.loopActive = false → (g.frag slot).redo = none → (h.frag slot).pc = (g.frag slot).pc + 4)) ∧
    (∀ slot, (g.frag slot).st = .waitJoin → (g.frag (!slot)).st = .free → slot = decide (g.f0.st = .free) →
      ∃ t h, exec .arbiterJoinMet s = .next t ∧ t.group? s.args.group = some h ∧ (h.frag slot).st = .ready ∧
        (h.frag slot).mask = (g.frag slot).mask ∧
        (g.loopActive = false → (g.frag slot).redo = none → (h.frag slot).pc = (g.frag slot).pc + 4)) ∧
    ((g.f0.st = .waitJoin ∨ (g.f0.st = .waitBar ∧ g.barArrived = false ∧ g.gbarArrived = false)) →
      (g.f1.st = .waitJoin ∨ (g.f1.st = .waitBar ∧ g.barArrived = false ∧ g.gbarArrived = false)) → g.tx.opened = false →
      ∃ t h, exec .arbiterJoinError s = .next t ∧ t.group? s.args.group = some h ∧ h.state = .faulted ∧
        let up := decide (g.f0.pc.toNat ≤ g.f1.pc.toNat)
        (h.trap up).tcause = Cause.illegalOperand ∧ (h.trap up).tpc = (g.frag up).pc ∧ (h.trap up).tmask = 0)

/-- R210, R250, R281: the missing lanes of a miss split return, an outstanding result is written whole, a sleep ends. -/
def Obligations.ResultsArrive : Prop :=
  ∀ (s : State) (g : Group), s.group? s.args.group = some g →
    (∀ slot, s.args.frag = slot → (g.frag slot).lag = true → (g.frag slot).st = .waitMem → (g.frag slot).hold = .none →
      ∃ t h, exec .lagDataReturn s = .next t ∧ t.group? s.args.group = some h ∧ (h.frag slot).st = .ready ∧
        (h.frag slot).mask = (g.frag slot).mask ∧ ((g.frag (!slot)).hold ≠ .results → h.frag (!slot) = g.frag (!slot)) ∧
        ∀ p ∈ h.pend, p.mask &&& (g.frag slot).mask = 0) ∧
    (∀ p, g.pend[s.args.n]? = some p →
      ∃ t h, exec .resultWriteback s = .next t ∧ t.group? s.args.group = some h ∧ h.pend = g.pend.eraseIdx s.args.n ∧
        (∀ pre n l v post, p.writes = pre ++ .vec n l v :: post → l < 32 → (∀ w ∈ post, w.cell ≠ .vec n l) → h.vget n l = v) ∧
        (∀ n l, l < 32 → (∀ w ∈ p.writes, ∀ k < 32, w.cell ≠ .vec n k) → h.vget n l = g.vget n l) ∧
        (∀ pre n v post, p.writes = pre ++ .uni n v :: post → n ≠ 0 → (∀ w ∈ post, w.cell ≠ .uni n) → h.sget n = v) ∧
        (∀ n, (∀ w ∈ p.writes, w.cell ≠ .uni n) → h.sget n = g.sget n) ∧
        ∀ slot, ((g.frag slot).hold ≠ .results ∨ (∃ q ∈ h.pend, q.mask &&& (g.frag slot).mask ≠ 0) →
            h.frag slot = g.frag slot) ∧
          ((g.frag slot).hold = .results → (∀ q ∈ h.pend, q.mask &&& (g.frag slot).mask = 0) →
            h.frag slot = { g.frag slot with st := .ready, hold := .none })) ∧
    (∃ t h, exec .sleepExpire s = .next t ∧ t.group? s.args.group = some h ∧ (h.frag s.args.frag).sleeping = false ∧
      h = g.setFrag s.args.frag (h.frag s.args.frag) ∧ (h.frag s.args.frag).st = (g.frag s.args.frag).st)

/-! ### Memory instructions -/

/-- R341, R345, R346, R348, R354: every load and store with per-lane accesses performs its beats in turn, each over
its lanes in ascending order, leaves the values of a load outstanding, and goes on. Where the spec leaves a point
open, this takes the model's choice (log entry 127). -/
def Obligations.MemoryInstructions : Prop :=
  ∀ (s u : State) (i : Instr) (p : Plan) (ws : List LaneRes) (miss : Mask),
    (globalPlan s i = some p ∨ localPlan s i = some p) → Quiet s → memReady s i → s.frag.done = 0 → s.frag.beat = 0 →
    PerformsBeats (lanes p.mask) p.act (List.range p.count) p.start u ws miss → ¬ splits s i u (s.missed ||| miss) →
    ∃ t, exec i s = .next t ∧ InSequence u u.cur t.cur ∧
      t.cur.pend = u.cur.pend ++ outstanding u ws ∧
      t.mem = u.mem ∧ t.hostMem = u.hostMem ∧ t.blocks = u.blocks ∧ (u.cur.tx.opened = false → t.parts = u.parts) ∧
      t.cur.vregs = u.cur.vregs ∧ t.cur.sregs = u.cur.sregs ∧ t.cur.cc = u.cur.cc ∧ t.cur.flags = u.cur.flags

/-- R171, R345: a lane of a store leaves its own value where no other lane or beat of the instruction stores at its
address, or where all that do store one value; and always one of the values that they store there. Which one is free;
that it is settled in ascending order of beats and lanes is the model's choice (log entry 127). -/
def Obligations.SharedLocations : Prop :=
  ∀ (w : Nat) (s : State) (m : Mask) (a : Nat → Nat → BitVec w) (v : Nat → Nat → Nat) (i l : Nat),
    let first := s.frag.beat.toNat
    let stores (j k : Nat) : Prop := first ≤ j ∧ k ∈ lanes m ∧ ¬ (j = first ∧ s.frag.done.getLsbD k = true)
    let shares (j k : Nat) : Prop := stores j k ∧ a j k = a i l ∧ (j < i ∨ (j = i ∧ k ≤ l))
    stores i l →
      ((∀ j k, shares j k → v j k = v i l) → s.storeVal m a v i l = v i l) ∧
      (∃ j k, shares j k ∧ s.storeVal m a v i l = v j k)

/-- R344, R345, R392: when some lane of a beat fails, the instruction raises the cause of the lowest one after the
other lanes of that beat, with TMASK the lanes done and TBEAT the beat; no higher beat begins. R210: a W-marked
relaxed load with hits and misses splits: the missing lanes wait in the other slot with LAG and the others go on with
LEAD. Where the spec leaves a point open, this takes the model's choice (log entry 148). -/
def Obligations.MemoryOutcomes : Prop :=
  ∀ (s u : State) (i : Instr) (p : Plan) (ws : List LaneRes) (miss : Mask),
    (globalPlan s i = some p ∨ localPlan s i = some p) → Quiet s → memReady s i → s.frag.done = 0 → s.frag.beat = 0 →
    (∀ (v : State) (k : Nat) (rs : List LaneRes) (m : Mask) (f : Flt), k < p.count →
      PerformsBeats (lanes p.mask) p.act (List.range k) p.start u ws miss → Tries (p.act k) (lanes p.mask) u v rs m (some f) →
      f.deferred = false → f.after = false → v.cur.tx.opened = false →
      ∃ t, exec i s = .next t ∧ t.cur.state = (if v.cur.state = .parked then .parked else .faulted) ∧ t.mem = v.mem ∧
        t.cur.vregs = v.cur.vregs ∧
        let x := t.cur.trap v.issue.slot
        x.tcause = f.cause ∧ x.taddr = f.addr ∧ x.detail = f.detail ∧ x.tpc = v.issue.pc ∧
          x.tmask = m.setWidth 128 ∧ x.tbeat = BitVec.ofNat 3 k) ∧
    (globalPlan s i = some p → PerformsBeats (lanes p.mask) p.act (List.range p.count) p.start u ws miss →
      let miss := s.missed ||| miss
      splits s i u miss → ∃ t, exec i s = .next t ∧ InSequence u u.cur t.cur ∧
        (let f := t.cur.frag u.issue.slot
         let g := t.cur.frag (!u.issue.slot)
         f.mask = u.frag.mask &&& ~~~miss ∧ f.lead = true ∧ f.st = u.frag.st ∧
         g.mask = miss ∧ g.lag = true ∧ g.st = .waitMem ∧ g.pc = f.pc ∧ g.depth = f.depth) ∧
        ∃ ps, t.cur.pend = u.cur.pend ++ ps ∧ (∀ p ∈ ps, p.mask = u.frag.mask &&& ~~~miss ∨ p.mask = miss) ∧
          (∀ w, (∃ p ∈ ps, p.mask = miss ∧ w ∈ p.writes) ↔ ∃ x ∈ ws, miss.getLsbD x.lane = true ∧ x.res = w) ∧
          (∀ w, (∃ p ∈ ps, p.mask ≠ miss ∧ w ∈ p.writes) ↔ ∃ x ∈ ws, miss.getLsbD x.lane = false ∧ x.res = w))

/-- R89, R113, R115, R128: what a global load of a lane reads: the coherent bytes of an HC or NC page, the SC line that its
L1 holds, and for an SC line that L1 lacks the bytes of memory; poison faults. Memory stays. R66, R115: what a global store of a lane writes: under an HC or NC page its bytes at the home under the page's KEY_ID
and no other byte; under an SC page bytes and dirty mask of the line in its own L1, and no memory. -/
def Obligations.GlobalAccess : Prop :=
  (∀ (s : State) (l1 : List (Nat × Nat)) (n ix ppa : Nat) (gva : W64) (t : Translation) (put : Nat → List ResWrite),
    Reaches s Kind.load n gva t ppa → s.versioned t ppa = false → InLine ppa n → 0 < n → CleanCopies s ppa →
    (t.coh ≠ 1 → ModeFree s ppa true →
      (s.anyPoison s.pid ppa n = true →
        ∃ u, s.loadAt l1 n ix gva put = .flt { cause := Cause.poison, addr := gva, deferred := true } u) ∧
      (s.anyPoison s.pid ppa n = false →
        ∃ u hit, s.loadAt l1 n ix gva put = .ok u (put (valueOf (fun i => s.byteAt s.pid t.key (ppa + i)) n)) hit ∧
          (t.coh = 2 ∨ L1Room s ppa → u.mem = s.mem ∧ OnlyCounters s u))) ∧
    (t.coh = 1 → ∀ data dirty key,
      (s.core s.coreKey).l1At s.pid (ppa / 64) = some (.sc s.pid (ppa / 64) data dirty key true) →
      ∃ u hit, s.loadAt l1 n ix gva put = .ok u (put (valueOf (fun i => data.getD (ppa % 64 + i) 0) n)) hit ∧
        u.mem = s.mem ∧ OnlyCounters s u) ∧
    (t.coh = 1 → (s.core s.coreKey).l1At s.pid (ppa / 64) = none → s.poisoned s.pid ppa = false →
      (s.core s.coreKey).l1.length < s.l1Lines s.coreKey →
      ∃ u hit, s.loadAt l1 n ix gva put = .ok u (put (valueOf (fun i => s.byteAt s.pid t.key (ppa + i)) n)) hit ∧ u.mem = s.mem)) ∧
  ∀ (s : State) (n ix ppa v : Nat) (since : Option Nat) (gva : W64) (t : Translation),
    Reaches s Kind.store n gva t ppa → s.versioned t ppa = false → InLine ppa n → 0 < n → n ≤ 8 →
    (t.coh ≠ 1 → ModeFree s ppa true → (t.coh = 2 ∨ L1Room s ppa) →
      ∃ u hit, s.storeAt n ix gva v since = .ok u [] hit ∧ OnlyCounters s u ∧
        (∀ i < n, u.byteAt s.pid t.key (ppa + i) = byteOf v i) ∧
        (∀ j, j / 64 = ppa / 64 → (j < ppa ∨ ppa + n ≤ j) → u.byteAt s.pid t.key j = s.byteAt s.pid t.key j) ∧
        ∀ a, a / 64 ≠ pa s.pid ppa / 64 → u.rawByte a = s.rawByte a) ∧
    (t.coh = 1 → ModeFree s ppa false → L1Room s ppa →
      ∃ u hit data dirty key full, s.storeAt n ix gva v since = .ok u [] hit ∧ u.mem = s.mem ∧ OnlyCounters s u ∧
        (u.core s.coreKey).l1At s.pid (ppa / 64) = some (.sc s.pid (ppa / 64) data dirty key full) ∧
        ∀ i < n, data.getD (ppa % 64 + i) 0 = byteOf v i ∧ dirty.getLsbD (ppa % 64 + i) = true)

/-- R76 to R79, R83: local loads and stores: the window form of the own block reads and writes the bytes at its offset and
leaves tags and every other byte; the register form reaches a lane of a group's register. R83, R84, R348: the tag that each tagged instruction waits for and leaves, the word it moves, and the access that is
held at its word until the tag allows it. -/
def Obligations.LocalAccess : Prop :=
  (∀ (s : State) (a : W32) (n off : Nat) (put : Nat → List ResWrite), 0 < n → n ≤ 8 → 64 % n = 0 →
    (a.toNat = off → off < 2 ^ 20 → off + n ≤ s.cur.info.localKib * 1024 → off % n = 0 →
      ∀ b, PlainWindow s s.cur.info.key.blk off b →
        (b.poisonedAt off n = false →
          ∃ u, s.localLoadAt n a put = .ok u (put (valueOf (fun i => mget 0 b.win (off + i)) n)) true ∧
            OnlyWindow s u s.cur.info.key.blk b) ∧
        ∀ v, ∃ u c, s.localStoreAt n a v = .ok u [] true ∧ OnlyWindow s u s.cur.info.key.blk c ∧
          (∀ i < n, mget 0 c.win (off + i) = byteOf v i) ∧ (∀ j, (j < off ∨ off + n ≤ j) → mget 0 c.win j = mget 0 b.win j) ∧
          c.tags = b.tags) ∧
    (∀ g r l k, s.cur.info.harv = false → g < 16 → g < s.cur.info.groups → r < s.cur.info.nregs → r < 128 → l < 32 →
      k + n ≤ 4 → k % n = 0 → a.toNat = 2 ^ 31 + 0x4000 * g + 128 * r + 4 * l + k →
      (s.regPoisoned g r l = false →
        ∃ u, s.localLoadAt n a put = .ok u (put ((s.regLane g r l).toNat / 2 ^ (8 * k) % 2 ^ (8 * n))) true ∧
          u.mem = s.mem ∧ u.blocks = s.blocks) ∧
      (s.regPoisoned g r l = true → ∃ u, s.localLoadAt n a put =
        .flt { cause := Cause.poison, addr := BitVec.setWidth 64 a, deferred := true } u ∧ u.mem = s.mem ∧ u.blocks = s.blocks) ∧
      ∀ v, g = s.cur.info.key.grp → ∃ u, s.localStoreAt n a v = .ok u [] true ∧ u.mem = s.mem ∧ u.blocks = s.blocks ∧
        (∀ j < 4, sub 8 (u.cur.vget r l).toNat j =
          if k ≤ j ∧ j < k + n then sub 8 v (j - k) else sub 8 (s.regLane g r l).toNat j) ∧
        ∀ r' l', l' < 32 → (r' ≠ r ∨ l' ≠ l) → u.cur.vget r' l' = s.cur.vget r' l')) ∧
  ∀ (s : State) (op : TagStep) (a : W32) (l r v off : Nat) (b : Block),
    a.toNat = off → off < 2 ^ 20 → off % 4 = 0 → off + 4 ≤ s.cur.info.localKib * 1024 →
    PlainWindow s s.cur.info.key.blk off b → b.poisonedAt off 4 = false → b.waitQ = [] → s.queued l = false →
    let full := mget false b.tags (off / 4)
    let word := valueOf (fun i => mget 0 b.win (off + i)) 4
    let waits := ((op = .ldf ∨ op = .take) ∧ full = false) ∨ (op = .ste ∧ full = true)
    (waits → ∃ u c, s.tagAt op a l r v = .hold .tags u ∧ OnlyWindow s u s.cur.info.key.blk c ∧
      c.win = b.win ∧ c.tags = b.tags ∧ c.waitQ.length = 1) ∧
    (¬ waits → ∃ u c, s.tagAt op a l r v =
        .ok u (if op = .ldf ∨ op = .take then [.vec r l (BitVec.ofNat 32 word)]
          else if op = .rd then [.vec r l (if full then 1 else 0)] else []) true ∧
      OnlyWindow s u s.cur.info.key.blk c ∧ c.waitQ = [] ∧
      mget false c.tags (off / 4) = (if op = .ste ∨ op = .stf ∨ op = .set then true else if op = .take ∨ op = .clr then false else full) ∧
      (∀ w, w ≠ off / 4 → mget false c.tags w = mget false b.tags w) ∧
      (∀ j, (j < off ∨ off + 4 ≤ j) → mget 0 c.win j = mget 0 b.win j) ∧
      ∀ i < 4, mget 0 c.win (off + i) = if op = .ste ∨ op = .stf then byteOf v i else mget 0 b.win (off + i))

/-- R342, R347: `ldu` and `stu` make one access of the type's size at s(sb), local-form or global; the value of `ldu`
is left outstanding, sign-extended for an i-type. R351: `atomu` performs one atomic with the uniform operand, and
leaves the old value outstanding, extended as `ldu` extends, with the flags under CCW 1. Where the spec leaves a point
open, this takes the model's choice (log entry 34). -/
def Obligations.UniformMemory : Prop :=
  (∀ (s u : State) (b : BitVec 4) (t : BitVec 6) (r : BitVec 2) (ws : List ResWrite) (hit ver : Bool), Quiet s → typeBits s.ty ≠ 4 →
    let a := s.uread 1 b.toNat
    let n := typeBits s.ty / 8
    let put := fun v => [ResWrite.uni t.toNat (extendOf s.ty n v)]
    let v := (s.uread 0 t.toNat).toNat % 2 ^ (8 * n)
    (r ≠ 2 →
      (isLocal a ∧ Did (s.localLoadAt n (a.setWidth 32) put) u ws hit ver) ∨
        (¬ isLocal a ∧ Did (s.countLoad.loadAt s.l1Held n (slotOf 0 0) a put) u ws hit ver) →
      ∃ x, exec (.ldu t b r) s = .next x ∧ InSequence u u.cur x.cur ∧
        x.cur.pend = u.cur.pend ++ outstanding u (ws.map fun w => ⟨0, ver, w⟩) ∧
        x.mem = u.mem ∧ x.blocks = u.blocks ∧ x.cur.vregs = u.cur.vregs ∧ x.cur.sregs = u.cur.sregs) ∧
    (r ≠ 1 →
      (isLocal a ∧ s.localStoreAt n (a.setWidth 32) v = .ok u ws hit) ∨
        (¬ isLocal a ∧ s.storeAt n (slotOf 0 0) a v none = .ok u ws hit) →
      ∃ x, exec (.stu t b r) s = .next x ∧ InSequence u u.cur x.cur ∧ x.cur.pend = u.cur.pend ∧
        x.mem = u.mem ∧ x.blocks = u.blocks ∧ x.cur.vregs = u.cur.vregs ∧ x.cur.sregs = u.cur.sregs)) ∧
  ∀ (s u v : State) (i : Instr) (op : AtomOp) (t : BitVec 6) (b : BitVec 4) (old : Nat) (ver : Bool),
    atomuShape i = some (op, t, b) → Quiet s → atomTypes op s.ty → (op = .cas → t ≠ 63) →
    let n := typeBits s.ty / 8
    let c : AtomCtx := ⟨op, s.ty, s.operands.ovt, modeFtz s.mode, 8 * n⟩
    let a := s.uread 1 b.toNat
    let loc := decide (isLocal a)
    let w := (s.uread 0 t.toNat).toNat % 2 ^ c.w
    let w2 := if op = .cas then (s.uread 2 (t.toNat + 1)).toNat % 2 ^ c.w else 0
    (if loc then u = s else Translates n (fun _ => a) [0] s u) →
    siteOf loc op n true u.storeSince 0 a u (fun x => if op = .cas then (if x = w then some w2 else none) else some (c.combine x w)) = .ok old ver v →
    ∃ x, exec i s = .next x ∧ InSequence v v.cur x.cur ∧ x.mem = v.mem ∧ x.blocks = v.blocks ∧ x.hostMem = v.hostMem ∧
      x.cur.vregs = v.cur.vregs ∧ x.cur.sregs = v.cur.sregs ∧
      x.cur.pend = v.cur.pend ++ [⟨v.frag.mask, .uni t.toNat (extendOf s.ty n old) ::
        if s.ccw then [.flags (atomCodes c old w)] else [], s.frag.checkedFor, ver, v.issue.pc⟩]

/-- R119, R121, R351: `atom` and `red` perform each address of their active lanes once with the combined operand, or
lane by lane for exch and cas; `atom` leaves each lane's value outstanding, with its codes under CCW 1. Where the spec
leaves a point open, this takes the model's choice (log entries 34 and 127). -/
def Obligations.Atomics : Prop :=
  ∀ (s u v : State) (i : Instr) (op : AtomOp) (returns : Bool) (t o : BitVec 7) (b : BitVec 4) (r : BitVec 2) (xs : List LaneOld),
    atomShape i = some (op, returns, t, o, b, r) → Quiet s → atomTypes op s.ty → (returns = false → r ≠ 1) →
    o.toNat < s.cur.info.nregs → t.toNat + operandRegs s op ≤ s.cur.info.nregs →
    (s.wideTy = true → t.toNat % operandRegs s op = 0) → s.frag.done = 0 →
    let n := accessSize s
    let c : AtomCtx := ⟨op, s.ty, s.operands.ovt, modeFtz s.mode, 8 * n⟩
    let loc := decide (isLocal (s.uread 1 b.toNat))
    let a := fun l => let x := eaOf s o (b.setWidth 6) 0 l; if loc then (x.setWidth 32).setWidth 64 else x
    let val := fun l => (s.laneVal t.toNat l s.wideTy, if op = .cas then s.laneVal (t.toNat + perValue s) l s.wideTy else 0)
    (if loc then u = s else Translates n a (lanes s.active) s u) →
    EveryAddress c val (siteOf loc op n returns) (addresses (lanes s.active) a) u v xs →
    ∃ x, exec i s = .next x ∧ InSequence v v.cur x.cur ∧ x.mem = v.mem ∧ x.blocks = v.blocks ∧ x.hostMem = v.hostMem ∧
      x.cur.vregs = v.cur.vregs ∧ x.cur.sregs = v.cur.sregs ∧
      x.cur.pend = v.cur.pend ++ if returns then outstanding v (xs.flatMap fun e =>
        (laneWrites t.toNat e.lane s.wideTy e.old ++
          if s.ccw then [ResWrite.codes e.lane (atomCodes c e.old (val e.lane).1)] else []).map
          fun w => LaneRes.mk e.lane e.ver w) else []

/-- R119, R350: the arithmetic of the integer atomics, and that combining the lanes of an address first gives the
value that performing them one at a time gives. R83, R113, R115, R120: one read-modify-write, at a plain window word
or a line of memory that no version chain holds: it finds the bytes there, writes the new value's bytes if there is
one, and leaves every other byte; a software-coherent copy of the core's own is written back and given up first. Where the spec leaves a point open, this takes the model's choice (log entries 41
and 42). -/
def Obligations.AtomicArithmetic : Prop :=
  (∀ (c : AtomCtx) (old : Nat) (vs : List Nat), atomTypes c.op c.ty → (c.op ≠ .faddp → c.w = typeBits c.ty) → old < 2 ^ c.w → (∀ v ∈ vs, v < 2 ^ c.w) →
    (∀ v, v < 2 ^ c.w →
      (c.op = .add → c.combine old v = (old + v) % 2 ^ c.w) ∧
      (c.op = .and → c.combine old v = old &&& v) ∧ (c.op = .or → c.combine old v = old ||| v) ∧
      (c.op = .xor → c.combine old v = old ^^^ v) ∧
      (c.op = .min → c.combine old v ∈ [old, v] ∧
        let x := fun y => if c.ty ≤ 3 then signedVal c.w y else (y : Int)
        x (c.combine old v) ≤ x old ∧ x (c.combine old v) ≤ x v) ∧
      (c.op = .max → c.combine old v ∈ [old, v] ∧
        let x := fun y => if c.ty ≤ 3 then signedVal c.w y else (y : Int)
        x old ≤ x (c.combine old v) ∧ x v ≤ x (c.combine old v))) ∧
    (c.op ≠ .exch → c.op ≠ .cas → c.op ≠ .fadd → c.op ≠ .faddp →
      c.combine old (vs.foldl c.combine c.identity) = vs.foldl c.combine old)) ∧
  ∀ (s : State) (n off : Nat) (f : Nat → Option Nat), (n = 4 ∨ n = 8) →
    (∀ (a : W32) (b : Block), a.toNat = off → off < 2 ^ 20 → off % n = 0 → off + n ≤ s.cur.info.localKib * 1024 →
      PlainWindow s s.cur.info.key.blk off b → b.poisonedAt off n = false →
      let old := valueOf (fun i => mget 0 b.win (off + i)) n
      ∃ u c, localRmw n a s f = .ok old false u ∧ OnlyWindow s u s.cur.info.key.blk c ∧ c.tags = b.tags ∧
        (∀ i < n, mget 0 c.win (off + i) = match f old with
          | some v => byteOf v i
          | none => mget 0 b.win (off + i)) ∧
        ∀ j, (j < off ∨ off + n ≤ j) → mget 0 c.win j = mget 0 b.win j) ∧
    (∀ (t : Translation) (ppa ix : Nat) (gva : W64) (returns : Bool), s.versioned t ppa = false → InLine ppa n →
      ModeFree s ppa true → CleanCopies s ppa → s.anyPoison s.pid ppa n = false →
      let old := valueOf (fun i => s.byteAt s.pid t.key (ppa + i)) n
      ∃ u, s.rmwMem t ppa n ix gva returns f = .ok old false u ∧ OnlyCounters s u ∧
        (∀ i < n, u.byteAt s.pid t.key (ppa + i) = match f old with
          | some v => byteOf v i
          | none => s.byteAt s.pid t.key (ppa + i)) ∧
        (∀ j, j / 64 = ppa / 64 → (j < ppa ∨ ppa + n ≤ j) → u.byteAt s.pid t.key j = s.byteAt s.pid t.key j) ∧
        ∀ a, a / 64 ≠ pa s.pid ppa / 64 → u.rawByte a = s.rawByte a) ∧
    ∀ (t : Translation) (ppa ix : Nat) (gva : W64) (returns : Bool), s.versioned t ppa = false → InLine ppa n → t.coh = 1 →
      CleanCopies s ppa → s.anyPoison s.pid ppa n = false → (s.part s.pid).lost (64 * (ppa / 64)) = false →
      ∀ data dirty full, (s.core s.coreKey).l1At s.pid (ppa / 64) = some (.sc s.pid (ppa / 64) data dirty t.key full) →
      (dirty ≠ 0 → s.memHold s.pid (64 * (ppa / 64)) 0 true = .none) →
      let old := valueOf (fun i => if dirty.getLsbD (ppa % 64 + i) then data.getD (ppa % 64 + i) 0 else s.byteAt s.pid t.key (ppa + i)) n
      ∃ u, s.rmwMem t ppa n ix gva returns f = .ok old false u ∧ (u.core s.coreKey).l1At s.pid (ppa / 64) = none ∧
        ∀ i < n, u.byteAt s.pid t.key (ppa + i) = match f old with
          | some v => byteOf v i
          | none => if dirty.getLsbD (ppa % 64 + i) then data.getD (ppa % 64 + i) 0 else s.byteAt s.pid t.key (ppa + i)

/-- R176, R352, R355: `fence` only advances; `prf` writes no register, code or flag; the maintenance functions over no
bytes only advance, and a length above 2³⁰ is refused. R353, R85: `smap` fills a map entry and discards what the range
held; `sinv`, `swb` and `sunmap` act on the lines of an entry; a free entry is refused. Where the spec leaves a point
open, this takes the model's choice (log entries 36 and 41). -/
def Obligations.CachesAndStash : Prop :=
  (∀ s : State, Quiet s →
    (∀ k : BitVec 12, ∃ t, exec (.fence k) s = .next t ∧ OnlyFocus s t ∧ OnlyFlow s t ∧ InSequence s s.cur t.cur) ∧
    (∀ (o : BitVec 7) (b : BitVec 6) (n : BitVec 2), o.toNat < s.cur.info.nregs →
      ∃ t, exec (.prf o b n) s = .next t ∧ t.cur.vregs = s.cur.vregs ∧ t.cur.sregs = s.cur.sregs ∧ t.cur.cc = s.cur.cc ∧
        t.cur.flags = s.cur.flags ∧ t.cur.pend = s.cur.pend ∧ t.blocks = s.blocks) ∧
    (∀ (i : Instr) (a b : BitVec 6), (i = .cwb a b ∨ i = .cinv a b ∨ i = .cwbinv a b) →
      (s.uread 1 b.toNat = 0 → ∃ t, exec i s = .next t ∧ OnlyFocus s t ∧ OnlyFlow s t ∧ InSequence s s.cur t.cur) ∧
      (2 ^ 30 < (s.uread 1 b.toNat).toNat → Raises i s { cause := Cause.illegalOperand })) ∧
    (∀ (a b : BitVec 6) (t : Translation) (ppa : Nat), (s.uread 0 a.toNat).toNat % 4096 = 0 → (s.uread 1 b.toNat).toNat = 64 →
      s.translate s.coreKey (s.ask Kind.load) (s.uread 0 a.toNat) = .ok t ppa s → ppa % 64 = 0 →
      ∀ data dirty key full, (s.core s.coreKey).l1At s.pid (ppa / 64) = some (.sc s.pid (ppa / 64) data dirty key full) →
        (s.part s.pid).lost (64 * (ppa / 64)) = false → s.chain s.pid (64 * (ppa / 64)) = .none →
        (dirty ≠ 0 → s.memHold s.pid (64 * (ppa / 64)) 0 true = .none) →
        (∃ u, exec (.cinv a b) s = .next u ∧ u.mem = s.mem ∧ (u.core s.coreKey).l1At s.pid (ppa / 64) = none) ∧
        (∀ i, (i = .cwb a b ∨ i = .cwbinv a b) → ∃ u, exec i s = .next u ∧
          (∀ j < 64, u.byteAt s.pid key (64 * (ppa / 64) + j) =
            if dirty.getLsbD j then data.getD j 0 else s.byteAt s.pid key (64 * (ppa / 64) + j)) ∧
          (u.core s.coreKey).l1At s.pid (ppa / 64) =
            if i = .cwb a b then some (.sc s.pid (ppa / 64) data 0 key full) else none))) ∧
  ∀ (s : State) (b : Block), Quiet s → s.block? s.cur.info.key.blk = some b → b.key = s.cur.info.key.blk →
    (∀ (d x y : BitVec 6) (lo len n : Nat) (base : W64), lo < 2 ^ 20 → len < 2 ^ 20 → n < 8 →
      (s.uread 0 d.toNat).toNat = lo → s.uread 1 x.toNat = base → ∀ rw : Bool,
      (s.uread 2 y.toNat).toNat = len + n * 2 ^ 32 + (if rw then 2 ^ 40 else 0) →
      lo % 64 = 0 → base.toNat % 64 = 0 → len % 64 = 0 → 0 < len → lo + len ≤ b.localKib * 1024 → oget b.smap n = none →
      (∀ e ∈ b.smap, e.2.lbase + e.2.len ≤ lo ∨ lo + len ≤ e.2.lbase) → b.harv = false → NoneHeldIn b lo len →
      (if b.subscribed lo len = true then Raises (.smap d x y) s { cause := Cause.subscription, detail := 5 }
       else ∃ t c, exec (.smap d x y) s = .next t ∧ InSequence s s.cur t.cur ∧ OnlyFlow s t ∧ t.mem = s.mem ∧
        t.block? b.key = some c ∧ oget c.smap n = some ⟨lo, base, len, rw⟩ ∧ (∀ m, m ≠ n → oget c.smap m = oget b.smap m) ∧
        (∀ a, mget 0 c.win a = if lo ≤ a ∧ a < lo + len then 0 else mget 0 b.win a) ∧
        ∀ l, oget c.stash l = if lo ≤ 64 * l ∧ 64 * l < lo + len then none else oget b.stash l)) ∧
    (∀ (y : BitVec 6) (n : Nat), n < 8 → (s.uread 2 y.toNat).toNat = n →
      (oget b.smap n = none → ∀ i, (i = .sunmap y ∨ i = .swb y ∨ i = .sinv y) → Raises i s { cause := Cause.illegalOperand }) ∧
      (∀ e, oget b.smap n = some e →
        (NoneHeldIn b e.lbase e.len → ∃ t c, exec (.sinv y) s = .next t ∧ InSequence s s.cur t.cur ∧ t.mem = s.mem ∧ t.block? b.key = some c ∧
          c.smap = b.smap ∧ ∀ l, (e.lbase ≤ 64 * l ∧ 64 * l < e.lbase + e.len) → oget c.stash l = none) ∧
        ((∀ l x, oget b.stash l = some x → x.dirty = 0) →
          (∃ t, exec (.swb y) s = .next t ∧ OnlyFocus s t ∧ OnlyFlow s t ∧ InSequence s s.cur t.cur) ∧
          (NoneHeldIn b e.lbase e.len → ∃ t c, exec (.sunmap y) s = .next t ∧ InSequence s s.cur t.cur ∧ t.mem = s.mem ∧ t.block? b.key = some c ∧
            oget c.smap n = none ∧ ∀ a, e.lbase ≤ a → a < e.lbase + e.len → mget 0 c.win a = 0))))

/-! ### Transactions and coordination -/

/-- R359 to R361, R139, R140, R143: `snapopen` and `txbegin` read the version clock and take a reference to it,
`snapclose` drops one; `txcommit` closes the transaction, and of one that wrote marks its lines with the next
timestamp, once D of their pages is set again (R56); `txabort`, `txstat` and `vts`. Where the spec leaves a point open, this takes the model's choice (log
entries 48 and 49). -/
def Obligations.Transactions : Prop :=
  ∀ (s : State) (p : Partition), Quiet s → s.part? s.pid = some p →
    (∀ d : BitVec 6, d.toNat % 2 = 0 → s.cur.snap = none → SeqReady p →
      ∃ t, exec (.snapopen d) s = .next t ∧ InSequence s s.cur t.cur ∧
        (TableFull p p.vclock → OnlyFocus s t ∧ t.cur.snap = none ∧ Leaves s t [.uni d.toNat 1, .uni (d.toNat + 1) 0]) ∧
        (¬ TableFull p p.vclock → t.cur.snap = some p.vclock ∧ OneMore p (t.part s.pid) p.vclock ∧
          Leaves s t [.uni d.toNat 0, .uni (d.toNat + 1) (BitVec.ofNat 64 p.vclock)])) ∧
    (∀ d : BitVec 6, d.toNat % 2 = 1 ∨ s.cur.snap.isSome = true → Raises (.snapopen d) s { cause := Cause.illegalOperand }) ∧
    (s.cur.snap = none → ∃ t, exec .snapclose s = .next t ∧ OnlyFocus s t ∧ OnlyFlow s t ∧ InSequence s s.cur t.cur) ∧
    (∀ ts n pre post, s.cur.snap = some ts → p.snaps = pre ++ (ts, n) :: post → (∀ e ∈ pre ++ post, e.1 ≠ ts ∧ e.2 ≠ 0) →
      ∃ t, exec .snapclose s = .next t ∧ InSequence s s.cur t.cur ∧ t.cur.snap = none ∧ t.mem = s.mem ∧
        (t.part s.pid).snaps = pre ++ (if n ≤ 1 then [] else [(ts, n - 1)]) ++ post) ∧
    (∀ d : BitVec 6, ∃ t, exec (.vts d) s = .next t ∧ UniOnly s t d false ∧
      (d ≠ 0 → t.cur.sget d.toNat = BitVec.ofNat 64 p.vclock)) ∧
    (∀ i : BitVec 12,
      let goal := s.issue.pc + 4 * i.signExtend 64
      (s.other.st ≠ .free → Raises (.txbegin i) s { cause := Cause.illegalOperand }) ∧
      (s.other.st = .free → s.cur.tx.opened = true → ∃ t, exec (.txbegin i) s = .next t ∧ Aborted s t 7 0) ∧
      (s.other.st = .free → s.cur.tx.opened = false → SeqReady p → ∃ t, exec (.txbegin i) s = .next t ∧ t.mem = s.mem ∧
        t.cur.vregs = s.cur.vregs ∧ t.cur.sregs = s.cur.sregs ∧
        (TableFull p p.vclock → Went s t goal s.frag.depth ∧ t.cur.tx = { s.cur.tx with opened := false, status := 2 }) ∧
        (¬ TableFull p p.vclock → InSequence s s.cur t.cur ∧ OneMore p (t.part s.pid) p.vclock ∧ t.cur.tx.opened = true ∧
          t.cur.tx.rts = BitVec.ofNat 64 p.vclock ∧ t.cur.tx.lines = 0 ∧ t.cur.tx.mask = s.frag.mask ∧
          t.cur.tx.height = s.cur.stack.length ∧ t.cur.tx.target = goal ∧
          t.cur.tx.id = p.nextTx ∧ (t.part s.pid).nextTx = p.nextTx + 1))) ∧
    (∀ d : BitVec 6,
      (s.cur.tx.opened = false ∨ s.other.st ≠ .free → Raises (.txcommit d) s { cause := Cause.illegalOperand }) ∧
      (s.cur.tx.opened = true → s.other.st = .free →
        ((∀ e ∈ p.chains, ∀ u, e.2.unc = some u → u.tx ≠ s.cur.tx.id) →
          ∃ t, exec (.txcommit d) s = .next t ∧ InSequence s s.cur t.cur ∧ t.cur.tx.opened = false ∧ t.cur.tx.status = 0 ∧
            t.cur.tx.lines = s.cur.tx.lines ∧ t.mem = s.mem ∧ t.cur.pend = s.cur.pend ∧ t.cur.vregs = s.cur.vregs ∧
            (∀ n, n ≠ d.toNat → t.cur.sget n = s.cur.sget n) ∧
            (d ≠ 0 → t.cur.sget d.toNat = BitVec.ofNat 64 p.vclock)) ∧
        ((∃ e ∈ p.chains, ∃ u, e.2.unc = some u ∧ u.tx = s.cur.tx.id ∧ s.redirty e.1 = none) →
          ∃ t, exec (.txcommit d) s = .next t ∧ OnlyFocus s t ∧ WaitsFor s t .walk .waitMem ∧ t.cur.tx = s.cur.tx) ∧
        ((∃ e ∈ p.chains, ∃ u, e.2.unc = some u ∧ u.tx = s.cur.tx.id) →
          (∀ e ∈ p.chains, ∀ u, e.2.unc = some u → u.tx = s.cur.tx.id → s.redirty e.1 ≠ none) → SeqReady p → p.issued < 2 ^ 64 - 1 →
          ∃ t, exec (.txcommit d) s = .next t ∧ WaitsFor s t (.commit (p.issued + 1) d.toNat s.cur.tx.rts.toNat) .waitMem ∧
            t.cur.tx.opened = false ∧ t.cur.tx.status = 0 ∧ t.cur.tx.lines = s.cur.tx.lines ∧
            (t.part s.pid).issued = p.issued + 1 ∧ (t.part s.pid).snaps = p.snaps ∧
            ∀ line u, (mget Chain.none p.chains line).unc = some u → u.tx = s.cur.tx.id →
              let c := mget Chain.none (t.part s.pid).chains line
              c.ts = p.issued + 1 ∧ c.unc = none ∧
                c.older.map (·.ts) = (mget Chain.none p.chains line).ts :: (mget Chain.none p.chains line).older.map (·.ts)))) ∧
    (s.cur.tx.opened = true → ∃ t, exec .txabort s = .next t ∧ Aborted s t 3 0) ∧
    (s.cur.tx.opened = false → ∃ t, exec .txabort s = .next t ∧ OnlyFocus s t ∧ OnlyFlow s t ∧ InSequence s s.cur t.cur) ∧
    (∀ d : BitVec 6, ∃ t w, exec (.txstat d) s = .next t ∧ OnlyFocus s t ∧ InSequence s s.cur t.cur ∧ Leaves s t [.uni d.toNat w] ∧
      let x := s.cur.tx
      w = BitVec.ofNat 64 (x.opened.toNat + 2 * x.status.toNat + 2 ^ 8 * x.cause.toNat + 2 ^ 16 * x.lines.toNat +
        2 ^ 32 * if x.opened then x.rts.toNat % 2 ^ 32 else 0))

/-- R94, R95, R103, R102, R110, R362, R363: a `subscribe` that passes the checks allocates an entry on both sides or
answers with its status; `unsub` frees both; `subflush` waits for the batches sent; `substat` reads the entry. Where
the spec leaves a point open, this takes the model's choice (log entries 44, 53 and 150). -/
def Obligations.Subscriptions : Prop :=
  ∀ (s : State), Quiet s →
    let me := s.cur.info.key.blk
    (∀ (d a : BitVec 6) (bs : List Byte) (u : State), s.cur.info.harv = false → Delivers s 16 (s.uread 0 a.toNat) bs u →
      let x := valOfBytes 128 bs
      let soff := (x.extractLsb' 0 20).toNat
      let len := (x.extractLsb' 48 20).toNat
      let pk := u.cur.info.publisher x
      (u.subCheck x ≠ 0 → exec (.subscribe d a) s =
        .next (u.raise { cause := Cause.subscription, detail := BitVec.ofNat 64 (u.subCheck x) })) ∧
      (u.subCheck x = 0 → ∀ b p, u.block? u.cur.info.key.blk = some b → u.block? pk = some p →
        let pubFull := 16 ≤ p.outb.length ∨ (p.placed = true ∧ 16 ≤ u.coreEntries p.slice p.core true)
        let subFull := 16 ≤ b.inb.length ∨ 16 ≤ u.coreEntries b.slice b.core false
        let laps := ∃ e ∈ b.inb, e.2.soff < soff + len ∧ soff < e.2.soff + e.2.len
        (p.exited = true ∨ pubFull ∨ subFull ∨ laps →
          ∃ t, exec (.subscribe d a) s = .next t ∧ InSequence u u.cur t.cur ∧ OnlyFocus u t ∧
            ((p.exited = true → Leaves u t [.uni d.toNat 1]) ∧
             (p.exited = false → pubFull → Leaves u t [.uni d.toNat 2]) ∧
             (p.exited = false → ¬ pubFull → subFull → Leaves u t [.uni d.toNat 3]) ∧
             (p.exited = false → ¬ pubFull → ¬ subFull → Leaves u t [.uni d.toNat 4]))) ∧
        (p.exited = false → ¬ pubFull → ¬ subFull → ¬ laps → u.subHold x = .none →
          ∃ t h o c q e f, exec (.subscribe d a) s = .next t ∧ InSequence u u.cur t.cur ∧ (p.image = none → t.mem = u.mem) ∧
            h < 16 ∧ o < 16 ∧
            oget b.inb h = none ∧ oget p.outb o = none ∧
            (∀ k < h, oget b.inb k ≠ none) ∧ (∀ k < o, oget p.outb k ≠ none) ∧ Leaves u t [.uni d.toNat (BitVec.ofNat 64 (256 * h))] ∧
            t.block? b.key = some c ∧ t.block? p.key = some q ∧ oget c.inb h = some e ∧ oget q.outb o = some f ∧
            e.peer = p.key ∧ e.peerHandle = o ∧ f.peer = b.key ∧ f.peerHandle = h ∧
            [e.soff, e.poff, e.len] = [soff, (x.extractLsb' 24 20).toNat, len] ∧
            [f.soff, f.poff, f.len] = [soff, (x.extractLsb' 24 20).toNat, len] ∧
            e.st = .active ∧ f.st = .active ∧ c.win = b.win ∧ q.win = p.win)) ∧
    (∀ (b : BitVec 6) (k : Block), s.block? me = some k → s.frag.done = 0 →
      let h := (s.uread 0 b.toNat).toNat
      (oget k.inb h = none → Raises (.unsub b) s { cause := Cause.subscription, detail := 1 }) ∧
      (∀ e p o, h ≤ 15 → oget k.inb h = some e → e.closing = false → e.held = false → s.block? e.peer = some p → e.peer ≠ me →
        oget p.outb e.peerHandle = some o → o.opened = none → o.unsent = [] → p.image = none → p.waitQ = [] → s.other.hold ≠ .batch →
        ∃ t q, exec (.unsub b) s = .next t ∧ t.mem = s.mem ∧ t.block? e.peer = some q ∧ oget q.outb e.peerHandle = none ∧ q.win = p.win ∧
          (e.recv = [] → InSequence s s.cur t.cur ∧ ∃ c, t.block? me = some c ∧ oget c.inb h = none ∧ c.win = k.win) ∧
          (e.recv ≠ [] → WaitsFor s t (.unsub me h) .waitMem ∧
            ∃ c i, t.block? me = some c ∧ oget c.inb h = some i ∧ i.recv = e.recv ∧ i.closing = true))) ∧
    (let u := s.closeAll me
     let waits := ∃ b h e, u.block? me = some b ∧ (h, e) ∈ b.outb ∧ oget b.outb h = some e ∧ e.appliedN < e.closed ∧ e.st ≠ .orphaned
     (waits → ∃ t gs, exec .subflush s = .next t ∧ WaitsFor u t (.flush gs) .waitTag ∧ OnlyFocus u t) ∧
     ((∀ b, u.block? me = some b → ∀ e ∈ b.outb, oget b.outb e.1 = some e.2 ∧ (e.2.closed ≤ e.2.appliedN ∨ e.2.st = .orphaned)) →
       ∃ t, exec .subflush s = .next t ∧ InSequence u u.cur t.cur ∧ OnlyFocus u t ∧ OnlyFlow u t)) ∧
    (∀ (d h : BitVec 6) (k : Block), s.block? me = some k →
      (∃ t w, exec (.substatIn d h) s = .next t ∧ OnlyFocus s t ∧ InSequence s s.cur t.cur ∧ Leaves s t [.uni d.toNat w] ∧
        (oget k.inb h.toNat = none → w = 0) ∧
        ∀ e, oget k.inb h.toNat = some e → w = BitVec.ofNat 64 (e.st.code + 2 ^ 4 * e.overwrite.toNat + 2 ^ 6 * e.held.toNat +
          2 ^ 8 * (e.recv.length + e.pending.length) + 2 ^ 16 * e.dropped.toNat + 2 ^ 32 * e.applied.toNat)) ∧
      (∃ t w, exec (.substatOut d h) s = .next t ∧ OnlyFocus s t ∧ InSequence s s.cur t.cur ∧ Leaves s t [.uni d.toNat w] ∧
        (oget k.outb h.toNat = none → w = 0) ∧
        ∀ e p i, oget k.outb h.toNat = some e → s.block? e.peer = some p → oget p.inb e.peerHandle = some i →
          w = BitVec.ofNat 64 (e.st.code + 2 ^ 4 * e.overwrite.toNat + 2 ^ 5 + 2 ^ 6 * i.held.toNat +
            2 ^ 8 * ((if e.st = .memory ∨ (e.st = .switching ∧ e.marked = false) then e.recv else i.recv).length +
              i.pending.length) + 2 ^ 16 * e.dropped.toNat + 2 ^ 32 * e.applied.toNat))))

/-- R211, R364: a group arrives at a barrier when all its lanes that are left are at it, and a phase whose last group arrives
releases every group. R349: a `gbar` that has raised TAG_TIMEOUT in its complete phase issues again to wait for the updates
that were left, and arrives no second time. -/
def Obligations.Barriers : Prop :=
  ∀ (s : State),
    let slot := s.issue.slot
    let blk := s.cur.info.key.blk
    let gang := fun g : Group => g.info.key.blk.part = blk.part ∧ g.info.key.blk.grid = blk.grid ∧ g.info.gang = s.cur.info.gang
    (∀ (i : Instr) (h : Hold), (i = .bar ∧ h = .none) ∨ (i = .gbar ∧ h = .gbar ∧ s.cur.gbarLeft = none) → s.frag.mask ≠ s.cur.live →
      ∃ t, exec i s = .next t ∧ OnlyFocus s t ∧ t.cur = s.cur.setFrag slot { s.frag with st := .waitBar, hold := h }) ∧
    (s.frag.mask = s.cur.live → Counted s.cur →
      ((∃ g ∈ s.groups, g.info.key.blk = blk ∧ Counted g ∧ g.barArrived = false) →
        ∃ t, exec .bar s = .next t ∧ OnlyFocus s t ∧ t.cur.barArrived = true ∧ WaitsFor s t .none .waitBar ∧ t.cur.vregs = s.cur.vregs) ∧
      ((∀ g ∈ s.groups, g.info.key.blk = blk → Counted g → g.barArrived = true) →
        ∃ t, exec .bar s = .next t ∧ t.mem = s.mem ∧ t.blocks = s.blocks ∧ (t.cur.frag slot).st = .ready ∧ t.cur.barArrived = false ∧
          (s.cur.loopActive = false → s.frag.redo = none → s.other.st ≠ .waitBar → (t.cur.frag slot).pc = s.frag.pc + 4) ∧
          ∀ g ∈ s.groups, g.info.key.blk = blk → g.barArrived = true → ∃ h ∈ t.groups, Released .none g h ∧ h.barArrived = false)) ∧
    (s.frag.mask = s.cur.live → Counted s.cur → (∀ b ∈ s.blocks, b.outb = []) → s.cur.departing = false →
      ((∃ g ∈ s.groups, gang g ∧ Counted g ∧ (g.gbarArrived = false ∨ g.departing = true)) →
        ∃ t, exec .gbar s = .next t ∧ OnlyFocus s t ∧ t.cur.gbarArrived = true ∧ WaitsFor s t .gbar .waitBar) ∧
      ((∀ g ∈ s.groups, gang g → Counted g → g.gbarArrived = true ∧ g.departing = false) →
        ∃ t, exec .gbar s = .next t ∧ t.mem = s.mem ∧ t.blocks = s.blocks ∧ (t.cur.frag slot).st = .ready ∧ t.cur.gbarArrived = false ∧
          ∀ g ∈ s.groups, gang g → g.gbarArrived = true → ∃ h ∈ t.groups, Released .gbar g h ∧ h.gbarArrived = false)) ∧
    (∀ gs, s.cur.gbarLeft = some gs → ∃ t, exec .gbar s = .next t ∧ OnlyFocus s t ∧ WaitsFor s t (.depart gs) .waitBar ∧
      t.cur = { s.cur with f0 := t.cur.f0, f1 := t.cur.f1, gbarLeft := none }) ∧
    (s.frag.mask = s.cur.live → ∃ t, exec .gbar s = .next t ∧ t.mem = s.mem ∧
      ((t.cur.frag slot).st = .ready ∨ (t.cur.frag slot).st = .waitBar))

/-- R365, R120, R82: `arrive` adds at the counter, and with the local form sets its tag; `cntwait` ends when the counter has
reached the target, in the local form with a full tag, and waits in WAIT_TAG until then. -/
def Obligations.Counters : Prop :=
  ∀ (s : State) (a b : BitVec 6), Quiet s →
    let x := s.uread 0 a.toNat
    let n := (s.uread 1 b.toNat).setWidth 32
    let off := x.toNat % 2 ^ 32
    (x.toNat % 4 ≠ 0 → ∀ i, (i = .arrive a b ∨ i = .cntwait a b) → Raises i s { cause := Cause.misaligned, addr := x }) ∧
    (x.toNat % 4 = 0 → isLocal x → off < 2 ^ 20 → off + 4 ≤ s.cur.info.localKib * 1024 →
      ∀ k, PlainWindow s s.cur.info.key.blk off k → k.poisonedAt off 4 = false →
        let word := valueOf (fun i => mget 0 k.win (off + i)) 4
        (k.waitQ = [] → ∃ t c, exec (.arrive a b) s = .next t ∧ InSequence s s.cur t.cur ∧ t.mem = s.mem ∧
          t.block? s.cur.info.key.blk = some c ∧ valueOf (fun i => mget 0 c.win (off + i)) 4 = (word + n.toNat) % 2 ^ 32 ∧
          (∀ j, (j < off ∨ off + 4 ≤ j) → mget 0 c.win j = mget 0 k.win j) ∧
          ∀ w, mget false c.tags w = if w = off / 4 then true else mget false k.tags w) ∧
        (let met := mget false k.tags (off / 4) = true ∧ (BitVec.ofNat 32 word - n).toNat < 2 ^ 31
         (met → ∃ t, exec (.cntwait a b) s = .next t ∧ OnlyFocus s t ∧ InSequence s s.cur t.cur ∧ (t.cur.frag s.issue.slot).st = .ready ∧
           t.cur.vregs = s.cur.vregs ∧ t.cur.sregs = s.cur.sregs ∧ t.cur.pend = s.cur.pend) ∧
         (¬ met → ∃ t, exec (.cntwait a b) s = .next t ∧ OnlyFocus s t ∧ WaitsFor s t (.counter x n) .waitTag))) ∧
    (x.toNat % 4 = 0 → ¬ isLocal x →
      (∀ tr ppa u, s.reach Kind.atomic 4 x = .mem tr ppa u →
        (tr.ver = true → exec (.arrive a b) s = .next (u.raise { cause := Cause.illegalOperand, addr := x })) ∧
        ∀ old ver v, tr.ver = false → u.rmwMem tr ppa 4 (slotOf 0 0) x false (fun old => some ((old + n.toNat) % 2 ^ 32)) = .ok old ver v →
          ∃ t, exec (.arrive a b) s = .next t ∧ InSequence v v.cur t.cur ∧ t.mem = v.mem ∧ t.cur.vregs = v.cur.vregs ∧
            t.cur.sregs = v.cur.sregs ∧ t.cur.pend = v.cur.pend) ∧
      (∀ tr ppa u, s.reach Kind.load 4 x = .mem tr ppa u →
        (tr.ver = true → exec (.cntwait a b) s = .next (u.raise { cause := Cause.illegalOperand, addr := x })) ∧
        (tr.ver = false → CleanCopies u ppa → u.anyPoison u.pid ppa 4 = false →
          let word := valueOf (fun i => u.byteAt u.pid tr.key (ppa + i)) 4
          ∃ t, exec (.cntwait a b) s = .next t ∧ t.mem = u.mem ∧ t.blocks = u.blocks ∧ t.cur.vregs = u.cur.vregs ∧
            t.cur.sregs = u.cur.sregs ∧ t.cur.pend = u.cur.pend ∧
            ((BitVec.ofNat 32 word - n).toNat < 2 ^ 31 → InSequence u u.cur t.cur ∧ (t.cur.frag u.issue.slot).st = .ready) ∧
            (2 ^ 31 ≤ (BitVec.ofNat 32 word - n).toNat → WaitsFor u t (.counter x n) .waitTag))))

/-! ### Matrix instructions and observation -/

/-- R373 to R382: `tblld` and `bload` fill a slot for the issuing context, a mill load commits in one step, `brel`
frees a B slot, `tblrd` reads a table slot's entries. R167, R383 to R389: `mma` captures its operands and queues at
its macro; when it completes, each active row takes the rounded sums of its groups; `accz`, `accrd`, `accwr` and
`accsc` act on the active rows of a tile. Where the spec leaves a point open, this takes the model's choice (log
entries 52 and 144 to 147). -/
def Obligations.Matrix : Prop :=
  (∀ (s : State),
    (Quiet s → s.cur.info.harv = false →
      (∀ (c : BitVec 3) (i : Instr), s.tabling c.toNat = true → ((∃ a, i = .tblld c a) ∨ ∃ d : BitVec 7, i = .tblrd d c ∧ d.toNat < s.cur.info.nregs) →
        ∃ t, exec i s = .next t ∧ OnlyFocus s t ∧ WaitsFor s t .mill .waitMem) ∧
      (∀ (c : BitVec 3) (a : BitVec 6) (bs : List Byte) (u : State), s.tabling c.toNat = false → Delivers s 32 (s.uread 0 a.toNat) bs u →
        ∃ t x, exec (.tblld c a) s = .next t ∧ InSequence u u.cur t.cur ∧ t.mem = u.mem ∧ t.cur.pend = u.cur.pend ∧
          oget (t.core u.coreKey).tslots c.toNat = some x ∧ x.ctx = u.cur.info.ctx ∧ x.part = u.pid ∧ x.entries.length = 16 ∧
          (∀ i < 16, x.entries.getD i 0 = BitVec.ofNat 16 ((bs.getD (2 * i) 0).toNat + 256 * (bs.getD (2 * i + 1) 0).toNat)) ∧
          ∀ n, n ≠ c.toNat → oget (t.core u.coreKey).tslots n = oget (u.core u.coreKey).tslots n) ∧
      (∀ (d : BitVec 7) (c : BitVec 3), d.toNat < s.cur.info.nregs → s.tabling c.toNat = false →
        (s.tableSlot c.toNat = none → Raises (.tblrd d c) s { cause := Cause.illegalOperand }) ∧
        ∀ es, s.tableSlot c.toNat = some es →
          ∃ t, exec (.tblrd d c) s = .next t ∧ OnlyFocus s t ∧ InSequence s s.cur t.cur ∧ t.cur.vregs = s.cur.vregs ∧
            Leaves s t ((lanes s.active).map fun l => .vec d.toNat l (if l < 16 then (es.getD l 0).setWidth 32 else 0))) ∧
      (∀ (q : BitVec 3) (y : BitVec 4) (c : BitVec 3) (a b : BitVec 6),
        let base := s.uread 0 a.toNat
        let kt := 1536 / matWidth y.toNat
        let n := (s.uread 2 b.toNat).toNat
        let codes := fun (es : List (BitVec 16)) => es.map (exactCode y.toNat)
        let loaded := fun (v t : State) (tile : List Byte) (sc : NatMap Byte) => WaitsFor v t .mill .waitMem ∧ t.mem = v.mem ∧
          ∃ m, (t.core v.coreKey).mill = some m ∧ m.group = v.cur.info.key ∧ m.frag = v.issue.slot ∧ m.slot = q.toNat ∧
            m.content.btype = y.toNat ∧ m.content.ctx = s.cur.info.ctx ∧ m.content.part = s.pid ∧ m.content.scales = sc ∧
            m.content.poison = [] ∧ ∀ i, mget 0 m.content.tile i = tile.getD i 0
        ((s.core s.coreKey).mill.isSome = true ∨ s.slotInUse q.toNat = true →
          ∃ t, exec (.bload q y c a b) s = .next t ∧ OnlyFocus s t ∧ WaitsFor s t .mill .waitMem) ∧
        ((s.core s.coreKey).mill = none → s.slotInUse q.toNat = false → ∀ page ppa u, s.millPage base = .ok page ppa u →
          let fmt := page.fmt
          (fmt = 0x10 → u.tabling c.toNat = true →
            ∃ t, exec (.bload q y c a b) s = .next t ∧ OnlyFocus u t ∧ WaitsFor u t .mill .waitMem) ∧
          (fmt = 0x10 → u.tabling c.toNat = false → u.tableSlot c.toNat = none →
            exec (.bload q y c a b) s = .next (u.raise { cause := Cause.illegalOperand, addr := BitVec.ofNat 64 c.toNat })) ∧
          (∀ es sc v syms x, fmt = 0x10 → u.tabling c.toNat = false → u.tableSlot c.toNat = some es → (∀ i < 16, ((codes es).getD i none).isSome = true) →
            (∀ k, u.scaleRead (s.uread 1 (a.toNat + 1)) kt k = k sc v) →
            (∀ k, v.gristLoad base n (matWidth y.toNat) k = k syms x) →
            ∃ t, exec (.bload q y c a b) s = .next t ∧
              loaded x t (packTile (matWidth y.toNat) (syms.map fun z => ((codes es).getD z none).getD 0)) sc) ∧
          (fmt ≠ 0x10 → tileType fmt ≠ some y.toNat →
            exec (.bload q y c a b) s = .next (u.raise { cause := Cause.illegalOperand, addr := base })) ∧
          (∀ sc v bs x, tileType fmt = some y.toNat → base.toNat % 64 = 0 →
            (∀ k, u.scaleRead (s.uread 1 (a.toNat + 1)) kt k = k sc v) →
            v.millRead (fun f first _ => if f = fmt then none else some { cause := Cause.illegalOperand, addr := first })
              (base + BitVec.ofNat 64 (12288 * n)) 12288 = .ok bs x →
            ∃ t, exec (.bload q y c a b) s = .next t ∧ loaded x t bs sc))) ∧
      (∀ q : BitVec 3,
        let slot := oget (s.core s.coreKey).bslots q.toNat
        (s.slotInUse q.toNat = true → ∃ t, exec (.brel q) s = .next t ∧ OnlyFocus s t ∧ WaitsFor s t .mill .waitMem) ∧
        (s.slotInUse q.toNat = false →
          (slot = none → ∃ t, exec (.brel q) s = .next t ∧ OnlyFocus s t ∧ OnlyFlow s t ∧ InSequence s s.cur t.cur) ∧
          ∀ b, slot = some b →
            (b.ctx = s.cur.info.ctx → b.part = s.pid → ∃ t, exec (.brel q) s = .next t ∧ InSequence s s.cur t.cur ∧ t.mem = s.mem ∧
              oget (t.core s.coreKey).bslots q.toNat = none ∧
              ∀ n, n ≠ q.toNat → oget (t.core s.coreKey).bslots n = oget (s.core s.coreKey).bslots n) ∧
            (b.ctx ≠ s.cur.info.ctx ∨ b.part ≠ s.pid → Raises (.brel q) s { cause := Cause.illegalOperand })))) ∧
    (∀ m g, (s.core s.args.coreKey).mill = some m → s.group? m.group = some g →
      ∃ t h, exec .bloadCommit s = .next t ∧ t.mem = s.mem ∧ (t.core s.args.coreKey).mill = none ∧
        oget (t.core s.args.coreKey).bslots m.slot = some m.content ∧
        (∀ n, n ≠ m.slot → oget (t.core s.args.coreKey).bslots n = oget (s.core s.args.coreKey).bslots n) ∧
        t.group? m.group = some h ∧ h.vregs = g.vregs ∧ (m.waits g = true → (h.frag m.frag).st = .ready) ∧
        (m.waits g = false → h.f0 = g.f0 ∧ h.f1 = g.f1))) ∧
  ∀ (s : State),
    (Quiet s → s.cur.info.harv = false → ∀ (c : BitVec 2), c.toNat < s.cur.info.acc →
      (∀ (i : Instr) (q : BitVec 3) (y : BitVec 4) (a b : BitVec 6) (z : Bool),
        (i = .mma c q y a b ∧ z = false) ∨ (i = .mmaZ c q y a b ∧ z = true) →
        (s.loading q.toNat = true → ∃ t, exec i s = .next t ∧ OnlyFocus s t ∧ WaitsFor s t .mill .waitMem) ∧
        (s.loading q.toNat = false →
        (oget (s.core s.coreKey).bslots q.toNat = none → Raises i s { cause := Cause.illegalOperand }) ∧
        ∀ sl u blk, oget (s.core s.coreKey).bslots q.toNat = some sl →
          (sl.ctx ≠ s.cur.info.ctx ∨ sl.part ≠ s.pid ∨ matFloat y.toNat ≠ matFloat sl.btype →
            Raises i s { cause := Cause.illegalOperand }) ∧
          (let k := mmaK (matWidth y.toNat) (matWidth sl.btype)
           let la : W32 := (s.uread 0 a.toNat).setWidth 32
           let ls : W32 := (s.uread 1 b.toNat).setWidth 32
           let rs := (la, mmaBytes k (matWidth y.toNat), 128) :: if b ≠ 0 then [(ls, mmaScaleBytes k, 32)] else []
           sl.ctx = s.cur.info.ctx → sl.part = s.pid → matFloat y.toNat = matFloat sl.btype → s.mmaRanges rs = none →
           ((s.core s.coreKey).mmaQ.filter (·.slot = q.toNat)).length < 2 → s.touchRanges rs = .ok u →
           u.block? u.cur.info.key.blk = some blk →
           ∃ t j, exec i s = .next t ∧ InSequence u u.cur t.cur ∧ t.mem = u.mem ∧ t.cur.acc = u.cur.acc ∧ t.cur.pend = u.cur.pend ∧
             (t.core u.coreKey).mmaQ = (u.core u.coreKey).mmaQ ++ [j] ∧ j.group = u.cur.info.key ∧ j.tile = c.toNat ∧
             j.slot = q.toNat ∧ j.zero = z ∧ j.atype = y.toNat ∧ j.mask = u.active ∧ j.bslot = sl ∧
             (∀ n, n < mmaBytes k (matWidth y.toNat) → mget 0 j.a n = mget 0 blk.win ((la.extractLsb' 0 20).toNat + n)) ∧
             ∀ n, n < mmaScaleBytes k → mget 0x7F j.scales n =
               if b = 0 then 0x7F else mget 0 blk.win ((ls.extractLsb' 0 20).toNat + n)))) ∧
      (s.tileBusy c.toNat = false →
        (∃ t, exec (.accz c) s = .next t ∧ OnlyFocus s t ∧ InSequence s s.cur t.cur ∧ t.cur.vregs = s.cur.vregs ∧ t.cur.cc = s.cur.cc ∧
          (∀ n, mget 0 t.cur.acc n = if n / 2048 = c.toNat ∧ s.active.getLsbD (n / 64 % 32) = true then 0 else mget 0 s.cur.acc n) ∧
          mget 0 t.cur.accPoison c.toNat = mget 0 s.cur.accPoison c.toNat &&& ~~~s.active) ∧
        (∀ (v : BitVec 7) (b : BitVec 6) (n : BitVec 2),
          let col := (s.uread 0 b.toNat).toNat
          let count := 2 ^ n.toNat
          let ftz := modeFtz s.mode
          let rnd := if modeRnd s.mode = 5 then 0 else modeRnd s.mode
          let cell := fun l i => mget 0 s.cur.acc (accIx c.toNat l (col + i))
          (64 < col + count → ∀ i, (i = .accrd c v b n ∨ i = .accwr c v b n ∨ i = .accsc c v b n) → Raises i s { cause := Cause.illegalOperand }) ∧
          (col + count ≤ 64 → v.toNat + count ≤ s.cur.info.nregs →
            (∃ t, exec (.accwr c v b n) s = .next t ∧ OnlyFocus s t ∧ InSequence s s.cur t.cur ∧ t.cur.vregs = s.cur.vregs ∧
              (∀ l i, s.active.getLsbD l = true → i < count →
                mget 0 t.cur.acc (accIx c.toNat l (col + i)) = s.vread 0 (v.toNat + i) l) ∧
              ∀ x, (∀ l i, s.active.getLsbD l = true → i < count → x ≠ accIx c.toNat l (col + i)) → mget 0 t.cur.acc x = mget 0 s.cur.acc x) ∧
            (let good := s.active &&& ~~~s.frag.done &&& ~~~mget 0 s.cur.accPoison c.toNat
             let bad := s.active &&& mget 0 s.cur.accPoison c.toNat &&& ~~~s.frag.done
             let ctl : RoundCtl := ⟨rnd, 0, ovtEntry s.operands.ovt ((floatTy s.ty).getD tyF32), ftz⟩
             let ws := (lanes good).flatMap fun l => (List.range count).map fun i =>
               ResWrite.vec (v.toNat + i) l (BitVec.ofNat 32 (convert 0x0A s.ty s.sat ctl [] [] (cell l i).toNat).1.bits)
             (accTypes s.ty = false → Raises (.accrd c v b n) s { cause := Cause.illegalOperand }) ∧
             (accTypes s.ty = true → bad = 0 →
               ∃ t, exec (.accrd c v b n) s = .next t ∧ OnlyFocus s t ∧ InSequence s s.cur t.cur ∧ t.cur.vregs = s.cur.vregs ∧
                 t.cur.acc = s.cur.acc ∧ Leaves s t ws) ∧
             (accTypes s.ty = true → bad ≠ 0 → ∃ u, OnlyFocus s u ∧ Leaves s u ws ∧
               exec (.accrd c v b n) s = .next (u.raise { cause := Cause.poison, done := s.active &&& ~~~bad })))) ∧
          (col + count ≤ 64 → v.toNat < s.cur.info.nregs →
            ∃ t, exec (.accsc c v b n) s = .next t ∧ OnlyFocus s t ∧ InSequence s s.cur t.cur ∧ t.cur.vregs = s.cur.vregs ∧
              (∀ l i, s.active.getLsbD l = true → i < count →
                mget 0 t.cur.acc (accIx c.toNat l (col + i)) = BitVec.ofNat 32 (tyF32.round ⟨rnd, 0, 1, ftz⟩
                  ((tyF32.input ftz (cell l i).toNat).mul (tyF32.input ftz (s.vread 0 v.toNat l).toNat))).bits) ∧
              ∀ x, (∀ l i, s.active.getLsbD l = true → i < count → x ≠ accIx c.toNat l (col + i)) → mget 0 t.cur.acc x = mget 0 s.cur.acc x)))) ∧
    (∀ pre j post g, (s.core s.args.coreKey).mmaQ = pre ++ j :: post → j.slot = s.args.n →
      (∀ x ∈ pre, x.slot ≠ j.slot ∧ ¬ (x.group = j.group ∧ x.tile = j.tile)) → s.group? j.group = some g →
      ∃ t h, exec .mmaComplete s = .next t ∧ t.mem = s.mem ∧ (t.core s.args.coreKey).mmaQ = pre ++ post ∧
        t.group? j.group = some h ∧ h.vregs = g.vregs ∧
        (∀ l c, l < 32 → c < 64 → mget 0 h.acc (accIx j.tile l c) =
          if j.mask.getLsbD l then
            let k := mmaK (matWidth j.atype) (matWidth j.bslot.btype)
            let x := if j.zero then 0 else (mget 0 g.acc (accIx j.tile l c)).toNat
            BitVec.ofNat 32 (accRow k x (((j.row k l).zip (j.bslot.column k c)).map fun p => prodOf (matFloat j.atype) (p.1.mul p.2)))
          else mget 0 g.acc (accIx j.tile l c)) ∧
        ∀ n, n / 2048 ≠ j.tile → mget 0 h.acc n = mget 0 g.acc n)

/-- R428 to R431: `perfrd` reads a counter that the grid's allow-list lets it read, and otherwise 0 with V set; `enrd`
and `tsrd` read the energy and time counters; `sample` emits one MARK where the group is traced. Where the spec leaves
a point open, this takes the model's choice (log entry 54). -/
def Obligations.Observation : Prop :=
  ∀ (s : State), Quiet s →
    (∀ (d : BitVec 6) (i : BitVec 12),
      ∃ t ps, exec (.perfrd d i) s = .next t ∧ OnlyFocus s t ∧ InSequence s s.cur t.cur ∧ t.cur.sregs = s.cur.sregs ∧ t.cur.vregs = s.cur.vregs ∧
        t.cur.pend = ps ++ [⟨s.frag.mask, [.uni d.toNat (if s.counterAllowed i.toNat then s.counter i.toNat else 0)], 0, false, s.issue.pc⟩] ∧
        CodesAre t.cur.flags (Codes.c (s.flread 0)) (Codes.z (s.flread 0)) (Codes.n (s.flread 0)) (!s.counterAllowed i.toNat)) ∧
    (∀ (d : BitVec 6) (i : BitVec 12), ∃ t, exec (.enrd d i) s = .next t ∧ OnlyFocus s t ∧ OnlyFlow s (backUniform s t) ∧
      InSequence s s.cur t.cur ∧ Leaves s t [.uni d.toNat s.cur.energy]) ∧
    (∀ (d : BitVec 6) (i : BitVec 12), ∃ t, exec (.tsrd d i) s = .next t ∧ OnlyFocus s t ∧ OnlyFlow s (backUniform s t) ∧
      InSequence s s.cur t.cur ∧
      Leaves s t [.uni d.toNat (BitVec.ofNat 64 (if i = 0 then s.cycle - (s.slice s.cur.info.slice).openedAt else s.refns))]) ∧
    (∀ a : BitVec 6, ∃ t u, exec (.sample a) s = .next t ∧ OnlyFocus s u ∧ OnlyFlow s u ∧ InSequence s s.cur u.cur ∧
      t = u.emit u.cur s.issue.slot (.mark ((s.uread 0 a.toNat).setWidth 32)) ∧ t.cur = u.cur ∧ t.mem = s.mem ∧
      ((s.slice s.cur.info.slice).traces s.cur = false → t = u)) ∧
    (∀ i : Nat, s.counterAllowed i = true →
      (i < 6 ∨ (0x40 ≤ i ∧ i < 0x48) ∨ (0x80 ≤ i ∧ i < 0x86) ∨ (0xC0 ≤ i ∧ i < 0xC3)) ∧
      ((∀ g, (s.part s.pid).grids.find? (·.handle = s.cur.info.key.blk.grid) = some g → g.allow = none) → i < 0x40) ∧
      ∀ g x, (s.part s.pid).grids.find? (·.handle = s.cur.info.key.blk.grid) = some g → g.allow = some x → x.getLsbD i = true)

/-! ### Launches and device queues -/

/-- R366, R367, R371, R237: what `kick` and `launch` answer, store and queue. R365: a counter is read again for a
fragment that waits. R349: TAG_TIMEOUT withdraws the lanes that still wait. Where the spec leaves a point open, this
takes the model's choice (log entries 45, 46 and 90). -/
def Obligations.Launches : Prop :=
  ∀ (s : State),
    (Quiet s → ∀ (a : BitVec 6) (bs : List Byte) (u : State), Delivers s 64 (s.uread 0 a.toNat) bs u →
      let r := valOfBytes 512 bs
      let c := u.core u.coreKey
      let busy := c.engQ.length + if c.eng.isSome then 1 else 0
      (copyOk r = false →
        exec (.kick a) s = .next (u.raise { cause := Cause.illegalOperand, addr := s.uread 0 a.toNat })) ∧
      (copyOk r = true → 16 ≤ busy → ∃ t q, exec (.kick a) s = .next t ∧ OnlyFocus u t ∧ WaitsFor u t (.kick q) .waitMem ∧
        q.record = r ∧ q.group = u.cur.info.key ∧ q.ctx = u.cur.info.ctx) ∧
      (copyOk r = true → busy < 16 → ∃ t q, exec (.kick a) s = .next t ∧ InSequence u u.cur t.cur ∧ t.mem = u.mem ∧
        (t.core u.coreKey).engQ = c.engQ ++ [q] ∧ (t.core u.coreKey).eng = c.eng ∧ q.record = r ∧
        q.group = u.cur.info.key ∧ q.ctx = u.cur.info.ctx ∧ t.cur.vregs = u.cur.vregs ∧ t.cur.sregs = u.cur.sregs ∧
        t.cur.pend = u.cur.pend)) ∧
    (Quiet s → ∀ d a b : BitVec 6,
      (s.cur.info.harv = true → Raises (.launch d a b) s { cause := Cause.illegalInstruction }) ∧
      ∀ bs u x, s.cur.info.harv = false → Delivers s 64 (s.uread 1 b.toNat) bs u → u.part? u.pid = some x →
        let q := (s.uread 0 a.toNat).toNat
        let e := (x.queue q).entry
        let size := 2 ^ fld e 4 1
        let ring := e.extractLsb' 64 64
        (fld x.qtbase 57 48 < q ∨ (x.queue q).en = false ∨ fld e 23 12 ≠ s.cur.info.ctx →
          ∃ t, exec (.launch d a b) s = .next t ∧ OnlyFocus u t ∧ InSequence u u.cur t.cur ∧ Leaves u t [.uni d.toNat 1]) ∧
        (q ≤ fld x.qtbase 57 48 → (x.queue q).en = true → fld e 23 12 = s.cur.info.ctx → fld e 23 12 = u.cur.info.ctx →
          ∀ v, u.ringPages ring ((64 * size + 4095) / 4096) = .ok v →
          let i := v.readMem v.pid 0 (x.rsvAddr q) 8 64
          let slot := ring + BitVec.ofNat 64 (64 * (i.toNat % size))
          (size ≤ (i - (x.queue q).qrd).toNat →
            ∃ t, exec (.launch d a b) s = .next t ∧ OnlyFocus v t ∧ InSequence v v.cur t.cur ∧ Leaves v t [.uni d.toNat 2]) ∧
          ((i - (x.queue q).qrd).toNat < size → v.launchHold (x.rsvAddr q) slot ≠ .none →
            ∃ t, exec (.launch d a b) s = .next t ∧ WaitsFor v t (v.launchHold (x.rsvAddr q) slot) .waitMem) ∧
          ((i - (x.queue q).qrd).toNat < size → v.launchHold (x.rsvAddr q) slot = .none →
            ((v.part v.pid).launchRef q i.toNat v.cur.reader.rts = none →
              ∃ t, exec (.launch d a b) s = .next t ∧ OnlyFocus v t ∧ InSequence v v.cur t.cur ∧ Leaves v t [.uni d.toNat 3]) ∧
            ∀ y b0 k0 z w, (v.part v.pid).launchRef q i.toNat v.cur.reader.rts = some y →
              v.devWrite (v.ask Kind.store) slot (bytesOf 2 (BitVec.ofNat 16 (i.toNat / size)) ++ bs.drop 2) = .ok b0 k0 z →
              let z1 := (z.onPart z.pid fun p => (p.launchRef q i.toNat z.cur.reader.rts).getD p).deviceWrite z.pid (x.rsvAddr q)
                (bytesOf 8 (i + 1))
              z1.part? z1.pid = some w →
              ∃ t, exec (.launch d a b) s = .next t ∧ InSequence z1 z1.cur t.cur ∧ t.mem = z1.mem ∧
                QueueSet t z1.pid q w { w.queue q with
                  notify := if (w.queue q).notify.toNat < (i + 1).toNat then i + 1 else (w.queue q).notify } ∧
                Leaves z1 t [.uni d.toNat (BitVec.ofNat 64 (2 ^ 32 * (i.toNat % 2 ^ 32)))]))) ∧
    (∀ g x n k off, s.group? s.args.group = some g → (g.frag s.args.frag).hold = .counter x n →
      let u := s.resumeAt
      isLocal x → x.toNat % 4 = 0 → off = x.toNat % 2 ^ 32 → off < 2 ^ 20 → off + 4 ≤ g.info.localKib * 1024 →
      PlainWindow u g.info.key.blk off k → k.poisonedAt off 4 = false →
      let word := BitVec.ofNat 32 (valueOf (fun j => mget 0 k.win (off + j)) 4)
      let met := mget false k.tags (off / 4) = true ∧ (word - n).toNat < 2 ^ 31
      (met → ∃ t, exec .cntwaitRecheck s = .next t ∧ OnlyFocus u t ∧ InSequence u u.cur t.cur ∧ t.cur.info = g.info ∧
        (t.cur.frag s.args.frag).st = .ready) ∧
      (¬ met → ∃ t, exec .cntwaitRecheck s = .next t ∧ OnlyFocus u t ∧ WaitsFor u t (.counter x n) .waitTag)) ∧
    (∀ g a, s.group? s.args.group = some g → s.timeoutAddr g s.args.frag = some a →
      ∃ t, exec .tagTimeout s = .next t ∧ MemKept s t ∧ t.cur.info = g.info ∧ t.cur.vregs = g.vregs ∧ t.cur.sregs = g.sregs ∧
        (∀ b ∈ t.blocks, ∀ w ∈ b.waitQ, ∀ l r, w.who ≠ .lane g.info.key s.args.frag l r) ∧
        (g.tx.opened = true → t.cur.tx.opened = false ∧ t.cur.tx.status = 6 ∧ t.cur.tx.cause = Cause.tagTimeout) ∧
        (g.tx.opened = false → t.cur.state = (if g.state = .parked then .parked else .faulted) ∧
          let x := t.cur.trap s.args.frag
          x.tcause = Cause.tagTimeout ∧ x.taddr = a ∧ x.tpc = (g.frag s.args.frag).pc ∧
            x.tmask = (g.frag s.args.frag).done.setWidth 128 ∧ x.tbeat = (g.frag s.args.frag).beat))

/-- R221 to R225, R228 to R230: queue commands and NOTIFY; what the read of a slot comes to; the check of a
dependency; markers; completion of a grid. Where the spec leaves a point open, this takes the model's choice (log
entries 80 to 82). -/
def Obligations.DeviceQueues : Prop :=
  ∀ (s : State) (x : Partition), s.part? s.args.part = some x →
    let p := s.args.part
    let q := s.args.queue
    let k := x.queue q
    let table := fld x.qtbase 47 12 * 4096 + 64 * q
    let e : BitVec 512 := valOfBytes 512 (s.readRange p table 64)
    (∃ t, exec .notify s = .next t ∧ OnlyPart s t p ∧
      QueueSet t p q x { k with notify := if k.notify.toNat < s.args.w.toNat then s.args.w else k.notify }) ∧
    (∃ t, exec .qcmdErrClear s = .next t ∧ PartSet s t p { x with qcmdErr := false }) ∧
    (∃ t, exec .spoolWrite s = .next t ∧
      PartSet s t p { x with spool := if x.areas = [] then s.args.w &&& 0xFFFFFFFFFFFFF801 else x.spool }) ∧
    (∃ t, exec .qcmdDisable s = .next t ∧ OnlyPart s t p ∧
      QueueSet t p q x { k with en := false, wseq := false, wdep := false, ready := none } ∧
      (t.part p).launchRefs = x.launchRefs.filter fun r => !(decide (r.1 = q) && decide (k.qrd.toNat ≤ r.2.1))) ∧
    (x.qtbase.getLsbD 0 = false ∨ fld x.qtbase 57 48 < q →
      ∃ t, exec .qcmdEnable s = .next t ∧ PartSet s t p { x with qcmdErr := true }) ∧
    (x.qtbase.getLsbD 0 = true → q ≤ fld x.qtbase 57 48 →
      (s.rangeState p table 64 false = .waits →
        exec .qcmdEnable s = .next ((s.knockRange p table 64).again .qcmdEnable)) ∧
      (s.rangeState p table 64 false = .fails ∨ s.rangeState p table 64 false = .poisoned →
        ∃ t, exec .qcmdEnable s = .next t ∧ PartSet s t p { x with qcmdErr := true }) ∧
      (s.rangeState p table 64 false = .ready →
        let r := s.readLines p table 64
        (entryOk e = false → ∃ t, exec .qcmdEnable s = .next t ∧ PartSet r t p { x with qcmdErr := true }) ∧
        (entryOk e = true →
          ∃ t, exec .qcmdEnable s = .next t ∧ OnlyPart r t p ∧
            QueueSet t p q x { k with en := true, entry := e, ovr := false, wseq := false }))) ∧
    (∀ i, (i = .queueReadSlot ∧ k.wseq = false) ∨ (i = .wseqRetry ∧ k.wseq = true) →
      (k.en = false ∨ k.ready.isSome = true ∨ k.notify.toNat ≤ k.qrd.toNat → exec i s = .next s) ∧
      ∀ bs u z, k.en = true → k.ready = none → k.qrd.toNat < k.notify.toNat →
        s.devRead (k.ask p Kind.load) .plain (k.ring + BitVec.ofNat 64 (64 * (k.qrd.toNat % k.size))) 64 = .ok bs false u →
        u.part? p = some z →
        let m := valOfBytes 512 bs
        let y := z.queue q
        let lap := k.qrd.toNat / k.size % 65536
        (fld m 15 0 = (lap + 1) % 65536 → ∃ t, exec i s = .next t ∧ OnlyPart u t p ∧
          QueueSet t p q z { y with en := false, wseq := false, wdep := false, ready := none, ovr := true }) ∧
        (fld m 15 0 ≠ lap → fld m 15 0 ≠ (lap + 1) % 65536 →
          ∃ t, exec i s = .next t ∧ OnlyPart u t p ∧ QueueSet t p q z { y with wseq := true }) ∧
        (fld m 15 0 = lap → ∀ b0 f0 v, let r := packetCheck m (fld y.entry 6 5)
          r ≠ 0 → u.gvaWrite (y.ask p Kind.store) (y.errBase + BitVec.ofNat 64 (16 * (y.errs.toNat % 16)))
            (bytesOf 8 y.qrd ++ bytesOf 8 (BitVec.ofNat 64 r)) = .ok b0 f0 v → v.part? p ≠ none →
          ∃ t, exec i s = .next t ∧ Rejected v t p q) ∧
        (fld m 15 0 = lap → packetCheck m (fld y.entry 6 5) = 0 → Pk.type m = 3 → fld m 511 448 = 0 →
          ∃ t, exec i s = .next t ∧ Accepted u t p q m 0) ∧
        (fld m 15 0 = lap → packetCheck m (fld y.entry 6 5) = 0 → Pk.type m ≠ 3 → ∀ hb v w,
          u.gvaRead (y.ask p Kind.load) (m.extractLsb' 64 64) 64 = .ok hb false v → v.part? p = some w →
          let h := valOfBytes 512 hb
          headerCheck m h = 0 → h.getLsbD 59 = false → v.allowWaits p (v.queueOf p q).ctx = false →
          (fld m 511 448 ≠ 0 → ∃ t, exec i s = .next t ∧ t.mem = v.mem ∧
            QueueSet t p q w { w.queue q with wseq := false, wdep := true, ready := some (m, h, 0) }) ∧
          (fld m 511 448 = 0 → h.getLsbD 60 = false → m.getLsbD 23 = false →
            ∃ t, exec i s = .next t ∧ Accepted v t p q m h))) ∧
    (k.ready = none → exec .dependencyCheck s = .next s) ∧
    (∀ m h b bs u, k.ready = some (m, h, b) → k.en = true → h.getLsbD 59 = false →
      s.devRead (k.ask p Kind.load) .plain (m.extractLsb' 448 64) 4 = .ok bs false u →
      (natOfBytes bs < fld m 447 416 → exec .dependencyCheck s = .next u) ∧
      (fld m 447 416 ≤ natOfBytes bs → u.part? p ≠ none → h.getLsbD 60 = false → m.getLsbD 23 = false →
        (Pk.type m ≠ 3 → u.allowWaits p (u.queueOf p q).ctx = false) →
        ∃ t, exec .dependencyCheck s = .next t ∧ Accepted u t p q m h)) ∧
    (let free := fun (m : W64 × W32 × Bool × List Nat) => m.2.2.2.all fun g => x.grids.all (·.handle ≠ g)
     (k.markers.find? free = none → exec .markerComplete s = .next s) ∧
     ∀ m b f v z, k.markers.find? free = some m →
       (m.1 = 0 ∧ v = s) ∨ (m.1 ≠ 0 ∧ s.devWrite ⟨p, k.ctx, Kind.store, false⟩ m.1 (bytesOf 4 m.2.1) = .ok b f v) →
       v.part? p = some z →
       ∃ t, exec .markerComplete s = .next t ∧ t.mem = v.mem ∧
         QueueSet t p q z { z.queue q with markers := (z.queue q).markers.erase m }) ∧
    (∀ g b f v z, x.grids.find? (·.handle = s.args.grid) = some g →
      (g.exited < g.blocks → exec .gridComplete s = .next s) ∧
      (let a := g.packet.extractLsb' 320 64
       g.blocks ≤ g.exited → s.dirtyLines g.ran p = [] →
       (a = 0 ∧ v = s) ∨ (a ≠ 0 ∧ s.devWrite ⟨p, g.ctx, Kind.store, false⟩ a (bytesOf 4 (g.packet.extractLsb' 384 32)) = .ok b f v) →
       v.part? p = some z →
       ∃ t, exec .gridComplete s = .next t ∧ t.mem = v.mem ∧ (t.part p).grids = z.grids.filter (·.handle ≠ g.handle)))

/-- R231 to R235, R240: the slice that claims first places the next gang of a grid on the cores it fits, every group
with its start values; a restore entry that another cluster has fitted for long becomes free to it; an event read from
a control core's ring. Where the spec leaves a point open, this takes the model's choice (log entries 83 to 86). -/
def Obligations.Placement : Prop :=
  ∀ (s : State),
    (∀ p x h g l, (s.slice s.args.slice).owner = some p → s.part? p = some x → s.claimer p = some s.args.slice →
      (s.slice s.args.slice).power = 0 → s.candidate p s.args.slice = some (.grid h) → x.grids.find? (·.handle = h) = some g →
      Pk.type g.packet ≠ 2 → s.fitNext p s.args.slice g = some l →
      ∃ t z, exec .gangClaim s = .next t ∧ t.part? p = some z ∧ z.lastClaim = s.args.slice ∧
        (∀ r c i, l[r]? = some c → i < Hd.groups g.header →
          ∃ y ∈ t.groups, y.info.key = ⟨⟨p, h, g.nextGang * g.gangSize + r⟩, i⟩ ∧ y.coreKey = ⟨s.args.slice, c⟩ ∧ y.state = .placed ∧
            y.info.rank = r ∧ y.f0.mask = BitVec.allOnes 32 ∧ y.f0.st = .ready ∧ y.f1.st = .free ∧ y.stack = [] ∧
            y.f0.pc = g.packet.extractLsb' 64 64 + BitVec.ofNat 64 (fld g.header 31 0) ∧
            y.sget 1 = g.packet.extractLsb' 256 64 ∧ y.sget 2 = g.packet.extractLsb' 128 64) ∧
        ∀ y, z.grids.find? (·.handle = h) = some y → y.nextGang = g.nextGang + 1) ∧
    (∀ p sl, (s.slice sl).owner = some p → (s.claimer p ≠ some sl ∨ (s.slice sl).power ≠ 0) → s.args.slice = sl →
      exec .gangClaim s = .next s) ∧
    (∀ x, s.part? s.args.part = some x → ∃ t z, exec .restoreDonate s = .next t ∧ OnlyPart s t s.args.part ∧
      t.part? s.args.part = some z ∧ z = { x with lists := z.lists } ∧
      ∀ n c sl f, .restore s.args.grid s.args.gang (some c) sl f ∈ mget [] x.lists n →
        (s.fitRestore s.args.part c.1 s.args.grid s.args.gang fun cl => cl ≠ c.2).isSome = true →
        .restore s.args.grid s.args.gang (some c) sl (max f 1024) ∈ mget [] z.lists n) ∧
    (let i := s.args.slice * Config.clusters + s.args.cluster
     let c := s.clusterAt i
     ∃ t, exec .cceventRead s = .next t ∧ t = { s with clusters := t.clusters } ∧
       t.clusterAt i = { c with
         ring := c.ring.drop 1, ccRead := c.ring.headD 0
         ccWaiting := s.args.half && decide (c.ring.drop 1 = []) && c.cc.isSome } ∧
       ∀ j, j ≠ i → t.clusterAt j = s.clusterAt j)

/-! ### The module trust controller -/

/-- R20, R21, R27, R28, R30, R32, R33, R459: what FORM, DISSOLVE, TOPS, KEYS, ATTEST and MOVE check, and what they do
when every check passes; R457, R463: before the module has booted they do nothing. R34 to R41, R21: the steps of a
MOVE, one bucket at a time, and the ends of MOVE and DISSOLVE. Where the spec leaves a point open, this takes the
model's choice (log entries 47, 57 to 61 and 151). -/
def Obligations.Tenancy : Prop :=
  (∀ (s : State) (i : Instr), (i = .form ∨ i = .dissolve ∨ i = .keys ∨ i = .tops ∨ i = .move ∨ i = .attest) →
    (s.mtc.on = false ∨ s.mtc.verified = false) → exec i s = .next s) ∧
  (∀ (s : State), s.mtc.on = true → s.mtc.verified = true →
    let w := s.args.w
    let p := fld w 11 8
    let m := s.mtc.marg.1
    (s.cmdOk w = false → ∀ i, (i = .form ∨ i = .dissolve ∨ i = .keys ∨ i = .tops ∨ i = .move) →
      ∃ t, exec i s = .next t ∧ Ended t w MRes.badOp ∧ t.parts = s.parts ∧ t.slices = s.slices) ∧
    (s.cmdOk w = true →
      let mask : BitVec 16 := w.extractLsb' 16 16
      let ms := (List.range 16).filter (mask.getLsbD ·)
      let free := s.part? p = none ∧ (∀ z ∈ s.parts, z.mask &&& mask = 0) ∧
        ∀ y ∈ s.slices, mask.getLsbD y.id = true → y.shutter = 0 ∧ y.scrubbing = false
      let room := ∀ i < ms.length, ((List.range 1024).countP (· % ms.length = i)) * topH m ≤ 65536 ∧
        ((List.range 1024).countP (· % ms.length = i)) * topT m ≤ 131072
      let ends := fun r => ∃ t, exec .form s = .next t ∧ Ended t w r ∧ t.parts = s.parts ∧ t.slices = s.slices
      (topsOk m = false → ends MRes.badOp) ∧
      (topsOk m = true → ¬ free → ends MRes.busy) ∧
      (topsOk m = true → free → connected mask = false → ends MRes.notConnected) ∧
      (topsOk m = true → free → connected mask = true → ¬ room → ends MRes.capacity) ∧
      (topsOk m = true → free → connected mask = true → room → s.keysFor p = none → ends MRes.keys) ∧
      (∀ k, topsOk m = true → free → connected mask = true → room → s.keysFor p = some k →
        (∀ i ∈ ms, ∃ y ∈ s.slices, y.id = i) →
        ∃ t z, exec .form s = .next t ∧ Ended t w MRes.ok ∧ t.part? p = some z ∧ z.mask = mask ∧ z.htop.toNat = topH m ∧
          z.ttop.toNat = topT m ∧ z.kbase = BitVec.ofNat 12 k.1 ∧ z.kcount = BitVec.ofNat 13 k.2 ∧ z.grids = [] ∧
          (∀ b < 1024, bucketEntry z b = BitVec.ofNat 16 ((ms.drop (b % ms.length)).headD 0)) ∧
          (∀ y ∈ t.slices, mask.getLsbD y.id = true → y.shutter = 1 ∧ y.part = BitVec.ofNat 4 p) ∧
          ∀ a, a / 2 ^ 48 = p → t.rawByte a = 0)) ∧
    (s.part? p = none → ∀ i, (i = .dissolve ∨ i = .tops ∨ i = .attest) → ∃ t, exec i s = .next t ∧ Ended t w MRes.badOp) ∧
    (∀ x, s.part? p = some x → s.cmdOk w = true →
      (∃ t r, exec .dissolve s = .next t ∧ t.mtc.run = some r ∧ r.word = w ∧ r.src = p ∧ r.step = .scrub ∧
        (∀ y ∈ t.slices, x.mask.getLsbD y.id = true → y.shutter = 0 ∧ y.scrubbing = true) ∧
        (∀ a, a / 2 ^ 48 = p → t.rawByte a = 0) ∧ (∀ b ∈ t.blocks, b.key.part ≠ p) ∧
        ∀ g ∈ t.cur :: t.groups, g.info.key.blk.part ≠ p ∨ g.state = .none) ∧
      (topsOk m = false → ∃ t, exec .tops s = .next t ∧ Ended t w MRes.badOp) ∧
      (topsOk m = true → (x.capacity (topH m) (topT m) = false ∨ s.regionsBelow x m = false) →
        ∃ t, exec .tops s = .next t ∧ Ended t w MRes.capacity ∧ t.parts = s.parts) ∧
      (topsOk m = true → x.capacity (topH m) (topT m) = true → s.regionsBelow x m = true →
        ∃ t z, exec .tops s = .next t ∧ Ended t w MRes.ok ∧ t.part? p = some z ∧ z.htop.toNat = topH m ∧ z.ttop.toNat = topT m ∧
          z.buckets = x.buckets ∧ ∀ a, t.rawByte a =
            if a / 2 ^ 48 = p ∧ below (topH m) (topT m) (a % 2 ^ 48) 1 = false then 0 else s.rawByte a)) ∧
    (let base := fld m 43 32
     let n := fld m 57 45
     s.cmdOk w = true →
     (n = 0 ∨ 4096 < n → ∃ t, exec .keys s = .next t ∧ Ended t w MRes.badOp) ∧
     (1 ≤ n → n ≤ 4096 → (s.part? p).isSome = true → ∃ t, exec .keys s = .next t ∧ Ended t w MRes.busy) ∧
     (1 ≤ n → n ≤ 4096 → s.part? p = none →
       (4096 < base + n ∨ (∃ r ∈ s.keyRanges p, base < r.1 + r.2 ∧ r.1 < base + n) → ∃ t, exec .keys s = .next t ∧ Ended t w MRes.keys) ∧
       (base + n ≤ 4096 → (∀ r ∈ s.keyRanges p, r.1 + r.2 ≤ base ∨ base + n ≤ r.1) →
         ∃ t, exec .keys s = .next t ∧ Ended t w MRes.ok ∧ oget t.mtc.keyResv p = some (base, n) ∧
           ∀ j, j ≠ p → oget t.mtc.keyResv j = oget s.mtc.keyResv j))) ∧
    (∀ x, s.part? p = some x →
      let base := fld m 47 12 * 4096
      let at_ := s.rangeState p base 0x4000 true
      let good := fld w 63 48 = 0 ∧ fld m 11 0 = 0 ∧ fld m 63 48 = 0 ∧ s.mtc.marg.2 = 0 ∧ base + 0x4000 ≤ x.htop.toNat * 2 ^ 30 ∧
        at_ ≠ .fails
      (¬ good → ∃ t, exec .attest s = .next t ∧ Ended t w MRes.badOp) ∧
      (good → 2 ^ 20 ≤ s.mtc.attest → ∃ t, exec .attest s = .next t ∧ Ended t w MRes.keys) ∧
      (good → s.mtc.attest < 2 ^ 20 → at_ = .waits → ∃ t, exec .attest s = .next t ∧ t.mtc = s.mtc ∧ t.mem = s.mem ∧
        t.later = s.later ++ [⟨.attest, s.args⟩]) ∧
      (good → s.mtc.attest < 2 ^ 20 → at_ ≠ .waits → ∃ t, exec .attest s = .next t ∧ Ended t w MRes.ok ∧ t.mtc.attest = s.mtc.attest + 1 ∧
        t.mem = ((s.readLines p base 64).writeRange p (base + 0x40) (s.attestBytes p (s.readRange p base 64))).mem)) ∧
    (s.moveCheck w ≠ MRes.ok → ∃ t, exec .move s = .next t ∧ Ended t w (s.moveCheck w) ∧ t.parts = s.parts) ∧
    (s.moveCheck w = MRes.ok → ∃ t r, exec .move s = .next t ∧ t.mtc.run = some r ∧ r.word = w ∧ r.slice = fld w 15 12 ∧
      r.dst = p ∧ r.step = .drain ∧ r.bucket = none ∧ (t.slice r.slice).shutter = 2 ∧
      ∀ q, s.parts.find? (·.mask.getLsbD r.slice) = some q → r.src = q.id)) ∧
  ∀ (s : State) (r : MtcRun), s.mtc.run = some r →
    (fld r.word 7 0 = 2 → r.step = .scrub → ∃ t, exec .dissolveScrubDone s = .next t ∧ Ended t r.word MRes.ok ∧ t.part? r.src = none ∧
      ∀ y ∈ t.slices, ∀ x, s.part? r.src = some x → x.mask.getLsbD y.id = true → y.scrubbing = false) ∧
    (fld r.word 7 0 = 3 →
      (let late := (∃ h ∈ (s.slice r.slice).hcores, h.2.online = true) ∨ s.poolWaits r.slice = true
       (r.step = .drain → late → ∃ t, exec .drainTimeout s = .next t ∧ Ended t r.word MRes.timeout ∧
         (t.slice r.slice).shutter = if (s.slice r.slice).shutter = 2 then 1 else (s.slice r.slice).shutter) ∧
       (r.step ≠ .drain ∨ ¬ late → exec .drainTimeout s = .next s)) ∧
      (r.step = .migrate → r.bucket = none → ∀ x, s.part? r.src = some x →
        (∀ b l, x.held r.slice = b :: l → ∃ t z, exec .migrateBucket s = .next t ∧
          t.mtc.run = some { r with bucket := some b, failures := 0 } ∧ t.part? r.src = some z ∧
          (bucketEntry z b).getLsbD 8 = true ∧ fld (bucketEntry z b) 7 4 = x.fewest r.slice ∧
          fld (bucketEntry z b) 3 0 = fld (bucketEntry x b) 3 0 ∧ ∀ j, j ≠ b → bucketEntry z j = bucketEntry x j) ∧
        (x.held r.slice = [] → ∃ t z y, exec .migrateBucket s = .next t ∧ t.mtc.run = some y ∧ y.step = .scrub ∧ y.word = r.word ∧
          (t.slice r.slice).shutter = 0 ∧ (t.slice r.slice).scrubbing = true ∧ t.part? r.src = some z ∧
          z.mask = x.mask &&& ~~~(1#16 <<< r.slice))) ∧
      (r.step = .scrub → r.slice < 16 →
        (∀ x, s.part? r.dst = some x → ∃ t z, exec .scrubDone s = .next t ∧ t.part? r.dst = some z ∧
          z.mask = x.mask ||| (1#16 <<< r.slice) ∧ (t.slice r.slice).shutter = 1 ∧
          (t.slice r.slice).part = BitVec.ofNat 4 r.dst ∧ (t.slice r.slice).scrubbing = false) ∧
        (s.part? r.dst = none → ∃ t z, exec .scrubDone s = .next t ∧ t.part? r.dst = some z ∧ z.mask = 1#16 <<< r.slice ∧
          (t.slice r.slice).shutter = 1 ∧ ∀ b < 1024, bucketEntry z b = BitVec.ofNat 16 r.slice))) ∧
    (∀ b, r.bucket = some b →
      let p := if r.step = .rebalance then r.dst else r.src
      ∀ x, s.part? p = some x →
      let e := bucketEntry x b
      (s.bucketBusy p b = true → exec .bucketSwitch s = .next s) ∧
      (s.bucketBusy p b = false → ∃ t z, exec .bucketSwitch s = .next t ∧ t.part? p = some z ∧
        fld (bucketEntry z b) 3 0 = fld e 7 4 ∧ fld (bucketEntry z b) 8 4 = 0 ∧ fld (bucketEntry z b) 15 9 = fld e 15 9 ∧
        ∀ j, j ≠ b → bucketEntry z j = bucketEntry x j) ∧
      (let n := if s.args.ok then r.failures + 1 else 1
       (n < 3 → ∃ t, exec .migrationError s = .next t ∧ t = { s with mtc := { s.mtc with run := some { r with failures := n } } }) ∧
       (3 ≤ n → ∃ t z, exec .migrationError s = .next t ∧ Ended t r.word MRes.migrationError ∧
         (t.slice r.slice).shutter = (if (s.slice r.slice).shutter = 2 then 1 else (s.slice r.slice).shutter) ∧
         t.part? p = some z ∧ ∀ j, fld (bucketEntry z j) 8 4 = 0 ∧ fld (bucketEntry z j) 3 0 = fld (bucketEntry x j) 3 0 ∧
           fld (bucketEntry z j) 15 9 = fld (bucketEntry x j) 15 9)))

/-- R17, R19, R22, R127, R132, R11, R30, R450: what a refused flit, a slice fault, an uncorrectable error and a failed
flit leave in the log and in memory; a write to an interrupt route, to a device register, and a host link event. Where
the spec leaves a point open, this takes the model's choice (log entries 29, 62 to 64, 132 and 133). -/
def Obligations.SliceErrors : Prop :=
  ∀ (s : State),
    let a := s.args
    let x := s.slice a.slice
    let own := x.shutter ≠ 0 ∧ a.src = some x.part.toNat
    let passes := a.priv = true ∨ (own ∧ (x.shutter = 1 ∨ a.up = false)) ∨ (x.shutter = 2 ∧ a.half = true)
    (passes → exec .flitRefused s = .next s) ∧
    (¬ passes → ∃ t, exec .flitRefused s = .next t ∧ t.mem = s.mem ∧ Logged t 1 a.slice a.src ∧
      (x.shutter ≠ 0 → (t.slice a.slice).drops.toNat = min (x.drops.toNat + 1) 65535)) ∧
    (∃ t, exec .sliceFault s = .next t ∧ t.mem = s.mem ∧ t.parts = s.parts ∧
      Logged t 4 a.slice (if x.shutter = 0 then none else some x.part.toNat)) ∧
    (x.shutter = 0 → ∃ t, exec .fatalSliceFault s = .next t ∧ t.mem = s.mem ∧ (t.slice a.slice).failed = true ∧
      (s.mtc.run = none → Logged t 5 a.slice none)) ∧
    (x.shutter ≠ 0 → ∀ y, s.part? x.part.toNat = some y →
      let rest := y.mask &&& ~~~(1#16 <<< a.slice)
      (connected rest = false → ∃ t, exec .fatalSliceFault s = .next t ∧ (t.slice a.slice).failed = true ∧
        (t.slice a.slice).shutter = 0 ∧ ∀ z ∈ t.slices, rest.getLsbD z.id = true → z.shutter = 0) ∧
      (connected rest = true → ∃ t z, exec .fatalSliceFault s = .next t ∧ (t.slice a.slice).failed = true ∧
        (t.slice a.slice).shutter = 0 ∧ t.part? x.part.toNat = some z ∧ z.mask = rest ∧
        (∀ b < 1024, let e := bucketEntry z b
          fld e 3 0 = fld (bucketEntry y b) 3 0 ∧ e.getLsbD 9 = ((bucketEntry y b).getLsbD 9 || decide (b ∈ y.held a.slice)) ∧
            (b ∈ y.held a.slice → e.getLsbD 8 = false)) ∧
        ∀ c, t.rawByte c = if c / 2 ^ 48 = x.part.toNat ∧ bucketOf (c % 2 ^ 48) ∈ y.held a.slice then 0 else s.rawByte c)) ∧
    (let counts := fun (t : State) (sl : Nat) => fld (t.slice sl).merr 31 16 = min (fld (s.slice sl).merr 31 16 + 1) 65535
     let badWord := fun (t : State) (i : Nat) => (a.part, a.line, i) ∈ (t.core a.coreKey).l1Bad
     let line := fun (i : Instr) => ∃ t, exec i s = .next t ∧ t.mem = s.mem ∧ t.poisoned a.part a.ppa = true ∧
       counts t ((s.part a.part).home a.ppa) ∧ Logged t 2 ((s.part a.part).home a.ppa) (some a.part)
     (a.half = false → line .uncorrectableError) ∧
     (a.half = true → ∃ t, exec .uncorrectableError s = .next t ∧ t.mem = s.mem ∧ counts t a.slice ∧ Logged t 2 a.slice (some a.part) ∧
       (a.kind.toNat = 0 → ∀ b, s.block? a.block = some b → ∃ c, t.block? a.block = some c ∧ c = { b with winPoison := c.winPoison } ∧
         ∀ j, mget false c.winPoison j = if j = a.n then true else mget false b.winPoison j) ∧
       (a.kind.toNat = 1 → ∀ g, s.group? a.group = some g → ∃ h, t.group? a.group = some h ∧ h = { g with regPoison := h.regPoison } ∧
         ∀ j, mget false h.regPoison j = if j = a.n then true else mget false g.regPoison j) ∧
       (a.kind.toNat = 2 → ∀ g, s.group? a.group = some g → ∃ h, t.group? a.group = some h ∧ h = { g with accPoison := h.accPoison } ∧
         ∀ k l, l < 32 → (mget 0 h.accPoison k).getLsbD l = if 32 * k + l = a.n then true else (mget 0 g.accPoison k).getLsbD l) ∧
       (a.kind.toNat = 3 → ∀ b, oget (s.core a.coreKey).bslots a.line = some b → ∃ c, oget (t.core a.coreKey).bslots a.line = some c ∧
         c = { b with poison := c.poison } ∧ ∀ j, mget false c.poison j = if j = a.n then true else mget false b.poison j) ∧
       (3 < a.kind.toNat → (s.core a.coreKey).l1At a.part a.line ≠ none → ∀ i < 16, badWord t i ↔ i = a.n ∨ badWord s i)) ∧
     (a.n < 3 → exec .flitCrcFail s = .next s) ∧
     (3 ≤ a.n → a.half = false → line .flitCrcFail) ∧
     (3 ≤ a.n → a.half = true → a.kind.toNat ≠ 0 → ∃ t, exec .flitCrcFail s = .next t ∧ t.mem = s.mem ∧ counts t a.slice ∧
       Logged t 2 a.slice (some a.part) ∧
       (a.kind.toNat = 1 → (s.core a.coreKey).l1At a.part a.line ≠ none → ∀ i < 16, badWord t i ↔ a.w.getLsbD i = true ∨ badWord s i) ∧
       (a.kind.toNat ≠ 1 → t.spoiled = (a.kind.toNat, if 6 ≤ a.kind.toNat then ⟨a.slice, 0⟩ else a.coreKey) :: s.spoiled)) ∧
     (3 ≤ a.n → a.half = true → a.kind.toNat = 0 → ∀ g p, s.group? a.group = some g → g.tx.opened = false → g.pend[a.line]? = some p →
       p.mask &&& g.f0.mask ≠ 0 → g.f0.st ≠ .free → g.f0.cap = none → g.f0.redo = none → g.t0.phase = .none →
       ∃ t h, exec .flitCrcFail s = .next t ∧ t.mem = s.mem ∧ t.group? a.group = some h ∧ h.vregs = g.vregs ∧ h.sregs = g.sregs ∧
         h.t0.tcause = Cause.poison ∧ h.t0.tpc = p.pc ∧ h.t0.tmask = p.mask.setWidth 128 ∧ h.t0.taddr = a.gva ∧
         counts t a.slice ∧ Logged t 2 a.slice (some a.part))) ∧
    (∀ y, s.part? a.part = some y → ∃ t z, exec .irtWrite s = .next t ∧ OnlyPart s t a.part ∧ t.part? a.part = some z ∧
      z = { y with irt := z.irt } ∧ ∀ j, mget 0 z.irt j =
        if j = a.n ∧ y.mask.getLsbD (a.n / 16) = true ∧ y.mask.getLsbD (fld a.w 3 0) = true
          then BitVec.ofNat 32 (fld a.w 18 0) else mget 0 y.irt j) ∧
    (∃ t, exec .registerWrite s = .next t ∧
      (s.regReady a.reg = false → t = s) ∧
      (a.reg = .mtc true 1 → s.mtc.on = true → s.mtc.verified = true → t = { s with mtc := { s.mtc with marg0 := a.w } }) ∧
      (∀ p sl y, a.reg = .window p sl 0x0100 → s.part? p = some y → PartSet s t p { y with
        xctb := (y.xctb &&& ~~~0x0FFFFFFFFFFFF001) ||| (a.w &&& 0x0FFFFFFFFFFFF001) }) ∧
      ∀ p sl, a.reg = .window p sl 0x0708 → x.srdy.getLsbD 5 = true → sl = a.slice → (t.slice sl).iplo = a.w) ∧
    (∃ t, exec .hostLinkEvent s = .next t ∧ t.mem = s.mem ∧ t.parts = s.parts ∧ t.cur = s.cur ∧
      (Config.linkHolder = none → t = s))

/-! ### Translation caches, homes and versions -/

/-- R53, R59 to R64: the invalidation command at the head of the FIFO takes its translations out of every cache of the
partition, HARVEST collects and clears D, and the completion counts and reports it. (An IPA command and HARVEST take
out every translation of the VMID: the model's choice, log entry 66.) For a HARVEST past IPA 2⁴⁸ and a stage-2 table
outside memory this takes the model's choice (log entries 140 and 141). -/
def Obligations.InvalidationCommands : Prop :=
  ∀ (s : State) (x : Partition), s.part? s.args.part = some x →
    let p := s.args.part
    let clean := fun (t : State) (hit : Translation → Prop) =>
      (∀ c ∈ t.cores, ∀ e ∈ c.tlb, e.part = p → ¬ hit e) ∧ ∀ c ∈ t.clusters, ∀ e ∈ c.2.tlb, e.part = p → ¬ hit e
    (∀ q r, x.xinvQ = q :: r → q.ran = false →
      let asid := fld q.op 31 16
      let vmid := fld q.op 47 32
      let bytes := (fld q.op 63 48 + 1) * 4096
      let lo := q.addr.toNat % 2 ^ 52
      (∀ (i : Instr) (code : Nat) (hit : Translation → Prop),
        (i = .xinvVa ∧ code = 1 ∧ hit = fun e => e.s1 = true ∧ e.vmid = vmid ∧ (e.global = true ∨ e.asid = asid) ∧
            lo < e.gva + 2 ^ e.size ∧ e.gva < lo + bytes) ∨
        (i = .xinvAsid ∧ code = 2 ∧ hit = fun e => e.s1 = true ∧ e.vmid = vmid ∧ e.global = false ∧ e.asid = asid) ∨
        (i = .xinvVms1 ∧ code = 3 ∧ hit = fun e => e.s1 = true ∧ e.vmid = vmid) ∨
        (i = .xinvIpa ∧ code = 4 ∧ fld q.addr 63 48 = 0 ∧ hit = fun e => e.vmid = vmid) ∨
        (i = .xinvVmid ∧ code = 5 ∧ hit = fun e => e.vmid = vmid) ∨
        (i = .xinvCtx ∧ code = 6 ∧ hit = fun e => e.ctx = fld q.op 15 4) ∨
        (i = .xinvAll ∧ code = 7 ∧ hit = fun _ => True) →
        (fld q.op 3 0 = code → ∃ t z, exec i s = .next t ∧ clean t hit ∧ t.mem = s.mem ∧ t.cur = s.cur ∧ t.blocks = s.blocks ∧
          t.part? p = some z ∧ z = { x with xinvQ := { q with ran := true } :: r }) ∧
        (fld q.op 3 0 ≠ code → exec i s = .next s)) ∧
      (fld q.op 3 0 = 8 → q.badHarvest s p = false → s.harvestWaits p q = true →
        ∃ t z, exec .harvest s = .next t ∧ t.mem = s.mem ∧ t.part? p = some z ∧ z.xinvQ = q :: r) ∧
      (fld q.op 3 0 = 8 → q.badHarvest s p = false → s.harvestWaits p q = false →
        ∃ t z, exec .harvest s = .next t ∧ clean t (fun e => e.vmid = vmid) ∧ t.part? p = some z ∧
          z.xinvQ = { q with ran := true } :: r ∧
          ∀ root es d, bytes = 4096 → s.vmRoot p vmid = some root → s.leafD p root (q.addr.toNat % 2 ^ 48) = .leaf es d →
            let out := fld q.aux 47 3 * 8
            es.Nodup → (∀ e ∈ es, e % 8 = 0 ∧ pa p e / 64 ≠ pa p out / 64) → x.lost out = false → s.chain p out = .none →
            (∀ e ∈ es, t.readMem p 0 e 8 64 = if d then s.readMem p 0 e 8 64 &&& ~~~0x10#64 else s.readMem p 0 e 8 64) ∧
              t.byteAt p 0 out = if d then 1 else 0)) ∧
    (x.xinvQ = [] → exec .xinvComplete s = .next s) ∧
    (∀ q r, x.xinvQ = q :: r →
      (q.ran = false → s.xinvBad p q = true → ∃ t, exec .xinvComplete s = .next t ∧
        PartSet s t p { x with xinvQ := r, xinvErr := true, xinvSeq := x.xinvSeq + 1 }) ∧
      (s.xinvBad p q = false → q.ran = false → exec .xinvComplete s = .next s) ∧
      (q.ran = true →
        let a := fld q.word 47 3 * 8
        let y := { x with xinvQ := r, xinvSeq := x.xinvSeq + 1 }
        (a = 0 → ∃ t, exec .xinvComplete s = .next t ∧ PartSet s t p y) ∧
        (a ≠ 0 → x.inMemory a 8 = false → ∃ t, exec .xinvComplete s = .next t ∧ PartSet s t p { y with xinvErr := true }) ∧
        (a ≠ 0 → x.inMemory a 8 = true → x.lost a = false → s.rangeState p a 8 true = .ready → s.chain p a = .none →
          ∃ t, exec .xinvComplete s = .next t ∧ t.part? p = some y ∧
            t.readMem p 0 a 8 64 = (x.xinvSeq + 1).setWidth 64))) ∧
    (∀ tr ppa u, let a : Ask := ⟨p, s.args.ctx, s.args.kind.toNat, s.args.priv⟩
      s.translate s.args.coreKey a s.args.gva = .ok tr ppa u →
        exec .translationWalk s = .next u) ∧
    (∀ c d u, let a : Ask := ⟨p, s.args.ctx, s.args.kind.toNat, s.args.priv⟩
      s.translate s.args.coreKey a s.args.gva = .flt c d u → exec .translationWalk s = .next u)

/-- R112 to R114, R118, R129, R200: what a home does with a request, what an L1 keeps of a line that the home asks
for, the maintenance commands, and patrol scrub. Where the spec leaves a point open, this takes the model's choice
(log entries 67 and 68). -/
def Obligations.HomeAgent : Prop :=
  ∀ (s : State),
    let q := s.args.req
    let p := q.part
    let gone := fun (t : State) => ∀ k st, (t.core k).l1At p (q.ppa / 64) ≠ some (.hc p (q.ppa / 64) st)
    let here := (s.part p).space q.ppa = .mem ∧ (s.part p).lost q.ppa = false
    (q.ctl = none → q.op = .evict →
      (s.claimed p q.ppa = true ∨ s.hostHolds p q.ppa true = true → exec .homeRequest s = .next (s.again .homeRequest)) ∧
      (s.claimed p q.ppa = false → s.hostHolds p q.ppa true = false → s.chain p q.ppa = .none →
        ∃ t, exec .homeRequest s = .next t ∧ t = { s with cores := t.cores, slices := t.slices, poison := t.poison } ∧ gone t)) ∧
    (∀ v, q.ctl = none → q.op = .hkeysel v → ∃ t, exec .homeRequest s = .next t ∧ t = { s with slices := t.slices } ∧
      (t.hcore q.slice q.hcore).hkeysel = v) ∧
    (q.ctl = none → q.key = none → q.virt = true → (s.part p).kcount.toNat ≤ (s.hcore q.slice q.hcore).hkeysel.toNat →
      q.op ≠ .evict → (∀ v, q.op ≠ .hkeysel v) →
      ∃ t, exec .homeRequest s = .next t ∧ t = { s with slices := t.slices } ∧
        (t.hcore q.slice q.hcore).fault = some (false, q.ppa)) ∧
    (∀ key, q.ctl = none → (q.key = some key ∨ (q.key = none ∧ s.hostKey q = some key)) →
      let u : State := { s with args := { s.args with req := { q with key := some key } } }
      let later : Out := .next ((u.knock p q.ppa).again .homeRequest)
      let clean := fun n => s.anyPoison p q.ppa n = false ∧ s.badCopy p (q.ppa / 64) = false ∧ s.spoilt 5 (requester q) = false
      (∀ n, q.op = .load n → here →
        (s.memHold p q.ppa 0 false ≠ .none → exec .homeRequest s = later) ∧
        (s.memHold p q.ppa 0 false = .none → clean n →
          ∃ t, exec .homeRequest s = .next t ∧ t = { u with cores := t.cores, slices := t.slices, agenda := t.agenda } ∧
            ∀ k st, (t.core k).l1At p (q.ppa / 64) = some (.hc p (q.ppa / 64) st) → st = .shared) ∧
        (s.memHold p q.ppa 0 false = .none → s.anyPoison p q.ppa n = true ∨ s.badCopy p (q.ppa / 64) = true →
          ∃ t, exec .homeRequest s = .next t ∧ t.mem = s.mem ∧ t.cores = s.cores ∧ Logged t 3 ((s.part p).home q.ppa) (some p) ∧
            (t.hcore q.slice q.hcore).fault = some (true, q.ppa))) ∧
      (∀ n, q.op = .reserve n → ∃ t, exec .homeRequest s = .next t ∧ t.mem = s.mem ∧
        (t.hcore q.slice q.hcore).resv = some (p, q.ppa / 64)) ∧
      (∀ n v, q.op = .store n v → InLine q.ppa n → n ≤ 8 → here →
        (s.memHold p q.ppa 0 true ≠ .none → exec .homeRequest s = later) ∧
        (s.memHold p q.ppa 0 true = .none → s.chain p q.ppa = .none →
          ∃ t, exec .homeRequest s = .next t ∧ t.cur = s.cur ∧ gone t ∧
            (∀ i < n, t.byteAt p key (q.ppa + i) = byteOf v.toNat i) ∧
            (∀ j, j / 64 = q.ppa / 64 → (j < q.ppa ∨ q.ppa + n ≤ j) → t.byteAt p key j = s.byteAt p key j) ∧
            ∀ a, a / 64 ≠ pa p q.ppa / 64 → t.rawByte a = s.rawByte a)) ∧
      (∀ n v, q.op = .conditional n v → (s.hcore q.slice q.hcore).resv ≠ some (p, q.ppa / 64) →
        ∃ t, exec .homeRequest s = .next t ∧ t = { u with slices := t.slices } ∧ (t.hcore q.slice q.hcore).resv = none) ∧
      (∀ op n v v2, q.op = .amo op n v v2 → InLine q.ppa n → (n = 4 ∨ n = 8) → here →
        (s.memHold p q.ppa 0 true ≠ .none → exec .homeRequest s = later) ∧
        (s.memHold p q.ppa 0 true = .none → clean n → s.chain p q.ppa = .none →
          let old := valueOf (fun i => s.byteAt p key (q.ppa + i)) n
          ∃ t, exec .homeRequest s = .next t ∧ t.cur = s.cur ∧ (op < 9 → gone t) ∧
            (op = 1 → ∀ i < n, t.byteAt p key (q.ppa + i) = byteOf (old + v.toNat) i) ∧
            (op = 2 → ∀ i < n, t.byteAt p key (q.ppa + i) = byteOf old i &&& byteOf v.toNat i) ∧
            (op = 0 → ∀ i < n, t.byteAt p key (q.ppa + i) = byteOf v.toNat i) ∧
            (op = 9 → old ≠ v.toNat % 2 ^ (8 * n) → t.mem = s.mem) ∧
            ∀ a, a / 64 ≠ pa p q.ppa / 64 → t.rawByte a = s.rawByte a))) ∧
    (let k := s.args.coreKey
     let ln := s.args.line
     ∀ st, (s.core k).l1At s.args.part ln = some (.hc s.args.part ln st) →
      (∃ t, exec .homeForward s = .next t ∧ t = { s with cores := t.cores } ∧
        (t.core k).l1At s.args.part ln =
          (if s.args.fwd = .forwardLoad then some (.hc s.args.part ln .shared) else none) ∧
        ∀ j, j ≠ ln → (t.core k).l1At s.args.part j = (s.core k).l1At s.args.part j) ∧
      ∃ t, exec .invalidateAck s = .next t ∧ t = { s with cores := t.cores } ∧ (t.core k).l1At s.args.part ln = none ∧
        ∀ j, j ≠ ln → (t.core k).l1At s.args.part j = (s.core k).l1At s.args.part j) ∧
    (∀ x c r, s.part? s.args.part = some x → x.cmQ = c :: r →
      let p := s.args.part
      let base := fld c.addr 47 12 * 4096
      let bytes := (fld c.op 63 48 + 1) * 4096
      (s.cmBad p c = true → ∃ t, exec .cmComplete s = .next t ∧
        PartSet s t p { x with cmQ := r, cmErr := true, cmSeq := x.cmSeq + 1 }) ∧
      (s.cmBad p c = false → c.ran = true → ∃ t, exec .cmComplete s = .next t ∧
        PartSet s t p { x with cmQ := r, cmSeq := x.cmSeq + 1 }) ∧
      (s.cmBad p c = false → c.ran = false → exec .cmComplete s = .next s ∧
        ((∀ l ∈ s.linesIn p base bytes, s.memHold p (64 * l.2) 0 true = .none ∧ s.chain p (64 * l.2) = .none) →
          (fld c.op 3 0 = 1 → ∃ t z, exec .l1wb s = .next t ∧ t.part? p = some z ∧ z.cmQ = { c with ran := true } :: r ∧
            (∀ k ln l, x.mask.getLsbD k.slice = true → base ≤ 64 * ln → 64 * ln < base + bytes →
              (t.core k).l1At p ln = some l → l.dirty = 0) ∧
            ∀ k ln data dirty key full, s.linesIn p base bytes = [(k, ln)] →
              (s.core k).l1At p ln = some (.sc p ln data dirty key full) → x.lost (64 * ln) = false → s.chain p (64 * ln) = .none →
              ∀ j < 64, t.byteAt p key (64 * ln + j) = if dirty.getLsbD j then data.getD j 0 else s.byteAt p key (64 * ln + j)) ∧
          (fld c.op 3 0 = 2 → ∃ t z, exec .l1wbinv s = .next t ∧ t.part? p = some z ∧ z.cmQ = { c with ran := true } :: r ∧
            (∀ k ln, x.mask.getLsbD k.slice = true → base ≤ 64 * ln → 64 * ln < base + bytes → (t.core k).l1At p ln = none) ∧
            ∀ k ln data dirty key full, s.linesIn p base bytes = [(k, ln)] →
              (s.core k).l1At p ln = some (.sc p ln data dirty key full) → x.lost (64 * ln) = false → s.chain p (64 * ln) = .none →
              ∀ j < 64, t.byteAt p key (64 * ln + j) = if dirty.getLsbD j then data.getD j 0 else s.byteAt p key (64 * ln + j))))) ∧
    (let x := s.slice s.args.slice
     let mine := x.mpatrol.getLsbD 0 = true ∧ x.shutter ≠ 0 ∧ (s.part x.part.toNat).home s.args.ppa = s.args.slice
     (¬ mine ∨ s.args.patrol = .clean → exec .patrolRead s = .next s) ∧
     (mine → s.args.patrol = .correctable → ∃ t, exec .patrolRead s = .next t ∧ t.mem = s.mem ∧
       fld (t.slice s.args.slice).merr 15 0 = min (fld x.merr 15 0 + 1) 65535 ∧ fld (t.slice s.args.slice).merr 63 16 = fld x.merr 63 16) ∧
     (mine → s.args.patrol = .uncorrectable → ∃ t, exec .patrolRead s = .next t ∧ t.mem = s.mem ∧
       fld (t.slice s.args.slice).merr 31 16 = min (fld x.merr 31 16 + 1) 65535 ∧
       t.poisoned x.part.toNat s.args.ppa = true ∧ Logged t 2 s.args.slice (some x.part.toNat)) ∧
     ∃ t, exec .merrClr s = .next t ∧ (t.slice s.args.slice).merr = 0 ∧ t.mem = s.mem ∧ t.parts = s.parts)

/-- R37, R133, R134, R143, R145, R147: timestamps are given in order, the clock follows the commits that are complete and frees
the fragments it has reached, a sparge pass drops what no live timestamp reaches, and BUCKET_TRANSIT. -/
def Obligations.Versions : Prop :=
  ∀ (s : State) (x : Partition), s.part? s.args.part = some x →
    let p := s.args.part
    (x.seqLost = true ∨ x.lost 0 = true ∨ (x.transit 0 = false ∧ 2 ^ 64 - 1 ≤ x.issued) → exec .timestampRequest s = .next s) ∧
    (x.seqLost = false → x.lost 0 = false → x.transit 0 = true → exec .timestampRequest s = .next (s.again .timestampRequest)) ∧
    (SeqReady x → x.issued < 2 ^ 64 - 1 → ∃ t, exec .timestampRequest s = .next t ∧
      PartSet s t p { x with issued := x.issued + 1, committing := x.committing ++ [x.issued + 1] }) ∧
    (s.args.n ∉ x.committing → exec .commitComplete s = .next s) ∧
    (s.args.n ∈ x.committing → ∃ t z, exec .commitComplete s = .next t ∧ t.part? p = some z ∧ t.mem = s.mem ∧
      z.committing = x.committing.erase s.args.n ∧ z.issued = x.issued ∧ z.chains = x.chains ∧
      (∀ n ∈ z.committing, z.vclock < n ∨ n = 0) ∧ z.vclock ≤ z.issued ∧
      ∀ slot ts d rts, s.pid = p → (s.cur.frag slot).hold = .commit ts d rts → (s.cur.frag (!slot)).st = .free →
        (s.cur.frag (!slot)).hold = .none →
        (ts ≤ z.vclock → (t.cur.frag slot).st = .ready ∧ t.cur.pend = s.cur.pend ∧
          (d ≠ 0 → t.cur.sget d = BitVec.ofNat 64 ts) ∧ ∀ n, n ≠ d → t.cur.sget n = s.cur.sget n) ∧
        (z.vclock < ts → point (t.cur.frag slot) = point (s.cur.frag slot) ∧ (t.cur.frag slot).hold = .commit ts d rts)) ∧
    (∃ t z, exec .spargePass s = .next t ∧ t.part? p = some z ∧ z.spargeDue = false ∧
      (∀ e ∈ z.chains, e.2.older ≠ [] ∨ e.2.unc.isSome = true) ∧
      (∀ e ∈ z.chains, ∃ c, (e.1, c) ∈ x.chains ∧ e.2.ts = c.ts ∧ e.2.unc = c.unc ∧ e.2.older = x.keepReached c.ts c.older) ∧
      ∀ e ∈ x.chains, x.keepReached e.2.ts e.2.older ≠ [] ∨ e.2.unc.isSome = true → ∃ c, (e.1, c) ∈ z.chains) ∧
    (∃ t, exec .vpstatRun s = .next t ∧ PartSet s t p { x with spargeDue := true }) ∧
    (x.vpRecords ≠ [] → ∃ t, exec .vpoolWrite s = .next t ∧ PartSet s t p { x with vpErr := true }) ∧
    (x.vpRecords = [] → s.args.half = false → s.args.w.getLsbD 0 = false →
      ∃ t, exec .vpoolWrite s = .next t ∧ PartSet s t p { x with
        vpbase := s.args.w &&& 0x0FFF00FFFFFFF001, vpsize := x.vpsize }) ∧
    (x.vpRecords = [] → s.args.half = true → x.vpbase.getLsbD 0 = false →
      ∃ t, exec .vpoolWrite s = .next t ∧ PartSet s t p { x with vpsize := s.args.w &&& 0xFFFFFF }) ∧
    (∀ g a, s.group? s.args.group = some g → (g.frag s.args.frag).hold = .bucket a ∨ (g.frag s.args.frag).hold = .fetch a →
      ∃ t, exec .bucketTransit s = .next t ∧ t.cur.info = g.info ∧ MemKept s t ∧
        (g.tx.opened = true → t.cur.tx.opened = false ∧ t.cur.tx.status = 6 ∧ t.cur.tx.cause = Cause.bucketTransit) ∧
        (g.tx.opened = false → t.cur.state = (if g.state = .parked then .parked else .faulted) ∧
          (t.cur.trap s.args.frag).tcause = Cause.bucketTransit ∧
          (t.cur.trap s.args.frag).taddr = a ∧ (t.cur.trap s.args.frag).tpc = (g.frag s.args.frag).pc ∧
          (t.cur.trap s.args.frag).tmask = (g.frag s.args.frag).done.setWidth 128))

/-! ### Windows, stash lines and subscriptions -/

/-- R73, R86, R91, R98, R100, R105 to R107: windows cleared, a stash line filled, a lent line written back; a batch
that closes, its words applied in order and held at a full word in handoff mode, and the entries of a saved
subscriber. Where the spec leaves a point open, this takes the model's choice (log entries 51, 74 to 76 and 126). -/
def Obligations.SubscriptionSteps : Prop :=
  ∀ (s : State),
    let k := s.args.block
    let n := s.args.n
    (∀ b i g, s.block? k = some b → b.restoring = 0 → (s.core ⟨b.slice, b.core⟩).revoking = [] →
      s.l1Fits ⟨b.slice, b.core⟩ = true → s.group? ⟨k, i⟩ = some g → g.state = .placed → g.f0.hold ≠ .lend → g.f1.hold ≠ .lend →
      ∃ t h, exec .windowClearDone s = .next t ∧ t.mem = s.mem ∧ t.blocks = s.blocks ∧ t.group? ⟨k, i⟩ = some h ∧
        h = { g with gaveUp := false, state := if g.gaveUp then .parked else if g.stopReq then .stopping else .running }) ∧
    (∀ g blk line b0 e, s.group? s.args.group = some g → (g.frag s.args.frag).hold = .fill blk line →
      (g.frag s.args.frag).st = .waitMem → s.resumeAt.block? blk = some b0 → b0.entryAt (64 * line) = some e →
      ∀ tr ppa v c, s.resumeAt.reach Kind.load 64 (e.gbase + BitVec.ofNat 64 (64 * line - e.lbase)) = .mem tr ppa v →
      tr.stash = true → tr.fmt = 0 → v.modeHold v.coreKey v.pid (ppa / 64) (v.homeMode tr ppa) = .none →
      let w := (v.modeCheck v.coreKey v.pid (ppa / 64) (v.homeMode tr ppa)).copiesFor v.pid ppa tr.coh tr.ver
      let r := w.homeRead w.pid tr.key ppa 64 .plain
      r.1.length = 64 → w.block? blk = some c → c.harv = false →
      ∃ t d x, exec .stashFill s = .next t ∧ t.mem = w.mem ∧ t.block? blk = some d ∧
        (∀ j < 64, mget 0 d.win (64 * line + j) = r.1.getD j 0) ∧
        (∀ j, mget false d.winPoison j = if j / 16 = line then r.2 || w.spoilt 4 w.coreKey else mget false c.winPoison j) ∧
        (∀ j, (j < 64 * line ∨ 64 * line + 64 ≤ j) → mget 0 d.win j = mget 0 c.win j) ∧
        oget d.stash line = some x ∧ x.dirty = 0 ∧ x.lent = none ∧ d.tags = c.tags ∧
        (t.cur.frag s.args.frag).st = .ready ∧ point (t.cur.frag s.args.frag) = point (g.frag s.args.frag)) ∧
    (let at_ := s.args.coreKey
     (oget (s.core at_).lend n = none → exec .lendWriteback s = .next s) ∧
     ∀ buf b, oget (s.core at_).lend n = some buf → s.block? buf.block = some b →
      (buf.faulted = true → exec .lendWriteback s = .next s) ∧
      (let a : Ask := ⟨buf.block.part, b.ctx, Kind.store, false⟩
       let gva := b.hback + BitVec.ofNat 64 (64 * buf.line)
       buf.faulted = false →
       (∀ bs f v, s.writeDirty a gva buf.data buf.dirty = .ok bs f v →
         ∃ t, exec .lendWriteback s = .next t ∧ t.mem = v.mem ∧ oget (t.core at_).lend n = none) ∧
       ∀ c d v, s.writeDirty a gva buf.data buf.dirty = .flt c d v →
         ∃ t, exec .lendWriteback s = .next t ∧ t.mem = v.mem ∧ 
           oget (t.core at_).lend n = some { buf with
             faulted := true
             handle := agentHandle at_.slice at_.core ((v.group? ⟨buf.block, buf.group⟩).elim 0 (·.info.serial.toNat)) } ∧
           (t.slice at_.slice).faults.length = (v.slice at_.slice).faults.length + 1)) ∧
    (∀ b p e i x, s.block? k = some b → oget b.outb n = some e → e.opened = some x → e.unsent = [] → e.st = .active →
      e.marked = false → b.resident = true → e.peer ≠ k → s.block? e.peer = some p → oget p.inb e.peerHandle = some i →
      i.recv.length < 4 →
      ∃ t c q, exec .batchTimeout s = .next t ∧ t = { s with blocks := t.blocks } ∧ t.block? k = some c ∧ t.block? e.peer = some q ∧
        oget c.outb n = some { e with opened := none, closed := e.closed + 1 } ∧
        oget q.inb e.peerHandle = some { i with recv := i.recv ++ [x] } ∧ c.win = b.win ∧ q.win = p.win ∧ q.tags = p.tags) ∧
    (∀ b e x r, s.block? k = some b → oget b.inb n = some e → e.recv = x :: r →
      (b.resident = false ∨ b.exited = true ∨ e.held = true → exec .batchApply s = .next s) ∧
      (b.resident = true → b.exited = false → e.held = false → b.crit = false → e.closing = false → e.peer ≠ k →
        (∀ w ws, x.words.drop e.wordsDone = w :: ws →
          (e.overwrite = false → mget false b.tags w = true → ∃ t c, exec .batchApply s = .next t ∧ t.block? k = some c ∧
            c.win = b.win ∧ c.tags = b.tags ∧ oget c.inb n = some { e with held := true } ∧
            c.waitQ.map (·.off) = b.waitQ.map (·.off) ++ [4 * w]) ∧
          (e.overwrite = true ∨ mget false b.tags w = false → b.waitQ = [] →
            ∃ t c, exec .batchApply s = .next t ∧ t.block? k = some c ∧ oget c.inb n = some { e with wordsDone := e.wordsDone + 1 } ∧
              mget false c.tags w = true ∧ (∀ j, j ≠ w → mget false c.tags j = mget false b.tags j) ∧
              (∀ j < 4, mget 0 c.win (4 * w + j) =
                if x.mask.getLsbD ((4 * w + j) % 64) then mget 0 x.data ((4 * w + j) % 64) else mget 0 b.win (4 * w + j)) ∧
              ∀ j, (j < 4 * w ∨ 4 * w + 4 ≤ j) → mget 0 c.win j = mget 0 b.win j)) ∧
        (x.words.drop e.wordsDone = [] → ∃ t c f, exec .batchApply s = .next t ∧ t.mem = s.mem ∧ t.block? k = some c ∧
          oget c.inb n = some f ∧ f.applied = e.applied + 1 ∧ f.wordsDone = 0 ∧ f.held = false ∧ r.isPrefixOf f.recv = true))) ∧
    (∀ b o p i, s.block? k = some b → oget b.outb n = some o → s.block? o.peer = some p → oget p.inb o.peerHandle = some i →
      (i.st ≠ .switching ∨ o.st ≠ .active → exec .subRedirect s = .next s) ∧
      (i.st = .switching → o.st = .active → s.imageHold k true n ≠ .none → exec .subRedirect s = .next (s.again .subRedirect)) ∧
      (i.st = .switching → o.st = .active → s.imageHold k true n = .none → ∃ t c f, exec .subRedirect s = .next t ∧ t.block? k = some c ∧ oget c.outb n = some f ∧
        f.st = .switching ∧ f.marked = true ∧ f.opened = none ∧ c.win = b.win)) ∧
    (∀ b e p o, s.block? k = some b → oget b.inb n = some e → s.block? e.peer = some p → oget p.outb e.peerHandle = some o →
      (o.marked = false ∨ o.faulted = true ∨ b.image = none → exec .subMark s = .next s) ∧
      (o.marked = true → o.faulted = false → b.image.isSome = true →
        s.imageHold k false n ≠ .none ∨ s.imageHold e.peer true e.peerHandle ≠ .none → exec .subMark s = .next (s.again .subMark)) ∧
      (o.marked = true → o.faulted = false → b.image.isSome = true → s.imageHold k false n = .none →
        s.imageHold e.peer true e.peerHandle = .none → e.recv = [] → o.unsent = [] → e.peer ≠ k →
        ∃ t c q f g, exec .subMark s = .next t ∧ t.block? k = some c ∧ t.block? e.peer = some q ∧ oget c.inb n = some f ∧
          f = { e with st := .memory } ∧ oget q.outb e.peerHandle = some g ∧ g = { o with st := .memory, marked := false })) ∧
    (∀ b o x r p e, s.block? k = some b → oget b.outb n = some o → o.recv = x :: r → s.block? o.peer = some p →
      oget p.inb o.peerHandle = some e →
      (o.toImage = false ∨ o.faulted = true ∨ 8 ≤ e.pending.length ∨ s.imageHold o.peer false o.peerHandle ≠ .none →
        exec .memoryTargetWrite s = .next s) ∧
      (o.toImage = true → o.faulted = false → e.pending.length < 8 → s.imageHold o.peer false o.peerHandle = .none → o.peer ≠ k →
        ((s.imageReady p e o.peerHandle x).1 = .fails ∨ (s.imageReady p e o.peerHandle x).1 = .poisoned → ∃ t c f, exec .memoryTargetWrite s = .next t ∧ t.mem = s.mem ∧ t.block? k = some c ∧
          oget c.outb n = some f ∧ f = { o with faulted := true } ∧
          (t.slice b.slice).faults.length = (s.slice b.slice).faults.length + 1) ∧
        ((s.imageReady p e o.peerHandle x).1 = .ready → o.unsent = [] → b.waitQ = [] → p.waitQ = [] → ∃ t c f, exec .memoryTargetWrite s = .next t ∧
          t.block? k = some c ∧ oget c.outb n = some f ∧ f.recv = r ∧ f.st = o.st ∧ c.win = b.win))) ∧
    (∀ b o p, s.block? k = some b → oget b.outb n = some o → s.block? o.peer = some p →
      (p.restoring ≠ 1 ∨ o.st = .active → exec .subResume s = .next s) ∧
      (p.restoring = 1 → o.st ≠ .active → s.imageHold k true n ≠ .none → exec .subResume s = .next (s.again .subResume)) ∧
      (p.restoring = 1 → o.st ≠ .active → s.imageHold k true n = .none →
        let empty := o.recv = [] ∨ s.listFull o = true
        (o.toImage = false ∨ o.st = .memory ∨ ¬ empty ∨ o.faulted = true → ∃ t c, exec .subResume s = .next t ∧
          (b.image = none → t.mem = s.mem) ∧ t.later = s.later ++ [⟨.subResume, s.args⟩] ∧ t.block? k = some c ∧ c.win = b.win ∧
          oget c.outb n = some (if o.st = .memory then { o with st := .switching } else o)) ∧
        (o.toImage = true → o.st ≠ .memory → empty → o.faulted = false → o.unsent = [] → o.peer ≠ k → ∃ t c, exec .subResume s = .next t ∧
          t.block? k = some c ∧ c.win = b.win ∧ oget c.outb n = some { o with st := .active, recv := [] } ∧
          ∀ i, oget p.inb o.peerHandle = some i → ∃ q, t.block? o.peer = some q ∧
            oget q.inb o.peerHandle = some { i with recv := i.recv ++ o.recv }))) ∧
    (∀ b, s.block? k = some b →
      (b.restoring ≠ 1 ∨ s.allReplied b = false → exec .subReady s = .next s) ∧
      (b.restoring = 1 → s.allReplied b = true →
        s.rangeState k.part (s.imageBase b + b.windowOff) (b.imageSize - b.windowOff) false = .ready →
        ∃ t c, exec .subReady s = .next t ∧ t.mem = s.mem ∧ t.block? k = some c ∧ c.restoring = 2 ∧
          (b.inb = [] → ∀ j < b.localKib * 1024, mget 0 c.win j =
            (s.readRange k.part (s.imageBase b + b.windowOff) (b.localKib * 1024)).getD j 0)))

/-! ### Fault queues, commands, saves and restores -/

/-- R395 to R400, R402: a record is posted and counted, REPLAY and HANDLE take up a posted fault, KILL ends a grid,
STOP and STOP_HOLD reach every group of its gangs, RELEASE returns held ones; a command that finds nothing sets ERR, and one
behind another that is not complete waits for it, but for a KILL, which ends a STOP of its grid, and a REPLAY of an agent.
Where the spec leaves a point open, this takes the model's choice (log entries 87 to 89 and 136). -/
def Obligations.FaultCommands : Prop :=
  ∀ (s : State),
    (let sl := s.args.slice
     let x := s.slice sl
     (s.fqReady sl = false → exec .faultPost s = .next s) ∧
     (s.fqReady sl = true →
       let at_ := x.faultAddr
       let written := fun (t : State) (r : BitVec 512) => (t.slice sl).fqhead = x.fqhead + 1 ∧
         (s.chain x.part.toNat at_ = .none → ∀ j < 64, t.byteAt x.part.toNat 0 (at_ + j) = (bytesOf 64 r).getD j 0)
       (∀ f r, x.faults = f :: r → ∃ t, exec .faultPost s = .next t ∧ (t.slice sl).faults = r ∧ written t f.record) ∧
       (x.faults = [] → s.raisedOn sl = none → exec .faultPost s = .next s) ∧
       ∀ k slot g, x.faults = [] → s.raisedOn sl = some (k, slot) → s.group? k = some g →
         ∃ t h, exec .faultPost s = .next t ∧ written t (g.record slot) ∧ t.group? k = some h ∧
           h = g.setTrap slot { g.trap slot with phase := .posted })) ∧
    (∀ i, ((i = .fcmdReplay ∧ fld s.args.w 6 4 = 0) ∨ i = .fcmdHandle ∨ i = .fcmdStop ∨ i = .fcmdStopHold ∨ i = .fcmdRelease) →
      s.fcmdHeld = true → exec i s = .next (s.again i)) ∧
    ((s.fcmdQueued fun a => a.gva = s.args.gva) = true → exec .fcmdKill s = .next (s.again .fcmdKill)) ∧
    (∀ x, s.part? s.args.part = some x →
      let p := s.args.part
      let first := s.fcmdHeld = false
      let alone := (s.fcmdQueued fun a => a.gva = s.args.gva) = false
      let kind := fld s.args.w 6 4
      let who := s.postedAt p (s.args.w.extractLsb' 32 32)
      let counted := fun (t : State) => ∃ z, t.part? p = some z ∧ z.fstatSeq = x.fstatSeq + 1 ∧ z.fstatErr = x.fstatErr
      let refused := fun (i : Instr) => ∃ t, exec i s = .next t ∧ PartSet s t p { x with fstatErr := true, fstatSeq := x.fstatSeq + 1 }
      (first → kind = 0 → who = none → refused .fcmdReplay) ∧
      (first → kind ≠ 0 ∨ s.args.gva.toNat % 4 ≠ 0 ∨ who = none → refused .fcmdHandle) ∧
      (first → ∀ k slot g, who = some (k, slot) → s.group? k = some g →
        let r := g.trap slot
        let on := fun (h : Group) => (h.trap slot).phase = .none ∧ (h.trap slot).tpc = r.tpc ∧ (h.trap slot).tcause = r.tcause ∧
          (h.frag slot).st = .ready ∧ (h.frag slot).mask = (g.frag slot).mask ∧ h.vregs = g.vregs ∧ h.sregs = g.sregs ∧
          ((g.trap (!slot)).phase = .none → h.state = if g.state = .parked then .parked else if g.stopReq then .stopping else .running)
        (kind = 0 → ∃ t h, exec .fcmdReplay s = .next t ∧ counted t ∧ t.mem = s.mem ∧ t.group? k = some h ∧ on h ∧ h.priv = g.priv ∧
          (h.frag slot).pc = r.tpc ∧ (h.frag slot).done = r.tmask.setWidth 32 ∧ (h.frag slot).beat = r.tbeat ∧
          (h.frag slot).redo = if r.defer then some r.rpc else none) ∧
        (kind = 0 → s.args.gva.toNat % 4 = 0 → ∃ t h, exec .fcmdHandle s = .next t ∧ counted t ∧ t.mem = s.mem ∧ t.group? k = some h ∧
          on h ∧ h.priv = true ∧ (h.frag slot).pc = s.args.gva)) ∧
      (s.liveGrid p = none → (first → refused .fcmdStop ∧ refused .fcmdStopHold ∧ refused .fcmdRelease) ∧
        (alone → s.args.gva ≠ BitVec.allOnes 64 → refused .fcmdKill)) ∧
      (alone → s.args.gva = BitVec.allOnes 64 → x.ckpt = none → refused .fcmdKill) ∧
      ∀ g, s.liveGrid p = some g →
        (∀ u, alone → s.args.gva ≠ BitVec.allOnes 64 → s.killReady p g.handle = (u, false) → exec .fcmdKill s = .next (u.again .fcmdKill)) ∧
        (∀ u, alone → s.args.gva ≠ BitVec.allOnes 64 → s.killReady p g.handle = (u, true) → ∃ t z, exec .fcmdKill s = .next t ∧
          t.mem = s.mem ∧ t.part? p = some z ∧ z.fstatErr = x.fstatErr ∧
          z.fstatSeq = x.fstatSeq + (if g.stopping.isSome = true then 2 else 1) ∧ (∀ y ∈ z.grids, y.handle ≠ g.handle) ∧ (∀ b ∈ t.blocks, b.key.part ≠ p ∨ b.key.grid ≠ g.handle) ∧
          ∀ b ∈ s.blocks, b.key.part = p → b.key.grid = g.handle →
            ∀ y ∈ t.cur :: t.groups, y.info.key.blk = b.key → y.state = .none ∨ (y.killed = true ∧ y.pend = [] ∧
              ∀ slot, (y.frag slot).st ≠ .free → ∃ w ∈ s.cur :: s.groups, w.info.key = y.info.key ∧ w.outlives slot = true ∧
                y.frag slot = { w.frag slot with st := (y.frag slot).st, hold := (y.frag slot).hold })) ∧
        (first → ∀ (i : Instr) (hold : Bool), (i = .fcmdStop ∧ hold = false) ∨ (i = .fcmdStopHold ∧ hold = true) →
          (s.runningGangs p g.handle = [] → ∃ t z y, exec i s = .next t ∧ counted t ∧ t.part? p = some z ∧
            z.grids.find? (·.handle = g.handle) = some y ∧ y.stopping = none ∧ y.held = (g.held || hold)) ∧
          (s.runningGangs p g.handle ≠ [] → ∃ t z y, exec i s = .next t ∧ t.part? p = some z ∧
            z.fstatSeq = x.fstatSeq ∧ z.grids.find? (·.handle = g.handle) = some y ∧ y.stopping = some hold ∧
            ∀ k h, s.group? k = some h → k.blk.part = p → k.blk.grid = g.handle → h.info.gang ∈ s.runningGangs p g.handle →
              h.state ≠ .exited → h.state ≠ .saved → ∃ w, t.group? k = some w ∧ w.stopReq = true)) ∧
        (let held := s.blocks.filter fun b => b.key.part = p && b.key.grid = g.handle && b.heldStop && !b.exited
         (first → held = [] → g.held = false → refused .fcmdRelease) ∧
         (first → held ≠ [] ∨ g.held = true → ∃ t z, exec .fcmdRelease s = .next t ∧ counted t ∧ t.part? p = some z ∧
           (∀ y ∈ z.grids, y.handle = g.handle → y.held = false) ∧
           ∀ b ∈ t.blocks, b.key.part = p → b.key.grid = g.handle → b.heldStop = false))) ∧
    (∀ g, s.group? s.args.group = some g →
      let idle := g.stopReq = false ∨ g.watchdog = true ∨ g.state = .saved ∨ (g.slotAtRest false = true ∧ g.slotAtRest true = true)
      (idle → exec .watchdogExpire s = .next s) ∧
      (¬ idle → ∃ t h, exec .watchdogExpire s = .next t ∧ t.group? s.args.group = some h ∧ h.watchdog = true ∧
        (∀ slot, (g.frag slot).st ≠ .free → (h.frag slot).halted = true) ∧ h.sregs = g.sregs ∧ h.vregs = g.vregs ∧
        (t.slice g.info.slice).faults.length = (s.slice g.info.slice).faults.length + 1))

/-- R87, R104, R401, R404 to R407, R215, R217: a block at rest is saved where the pool has room, a restored one holds
what its image holds, a block whose groups have exited leaves; revocation parks harvest groups, and a resume gives one
a slot. Where the spec leaves a point open, this takes the model's choice (log entries 77 to 79, 91, 94, 123, 126 and
142). -/
def Obligations.SavesAndRestores : Prop :=
  ∀ (s : State),
    let k := s.args.block
    (∀ x, s.part? s.args.part = some x →
      (x.chunks = [] → ∃ t, exec .svpoolWrite s = .next t ∧
        PartSet s t s.args.part { x with svpool := s.args.w &&& 0xFFFFFFFFFFFF0001 }) ∧
      (x.chunks ≠ [] → exec .svpoolWrite s = .next s)) ∧
    (∀ (b : Block) (x : Partition) (i : Instr), s.block? k = some b → s.part? k.part = some x →
      (i = .groupSave ∧ b.harv = false) ∨ (i = .harvestSave ∧ b.harv = true) →
      (b.resident = false ∨ b.exited = true ∨ s.blockStopped b = false ∨ s.matrixIdle b = false → exec i s = .next s) ∧
      (b.resident = true → b.exited = false → s.blockStopped b = true → s.matrixIdle b = true →
        (∀ g ∈ s.cur :: s.groups, g.info.key.blk = k → g.tx.opened = false) → x.svpool.getLsbD 0 = true →
        (freeRun x.chunks (fld x.svpool 63 48) b.imageChunks = none → ∃ t, exec i s = .next t ∧
          PartSet s t k.part { x with svFull := true }) ∧
        ∀ c, freeRun x.chunks (fld x.svpool 63 48) b.imageChunks = some c → s.saveReady b c = true → b.crit = false →
          ∃ t d, exec i s = .next t ∧ t.block? k = some d ∧ d.resident = false ∧ d.image = some (c, b.imageChunks) ∧ d.win = [] ∧
            ∀ n g, s.group? ⟨k, n⟩ = some g → g.state ≠ .none →
              (∀ y ∈ s.cur :: s.groups, y.info.key = ⟨k, n⟩ → y.state ≠ .none → y = g) →
              ∃ h, t.group? ⟨k, n⟩ = some h ∧ h.state = if g.state = .exited then .exited else .saved)) ∧
    (∀ b, s.block? k = some b → b.restoring = 2 → (s.core ⟨b.slice, b.core⟩).revoking = [] → b.image.isSome = true →
      (∀ l ∈ (s.core ⟨b.slice, b.core⟩).l1, l.part = k.part → l.isHc = true) →
      s.rangeState k.part (s.imageBase b) b.imageSize false = .ready →
      (s.imageIntact b = false → exec .restore s = .fault .imageChanged) ∧
      let fits := b.harv = true → b.stash.length ≤ (s.lendable ⟨b.slice, b.core⟩).length
      (s.imageIntact b = true → ¬ fits → exec .restore s = .next (s.again .restore)) ∧
      (s.imageIntact b = true → fits → s.l1Fits ⟨b.slice, b.core⟩ = true → ∃ t d, exec .restore s = .next t ∧ t.mem = s.mem ∧ t.block? k = some d ∧ d.resident = true ∧
        d.restoring = 0 ∧ d.image = none ∧ d.win = b.win ∧
        ∀ n g, s.group? ⟨k, n⟩ = some g → g.state ≠ .none → ∃ h, t.group? ⟨k, n⟩ = some h ∧
          h.state = (if g.state = .exited then .exited else if g.gaveUp then .parked else
            if g.t0.phase ≠ .none ∨ g.t1.phase ≠ .none then .faulted else if g.stopReq then .stopping else .running) ∧
          (∀ j, 1 ≤ j → j < 64 → h.sget j = valOfBytes 64
            (((s.readRange k.part (s.imageBase b + b.groupOff n + 0x180) 512).drop (8 * j)).take 8)) ∧
          h.mode = g.mode ∧ h.flags = g.flags ∧ h.stack = g.stack)) ∧
    (∀ b, s.block? k = some b → (b.exited = true ∨ b.resident = false) → exec .blockExit s = .next s) ∧
    (∀ b x, s.block? k = some b → s.part? k.part = some x → b.exited = false → b.resident = true →
      (∃ g ∈ s.cur :: s.groups, g.info.key.blk = k ∧ g.state ≠ .none) →
      (∀ g ∈ s.cur :: s.groups, g.info.key.blk = k → g.state ≠ .none → g.state = .exited) →
      b.outb = [] → b.crit = false → b.stash = [] → s.exitHold b = false → (∀ c ∈ s.cores, ∀ e ∈ c.lend, e.2.block ≠ k) →
      ∃ t z, exec .blockExit s = .next t ∧ t.block? k = none ∧ t.part? k.part = some z ∧
        (∀ g ∈ t.cur :: t.groups, g.info.key.blk = k → g.state = .none) ∧
        ∀ g, x.grids.find? (·.handle = k.grid) = some g → ∃ y, z.grids.find? (·.handle = k.grid) = some y ∧
          y.exited = g.exited + 1) ∧
    (let c := s.args.coreKey
     (s.args.need = none → ∃ t, exec .revocation s = .next t ∧ t.mem = s.mem ∧
       (t.core c).revoking = (s.core c).revoking ++ (s.harvestOn c).map (·.info.key) ∧
       ∀ g ∈ s.harvestOn c, s.group? g.info.key = some g → ∃ h, t.group? g.info.key = some h ∧
         (g.state = .exited ∨ g.state = .placed → h.state = g.state ∧ h.gaveUp = true) ∧
         (g.state ≠ .exited → g.state ≠ .placed → h.state = .parked)) ∧
     ∃ t, exec .revocationComplete s = .next t ∧ (t.core c).revoking = []) ∧
    (∀ g, s.group? s.args.group = some g →
      (s.canResume g = false → exec .harvestResume s = .next s) ∧
      (s.canResume g = true → g.tx.opened = false →
        let slot := (s.freeSlots g.coreKey fun _ => false).headD 0
        let u := (s.setGroup { g with info := { g.info with slot := slot }, state := g.resumed, ctrs := [] }).trimL1 g.coreKey
        (u.l1Fits g.coreKey = false → exec .harvestResume s = .next (u.setGroup g)) ∧
        (u.l1Fits g.coreKey = true → ∃ t h, exec .harvestResume s = .next t ∧ t.group? s.args.group = some h ∧
        h.info.slot = slot ∧ h.sregs = g.sregs ∧ h.vregs = g.vregs ∧
        h.state = if g.t0.phase ≠ .none ∨ g.t1.phase ≠ .none then .faulted else .running)))

/-! ### Trace, sampling, energy, bring-up and power -/

/-- R409 to R416, R421 to R424, R433: the trace registers, frames and their timers, a round of samples, and the static
energy of an interval. Where the spec leaves a point open, this takes the model's choice (log entries 56, 92, 95 and
120). -/
def Obligations.TraceAndSamples : Prop :=
  ∀ (s : State),
    (let sl := s.args.slice
     let x := s.slice sl
     let now := s.args.w &&& 0x0000FFFFFFFFFFFF
     (∃ t, exec .trctlWrite s = .next t ∧ SliceSet { s with cores := t.cores } t sl { x with trctl := now } ∧
       (∀ k, k.slice ≠ sl → t.core k = s.core k) ∧ ∀ k, k.slice = sl → t.core k = { s.core k with trace := (t.core k).trace } ∧
         let was := x.trctl.getLsbD 0 = true ∧ x.trctl.getLsbD (16 + k.core) = true
         let is := now.getLsbD 0 = true ∧ now.getLsbD (16 + k.core) = true
         ((was ↔ is) → t.core k = s.core k) ∧ (was → ¬ is → FrameHeld (s.core k).trace (t.core k).trace) ∧
         (¬ was → is → (t.core k).trace =
           { (s.core k).trace with first := true, synced := [], outcomes := [], lastStream := none })) ∧
     ∃ t, exec .trbaseWrite s = .next t ∧ SliceSet s t sl
       (if x.trctl.getLsbD 0 then x else { x with trbase := s.args.w &&& 0x0000FFFFFFFFF03F })) ∧
    (let k := s.args.coreKey
     let c := s.core k
     let x := s.slice k.slice
     let a := fld x.trbase 47 12 * 4096 + 64 * (x.trhead.toNat % 2 ^ trLog2 x.trbase)
     let full := (x.trhead - x.trtail).toNat = 2 ^ trLog2 x.trbase
     (c.trace.held = [] ∨ full ∨ x.owner = none → exec .traceFrameWrite s = .next s) ∧
     (∀ p, x.owner = some p → s.rangeState p a 64 true = .waits → exec .traceFrameWrite s = .next s) ∧
     (∀ f r p, c.trace.held = f :: r → f.length = 64 → ¬ full → x.owner = some p → s.rangeState p a 64 true ≠ .waits →
       ∃ t, exec .traceFrameWrite s = .next t ∧ t.cur = s.cur ∧ (t.slice k.slice).trhead = x.trhead + 1 ∧
         (c.trace.loss = 0 → (t.core k).trace = { c.trace with held := r }) ∧
         (c.trace.loss ≠ 0 → r.length ≤ 30 → (t.core k).trace.loss = 0 ∧ (t.core k).trace.synced = [] ∧
           (t.core k).trace.first = true) ∧
         (s.rangeState p a 64 true ≠ .ready → t.mem = s.mem) ∧
         (s.rangeState p a 64 true = .ready → s.chain p a = .none → ∀ j < 64, t.byteAt p 0 (a + j) = f.getD j 0)) ∧
     (∃ t, exec .frameAgeTimer s = .next t ∧ CoreSet s t k { c with trace := (t.core k).trace } ∧
       FrameHeld c.trace (t.core k).trace) ∧
     (∃ t, exec .brFlushTimer s = .next t ∧ t.mem = s.mem ∧ t.cur = s.cur ∧ t.groups = s.groups ∧
       (t.core k).trace.outcomes = [] ∧ (c.trace.outcomes = [] → c.trace.loss = 0 → (t.core k).trace = c.trace) ∧
       let n := c.trace.outcomes.length
       (1 ≤ n → n ≤ 15 → c.trace.lastStream = some c.trace.outcomeStream → c.trace.timeBase = c.trace.outcomeTime →
         c.trace.synced.contains c.trace.outcomeStream = true → RoomFor c.trace (1 + (n + 7) / 8) → ∃ bs : List Byte, bs.length = (n + 7) / 8 ∧
           (t.core k).trace = { c.trace with outcomes := [], frame := c.trace.frame ++ BitVec.ofNat 8 (1 + 16 * n) :: bs } ∧
           ∀ i < n, (bs.getD (i / 8) 0).getLsbD (i % 8) = c.trace.outcomes.getD i false)) ∧
     (∃ t, exec .syncPeriod s = .next t ∧ CoreSet s t k { c with trace := { c.trace with synced := [] } }) ∧
     (x.trctl.getLsbD 0 = false ∨ x.trctl.getLsbD (16 + k.core) = false ∨ x.trctl.getLsbD 2 = false ∨
       (∀ n < 48, s.tracedAt k n = none) → exec .sampleRound s = .next s) ∧
     (∀ d g, x.trctl.getLsbD 0 = true → x.trctl.getLsbD (16 + k.core) = true → x.trctl.getLsbD 2 = true → d < 48 →
       let n := (c.trace.sampleNext + d) % 48
       s.tracedAt k n = some g → (∀ e < d, s.tracedAt k ((c.trace.sampleNext + e) % 48) = none) →
       ∃ t, exec .sampleRound s = .next t ∧ t.mem = s.mem ∧ t.cur = s.cur ∧ t.groups = s.groups ∧
         (t.core k).trace.sampleNext = (n + 1) % 48 ∧
         (g.f1.busy = false → c.trace.outcomes = [] → c.trace.synced.contains (n % 64) = true →
           c.trace.timeBase = s.cycle - x.openedAt → RoomFor c.trace 15 → ∃ bs : List Byte, bs.length = 15 ∧
             (t.core k).trace.frame = c.trace.frame ++ bs ∧ bs.getD 0 0 = 10 ∧ bs.getD 1 0 = BitVec.ofNat 8 n ∧
             (g.state = .exited → bs.getD 2 0 = 9 ∧ ∀ j < 4, bs.getD (6 + j) 0 = 0xFF) ∧
             (g.state ≠ .exited → g.t0.phase ≠ .none → bs.getD 2 0 = 7) ∧
             (g.state = .parked → g.t0.phase = .none → bs.getD 2 0 = 6) ∧
             (g.state ≠ .exited → ∀ j < 4, bs.getD (6 + j) 0 = (g.f0.pc - g.info.kaddr).extractLsb' (8 * j) 8) ∧
             (∀ j < 4, bs.getD (10 + j) 0 = byteOf g.info.key.blk.blk j) ∧ bs.getD 14 0 = BitVec.ofNat 8 g.info.key.grp)) ∧
     (let e := Config.staticEnergy s.free
      let all := s.cur :: s.groups
      ((∀ g ∈ all, g.coreKey = k → g.storeTime = 0) → ∃ t, exec .energyInterval s = .next t ∧
        CoreSet s t k { c with
          ctrs := mset 0 c.ctrs 0x47 (mget 0 c.ctrs 0x47 + BitVec.ofNat 64 ((c.energyFrac + e) / 4096))
          energyFrac := (c.energyFrac + e) % 4096
          storeTime := 0 }) ∧
      ∃ t, exec .energyInterval s = .next t ∧ t.mem = s.mem ∧ t.parts = s.parts ∧ (t.core k).storeTime = 0 ∧ ∀ g ∈ all,
        all.filter (fun y => y.info.key = g.info.key) = [g] → g.coreKey = k → g.storeTime ≠ 0 → g.state ≠ .exited →
          g.state ≠ .none → g.killed = false →
          t.group? g.info.key = some { g with energy := addEnergy g.energy (e * g.storeTime / c.storeTime), storeTime := 0 }))

/-- R39, R456, R457, R460 to R463: power is applied and the partitions of the module configuration form, or every
shutter stays sealed; a function becomes ready; an idle slice enters the deepest state that its partition's tolerance
allows, and returns to S0; the clock moves in steps of 100 MHz; power loss keeps flash and the protected store. Where
the spec leaves a point open, this takes the model's choice (log entries 10 and 122). -/
def Obligations.BringUpAndPower : Prop :=
  ∀ (s : State),
    (s.mtc.on = true → exec .powerOn s = .next s) ∧
    (s.mtc.on = false → s.args.ok = false →
      exec .powerOn s = .next { s with mtc := { s.mtc with on := true, verified := false } }) ∧
    (s.mtc.on = false → s.args.ok = true → ∃ t, exec .powerOn s = .next t ∧ t.mtc.on = true ∧ t.mtc.verified = true ∧
      ∀ x ∈ s.parts, x ∈ t.parts) ∧
    (s.mtc.on = false ∨ s.mtc.verified = true ∨ s.args.ok = false → exec .bootImageLoad s = .next s) ∧
    (s.mtc.on = true → s.mtc.verified = false → s.args.ok = true → ∃ t, exec .bootImageLoad s = .next t ∧
      t.mtc.on = true ∧ t.mtc.verified = true ∧ ∀ x ∈ s.parts, x ∈ t.parts) ∧
    (s.mtc.on = false → exec .readiness s = .next s) ∧
    (s.mtc.on = true → ∃ t, exec .readiness s = .next t ∧ t.mem = s.mem ∧
      Woken s t (fun _ h => (∃ n, h = .ready n) ∨ h = .walk) ∧
      (∀ sl b, s.args.ready = .slice sl b → t.parts = s.parts ∧ t.slice sl = { s.slice sl with srdy := (s.slice sl).srdy ||| 1#6 <<< b } ∧
        ∀ j, j ≠ sl → t.slice j = s.slice j) ∧
      ∀ p b x, s.args.ready = .part p b → s.part? p = some x → t.slices = s.slices ∧
        t.part? p = some { x with prdy := x.prdy ||| 1#4 <<< b }) ∧
    (let sl := s.args.slice
     let x := s.slice sl
     let tol := fld (s.part x.part.toNat).ltol 31 0
     let deep := if tol < 1000 then 0 else if tol < 20000 then 1 else if tol < 150000 then 2 else 3
     (x.shutter = 0 ∨ deep ≤ x.power.toNat ∨ x.waking = true ∨ s.idleSlice sl = false → exec .powerStateEnter s = .next s) ∧
     (x.shutter ≠ 0 → x.power.toNat < deep → x.waking = false → s.idleSlice sl = true →
       ∃ t, exec .powerStateEnter s = .next t ∧
       t.mem = s.mem ∧ t.parts = s.parts ∧ t.cur = s.cur ∧ t.groups = s.groups ∧ (t.slice sl).power.toNat = deep ∧
       ∀ k, (t.core k).l1 = (s.core k).l1 ∧
         (k.slice = sl ∧ 20000 ≤ tol → (t.core k).bslots = [] ∧ (t.core k).tslots = []) ∧
         (k.slice ≠ sl ∨ tol < 20000 → (t.core k).bslots = (s.core k).bslots ∧ (t.core k).tslots = (s.core k).tslots)) ∧
     (∃ t, exec .powerWake s = .next t ∧ SliceSet s t sl { x with waking := x.waking || decide (x.power ≠ 0) }) ∧
     (x.waking = false → exec .wakeComplete s = .next s) ∧
     (x.waking = true → ∃ t, exec .wakeComplete s = .next t ∧ t.mem = s.mem ∧ t.parts = s.parts ∧ (t.slice sl).power = 0 ∧
       (t.slice sl).waking = false ∧ Woken s t (fun _ h => h = .ready sl ∨ h = .walk))) ∧
    (let old := s.mtc.clock
     let new := if s.args.hot then (if 100 < old then old - 100 else old) else min 1900 (old + 100)
     (new = old ∨ s.mtc.on = false → exec .thermalStep s = .next s) ∧
     (new ≠ old → s.mtc.on = true → ∃ t, exec .thermalStep s = .next t ∧ t.mtc = { s.mtc with clock := new } ∧ t.mem = s.mem ∧ t.parts = s.parts ∧
       t.cur = s.cur ∧ t.groups = s.groups ∧ ∀ y, s.slices.filter (fun y => y.shutter ≠ 0) = [y] → s.slice y.id = y →
         let e := mget 0 (s.part y.part.toNat).irt (16 * y.id + 6)
         e.getLsbD 7 = true → fld e 18 8 ≠ 0 →
           (t.hcore (fld e 3 0) (fld e 6 4)).imsic = (s.hcore (fld e 3 0) (fld e 6 4)).imsic ++ [fld e 18 8])) ∧
    ∃ t, exec .powerLoss s = .next t ∧ t.mem = [] ∧ t.parts = [] ∧ t.blocks = [] ∧ t.groups = [] ∧ t.mtc.on = false ∧
      t.mtc.attest = s.holdUp.mtc.attest ∧ t.mtc.flash = s.holdUp.mtc.flash ∧
      ((∀ x ∈ s.parts, ∀ r ∈ x.flReqs, r.op ≠ 2) → t.mtc.flash = s.mtc.flash ∧ t.mtc.flashPoison = s.mtc.flashPoison ∧
        t.mtc.attest = s.mtc.attest)

/-! ### Ports, engines, checkpoints, the host link and flash -/

/-- R435, R436, R439 to R444, R446: what a port drops, refuses and acknowledges; what PUT, GETREQ, RED and LAUNCH
perform, each once and in order; GETRSP, ACK, NAK and SKIP; retransmission, and a message built again; APPLIED; a change of
the link. Where the spec leaves a point open, this takes the model's choice (log entries 4, 98 to 106, 137, 138 and 153 to
156). -/
def Obligations.PortPackets : Prop :=
  ∀ (s : State) (p : Nat) (x : Partition),
    let sl := s.args.slice
    let y := s.slice sl
    let k := packetOf s
    let peer := k.dpeer.toNat
    let counted := { y with portstat := setFld y.portstat 47 32 (min (fld y.portstat 47 32 + 1) 65535) }
    let live := y.mac.getLsbD 48 = true ∧ y.portstat.getLsbD 0 = true
    let v0 := asked s p
    (∀ i op bit, packetNeeds i = some (op, bit) → s.args.half = false ∨ op = 3 ∨ op.toNat ≥ 6 →
      (y.shutter = 0 → ∃ t, exec i s = .next t ∧ SliceSet s t sl counted) ∧
      (y.shutter ≠ 0 → y.part.toNat = p → s.part? p = some x →
        let ours := s.addressed p sl s.args.frame = true
        let sound := x.netOn = true ∧ k.crc = packetSum k
        (¬ live → exec i s = .next s) ∧
        (live → ¬ ours → ∃ t, exec i s = .next t ∧ SliceSet s t sl counted) ∧
        (live → ours → y.power ≠ 0 → exec i s = .next { s with later := s.later ++ [⟨i, s.args⟩], agenda :=
          if y.waking then s.agenda else s.agenda ++ [⟨.powerWake, { StepArgs.zero with slice := sl, wake := .frame }⟩] }) ∧
        (live → ours → y.power = 0 → ¬ sound → exec i s = .next s) ∧
        (live → ours → y.power = 0 → sound →
          k.ver ≠ 1 ∨ k.op = 0 ∨ 8 < k.op.toNat ∨ k.reserved ≠ 0 ∨ 4096 < k.len.toNat ∨ (k.op ≠ 2 ∧ k.payload.length ≠ k.len.toNat) →
          ∃ t, exec i s = .next t ∧ SliceSet s t sl counted)) ∧
      (Arrives s p x → k.op = op →
        (v0.peerWaits p peer = true → exec i s = .next (v0.again i)) ∧
        ((v0.peerWaits p peer = false ∧ v0.peerEntry p peer = none) ∨ (∃ e, v0.peerEntry p peer = some e ∧
            (fld e 55 32 ≠ k.snode.toNat ∨ ∃ b, bit = some b ∧ e.getLsbD b = false)) →
          ∃ t, exec i s = .next t ∧ OnlyPart v0 t p ∧ (linkOf s t p).performed = (linkOf s s p).performed ∧
            LastSent s t p fun n => n.op = 7 ∧ n.redop = 2 ∧ n.psn = k.psn))) ∧
    (∀ e, Arrives s p x → v0.peerEntry p peer = some e → fld e 55 32 = k.snode.toNat →
      let l := linkOf s s p
      let nak := fun (t : State) (r : BitVec 3) => LastSent s t p fun n => n.op = 7 ∧ n.redop = r ∧ n.psn = k.psn
      let v := received s p e
      let heard := admitted s p
      let write : Ask := ⟨p, fld e 19 8, 5, false⟩
      let refuses := fun (i : Instr) (r : BitVec 3) => ∃ t, exec i s = .next t ∧ Passed s t p ∧ nak t r
      (k.op = 8 → ∃ t, exec .netSkip s = .next t ∧ OnlyPart v0 t p ∧
        (linkOf s t p).window = l.window.filter (fun w => !seqLe w.packet.psn k.ackpsn) ∧
        (l.rxSet = [] → k.psn = l.rxPsn + 1 → (linkOf s t p).rxPsn = k.psn ∧ (linkOf s t p).rxSet = [] ∧
          LastSent s t p fun n => n.op = 6 ∧ n.ackpsn = k.psn ∧ n.msn = l.applied) ∧
        (l.rxSet = [] → k.psn = l.rxPsn + 2 → (linkOf s t p).rxPsn = l.rxPsn ∧ (linkOf s t p).rxSet = [k.psn] ∧
          LastSent s t p fun n => n.op = 7 ∧ n.redop = 1 ∧ n.ackpsn = l.rxPsn)) ∧
      (InTurn s p → k.op = 1 → e.getLsbD 21 = true →
        (∀ c d u, v.translateNow write k.raddr = .flt c d u → refuses .netPut 3) ∧
        (∀ u, v.translateNow write k.raddr = .lost u → refuses .netPut 2) ∧
        ∀ tr ppa u, v.translateNow write k.raddr = .ok tr ppa u →
          ((u.part p).space ppa = .host → (u.part p).hostLinked = false → exec .netPut s = .next u) ∧
          ((u.part p).space ppa = .host → (u.part p).hostLinked = true → ∃ t, exec .netPut s = .next t ∧ Passed s t p ∧
            t.mem = u.mem ∧ t.hostMem = if k.poison then u.hostMem else putHost u.hostMem ppa k.payload) ∧
          ((u.part p).space ppa = .mem → k.payload ≠ [] → InLine ppa k.payload.length → (u.part p).lost ppa = false →
            (u.part p).lost (ppa / 64 * 64) = false → u.memHold p ppa k.raddr true = .none → tr.ver = false →
            u.chain p ppa = .none → ∃ t, exec .netPut s = .next t ∧ Passed s t p ∧ (k.poison = true → t.poisoned p ppa = true) ∧
              (∀ j < k.payload.length, t.byteAt p tr.key (ppa + j) = k.payload.getD j 0) ∧
              (∀ j, j / 64 = ppa / 64 → (j < ppa ∨ ppa + k.payload.length ≤ j) → t.byteAt p tr.key j = u.byteAt p tr.key j) ∧
              ∀ a, a / 64 ≠ pa p ppa / 64 → t.rawByte a = u.rawByte a)) ∧
      (InTurn s p → k.op = 4 → e.getLsbD 21 = true →
        (redOf k = none → ∃ t, exec .netRed s = .next t ∧ Passed s t p ∧ t.mem = v.mem ∧ t.hostMem = v.hostMem) ∧
        ∀ c n, redOf k = some (c, n) →
        (∀ d b u, v.translateNow write k.raddr = .flt d b u → refuses .netRed 3) ∧
        (∀ u, v.translateNow write k.raddr = .lost u → refuses .netRed 2) ∧
        ∀ tr ppa u, v.translateNow write k.raddr = .ok tr ppa u → k.payload.length = n →
          let w := u.recallHc none p (ppa / 64)
          ((u.part p).space ppa = .host → c.op.atHost = false ∨ n < 4 → refuses .netRed 3) ∧
          (∀ z, (u.part p).space ppa = .host → c.op.atHost = true → 4 ≤ n → u.translateNow write k.raddr = .ok tr ppa z →
            (z.part p).space ppa = .host → (z.part p).hostLinked = true → k.poison = false →
            ∃ t, exec .netRed s = .next t ∧ Passed s t p ∧ t.mem = z.mem ∧ t.hostMem = putHost z.hostMem ppa
              (bytesOf n (BitVec.ofNat 64 (c.combine (natOfBytes (u.hostRead ppa n)) (natOfBytes k.payload))))) ∧
          ∀ z, (u.part p).space ppa = .mem → w.translateNow write k.raddr = .ok tr ppa z → (z.part p).space ppa = .mem →
            InLine ppa n → (z.part p).lost ppa = false → (z.part p).lost (ppa / 64 * 64) = false →
            z.memHold p ppa k.raddr true = .none → tr.ver = false → z.chain p ppa = .none → w.chain p ppa = .none →
            (w.anyPoison p ppa n = true → ∃ t, exec .netRed s = .next t ∧ Passed s t p ∧ t.mem = z.mem) ∧
            (w.anyPoison p ppa n = false → ∃ t, exec .netRed s = .next t ∧ Passed s t p ∧
              (∀ j < n, t.byteAt p tr.key (ppa + j) = byteOf (c.combine
                (valueOf (fun i => u.byteAt p tr.key (ppa + i)) n) (valueOf (fun i => k.payload.getD i 0) n)) j) ∧
              (∀ j, j / 64 = ppa / 64 → (j < ppa ∨ ppa + n ≤ j) → t.byteAt p tr.key j = z.byteAt p tr.key j) ∧
              ∀ a, a / 64 ≠ pa p ppa / 64 → t.rawByte a = z.rawByte a)) ∧
      (InTurn s p → k.op = 2 → e.getLsbD 20 = true → l.window.length < 256 →
        ∀ bs u, v.netRead (arrival s p e) k.len.toNat = .ok bs u →
        ∃ t, exec .netGetreq s = .next t ∧ Passed s t p ∧ t.mem = u.mem ∧ (linkOf s t p).psn = l.psn + 1 ∧
          LastSent s t p fun n => n.op = 3 ∧ n.psn = l.psn + 1 ∧ n.msn = k.msn ∧ n.len = k.len ∧ n.payload = bs.map (·.1) ∧
            n.poison = bs.any (·.2)) ∧
      (InTurn s p → k.op = 5 → e.getLsbD 21 = true →
        let q := k.raddr.toNat
        let acl := fld ((v.part p).queue q).entry 319 256
        (k.len ≠ 64 ∨ fld (v.part p).qtbase 57 48 < q ∨ ((v.part p).queue q).en = false → refuses .netLaunch 4) ∧
        (k.len = 64 → q ≤ fld (v.part p).qtbase 57 48 → ((v.part p).queue q).en = true → acl ≠ 0 →
          let v2 := v.readLines p acl 512
          let z := (v2.part p).queue q
          ∀ cap u, v.aclEntry p acl k.snode.toNat = some cap → v2.ringStores p z = .ok () u →
            let ra := (u.part p).rsvAddr q
            let i : W64 := valOfBytes 64 (u.readRange p ra 8)
            u.rangeState p ra 8 true = .ready → (i - z.qrd).toNat < z.size →
            let image := setFld (setFld (valOfBytes 512 k.payload : BitVec 512) 15 0 (i.toNat / z.size % 65536)) 21 20
              (min cap (fld (valOfBytes 512 k.payload : BitVec 512) 21 20))
            ∀ b0 p0 w, (u.readLines p ra 8).gvaWrite ⟨p, z.ctx, 1, false⟩ (z.ring + BitVec.ofNat 64 (64 * (i.toNat % z.size)))
                (bytesOf 64 image) = .ok b0 p0 w → w.chain p ra = .none →
              ∃ t o, exec .netLaunch s = .next t ∧ Passed s t p ∧ t.part? p = some o ∧ t.readMem p 0 ra 8 64 = i + 1 ∧
                (o.queue q).notify = maxW ((w.part p).queue q).notify (i + 1))) ∧
      (k.op = 3 → ∃ t, exec .netGetrsp s = .next t ∧ t.mem = v0.mem ∧
        ((l.msgs.find? (·.msn = k.msn)) = none → t.cores = v0.cores) ∧
        ∀ m r, l.msgs.find? (·.msn = k.msn) = some m → (s.core m.core).eng = some r →
          (linkOf s t p).msgs = l.msgs.filter (·.msn ≠ k.msn) ∧ ∃ o, (t.core m.core).eng = some o ∧ o.req = r.req ∧
            (r.req.gets = true → oget o.got m.msg = some (k.payload, k.poison))) ∧
      (k.op = 6 → l.redo = [] →
        (seqLe k.msn l.aPeer = true → exec .netAck s = .next heard) ∧
        (seqLe k.msn l.aPeer = false → ∃ t, exec .netAck s = .next t ∧ t.mem = heard.mem ∧ (linkOf s t p).aPeer = k.msn ∧
          (∀ m, m ∈ l.msgs → seqLe m.msn k.msn = false → m ∈ (linkOf s t p).msgs) ∧
          ∀ m, m ∈ (linkOf s t p).msgs → m ∈ l.msgs ∧
            (seqLe m.msn k.msn = true → ∃ r, (s.core m.core).eng = some r ∧ r.req.gets = true))) ∧
      (k.op = 6 → seqLe k.msn l.aPeer = true → ∀ w, l.redo = [w] → (linkOf s heard p).window.length < 256 →
        ∀ bs u, heard.rebuild p sl (linkNo s) w = .ok bs u → ∃ t, exec .netAck s = .next t ∧ t.mem = u.mem ∧
          (linkOf s t p).redo = [] ∧ LastSent s t p fun n => n.op = w.packet.op ∧ n.psn = l.psn + 1 ∧ n.msn = w.packet.msn ∧
            n.raddr = w.packet.raddr ∧ n.payload = bs.map (·.1)) ∧
      (k.op = 7 → k.redop = 1 → s.args.half = false → ∃ t, exec .netNak s = .next t ∧
        Resent heard t p sl (linkNo s) (k.ackpsn + 1)) ∧
      (k.op = 7 → k.redop = 1 → ∀ w, (linkOf s heard p).window = [w] → seqLe (k.ackpsn + 1) w.packet.psn = true → w.sends < 16 →
        w.packet.op ≠ 8 → (s.args.half = true ∧ s.args.n = 0) ∨ w.packet.crc ≠ packetSum w.packet → l.redo = [] →
        ∃ t, exec .netNak s = .next t ∧ fld (t.slice sl).portstat 63 48 = min (fld y.portstat 63 48 + 1) 65535 ∧
          ∃ n ∈ (linkOf s t p).out, n.packet.op = 8 ∧ n.packet.psn = w.packet.psn ∧ n.packet.payload = []) ∧
      (k.op = 7 → k.redop ≠ 1 → l.msgs.find? (·.psn = k.psn) = none → exec .netNak s = .next heard) ∧
      (k.op = 7 → k.redop ≠ 1 → ∀ m r, l.msgs.find? (·.psn = k.psn) = some m → m.core.slice ≠ 16 → (s.core m.core).eng = some r →
        ∃ t, exec .netNak s = .next t ∧ t.mem = heard.mem ∧
          (linkOf s t p).msgs = l.msgs.filter (fun z => decide (z.core ≠ m.core) || decide (z.msg < m.msg)) ∧
          (t.core m.core).eng = some { r with status := 2, ended := true, await :=
            if r.ended = true ∧ r.status = 2 then min r.await m.msg else m.msg })) ∧
    (let q := s.args.line
     let l := s.link p sl q
     (∀ i op bit, packetNeeds i = some (op, bit) → op = 1 ∨ op = 2 ∨ op = 4 ∨ op = 5 → s.args.half = true →
       (y.shutter = 0 → exec i s = .next s) ∧
       (y.shutter ≠ 0 → y.part.toNat = p → s.part? p = some x →
         let turn := l.applied + 1 + BitVec.ofNat 32 l.performed.length
         let r := s.readPeer p (q % 65536)
         let found := l.heldMsgs.find? fun h => h.msn = turn && h.op = op
         let passed := fun (t : State) => (t.link p sl q).performed = l.performed ++ [turn] ∧
           (t.link p sl q).heldMsgs = l.heldMsgs.filter fun h => h.msn ≠ turn
         (found = none → exec i s = .next s) ∧
         (∀ h, found = some h →
           ((r.slice sl).power ≠ 0 ∨ r.peerWaits p (q % 65536) = true → exec i s = .next r) ∧
           ((r.slice sl).power = 0 → r.peerWaits p (q % 65536) = false → r.peerEntry p (q % 65536) = none →
             ∃ t, exec i s = .next t ∧ passed t ∧ t.mem = r.mem) ∧
           ∀ e, (r.slice sl).power = 0 → r.peerWaits p (q % 65536) = false → r.peerEntry p (q % 65536) = some e →
             (∀ c d u, op = 1 → r.translateNow ⟨p, fld e 19 8, 5, false⟩ h.raddr = .flt c d u →
               ∃ t, exec i s = .next t ∧ passed t ∧ t.mem = u.mem) ∧
             ∀ tr ppa u, op = 1 → r.translateNow ⟨p, fld e 19 8, 5, false⟩ h.raddr = .ok tr ppa u → (u.part p).space ppa = .mem →
               h.payload ≠ [] → InLine ppa h.payload.length → (u.part p).lost ppa = false →
               (u.part p).lost (ppa / 64 * 64) = false → tr.ver = false → u.chain p ppa = .none →
               (u.memHold p ppa h.raddr true ≠ .none → ∃ t, exec i s = .next t ∧ t.mem = u.mem ∧ t.link p sl q = l) ∧
               (u.memHold p ppa h.raddr true = .none → ∃ t, exec i s = .next t ∧ passed t ∧
                 ∀ j < h.payload.length, t.byteAt p tr.key (ppa + j) = h.payload.getD j 0)))) ∧
     (y.shutter = 0 → exec .retransmitTimeout s = .next s ∧ exec .appliedAdvance s = .next s) ∧
     (y.shutter ≠ 0 → y.part.toNat = p → s.part? p = some x →
       (l.window = [] → l.redo = [] → exec .retransmitTimeout s = .next s) ∧
       (∀ w r, l.window = w :: r → s.args.half = false →
         ∃ t, exec .retransmitTimeout s = .next t ∧ Resent s t p sl q w.packet.psn) ∧
       (l.performed = [] → exec .appliedAdvance s = .next s) ∧
       (l.performed ≠ [] → ∃ t, exec .appliedAdvance s = .next t ∧ OnlyPart s t p ∧ (t.link p sl q).performed = [] ∧
         (t.link p sl q).applied = l.applied + BitVec.ofNat 32 l.performed.length ∧
         (live → x.netOn = true → ∃ n, (t.link p sl q).out = n :: l.out ∧ n.packet.op = 6 ∧ n.packet.ackpsn = l.rxPsn ∧
           n.packet.msn = l.applied + BitVec.ofNat 32 l.performed.length)))) ∧
    ∃ t, exec .linkStateChange s = .next t ∧ t.mem = s.mem ∧ t.parts = s.parts ∧ t.cur = s.cur ∧
      (t.slice sl).portstat.getLsbD 0 = s.args.up ∧ (t.slice sl).portstat.getLsbD 1 = s.args.half ∧
      (t.slice sl).srdy.getLsbD 5 = s.args.up ∧
      (y.shutter ≠ 0 → let r := mget 0 (s.part y.part.toNat).irt (16 * sl + 3)
        r.getLsbD 7 = true → fld r 18 8 ≠ 0 →
          (t.hcore (fld r 3 0) (fld r 6 4)).imsic = (s.hcore (fld r 3 0) (fld r 6 4)).imsic ++ [fld r 18 8])

/-- R122 to R124, R366 to R370, R440, R445, R447 to R449: an engine takes its next request, claims and releases
destination lines, sends messages, completes and stops at a fault; a checkpoint takes its snapshot, places the pieces
of each stripe, and ends once every member's header is acknowledged. Where the spec leaves a point open, this takes
the model's choice (log entries 107 to 116, 132, 134 and 143). -/
def Obligations.EnginesAndCheckpoints : Prop :=
  ∀ (s : State),
    (let k := s.args.coreKey
     let c := s.core k
     (c.eng = none → exec .claim s = .next s ∧ exec .claimRelease s = .next s ∧ exec .engineComplete s = .next s ∧
       exec .engineFault s = .next s ∧ (c.engQ = [] → exec .engineRequestStart s = .next s) ∧
       ∀ q rest, c.engQ = q :: rest → ∃ t z, exec .engineRequestStart s = .next t ∧
         CoreSet s t k { c with engQ := rest, eng := some z } ∧ z.req = q ∧ z.next = 0 ∧ z.todo = [] ∧ z.claims = [] ∧
         z.sent = 0 ∧ z.applied = 0 ∧ z.faulted = false ∧
         (let window := q.op = 4 ∧ (isLocal q.src ∨ isLocal q.dst)
          (window → z.status = 3 ∧ z.ended = true) ∧ (¬ window → z.status = 0 ∧ z.ended = false))) ∧
     ∀ r, c.eng = some r →
       let q := r.req
       let p := q.part
       (q.peer = 0xFFFF ∨ r.ended = true ∨ r.faulted = true ∨ q.messages.length ≤ r.sent → exec .engineRequestStart s = .next s) ∧
       (∀ m rest, q.peer ≠ 0xFFFF → r.ended = false → r.faulted = false → q.messages.drop r.sent = m :: rest →
         ((s.part p).netOn = true → s.peerWaits p q.peer = true →
           exec .engineRequestStart s = .next (s.readPeer p q.peer)) ∧
         (k.slice ≠ 16 → (s.part p).netOn = false → ∃ t, exec .engineRequestStart s = .next t ∧
           CoreSet s t k { c with eng := some { r with status := 2, ended := true, await := r.applied } }) ∧
         (k.slice ≠ 16 → (s.part p).netOn = true → s.peerWaits p q.peer = false → s.peerEntry p q.peer = none →
           ∃ t, exec .engineRequestStart s = .next t ∧
           CoreSet s t k { c with eng := some { r with status := 2, ended := true, await := r.sent } }) ∧
         ∀ e, (s.part p).netOn = true → s.peerWaits p q.peer = false → s.peerEntry p q.peer = some e →
           let sl := portOf (s.part p) e k.slice
           let idx := entryLink q.peer e
           let l := s.link p sl idx
           (256 ≤ l.window.length ∨ 4096 < (l.msn + 1 - l.aPeer).toNat → exec .engineRequestStart s = .next s) ∧
           ∀ bs u, l.window.length < 256 → (l.msn + 1 - l.aPeer).toNat ≤ 4096 →
             (if q.op = 7 then bs = [] ∧ u = s else s.engBytes q (q.srcRow m.1 + BitVec.ofNat 64 m.2.1) m.2.2 = .ok bs u) →
             (u.part? p).isSome = true → (u.part p).netOn = true →
             (u.slice sl).mac.getLsbD 48 = true → (u.slice sl).portstat.getLsbD 0 = true →
             ∃ t f, exec .engineRequestStart s = .next t ∧ t.mem = u.mem ∧ (t.link p sl idx).out = f :: (u.link p sl idx).out ∧
               f.dmac = e.extractLsb' 80 48 ∧ f.dip = e.extractLsb' 128 128 ∧ f.smac = (u.slice sl).mac.extractLsb' 0 48 ∧
               let n := f.packet
               (∀ queue, copyLaunch q.record = some queue → n.op = 5 ∧ n.raddr = BitVec.ofNat 64 queue ∧ n.len = 64) ∧
               (copyLaunch q.record = none → n.op = (if q.op = 7 then 2 else if q.op = 8 then 4 else 1) ∧
                 n.raddr = (if q.op = 7 then q.srcRow m.1 else q.rowAt m.1) + BitVec.ofNat 64 m.2.1 ∧
                 n.len.toNat = m.2.2 % 65536 ∧ (q.op ≠ 7 → n.poison = bs.any (·.2))) ∧
               n.payload = bs.map (·.1) ∧ n.crc = packetSum n ∧
               n.psn = (u.link p sl idx).psn + 1 ∧ n.msn = (u.link p sl idx).msn + 1 ∧
               (t.core k).eng = (u.core k).eng.map fun z =>
                 { z with sent := z.sent + 1, status := if bs.any (·.2) then 1 else z.status }) ∧
       (r.ended = true ∨ r.faulted = true ∨ q.sends = true ∨ isLocal q.dst → exec .claim s = .next s) ∧
       (r.ended = false → r.faulted = false → q.sends = false → ¬ isLocal q.dst →
         (r.todo = [] → r.claims ≠ [] → exec .claim s = .next s) ∧
         (∀ l rest, r.todo = l :: rest →
           let ppa := 64 * l.2
           let took := some { r with todo := rest, claims := r.claims ++ [l] }
           ((s.part p).space ppa = .host → ∃ t, exec .claim s = .next t ∧ CoreSet s t k { c with eng := took }) ∧
           ((s.part p).space ppa ≠ .host → (s.part p).lost ppa = true → ∃ t, exec .claim s = .next t ∧
             CoreSet s t k { c with eng := some { r with status := 1, ended := true } }) ∧
           let full := s.setFull p l.2 = true
           ((s.part p).space ppa ≠ .host → (s.part p).lost ppa = false → s.memHold p ppa 0 true ≠ .none ∨ full →
             exec .claim s = .next (s.knock p ppa)) ∧
           ((s.part p).space ppa ≠ .host → (s.part p).lost ppa = false → s.memHold p ppa 0 true = .none → ¬ full →
             ∃ t, exec .claim s = .next t ∧ t.mem = s.mem ∧ t.parts = s.parts ∧ t.cur = s.cur ∧ (t.core k).eng = took ∧
               (t.slice ((s.part p).home ppa)).claims = (s.slice ((s.part p).home ppa)).claims ++ [(k, p, l.2)] ∧
               ∀ j st, (t.core j).l1At p l.2 ≠ some (.hc p l.2 st))) ∧
         ∀ w u ps u1 ok u2, r.todo = [] → r.claims = [] → s.engWidth q = .ok w u →
           let lines := ((q.destLines w).drop r.next).take 4096
           u.lineAddrs q lines = .ok ps u1 → u1.fmtTest q w lines = .ok ok u2 →
           ∃ t, exec .claim s = .next t ∧ t.mem = u2.mem ∧
             (ok = false → (t.core k).eng = (u2.core k).eng.map fun z => { z with status := 3, ended := true }) ∧
             (ok = true → ∃ ls : List (Nat × Nat), ls.Perm ps ∧ ls.Pairwise (fun a b => a.2 ≤ b.2) ∧
               (t.core k).eng = (u2.core k).eng.map fun z => { z with next := z.next + lines.length, todo := ls })) ∧
       (r.ended = true ∨ r.faulted = true ∨ r.claims.length ≤ s.args.n → exec .claimRelease s = .next s) ∧
       (∀ l rest w u bs u1 tr ppa v, r.ended = false → r.faulted = false → r.claims.drop s.args.n = l :: rest →
         (q.op = 7 → r.awaits l.1 = true → exec .claimRelease s = .next s) ∧
         ((q.op = 7 → r.awaits l.1 = false) → s.engWidth q = .ok w u → u.engLine r w l.1 = .ok bs u1 →
           u1.engXlate q 5 (BitVec.ofNat 64 (64 * l.1)) = .ok tr ppa v →
           (v.part p).space ppa = .mem → ppa % 64 = 0 → (v.part p).lost ppa = false → tr.ver = false → v.chain p ppa = .none →
           let mine := (bs.drop 64).take 64
           let bad := mine.any fun b => (b.getD (0, false)).2
           ∃ t, exec .claimRelease s = .next t ∧ t.parts = v.parts ∧
             (∀ j < 64, t.byteAt p tr.key (ppa + j) = match mine.getD j none with
               | some b => b.1
               | none => v.byteAt p tr.key (ppa + j)) ∧
             (∀ a, a / 64 ≠ pa p ppa / 64 → t.rawByte a = v.rawByte a) ∧ (bad = true → t.poisoned p ppa = true) ∧
             (t.core k).eng = ((v.core k).eng.map fun z =>
               { z.keep l.1 bs with claims := z.claims.filter (· ≠ l), status := if bad then 1 else z.status }) ∧
             (∀ y ∈ t.slices, (k, p, l.2) ∉ y.claims) ∧
             ∀ g ∈ t.cur :: t.groups, g.info.key.blk.part = p → ∀ b, ¬ ((g.frag b).st = .waitMem ∧ (g.frag b).hold = .claim))) ∧
       (r.faulted = true → exec .engineComplete s = .next s) ∧
       (r.faulted = false → r.ended = true ∨ q.sends = true ∨ ¬ isLocal q.dst →
         let word : W64 := BitVec.ofNat 64 (q.cval + r.status * 2 ^ 32)
         let waits := fun (v : State) => ∃ g ∈ v.cur :: v.groups, g.coreKey = k ∧ ∃ b y, (g.frag b).hold = .kick y
         let ended := fun (v t : State) => (t.core k).eng = none ∧ (¬ waits v → (t.core k).engQ = c.engQ) ∧
           (waits v → c.engQ.length < 16 → ∃ y, (t.core k).engQ = c.engQ ++ [y]) ∧
           (r.status = 2 → (t.core k).remdone = BitVec.ofNat 64 (q.sentBytes (min r.applied r.await))) ∧
           (r.status ≠ 2 → (t.core k).remdone = c.remdone) ∧ ∀ y ∈ t.slices, ∀ z ∈ y.claims, z.1 ≠ k
         let xlate := s.engXlate q 5 q.caddr
         let written := fun (o : DevOut) => xlate.devWrite ⟨p, q.ctx, 5, q.priv⟩ q.caddr (bytesOf 8 word) = o
         (s.engDone r = false → q.peer = 0xFFFF ∨ (s.part p).netOn = true → exec .engineComplete s = .next s) ∧
         (s.engDone r = false → q.peer ≠ 0xFFFF → (s.part p).netOn = false → k.slice ≠ 16 →
           ∃ t, exec .engineComplete s = .next t ∧ CoreSet s t k { c with eng := some { r with status := 2, ended := true, await :=
             (if r.ended = true ∧ r.status = 2 then Nat.min r.await r.applied else r.applied) } }) ∧
         (s.engDone r = true → q.caddr = 0 → ∃ t, exec .engineComplete s = .next t ∧ t.mem = s.mem ∧ ended s t) ∧
         (s.engDone r = true → q.caddr ≠ 0 →
           (∀ b x u, written (.ok b x u) → ∃ t, exec .engineComplete s = .next t ∧ t.mem = u.mem ∧ ended u t) ∧
           (∀ cz d u, written (.flt cz d u) → ∃ t, exec .engineComplete s = .next t ∧ t.mem = s.mem ∧ ended s t) ∧
           (∀ u, written (.lost u) → ∃ t, exec .engineComplete s = .next t ∧ t.mem = s.mem ∧ ended s t) ∧
           ∀ u, written (.wait u) → exec .engineComplete s = .next (s.knocked u))) ∧
       (r.faulted = true ∨ r.ended = true → exec .engineFault s = .next s) ∧
       (r.faulted = false → r.ended = false → ∃ t f, exec .engineFault s = .next t ∧ t.mem = s.mem ∧
         (t.core k).eng = some { r with faulted := true } ∧ (t.slice k.slice).faults = (s.slice k.slice).faults ++ [f] ∧
         fld f.record 7 0 = s.args.n % 256 ∧ fld f.record 11 8 = 1 ∧ f.record.extractLsb' 128 64 = s.args.gva ∧
         f.record.extractLsb' 192 64 = s.args.w ∧ f.record.extractLsb' 384 64 = BitVec.ofNat 64 q.group.blk.grid)) ∧
    ∀ x, s.part? s.args.part = some x →
      let p := s.args.part
      (x.ckpt = none → exec .checkpointMemberDone s = .next s ∧ (x.ckWait = false → exec .checkpointStart s = .next s) ∧
        (x.ckWait = true →
         let a := fld s.args.w 47 6 * 64
         let d : BitVec 512 := valOfBytes 512 (s.readRange p a 64)
         let g := fld d 19 16 + 1
         let n := fld d 47 32
         let own := fld d 23 20
         let s1 := s.readLines p a 64
         let s2 := s1.readLines p (a + 64) (256 + 16 * n)
         let ms := (List.range g).map fun i => (valOfBytes 128 (s.readRange p (a + 64 + 16 * i) 16) : BitVec 128)
         let ss := (List.range n).map fun i => (valOfBytes 128 (s.readRange p (a + 320 + 16 * i) 16) : BitVec 128)
         let s3 := (List.range g).foldl (fun s i => if i = own then s else s.readPeer p (fld (ms.getD i 0) 15 0)) s2
         let good := (∀ i < g, s3.memberOk p (i = own) (ms.getD i 0) = true) ∧ ∀ y ∈ ss, fld y 127 106 = 0
         let waits := ∃ i < g, i ≠ own ∧ s3.peerWaits p (fld (ms.getD i 0) 15 0) = true
         let ends := fun (u : State) (n : Nat) => ∃ t c, exec .checkpointStart s = .next t ∧ c.status = n ∧
           PartSet u t p { x with ckpt := some c, ckWait := false }
         let again := fun (u : State) => exec .checkpointStart s = .next (u.again .checkpointStart)
         let more := s1.rangeState p (a + 64) (256 + 16 * n) false
         (s.rangeState p a 64 false = .waits → again (s.knock p a)) ∧
         (s.rangeState p a 64 false ≠ .waits → s.rangeState p a 64 false ≠ .ready →
           ∃ t, exec .checkpointStart s = .next t ∧ PartSet s t p { x with ckWait := false }) ∧
         (s.rangeState p a 64 false = .ready →
           (ckptHeadOk d = false → ends s1 3) ∧
           (ckptHeadOk d = true → more = .waits → again (s1.knockRange p (a + 64) (256 + 16 * n))) ∧
           (ckptHeadOk d = true → more ≠ .waits → more ≠ .ready → ends s1 3) ∧
           (ckptHeadOk d = true → more = .ready →
             (waits → again s3) ∧
             (¬ waits → ¬ good → ends s3 3) ∧
             (¬ waits → good → x.seqLost = true → ends s3 1) ∧
             (¬ waits → good → x.seqLost = false → x.transit 0 = true → again s3) ∧
             (¬ waits → good → x.seqLost = false → x.transit 0 = false → TableFull x x.vclock → ends s3 4) ∧
             (¬ waits → good → x.seqLost = false → x.transit 0 = false → ¬ TableFull x x.vclock → ∃ t y c, exec .checkpointStart s = .next t ∧
               OneMore x y x.vclock ∧ PartSet s3 t p { y with ckpt := some c, ckTs := BitVec.ofNat 48 x.vclock, ckWait := false } ∧
               c.desc = d ∧ c.ts = x.vclock ∧ c.status = 0 ∧ c.piece = 0 ∧ c.taken = 0 ∧ c.todo = [] ∧ c.claims = [] ∧
               c.segments = ss ∧ c.total = (ss.map fun y => fld y 103 64).sum ∧
               c.members = ms.map fun m => (fld m 15 0, m.extractLsb' 64 64)))))) ∧
      ∀ c, x.ckpt = some c →
        let t0 := c.piece / c.pieces
        let n0 := c.piece % c.pieces
        let all := c.stripes * c.pieces
        let goes := c.piece < all ∧ c.faulted = false ∧ c.over = false ∧ s.ckptRoom p c = true
        let at0 := fun (a : W64) => a + BitVec.ofNat 64 (4096 + 4096 * c.piece)
        (¬ goes → exec .checkpointStart s = .next s) ∧
        (∀ a, goes → c.region = some a → c.todo ≠ [] → ∃ t z got rest, exec .checkpointStart s = .next t ∧ t.mem = s.mem ∧
          t.part? p = some z ∧ c.todo = got ++ rest ∧ z.ckpt = some { c with todo := rest, claims := c.claims ++ got } ∧
          (∀ l ∈ got, (ckptClaim, p, l.2) ∈ (t.slice (x.home (64 * l.2))).claims) ∧
          ∀ l r, rest = l :: r → t.memHold p (64 * l.2) 0 true ≠ .none ∨ t.setFull p l.2 = true) ∧
        (∀ a ls u, goes → c.region = some a → c.todo = [] → c.taken ≤ c.piece →
          s.ckptLines p c (at0 a) (64 * Nat.min 64 (all - c.piece)) = .ok ls u → exec .checkpointStart s =
            .next (u.onCkpt p fun c' => { c' with taken := c.piece + Nat.min 64 (all - c.piece), todo := ls })) ∧
        (goes → c.region = none ∨ (c.todo = [] ∧ c.piece < c.taken) →
          ∀ ds u, engMap (fun j s => s.ckptPiece p c (t0 * (c.g - 1) + j) n0) (List.range (c.g - 1)) s = .ok ds u →
            let w := u.ckptPoison p c t0 n0 ds
            let at_ := fun m => if m = t0 % c.g then ds.foldl xorBytes (List.replicate 4096 (0, false))
              else ds.getD ((m + c.g - (t0 % c.g + 1)) % c.g) []
            let ps := (t0 % c.g) :: (List.range (c.g - 1)).map fun j => (t0 % c.g + 1 + j) % c.g
            let order := ps.filter (· = c.self_) ++ ps.filter (· ≠ c.self_)
            ∀ us v, engMap (fun m s => s.ckptWrite p c m (4096 + t0 * c.unit + n0 * 4096) (at_ m)) order w = .ok us v →
              exec .checkpointStart s = .next ((match c.region with
                | some a => v.ckptRelease p (at0 a) 64
                | none => v).onCkpt p fun c => { c with
                  piece := c.piece + 1, status := if (ds.any fun d => d.any (·.2)) && c.status = 0 then 1 else c.status })) ∧
        (let m := s.args.n
         (c.faulted = true → exec .checkpointMemberDone s = .next s) ∧
         (c.faulted = false → c.over = true → ∀ u, s.ckptEnd p c c.status = (u, true) →
           ∃ t z, exec .checkpointMemberDone s = .next t ∧ t.part? p = some z ∧ z.ckpt = none ∧ t.mem = u.mem) ∧
         (c.faulted = false → c.over = true → ∀ u, s.ckptEnd p c c.status = (u, false) →
           exec .checkpointMemberDone s = .next u) ∧
         (c.faulted = false → c.over = false → (c.piece < c.stripes * c.pieces ∨ s.memberQuiet p m = false) →
           exec .checkpointMemberDone s = .next s) ∧
         (c.faulted = false → c.over = false → c.stripes * c.pieces ≤ c.piece → s.memberQuiet p m = true →
           (m ∉ c.headed → s.memberRoom p c m 1 = false → exec .checkpointMemberDone s = .next s) ∧
           (m ∉ c.headed → s.memberRoom p c m 1 = true → ∀ y u, s.ckptHead p c m (bytesOf 8 (c.desc.extractLsb' 192 64) ++ bytesOf 8 (BitVec.ofNat 64 c.ts) ++
               bytesOf 8 (BitVec.ofNat 64 c.total) ++ [BitVec.ofNat 8 c.g, BitVec.ofNat 8 m, BitVec.ofNat 8 (fld c.desc 27 24)] ++
               List.replicate 37 0) = .ok y u →
             exec .checkpointMemberDone s = .next (u.onCkpt p fun c => { c with headed := c.headed ++ [m] })) ∧
           (m ∈ c.headed → (∃ j < c.g, j ≠ m ∧ j ∉ c.done) → ∃ t, exec .checkpointMemberDone s = .next t ∧
             PartSet s t p { x with ckpt := some { c with done := if m ∈ c.done then c.done else c.done ++ [m] } }) ∧
           (m ∈ c.headed → (∀ j < c.g, j = m ∨ j ∈ c.done) → ∀ u,
             (s.onPart p fun y => { y with
               ckpt := some { c with done := if m ∈ c.done then c.done else c.done ++ [m] } }).ckptEnd p c c.status = (u, true) →
             ∃ t z, exec .checkpointMemberDone s = .next t ∧ t.part? p = some z ∧ z.ckpt = none ∧ t.mem = u.mem)))

/-- R450 to R456: the host window, the host's requests and answers, the host link's interrupt; the flash ring, its
requests and their statuses. Where the spec leaves a point open, this takes the model's choice (log entries 117 to
119). -/
def Obligations.HostAndFlash : Prop :=
  ∀ (s : State),
    ((∀ p, Config.linkHolder = some p → s.part? p = none) → exec .hostLinkEvent s = .next s) ∧
    (∀ p x, Config.linkHolder = some p → s.part? p = some x → ∃ t, exec .hostLinkEvent s = .next t ∧
      t = { s with slices := t.slices } ∧ (let e := mget 0 x.irt (16 * x.lowest + 5)
        e.getLsbD 7 = true → fld e 18 8 ≠ 0 →
          (t.hcore (fld e 3 0) (fld e 6 4)).imsic = (s.hcore (fld e 3 0) (fld e 6 4)).imsic ++ [fld e 18 8])) ∧
    ∀ x, s.part? s.args.part = some x →
      let p := s.args.part
      let w := s.args.w
      (let new := w &&& 0x0007FFFFC0000001
       let on := x.hdmwin.getLsbD 0 = true
       let copies := ∃ y ∈ s.slices, ∃ e ∈ y.snoop, e.1 = p
       (x.prdy.getLsbD 1 = false → exec .hdmwinWrite s = .next s) ∧
       (x.prdy.getLsbD 1 = true →
       (on → fld new 50 30 ≠ fld x.hdmwin 50 30 → exec .hdmwinWrite s = .next s) ∧
       (on → fld new 50 30 = fld x.hdmwin 50 30 → new.getLsbD 0 = false → copies →
         ∃ t, exec .hdmwinWrite s = .next t ∧ PartSet s t p { x with hdmStop := true }) ∧
       (on → fld new 50 30 = fld x.hdmwin 50 30 → new.getLsbD 0 = false → ¬ copies →
         ∃ t, exec .hdmwinWrite s = .next t ∧ PartSet s t p { x with hdmwin := new }) ∧
       (¬ on → ∃ t, exec .hdmwinWrite s = .next t ∧
         PartSet s t p { x with hdmwin := if Config.linkHolder = some p then new else new &&& ~~~1 }))) ∧
      (let a := s.args.host.ppa
       let ln := a / 64
       let home := x.home a
       let idle := fun (y : Slice) => (y.snoop.filter fun e => !(e.1 = p && e.2.1 = ln))
       (Config.linkHolder ≠ some p ∨ x.exposed a = false ∨ x.space a ≠ .mem ∨ x.lost a = true → exec .hostRequest s = .next s) ∧
       (Config.linkHolder = some p → x.exposed a = true → x.space a = .mem → x.lost a = false →
         (s.homeHold p a 0 ≠ .none ∨ s.claimed p a = true → exec .hostRequest s = .next ((s.knock p a).again .hostRequest)) ∧
         (s.homeHold p a 0 = .none → s.claimed p a = false →
           (∀ v, s.args.host.store = some v → s.chain p a = .none → s.chain p (a / 64 * 64) = .none → x.lost (a / 64 * 64) = false →
             ∃ t, exec .hostRequest s = .next t ∧ t.cur = s.cur ∧
             (∀ j < 64, t.byteAt p 0 (a / 64 * 64 + j) = v.extractLsb' (8 * j) 8) ∧
             (∀ j st, (t.core j).l1At p ln ≠ some (.hc p ln st)) ∧ (t.slice home).snoop = idle (s.slice home) ∧
             ∀ b, b / 64 ≠ pa p a / 64 → t.rawByte b = s.rawByte b) ∧
           (s.args.host.store = none →
             let full := s.snooped p ln = none ∧ 65536 ≤ (s.slice home).snoop.length
             let bad := s.poisoned p a = true ∨ s.badCopy p ln = true
             let flit := s.spoilt 7 ⟨home, 0⟩
             (s.chain p a = .none → full → ∃ t, exec .hostRequest s = .next t ∧ t.mem = s.mem ∧
               t.later = s.later ++ [⟨.hostRequest, s.args⟩] ∧ ∀ e r, (s.slice home).snoop = e :: r →
                 (s.slice home).snoopOut = none → (t.slice home).snoopOut = some (e.1, e.2.1)) ∧
             (s.chain p a ≠ .none ∨ ¬ full →
               (bad → ∃ t, exec .hostRequest s = .next t ∧ t.mem = s.mem ∧ t.cores = s.cores ∧ Logged t 3 home (some p)) ∧
               (¬ bad → flit = true → exec .hostRequest s = .next (s.received 7 ⟨home, 0⟩)) ∧
               (¬ bad → flit = false → s.chain p a ≠ .none → ∃ t, exec .hostRequest s = .next t ∧ t.mem = s.mem ∧
                 (t.slice home).snoop = (s.slice home).snoop) ∧
               (¬ bad → flit = false → s.chain p a = .none → ∃ t, exec .hostRequest s = .next t ∧ t.mem = s.mem ∧
                 (t.slice home).snoop = idle (s.slice home) ++ [(p, ln, s.args.hot)] ∧
                 ∀ j st, (t.core j).l1At p ln = some (.hc p ln st) → s.args.hot = false ∧ st = .shared)))))) ∧
      (let ln := s.args.line
       let gone := fun (t : State) => ∀ y ∈ t.slices, ∀ e ∈ y.snoop, ¬ (e.1 = p ∧ e.2.1 = ln)
       (s.snooped p ln = none → exec .biResponse s = .next s) ∧
       ∀ e, s.snooped p ln = some e →
         (e.2.2 = false ∨ s.args.data = none → ∃ t, exec .biResponse s = .next t ∧ t.mem = s.mem ∧ gone t ∧
           (x.hdmStop = false → t.parts = s.parts) ∧
           (x.hdmStop = true → (∀ y ∈ s.slices, ∀ e ∈ y.snoop, e.1 = p → e.2.1 = ln) →
             t.part? p = some { x with hdmStop := false, hdmwin := x.hdmwin &&& ~~~1 })) ∧
         ∀ v, e.2.2 = true → s.args.data = some v →
           (s.homeHold p (64 * ln) 0 ≠ .none →
             exec .biResponse s = .next ((s.knock p (64 * ln)).again .biResponse)) ∧
           (s.homeHold p (64 * ln) 0 = .none → x.lost (64 * ln) = false → s.chain p (64 * ln) = .none →
             ∃ t, exec .biResponse s = .next t ∧ gone t ∧
               ∀ j < 64, t.byteAt p 0 (64 * ln + j) = v.extractLsb' (8 * j) 8)) ∧
      (x.prdy.getLsbD 0 = false → exec .fldb s = .next s ∧ exec .flringWrite s = .next s) ∧
      (x.prdy.getLsbD 0 = true →
      (∃ t, exec .fldb s = .next t ∧ PartSet s t p { x with fldb := if x.fldb.toNat < w.toNat then w else x.fldb }) ∧
      (x.flring.getLsbD 0 = false → ∃ t, exec .flringWrite s = .next t ∧
        PartSet s t p { x with flring := w &&& 0xFFFFFFFFFFFFF01F }) ∧
      (x.flring.getLsbD 0 = true → w.getLsbD 0 = true → exec .flringWrite s = .next s) ∧
      (x.flring.getLsbD 0 = true → w.getLsbD 0 = false → ∃ t, exec .flringWrite s = .next t ∧ PartSet s t p
        (if x.flReqs = [] then { x with flring := x.flring &&& ~~~1 } else { x with flStop := true }))) ∧
      (let i := x.flcons.toNat
       let a := x.flAddr i
       (x.flring.getLsbD 0 = false ∨ x.flStop = true ∨ x.prdy.getLsbD 0 = false ∨ x.fldb.toNat ≤ i →
         exec .flashEntryRead s = .next s) ∧
       (x.flReady = true → s.rangeState p a 64 false = .waits → exec .flashEntryRead s = .next (s.knockRange p a 64)) ∧
       (x.flReady = true → s.rangeState p a 64 false = .ready → ∃ t, exec .flashEntryRead s = .next t ∧
         PartSet (s.readLines p a 64) t p { x with flcons := x.flcons + 1, flReqs := x.flReqs ++ [⟨i, valOfBytes 512 (s.readRange p a 64)⟩] }) ∧
       (x.flReady = true → s.rangeState p a 64 false = .poisoned → s.rangeState p (a + 1) 1 true = .ready →
         s.chain p (a + 1) = .none → ∃ t z, exec .flashEntryRead s = .next t ∧ t.part? p = some z ∧ z.flcons = x.flcons + 1 ∧
           z.flReqs = x.flReqs ∧ t.byteAt p 0 (a + 1) = 0x85)) ∧
      (x.flReqs.length ≤ s.args.n → exec .flashComplete s = .next s) ∧
      ∀ r, x.flReqs[s.args.n]? = some r →
        let e := r.entry
        let lba := fld e 111 64
        let count := fld e 23 16 + 1
        let op := fld e 3 0
        let cap := (Config.flashExtent p).toNat
        let reserved := fld e 7 4 ≠ 0 ∨ fld e 31 24 ≠ 0 ∨ fld e 127 112 ≠ 0 ∨ fld e 511 192 ≠ 0 ∨ op = 0 ∨ 4 ≤ op
        let range := cap < lba + count ∨ (op ≠ 3 ∧ fld e 191 128 % 4096 ≠ 0)
        let ask : Ask := ⟨p, fld x.flring 59 48, 4, false⟩
        let at_ := x.flAddr r.index + 1
        ((∃ y ∈ x.flReqs.take s.args.n, y.overlaps r = true) → exec .flashComplete s = .next s) ∧
        ((∀ y ∈ x.flReqs.take s.args.n, y.overlaps r = false) →
          let ends := fun (v : State) (st : Nat) (f : State → Prop) =>
            v.rangeState p at_ 1 true = .ready → v.chain p at_ = .none → (v.part? p = some x) →
              ∃ t z, exec .flashComplete s = .next t ∧ t.part? p = some z ∧ z.flReqs = x.flReqs.eraseIdx s.args.n ∧
                t.byteAt p 0 at_ = BitVec.ofNat 8 (128 + st) ∧ f t
          (reserved → ends s 1 fun t => t.mtc.flash = s.mtc.flash) ∧
          (¬ reserved → range → ends s 2 fun t => t.mtc.flash = s.mtc.flash) ∧
          (¬ reserved → ¬ range → s.args.half = true → ends s 4 fun t => t.mtc.flash = s.mtc.flash) ∧
          (¬ reserved → ¬ range → s.args.half = false →
            (op = 3 → ends s 0 fun t => ∀ b j, j < 4096 → mget 0 t.mtc.flash (flashIx p b j) =
              if lba ≤ b ∧ b < lba + count then 0 else mget 0 s.mtc.flash (flashIx p b j)) ∧
            (op = 1 → ∀ st u, s.flashRead ask r (List.range count) 0 = .ended st u →
              ends u st fun t => t.mtc.flash = s.mtc.flash) ∧
            (op = 1 → ∀ pool u, s.flashRead ask r (List.range count) 0 = .wait pool u →
              exec .flashComplete s = .next (pool.elim (s.knocked u) s.poolFull)) ∧
            (op = 2 → count = 1 → ∀ ls u, engMap (fun i s => s.flashLoad ask (r.buf + BitVec.ofNat 64 (64 * i))) (List.range 64) s =
              .ok ls u → ends u (if ls.flatten.any (·.2) then 5 else 0) fun t =>
                (∀ j < ls.flatten.length, mget 0 t.mtc.flash (flashIx p lba j) = (ls.flatten.getD j (0, false)).1) ∧
                mget false t.mtc.flashPoison (p * 2 ^ 48 + lba) = ls.flatten.any (·.2))))

/-! ### The machine as a whole -/

/-- R244 to R248, R256 to R258: words written out from the spec's encodings decode to the instructions they stand for, an
unassigned major to none, and a literal is read from the word after its instruction. -/
def Obligations.DecodeWords : Prop :=
  (∀ w i, (w, i) ∈ ([(0x00000000, .nop), (0x10080010, .add 4 0 2), (0x17000FFD, .cmpi 3 0x3FD), (0x160A1507, .shifti 5 5 1 7),
      (0x1910203E, .fmacU 8 8 3), (0x1F060850, .cvt 3 2 0x0A), (0x200C1585, .lred 6 5 6 0), (0x28100429, .ld 8 1 2 2 1),
      (0x2F0C08C2, .atomAdd 6 2 3 2), (0x36000282, .txbegin 10), (0x371C3043, .substatOut 7 3), (0x38004142, .arrive 4 5),
      (0x391C4141, .launch 7 4 5), (0x3A111107, .bload 2 2 1 4 7), (0x3B514824, .mma 1 2 5 8 9), (0x3C510540, .accrd 1 8 10 2)]
      : List (W32 × Instr)) → ∀ l : W32, decode w l = .ok ⟨i, false, false, 1⟩) ∧
  (∀ l : W32, decode 0x01000240 l = .ok ⟨.setm 0 9 l, false, false, 2⟩ ∧
    decode 0x2B0A0830 l = .ok ⟨.stx 5 2 3 0 0 l, false, false, 2⟩ ∧ decode 0xFFFFFFFF l = .error .reservedMajor)

/-- R244 to R248, R256 to R258: for every instruction that has words, and every value of W, S and its operands, decoding what
encode gives returns it, and the bytes after it; and a word that decodes to an instruction is the one that encode gives. -/
def Obligations.DecodeEncode : Prop :=
  (∀ (i : Instr) (w s : Bool) (ws : List W32) (rest : List Byte), i.wf = true → encode w s i = some ws →
    decodeBytes (ws.flatMap bytesOfWord ++ rest) = .ok (⟨i, w, s, ws.length⟩, rest)) ∧
  ∀ (x l : W32) (d : Decoded), decode x l = .ok d →
    d.instr.wf = true ∧ encode d.w d.s d.instr = some (if d.words = 2 then [x, l] else [x])

/-- R22, R39, R129, R409, R437, R457, R460: the machine when power has been applied: every slice is sealed, no
partition, group or block exists, memory lists nothing, and the registers hold the values that the spec gives; the
first step is the power-on of the MTC, after which a group placed by `withFetchWord` runs its instruction. Where the
spec leaves a point open, this takes the model's choice (log entries 1, 3, 4 and 10). -/
def Obligations.ResetState : Prop :=
  State.reset.parts = [] ∧ State.reset.blocks = [] ∧ State.reset.groups = [] ∧ State.reset.cur.state = .none ∧
  State.reset.slices.map (·.id) = List.range 16 ∧
  (∀ y ∈ State.reset.slices, y.shutter = 0 ∧ y.mpatrol = 0x1801 ∧ y.trbase = 6 ∧ y.trctl = 0 ∧ y.srdy = 0 ∧ y.merr = 0) ∧
  Memory.wf State.reset.mem = true ∧ (∀ a, State.reset.rawByte a = 0) ∧
  State.reset.mtc.on = false ∧ State.reset.mtc.mlogcnt = 0 ∧ State.reset.mtc.clock = 1900 ∧
  (∀ p, (Partition.reset p).netcfg = 3 <<< 56 ∧ (Partition.reset p).tagto = 30 ∧ (Partition.reset p).vpThresh = 75) ∧
  ∃ t u, State.reset.prepare = .event .powerOn t ∧ t.mem = [] ∧ exec .powerOn t = .next u ∧ step State.reset = .next (t.breakResv u.settle)

/-- R241, R242, R244, R247 to R249: a step of a fragment that can issue runs exec of the instruction that its words
decode to, or, at a W marker with results outstanding, waits for them; around it stand the counters, the trace, what goes on
by itself and the reservations of host cores (`issued`, `settle`, `breakResv`). A step of the device runs exec of that step,
and a fragment whose instruction was held runs that instruction again. Where the spec leaves a point open, this takes the model's choice (log entry 7). -/
def Obligations.StepRunsDecoded : Prop :=
  (∀ (s : State) (pc : W64) (w : W32) (u : State) (d : Decoded), s.fetch 3 pc = .word w u → decode w 0 = .ok d →
    (d.words = 1 → s.fetchInstr pc = .instr d u) ∧
    ∀ (l : W32) (v : State) (d' : Decoded), d.words = 2 → u.fetch 7 (pc + 4) = .word l v → decode w l = .ok d' →
      s.fetchInstr pc = .instr d' v) ∧
  (∀ (s : State) (e : Event) (r : List Event), s.agenda = e :: r →
    let b := { s with agenda := r, args := e.args }
    step s = after (exec e.step b) fun t => b.breakResv t.settle) ∧
  ∀ (s u : State) (sl core pipe : Nat) (c : Cand) (d : Decoded), s.agenda = [] → s.arbiterDue = none →
    s.nextTurn = some (.issue sl core pipe) → pickCand (s.cands sl core pipe) = some c →
    let v := (s.countWaits sl core pipe c).focus c.key
    let pc := (v.cur.frag c.slot).pc
    let runs := fun (i : Instr) (b : State) => step s = after (exec i b) fun t => b.breakResv (b.issued i t).settle
    v.cur.tx.aborting = none →
    (∀ p, (v.cur.frag c.slot).cap = some p →
      runs p.word.instr { v with issue := ⟨c.slot, p.word.w, p.word.s, p.word.words, pc, p.word.instr⟩ }) ∧
    ((v.cur.frag c.slot).cap = none → State.fetchInstr { v with issue := ⟨c.slot, false, false, 1, pc, .nop⟩ } pc = .instr d u →
      u.issue.slot = c.slot → (u.cur.stopReq = true → d.s = false) →
      (u.frag.unwatched = true ∨ ∀ n < 4, (mget 0 (u.part u.pid).dbctl n).getLsbD 0 = false) →
      (u.frag.lead = true → leadStops d = false) →
      let late := ∃ p ∈ u.cur.pend, p.mask &&& u.frag.mask ≠ 0
      (d.w = true → late → ∃ t : State, step s = .next (s.breakResv t.settle) ∧ (t.cur.frag c.slot).st = .waitMem ∧
        (t.cur.frag c.slot).hold = .results ∧ (t.cur.frag c.slot).pc = (u.cur.frag c.slot).pc ∧ t.cur.pend = u.cur.pend ∧
        t.cur.sregs = u.cur.sregs ∧ t.cur.vregs = u.cur.vregs ∧ t.mem = u.mem) ∧
      (d.w = false ∨ ¬ late → u.macroFull d.instr = true → ∃ t : State, step s = .next (s.breakResv t.settle) ∧ t.cur = u.cur ∧
        t.mem = u.mem) ∧
      (d.w = false ∨ ¬ late → u.macroFull d.instr = false → ∃ b, runs d.instr b ∧ b.mem = u.mem ∧ b.blocks = u.blocks ∧
        b.parts = u.parts ∧ b.issue = ⟨c.slot, d.w, d.s, d.words, pc, d.instr⟩ ∧ b.frag.mask = u.frag.mask ∧
        b.frag.pc = u.frag.pc ∧ b.frag.depth = u.frag.depth ∧ b.cur.mode = u.cur.mode ∧ b.cur.stack = u.cur.stack ∧
        b.cur.tx = u.cur.tx ∧ b.cur.sregs = u.cur.sregs ∧ b.cur.vregs = u.cur.vregs ∧ b.cur.flags = u.cur.flags ∧
        b.cur.cc = u.cur.cc ∧ (d.w = false → b.cur.pend = u.cur.pend)))

/-- Every step completes: no instruction and no device step is refused, and the only fault is that of a RESTORE whose image
software has changed, which R406 leaves undefined. -/
def Obligations.EveryStepCompletes : Prop :=
  (∀ (i : Instr) (s : State), (∃ t, exec i s = .next t) ∨ (i = .restore ∧ exec i s = .fault .imageChanged)) ∧
  ∀ (s : State), (∃ t, step s = .next t) ∨ (step s = .fault .imageChanged ∧ ∃ b, s.prepare = .event .restore b)

/-- R102: a fragment that waits for forwarded updates, at a `subflush` or at the end of a gang barrier, goes on as
soon as all of them are applied or their entry is gone: after every step, one that still waits has an update that is
not applied. Where the spec leaves a point open, this takes the model's choice (log entry 55). -/
def Obligations.WaitsEnd : Prop :=
  ∀ (s t : State), step s = .next t → ∀ g ∈ t.cur :: t.groups, ∀ b gs,
    ((g.frag b).hold = .flush gs ∨ (g.frag b).hold = .depart gs) →
    ∃ u ∈ gs, ∃ x e, t.block? u.blk = some x ∧ oget x.outb u.handle = some e ∧ e.appliedN < u.count ∧ e.st ≠ .orphaned
end

