-- ==== Sys2Proof/Laws/Maps.lean ====
section
/-! SUPPORT. Laws of the finite maps, of records found by a key, and of loops over lanes. -/

namespace Sys2Proof.Laws

open Sys2Proof.Machine

variable {α σ : Type}

/-! ### Reading after writing -/

theorem mget_mput (d : α) (k : Nat) (v : α) : ∀ (m : NatMap α) (j : Nat),
    (∀ e ∈ m, e.1 ≠ k) → mget d (mput k v m) j = if k = j then v else mget d m j
  | [], j, _ => by simp [mput, mget]
  | (k', v') :: r, j, h => by
    have hk : k' ≠ k := h (k', v') (by simp)
    have ih := mget_mput d k v r j (fun e he => h e (by simp [he]))
    by_cases hlt : k < k'
    · simp [mput, hlt, mget]
    · simp only [mput, hlt, if_false, mget, ih]
      by_cases h1 : k' = j
      · have : ¬ k = j := by omega
        simp [h1, this]
      · simp [h1]

theorem mget_odel (d : α) (k : Nat) : ∀ (m : NatMap α) (j : Nat),
    mget d (odel m k) j = if k = j then d else mget d m j
  | [], j => by simp [odel, mget]
  | (k', v') :: r, j => by
    have ih := mget_odel d k r j
    by_cases h : k' = k
    · subst h
      have : odel ((k', v') :: r) k' = odel r k' := by simp [odel]
      rw [this, ih]
      by_cases h1 : k' = j <;> simp [mget, h1]
    · have : odel ((k', v') :: r) k = (k', v') :: odel r k := by simp [odel, h]
      rw [this]
      simp only [mget, ih]
      by_cases h1 : k' = j
      · have : ¬ k = j := by omega
        simp [h1, this]
      · simp [h1]

theorem odel_ne (m : NatMap α) (k : Nat) : ∀ e ∈ odel m k, e.1 ≠ k := by
  intro e he
  simpa [odel] using (List.mem_filter.mp he).2

/-- Read after write. -/
theorem mget_mset [DecidableEq α] (d : α) (m : NatMap α) (k j : Nat) (v : α) :
    mget d (mset d m k v) j = if k = j then v else mget d m j := by
  unfold mset
  split
  · rename_i h
    rw [mget_odel, h]
  · rw [mget_mput _ _ _ _ _ (odel_ne m k), mget_odel]
    by_cases h : k = j <;> simp [h]

theorem oget_mput (k : Nat) (v : α) : ∀ (m : NatMap α) (j : Nat),
    (∀ e ∈ m, e.1 ≠ k) → oget (mput k v m) j = if k = j then some v else oget m j
  | [], j, _ => by simp [mput, oget]
  | (k', v') :: r, j, h => by
    have hk : k' ≠ k := h (k', v') (by simp)
    have ih := oget_mput k v r j (fun e he => h e (by simp [he]))
    by_cases hlt : k < k'
    · simp [mput, hlt, oget]
    · simp only [mput, hlt, if_false, oget, ih]
      by_cases h1 : k' = j
      · have : ¬ k = j := by omega
        simp [h1, this]
      · simp [h1]

theorem oget_odel (k : Nat) : ∀ (m : NatMap α) (j : Nat),
    oget (odel m k) j = if k = j then none else oget m j
  | [], j => by simp [odel, oget]
  | (k', v') :: r, j => by
    have ih := oget_odel k r j
    by_cases h : k' = k
    · subst h
      have : odel ((k', v') :: r) k' = odel r k' := by simp [odel]
      rw [this, ih]
      by_cases h1 : k' = j <;> simp [oget, h1]
    · have : odel ((k', v') :: r) k = (k', v') :: odel r k := by simp [odel, h]
      rw [this]
      simp only [oget, ih]
      by_cases h1 : k' = j
      · have : ¬ k = j := by omega
        simp [h1, this]
      · simp [h1]

theorem oget_oset (m : NatMap α) (k j : Nat) (v : α) :
    oget (oset m k v) j = if k = j then some v else oget m j := by
  unfold oset
  rw [oget_mput _ _ _ _ (odel_ne m k), oget_odel]
  by_cases h : k = j <;> simp [h]

/-! ### Canonical form -/

theorem mwfFrom_mono [DecidableEq α] (d : α) : ∀ (m : NatMap α) (lo lo' : Nat),
    lo' ≤ lo → mwfFrom d lo m = true → mwfFrom d lo' m = true
  | [], _, _, _, _ => rfl
  | (k, v) :: r, lo, lo', hle, h => by
    simp only [mwfFrom, Bool.and_eq_true, decide_eq_true_eq] at h ⊢
    exact ⟨⟨by omega, h.1.2⟩, h.2⟩

theorem mwfFrom_filter [DecidableEq α] (d : α) (p : Nat × α → Bool) : ∀ (m : NatMap α) (lo : Nat),
    mwfFrom d lo m = true → mwfFrom d lo (m.filter p) = true
  | [], _, _ => rfl
  | (k, v) :: r, lo, h => by
    simp only [mwfFrom, Bool.and_eq_true, decide_eq_true_eq] at h
    have ih := mwfFrom_filter d p r (k + 1) h.2
    rw [List.filter_cons]
    split
    · simp only [mwfFrom, Bool.and_eq_true, decide_eq_true_eq]
      exact ⟨h.1, ih⟩
    · exact mwfFrom_mono d _ _ _ (by omega) ih

theorem mwfFrom_mput [DecidableEq α] (d : α) (k : Nat) (v : α) (hv : v ≠ d) : ∀ (m : NatMap α) (lo : Nat),
    lo ≤ k → (∀ e ∈ m, e.1 ≠ k) → mwfFrom d lo m = true → mwfFrom d lo (mput k v m) = true
  | [], lo, hlo, _, _ => by simp [mput, mwfFrom, hlo, hv]
  | (k', v') :: r, lo, hlo, hne, h => by
    simp only [mwfFrom, Bool.and_eq_true, decide_eq_true_eq] at h
    have hk : k' ≠ k := hne (k', v') (by simp)
    by_cases hlt : k < k'
    · simp only [mput, hlt, if_true, mwfFrom, Bool.and_eq_true, decide_eq_true_eq]
      exact ⟨⟨hlo, hv⟩, ⟨hlt, h.1.2⟩, h.2⟩
    · simp only [mput, hlt, if_false, mwfFrom, Bool.and_eq_true, decide_eq_true_eq]
      exact ⟨h.1, mwfFrom_mput d k v hv r (k' + 1) (by omega) (fun e he => hne e (by simp [he])) h.2⟩

theorem mwf_filter [DecidableEq α] (d : α) (p : Nat × α → Bool) (m : NatMap α) (h : mwf d m = true) :
    mwf d (m.filter p) = true := mwfFrom_filter d p m 0 h

theorem mwf_odel [DecidableEq α] (d : α) (m : NatMap α) (k : Nat) (h : mwf d m = true) : mwf d (odel m k) = true :=
  mwf_filter d _ m h

/-- A write keeps the canonical form. -/
theorem mwf_mset [DecidableEq α] (d : α) (m : NatMap α) (k : Nat) (v : α) (h : mwf d m = true) :
    mwf d (mset d m k v) = true := by
  unfold mset
  split
  · exact mwf_odel d m k h
  · rename_i hv
    exact mwfFrom_mput d k v hv _ 0 (Nat.zero_le _) (odel_ne m k) (mwf_odel d m k h)

/-- Two canonical maps that read alike are equal. -/
theorem mwfFrom_lt [DecidableEq α] (d : α) : ∀ (m : NatMap α) (lo j : Nat),
    mwfFrom d lo m = true → j < lo → mget d m j = d
  | [], _, _, _, _ => rfl
  | (k, v) :: r, lo, j, h, hj => by
    simp only [mwfFrom, Bool.and_eq_true, decide_eq_true_eq] at h
    have : ¬ k = j := by omega
    simp only [mget, this, if_false]
    exact mwfFrom_lt d r (k + 1) j h.2 (by omega)

theorem mwf_ext [DecidableEq α] (d : α) : ∀ (m n : NatMap α) (lo : Nat),
    mwfFrom d lo m = true → mwfFrom d lo n = true → (∀ j, mget d m j = mget d n j) → m = n
  | [], [], _, _, _, _ => rfl
  | [], (k, v) :: r, lo, _, hn, h => by
    simp only [mwfFrom, Bool.and_eq_true, decide_eq_true_eq] at hn
    have := h k
    simp [mget] at this
    exact absurd this.symm hn.1.2
  | (k, v) :: r, [], lo, hm, _, h => by
    simp only [mwfFrom, Bool.and_eq_true, decide_eq_true_eq] at hm
    have := h k
    simp [mget] at this
    exact absurd this hm.1.2
  | (k, v) :: r, (k', v') :: r', lo, hm, hn, h => by
    simp only [mwfFrom, Bool.and_eq_true, decide_eq_true_eq] at hm hn
    have hkk : k = k' := by
      rcases Nat.lt_trichotomy k k' with hlt | heq | hlt
      · have h1 := h k
        have : ¬ k' = k := by omega
        simp only [mget, if_true, this, if_false] at h1
        rw [mwfFrom_lt d r' (k' + 1) k hn.2 (by omega)] at h1
        exact absurd h1 hm.1.2
      · exact heq
      · have h1 := h k'
        have : ¬ k = k' := by omega
        simp only [mget, if_true, this, if_false] at h1
        rw [mwfFrom_lt d r (k + 1) k' hm.2 (by omega)] at h1
        exact absurd h1.symm hn.1.2
    subst hkk
    have hvv : v = v' := by simpa [mget] using h k
    subst hvv
    have hr : r = r' := mwf_ext d r r' (k + 1) hm.2 hn.2 (by
      intro j
      by_cases hj : k = j
      · rw [mwfFrom_lt d r (k + 1) j hm.2 (by omega), mwfFrom_lt d r' (k + 1) j hn.2 (by omega)]
      · have := h j
        simpa [mget, hj] using this)
    rw [hr]

/-! ### Records found by a key -/

theorem find_upsert_self (p : α → Bool) (x : α) (hx : p x = true) : ∀ (l : List α), (upsert p x l).find? p = some x
  | [] => by simp [upsert, hx]
  | y :: r => by
    unfold upsert
    split
    · simp [hx]
    · rename_i h
      simp [h, find_upsert_self p x hx r]

theorem find_upsert_other (p q : α → Bool) (x : α) (hpq : ∀ y, p y = true → q y = false) (hx : q x = false) :
    ∀ (l : List α), (upsert p x l).find? q = l.find? q
  | [] => by simp [upsert, hx]
  | y :: r => by
    unfold upsert
    split
    · rename_i h
      simp [hx, hpq y h]
    · simp [List.find?_cons, find_upsert_other p q x hpq hx r]

/-! ### Loops -/

theorem forN_succ (n : Nat) (f : Nat → σ → σ) (s : σ) : forN (n + 1) f s = f n (forN n f s) := by
  simp [forN, List.range_succ]

/-- What every pass of a loop keeps, the loop keeps. -/
theorem forN_keeps (P : σ → Prop) (f : Nat → σ → σ) (h : ∀ i s, P s → P (f i s)) :
    ∀ (n : Nat) (s : σ), P s → P (forN n f s)
  | 0, _, hs => hs
  | n + 1, s, hs => by
    rw [forN_succ]
    exact h _ _ (forN_keeps P f h n s hs)

theorem forLanes_keeps (P : σ → Prop) (m : Mask) (f : Nat → σ → σ) (h : ∀ l s, P s → P (f l s)) (s : σ) (hs : P s) :
    P (forLanes m f s) := by
  refine forN_keeps P _ (fun l s hs => ?_) 32 s hs
  split
  · exact h _ _ hs
  · exact hs

theorem foldl_keeps {β : Type} (P : σ → Prop) (f : σ → β → σ) (h : ∀ s b, P s → P (f s b)) :
    ∀ (l : List β) (s : σ), P s → P (l.foldl f s)
  | [], _, hs => hs
  | b :: r, s, hs => foldl_keeps P f h r (f s b) (h s b hs)

/-- A reading that each pass changes only at its own index, by what it puts there. -/
theorem forN_read {β : Type} (f : Nat → σ → σ) (get : Nat → σ → β) (v : Nat → β)
    (hself : ∀ i s, get i (f i s) = v i) (hother : ∀ i j s, j ≠ i → get j (f i s) = get j s) :
    ∀ (n : Nat) (s : σ) (j : Nat), get j (forN n f s) = if j < n then v j else get j s
  | 0, _, _ => by simp [forN]
  | n + 1, s, j => by
    rw [forN_succ]
    by_cases h : j = n
    · subst h
      simp [hself]
    · rw [hother n j _ h, forN_read f get v hself hother n s j]
      have : (j < n + 1) ↔ (j < n) := by omega
      simp [this]

theorem forLanes_read {β : Type} (m : Mask) (f : Nat → σ → σ) (get : Nat → σ → β) (v : Nat → β)
    (hself : ∀ i s, get i (f i s) = v i) (hother : ∀ i j s, j ≠ i → get j (f i s) = get j s) (s : σ) (j : Nat) :
    get j (forLanes m f s) = if m.getLsbD j then v j else get j s := by
  have key : ∀ n, get j (forN n (fun l s => if m.getLsbD l then f l s else s) s) =
      if j < n ∧ m.getLsbD j then v j else get j s := by
    intro n
    induction n with
    | zero => simp [forN]
    | succ n ih =>
      rw [forN_succ]
      by_cases h : j = n
      · subst h
        by_cases hm : m.getLsbD j
        · simp [hm, hself]
        · simp only [hm, Bool.false_eq_true, if_false, and_false] at ih ⊢
          exact ih
      · have e : (j < n + 1 ∧ m.getLsbD j = true) ↔ (j < n ∧ m.getLsbD j = true) := by
          constructor <;> rintro ⟨a, b⟩ <;> exact ⟨by omega, b⟩
        simp only [e]
        split
        · rw [hother n j _ h, ih]
        · exact ih
  have := key 32
  unfold forLanes
  rw [this]
  by_cases hm : m.getLsbD j
  · have : j < 32 := by
      by_contra hge
      rw [BitVec.getLsbD_of_ge m j (by omega)] at hm
      exact absurd hm (by simp)
    simp [hm, this]
  · simp [hm]

theorem maskOf_getLsbD (p : Nat → Bool) (j : Nat) : (maskOf p).getLsbD j = (decide (j < 32) && p j) := by
  unfold maskOf
  have key : ∀ n, n ≤ 32 → ((forN n (fun l (m : Mask) => if p l then m ||| (1#32 <<< l) else m) 0).getLsbD j) =
      (decide (j < n) && p j) := by
    intro n
    induction n with
    | zero => simp [forN]
    | succ n ih =>
      intro hn
      rw [forN_succ]
      have ih := ih (by omega)
      by_cases hp : p n
      · simp only [hp, if_true, BitVec.getLsbD_or, ih, BitVec.getLsbD_shiftLeft]
        by_cases h : j = n
        · subst h
          have : j < 32 := by omega
          simp [hp, this]
        · by_cases hlt : j < n
          · have : j < n + 1 := by omega
            simp [hlt, this]
          · have h1 : ¬ j < n + 1 := by omega
            have h2 : j - n ≠ 0 := by omega
            simp [hlt, h1, h2, BitVec.getLsbD_one]
      · simp only [hp, Bool.false_eq_true, if_false, ih]
        by_cases h : j = n
        · subst h
          simp [hp]
        · have : (j < n + 1) ↔ (j < n) := by omega
          simp [this]
  exact key 32 (by omega)

theorem mem_lanesOf (m : Mask) (l : Nat) : l ∈ lanesOf m ↔ m.getLsbD l = true := by
  unfold lanesOf
  rw [List.mem_filter, List.mem_range]
  constructor
  · exact fun h => h.2
  · intro h
    refine ⟨?_, h⟩
    by_contra hge
    rw [BitVec.getLsbD_of_ge m l (by omega)] at h
    exact absurd h (by simp)

end Sys2Proof.Laws
end

