-- ==== Sys2Proof/Laws/State.lean ====
section
/-! SUPPORT. What each named update of the state leaves as it was, field by field. -/

namespace Sys2Proof.Laws

open Sys2Proof.Machine

variable (s : State) (g : Group)

/-! ### Updates of one field of the state -/

@[simp] theorem onCur_groups (f : Group → Group) : (s.onCur f).groups = s.groups := rfl
@[simp] theorem onCur_blocks (f : Group → Group) : (s.onCur f).blocks = s.blocks := rfl
@[simp] theorem onCur_cores (f : Group → Group) : (s.onCur f).cores = s.cores := rfl
@[simp] theorem onCur_clusters (f : Group → Group) : (s.onCur f).clusters = s.clusters := rfl
@[simp] theorem onCur_slices (f : Group → Group) : (s.onCur f).slices = s.slices := rfl
@[simp] theorem onCur_parts (f : Group → Group) : (s.onCur f).parts = s.parts := rfl
@[simp] theorem onCur_mtc (f : Group → Group) : (s.onCur f).mtc = s.mtc := rfl
@[simp] theorem onCur_mem (f : Group → Group) : (s.onCur f).mem = s.mem := rfl
@[simp] theorem onCur_lineKey (f : Group → Group) : (s.onCur f).lineKey = s.lineKey := rfl
@[simp] theorem onCur_poison (f : Group → Group) : (s.onCur f).poison = s.poison := rfl
@[simp] theorem onCur_stale (f : Group → Group) : (s.onCur f).stale = s.stale := rfl
@[simp] theorem onCur_hostMem (f : Group → Group) : (s.onCur f).hostMem = s.hostMem := rfl
@[simp] theorem onCur_spoiled (f : Group → Group) : (s.onCur f).spoiled = s.spoiled := rfl
@[simp] theorem onCur_issue (f : Group → Group) : (s.onCur f).issue = s.issue := rfl
@[simp] theorem onCur_args (f : Group → Group) : (s.onCur f).args = s.args := rfl
@[simp] theorem onCur_agenda (f : Group → Group) : (s.onCur f).agenda = s.agenda := rfl
@[simp] theorem onCur_later (f : Group → Group) : (s.onCur f).later = s.later := rfl
@[simp] theorem onCur_free (f : Group → Group) : (s.onCur f).free = s.free := rfl
@[simp] theorem onCur_cycle (f : Group → Group) : (s.onCur f).cycle = s.cycle := rfl
@[simp] theorem onCur_refns (f : Group → Group) : (s.onCur f).refns = s.refns := rfl
@[simp] theorem onFrag_groups (f : Frag → Frag) : (s.onFrag f).groups = s.groups := rfl
@[simp] theorem onFrag_blocks (f : Frag → Frag) : (s.onFrag f).blocks = s.blocks := rfl
@[simp] theorem onFrag_cores (f : Frag → Frag) : (s.onFrag f).cores = s.cores := rfl
@[simp] theorem onFrag_clusters (f : Frag → Frag) : (s.onFrag f).clusters = s.clusters := rfl
@[simp] theorem onFrag_slices (f : Frag → Frag) : (s.onFrag f).slices = s.slices := rfl
@[simp] theorem onFrag_parts (f : Frag → Frag) : (s.onFrag f).parts = s.parts := rfl
@[simp] theorem onFrag_mtc (f : Frag → Frag) : (s.onFrag f).mtc = s.mtc := rfl
@[simp] theorem onFrag_mem (f : Frag → Frag) : (s.onFrag f).mem = s.mem := rfl
@[simp] theorem onFrag_lineKey (f : Frag → Frag) : (s.onFrag f).lineKey = s.lineKey := rfl
@[simp] theorem onFrag_poison (f : Frag → Frag) : (s.onFrag f).poison = s.poison := rfl
@[simp] theorem onFrag_stale (f : Frag → Frag) : (s.onFrag f).stale = s.stale := rfl
@[simp] theorem onFrag_hostMem (f : Frag → Frag) : (s.onFrag f).hostMem = s.hostMem := rfl
@[simp] theorem onFrag_spoiled (f : Frag → Frag) : (s.onFrag f).spoiled = s.spoiled := rfl
@[simp] theorem onFrag_issue (f : Frag → Frag) : (s.onFrag f).issue = s.issue := rfl
@[simp] theorem onFrag_args (f : Frag → Frag) : (s.onFrag f).args = s.args := rfl
@[simp] theorem onFrag_agenda (f : Frag → Frag) : (s.onFrag f).agenda = s.agenda := rfl
@[simp] theorem onFrag_later (f : Frag → Frag) : (s.onFrag f).later = s.later := rfl
@[simp] theorem onFrag_free (f : Frag → Frag) : (s.onFrag f).free = s.free := rfl
@[simp] theorem onFrag_cycle (f : Frag → Frag) : (s.onFrag f).cycle = s.cycle := rfl
@[simp] theorem onFrag_refns (f : Frag → Frag) : (s.onFrag f).refns = s.refns := rfl
@[simp] theorem jump_groups (t : W64) : (s.jump t).groups = s.groups := rfl
@[simp] theorem jump_blocks (t : W64) : (s.jump t).blocks = s.blocks := rfl
@[simp] theorem jump_cores (t : W64) : (s.jump t).cores = s.cores := rfl
@[simp] theorem jump_clusters (t : W64) : (s.jump t).clusters = s.clusters := rfl
@[simp] theorem jump_slices (t : W64) : (s.jump t).slices = s.slices := rfl
@[simp] theorem jump_parts (t : W64) : (s.jump t).parts = s.parts := rfl
@[simp] theorem jump_mtc (t : W64) : (s.jump t).mtc = s.mtc := rfl
@[simp] theorem jump_mem (t : W64) : (s.jump t).mem = s.mem := rfl
@[simp] theorem jump_lineKey (t : W64) : (s.jump t).lineKey = s.lineKey := rfl
@[simp] theorem jump_poison (t : W64) : (s.jump t).poison = s.poison := rfl
@[simp] theorem jump_stale (t : W64) : (s.jump t).stale = s.stale := rfl
@[simp] theorem jump_hostMem (t : W64) : (s.jump t).hostMem = s.hostMem := rfl
@[simp] theorem jump_spoiled (t : W64) : (s.jump t).spoiled = s.spoiled := rfl
@[simp] theorem jump_issue (t : W64) : (s.jump t).issue = s.issue := rfl
@[simp] theorem jump_args (t : W64) : (s.jump t).args = s.args := rfl
@[simp] theorem jump_agenda (t : W64) : (s.jump t).agenda = s.agenda := rfl
@[simp] theorem jump_later (t : W64) : (s.jump t).later = s.later := rfl
@[simp] theorem jump_free (t : W64) : (s.jump t).free = s.free := rfl
@[simp] theorem jump_cycle (t : W64) : (s.jump t).cycle = s.cycle := rfl
@[simp] theorem jump_refns (t : W64) : (s.jump t).refns = s.refns := rfl
@[simp] theorem vwrite_groups (n l : Nat) (v : W32) : (s.vwrite n l v).groups = s.groups := rfl
@[simp] theorem vwrite_blocks (n l : Nat) (v : W32) : (s.vwrite n l v).blocks = s.blocks := rfl
@[simp] theorem vwrite_cores (n l : Nat) (v : W32) : (s.vwrite n l v).cores = s.cores := rfl
@[simp] theorem vwrite_clusters (n l : Nat) (v : W32) : (s.vwrite n l v).clusters = s.clusters := rfl
@[simp] theorem vwrite_slices (n l : Nat) (v : W32) : (s.vwrite n l v).slices = s.slices := rfl
@[simp] theorem vwrite_parts (n l : Nat) (v : W32) : (s.vwrite n l v).parts = s.parts := rfl
@[simp] theorem vwrite_mtc (n l : Nat) (v : W32) : (s.vwrite n l v).mtc = s.mtc := rfl
@[simp] theorem vwrite_mem (n l : Nat) (v : W32) : (s.vwrite n l v).mem = s.mem := rfl
@[simp] theorem vwrite_lineKey (n l : Nat) (v : W32) : (s.vwrite n l v).lineKey = s.lineKey := rfl
@[simp] theorem vwrite_poison (n l : Nat) (v : W32) : (s.vwrite n l v).poison = s.poison := rfl
@[simp] theorem vwrite_stale (n l : Nat) (v : W32) : (s.vwrite n l v).stale = s.stale := rfl
@[simp] theorem vwrite_hostMem (n l : Nat) (v : W32) : (s.vwrite n l v).hostMem = s.hostMem := rfl
@[simp] theorem vwrite_spoiled (n l : Nat) (v : W32) : (s.vwrite n l v).spoiled = s.spoiled := rfl
@[simp] theorem vwrite_issue (n l : Nat) (v : W32) : (s.vwrite n l v).issue = s.issue := rfl
@[simp] theorem vwrite_args (n l : Nat) (v : W32) : (s.vwrite n l v).args = s.args := rfl
@[simp] theorem vwrite_agenda (n l : Nat) (v : W32) : (s.vwrite n l v).agenda = s.agenda := rfl
@[simp] theorem vwrite_later (n l : Nat) (v : W32) : (s.vwrite n l v).later = s.later := rfl
@[simp] theorem vwrite_free (n l : Nat) (v : W32) : (s.vwrite n l v).free = s.free := rfl
@[simp] theorem vwrite_cycle (n l : Nat) (v : W32) : (s.vwrite n l v).cycle = s.cycle := rfl
@[simp] theorem vwrite_refns (n l : Nat) (v : W32) : (s.vwrite n l v).refns = s.refns := rfl
@[simp] theorem uwrite_groups (n : Nat) (v : W64) : (s.uwrite n v).groups = s.groups := rfl
@[simp] theorem uwrite_blocks (n : Nat) (v : W64) : (s.uwrite n v).blocks = s.blocks := rfl
@[simp] theorem uwrite_cores (n : Nat) (v : W64) : (s.uwrite n v).cores = s.cores := rfl
@[simp] theorem uwrite_clusters (n : Nat) (v : W64) : (s.uwrite n v).clusters = s.clusters := rfl
@[simp] theorem uwrite_slices (n : Nat) (v : W64) : (s.uwrite n v).slices = s.slices := rfl
@[simp] theorem uwrite_parts (n : Nat) (v : W64) : (s.uwrite n v).parts = s.parts := rfl
@[simp] theorem uwrite_mtc (n : Nat) (v : W64) : (s.uwrite n v).mtc = s.mtc := rfl
@[simp] theorem uwrite_mem (n : Nat) (v : W64) : (s.uwrite n v).mem = s.mem := rfl
@[simp] theorem uwrite_lineKey (n : Nat) (v : W64) : (s.uwrite n v).lineKey = s.lineKey := rfl
@[simp] theorem uwrite_poison (n : Nat) (v : W64) : (s.uwrite n v).poison = s.poison := rfl
@[simp] theorem uwrite_stale (n : Nat) (v : W64) : (s.uwrite n v).stale = s.stale := rfl
@[simp] theorem uwrite_hostMem (n : Nat) (v : W64) : (s.uwrite n v).hostMem = s.hostMem := rfl
@[simp] theorem uwrite_spoiled (n : Nat) (v : W64) : (s.uwrite n v).spoiled = s.spoiled := rfl
@[simp] theorem uwrite_issue (n : Nat) (v : W64) : (s.uwrite n v).issue = s.issue := rfl
@[simp] theorem uwrite_args (n : Nat) (v : W64) : (s.uwrite n v).args = s.args := rfl
@[simp] theorem uwrite_agenda (n : Nat) (v : W64) : (s.uwrite n v).agenda = s.agenda := rfl
@[simp] theorem uwrite_later (n : Nat) (v : W64) : (s.uwrite n v).later = s.later := rfl
@[simp] theorem uwrite_free (n : Nat) (v : W64) : (s.uwrite n v).free = s.free := rfl
@[simp] theorem uwrite_cycle (n : Nat) (v : W64) : (s.uwrite n v).cycle = s.cycle := rfl
@[simp] theorem uwrite_refns (n : Nat) (v : W64) : (s.uwrite n v).refns = s.refns := rfl
@[simp] theorem ccwrite_groups (l : Nat) (c : Codes) : (s.ccwrite l c).groups = s.groups := rfl
@[simp] theorem ccwrite_blocks (l : Nat) (c : Codes) : (s.ccwrite l c).blocks = s.blocks := rfl
@[simp] theorem ccwrite_cores (l : Nat) (c : Codes) : (s.ccwrite l c).cores = s.cores := rfl
@[simp] theorem ccwrite_clusters (l : Nat) (c : Codes) : (s.ccwrite l c).clusters = s.clusters := rfl
@[simp] theorem ccwrite_slices (l : Nat) (c : Codes) : (s.ccwrite l c).slices = s.slices := rfl
@[simp] theorem ccwrite_parts (l : Nat) (c : Codes) : (s.ccwrite l c).parts = s.parts := rfl
@[simp] theorem ccwrite_mtc (l : Nat) (c : Codes) : (s.ccwrite l c).mtc = s.mtc := rfl
@[simp] theorem ccwrite_mem (l : Nat) (c : Codes) : (s.ccwrite l c).mem = s.mem := rfl
@[simp] theorem ccwrite_lineKey (l : Nat) (c : Codes) : (s.ccwrite l c).lineKey = s.lineKey := rfl
@[simp] theorem ccwrite_poison (l : Nat) (c : Codes) : (s.ccwrite l c).poison = s.poison := rfl
@[simp] theorem ccwrite_stale (l : Nat) (c : Codes) : (s.ccwrite l c).stale = s.stale := rfl
@[simp] theorem ccwrite_hostMem (l : Nat) (c : Codes) : (s.ccwrite l c).hostMem = s.hostMem := rfl
@[simp] theorem ccwrite_spoiled (l : Nat) (c : Codes) : (s.ccwrite l c).spoiled = s.spoiled := rfl
@[simp] theorem ccwrite_issue (l : Nat) (c : Codes) : (s.ccwrite l c).issue = s.issue := rfl
@[simp] theorem ccwrite_args (l : Nat) (c : Codes) : (s.ccwrite l c).args = s.args := rfl
@[simp] theorem ccwrite_agenda (l : Nat) (c : Codes) : (s.ccwrite l c).agenda = s.agenda := rfl
@[simp] theorem ccwrite_later (l : Nat) (c : Codes) : (s.ccwrite l c).later = s.later := rfl
@[simp] theorem ccwrite_free (l : Nat) (c : Codes) : (s.ccwrite l c).free = s.free := rfl
@[simp] theorem ccwrite_cycle (l : Nat) (c : Codes) : (s.ccwrite l c).cycle = s.cycle := rfl
@[simp] theorem ccwrite_refns (l : Nat) (c : Codes) : (s.ccwrite l c).refns = s.refns := rfl
@[simp] theorem flwrite_groups (c : Codes) : (s.flwrite c).groups = s.groups := rfl
@[simp] theorem flwrite_blocks (c : Codes) : (s.flwrite c).blocks = s.blocks := rfl
@[simp] theorem flwrite_cores (c : Codes) : (s.flwrite c).cores = s.cores := rfl
@[simp] theorem flwrite_clusters (c : Codes) : (s.flwrite c).clusters = s.clusters := rfl
@[simp] theorem flwrite_slices (c : Codes) : (s.flwrite c).slices = s.slices := rfl
@[simp] theorem flwrite_parts (c : Codes) : (s.flwrite c).parts = s.parts := rfl
@[simp] theorem flwrite_mtc (c : Codes) : (s.flwrite c).mtc = s.mtc := rfl
@[simp] theorem flwrite_mem (c : Codes) : (s.flwrite c).mem = s.mem := rfl
@[simp] theorem flwrite_lineKey (c : Codes) : (s.flwrite c).lineKey = s.lineKey := rfl
@[simp] theorem flwrite_poison (c : Codes) : (s.flwrite c).poison = s.poison := rfl
@[simp] theorem flwrite_stale (c : Codes) : (s.flwrite c).stale = s.stale := rfl
@[simp] theorem flwrite_hostMem (c : Codes) : (s.flwrite c).hostMem = s.hostMem := rfl
@[simp] theorem flwrite_spoiled (c : Codes) : (s.flwrite c).spoiled = s.spoiled := rfl
@[simp] theorem flwrite_issue (c : Codes) : (s.flwrite c).issue = s.issue := rfl
@[simp] theorem flwrite_args (c : Codes) : (s.flwrite c).args = s.args := rfl
@[simp] theorem flwrite_agenda (c : Codes) : (s.flwrite c).agenda = s.agenda := rfl
@[simp] theorem flwrite_later (c : Codes) : (s.flwrite c).later = s.later := rfl
@[simp] theorem flwrite_free (c : Codes) : (s.flwrite c).free = s.free := rfl
@[simp] theorem flwrite_cycle (c : Codes) : (s.flwrite c).cycle = s.cycle := rfl
@[simp] theorem flwrite_refns (c : Codes) : (s.flwrite c).refns = s.refns := rfl
@[simp] theorem defer_groups (ws : List ResWrite) : (s.defer ws).groups = s.groups := rfl
@[simp] theorem defer_blocks (ws : List ResWrite) : (s.defer ws).blocks = s.blocks := rfl
@[simp] theorem defer_cores (ws : List ResWrite) : (s.defer ws).cores = s.cores := rfl
@[simp] theorem defer_clusters (ws : List ResWrite) : (s.defer ws).clusters = s.clusters := rfl
@[simp] theorem defer_slices (ws : List ResWrite) : (s.defer ws).slices = s.slices := rfl
@[simp] theorem defer_parts (ws : List ResWrite) : (s.defer ws).parts = s.parts := rfl
@[simp] theorem defer_mtc (ws : List ResWrite) : (s.defer ws).mtc = s.mtc := rfl
@[simp] theorem defer_mem (ws : List ResWrite) : (s.defer ws).mem = s.mem := rfl
@[simp] theorem defer_lineKey (ws : List ResWrite) : (s.defer ws).lineKey = s.lineKey := rfl
@[simp] theorem defer_poison (ws : List ResWrite) : (s.defer ws).poison = s.poison := rfl
@[simp] theorem defer_stale (ws : List ResWrite) : (s.defer ws).stale = s.stale := rfl
@[simp] theorem defer_hostMem (ws : List ResWrite) : (s.defer ws).hostMem = s.hostMem := rfl
@[simp] theorem defer_spoiled (ws : List ResWrite) : (s.defer ws).spoiled = s.spoiled := rfl
@[simp] theorem defer_issue (ws : List ResWrite) : (s.defer ws).issue = s.issue := rfl
@[simp] theorem defer_args (ws : List ResWrite) : (s.defer ws).args = s.args := rfl
@[simp] theorem defer_agenda (ws : List ResWrite) : (s.defer ws).agenda = s.agenda := rfl
@[simp] theorem defer_later (ws : List ResWrite) : (s.defer ws).later = s.later := rfl
@[simp] theorem defer_free (ws : List ResWrite) : (s.defer ws).free = s.free := rfl
@[simp] theorem defer_cycle (ws : List ResWrite) : (s.defer ws).cycle = s.cycle := rfl
@[simp] theorem defer_refns (ws : List ResWrite) : (s.defer ws).refns = s.refns := rfl
@[simp] theorem mapGroups_blocks (f : Group → Group) : (s.mapGroups f).blocks = s.blocks := rfl
@[simp] theorem mapGroups_cores (f : Group → Group) : (s.mapGroups f).cores = s.cores := rfl
@[simp] theorem mapGroups_clusters (f : Group → Group) : (s.mapGroups f).clusters = s.clusters := rfl
@[simp] theorem mapGroups_slices (f : Group → Group) : (s.mapGroups f).slices = s.slices := rfl
@[simp] theorem mapGroups_parts (f : Group → Group) : (s.mapGroups f).parts = s.parts := rfl
@[simp] theorem mapGroups_mtc (f : Group → Group) : (s.mapGroups f).mtc = s.mtc := rfl
@[simp] theorem mapGroups_mem (f : Group → Group) : (s.mapGroups f).mem = s.mem := rfl
@[simp] theorem mapGroups_lineKey (f : Group → Group) : (s.mapGroups f).lineKey = s.lineKey := rfl
@[simp] theorem mapGroups_poison (f : Group → Group) : (s.mapGroups f).poison = s.poison := rfl
@[simp] theorem mapGroups_stale (f : Group → Group) : (s.mapGroups f).stale = s.stale := rfl
@[simp] theorem mapGroups_hostMem (f : Group → Group) : (s.mapGroups f).hostMem = s.hostMem := rfl
@[simp] theorem mapGroups_spoiled (f : Group → Group) : (s.mapGroups f).spoiled = s.spoiled := rfl
@[simp] theorem mapGroups_issue (f : Group → Group) : (s.mapGroups f).issue = s.issue := rfl
@[simp] theorem mapGroups_args (f : Group → Group) : (s.mapGroups f).args = s.args := rfl
@[simp] theorem mapGroups_agenda (f : Group → Group) : (s.mapGroups f).agenda = s.agenda := rfl
@[simp] theorem mapGroups_later (f : Group → Group) : (s.mapGroups f).later = s.later := rfl
@[simp] theorem mapGroups_free (f : Group → Group) : (s.mapGroups f).free = s.free := rfl
@[simp] theorem mapGroups_cycle (f : Group → Group) : (s.mapGroups f).cycle = s.cycle := rfl
@[simp] theorem mapGroups_refns (f : Group → Group) : (s.mapGroups f).refns = s.refns := rfl
@[simp] theorem setBlock_cur (b : Block) : (s.setBlock b).cur = s.cur := rfl
@[simp] theorem setBlock_groups (b : Block) : (s.setBlock b).groups = s.groups := rfl
@[simp] theorem setBlock_cores (b : Block) : (s.setBlock b).cores = s.cores := rfl
@[simp] theorem setBlock_clusters (b : Block) : (s.setBlock b).clusters = s.clusters := rfl
@[simp] theorem setBlock_slices (b : Block) : (s.setBlock b).slices = s.slices := rfl
@[simp] theorem setBlock_parts (b : Block) : (s.setBlock b).parts = s.parts := rfl
@[simp] theorem setBlock_mtc (b : Block) : (s.setBlock b).mtc = s.mtc := rfl
@[simp] theorem setBlock_mem (b : Block) : (s.setBlock b).mem = s.mem := rfl
@[simp] theorem setBlock_lineKey (b : Block) : (s.setBlock b).lineKey = s.lineKey := rfl
@[simp] theorem setBlock_poison (b : Block) : (s.setBlock b).poison = s.poison := rfl
@[simp] theorem setBlock_stale (b : Block) : (s.setBlock b).stale = s.stale := rfl
@[simp] theorem setBlock_hostMem (b : Block) : (s.setBlock b).hostMem = s.hostMem := rfl
@[simp] theorem setBlock_spoiled (b : Block) : (s.setBlock b).spoiled = s.spoiled := rfl
@[simp] theorem setBlock_issue (b : Block) : (s.setBlock b).issue = s.issue := rfl
@[simp] theorem setBlock_args (b : Block) : (s.setBlock b).args = s.args := rfl
@[simp] theorem setBlock_agenda (b : Block) : (s.setBlock b).agenda = s.agenda := rfl
@[simp] theorem setBlock_later (b : Block) : (s.setBlock b).later = s.later := rfl
@[simp] theorem setBlock_free (b : Block) : (s.setBlock b).free = s.free := rfl
@[simp] theorem setBlock_cycle (b : Block) : (s.setBlock b).cycle = s.cycle := rfl
@[simp] theorem setBlock_refns (b : Block) : (s.setBlock b).refns = s.refns := rfl
@[simp] theorem onBlock_cur (k : BlockKey) (f : Block → Block) : (s.onBlock k f).cur = s.cur := rfl
@[simp] theorem onBlock_groups (k : BlockKey) (f : Block → Block) : (s.onBlock k f).groups = s.groups := rfl
@[simp] theorem onBlock_cores (k : BlockKey) (f : Block → Block) : (s.onBlock k f).cores = s.cores := rfl
@[simp] theorem onBlock_clusters (k : BlockKey) (f : Block → Block) : (s.onBlock k f).clusters = s.clusters := rfl
@[simp] theorem onBlock_slices (k : BlockKey) (f : Block → Block) : (s.onBlock k f).slices = s.slices := rfl
@[simp] theorem onBlock_parts (k : BlockKey) (f : Block → Block) : (s.onBlock k f).parts = s.parts := rfl
@[simp] theorem onBlock_mtc (k : BlockKey) (f : Block → Block) : (s.onBlock k f).mtc = s.mtc := rfl
@[simp] theorem onBlock_mem (k : BlockKey) (f : Block → Block) : (s.onBlock k f).mem = s.mem := rfl
@[simp] theorem onBlock_lineKey (k : BlockKey) (f : Block → Block) : (s.onBlock k f).lineKey = s.lineKey := rfl
@[simp] theorem onBlock_poison (k : BlockKey) (f : Block → Block) : (s.onBlock k f).poison = s.poison := rfl
@[simp] theorem onBlock_stale (k : BlockKey) (f : Block → Block) : (s.onBlock k f).stale = s.stale := rfl
@[simp] theorem onBlock_hostMem (k : BlockKey) (f : Block → Block) : (s.onBlock k f).hostMem = s.hostMem := rfl
@[simp] theorem onBlock_spoiled (k : BlockKey) (f : Block → Block) : (s.onBlock k f).spoiled = s.spoiled := rfl
@[simp] theorem onBlock_issue (k : BlockKey) (f : Block → Block) : (s.onBlock k f).issue = s.issue := rfl
@[simp] theorem onBlock_args (k : BlockKey) (f : Block → Block) : (s.onBlock k f).args = s.args := rfl
@[simp] theorem onBlock_agenda (k : BlockKey) (f : Block → Block) : (s.onBlock k f).agenda = s.agenda := rfl
@[simp] theorem onBlock_later (k : BlockKey) (f : Block → Block) : (s.onBlock k f).later = s.later := rfl
@[simp] theorem onBlock_free (k : BlockKey) (f : Block → Block) : (s.onBlock k f).free = s.free := rfl
@[simp] theorem onBlock_cycle (k : BlockKey) (f : Block → Block) : (s.onBlock k f).cycle = s.cycle := rfl
@[simp] theorem onBlock_refns (k : BlockKey) (f : Block → Block) : (s.onBlock k f).refns = s.refns := rfl
@[simp] theorem setCore_cur (c : Machine.Core) : (s.setCore c).cur = s.cur := rfl
@[simp] theorem setCore_groups (c : Machine.Core) : (s.setCore c).groups = s.groups := rfl
@[simp] theorem setCore_blocks (c : Machine.Core) : (s.setCore c).blocks = s.blocks := rfl
@[simp] theorem setCore_clusters (c : Machine.Core) : (s.setCore c).clusters = s.clusters := rfl
@[simp] theorem setCore_slices (c : Machine.Core) : (s.setCore c).slices = s.slices := rfl
@[simp] theorem setCore_parts (c : Machine.Core) : (s.setCore c).parts = s.parts := rfl
@[simp] theorem setCore_mtc (c : Machine.Core) : (s.setCore c).mtc = s.mtc := rfl
@[simp] theorem setCore_mem (c : Machine.Core) : (s.setCore c).mem = s.mem := rfl
@[simp] theorem setCore_lineKey (c : Machine.Core) : (s.setCore c).lineKey = s.lineKey := rfl
@[simp] theorem setCore_poison (c : Machine.Core) : (s.setCore c).poison = s.poison := rfl
@[simp] theorem setCore_stale (c : Machine.Core) : (s.setCore c).stale = s.stale := rfl
@[simp] theorem setCore_hostMem (c : Machine.Core) : (s.setCore c).hostMem = s.hostMem := rfl
@[simp] theorem setCore_spoiled (c : Machine.Core) : (s.setCore c).spoiled = s.spoiled := rfl
@[simp] theorem setCore_issue (c : Machine.Core) : (s.setCore c).issue = s.issue := rfl
@[simp] theorem setCore_args (c : Machine.Core) : (s.setCore c).args = s.args := rfl
@[simp] theorem setCore_agenda (c : Machine.Core) : (s.setCore c).agenda = s.agenda := rfl
@[simp] theorem setCore_later (c : Machine.Core) : (s.setCore c).later = s.later := rfl
@[simp] theorem setCore_free (c : Machine.Core) : (s.setCore c).free = s.free := rfl
@[simp] theorem setCore_cycle (c : Machine.Core) : (s.setCore c).cycle = s.cycle := rfl
@[simp] theorem setCore_refns (c : Machine.Core) : (s.setCore c).refns = s.refns := rfl
@[simp] theorem onCore_cur (k : CoreKey) (f : Machine.Core → Machine.Core) : (s.onCore k f).cur = s.cur := rfl
@[simp] theorem onCore_groups (k : CoreKey) (f : Machine.Core → Machine.Core) : (s.onCore k f).groups = s.groups := rfl
@[simp] theorem onCore_blocks (k : CoreKey) (f : Machine.Core → Machine.Core) : (s.onCore k f).blocks = s.blocks := rfl
@[simp] theorem onCore_clusters (k : CoreKey) (f : Machine.Core → Machine.Core) : (s.onCore k f).clusters = s.clusters := rfl
@[simp] theorem onCore_slices (k : CoreKey) (f : Machine.Core → Machine.Core) : (s.onCore k f).slices = s.slices := rfl
@[simp] theorem onCore_parts (k : CoreKey) (f : Machine.Core → Machine.Core) : (s.onCore k f).parts = s.parts := rfl
@[simp] theorem onCore_mtc (k : CoreKey) (f : Machine.Core → Machine.Core) : (s.onCore k f).mtc = s.mtc := rfl
@[simp] theorem onCore_mem (k : CoreKey) (f : Machine.Core → Machine.Core) : (s.onCore k f).mem = s.mem := rfl
@[simp] theorem onCore_lineKey (k : CoreKey) (f : Machine.Core → Machine.Core) : (s.onCore k f).lineKey = s.lineKey := rfl
@[simp] theorem onCore_poison (k : CoreKey) (f : Machine.Core → Machine.Core) : (s.onCore k f).poison = s.poison := rfl
@[simp] theorem onCore_stale (k : CoreKey) (f : Machine.Core → Machine.Core) : (s.onCore k f).stale = s.stale := rfl
@[simp] theorem onCore_hostMem (k : CoreKey) (f : Machine.Core → Machine.Core) : (s.onCore k f).hostMem = s.hostMem := rfl
@[simp] theorem onCore_spoiled (k : CoreKey) (f : Machine.Core → Machine.Core) : (s.onCore k f).spoiled = s.spoiled := rfl
@[simp] theorem onCore_issue (k : CoreKey) (f : Machine.Core → Machine.Core) : (s.onCore k f).issue = s.issue := rfl
@[simp] theorem onCore_args (k : CoreKey) (f : Machine.Core → Machine.Core) : (s.onCore k f).args = s.args := rfl
@[simp] theorem onCore_agenda (k : CoreKey) (f : Machine.Core → Machine.Core) : (s.onCore k f).agenda = s.agenda := rfl
@[simp] theorem onCore_later (k : CoreKey) (f : Machine.Core → Machine.Core) : (s.onCore k f).later = s.later := rfl
@[simp] theorem onCore_free (k : CoreKey) (f : Machine.Core → Machine.Core) : (s.onCore k f).free = s.free := rfl
@[simp] theorem onCore_cycle (k : CoreKey) (f : Machine.Core → Machine.Core) : (s.onCore k f).cycle = s.cycle := rfl
@[simp] theorem onCore_refns (k : CoreKey) (f : Machine.Core → Machine.Core) : (s.onCore k f).refns = s.refns := rfl
@[simp] theorem onCluster_cur (i : Nat) (f : Cluster → Cluster) : (s.onCluster i f).cur = s.cur := rfl
@[simp] theorem onCluster_groups (i : Nat) (f : Cluster → Cluster) : (s.onCluster i f).groups = s.groups := rfl
@[simp] theorem onCluster_blocks (i : Nat) (f : Cluster → Cluster) : (s.onCluster i f).blocks = s.blocks := rfl
@[simp] theorem onCluster_cores (i : Nat) (f : Cluster → Cluster) : (s.onCluster i f).cores = s.cores := rfl
@[simp] theorem onCluster_slices (i : Nat) (f : Cluster → Cluster) : (s.onCluster i f).slices = s.slices := rfl
@[simp] theorem onCluster_parts (i : Nat) (f : Cluster → Cluster) : (s.onCluster i f).parts = s.parts := rfl
@[simp] theorem onCluster_mtc (i : Nat) (f : Cluster → Cluster) : (s.onCluster i f).mtc = s.mtc := rfl
@[simp] theorem onCluster_mem (i : Nat) (f : Cluster → Cluster) : (s.onCluster i f).mem = s.mem := rfl
@[simp] theorem onCluster_lineKey (i : Nat) (f : Cluster → Cluster) : (s.onCluster i f).lineKey = s.lineKey := rfl
@[simp] theorem onCluster_poison (i : Nat) (f : Cluster → Cluster) : (s.onCluster i f).poison = s.poison := rfl
@[simp] theorem onCluster_stale (i : Nat) (f : Cluster → Cluster) : (s.onCluster i f).stale = s.stale := rfl
@[simp] theorem onCluster_hostMem (i : Nat) (f : Cluster → Cluster) : (s.onCluster i f).hostMem = s.hostMem := rfl
@[simp] theorem onCluster_spoiled (i : Nat) (f : Cluster → Cluster) : (s.onCluster i f).spoiled = s.spoiled := rfl
@[simp] theorem onCluster_issue (i : Nat) (f : Cluster → Cluster) : (s.onCluster i f).issue = s.issue := rfl
@[simp] theorem onCluster_args (i : Nat) (f : Cluster → Cluster) : (s.onCluster i f).args = s.args := rfl
@[simp] theorem onCluster_agenda (i : Nat) (f : Cluster → Cluster) : (s.onCluster i f).agenda = s.agenda := rfl
@[simp] theorem onCluster_later (i : Nat) (f : Cluster → Cluster) : (s.onCluster i f).later = s.later := rfl
@[simp] theorem onCluster_free (i : Nat) (f : Cluster → Cluster) : (s.onCluster i f).free = s.free := rfl
@[simp] theorem onCluster_cycle (i : Nat) (f : Cluster → Cluster) : (s.onCluster i f).cycle = s.cycle := rfl
@[simp] theorem onCluster_refns (i : Nat) (f : Cluster → Cluster) : (s.onCluster i f).refns = s.refns := rfl
@[simp] theorem setSlice_cur (x : Slice) : (s.setSlice x).cur = s.cur := rfl
@[simp] theorem setSlice_groups (x : Slice) : (s.setSlice x).groups = s.groups := rfl
@[simp] theorem setSlice_blocks (x : Slice) : (s.setSlice x).blocks = s.blocks := rfl
@[simp] theorem setSlice_cores (x : Slice) : (s.setSlice x).cores = s.cores := rfl
@[simp] theorem setSlice_clusters (x : Slice) : (s.setSlice x).clusters = s.clusters := rfl
@[simp] theorem setSlice_parts (x : Slice) : (s.setSlice x).parts = s.parts := rfl
@[simp] theorem setSlice_mtc (x : Slice) : (s.setSlice x).mtc = s.mtc := rfl
@[simp] theorem setSlice_mem (x : Slice) : (s.setSlice x).mem = s.mem := rfl
@[simp] theorem setSlice_lineKey (x : Slice) : (s.setSlice x).lineKey = s.lineKey := rfl
@[simp] theorem setSlice_poison (x : Slice) : (s.setSlice x).poison = s.poison := rfl
@[simp] theorem setSlice_stale (x : Slice) : (s.setSlice x).stale = s.stale := rfl
@[simp] theorem setSlice_hostMem (x : Slice) : (s.setSlice x).hostMem = s.hostMem := rfl
@[simp] theorem setSlice_spoiled (x : Slice) : (s.setSlice x).spoiled = s.spoiled := rfl
@[simp] theorem setSlice_issue (x : Slice) : (s.setSlice x).issue = s.issue := rfl
@[simp] theorem setSlice_args (x : Slice) : (s.setSlice x).args = s.args := rfl
@[simp] theorem setSlice_agenda (x : Slice) : (s.setSlice x).agenda = s.agenda := rfl
@[simp] theorem setSlice_later (x : Slice) : (s.setSlice x).later = s.later := rfl
@[simp] theorem setSlice_free (x : Slice) : (s.setSlice x).free = s.free := rfl
@[simp] theorem setSlice_cycle (x : Slice) : (s.setSlice x).cycle = s.cycle := rfl
@[simp] theorem setSlice_refns (x : Slice) : (s.setSlice x).refns = s.refns := rfl
@[simp] theorem onSlice_cur (i : Nat) (f : Slice → Slice) : (s.onSlice i f).cur = s.cur := rfl
@[simp] theorem onSlice_groups (i : Nat) (f : Slice → Slice) : (s.onSlice i f).groups = s.groups := rfl
@[simp] theorem onSlice_blocks (i : Nat) (f : Slice → Slice) : (s.onSlice i f).blocks = s.blocks := rfl
@[simp] theorem onSlice_cores (i : Nat) (f : Slice → Slice) : (s.onSlice i f).cores = s.cores := rfl
@[simp] theorem onSlice_clusters (i : Nat) (f : Slice → Slice) : (s.onSlice i f).clusters = s.clusters := rfl
@[simp] theorem onSlice_parts (i : Nat) (f : Slice → Slice) : (s.onSlice i f).parts = s.parts := rfl
@[simp] theorem onSlice_mtc (i : Nat) (f : Slice → Slice) : (s.onSlice i f).mtc = s.mtc := rfl
@[simp] theorem onSlice_mem (i : Nat) (f : Slice → Slice) : (s.onSlice i f).mem = s.mem := rfl
@[simp] theorem onSlice_lineKey (i : Nat) (f : Slice → Slice) : (s.onSlice i f).lineKey = s.lineKey := rfl
@[simp] theorem onSlice_poison (i : Nat) (f : Slice → Slice) : (s.onSlice i f).poison = s.poison := rfl
@[simp] theorem onSlice_stale (i : Nat) (f : Slice → Slice) : (s.onSlice i f).stale = s.stale := rfl
@[simp] theorem onSlice_hostMem (i : Nat) (f : Slice → Slice) : (s.onSlice i f).hostMem = s.hostMem := rfl
@[simp] theorem onSlice_spoiled (i : Nat) (f : Slice → Slice) : (s.onSlice i f).spoiled = s.spoiled := rfl
@[simp] theorem onSlice_issue (i : Nat) (f : Slice → Slice) : (s.onSlice i f).issue = s.issue := rfl
@[simp] theorem onSlice_args (i : Nat) (f : Slice → Slice) : (s.onSlice i f).args = s.args := rfl
@[simp] theorem onSlice_agenda (i : Nat) (f : Slice → Slice) : (s.onSlice i f).agenda = s.agenda := rfl
@[simp] theorem onSlice_later (i : Nat) (f : Slice → Slice) : (s.onSlice i f).later = s.later := rfl
@[simp] theorem onSlice_free (i : Nat) (f : Slice → Slice) : (s.onSlice i f).free = s.free := rfl
@[simp] theorem onSlice_cycle (i : Nat) (f : Slice → Slice) : (s.onSlice i f).cycle = s.cycle := rfl
@[simp] theorem onSlice_refns (i : Nat) (f : Slice → Slice) : (s.onSlice i f).refns = s.refns := rfl
@[simp] theorem setPart_cur (p : Partition) : (s.setPart p).cur = s.cur := rfl
@[simp] theorem setPart_groups (p : Partition) : (s.setPart p).groups = s.groups := rfl
@[simp] theorem setPart_blocks (p : Partition) : (s.setPart p).blocks = s.blocks := rfl
@[simp] theorem setPart_cores (p : Partition) : (s.setPart p).cores = s.cores := rfl
@[simp] theorem setPart_clusters (p : Partition) : (s.setPart p).clusters = s.clusters := rfl
@[simp] theorem setPart_slices (p : Partition) : (s.setPart p).slices = s.slices := rfl
@[simp] theorem setPart_mtc (p : Partition) : (s.setPart p).mtc = s.mtc := rfl
@[simp] theorem setPart_mem (p : Partition) : (s.setPart p).mem = s.mem := rfl
@[simp] theorem setPart_lineKey (p : Partition) : (s.setPart p).lineKey = s.lineKey := rfl
@[simp] theorem setPart_poison (p : Partition) : (s.setPart p).poison = s.poison := rfl
@[simp] theorem setPart_stale (p : Partition) : (s.setPart p).stale = s.stale := rfl
@[simp] theorem setPart_hostMem (p : Partition) : (s.setPart p).hostMem = s.hostMem := rfl
@[simp] theorem setPart_spoiled (p : Partition) : (s.setPart p).spoiled = s.spoiled := rfl
@[simp] theorem setPart_issue (p : Partition) : (s.setPart p).issue = s.issue := rfl
@[simp] theorem setPart_args (p : Partition) : (s.setPart p).args = s.args := rfl
@[simp] theorem setPart_agenda (p : Partition) : (s.setPart p).agenda = s.agenda := rfl
@[simp] theorem setPart_later (p : Partition) : (s.setPart p).later = s.later := rfl
@[simp] theorem setPart_free (p : Partition) : (s.setPart p).free = s.free := rfl
@[simp] theorem setPart_cycle (p : Partition) : (s.setPart p).cycle = s.cycle := rfl
@[simp] theorem setPart_refns (p : Partition) : (s.setPart p).refns = s.refns := rfl
@[simp] theorem onPart_cur (i : Nat) (f : Partition → Partition) : (s.onPart i f).cur = s.cur := rfl
@[simp] theorem onPart_groups (i : Nat) (f : Partition → Partition) : (s.onPart i f).groups = s.groups := rfl
@[simp] theorem onPart_blocks (i : Nat) (f : Partition → Partition) : (s.onPart i f).blocks = s.blocks := rfl
@[simp] theorem onPart_cores (i : Nat) (f : Partition → Partition) : (s.onPart i f).cores = s.cores := rfl
@[simp] theorem onPart_clusters (i : Nat) (f : Partition → Partition) : (s.onPart i f).clusters = s.clusters := rfl
@[simp] theorem onPart_slices (i : Nat) (f : Partition → Partition) : (s.onPart i f).slices = s.slices := rfl
@[simp] theorem onPart_mtc (i : Nat) (f : Partition → Partition) : (s.onPart i f).mtc = s.mtc := rfl
@[simp] theorem onPart_mem (i : Nat) (f : Partition → Partition) : (s.onPart i f).mem = s.mem := rfl
@[simp] theorem onPart_lineKey (i : Nat) (f : Partition → Partition) : (s.onPart i f).lineKey = s.lineKey := rfl
@[simp] theorem onPart_poison (i : Nat) (f : Partition → Partition) : (s.onPart i f).poison = s.poison := rfl
@[simp] theorem onPart_stale (i : Nat) (f : Partition → Partition) : (s.onPart i f).stale = s.stale := rfl
@[simp] theorem onPart_hostMem (i : Nat) (f : Partition → Partition) : (s.onPart i f).hostMem = s.hostMem := rfl
@[simp] theorem onPart_spoiled (i : Nat) (f : Partition → Partition) : (s.onPart i f).spoiled = s.spoiled := rfl
@[simp] theorem onPart_issue (i : Nat) (f : Partition → Partition) : (s.onPart i f).issue = s.issue := rfl
@[simp] theorem onPart_args (i : Nat) (f : Partition → Partition) : (s.onPart i f).args = s.args := rfl
@[simp] theorem onPart_agenda (i : Nat) (f : Partition → Partition) : (s.onPart i f).agenda = s.agenda := rfl
@[simp] theorem onPart_later (i : Nat) (f : Partition → Partition) : (s.onPart i f).later = s.later := rfl
@[simp] theorem onPart_free (i : Nat) (f : Partition → Partition) : (s.onPart i f).free = s.free := rfl
@[simp] theorem onPart_cycle (i : Nat) (f : Partition → Partition) : (s.onPart i f).cycle = s.cycle := rfl
@[simp] theorem onPart_refns (i : Nat) (f : Partition → Partition) : (s.onPart i f).refns = s.refns := rfl
@[simp] theorem onCur_cur (f : Group → Group) : (s.onCur f).cur = f s.cur := rfl
@[simp] theorem mapGroups_cur (f : Group → Group) : (s.mapGroups f).cur = f s.cur := rfl
@[simp] theorem mapGroups_groups (f : Group → Group) : (s.mapGroups f).groups = s.groups.map f := rfl

/-! ### Updates of a group -/

@[simp] theorem vset_info (n l : Nat) (v : W32) : (g.vset n l v).info = g.info := rfl
@[simp] theorem vset_state (n l : Nat) (v : W32) : (g.vset n l v).state = g.state := rfl
@[simp] theorem vset_priv (n l : Nat) (v : W32) : (g.vset n l v).priv = g.priv := rfl
@[simp] theorem vset_f0 (n l : Nat) (v : W32) : (g.vset n l v).f0 = g.f0 := rfl
@[simp] theorem vset_f1 (n l : Nat) (v : W32) : (g.vset n l v).f1 = g.f1 := rfl
@[simp] theorem vset_t0 (n l : Nat) (v : W32) : (g.vset n l v).t0 = g.t0 := rfl
@[simp] theorem vset_t1 (n l : Nat) (v : W32) : (g.vset n l v).t1 = g.t1 := rfl
@[simp] theorem vset_stack (n l : Nat) (v : W32) : (g.vset n l v).stack = g.stack := rfl
@[simp] theorem vset_area (n l : Nat) (v : W32) : (g.vset n l v).area = g.area := rfl
@[simp] theorem vset_mode (n l : Nat) (v : W32) : (g.vset n l v).mode = g.mode := rfl
@[simp] theorem vset_ovt (n l : Nat) (v : W32) : (g.vset n l v).ovt = g.ovt := rfl
@[simp] theorem vset_sregs (n l : Nat) (v : W32) : (g.vset n l v).sregs = g.sregs := rfl
@[simp] theorem vset_flags (n l : Nat) (v : W32) : (g.vset n l v).flags = g.flags := rfl
@[simp] theorem vset_cc (n l : Nat) (v : W32) : (g.vset n l v).cc = g.cc := rfl
@[simp] theorem vset_stoch (n l : Nat) (v : W32) : (g.vset n l v).stoch = g.stoch := rfl
@[simp] theorem vset_acc (n l : Nat) (v : W32) : (g.vset n l v).acc = g.acc := rfl
@[simp] theorem vset_accPoison (n l : Nat) (v : W32) : (g.vset n l v).accPoison = g.accPoison := rfl
@[simp] theorem vset_lc0 (n l : Nat) (v : W32) : (g.vset n l v).lc0 = g.lc0 := rfl
@[simp] theorem vset_lc1 (n l : Nat) (v : W32) : (g.vset n l v).lc1 = g.lc1 := rfl
@[simp] theorem vset_lc2 (n l : Nat) (v : W32) : (g.vset n l v).lc2 = g.lc2 := rfl
@[simp] theorem vset_tx (n l : Nat) (v : W32) : (g.vset n l v).tx = g.tx := rfl
@[simp] theorem vset_snap (n l : Nat) (v : W32) : (g.vset n l v).snap = g.snap := rfl
@[simp] theorem vset_launchSnap (n l : Nat) (v : W32) : (g.vset n l v).launchSnap = g.launchSnap := rfl
@[simp] theorem vset_energy (n l : Nat) (v : W32) : (g.vset n l v).energy = g.energy := rfl
@[simp] theorem vset_storeTime (n l : Nat) (v : W32) : (g.vset n l v).storeTime = g.storeTime := rfl
@[simp] theorem vset_gbarLeft (n l : Nat) (v : W32) : (g.vset n l v).gbarLeft = g.gbarLeft := rfl
@[simp] theorem vset_ctrs (n l : Nat) (v : W32) : (g.vset n l v).ctrs = g.ctrs := rfl
@[simp] theorem vset_clkBase (n l : Nat) (v : W32) : (g.vset n l v).clkBase = g.clkBase := rfl
@[simp] theorem vset_pend (n l : Nat) (v : W32) : (g.vset n l v).pend = g.pend := rfl
@[simp] theorem vset_barArrived (n l : Nat) (v : W32) : (g.vset n l v).barArrived = g.barArrived := rfl
@[simp] theorem vset_gbarArrived (n l : Nat) (v : W32) : (g.vset n l v).gbarArrived = g.gbarArrived := rfl
@[simp] theorem vset_checks (n l : Nat) (v : W32) : (g.vset n l v).checks = g.checks := rfl
@[simp] theorem vset_stopReq (n l : Nat) (v : W32) : (g.vset n l v).stopReq = g.stopReq := rfl
@[simp] theorem vset_watchdog (n l : Nat) (v : W32) : (g.vset n l v).watchdog = g.watchdog := rfl
@[simp] theorem ccset_info (l : Nat) (c : Codes) : (g.ccset l c).info = g.info := rfl
@[simp] theorem ccset_state (l : Nat) (c : Codes) : (g.ccset l c).state = g.state := rfl
@[simp] theorem ccset_priv (l : Nat) (c : Codes) : (g.ccset l c).priv = g.priv := rfl
@[simp] theorem ccset_f0 (l : Nat) (c : Codes) : (g.ccset l c).f0 = g.f0 := rfl
@[simp] theorem ccset_f1 (l : Nat) (c : Codes) : (g.ccset l c).f1 = g.f1 := rfl
@[simp] theorem ccset_t0 (l : Nat) (c : Codes) : (g.ccset l c).t0 = g.t0 := rfl
@[simp] theorem ccset_t1 (l : Nat) (c : Codes) : (g.ccset l c).t1 = g.t1 := rfl
@[simp] theorem ccset_stack (l : Nat) (c : Codes) : (g.ccset l c).stack = g.stack := rfl
@[simp] theorem ccset_area (l : Nat) (c : Codes) : (g.ccset l c).area = g.area := rfl
@[simp] theorem ccset_mode (l : Nat) (c : Codes) : (g.ccset l c).mode = g.mode := rfl
@[simp] theorem ccset_ovt (l : Nat) (c : Codes) : (g.ccset l c).ovt = g.ovt := rfl
@[simp] theorem ccset_sregs (l : Nat) (c : Codes) : (g.ccset l c).sregs = g.sregs := rfl
@[simp] theorem ccset_flags (l : Nat) (c : Codes) : (g.ccset l c).flags = g.flags := rfl
@[simp] theorem ccset_vregs (l : Nat) (c : Codes) : (g.ccset l c).vregs = g.vregs := rfl
@[simp] theorem ccset_stoch (l : Nat) (c : Codes) : (g.ccset l c).stoch = g.stoch := rfl
@[simp] theorem ccset_acc (l : Nat) (c : Codes) : (g.ccset l c).acc = g.acc := rfl
@[simp] theorem ccset_accPoison (l : Nat) (c : Codes) : (g.ccset l c).accPoison = g.accPoison := rfl
@[simp] theorem ccset_lc0 (l : Nat) (c : Codes) : (g.ccset l c).lc0 = g.lc0 := rfl
@[simp] theorem ccset_lc1 (l : Nat) (c : Codes) : (g.ccset l c).lc1 = g.lc1 := rfl
@[simp] theorem ccset_lc2 (l : Nat) (c : Codes) : (g.ccset l c).lc2 = g.lc2 := rfl
@[simp] theorem ccset_tx (l : Nat) (c : Codes) : (g.ccset l c).tx = g.tx := rfl
@[simp] theorem ccset_snap (l : Nat) (c : Codes) : (g.ccset l c).snap = g.snap := rfl
@[simp] theorem ccset_launchSnap (l : Nat) (c : Codes) : (g.ccset l c).launchSnap = g.launchSnap := rfl
@[simp] theorem ccset_energy (l : Nat) (c : Codes) : (g.ccset l c).energy = g.energy := rfl
@[simp] theorem ccset_storeTime (l : Nat) (c : Codes) : (g.ccset l c).storeTime = g.storeTime := rfl
@[simp] theorem ccset_gbarLeft (l : Nat) (c : Codes) : (g.ccset l c).gbarLeft = g.gbarLeft := rfl
@[simp] theorem ccset_ctrs (l : Nat) (c : Codes) : (g.ccset l c).ctrs = g.ctrs := rfl
@[simp] theorem ccset_clkBase (l : Nat) (c : Codes) : (g.ccset l c).clkBase = g.clkBase := rfl
@[simp] theorem ccset_pend (l : Nat) (c : Codes) : (g.ccset l c).pend = g.pend := rfl
@[simp] theorem ccset_barArrived (l : Nat) (c : Codes) : (g.ccset l c).barArrived = g.barArrived := rfl
@[simp] theorem ccset_gbarArrived (l : Nat) (c : Codes) : (g.ccset l c).gbarArrived = g.gbarArrived := rfl
@[simp] theorem ccset_checks (l : Nat) (c : Codes) : (g.ccset l c).checks = g.checks := rfl
@[simp] theorem ccset_stopReq (l : Nat) (c : Codes) : (g.ccset l c).stopReq = g.stopReq := rfl
@[simp] theorem ccset_watchdog (l : Nat) (c : Codes) : (g.ccset l c).watchdog = g.watchdog := rfl
@[simp] theorem overtake_info (d : Nat → Nat) (c : Machine.Cell) : (g.overtake d c).info = g.info := rfl
@[simp] theorem overtake_state (d : Nat → Nat) (c : Machine.Cell) : (g.overtake d c).state = g.state := rfl
@[simp] theorem overtake_priv (d : Nat → Nat) (c : Machine.Cell) : (g.overtake d c).priv = g.priv := rfl
@[simp] theorem overtake_f0 (d : Nat → Nat) (c : Machine.Cell) : (g.overtake d c).f0 = g.f0 := rfl
@[simp] theorem overtake_f1 (d : Nat → Nat) (c : Machine.Cell) : (g.overtake d c).f1 = g.f1 := rfl
@[simp] theorem overtake_t0 (d : Nat → Nat) (c : Machine.Cell) : (g.overtake d c).t0 = g.t0 := rfl
@[simp] theorem overtake_t1 (d : Nat → Nat) (c : Machine.Cell) : (g.overtake d c).t1 = g.t1 := rfl
@[simp] theorem overtake_stack (d : Nat → Nat) (c : Machine.Cell) : (g.overtake d c).stack = g.stack := rfl
@[simp] theorem overtake_area (d : Nat → Nat) (c : Machine.Cell) : (g.overtake d c).area = g.area := rfl
@[simp] theorem overtake_mode (d : Nat → Nat) (c : Machine.Cell) : (g.overtake d c).mode = g.mode := rfl
@[simp] theorem overtake_ovt (d : Nat → Nat) (c : Machine.Cell) : (g.overtake d c).ovt = g.ovt := rfl
@[simp] theorem overtake_sregs (d : Nat → Nat) (c : Machine.Cell) : (g.overtake d c).sregs = g.sregs := rfl
@[simp] theorem overtake_flags (d : Nat → Nat) (c : Machine.Cell) : (g.overtake d c).flags = g.flags := rfl
@[simp] theorem overtake_vregs (d : Nat → Nat) (c : Machine.Cell) : (g.overtake d c).vregs = g.vregs := rfl
@[simp] theorem overtake_cc (d : Nat → Nat) (c : Machine.Cell) : (g.overtake d c).cc = g.cc := rfl
@[simp] theorem overtake_stoch (d : Nat → Nat) (c : Machine.Cell) : (g.overtake d c).stoch = g.stoch := rfl
@[simp] theorem overtake_acc (d : Nat → Nat) (c : Machine.Cell) : (g.overtake d c).acc = g.acc := rfl
@[simp] theorem overtake_accPoison (d : Nat → Nat) (c : Machine.Cell) : (g.overtake d c).accPoison = g.accPoison := rfl
@[simp] theorem overtake_lc0 (d : Nat → Nat) (c : Machine.Cell) : (g.overtake d c).lc0 = g.lc0 := rfl
@[simp] theorem overtake_lc1 (d : Nat → Nat) (c : Machine.Cell) : (g.overtake d c).lc1 = g.lc1 := rfl
@[simp] theorem overtake_lc2 (d : Nat → Nat) (c : Machine.Cell) : (g.overtake d c).lc2 = g.lc2 := rfl
@[simp] theorem overtake_tx (d : Nat → Nat) (c : Machine.Cell) : (g.overtake d c).tx = g.tx := rfl
@[simp] theorem overtake_snap (d : Nat → Nat) (c : Machine.Cell) : (g.overtake d c).snap = g.snap := rfl
@[simp] theorem overtake_launchSnap (d : Nat → Nat) (c : Machine.Cell) : (g.overtake d c).launchSnap = g.launchSnap := rfl
@[simp] theorem overtake_energy (d : Nat → Nat) (c : Machine.Cell) : (g.overtake d c).energy = g.energy := rfl
@[simp] theorem overtake_storeTime (d : Nat → Nat) (c : Machine.Cell) : (g.overtake d c).storeTime = g.storeTime := rfl
@[simp] theorem overtake_gbarLeft (d : Nat → Nat) (c : Machine.Cell) : (g.overtake d c).gbarLeft = g.gbarLeft := rfl
@[simp] theorem overtake_ctrs (d : Nat → Nat) (c : Machine.Cell) : (g.overtake d c).ctrs = g.ctrs := rfl
@[simp] theorem overtake_clkBase (d : Nat → Nat) (c : Machine.Cell) : (g.overtake d c).clkBase = g.clkBase := rfl
@[simp] theorem overtake_barArrived (d : Nat → Nat) (c : Machine.Cell) : (g.overtake d c).barArrived = g.barArrived := rfl
@[simp] theorem overtake_gbarArrived (d : Nat → Nat) (c : Machine.Cell) : (g.overtake d c).gbarArrived = g.gbarArrived := rfl
@[simp] theorem overtake_checks (d : Nat → Nat) (c : Machine.Cell) : (g.overtake d c).checks = g.checks := rfl
@[simp] theorem overtake_stopReq (d : Nat → Nat) (c : Machine.Cell) : (g.overtake d c).stopReq = g.stopReq := rfl
@[simp] theorem overtake_watchdog (d : Nat → Nat) (c : Machine.Cell) : (g.overtake d c).watchdog = g.watchdog := rfl
@[simp] theorem outcome_info (a b : Bool) : (g.outcome a b).info = g.info := rfl
@[simp] theorem outcome_state (a b : Bool) : (g.outcome a b).state = g.state := rfl
@[simp] theorem outcome_priv (a b : Bool) : (g.outcome a b).priv = g.priv := rfl
@[simp] theorem outcome_f0 (a b : Bool) : (g.outcome a b).f0 = g.f0 := rfl
@[simp] theorem outcome_f1 (a b : Bool) : (g.outcome a b).f1 = g.f1 := rfl
@[simp] theorem outcome_t0 (a b : Bool) : (g.outcome a b).t0 = g.t0 := rfl
@[simp] theorem outcome_t1 (a b : Bool) : (g.outcome a b).t1 = g.t1 := rfl
@[simp] theorem outcome_stack (a b : Bool) : (g.outcome a b).stack = g.stack := rfl
@[simp] theorem outcome_area (a b : Bool) : (g.outcome a b).area = g.area := rfl
@[simp] theorem outcome_mode (a b : Bool) : (g.outcome a b).mode = g.mode := rfl
@[simp] theorem outcome_ovt (a b : Bool) : (g.outcome a b).ovt = g.ovt := rfl
@[simp] theorem outcome_sregs (a b : Bool) : (g.outcome a b).sregs = g.sregs := rfl
@[simp] theorem outcome_flags (a b : Bool) : (g.outcome a b).flags = g.flags := rfl
@[simp] theorem outcome_vregs (a b : Bool) : (g.outcome a b).vregs = g.vregs := rfl
@[simp] theorem outcome_cc (a b : Bool) : (g.outcome a b).cc = g.cc := rfl
@[simp] theorem outcome_stoch (a b : Bool) : (g.outcome a b).stoch = g.stoch := rfl
@[simp] theorem outcome_acc (a b : Bool) : (g.outcome a b).acc = g.acc := rfl
@[simp] theorem outcome_accPoison (a b : Bool) : (g.outcome a b).accPoison = g.accPoison := rfl
@[simp] theorem outcome_lc0 (a b : Bool) : (g.outcome a b).lc0 = g.lc0 := rfl
@[simp] theorem outcome_lc1 (a b : Bool) : (g.outcome a b).lc1 = g.lc1 := rfl
@[simp] theorem outcome_lc2 (a b : Bool) : (g.outcome a b).lc2 = g.lc2 := rfl
@[simp] theorem outcome_tx (a b : Bool) : (g.outcome a b).tx = g.tx := rfl
@[simp] theorem outcome_snap (a b : Bool) : (g.outcome a b).snap = g.snap := rfl
@[simp] theorem outcome_launchSnap (a b : Bool) : (g.outcome a b).launchSnap = g.launchSnap := rfl
@[simp] theorem outcome_energy (a b : Bool) : (g.outcome a b).energy = g.energy := rfl
@[simp] theorem outcome_storeTime (a b : Bool) : (g.outcome a b).storeTime = g.storeTime := rfl
@[simp] theorem outcome_gbarLeft (a b : Bool) : (g.outcome a b).gbarLeft = g.gbarLeft := rfl
@[simp] theorem outcome_ctrs (a b : Bool) : (g.outcome a b).ctrs = g.ctrs := rfl
@[simp] theorem outcome_clkBase (a b : Bool) : (g.outcome a b).clkBase = g.clkBase := rfl
@[simp] theorem outcome_pend (a b : Bool) : (g.outcome a b).pend = g.pend := rfl
@[simp] theorem outcome_barArrived (a b : Bool) : (g.outcome a b).barArrived = g.barArrived := rfl
@[simp] theorem outcome_gbarArrived (a b : Bool) : (g.outcome a b).gbarArrived = g.gbarArrived := rfl
@[simp] theorem outcome_stopReq (a b : Bool) : (g.outcome a b).stopReq = g.stopReq := rfl
@[simp] theorem outcome_watchdog (a b : Bool) : (g.outcome a b).watchdog = g.watchdog := rfl
@[simp] theorem endMissSplit_info  : (g.endMissSplit).info = g.info := rfl
@[simp] theorem endMissSplit_state  : (g.endMissSplit).state = g.state := rfl
@[simp] theorem endMissSplit_priv  : (g.endMissSplit).priv = g.priv := rfl
@[simp] theorem endMissSplit_t0  : (g.endMissSplit).t0 = g.t0 := rfl
@[simp] theorem endMissSplit_t1  : (g.endMissSplit).t1 = g.t1 := rfl
@[simp] theorem endMissSplit_area  : (g.endMissSplit).area = g.area := rfl
@[simp] theorem endMissSplit_mode  : (g.endMissSplit).mode = g.mode := rfl
@[simp] theorem endMissSplit_ovt  : (g.endMissSplit).ovt = g.ovt := rfl
@[simp] theorem endMissSplit_sregs  : (g.endMissSplit).sregs = g.sregs := rfl
@[simp] theorem endMissSplit_flags  : (g.endMissSplit).flags = g.flags := rfl
@[simp] theorem endMissSplit_vregs  : (g.endMissSplit).vregs = g.vregs := rfl
@[simp] theorem endMissSplit_cc  : (g.endMissSplit).cc = g.cc := rfl
@[simp] theorem endMissSplit_stoch  : (g.endMissSplit).stoch = g.stoch := rfl
@[simp] theorem endMissSplit_acc  : (g.endMissSplit).acc = g.acc := rfl
@[simp] theorem endMissSplit_accPoison  : (g.endMissSplit).accPoison = g.accPoison := rfl
@[simp] theorem endMissSplit_lc0  : (g.endMissSplit).lc0 = g.lc0 := rfl
@[simp] theorem endMissSplit_lc1  : (g.endMissSplit).lc1 = g.lc1 := rfl
@[simp] theorem endMissSplit_lc2  : (g.endMissSplit).lc2 = g.lc2 := rfl
@[simp] theorem endMissSplit_tx  : (g.endMissSplit).tx = g.tx := rfl
@[simp] theorem endMissSplit_snap  : (g.endMissSplit).snap = g.snap := rfl
@[simp] theorem endMissSplit_launchSnap  : (g.endMissSplit).launchSnap = g.launchSnap := rfl
@[simp] theorem endMissSplit_energy  : (g.endMissSplit).energy = g.energy := rfl
@[simp] theorem endMissSplit_storeTime  : (g.endMissSplit).storeTime = g.storeTime := rfl
@[simp] theorem endMissSplit_gbarLeft  : (g.endMissSplit).gbarLeft = g.gbarLeft := rfl
@[simp] theorem endMissSplit_ctrs  : (g.endMissSplit).ctrs = g.ctrs := rfl
@[simp] theorem endMissSplit_clkBase  : (g.endMissSplit).clkBase = g.clkBase := rfl
@[simp] theorem endMissSplit_pend  : (g.endMissSplit).pend = g.pend := rfl
@[simp] theorem endMissSplit_barArrived  : (g.endMissSplit).barArrived = g.barArrived := rfl
@[simp] theorem endMissSplit_gbarArrived  : (g.endMissSplit).gbarArrived = g.gbarArrived := rfl
@[simp] theorem endMissSplit_checks  : (g.endMissSplit).checks = g.checks := rfl
@[simp] theorem endMissSplit_stopReq  : (g.endMissSplit).stopReq = g.stopReq := rfl
@[simp] theorem endMissSplit_watchdog  : (g.endMissSplit).watchdog = g.watchdog := rfl
@[simp] theorem sset_info (n : Nat) (v : W64) : (g.sset n v).info = g.info := by unfold Group.sset; split <;> rfl
@[simp] theorem sset_state (n : Nat) (v : W64) : (g.sset n v).state = g.state := by unfold Group.sset; split <;> rfl
@[simp] theorem sset_priv (n : Nat) (v : W64) : (g.sset n v).priv = g.priv := by unfold Group.sset; split <;> rfl
@[simp] theorem sset_f0 (n : Nat) (v : W64) : (g.sset n v).f0 = g.f0 := by unfold Group.sset; split <;> rfl
@[simp] theorem sset_f1 (n : Nat) (v : W64) : (g.sset n v).f1 = g.f1 := by unfold Group.sset; split <;> rfl
@[simp] theorem sset_t0 (n : Nat) (v : W64) : (g.sset n v).t0 = g.t0 := by unfold Group.sset; split <;> rfl
@[simp] theorem sset_t1 (n : Nat) (v : W64) : (g.sset n v).t1 = g.t1 := by unfold Group.sset; split <;> rfl
@[simp] theorem sset_stack (n : Nat) (v : W64) : (g.sset n v).stack = g.stack := by unfold Group.sset; split <;> rfl
@[simp] theorem sset_area (n : Nat) (v : W64) : (g.sset n v).area = g.area := by unfold Group.sset; split <;> rfl
@[simp] theorem sset_mode (n : Nat) (v : W64) : (g.sset n v).mode = g.mode := by unfold Group.sset; split <;> rfl
@[simp] theorem sset_ovt (n : Nat) (v : W64) : (g.sset n v).ovt = g.ovt := by unfold Group.sset; split <;> rfl
@[simp] theorem sset_flags (n : Nat) (v : W64) : (g.sset n v).flags = g.flags := by unfold Group.sset; split <;> rfl
@[simp] theorem sset_vregs (n : Nat) (v : W64) : (g.sset n v).vregs = g.vregs := by unfold Group.sset; split <;> rfl
@[simp] theorem sset_cc (n : Nat) (v : W64) : (g.sset n v).cc = g.cc := by unfold Group.sset; split <;> rfl
@[simp] theorem sset_stoch (n : Nat) (v : W64) : (g.sset n v).stoch = g.stoch := by unfold Group.sset; split <;> rfl
@[simp] theorem sset_acc (n : Nat) (v : W64) : (g.sset n v).acc = g.acc := by unfold Group.sset; split <;> rfl
@[simp] theorem sset_accPoison (n : Nat) (v : W64) : (g.sset n v).accPoison = g.accPoison := by unfold Group.sset; split <;> rfl
@[simp] theorem sset_lc0 (n : Nat) (v : W64) : (g.sset n v).lc0 = g.lc0 := by unfold Group.sset; split <;> rfl
@[simp] theorem sset_lc1 (n : Nat) (v : W64) : (g.sset n v).lc1 = g.lc1 := by unfold Group.sset; split <;> rfl
@[simp] theorem sset_lc2 (n : Nat) (v : W64) : (g.sset n v).lc2 = g.lc2 := by unfold Group.sset; split <;> rfl
@[simp] theorem sset_tx (n : Nat) (v : W64) : (g.sset n v).tx = g.tx := by unfold Group.sset; split <;> rfl
@[simp] theorem sset_snap (n : Nat) (v : W64) : (g.sset n v).snap = g.snap := by unfold Group.sset; split <;> rfl
@[simp] theorem sset_launchSnap (n : Nat) (v : W64) : (g.sset n v).launchSnap = g.launchSnap := by unfold Group.sset; split <;> rfl
@[simp] theorem sset_energy (n : Nat) (v : W64) : (g.sset n v).energy = g.energy := by unfold Group.sset; split <;> rfl
@[simp] theorem sset_storeTime (n : Nat) (v : W64) : (g.sset n v).storeTime = g.storeTime := by unfold Group.sset; split <;> rfl
@[simp] theorem sset_gbarLeft (n : Nat) (v : W64) : (g.sset n v).gbarLeft = g.gbarLeft := by unfold Group.sset; split <;> rfl
@[simp] theorem sset_ctrs (n : Nat) (v : W64) : (g.sset n v).ctrs = g.ctrs := by unfold Group.sset; split <;> rfl
@[simp] theorem sset_clkBase (n : Nat) (v : W64) : (g.sset n v).clkBase = g.clkBase := by unfold Group.sset; split <;> rfl
@[simp] theorem sset_pend (n : Nat) (v : W64) : (g.sset n v).pend = g.pend := by unfold Group.sset; split <;> rfl
@[simp] theorem sset_barArrived (n : Nat) (v : W64) : (g.sset n v).barArrived = g.barArrived := by unfold Group.sset; split <;> rfl
@[simp] theorem sset_gbarArrived (n : Nat) (v : W64) : (g.sset n v).gbarArrived = g.gbarArrived := by unfold Group.sset; split <;> rfl
@[simp] theorem sset_checks (n : Nat) (v : W64) : (g.sset n v).checks = g.checks := by unfold Group.sset; split <;> rfl
@[simp] theorem sset_stopReq (n : Nat) (v : W64) : (g.sset n v).stopReq = g.stopReq := by unfold Group.sset; split <;> rfl
@[simp] theorem sset_watchdog (n : Nat) (v : W64) : (g.sset n v).watchdog = g.watchdog := by unfold Group.sset; split <;> rfl
@[simp] theorem setFrag_info (b : Bool) (f : Frag) : (g.setFrag b f).info = g.info := by unfold Group.setFrag; split <;> rfl
@[simp] theorem setFrag_state (b : Bool) (f : Frag) : (g.setFrag b f).state = g.state := by unfold Group.setFrag; split <;> rfl
@[simp] theorem setFrag_priv (b : Bool) (f : Frag) : (g.setFrag b f).priv = g.priv := by unfold Group.setFrag; split <;> rfl
@[simp] theorem setFrag_t0 (b : Bool) (f : Frag) : (g.setFrag b f).t0 = g.t0 := by unfold Group.setFrag; split <;> rfl
@[simp] theorem setFrag_t1 (b : Bool) (f : Frag) : (g.setFrag b f).t1 = g.t1 := by unfold Group.setFrag; split <;> rfl
@[simp] theorem setFrag_stack (b : Bool) (f : Frag) : (g.setFrag b f).stack = g.stack := by unfold Group.setFrag; split <;> rfl
@[simp] theorem setFrag_area (b : Bool) (f : Frag) : (g.setFrag b f).area = g.area := by unfold Group.setFrag; split <;> rfl
@[simp] theorem setFrag_mode (b : Bool) (f : Frag) : (g.setFrag b f).mode = g.mode := by unfold Group.setFrag; split <;> rfl
@[simp] theorem setFrag_ovt (b : Bool) (f : Frag) : (g.setFrag b f).ovt = g.ovt := by unfold Group.setFrag; split <;> rfl
@[simp] theorem setFrag_sregs (b : Bool) (f : Frag) : (g.setFrag b f).sregs = g.sregs := by unfold Group.setFrag; split <;> rfl
@[simp] theorem setFrag_flags (b : Bool) (f : Frag) : (g.setFrag b f).flags = g.flags := by unfold Group.setFrag; split <;> rfl
@[simp] theorem setFrag_vregs (b : Bool) (f : Frag) : (g.setFrag b f).vregs = g.vregs := by unfold Group.setFrag; split <;> rfl
@[simp] theorem setFrag_cc (b : Bool) (f : Frag) : (g.setFrag b f).cc = g.cc := by unfold Group.setFrag; split <;> rfl
@[simp] theorem setFrag_stoch (b : Bool) (f : Frag) : (g.setFrag b f).stoch = g.stoch := by unfold Group.setFrag; split <;> rfl
@[simp] theorem setFrag_acc (b : Bool) (f : Frag) : (g.setFrag b f).acc = g.acc := by unfold Group.setFrag; split <;> rfl
@[simp] theorem setFrag_accPoison (b : Bool) (f : Frag) : (g.setFrag b f).accPoison = g.accPoison := by unfold Group.setFrag; split <;> rfl
@[simp] theorem setFrag_lc0 (b : Bool) (f : Frag) : (g.setFrag b f).lc0 = g.lc0 := by unfold Group.setFrag; split <;> rfl
@[simp] theorem setFrag_lc1 (b : Bool) (f : Frag) : (g.setFrag b f).lc1 = g.lc1 := by unfold Group.setFrag; split <;> rfl
@[simp] theorem setFrag_lc2 (b : Bool) (f : Frag) : (g.setFrag b f).lc2 = g.lc2 := by unfold Group.setFrag; split <;> rfl
@[simp] theorem setFrag_tx (b : Bool) (f : Frag) : (g.setFrag b f).tx = g.tx := by unfold Group.setFrag; split <;> rfl
@[simp] theorem setFrag_snap (b : Bool) (f : Frag) : (g.setFrag b f).snap = g.snap := by unfold Group.setFrag; split <;> rfl
@[simp] theorem setFrag_launchSnap (b : Bool) (f : Frag) : (g.setFrag b f).launchSnap = g.launchSnap := by unfold Group.setFrag; split <;> rfl
@[simp] theorem setFrag_energy (b : Bool) (f : Frag) : (g.setFrag b f).energy = g.energy := by unfold Group.setFrag; split <;> rfl
@[simp] theorem setFrag_storeTime (b : Bool) (f : Frag) : (g.setFrag b f).storeTime = g.storeTime := by unfold Group.setFrag; split <;> rfl
@[simp] theorem setFrag_gbarLeft (b : Bool) (f : Frag) : (g.setFrag b f).gbarLeft = g.gbarLeft := by unfold Group.setFrag; split <;> rfl
@[simp] theorem setFrag_ctrs (b : Bool) (f : Frag) : (g.setFrag b f).ctrs = g.ctrs := by unfold Group.setFrag; split <;> rfl
@[simp] theorem setFrag_clkBase (b : Bool) (f : Frag) : (g.setFrag b f).clkBase = g.clkBase := by unfold Group.setFrag; split <;> rfl
@[simp] theorem setFrag_pend (b : Bool) (f : Frag) : (g.setFrag b f).pend = g.pend := by unfold Group.setFrag; split <;> rfl
@[simp] theorem setFrag_barArrived (b : Bool) (f : Frag) : (g.setFrag b f).barArrived = g.barArrived := by unfold Group.setFrag; split <;> rfl
@[simp] theorem setFrag_gbarArrived (b : Bool) (f : Frag) : (g.setFrag b f).gbarArrived = g.gbarArrived := by unfold Group.setFrag; split <;> rfl
@[simp] theorem setFrag_checks (b : Bool) (f : Frag) : (g.setFrag b f).checks = g.checks := by unfold Group.setFrag; split <;> rfl
@[simp] theorem setFrag_stopReq (b : Bool) (f : Frag) : (g.setFrag b f).stopReq = g.stopReq := by unfold Group.setFrag; split <;> rfl
@[simp] theorem setFrag_watchdog (b : Bool) (f : Frag) : (g.setFrag b f).watchdog = g.watchdog := by unfold Group.setFrag; split <;> rfl
@[simp] theorem setTrap_info (b : Bool) (t : Trap) : (g.setTrap b t).info = g.info := by unfold Group.setTrap; split <;> rfl
@[simp] theorem setTrap_state (b : Bool) (t : Trap) : (g.setTrap b t).state = g.state := by unfold Group.setTrap; split <;> rfl
@[simp] theorem setTrap_priv (b : Bool) (t : Trap) : (g.setTrap b t).priv = g.priv := by unfold Group.setTrap; split <;> rfl
@[simp] theorem setTrap_f0 (b : Bool) (t : Trap) : (g.setTrap b t).f0 = g.f0 := by unfold Group.setTrap; split <;> rfl
@[simp] theorem setTrap_f1 (b : Bool) (t : Trap) : (g.setTrap b t).f1 = g.f1 := by unfold Group.setTrap; split <;> rfl
@[simp] theorem setTrap_stack (b : Bool) (t : Trap) : (g.setTrap b t).stack = g.stack := by unfold Group.setTrap; split <;> rfl
@[simp] theorem setTrap_area (b : Bool) (t : Trap) : (g.setTrap b t).area = g.area := by unfold Group.setTrap; split <;> rfl
@[simp] theorem setTrap_mode (b : Bool) (t : Trap) : (g.setTrap b t).mode = g.mode := by unfold Group.setTrap; split <;> rfl
@[simp] theorem setTrap_ovt (b : Bool) (t : Trap) : (g.setTrap b t).ovt = g.ovt := by unfold Group.setTrap; split <;> rfl
@[simp] theorem setTrap_sregs (b : Bool) (t : Trap) : (g.setTrap b t).sregs = g.sregs := by unfold Group.setTrap; split <;> rfl
@[simp] theorem setTrap_flags (b : Bool) (t : Trap) : (g.setTrap b t).flags = g.flags := by unfold Group.setTrap; split <;> rfl
@[simp] theorem setTrap_vregs (b : Bool) (t : Trap) : (g.setTrap b t).vregs = g.vregs := by unfold Group.setTrap; split <;> rfl
@[simp] theorem setTrap_cc (b : Bool) (t : Trap) : (g.setTrap b t).cc = g.cc := by unfold Group.setTrap; split <;> rfl
@[simp] theorem setTrap_stoch (b : Bool) (t : Trap) : (g.setTrap b t).stoch = g.stoch := by unfold Group.setTrap; split <;> rfl
@[simp] theorem setTrap_acc (b : Bool) (t : Trap) : (g.setTrap b t).acc = g.acc := by unfold Group.setTrap; split <;> rfl
@[simp] theorem setTrap_accPoison (b : Bool) (t : Trap) : (g.setTrap b t).accPoison = g.accPoison := by unfold Group.setTrap; split <;> rfl
@[simp] theorem setTrap_lc0 (b : Bool) (t : Trap) : (g.setTrap b t).lc0 = g.lc0 := by unfold Group.setTrap; split <;> rfl
@[simp] theorem setTrap_lc1 (b : Bool) (t : Trap) : (g.setTrap b t).lc1 = g.lc1 := by unfold Group.setTrap; split <;> rfl
@[simp] theorem setTrap_lc2 (b : Bool) (t : Trap) : (g.setTrap b t).lc2 = g.lc2 := by unfold Group.setTrap; split <;> rfl
@[simp] theorem setTrap_tx (b : Bool) (t : Trap) : (g.setTrap b t).tx = g.tx := by unfold Group.setTrap; split <;> rfl
@[simp] theorem setTrap_snap (b : Bool) (t : Trap) : (g.setTrap b t).snap = g.snap := by unfold Group.setTrap; split <;> rfl
@[simp] theorem setTrap_launchSnap (b : Bool) (t : Trap) : (g.setTrap b t).launchSnap = g.launchSnap := by unfold Group.setTrap; split <;> rfl
@[simp] theorem setTrap_energy (b : Bool) (t : Trap) : (g.setTrap b t).energy = g.energy := by unfold Group.setTrap; split <;> rfl
@[simp] theorem setTrap_storeTime (b : Bool) (t : Trap) : (g.setTrap b t).storeTime = g.storeTime := by unfold Group.setTrap; split <;> rfl
@[simp] theorem setTrap_gbarLeft (b : Bool) (t : Trap) : (g.setTrap b t).gbarLeft = g.gbarLeft := by unfold Group.setTrap; split <;> rfl
@[simp] theorem setTrap_ctrs (b : Bool) (t : Trap) : (g.setTrap b t).ctrs = g.ctrs := by unfold Group.setTrap; split <;> rfl
@[simp] theorem setTrap_clkBase (b : Bool) (t : Trap) : (g.setTrap b t).clkBase = g.clkBase := by unfold Group.setTrap; split <;> rfl
@[simp] theorem setTrap_pend (b : Bool) (t : Trap) : (g.setTrap b t).pend = g.pend := by unfold Group.setTrap; split <;> rfl
@[simp] theorem setTrap_barArrived (b : Bool) (t : Trap) : (g.setTrap b t).barArrived = g.barArrived := by unfold Group.setTrap; split <;> rfl
@[simp] theorem setTrap_gbarArrived (b : Bool) (t : Trap) : (g.setTrap b t).gbarArrived = g.gbarArrived := by unfold Group.setTrap; split <;> rfl
@[simp] theorem setTrap_checks (b : Bool) (t : Trap) : (g.setTrap b t).checks = g.checks := by unfold Group.setTrap; split <;> rfl
@[simp] theorem setTrap_stopReq (b : Bool) (t : Trap) : (g.setTrap b t).stopReq = g.stopReq := by unfold Group.setTrap; split <;> rfl
@[simp] theorem setTrap_watchdog (b : Bool) (t : Trap) : (g.setTrap b t).watchdog = g.watchdog := by unfold Group.setTrap; split <;> rfl
@[simp] theorem setLc_info (i : Nat) (c : LoopCtr) : (g.setLc i c).info = g.info := by unfold Group.setLc; split <;> [rfl; (split <;> rfl)]
@[simp] theorem setLc_state (i : Nat) (c : LoopCtr) : (g.setLc i c).state = g.state := by unfold Group.setLc; split <;> [rfl; (split <;> rfl)]
@[simp] theorem setLc_priv (i : Nat) (c : LoopCtr) : (g.setLc i c).priv = g.priv := by unfold Group.setLc; split <;> [rfl; (split <;> rfl)]
@[simp] theorem setLc_f0 (i : Nat) (c : LoopCtr) : (g.setLc i c).f0 = g.f0 := by unfold Group.setLc; split <;> [rfl; (split <;> rfl)]
@[simp] theorem setLc_f1 (i : Nat) (c : LoopCtr) : (g.setLc i c).f1 = g.f1 := by unfold Group.setLc; split <;> [rfl; (split <;> rfl)]
@[simp] theorem setLc_t0 (i : Nat) (c : LoopCtr) : (g.setLc i c).t0 = g.t0 := by unfold Group.setLc; split <;> [rfl; (split <;> rfl)]
@[simp] theorem setLc_t1 (i : Nat) (c : LoopCtr) : (g.setLc i c).t1 = g.t1 := by unfold Group.setLc; split <;> [rfl; (split <;> rfl)]
@[simp] theorem setLc_stack (i : Nat) (c : LoopCtr) : (g.setLc i c).stack = g.stack := by unfold Group.setLc; split <;> [rfl; (split <;> rfl)]
@[simp] theorem setLc_area (i : Nat) (c : LoopCtr) : (g.setLc i c).area = g.area := by unfold Group.setLc; split <;> [rfl; (split <;> rfl)]
@[simp] theorem setLc_mode (i : Nat) (c : LoopCtr) : (g.setLc i c).mode = g.mode := by unfold Group.setLc; split <;> [rfl; (split <;> rfl)]
@[simp] theorem setLc_ovt (i : Nat) (c : LoopCtr) : (g.setLc i c).ovt = g.ovt := by unfold Group.setLc; split <;> [rfl; (split <;> rfl)]
@[simp] theorem setLc_sregs (i : Nat) (c : LoopCtr) : (g.setLc i c).sregs = g.sregs := by unfold Group.setLc; split <;> [rfl; (split <;> rfl)]
@[simp] theorem setLc_flags (i : Nat) (c : LoopCtr) : (g.setLc i c).flags = g.flags := by unfold Group.setLc; split <;> [rfl; (split <;> rfl)]
@[simp] theorem setLc_vregs (i : Nat) (c : LoopCtr) : (g.setLc i c).vregs = g.vregs := by unfold Group.setLc; split <;> [rfl; (split <;> rfl)]
@[simp] theorem setLc_cc (i : Nat) (c : LoopCtr) : (g.setLc i c).cc = g.cc := by unfold Group.setLc; split <;> [rfl; (split <;> rfl)]
@[simp] theorem setLc_stoch (i : Nat) (c : LoopCtr) : (g.setLc i c).stoch = g.stoch := by unfold Group.setLc; split <;> [rfl; (split <;> rfl)]
@[simp] theorem setLc_acc (i : Nat) (c : LoopCtr) : (g.setLc i c).acc = g.acc := by unfold Group.setLc; split <;> [rfl; (split <;> rfl)]
@[simp] theorem setLc_accPoison (i : Nat) (c : LoopCtr) : (g.setLc i c).accPoison = g.accPoison := by unfold Group.setLc; split <;> [rfl; (split <;> rfl)]
@[simp] theorem setLc_tx (i : Nat) (c : LoopCtr) : (g.setLc i c).tx = g.tx := by unfold Group.setLc; split <;> [rfl; (split <;> rfl)]
@[simp] theorem setLc_snap (i : Nat) (c : LoopCtr) : (g.setLc i c).snap = g.snap := by unfold Group.setLc; split <;> [rfl; (split <;> rfl)]
@[simp] theorem setLc_launchSnap (i : Nat) (c : LoopCtr) : (g.setLc i c).launchSnap = g.launchSnap := by unfold Group.setLc; split <;> [rfl; (split <;> rfl)]
@[simp] theorem setLc_energy (i : Nat) (c : LoopCtr) : (g.setLc i c).energy = g.energy := by unfold Group.setLc; split <;> [rfl; (split <;> rfl)]
@[simp] theorem setLc_storeTime (i : Nat) (c : LoopCtr) : (g.setLc i c).storeTime = g.storeTime := by unfold Group.setLc; split <;> [rfl; (split <;> rfl)]
@[simp] theorem setLc_gbarLeft (i : Nat) (c : LoopCtr) : (g.setLc i c).gbarLeft = g.gbarLeft := by unfold Group.setLc; split <;> [rfl; (split <;> rfl)]
@[simp] theorem setLc_ctrs (i : Nat) (c : LoopCtr) : (g.setLc i c).ctrs = g.ctrs := by unfold Group.setLc; split <;> [rfl; (split <;> rfl)]
@[simp] theorem setLc_clkBase (i : Nat) (c : LoopCtr) : (g.setLc i c).clkBase = g.clkBase := by unfold Group.setLc; split <;> [rfl; (split <;> rfl)]
@[simp] theorem setLc_pend (i : Nat) (c : LoopCtr) : (g.setLc i c).pend = g.pend := by unfold Group.setLc; split <;> [rfl; (split <;> rfl)]
@[simp] theorem setLc_barArrived (i : Nat) (c : LoopCtr) : (g.setLc i c).barArrived = g.barArrived := by unfold Group.setLc; split <;> [rfl; (split <;> rfl)]
@[simp] theorem setLc_gbarArrived (i : Nat) (c : LoopCtr) : (g.setLc i c).gbarArrived = g.gbarArrived := by unfold Group.setLc; split <;> [rfl; (split <;> rfl)]
@[simp] theorem setLc_checks (i : Nat) (c : LoopCtr) : (g.setLc i c).checks = g.checks := by unfold Group.setLc; split <;> [rfl; (split <;> rfl)]
@[simp] theorem setLc_stopReq (i : Nat) (c : LoopCtr) : (g.setLc i c).stopReq = g.stopReq := by unfold Group.setLc; split <;> [rfl; (split <;> rfl)]
@[simp] theorem setLc_watchdog (i : Nat) (c : LoopCtr) : (g.setLc i c).watchdog = g.watchdog := by unfold Group.setLc; split <;> [rfl; (split <;> rfl)]

/-! ### What the updates put there -/

@[simp] theorem frag_setFrag (b : Bool) (f : Frag) : (g.setFrag b f).frag b = f := by cases b <;> rfl

@[simp] theorem frag_setFrag_other (b : Bool) (f : Frag) : (g.setFrag b f).frag (!b) = g.frag (!b) := by cases b <;> rfl

@[simp] theorem trap_setTrap (b : Bool) (t : Trap) : (g.setTrap b t).trap b = t := by cases b <;> rfl

@[simp] theorem trap_setFrag (b c : Bool) (f : Frag) : (g.setFrag b f).trap c = g.trap c := by cases b <;> cases c <;> rfl

@[simp] theorem frag_setTrap (b c : Bool) (t : Trap) : (g.setTrap b t).frag c = g.frag c := by cases b <;> cases c <;> rfl

/-- s0 reads zero whatever was written (R246); the others read what was written last. -/
theorem sget_sset (n m : Nat) (v : W64) : (g.sset n v).sget m = if m = 0 then 0 else if n = m then v else g.sget m := by
  unfold Group.sget Group.sset
  by_cases hm : m = 0
  · simp [hm]
  · by_cases hn : n = 0
    · have : ¬ n = m := by omega
      simp [hm, hn]
      intro h; omega
    · simp [hm, hn, mget_mset]

theorem vget_vset (n l m k : Nat) (v : W32) :
    (g.vset n l v).vget m k = if 32 * n + l = 32 * m + k then v else g.vget m k := by
  simp [Group.vget, Group.vset, mget_mset]

theorem ccget_ccset (l k : Nat) (c : Codes) : (g.ccset l c).ccget k = if l = k then c else g.ccget k := by
  simp [Group.ccget, Group.ccset, mget_mset]

@[simp] theorem ccget_vset (n l k : Nat) (v : W32) : (g.vset n l v).ccget k = g.ccget k := rfl

@[simp] theorem vget_ccset (l n k : Nat) (c : Codes) : (g.ccset l c).vget n k = g.vget n k := rfl

@[simp] theorem vget_overtake (d : Nat → Nat) (c : Machine.Cell) (n k : Nat) : (g.overtake d c).vget n k = g.vget n k := rfl

@[simp] theorem ccget_overtake (d : Nat → Nat) (c : Machine.Cell) (k : Nat) : (g.overtake d c).ccget k = g.ccget k := rfl

@[simp] theorem sget_overtake (d : Nat → Nat) (c : Machine.Cell) (k : Nat) : (g.overtake d c).sget k = g.sget k := rfl

end Sys2Proof.Laws
end

