-- ==== Sys2Proof/Laws/Flow.lean ====
section
/-! SUPPORT. What completing in sequence does: the end checks, `advance` and `jump` change nothing but the fragment, the
loop counters and the noted outcomes. -/

namespace Sys2Proof.Laws

open Sys2Proof.Machine Sys2Proof.Safety

/-- `h` is `g` but for its loop counters and noted outcomes. -/
def OnlyLoops (g h : Group) : Prop := h = { g with lc0 := h.lc0, lc1 := h.lc1, lc2 := h.lc2, checks := h.checks }

theorem OnlyLoops.refl (g : Group) : OnlyLoops g g := rfl

theorem OnlyLoops.trans {a b c : Group} (h : OnlyLoops a b) (k : OnlyLoops b c) : OnlyLoops a c := by
  unfold OnlyLoops at *
  rw [k, h]

theorem onlyLoops_setLc (g : Group) (i : Nat) (c : LoopCtr) : OnlyLoops g (g.setLc i c) := by
  unfold OnlyLoops Group.setLc
  split
  · rfl
  · split <;> rfl

theorem onlyLoops_outcome (g : Group) (a b : Bool) : OnlyLoops g (g.outcome a b) := rfl

theorem onlyLoops_endCheck (slot : Bool) : ∀ (is : List Nat) (g : Group), OnlyLoops g (g.endCheck slot is).1
  | [], g => rfl
  | i :: is, g => by
    unfold Group.endCheck
    dsimp only
    split
    · exact (onlyLoops_setLc g i _).trans (onlyLoops_outcome _ _ _)
    · exact ((onlyLoops_setLc g i _).trans (onlyLoops_outcome _ _ _)).trans (onlyLoops_endCheck slot is _)

theorem onlyLoops_sequel (g : Group) (slot : Bool) (pc : W64) (n : Nat) : OnlyLoops g (g.sequel slot pc n).1 := by
  have h1 := onlyLoops_endCheck slot (g.ending pc) g
  unfold Group.sequel
  dsimp only
  split
  · rename_i heq; rw [heq] at h1; exact h1
  · rename_i g' heq
    rw [heq] at h1
    split
    · have h2 := onlyLoops_endCheck slot (g'.ending (pc + 4)) g'
      split
      · rename_i heq2; rw [heq2] at h2; exact h1.trans h2
      · rename_i heq2; rw [heq2] at h2; exact h1.trans h2
    · exact h1

/-- Everything that completing in sequence can do. -/
theorem advance_spec (s : State) : OnlyFocus s s.advance ∧ OnlyFlow s s.advance := by
  unfold State.advance
  split
  · rename_i t ht
    refine ⟨rfl, ?_, ?_, ?_⟩
    · simp only [State.onFrag, State.onCur, Group.onFrag, Group.setFrag]
      cases s.issue.slot <;> rfl
    · simp only [State.onFrag, State.onCur, Group.onFrag, frag_setFrag]
      rfl
    · simp only [State.onFrag, State.onCur, Group.onFrag, frag_setFrag_other]
      rfl
  · have h := onlyLoops_sequel s.cur s.issue.slot s.issue.pc s.issue.words
    dsimp only
    generalize s.cur.sequel s.issue.slot s.issue.pc s.issue.words = r at h ⊢
    obtain ⟨g, t⟩ := r
    unfold OnlyLoops at h
    dsimp only at h
    refine ⟨rfl, ?_, ?_, ?_⟩
    · simp only [State.jump, State.onFrag, State.onCur, Group.onFrag, Group.setFrag]
      rw [h]
      cases s.issue.slot <;> rfl
    · simp only [State.jump, State.onFrag, State.onCur, Group.onFrag, frag_setFrag, State.frag]
      rw [h]
      generalize s.issue.slot = b
      cases b <;> rfl
    · simp only [State.jump, State.onFrag, State.onCur, Group.onFrag, frag_setFrag_other, State.other]
      rw [h]
      generalize s.issue.slot = b
      cases b <;> rfl

theorem advance_only (s : State) : OnlyFocus s s.advance := (advance_spec s).1

@[simp] theorem advance_groups (s : State) : s.advance.groups = s.groups := by rw [advance_only s]
@[simp] theorem advance_blocks (s : State) : s.advance.blocks = s.blocks := by rw [advance_only s]
@[simp] theorem advance_cores (s : State) : s.advance.cores = s.cores := by rw [advance_only s]
@[simp] theorem advance_clusters (s : State) : s.advance.clusters = s.clusters := by rw [advance_only s]
@[simp] theorem advance_slices (s : State) : s.advance.slices = s.slices := by rw [advance_only s]
@[simp] theorem advance_parts (s : State) : s.advance.parts = s.parts := by rw [advance_only s]
@[simp] theorem advance_mtc (s : State) : s.advance.mtc = s.mtc := by rw [advance_only s]
@[simp] theorem advance_mem (s : State) : s.advance.mem = s.mem := by rw [advance_only s]
@[simp] theorem advance_lineKey (s : State) : s.advance.lineKey = s.lineKey := by rw [advance_only s]
@[simp] theorem advance_poison (s : State) : s.advance.poison = s.poison := by rw [advance_only s]
@[simp] theorem advance_stale (s : State) : s.advance.stale = s.stale := by rw [advance_only s]
@[simp] theorem advance_hostMem (s : State) : s.advance.hostMem = s.hostMem := by rw [advance_only s]
@[simp] theorem advance_issue (s : State) : s.advance.issue = s.issue := by rw [advance_only s]
@[simp] theorem advance_args (s : State) : s.advance.args = s.args := by rw [advance_only s]
@[simp] theorem advance_agenda (s : State) : s.advance.agenda = s.agenda := by rw [advance_only s]
@[simp] theorem advance_later (s : State) : s.advance.later = s.later := by rw [advance_only s]
@[simp] theorem advance_free (s : State) : s.advance.free = s.free := by rw [advance_only s]
@[simp] theorem advance_cycle (s : State) : s.advance.cycle = s.cycle := by rw [advance_only s]
@[simp] theorem advance_refns (s : State) : s.advance.refns = s.refns := by rw [advance_only s]
@[simp] theorem advance_cur_info (s : State) : s.advance.cur.info = s.cur.info := by rw [(advance_spec s).2.1]
@[simp] theorem advance_cur_state (s : State) : s.advance.cur.state = s.cur.state := by rw [(advance_spec s).2.1]
@[simp] theorem advance_cur_priv (s : State) : s.advance.cur.priv = s.cur.priv := by rw [(advance_spec s).2.1]
@[simp] theorem advance_cur_t0 (s : State) : s.advance.cur.t0 = s.cur.t0 := by rw [(advance_spec s).2.1]
@[simp] theorem advance_cur_t1 (s : State) : s.advance.cur.t1 = s.cur.t1 := by rw [(advance_spec s).2.1]
@[simp] theorem advance_cur_stack (s : State) : s.advance.cur.stack = s.cur.stack := by rw [(advance_spec s).2.1]
@[simp] theorem advance_cur_area (s : State) : s.advance.cur.area = s.cur.area := by rw [(advance_spec s).2.1]
@[simp] theorem advance_cur_mode (s : State) : s.advance.cur.mode = s.cur.mode := by rw [(advance_spec s).2.1]
@[simp] theorem advance_cur_ovt (s : State) : s.advance.cur.ovt = s.cur.ovt := by rw [(advance_spec s).2.1]
@[simp] theorem advance_cur_sregs (s : State) : s.advance.cur.sregs = s.cur.sregs := by rw [(advance_spec s).2.1]
@[simp] theorem advance_cur_flags (s : State) : s.advance.cur.flags = s.cur.flags := by rw [(advance_spec s).2.1]
@[simp] theorem advance_cur_vregs (s : State) : s.advance.cur.vregs = s.cur.vregs := by rw [(advance_spec s).2.1]
@[simp] theorem advance_cur_cc (s : State) : s.advance.cur.cc = s.cur.cc := by rw [(advance_spec s).2.1]
@[simp] theorem advance_cur_stoch (s : State) : s.advance.cur.stoch = s.cur.stoch := by rw [(advance_spec s).2.1]
@[simp] theorem advance_cur_acc (s : State) : s.advance.cur.acc = s.cur.acc := by rw [(advance_spec s).2.1]
@[simp] theorem advance_cur_accPoison (s : State) : s.advance.cur.accPoison = s.cur.accPoison := by rw [(advance_spec s).2.1]
@[simp] theorem advance_cur_tx (s : State) : s.advance.cur.tx = s.cur.tx := by rw [(advance_spec s).2.1]
@[simp] theorem advance_cur_snap (s : State) : s.advance.cur.snap = s.cur.snap := by rw [(advance_spec s).2.1]
@[simp] theorem advance_cur_launchSnap (s : State) : s.advance.cur.launchSnap = s.cur.launchSnap := by rw [(advance_spec s).2.1]
@[simp] theorem advance_cur_energy (s : State) : s.advance.cur.energy = s.cur.energy := by rw [(advance_spec s).2.1]
@[simp] theorem advance_cur_storeTime (s : State) : s.advance.cur.storeTime = s.cur.storeTime := by rw [(advance_spec s).2.1]
@[simp] theorem advance_cur_ctrs (s : State) : s.advance.cur.ctrs = s.cur.ctrs := by rw [(advance_spec s).2.1]
@[simp] theorem advance_cur_clkBase (s : State) : s.advance.cur.clkBase = s.cur.clkBase := by rw [(advance_spec s).2.1]
@[simp] theorem advance_cur_pend (s : State) : s.advance.cur.pend = s.cur.pend := by rw [(advance_spec s).2.1]
@[simp] theorem advance_cur_barArrived (s : State) : s.advance.cur.barArrived = s.cur.barArrived := by rw [(advance_spec s).2.1]
@[simp] theorem advance_cur_gbarArrived (s : State) : s.advance.cur.gbarArrived = s.cur.gbarArrived := by rw [(advance_spec s).2.1]
@[simp] theorem advance_cur_gbarLeft (s : State) : s.advance.cur.gbarLeft = s.cur.gbarLeft := by rw [(advance_spec s).2.1]
@[simp] theorem advance_cur_stopReq (s : State) : s.advance.cur.stopReq = s.cur.stopReq := by rw [(advance_spec s).2.1]
@[simp] theorem advance_cur_watchdog (s : State) : s.advance.cur.watchdog = s.cur.watchdog := by rw [(advance_spec s).2.1]

@[simp] theorem advance_vget (s : State) (n l : Nat) : s.advance.cur.vget n l = s.cur.vget n l := by simp [Group.vget]

@[simp] theorem advance_sget (s : State) (n : Nat) : s.advance.cur.sget n = s.cur.sget n := by simp [Group.sget]

@[simp] theorem advance_ccget (s : State) (l : Nat) : s.advance.cur.ccget l = s.cur.ccget l := by simp [Group.ccget]

/-! ### The program counter -/

theorem ending_none (g : Group) (h : g.loopActive = false) (e : W64) : g.ending e = [] := by
  simp only [Group.loopActive, Bool.or_eq_false_iff] at h
  simp [Group.ending, Group.lc, h.1.1, h.1.2, h.2]

/-- With no loop counter active, F continues behind the words of the instruction. -/
theorem advance_pc (s : State) (h : s.cur.loopActive = false) (hr : s.frag.redo = none) :
    (s.advance.cur.frag s.issue.slot).pc = s.issue.pc + BitVec.ofNat 64 (4 * s.issue.words) := by
  unfold State.advance
  rw [hr]
  simp only [Group.sequel, ending_none _ h, Group.endCheck, ite_self]
  simp only [State.jump, State.onFrag, State.onCur, Group.onFrag, frag_setFrag]

end Sys2Proof.Laws
end

