-- ==== Sys2Proof/Laws/Memory.lean ====
section
/-! SUPPORT. Laws of memory: a read after a write, and the canonical form, which every operation that stores bytes keeps. -/

namespace Sys2Proof.Laws

open Sys2Proof.Machine

/-! ### Bytes -/

/-- Read after write: the stored bytes read back, every other address reads as before. -/
theorem mget_putBytes : ∀ (bs : List Byte) (m : List Host.Cell) (a j : Nat),
    mget 0 (putBytes m a bs) j = if a ≤ j ∧ j < a + bs.length then bs.getD (j - a) 0 else mget 0 m j
  | [], m, a, j => by
    have : ¬ (a ≤ j ∧ j < a) := by omega
    simp [putBytes, this]
  | b :: r, m, a, j => by
    rw [putBytes, mget_putBytes r, mget_mset]
    by_cases h : a = j
    · subst h
      have h1 : ¬ (a + 1 ≤ a ∧ a < a + 1 + r.length) := by omega
      have h2 : a ≤ a ∧ a < a + (b :: r).length := by simp
      rw [if_neg h1, if_pos rfl, if_pos h2]
      simp
    · have e : (a + 1 ≤ j ∧ j < a + 1 + r.length) ↔ (a ≤ j ∧ j < a + (b :: r).length) := by
        simp only [List.length_cons]
        omega
      simp only [e, h, if_false]
      split
      · rename_i h2
        obtain ⟨n, hn⟩ : ∃ n, j - a = n + 1 := ⟨j - a - 1, by omega⟩
        have : j - (a + 1) = n := by omega
        simp [hn, this]
      · rfl

theorem putBytes_wf : ∀ (bs : List Byte) (m : List Host.Cell) (a : Nat),
    Memory.wf m = true → Memory.wf (putBytes m a bs) = true
  | [], _, _, h => h
  | _ :: r, m, a, h => putBytes_wf r _ _ (mwf_mset 0 m a _ h)

theorem reset_wf : Memory.wf State.reset.mem = true := rfl

/-! ### Lines and ranges -/

theorem rekey_wf (s : State) (p key ln : Nat) (h : Memory.wf s.mem = true) : Memory.wf (s.rekey p key ln).mem = true := by
  unfold State.rekey
  dsimp only
  split
  · exact h
  · split
    · exact h
    · dsimp only
      refine forN_keeps (fun m : List Host.Cell => Memory.wf m = true) _ (fun i m hm => ?_) 64 s.mem h
      exact mwf_mset 0 m _ _ hm

/-- R66: a line that records no other KEY_ID keeps its bytes. -/
theorem rekey_mem (s : State) (p key ln : Nat) (h : mget 0 s.lineKey ln = 0 ∨ mget 0 s.lineKey ln = key + 1) :
    (s.rekey p key ln).mem = s.mem := by
  unfold State.rekey
  dsimp only
  split
  · rfl
  · rename_i h1
    rw [if_pos (h.resolve_right h1)]

theorem noteStale_mem (s t : State) (p a n : Nat) : (s.noteStale t p a n).mem = t.mem := by
  unfold State.noteStale
  split <;> rfl

theorem memWrite_wf (s : State) (p key ppa : Nat) (bs : List Byte) (h : Memory.wf s.mem = true) :
    Memory.wf (s.memWrite p key ppa bs).mem = true := by
  unfold State.memWrite
  dsimp only
  rw [noteStale_mem]
  refine putBytes_wf _ _ _ ?_
  split
  · exact h
  · exact foldl_keeps (fun t : State => Memory.wf t.mem = true) _ (fun t i ht => rekey_wf t p key _ ht) _ s h

theorem setPoison_mem (s : State) (p ppa : Nat) (b : Bool) : (s.setPoison p ppa b).mem = s.mem := rfl

theorem clearWritten_mem (s : State) (p ppa n : Nat) : (s.clearWritten p ppa n).mem = s.mem := by
  unfold State.clearWritten
  split <;> rfl

/-- What the module knows of host memory after it has written it: the bytes written, and no other. -/
theorem mget_putHost : ∀ (bs : List Byte) (m : NatMap (Option Byte)) (a j : Nat),
    mget none (putHost m a bs) j = if a ≤ j ∧ j < a + bs.length then some (bs.getD (j - a) 0) else mget none m j
  | [], m, a, j => by
    have : ¬ (a ≤ j ∧ j < a) := by omega
    simp [putHost, this]
  | b :: r, m, a, j => by
    rw [putHost, mget_putHost r, mget_mset]
    by_cases h : a = j
    · subst h
      simp
    · by_cases h1 : a + 1 ≤ j ∧ j < a + 1 + r.length
      · have h2 : a ≤ j ∧ j < a + (b :: r).length := by simp only [List.length_cons]; omega
        obtain ⟨n, hn⟩ : ∃ n, j - a = n + 1 := ⟨j - a - 1, by omega⟩
        have : j - (a + 1) = n := by omega
        rw [if_pos h1, if_pos h2, this, hn]
        simp
      · have h2 : ¬ (a ≤ j ∧ j < a + (b :: r).length) := by simp only [List.length_cons]; omega
        simp only [h1, h2, h, if_false]

theorem putHost_wf : ∀ (bs : List Byte) (m : NatMap (Option Byte)) (a : Nat), mwf none m = true → mwf none (putHost m a bs) = true
  | [], _, _, h => h
  | _ :: r, m, a, h => putHost_wf r _ _ (mwf_mset none m a _ h)

theorem hostWrite_wf (s : State) (ppa : Nat) (bs : List Byte) (h : mwf none s.hostMem = true) :
    mwf none (s.hostWrite ppa bs).hostMem = true := putHost_wf bs _ _ h

/-- R33: the lines above the tops go, the rest stays in form. -/
theorem discardAbove_wf (s : State) (p htop ttop : Nat) (h : Memory.wf s.mem = true) :
    Memory.wf (s.discardAbove p htop ttop).mem = true := mwf_filter 0 _ _ h

/-- R39: power loss leaves memory with nothing listed. -/
theorem powerLoss_mem (s t : State) (h : execPowerLoss s = .next t) : t.mem = [] := by
  cases h
  rfl

theorem withFetchWord_wf (s : State) (nbits w : Nat) (h : Memory.wf s.mem = true) :
    Memory.wf (s.withFetchWord nbits w).mem = true := putBytes_wf _ _ _ (putBytes_wf _ _ _ h)

/-! ### At the home -/

theorem onPart_keeps_mem (s : State) (i : Nat) (f : Partition → Partition) : (s.onPart i f).mem = s.mem := rfl

theorem setChain_mem (s : State) (p ppa : Nat) (c : Chain) : (s.setChain p ppa c).mem = s.mem := rfl

/-- A plain write of any agent at the home is `memWrite` with the poison of whole lines cleared (R128, R135). -/
theorem homeWrite_plain (s : State) (p key ppa : Nat) (bs : List Byte) (hl : (s.part p).lost ppa = false)
    (hc : s.chain p ppa = .none) :
    s.homeWrite p key ppa false bs = .ok ((s.memWrite p key ppa bs).clearWritten p ppa bs.length) := by
  simp [State.homeWrite, hl, hc]

theorem homeWrite_lost (s : State) (p key ppa : Nat) (v : Bool) (bs : List Byte) (hl : (s.part p).lost ppa = true) :
    s.homeWrite p key ppa v bs = .lost := by
  simp [State.homeWrite, hl]

/-- What a write at its home leaves has memory in its form. -/
def EndWf : WriteEnd → Prop
  | .ok s => Memory.wf s.mem = true
  | .pool s _ => Memory.wf s.mem = true
  | .abort s _ => Memory.wf s.mem = true
  | .wait _ => True
  | .lost => True

theorem setGroup_mem (s : State) (g : Group) : (s.setGroup g).mem = s.mem := by
  unfold State.setGroup
  split <;> rfl

theorem onGroup_mem (s : State) (k : GroupKey) (f : Group → Group) : (s.onGroup k f).mem = s.mem := by
  unfold State.onGroup
  split
  · exact setGroup_mem _ _
  · rfl

theorem abortHolder_mem (s : State) (p ppa : Nat) (st : BitVec 3) : (s.abortHolder p ppa st).mem = s.mem := by
  unfold State.abortHolder
  dsimp only
  split
  · rfl
  · rw [onPart_keeps_mem, onGroup_mem]

theorem spill_wf (s : State) (p ppa r : Nat) (c : Chain) (v : Version) (h : Memory.wf s.mem = true) :
    Memory.wf (s.spill p ppa r c v).1.mem = true := by
  simp only [State.spill, onPart_keeps_mem, clearWritten_mem]
  exact memWrite_wf _ _ _ _ _ h

theorem makeRoom_wf (s : State) (p ppa : Nat) (c : Chain) (h : Memory.wf s.mem = true) :
    ∀ r, s.makeRoom p ppa c = some r → Memory.wf r.1.mem = true := by
  intro r hr
  unfold State.makeRoom State.spillOldest at hr
  dsimp only at hr
  repeat' split at hr
  all_goals first
    | (cases hr; exact h)
    | exact Option.some.inj hr ▸ spill_wf _ _ _ _ _ _ h
    | exact absurd hr (by simp)

theorem commitWrite_wf (s : State) (p key ppa : Nat) (bs : List Byte) (since : Option Nat) (h : Memory.wf s.mem = true) :
    EndWf (s.commitWrite p key ppa bs since) := by
  unfold State.commitWrite
  dsimp only
  split
  · rename_i e he
    unfold State.seqHold at he
    dsimp only at he
    repeat' split at he
    all_goals first
      | (cases he; trivial)
      | exact absurd he (by simp)
  · split
    · simpa only [EndWf, clearWritten_mem] using memWrite_wf s p key ppa bs h
    · split
      · exact h
      · split
        · exact h
        · rename_i hm
          have h2 := makeRoom_wf _ p ppa _ ((congrArg Memory.wf (abortHolder_mem s p ppa 1)).trans h) _ hm
          simp only [EndWf, clearWritten_mem, onPart_keeps_mem, setChain_mem]
          exact memWrite_wf _ _ _ _ _ h2

theorem txWrite_wf (s : State) (g : Group) (p key ppa : Nat) (gva : W64) (bs : List Byte) (h : Memory.wf s.mem = true) :
    EndWf (s.txWrite g p key ppa gva bs) := by
  unfold State.txWrite
  dsimp only
  split
  · split
    · exact h
    · exact h
  · split
    · exact h
    · split
      · exact h
      · split
        · exact h
        · rename_i hm
          have h2 := makeRoom_wf _ p ppa _ h _ hm
          simpa only [EndWf, onGroup_mem, setChain_mem] using h2

/-- Every write at a home keeps the form of memory (R135, R140, R142). -/
theorem homeWrite_wf (s : State) (p key ppa : Nat) (v : Bool) (bs : List Byte) (h : Memory.wf s.mem = true) :
    EndWf (s.homeWrite p key ppa v bs) := by
  unfold State.homeWrite
  split
  · trivial
  · split
    · exact commitWrite_wf s p key ppa bs none h
    · simpa only [EndWf, clearWritten_mem] using memWrite_wf s p key ppa bs h

theorem groupWrite_wf (s : State) (k : GroupKey) (p key ppa : Nat) (gva : W64) (v : Bool) (bs : List Byte) (since : Option Nat)
    (h : Memory.wf s.mem = true) : EndWf (s.groupWrite k p key ppa gva v bs since) := by
  unfold State.groupWrite
  split
  · trivial
  · split
    · split
      · split
        · exact txWrite_wf s _ p key ppa gva bs h
        · exact commitWrite_wf s p key ppa bs since h
      · exact commitWrite_wf s p key ppa bs since h
    · simpa only [EndWf, clearWritten_mem] using memWrite_wf s p key ppa bs h

theorem deviceWrite_wf (s : State) (p ppa : Nat) (bs : List Byte) (h : Memory.wf s.mem = true) :
    Memory.wf (s.deviceWrite p ppa bs).mem = true := by
  unfold State.deviceWrite
  split
  · rename_i hw
    have := homeWrite_wf s p 0 ppa false bs h
    rw [hw] at this
    exact this
  · exact h

end Sys2Proof.Laws
end

