-- ==== Sys2Proof/Laws/PerInstr.lean ====
section
/-! SUPPORT. Encodings per instruction: what decoding makes of the fields that encoding gives, one lemma per constructor. -/

namespace Sys2Proof.Laws

/-! ### Fields cut from fields put together -/

theorem extract_low {m n : Nat} (x : BitVec m) (y : BitVec n) : (x ++ y).extractLsb' 0 n = y := by
  apply BitVec.eq_of_getLsbD_eq
  intro i hi
  simp [BitVec.getLsbD_append, hi]

theorem extract_high {m n : Nat} (x : BitVec m) (y : BitVec n) (k len : Nat) :
    (x ++ y).extractLsb' (n + k) len = x.extractLsb' k len := by
  apply BitVec.eq_of_getLsbD_eq
  intro i hi
  have h : ¬ (n + k + i < n) := by omega
  have e : n + k + i - n = k + i := by omega
  simp [BitVec.getLsbD_append, hi, h, e]

theorem extract_all {n : Nat} (x : BitVec n) : x.extractLsb' 0 n = x := by
  apply BitVec.eq_of_getLsbD_eq
  intro i hi
  simp [hi]

theorem extract_within {m n : Nat} (x : BitVec m) (y : BitVec n) (k len : Nat) (h : k + len ≤ n) :
    (x ++ y).extractLsb' k len = y.extractLsb' k len := by
  apply BitVec.eq_of_getLsbD_eq
  intro i hi
  have e : k + i < n := by omega
  simp [BitVec.getLsbD_append, hi, e]

theorem append_extract {m n : Nat} (x : BitVec (m + n)) : x.extractLsb' n m ++ x.extractLsb' 0 n = x := by
  simp

theorem split_joinV3 (x : V3Fields) : splitV3 (joinV3 x) = x := by
  obtain ⟨d, a, b, fn⟩ := x
  simp only [splitV3, joinV3, V3Fields.mk.injEq]
  exact ⟨(extract_high (d ++ a ++ b) fn 14 7).trans ((extract_high (d ++ a) b 7 7).trans ((extract_high (d) a 0 7).trans (extract_all d))),
    (extract_high (d ++ a ++ b) fn 7 7).trans ((extract_high (d ++ a) b 0 7).trans (extract_low (d) a)),
    (extract_high (d ++ a ++ b) fn 0 7).trans (extract_low (d ++ a) b),
    extract_low (d ++ a ++ b) fn⟩

theorem split_joinVI (x : VIFields) : splitVI (joinVI x) = x := by
  obtain ⟨d, a, i⟩ := x
  simp only [splitVI, joinVI, VIFields.mk.injEq]
  exact ⟨(extract_high (d ++ a) i 7 7).trans ((extract_high (d) a 0 7).trans (extract_all d)),
    (extract_high (d ++ a) i 0 7).trans (extract_low (d) a),
    extract_low (d ++ a) i⟩

theorem split_joinVU (x : VUFields) : splitVU (joinVU x) = x := by
  obtain ⟨d, a, b, fn⟩ := x
  simp only [splitVU, joinVU, VUFields.mk.injEq]
  exact ⟨(extract_high (d ++ a ++ b) fn 13 7).trans ((extract_high (d ++ a) b 7 7).trans ((extract_high (d) a 0 7).trans (extract_all d))),
    (extract_high (d ++ a ++ b) fn 6 7).trans ((extract_high (d ++ a) b 0 7).trans (extract_low (d) a)),
    (extract_high (d ++ a ++ b) fn 0 6).trans (extract_low (d ++ a) b),
    extract_low (d ++ a ++ b) fn⟩

theorem split_joinU3 (x : U3Fields) : splitU3 (joinU3 x) = x := by
  obtain ⟨d, a, b, fn⟩ := x
  simp only [splitU3, joinU3, U3Fields.mk.injEq]
  exact ⟨(extract_high (d ++ a ++ b) fn 12 6).trans ((extract_high (d ++ a) b 6 6).trans ((extract_high (d) a 0 6).trans (extract_all d))),
    (extract_high (d ++ a ++ b) fn 6 6).trans ((extract_high (d ++ a) b 0 6).trans (extract_low (d) a)),
    (extract_high (d ++ a ++ b) fn 0 6).trans (extract_low (d ++ a) b),
    extract_low (d ++ a ++ b) fn⟩

theorem split_joinUI (x : UIFields) : splitUI (joinUI x) = x := by
  obtain ⟨d, a, i⟩ := x
  simp only [splitUI, joinUI, UIFields.mk.injEq]
  exact ⟨(extract_high (d ++ a) i 6 6).trans ((extract_high (d) a 0 6).trans (extract_all d)),
    (extract_high (d ++ a) i 0 6).trans (extract_low (d) a),
    extract_low (d ++ a) i⟩

theorem split_joinL (x : LFields) : splitL (joinL x) = x := by
  obtain ⟨d, z⟩ := x
  simp only [splitL, joinL, LFields.mk.injEq]
  exact ⟨(extract_high (d) z 0 6).trans (extract_all d),
    extract_low (d) z⟩

theorem split_joinM (x : MFields) : splitM (joinM x) = x := by
  obtain ⟨t, o, b, n, r⟩ := x
  simp only [splitM, joinM, MFields.mk.injEq]
  exact ⟨(extract_high (t ++ o ++ b ++ n) r 15 7).trans ((extract_high (t ++ o ++ b) n 13 7).trans ((extract_high (t ++ o) b 7 7).trans ((extract_high (t) o 0 7).trans (extract_all t)))),
    (extract_high (t ++ o ++ b ++ n) r 8 7).trans ((extract_high (t ++ o ++ b) n 6 7).trans ((extract_high (t ++ o) b 0 7).trans (extract_low (t) o))),
    (extract_high (t ++ o ++ b ++ n) r 2 6).trans ((extract_high (t ++ o ++ b) n 0 6).trans (extract_low (t ++ o) b)),
    (extract_high (t ++ o ++ b ++ n) r 0 2).trans (extract_low (t ++ o ++ b) n),
    extract_low (t ++ o ++ b ++ n) r⟩

theorem split_joinMF (x : MFFields) : splitMF (joinMF x) = x := by
  obtain ⟨t, o, b, fn, r⟩ := x
  simp only [splitMF, joinMF, MFFields.mk.injEq]
  exact ⟨(extract_high (t ++ o ++ b ++ fn) r 15 7).trans ((extract_high (t ++ o ++ b) fn 11 7).trans ((extract_high (t ++ o) b 7 7).trans ((extract_high (t) o 0 7).trans (extract_all t)))),
    (extract_high (t ++ o ++ b ++ fn) r 8 7).trans ((extract_high (t ++ o ++ b) fn 4 7).trans ((extract_high (t ++ o) b 0 7).trans (extract_low (t) o))),
    (extract_high (t ++ o ++ b ++ fn) r 4 4).trans ((extract_high (t ++ o ++ b) fn 0 4).trans (extract_low (t ++ o) b)),
    (extract_high (t ++ o ++ b ++ fn) r 0 4).trans (extract_low (t ++ o ++ b) fn),
    extract_low (t ++ o ++ b ++ fn) r⟩

theorem split_joinB (x : BFields) : splitB (joinB x) = x := congrArg BFields.mk (extract_all x.o)

theorem split_joinC (x : CFields) : splitC (joinC x) = x := by
  obtain ⟨c, o⟩ := x
  simp only [splitC, joinC, CFields.mk.injEq]
  exact ⟨(extract_high (c) o 0 4).trans (extract_all c),
    extract_low (c) o⟩

theorem split_joinBL (x : BLFields) : splitBL (joinBL x) = x := by
  obtain ⟨d, o⟩ := x
  simp only [splitBL, joinBL, BLFields.mk.injEq]
  exact ⟨(extract_high (d) o 0 6).trans (extract_all d),
    extract_low (d) o⟩

theorem split_joinRJ (x : RJFields) : splitRJ (joinRJ x) = x := by
  obtain ⟨fn, z⟩ := x
  simp only [splitRJ, joinRJ, RJFields.mk.injEq]
  exact ⟨(extract_high (fn) z 0 2).trans (extract_all fn),
    extract_low (fn) z⟩

theorem split_joinLP (x : LPFields) : splitLP (joinLP x) = x := by
  obtain ⟨c, a, z, n⟩ := x
  simp only [splitLP, joinLP, LPFields.mk.injEq]
  exact ⟨(extract_high (c ++ a ++ z) n 14 2).trans ((extract_high (c ++ a) z 6 2).trans ((extract_high (c) a 0 2).trans (extract_all c))),
    (extract_high (c ++ a ++ z) n 8 6).trans ((extract_high (c ++ a) z 0 6).trans (extract_low (c) a)),
    (extract_high (c ++ a ++ z) n 0 8).trans (extract_low (c ++ a) z),
    extract_low (c ++ a ++ z) n⟩

theorem split_joinLPI (x : LPIFields) : splitLPI (joinLPI x) = x := by
  obtain ⟨c, i, n⟩ := x
  simp only [splitLPI, joinLPI, LPIFields.mk.injEq]
  exact ⟨(extract_high (c ++ i) n 14 2).trans ((extract_high (c) i 0 2).trans (extract_all c)),
    (extract_high (c ++ i) n 0 14).trans (extract_low (c) i),
    extract_low (c ++ i) n⟩

theorem split_joinX (x : XFields) : splitX (joinX x) = x := by
  obtain ⟨d, a, b, fn⟩ := x
  simp only [splitX, joinX, XFields.mk.injEq]
  exact ⟨(extract_high (d ++ a ++ b) fn 12 6).trans ((extract_high (d ++ a) b 6 6).trans ((extract_high (d) a 0 6).trans (extract_all d))),
    (extract_high (d ++ a ++ b) fn 6 6).trans ((extract_high (d ++ a) b 0 6).trans (extract_low (d) a)),
    (extract_high (d ++ a ++ b) fn 0 6).trans (extract_low (d ++ a) b),
    extract_low (d ++ a ++ b) fn⟩

theorem split_joinBT (x : BTFields) : splitBT (joinBT x) = x := by
  obtain ⟨fn, q, y, c, a, b⟩ := x
  simp only [splitBT, joinBT, BTFields.mk.injEq]
  exact ⟨(extract_high (fn ++ q ++ y ++ c ++ a) b 16 2).trans ((extract_high (fn ++ q ++ y ++ c) a 10 2).trans ((extract_high (fn ++ q ++ y) c 7 2).trans ((extract_high (fn ++ q) y 3 2).trans ((extract_high (fn) q 0 2).trans (extract_all fn))))),
    (extract_high (fn ++ q ++ y ++ c ++ a) b 13 3).trans ((extract_high (fn ++ q ++ y ++ c) a 7 3).trans ((extract_high (fn ++ q ++ y) c 4 3).trans ((extract_high (fn ++ q) y 0 3).trans (extract_low (fn) q)))),
    (extract_high (fn ++ q ++ y ++ c ++ a) b 9 4).trans ((extract_high (fn ++ q ++ y ++ c) a 3 4).trans ((extract_high (fn ++ q ++ y) c 0 4).trans (extract_low (fn ++ q) y))),
    (extract_high (fn ++ q ++ y ++ c ++ a) b 6 3).trans ((extract_high (fn ++ q ++ y ++ c) a 0 3).trans (extract_low (fn ++ q ++ y) c)),
    (extract_high (fn ++ q ++ y ++ c ++ a) b 0 6).trans (extract_low (fn ++ q ++ y ++ c) a),
    extract_low (fn ++ q ++ y ++ c ++ a) b⟩

theorem split_joinMM (x : MMFields) : splitMM (joinMM x) = x := by
  obtain ⟨c, q, z, y, a, b, g⟩ := x
  simp only [splitMM, joinMM, MMFields.mk.injEq]
  exact ⟨(extract_high (c ++ q ++ z ++ y ++ a ++ b) g 20 2).trans ((extract_high (c ++ q ++ z ++ y ++ a) b 14 2).trans ((extract_high (c ++ q ++ z ++ y) a 8 2).trans ((extract_high (c ++ q ++ z) y 4 2).trans ((extract_high (c ++ q) z 3 2).trans ((extract_high (c) q 0 2).trans (extract_all c)))))),
    (extract_high (c ++ q ++ z ++ y ++ a ++ b) g 17 3).trans ((extract_high (c ++ q ++ z ++ y ++ a) b 11 3).trans ((extract_high (c ++ q ++ z ++ y) a 5 3).trans ((extract_high (c ++ q ++ z) y 1 3).trans ((extract_high (c ++ q) z 0 3).trans (extract_low (c) q))))),
    (extract_high (c ++ q ++ z ++ y ++ a ++ b) g 16 1).trans ((extract_high (c ++ q ++ z ++ y ++ a) b 10 1).trans ((extract_high (c ++ q ++ z ++ y) a 4 1).trans ((extract_high (c ++ q ++ z) y 0 1).trans (extract_low (c ++ q) z)))),
    (extract_high (c ++ q ++ z ++ y ++ a ++ b) g 12 4).trans ((extract_high (c ++ q ++ z ++ y ++ a) b 6 4).trans ((extract_high (c ++ q ++ z ++ y) a 0 4).trans (extract_low (c ++ q ++ z) y))),
    (extract_high (c ++ q ++ z ++ y ++ a ++ b) g 6 6).trans ((extract_high (c ++ q ++ z ++ y ++ a) b 0 6).trans (extract_low (c ++ q ++ z ++ y) a)),
    (extract_high (c ++ q ++ z ++ y ++ a ++ b) g 0 6).trans (extract_low (c ++ q ++ z ++ y ++ a) b),
    extract_low (c ++ q ++ z ++ y ++ a ++ b) g⟩

theorem split_joinAC (x : ACFields) : splitAC (joinAC x) = x := by
  obtain ⟨fn, t, v, b, n, g⟩ := x
  simp only [splitAC, joinAC, ACFields.mk.injEq]
  exact ⟨(extract_high (fn ++ t ++ v ++ b ++ n) g 17 2).trans ((extract_high (fn ++ t ++ v ++ b) n 15 2).trans ((extract_high (fn ++ t ++ v) b 9 2).trans ((extract_high (fn ++ t) v 2 2).trans ((extract_high (fn) t 0 2).trans (extract_all fn))))),
    (extract_high (fn ++ t ++ v ++ b ++ n) g 15 2).trans ((extract_high (fn ++ t ++ v ++ b) n 13 2).trans ((extract_high (fn ++ t ++ v) b 7 2).trans ((extract_high (fn ++ t) v 0 2).trans (extract_low (fn) t)))),
    (extract_high (fn ++ t ++ v ++ b ++ n) g 8 7).trans ((extract_high (fn ++ t ++ v ++ b) n 6 7).trans ((extract_high (fn ++ t ++ v) b 0 7).trans (extract_low (fn ++ t) v))),
    (extract_high (fn ++ t ++ v ++ b ++ n) g 2 6).trans ((extract_high (fn ++ t ++ v ++ b) n 0 6).trans (extract_low (fn ++ t ++ v) b)),
    (extract_high (fn ++ t ++ v ++ b ++ n) g 0 2).trans (extract_low (fn ++ t ++ v ++ b) n),
    extract_low (fn ++ t ++ v ++ b ++ n) g⟩

/-! ### One lemma per constructor -/

/-- Decoding the fields that encoding gives returns the instruction; a device step has no fields. -/
def RoundTrip.Statement (i : Instr) : Prop :=
  i.wf = true → ∀ (f : BitVec 30) (lit : W32), encodeFields i = some f → (∀ l, literalOf i = some l → lit = l) →
    decodeInstr (f.extractLsb' 24 6) (f.extractLsb' 0 24) lit = .ok i

theorem roundTrip_raw (i : Instr) (m : BitVec 6) (b : BitVec 24) (he : encodeFields i = some (m ++ b))
    (hd : ∀ lit : W32, (∀ l, literalOf i = some l → lit = l) → decodeRaw m b lit = .ok i) : RoundTrip.Statement i := by
  intro hw f lit hf hl
  rw [he] at hf
  cases hf
  rw [show (m ++ b).extractLsb' 24 6 = m from (extract_high m b 0 6).trans (extract_all m), extract_low m b, decodeInstr, hd lit hl]
  simp [hw]

theorem roundTrip_none (i : Instr) (he : encodeFields i = none) : RoundTrip.Statement i := by
  intro _ f lit hf
  rw [he] at hf
  exact absurd hf (by simp)

theorem decode_raw00 (x : XFields) (lit : W32) : decodeRaw 0x00 (joinX x) lit = dec00 x :=
  congrArg (fun x => dec00 x) (split_joinX x)

theorem decode_raw01 (x : XFields) (lit : W32) : decodeRaw 0x01 (joinX x) lit = dec01 x lit :=
  congrArg (fun x => dec01 x lit) (split_joinX x)

theorem decode_raw02 (x : BFields) (lit : W32) : decodeRaw 0x02 (joinB x) lit = dec02 x :=
  congrArg (fun x => dec02 x) (split_joinB x)

theorem decode_raw03 (x : CFields) (lit : W32) : decodeRaw 0x03 (joinC x) lit = dec03 x :=
  congrArg (fun x => dec03 x) (split_joinC x)

theorem decode_raw04 (x : BLFields) (lit : W32) : decodeRaw 0x04 (joinBL x) lit = dec04 x :=
  congrArg (fun x => dec04 x) (split_joinBL x)

theorem decode_raw05 (x : XFields) (lit : W32) : decodeRaw 0x05 (joinX x) lit = dec05 x :=
  congrArg (fun x => dec05 x) (split_joinX x)

theorem decode_raw06 (x : CFields) (lit : W32) : decodeRaw 0x06 (joinC x) lit = dec06 x :=
  congrArg (fun x => dec06 x) (split_joinC x)

theorem decode_raw07 (x : RJFields) (lit : W32) : decodeRaw 0x07 (joinRJ x) lit = dec07 x :=
  congrArg (fun x => dec07 x) (split_joinRJ x)

theorem decode_raw08 (x : LPFields) (lit : W32) : decodeRaw 0x08 (joinLP x) lit = dec08 x :=
  congrArg (fun x => dec08 x) (split_joinLP x)

theorem decode_raw09 (x : LPIFields) (lit : W32) : decodeRaw 0x09 (joinLPI x) lit = dec09 x :=
  congrArg (fun x => dec09 x) (split_joinLPI x)

theorem decode_raw0A (x : XFields) (lit : W32) : decodeRaw 0x0A (joinX x) lit = dec0A x :=
  congrArg (fun x => dec0A x) (split_joinX x)

theorem decode_raw10 (x : V3Fields) (lit : W32) : decodeRaw 0x10 (joinV3 x) lit = dec10 x :=
  congrArg (fun x => dec10 x) (split_joinV3 x)

theorem decode_raw11 (x : V3Fields) (lit : W32) : decodeRaw 0x11 (joinV3 x) lit = dec11 x :=
  congrArg (fun x => dec11 x) (split_joinV3 x)

theorem decode_raw12 (x : V3Fields) (lit : W32) : decodeRaw 0x12 (joinV3 x) lit = dec12 x :=
  congrArg (fun x => dec12 x) (split_joinV3 x)

theorem decode_raw13 (x : V3Fields) (lit : W32) : decodeRaw 0x13 (joinV3 x) lit = dec13 x :=
  congrArg (fun x => dec13 x) (split_joinV3 x)

theorem decode_raw14 (x : VIFields) (lit : W32) : decodeRaw 0x14 (joinVI x) lit = dec14 x :=
  congrArg (fun x => dec14 x) (split_joinVI x)

theorem decode_raw15 (x : VIFields) (lit : W32) : decodeRaw 0x15 (joinVI x) lit = dec15 x :=
  congrArg (fun x => dec15 x) (split_joinVI x)

theorem decode_raw16 (x : VIFields) (lit : W32) : decodeRaw 0x16 (joinVI x) lit = dec16 x :=
  congrArg (fun x => dec16 x) (split_joinVI x)

theorem decode_raw17 (x : VIFields) (lit : W32) : decodeRaw 0x17 (joinVI x) lit = dec17 x :=
  congrArg (fun x => dec17 x) (split_joinVI x)

theorem decode_raw18 (x : VIFields) (lit : W32) : decodeRaw 0x18 (joinVI x) lit = dec18 x :=
  congrArg (fun x => dec18 x) (split_joinVI x)

theorem decode_raw19 (x : VUFields) (lit : W32) : decodeRaw 0x19 (joinVU x) lit = dec19 x :=
  congrArg (fun x => dec19 x) (split_joinVU x)

theorem decode_raw1A (x : V3Fields) (lit : W32) : decodeRaw 0x1A (joinV3 x) lit = dec1A x :=
  congrArg (fun x => dec1A x) (split_joinV3 x)

theorem decode_raw1B (x : V3Fields) (lit : W32) : decodeRaw 0x1B (joinV3 x) lit = dec1B x :=
  congrArg (fun x => dec1B x) (split_joinV3 x)

theorem decode_raw1C (x : V3Fields) (lit : W32) : decodeRaw 0x1C (joinV3 x) lit = dec1C x :=
  congrArg (fun x => dec1C x) (split_joinV3 x)

theorem decode_raw1E (x : V3Fields) (lit : W32) : decodeRaw 0x1E (joinV3 x) lit = dec1E x :=
  congrArg (fun x => dec1E x) (split_joinV3 x)

theorem decode_raw1F (x : V3Fields) (lit : W32) : decodeRaw 0x1F (joinV3 x) lit = dec1F x :=
  congrArg (fun x => dec1F x) (split_joinV3 x)

theorem decode_raw20 (x : V3Fields) (lit : W32) : decodeRaw 0x20 (joinV3 x) lit = dec20 x :=
  congrArg (fun x => dec20 x) (split_joinV3 x)

theorem decode_raw21 (x : V3Fields) (lit : W32) : decodeRaw 0x21 (joinV3 x) lit = dec21 x :=
  congrArg (fun x => dec21 x) (split_joinV3 x)

theorem decode_raw22 (x : U3Fields) (lit : W32) : decodeRaw 0x22 (joinU3 x) lit = dec22 x :=
  congrArg (fun x => dec22 x) (split_joinU3 x)

theorem decode_raw23 (x : UIFields) (lit : W32) : decodeRaw 0x23 (joinUI x) lit = dec23 x :=
  congrArg (fun x => dec23 x) (split_joinUI x)

theorem decode_raw24 (x : LFields) (lit : W32) : decodeRaw 0x24 (joinL x) lit = dec24 x lit :=
  congrArg (fun x => dec24 x lit) (split_joinL x)

theorem decode_raw25 (x : LFields) (lit : W32) : decodeRaw 0x25 (joinL x) lit = dec25 x lit :=
  congrArg (fun x => dec25 x lit) (split_joinL x)

theorem decode_raw28 (x : MFields) (lit : W32) : decodeRaw 0x28 (joinM x) lit = dec28 x :=
  congrArg (fun x => dec28 x) (split_joinM x)

theorem decode_raw29 (x : MFields) (lit : W32) : decodeRaw 0x29 (joinM x) lit = dec29 x :=
  congrArg (fun x => dec29 x) (split_joinM x)

theorem decode_raw2A (x : MFields) (lit : W32) : decodeRaw 0x2A (joinM x) lit = dec2A x lit :=
  congrArg (fun x => dec2A x lit) (split_joinM x)

theorem decode_raw2B (x : MFields) (lit : W32) : decodeRaw 0x2B (joinM x) lit = dec2B x lit :=
  congrArg (fun x => dec2B x lit) (split_joinM x)

theorem decode_raw2C (x : MFields) (lit : W32) : decodeRaw 0x2C (joinM x) lit = dec2C x :=
  congrArg (fun x => dec2C x) (split_joinM x)

theorem decode_raw2D (x : MFields) (lit : W32) : decodeRaw 0x2D (joinM x) lit = dec2D x :=
  congrArg (fun x => dec2D x) (split_joinM x)

theorem decode_raw2E (x : MFFields) (lit : W32) : decodeRaw 0x2E (joinMF x) lit = dec2E x :=
  congrArg (fun x => dec2E x) (split_joinMF x)

theorem decode_raw2F (x : MFFields) (lit : W32) : decodeRaw 0x2F (joinMF x) lit = dec2F x :=
  congrArg (fun x => dec2F x) (split_joinMF x)

theorem decode_raw30 (x : MFFields) (lit : W32) : decodeRaw 0x30 (joinMF x) lit = dec30 x :=
  congrArg (fun x => dec30 x) (split_joinMF x)

theorem decode_raw31 (x : MFFields) (lit : W32) : decodeRaw 0x31 (joinMF x) lit = dec31 x :=
  congrArg (fun x => dec31 x) (split_joinMF x)

theorem decode_raw32 (x : XFields) (lit : W32) : decodeRaw 0x32 (joinX x) lit = dec32 x :=
  congrArg (fun x => dec32 x) (split_joinX x)

theorem decode_raw33 (x : XFields) (lit : W32) : decodeRaw 0x33 (joinX x) lit = dec33 x :=
  congrArg (fun x => dec33 x) (split_joinX x)

theorem decode_raw34 (x : MFields) (lit : W32) : decodeRaw 0x34 (joinM x) lit = dec34 x :=
  congrArg (fun x => dec34 x) (split_joinM x)

theorem decode_raw35 (x : MFields) (lit : W32) : decodeRaw 0x35 (joinM x) lit = dec35 x :=
  congrArg (fun x => dec35 x) (split_joinM x)

theorem decode_raw36 (x : XFields) (lit : W32) : decodeRaw 0x36 (joinX x) lit = dec36 x :=
  congrArg (fun x => dec36 x) (split_joinX x)

theorem decode_raw37 (x : XFields) (lit : W32) : decodeRaw 0x37 (joinX x) lit = dec37 x :=
  congrArg (fun x => dec37 x) (split_joinX x)

theorem decode_raw38 (x : XFields) (lit : W32) : decodeRaw 0x38 (joinX x) lit = dec38 x :=
  congrArg (fun x => dec38 x) (split_joinX x)

theorem decode_raw39 (x : XFields) (lit : W32) : decodeRaw 0x39 (joinX x) lit = dec39 x :=
  congrArg (fun x => dec39 x) (split_joinX x)

theorem decode_raw3A (x : BTFields) (lit : W32) : decodeRaw 0x3A (joinBT x) lit = dec3A x :=
  congrArg (fun x => dec3A x) (split_joinBT x)

theorem decode_raw3B (x : MMFields) (lit : W32) : decodeRaw 0x3B (joinMM x) lit = dec3B x :=
  congrArg (fun x => dec3B x) (split_joinMM x)

theorem decode_raw3C (x : ACFields) (lit : W32) : decodeRaw 0x3C (joinAC x) lit = dec3C x :=
  congrArg (fun x => dec3C x) (split_joinAC x)

theorem decode_raw3D (x : XFields) (lit : W32) : decodeRaw 0x3D (joinX x) lit = dec3D x :=
  congrArg (fun x => dec3D x) (split_joinX x)

theorem RoundTrip.nop : RoundTrip.Statement (.nop) :=
  roundTrip_raw _ 0x00 (joinX ⟨0#6, 0#6, 0#6, 0#6⟩) rfl <| fun lit _ => (decode_raw00 _ lit).trans rfl
theorem RoundTrip.exit : RoundTrip.Statement (.exit) :=
  roundTrip_raw _ 0x00 (joinX ⟨0#6, 0#6, 0#6, 1#6⟩) rfl <| fun lit _ => (decode_raw00 _ lit).trans rfl
theorem RoundTrip.trap (i : BitVec 12) : RoundTrip.Statement (.trap i) :=
  roundTrip_raw _ 0x00 (joinX ⟨0#6, i.extractLsb' 6 6, i.extractLsb' 0 6, 2#6⟩) rfl <| fun lit hl => by
    refine (decode_raw00 _ _).trans ?_
    have e0 : (i.extractLsb' 6 6 ++ i.extractLsb' 0 6 : BitVec 12) = i := append_extract (m := 6) (n := 6) i
    simp [dec00, zeroed, e0]
theorem RoundTrip.brk (i : BitVec 12) : RoundTrip.Statement (.brk i) :=
  roundTrip_raw _ 0x00 (joinX ⟨0#6, i.extractLsb' 6 6, i.extractLsb' 0 6, 3#6⟩) rfl <| fun lit hl => by
    refine (decode_raw00 _ _).trans ?_
    have e0 : (i.extractLsb' 6 6 ++ i.extractLsb' 0 6 : BitVec 12) = i := append_extract (m := 6) (n := 6) i
    simp [dec00, zeroed, e0]
theorem RoundTrip.yield : RoundTrip.Statement (.yield) :=
  roundTrip_raw _ 0x00 (joinX ⟨0#6, 0#6, 0#6, 4#6⟩) rfl <| fun lit _ => (decode_raw00 _ lit).trans rfl
theorem RoundTrip.sleep (i : BitVec 12) : RoundTrip.Statement (.sleep i) :=
  roundTrip_raw _ 0x00 (joinX ⟨0#6, i.extractLsb' 6 6, i.extractLsb' 0 6, 5#6⟩) rfl <| fun lit hl => by
    refine (decode_raw00 _ _).trans ?_
    have e0 : (i.extractLsb' 6 6 ++ i.extractLsb' 0 6 : BitVec 12) = i := append_extract (m := 6) (n := 6) i
    simp [dec00, zeroed, e0]
theorem RoundTrip.eret : RoundTrip.Statement (.eret) :=
  roundTrip_raw _ 0x00 (joinX ⟨0#6, 0#6, 0#6, 6#6⟩) rfl <| fun lit _ => (decode_raw00 _ lit).trans rfl
theorem RoundTrip.setm (d : BitVec 6) (i : BitVec 12) (lit : BitVec 32) : RoundTrip.Statement (.setm d i lit) :=
  roundTrip_raw _ 0x01 (joinX ⟨d, i.extractLsb' 6 6, i.extractLsb' 0 6, 0#6⟩) rfl <| fun lit hl => by
    rw [hl _ rfl]
    refine (decode_raw01 _ _).trans ?_
    have e0 : (i.extractLsb' 6 6 ++ i.extractLsb' 0 6 : BitVec 12) = i := append_extract (m := 6) (n := 6) i
    simp [dec01, e0]
theorem RoundTrip.getm (d : BitVec 6) : RoundTrip.Statement (.getm d) :=
  roundTrip_raw _ 0x01 (joinX ⟨d, 0#6, 0#6, 1#6⟩) rfl <| fun lit _ => (decode_raw01 _ lit).trans rfl
theorem RoundTrip.movsr (d : BitVec 6) (i : BitVec 12) : RoundTrip.Statement (.movsr d i) :=
  roundTrip_raw _ 0x01 (joinX ⟨d, i.extractLsb' 6 6, i.extractLsb' 0 6, 2#6⟩) rfl <| fun lit hl => by
    refine (decode_raw01 _ _).trans ?_
    have e0 : (i.extractLsb' 6 6 ++ i.extractLsb' 0 6 : BitVec 12) = i := append_extract (m := 6) (n := 6) i
    simp [dec01, e0]
theorem RoundTrip.movrs (a : BitVec 6) (i : BitVec 12) : RoundTrip.Statement (.movrs a i) :=
  roundTrip_raw _ 0x01 (joinX ⟨a, i.extractLsb' 6 6, i.extractLsb' 0 6, 3#6⟩) rfl <| fun lit hl => by
    refine (decode_raw01 _ _).trans ?_
    have e0 : (i.extractLsb' 6 6 ++ i.extractLsb' 0 6 : BitVec 12) = i := append_extract (m := 6) (n := 6) i
    simp [dec01, e0]
theorem RoundTrip.ldovt (b : BitVec 6) : RoundTrip.Statement (.ldovt b) :=
  roundTrip_raw _ 0x01 (joinX ⟨0#6, 0#6, b, 4#6⟩) rfl <| fun lit _ => (decode_raw01 _ lit).trans rfl
theorem RoundTrip.rdovt (d : BitVec 6) : RoundTrip.Statement (.rdovt d) :=
  roundTrip_raw _ 0x01 (joinX ⟨d, 0#6, 0#6, 5#6⟩) rfl <| fun lit _ => (decode_raw01 _ lit).trans rfl
theorem RoundTrip.bra (o : BitVec 24) : RoundTrip.Statement (.bra o) :=
  roundTrip_raw _ 0x02 (joinB ⟨o⟩) rfl <| fun lit _ => (decode_raw02 _ lit).trans rfl
theorem RoundTrip.brc (c : BitVec 4) (o : BitVec 20) : RoundTrip.Statement (.brc c o) :=
  roundTrip_raw _ 0x03 (joinC ⟨c, o⟩) rfl <| fun lit _ => (decode_raw03 _ lit).trans rfl
theorem RoundTrip.brl (d : BitVec 6) (o : BitVec 18) : RoundTrip.Statement (.brl d o) :=
  roundTrip_raw _ 0x04 (joinBL ⟨d, o⟩) rfl <| fun lit _ => (decode_raw04 _ lit).trans rfl
theorem RoundTrip.jmp (b : BitVec 6) : RoundTrip.Statement (.jmp b) :=
  roundTrip_raw _ 0x05 (joinX ⟨0#6, 0#6, b, 0#6⟩) rfl <| fun lit _ => (decode_raw05 _ lit).trans rfl
theorem RoundTrip.jal (d : BitVec 6) (b : BitVec 6) : RoundTrip.Statement (.jal d b) :=
  roundTrip_raw _ 0x05 (joinX ⟨d, 0#6, b, 1#6⟩) rfl <| fun lit _ => (decode_raw05 _ lit).trans rfl
theorem RoundTrip.ret (b : BitVec 6) : RoundTrip.Statement (.ret b) :=
  roundTrip_raw _ 0x05 (joinX ⟨0#6, 0#6, b, 2#6⟩) rfl <| fun lit _ => (decode_raw05 _ lit).trans rfl
theorem RoundTrip.brv (c : BitVec 4) (o : BitVec 20) : RoundTrip.Statement (.brv c o) :=
  roundTrip_raw _ 0x06 (joinC ⟨c, o⟩) rfl <| fun lit _ => (decode_raw06 _ lit).trans rfl
theorem RoundTrip.rcv : RoundTrip.Statement (.rcv) :=
  roundTrip_raw _ 0x07 (joinRJ ⟨0#2, 0#22⟩) rfl <| fun lit _ => (decode_raw07 _ lit).trans rfl
theorem RoundTrip.join : RoundTrip.Statement (.join) :=
  roundTrip_raw _ 0x07 (joinRJ ⟨1#2, 0#22⟩) rfl <| fun lit _ => (decode_raw07 _ lit).trans rfl
theorem RoundTrip.loop (c : BitVec 2) (a : BitVec 6) (n : BitVec 8) : RoundTrip.Statement (.loop c a n) :=
  roundTrip_raw _ 0x08 (joinLP ⟨c, a, 0#8, n⟩) rfl <| fun lit _ => (decode_raw08 _ lit).trans rfl
theorem RoundTrip.loopi (c : BitVec 2) (i : BitVec 14) (n : BitVec 8) : RoundTrip.Statement (.loopi c i n) :=
  roundTrip_raw _ 0x09 (joinLPI ⟨c, i, n⟩) rfl <| fun lit _ => (decode_raw09 _ lit).trans rfl
theorem RoundTrip.brkl (i : BitVec 12) : RoundTrip.Statement (.brkl i) :=
  roundTrip_raw _ 0x0A (joinX ⟨0#6, i.extractLsb' 6 6, i.extractLsb' 0 6, 0#6⟩) rfl <| fun lit hl => by
    refine (decode_raw0A _ _).trans ?_
    have e0 : (i.extractLsb' 6 6 ++ i.extractLsb' 0 6 : BitVec 12) = i := append_extract (m := 6) (n := 6) i
    simp [dec0A, zeroed, e0]
theorem RoundTrip.rdlc (d : BitVec 6) (i : BitVec 12) : RoundTrip.Statement (.rdlc d i) :=
  roundTrip_raw _ 0x0A (joinX ⟨d, i.extractLsb' 6 6, i.extractLsb' 0 6, 1#6⟩) rfl <| fun lit hl => by
    refine (decode_raw0A _ _).trans ?_
    have e0 : (i.extractLsb' 6 6 ++ i.extractLsb' 0 6 : BitVec 12) = i := append_extract (m := 6) (n := 6) i
    simp [dec0A, e0]
theorem RoundTrip.wrlc (i : BitVec 6) (b : BitVec 6) : RoundTrip.Statement (.wrlc i b) :=
  roundTrip_raw _ 0x0A (joinX ⟨0#6, i, b, 2#6⟩) rfl <| fun lit _ => (decode_raw0A _ lit).trans rfl
theorem RoundTrip.add (d : BitVec 7) (a : BitVec 7) (b : BitVec 7) : RoundTrip.Statement (.add d a b) :=
  roundTrip_raw _ 0x10 (joinV3 ⟨d, a, b, 0#3⟩) rfl <| fun lit _ => (decode_raw10 _ lit).trans rfl
theorem RoundTrip.adc (d : BitVec 7) (a : BitVec 7) (b : BitVec 7) : RoundTrip.Statement (.adc d a b) :=
  roundTrip_raw _ 0x10 (joinV3 ⟨d, a, b, 1#3⟩) rfl <| fun lit _ => (decode_raw10 _ lit).trans rfl
theorem RoundTrip.sub (d : BitVec 7) (a : BitVec 7) (b : BitVec 7) : RoundTrip.Statement (.sub d a b) :=
  roundTrip_raw _ 0x10 (joinV3 ⟨d, a, b, 2#3⟩) rfl <| fun lit _ => (decode_raw10 _ lit).trans rfl
theorem RoundTrip.sbb (d : BitVec 7) (a : BitVec 7) (b : BitVec 7) : RoundTrip.Statement (.sbb d a b) :=
  roundTrip_raw _ 0x10 (joinV3 ⟨d, a, b, 3#3⟩) rfl <| fun lit _ => (decode_raw10 _ lit).trans rfl
theorem RoundTrip.mul (d : BitVec 7) (a : BitVec 7) (b : BitVec 7) : RoundTrip.Statement (.mul d a b) :=
  roundTrip_raw _ 0x10 (joinV3 ⟨d, a, b, 4#3⟩) rfl <| fun lit _ => (decode_raw10 _ lit).trans rfl
theorem RoundTrip.mulh (d : BitVec 7) (a : BitVec 7) (b : BitVec 7) : RoundTrip.Statement (.mulh d a b) :=
  roundTrip_raw _ 0x10 (joinV3 ⟨d, a, b, 5#3⟩) rfl <| fun lit _ => (decode_raw10 _ lit).trans rfl
theorem RoundTrip.mad (d : BitVec 7) (a : BitVec 7) (b : BitVec 7) : RoundTrip.Statement (.mad d a b) :=
  roundTrip_raw _ 0x10 (joinV3 ⟨d, a, b, 6#3⟩) rfl <| fun lit _ => (decode_raw10 _ lit).trans rfl
theorem RoundTrip.absdiff (d : BitVec 7) (a : BitVec 7) (b : BitVec 7) : RoundTrip.Statement (.absdiff d a b) :=
  roundTrip_raw _ 0x10 (joinV3 ⟨d, a, b, 7#3⟩) rfl <| fun lit _ => (decode_raw10 _ lit).trans rfl
theorem RoundTrip.and (d : BitVec 7) (a : BitVec 7) (b : BitVec 7) : RoundTrip.Statement (.and d a b) :=
  roundTrip_raw _ 0x11 (joinV3 ⟨d, a, b, 0#3⟩) rfl <| fun lit _ => (decode_raw11 _ lit).trans rfl
theorem RoundTrip.or (d : BitVec 7) (a : BitVec 7) (b : BitVec 7) : RoundTrip.Statement (.or d a b) :=
  roundTrip_raw _ 0x11 (joinV3 ⟨d, a, b, 1#3⟩) rfl <| fun lit _ => (decode_raw11 _ lit).trans rfl
theorem RoundTrip.xor (d : BitVec 7) (a : BitVec 7) (b : BitVec 7) : RoundTrip.Statement (.xor d a b) :=
  roundTrip_raw _ 0x11 (joinV3 ⟨d, a, b, 2#3⟩) rfl <| fun lit _ => (decode_raw11 _ lit).trans rfl
theorem RoundTrip.andn (d : BitVec 7) (a : BitVec 7) (b : BitVec 7) : RoundTrip.Statement (.andn d a b) :=
  roundTrip_raw _ 0x11 (joinV3 ⟨d, a, b, 3#3⟩) rfl <| fun lit _ => (decode_raw11 _ lit).trans rfl
theorem RoundTrip.shl (d : BitVec 7) (a : BitVec 7) (b : BitVec 7) : RoundTrip.Statement (.shl d a b) :=
  roundTrip_raw _ 0x11 (joinV3 ⟨d, a, b, 4#3⟩) rfl <| fun lit _ => (decode_raw11 _ lit).trans rfl
theorem RoundTrip.shr (d : BitVec 7) (a : BitVec 7) (b : BitVec 7) : RoundTrip.Statement (.shr d a b) :=
  roundTrip_raw _ 0x11 (joinV3 ⟨d, a, b, 5#3⟩) rfl <| fun lit _ => (decode_raw11 _ lit).trans rfl
theorem RoundTrip.rol (d : BitVec 7) (a : BitVec 7) (b : BitVec 7) : RoundTrip.Statement (.rol d a b) :=
  roundTrip_raw _ 0x11 (joinV3 ⟨d, a, b, 6#3⟩) rfl <| fun lit _ => (decode_raw11 _ lit).trans rfl
theorem RoundTrip.ror (d : BitVec 7) (a : BitVec 7) (b : BitVec 7) : RoundTrip.Statement (.ror d a b) :=
  roundTrip_raw _ 0x11 (joinV3 ⟨d, a, b, 7#3⟩) rfl <| fun lit _ => (decode_raw11 _ lit).trans rfl
theorem RoundTrip.min (d : BitVec 7) (a : BitVec 7) (b : BitVec 7) : RoundTrip.Statement (.min d a b) :=
  roundTrip_raw _ 0x12 (joinV3 ⟨d, a, b, 0#3⟩) rfl <| fun lit _ => (decode_raw12 _ lit).trans rfl
theorem RoundTrip.max (d : BitVec 7) (a : BitVec 7) (b : BitVec 7) : RoundTrip.Statement (.max d a b) :=
  roundTrip_raw _ 0x12 (joinV3 ⟨d, a, b, 1#3⟩) rfl <| fun lit _ => (decode_raw12 _ lit).trans rfl
theorem RoundTrip.cmp (a : BitVec 7) (b : BitVec 7) : RoundTrip.Statement (.cmp a b) :=
  roundTrip_raw _ 0x12 (joinV3 ⟨0#7, a, b, 2#3⟩) rfl <| fun lit _ => (decode_raw12 _ lit).trans rfl
theorem RoundTrip.test (a : BitVec 7) (b : BitVec 7) : RoundTrip.Statement (.test a b) :=
  roundTrip_raw _ 0x12 (joinV3 ⟨0#7, a, b, 3#3⟩) rfl <| fun lit _ => (decode_raw12 _ lit).trans rfl
theorem RoundTrip.sel (d : BitVec 7) (a : BitVec 7) (b : BitVec 7) : RoundTrip.Statement (.sel d a b) :=
  roundTrip_raw _ 0x12 (joinV3 ⟨d, a, b, 4#3⟩) rfl <| fun lit _ => (decode_raw12 _ lit).trans rfl
theorem RoundTrip.mov (d : BitVec 7) (a : BitVec 7) : RoundTrip.Statement (.mov d a) :=
  roundTrip_raw _ 0x12 (joinV3 ⟨d, a, 0#7, 5#3⟩) rfl <| fun lit _ => (decode_raw12 _ lit).trans rfl
theorem RoundTrip.popc (d : BitVec 7) (a : BitVec 7) : RoundTrip.Statement (.popc d a) :=
  roundTrip_raw _ 0x12 (joinV3 ⟨d, a, 0#7, 6#3⟩) rfl <| fun lit _ => (decode_raw12 _ lit).trans rfl
theorem RoundTrip.clz (d : BitVec 7) (a : BitVec 7) : RoundTrip.Statement (.clz d a) :=
  roundTrip_raw _ 0x12 (joinV3 ⟨d, a, 0#7, 7#3⟩) rfl <| fun lit _ => (decode_raw12 _ lit).trans rfl
theorem RoundTrip.brev (d : BitVec 7) (a : BitVec 7) : RoundTrip.Statement (.brev d a) :=
  roundTrip_raw _ 0x13 (joinV3 ⟨d, a, 0#7, 0#3⟩) rfl <| fun lit _ => (decode_raw13 _ lit).trans rfl
theorem RoundTrip.bfe (d : BitVec 7) (a : BitVec 7) (b : BitVec 7) : RoundTrip.Statement (.bfe d a b) :=
  roundTrip_raw _ 0x13 (joinV3 ⟨d, a, b, 1#3⟩) rfl <| fun lit _ => (decode_raw13 _ lit).trans rfl
theorem RoundTrip.bfi (d : BitVec 7) (a : BitVec 7) (b : BitVec 7) : RoundTrip.Statement (.bfi d a b) :=
  roundTrip_raw _ 0x13 (joinV3 ⟨d, a, b, 2#3⟩) rfl <| fun lit _ => (decode_raw13 _ lit).trans rfl
theorem RoundTrip.abs (d : BitVec 7) (a : BitVec 7) : RoundTrip.Statement (.abs d a) :=
  roundTrip_raw _ 0x13 (joinV3 ⟨d, a, 0#7, 3#3⟩) rfl <| fun lit _ => (decode_raw13 _ lit).trans rfl
theorem RoundTrip.neg (d : BitVec 7) (a : BitVec 7) : RoundTrip.Statement (.neg d a) :=
  roundTrip_raw _ 0x13 (joinV3 ⟨d, a, 0#7, 4#3⟩) rfl <| fun lit _ => (decode_raw13 _ lit).trans rfl
theorem RoundTrip.ext (d : BitVec 7) (a : BitVec 7) : RoundTrip.Statement (.ext d a) :=
  roundTrip_raw _ 0x13 (joinV3 ⟨d, a, 0#7, 5#3⟩) rfl <| fun lit _ => (decode_raw13 _ lit).trans rfl
theorem RoundTrip.dot4 (d : BitVec 7) (a : BitVec 7) (b : BitVec 7) : RoundTrip.Statement (.dot4 d a b) :=
  roundTrip_raw _ 0x13 (joinV3 ⟨d, a, b, 6#3⟩) rfl <| fun lit _ => (decode_raw13 _ lit).trans rfl
theorem RoundTrip.addi (d : BitVec 7) (a : BitVec 7) (i : BitVec 10) : RoundTrip.Statement (.addi d a i) :=
  roundTrip_raw _ 0x14 (joinVI ⟨d, a, i⟩) rfl <| fun lit _ => (decode_raw14 _ lit).trans rfl
theorem RoundTrip.muli (d : BitVec 7) (a : BitVec 7) (i : BitVec 10) : RoundTrip.Statement (.muli d a i) :=
  roundTrip_raw _ 0x15 (joinVI ⟨d, a, i⟩) rfl <| fun lit _ => (decode_raw15 _ lit).trans rfl
theorem RoundTrip.shifti (d : BitVec 7) (a : BitVec 7) (o : BitVec 2) (n : BitVec 6) : RoundTrip.Statement (.shifti d a o n) :=
  roundTrip_raw _ 0x16 (joinVI ⟨d, a, (o ++ 0#2 ++ n)⟩) rfl <| fun lit hl => by
    refine (decode_raw16 _ _).trans ?_
    have e0 : (o ++ 0#2 ++ n : BitVec 10).extractLsb' 8 2 = o := (extract_high (o ++ 0#2) n 2 2).trans ((extract_high o 0#2 0 2).trans (extract_all o))
    have e1 : (o ++ 0#2 ++ n : BitVec 10).extractLsb' 6 2 = 0#2 := (extract_high (o ++ 0#2) n 0 2).trans (extract_low o 0#2)
    have e2 : (o ++ 0#2 ++ n : BitVec 10).extractLsb' 0 6 = n := extract_low (o ++ 0#2) n
    simp [dec16, zeroed, e0, e1, e2]
theorem RoundTrip.cmpi (a : BitVec 7) (i : BitVec 10) : RoundTrip.Statement (.cmpi a i) :=
  roundTrip_raw _ 0x17 (joinVI ⟨0#7, a, i⟩) rfl <| fun lit _ => (decode_raw17 _ lit).trans rfl
theorem RoundTrip.movi (d : BitVec 7) (i : BitVec 10) : RoundTrip.Statement (.movi d i) :=
  roundTrip_raw _ 0x18 (joinVI ⟨d, 0#7, i⟩) rfl <| fun lit _ => (decode_raw18 _ lit).trans rfl
theorem RoundTrip.addU (d : BitVec 7) (a : BitVec 7) (b : BitVec 6) : RoundTrip.Statement (.addU d a b) :=
  roundTrip_raw _ 0x19 (joinVU ⟨d, a, b, 0#4⟩) rfl <| fun lit _ => (decode_raw19 _ lit).trans rfl
theorem RoundTrip.subU (d : BitVec 7) (a : BitVec 7) (b : BitVec 6) : RoundTrip.Statement (.subU d a b) :=
  roundTrip_raw _ 0x19 (joinVU ⟨d, a, b, 1#4⟩) rfl <| fun lit _ => (decode_raw19 _ lit).trans rfl
theorem RoundTrip.mulU (d : BitVec 7) (a : BitVec 7) (b : BitVec 6) : RoundTrip.Statement (.mulU d a b) :=
  roundTrip_raw _ 0x19 (joinVU ⟨d, a, b, 2#4⟩) rfl <| fun lit _ => (decode_raw19 _ lit).trans rfl
theorem RoundTrip.madU (d : BitVec 7) (a : BitVec 7) (b : BitVec 6) : RoundTrip.Statement (.madU d a b) :=
  roundTrip_raw _ 0x19 (joinVU ⟨d, a, b, 3#4⟩) rfl <| fun lit _ => (decode_raw19 _ lit).trans rfl
theorem RoundTrip.andU (d : BitVec 7) (a : BitVec 7) (b : BitVec 6) : RoundTrip.Statement (.andU d a b) :=
  roundTrip_raw _ 0x19 (joinVU ⟨d, a, b, 4#4⟩) rfl <| fun lit _ => (decode_raw19 _ lit).trans rfl
theorem RoundTrip.orU (d : BitVec 7) (a : BitVec 7) (b : BitVec 6) : RoundTrip.Statement (.orU d a b) :=
  roundTrip_raw _ 0x19 (joinVU ⟨d, a, b, 5#4⟩) rfl <| fun lit _ => (decode_raw19 _ lit).trans rfl
theorem RoundTrip.xorU (d : BitVec 7) (a : BitVec 7) (b : BitVec 6) : RoundTrip.Statement (.xorU d a b) :=
  roundTrip_raw _ 0x19 (joinVU ⟨d, a, b, 6#4⟩) rfl <| fun lit _ => (decode_raw19 _ lit).trans rfl
theorem RoundTrip.shlU (d : BitVec 7) (a : BitVec 7) (b : BitVec 6) : RoundTrip.Statement (.shlU d a b) :=
  roundTrip_raw _ 0x19 (joinVU ⟨d, a, b, 7#4⟩) rfl <| fun lit _ => (decode_raw19 _ lit).trans rfl
theorem RoundTrip.shrU (d : BitVec 7) (a : BitVec 7) (b : BitVec 6) : RoundTrip.Statement (.shrU d a b) :=
  roundTrip_raw _ 0x19 (joinVU ⟨d, a, b, 8#4⟩) rfl <| fun lit _ => (decode_raw19 _ lit).trans rfl
theorem RoundTrip.minU (d : BitVec 7) (a : BitVec 7) (b : BitVec 6) : RoundTrip.Statement (.minU d a b) :=
  roundTrip_raw _ 0x19 (joinVU ⟨d, a, b, 9#4⟩) rfl <| fun lit _ => (decode_raw19 _ lit).trans rfl
theorem RoundTrip.maxU (d : BitVec 7) (a : BitVec 7) (b : BitVec 6) : RoundTrip.Statement (.maxU d a b) :=
  roundTrip_raw _ 0x19 (joinVU ⟨d, a, b, 10#4⟩) rfl <| fun lit _ => (decode_raw19 _ lit).trans rfl
theorem RoundTrip.cmpU (a : BitVec 7) (b : BitVec 6) : RoundTrip.Statement (.cmpU a b) :=
  roundTrip_raw _ 0x19 (joinVU ⟨0#7, a, b, 11#4⟩) rfl <| fun lit _ => (decode_raw19 _ lit).trans rfl
theorem RoundTrip.faddU (d : BitVec 7) (a : BitVec 7) (b : BitVec 6) : RoundTrip.Statement (.faddU d a b) :=
  roundTrip_raw _ 0x19 (joinVU ⟨d, a, b, 12#4⟩) rfl <| fun lit _ => (decode_raw19 _ lit).trans rfl
theorem RoundTrip.fmulU (d : BitVec 7) (a : BitVec 7) (b : BitVec 6) : RoundTrip.Statement (.fmulU d a b) :=
  roundTrip_raw _ 0x19 (joinVU ⟨d, a, b, 13#4⟩) rfl <| fun lit _ => (decode_raw19 _ lit).trans rfl
theorem RoundTrip.fmacU (d : BitVec 7) (a : BitVec 7) (b : BitVec 6) : RoundTrip.Statement (.fmacU d a b) :=
  roundTrip_raw _ 0x19 (joinVU ⟨d, a, b, 14#4⟩) rfl <| fun lit _ => (decode_raw19 _ lit).trans rfl
theorem RoundTrip.selU (d : BitVec 7) (a : BitVec 7) (b : BitVec 6) : RoundTrip.Statement (.selU d a b) :=
  roundTrip_raw _ 0x19 (joinVU ⟨d, a, b, 15#4⟩) rfl <| fun lit _ => (decode_raw19 _ lit).trans rfl
theorem RoundTrip.fadd (d : BitVec 7) (a : BitVec 7) (b : BitVec 7) : RoundTrip.Statement (.fadd d a b) :=
  roundTrip_raw _ 0x1A (joinV3 ⟨d, a, b, 0#3⟩) rfl <| fun lit _ => (decode_raw1A _ lit).trans rfl
theorem RoundTrip.fsub (d : BitVec 7) (a : BitVec 7) (b : BitVec 7) : RoundTrip.Statement (.fsub d a b) :=
  roundTrip_raw _ 0x1A (joinV3 ⟨d, a, b, 1#3⟩) rfl <| fun lit _ => (decode_raw1A _ lit).trans rfl
theorem RoundTrip.fmul (d : BitVec 7) (a : BitVec 7) (b : BitVec 7) : RoundTrip.Statement (.fmul d a b) :=
  roundTrip_raw _ 0x1A (joinV3 ⟨d, a, b, 2#3⟩) rfl <| fun lit _ => (decode_raw1A _ lit).trans rfl
theorem RoundTrip.fmac (d : BitVec 7) (a : BitVec 7) (b : BitVec 7) : RoundTrip.Statement (.fmac d a b) :=
  roundTrip_raw _ 0x1A (joinV3 ⟨d, a, b, 3#3⟩) rfl <| fun lit _ => (decode_raw1A _ lit).trans rfl
theorem RoundTrip.fmsc (d : BitVec 7) (a : BitVec 7) (b : BitVec 7) : RoundTrip.Statement (.fmsc d a b) :=
  roundTrip_raw _ 0x1A (joinV3 ⟨d, a, b, 4#3⟩) rfl <| fun lit _ => (decode_raw1A _ lit).trans rfl
theorem RoundTrip.fmin (d : BitVec 7) (a : BitVec 7) (b : BitVec 7) : RoundTrip.Statement (.fmin d a b) :=
  roundTrip_raw _ 0x1A (joinV3 ⟨d, a, b, 5#3⟩) rfl <| fun lit _ => (decode_raw1A _ lit).trans rfl
theorem RoundTrip.fmax (d : BitVec 7) (a : BitVec 7) (b : BitVec 7) : RoundTrip.Statement (.fmax d a b) :=
  roundTrip_raw _ 0x1A (joinV3 ⟨d, a, b, 6#3⟩) rfl <| fun lit _ => (decode_raw1A _ lit).trans rfl
theorem RoundTrip.fcmp (a : BitVec 7) (b : BitVec 7) : RoundTrip.Statement (.fcmp a b) :=
  roundTrip_raw _ 0x1A (joinV3 ⟨0#7, a, b, 7#3⟩) rfl <| fun lit _ => (decode_raw1A _ lit).trans rfl
theorem RoundTrip.fabs (d : BitVec 7) (a : BitVec 7) : RoundTrip.Statement (.fabs d a) :=
  roundTrip_raw _ 0x1B (joinV3 ⟨d, a, 0#7, 0#3⟩) rfl <| fun lit _ => (decode_raw1B _ lit).trans rfl
theorem RoundTrip.fneg (d : BitVec 7) (a : BitVec 7) : RoundTrip.Statement (.fneg d a) :=
  roundTrip_raw _ 0x1B (joinV3 ⟨d, a, 0#7, 1#3⟩) rfl <| fun lit _ => (decode_raw1B _ lit).trans rfl
theorem RoundTrip.fclass (d : BitVec 7) (a : BitVec 7) : RoundTrip.Statement (.fclass d a) :=
  roundTrip_raw _ 0x1B (joinV3 ⟨d, a, 0#7, 2#3⟩) rfl <| fun lit _ => (decode_raw1B _ lit).trans rfl
theorem RoundTrip.frnd (d : BitVec 7) (a : BitVec 7) : RoundTrip.Statement (.frnd d a) :=
  roundTrip_raw _ 0x1B (joinV3 ⟨d, a, 0#7, 3#3⟩) rfl <| fun lit _ => (decode_raw1B _ lit).trans rfl
theorem RoundTrip.fcopysign (d : BitVec 7) (a : BitVec 7) (b : BitVec 7) : RoundTrip.Statement (.fcopysign d a b) :=
  roundTrip_raw _ 0x1B (joinV3 ⟨d, a, b, 4#3⟩) rfl <| fun lit _ => (decode_raw1B _ lit).trans rfl
theorem RoundTrip.faddp (d : BitVec 7) (a : BitVec 7) (b : BitVec 7) : RoundTrip.Statement (.faddp d a b) :=
  roundTrip_raw _ 0x1C (joinV3 ⟨d, a, b, 0#3⟩) rfl <| fun lit _ => (decode_raw1C _ lit).trans rfl
theorem RoundTrip.fsubp (d : BitVec 7) (a : BitVec 7) (b : BitVec 7) : RoundTrip.Statement (.fsubp d a b) :=
  roundTrip_raw _ 0x1C (joinV3 ⟨d, a, b, 1#3⟩) rfl <| fun lit _ => (decode_raw1C _ lit).trans rfl
theorem RoundTrip.fmulp (d : BitVec 7) (a : BitVec 7) (b : BitVec 7) : RoundTrip.Statement (.fmulp d a b) :=
  roundTrip_raw _ 0x1C (joinV3 ⟨d, a, b, 2#3⟩) rfl <| fun lit _ => (decode_raw1C _ lit).trans rfl
theorem RoundTrip.fmaxp (d : BitVec 7) (a : BitVec 7) (b : BitVec 7) : RoundTrip.Statement (.fmaxp d a b) :=
  roundTrip_raw _ 0x1C (joinV3 ⟨d, a, b, 3#3⟩) rfl <| fun lit _ => (decode_raw1C _ lit).trans rfl
theorem RoundTrip.fminp (d : BitVec 7) (a : BitVec 7) (b : BitVec 7) : RoundTrip.Statement (.fminp d a b) :=
  roundTrip_raw _ 0x1C (joinV3 ⟨d, a, b, 4#3⟩) rfl <| fun lit _ => (decode_raw1C _ lit).trans rfl
theorem RoundTrip.fdotp (d : BitVec 7) (a : BitVec 7) (b : BitVec 7) : RoundTrip.Statement (.fdotp d a b) :=
  roundTrip_raw _ 0x1C (joinV3 ⟨d, a, b, 5#3⟩) rfl <| fun lit _ => (decode_raw1C _ lit).trans rfl
theorem RoundTrip.fpack (d : BitVec 7) (a : BitVec 7) (b : BitVec 7) : RoundTrip.Statement (.fpack d a b) :=
  roundTrip_raw _ 0x1C (joinV3 ⟨d, a, b, 6#3⟩) rfl <| fun lit _ => (decode_raw1C _ lit).trans rfl
theorem RoundTrip.funpack (d : BitVec 7) (a : BitVec 7) : RoundTrip.Statement (.funpack d a) :=
  roundTrip_raw _ 0x1C (joinV3 ⟨d, a, 0#7, 7#3⟩) rfl <| fun lit _ => (decode_raw1C _ lit).trans rfl
theorem RoundTrip.frcp (d : BitVec 7) (a : BitVec 7) : RoundTrip.Statement (.frcp d a) :=
  roundTrip_raw _ 0x1E (joinV3 ⟨d, a, 0#7, 0#3⟩) rfl <| fun lit _ => (decode_raw1E _ lit).trans rfl
theorem RoundTrip.frsq (d : BitVec 7) (a : BitVec 7) : RoundTrip.Statement (.frsq d a) :=
  roundTrip_raw _ 0x1E (joinV3 ⟨d, a, 0#7, 1#3⟩) rfl <| fun lit _ => (decode_raw1E _ lit).trans rfl
theorem RoundTrip.fsqrt (d : BitVec 7) (a : BitVec 7) : RoundTrip.Statement (.fsqrt d a) :=
  roundTrip_raw _ 0x1E (joinV3 ⟨d, a, 0#7, 2#3⟩) rfl <| fun lit _ => (decode_raw1E _ lit).trans rfl
theorem RoundTrip.fexp2 (d : BitVec 7) (a : BitVec 7) : RoundTrip.Statement (.fexp2 d a) :=
  roundTrip_raw _ 0x1E (joinV3 ⟨d, a, 0#7, 3#3⟩) rfl <| fun lit _ => (decode_raw1E _ lit).trans rfl
theorem RoundTrip.flog2 (d : BitVec 7) (a : BitVec 7) : RoundTrip.Statement (.flog2 d a) :=
  roundTrip_raw _ 0x1E (joinV3 ⟨d, a, 0#7, 4#3⟩) rfl <| fun lit _ => (decode_raw1E _ lit).trans rfl
theorem RoundTrip.fsin (d : BitVec 7) (a : BitVec 7) : RoundTrip.Statement (.fsin d a) :=
  roundTrip_raw _ 0x1E (joinV3 ⟨d, a, 0#7, 5#3⟩) rfl <| fun lit _ => (decode_raw1E _ lit).trans rfl
theorem RoundTrip.fcos (d : BitVec 7) (a : BitVec 7) : RoundTrip.Statement (.fcos d a) :=
  roundTrip_raw _ 0x1E (joinV3 ⟨d, a, 0#7, 6#3⟩) rfl <| fun lit _ => (decode_raw1E _ lit).trans rfl
theorem RoundTrip.ftanh (d : BitVec 7) (a : BitVec 7) : RoundTrip.Statement (.ftanh d a) :=
  roundTrip_raw _ 0x1E (joinV3 ⟨d, a, 0#7, 7#3⟩) rfl <| fun lit _ => (decode_raw1E _ lit).trans rfl
theorem RoundTrip.cvt (d : BitVec 7) (a : BitVec 7) (i : BitVec 7) : RoundTrip.Statement (.cvt d a i) :=
  roundTrip_raw _ 0x1F (joinV3 ⟨d, a, i, 0#3⟩) rfl <| fun lit _ => (decode_raw1F _ lit).trans rfl
theorem RoundTrip.cvtsr (d : BitVec 7) (a : BitVec 7) (i : BitVec 7) : RoundTrip.Statement (.cvtsr d a i) := by
  intro hw
  have hi : i ≠ 127#7 := by rintro rfl; simp [Instr.wf, cvtImmOk] at hw
  exact roundTrip_raw _ 0x1F (joinV3 ⟨d, a, i, 1#3⟩) rfl
    (fun lit _ => (decode_raw1F _ lit).trans (by simp [dec1F, hi])) hw
theorem RoundTrip.cvtsrSeed (a : BitVec 7) : RoundTrip.Statement (.cvtsrSeed a) :=
  roundTrip_raw _ 0x1F (joinV3 ⟨0#7, a, 127#7, 1#3⟩) rfl <| fun lit _ => (decode_raw1F _ lit).trans rfl
theorem RoundTrip.shflIdx (d : BitVec 7) (a : BitVec 7) (b : BitVec 7) : RoundTrip.Statement (.shflIdx d a b) :=
  roundTrip_raw _ 0x20 (joinV3 ⟨d, a, b, 0#3⟩) rfl <| fun lit _ => (decode_raw20 _ lit).trans rfl
theorem RoundTrip.shflUp (d : BitVec 7) (a : BitVec 7) (i : BitVec 7) : RoundTrip.Statement (.shflUp d a i) :=
  roundTrip_raw _ 0x20 (joinV3 ⟨d, a, i, 1#3⟩) rfl <| fun lit _ => (decode_raw20 _ lit).trans rfl
theorem RoundTrip.shflDn (d : BitVec 7) (a : BitVec 7) (i : BitVec 7) : RoundTrip.Statement (.shflDn d a i) :=
  roundTrip_raw _ 0x20 (joinV3 ⟨d, a, i, 2#3⟩) rfl <| fun lit _ => (decode_raw20 _ lit).trans rfl
theorem RoundTrip.shflXor (d : BitVec 7) (a : BitVec 7) (i : BitVec 7) : RoundTrip.Statement (.shflXor d a i) :=
  roundTrip_raw _ 0x20 (joinV3 ⟨d, a, i, 3#3⟩) rfl <| fun lit _ => (decode_raw20 _ lit).trans rfl
theorem RoundTrip.qswap (d : BitVec 7) (a : BitVec 7) (q : BitVec 2) (y : BitVec 2) : RoundTrip.Statement (.qswap d a q y) :=
  roundTrip_raw _ 0x20 (joinV3 ⟨d, a, (0#3 ++ q ++ y), 4#3⟩) rfl <| fun lit hl => by
    refine (decode_raw20 _ _).trans ?_
    have e0 : (0#3 ++ q ++ y : BitVec 7).extractLsb' 4 3 = 0#3 := (extract_high (0#3 ++ q) y 2 3).trans ((extract_high 0#3 q 0 3).trans (extract_all 0#3))
    have e1 : (0#3 ++ q ++ y : BitVec 7).extractLsb' 2 2 = q := (extract_high (0#3 ++ q) y 0 2).trans (extract_low 0#3 q)
    have e2 : (0#3 ++ q ++ y : BitVec 7).extractLsb' 0 2 = y := extract_low (0#3 ++ q) y
    simp [dec20, zeroed, e0, e1, e2]
theorem RoundTrip.lred (d : BitVec 7) (a : BitVec 7) (n : BitVec 3) (o : BitVec 3) : RoundTrip.Statement (.lred d a n o) :=
  roundTrip_raw _ 0x20 (joinV3 ⟨d, a, (0#1 ++ n ++ o), 5#3⟩) rfl <| fun lit hl => by
    refine (decode_raw20 _ _).trans ?_
    have e0 : (0#1 ++ n ++ o : BitVec 7).extractLsb' 6 1 = 0#1 := (extract_high (0#1 ++ n) o 3 1).trans ((extract_high 0#1 n 0 1).trans (extract_all 0#1))
    have e1 : (0#1 ++ n ++ o : BitVec 7).extractLsb' 3 3 = n := (extract_high (0#1 ++ n) o 0 3).trans (extract_low 0#1 n)
    have e2 : (0#1 ++ n ++ o : BitVec 7).extractLsb' 0 3 = o := extract_low (0#1 ++ n) o
    simp [dec20, zeroed, e0, e1, e2]
theorem RoundTrip.scan (d : BitVec 7) (a : BitVec 7) (e : BitVec 1) (n : BitVec 3) (o : BitVec 3) : RoundTrip.Statement (.scan d a e n o) :=
  roundTrip_raw _ 0x20 (joinV3 ⟨d, a, (e ++ n ++ o), 6#3⟩) rfl <| fun lit hl => by
    refine (decode_raw20 _ _).trans ?_
    have e0 : (e ++ n ++ o : BitVec 7).extractLsb' 6 1 = e := (extract_high (e ++ n) o 3 1).trans ((extract_high e n 0 1).trans (extract_all e))
    have e1 : (e ++ n ++ o : BitVec 7).extractLsb' 3 3 = n := (extract_high (e ++ n) o 0 3).trans (extract_low e n)
    have e2 : (e ++ n ++ o : BitVec 7).extractLsb' 0 3 = o := extract_low (e ++ n) o
    simp [dec20, e0, e1, e2]
theorem RoundTrip.vote (d : BitVec 6) (a : BitVec 7) (m : BitVec 2) : RoundTrip.Statement (.vote d a m) :=
  roundTrip_raw _ 0x20 (joinV3 ⟨(0#1 ++ d), a, (0#5 ++ m), 7#3⟩) rfl <| fun lit hl => by
    refine (decode_raw20 _ _).trans ?_
    have e0 : (0#1 ++ d : BitVec 7).extractLsb' 6 1 = 0#1 := (extract_high 0#1 d 0 1).trans (extract_all 0#1)
    have e1 : (0#1 ++ d : BitVec 7).extractLsb' 0 6 = d := extract_low 0#1 d
    have e2 : (0#5 ++ m : BitVec 7).extractLsb' 2 5 = 0#5 := (extract_high 0#5 m 0 5).trans (extract_all 0#5)
    have e3 : (0#5 ++ m : BitVec 7).extractLsb' 0 2 = m := extract_low 0#5 m
    simp [dec20, zeroed, e0, e1, e2, e3]
theorem RoundTrip.ballot (d : BitVec 6) (a : BitVec 7) : RoundTrip.Statement (.ballot d a) :=
  roundTrip_raw _ 0x21 (joinV3 ⟨(0#1 ++ d), a, 0#7, 0#3⟩) rfl <| fun lit hl => by
    refine (decode_raw21 _ _).trans ?_
    have e0 : (0#1 ++ d : BitVec 7).extractLsb' 6 1 = 0#1 := (extract_high 0#1 d 0 1).trans (extract_all 0#1)
    have e1 : (0#1 ++ d : BitVec 7).extractLsb' 0 6 = d := extract_low 0#1 d
    simp [dec21, zeroed, e0, e1]
theorem RoundTrip.rdlane (d : BitVec 6) (a : BitVec 7) (i : BitVec 7) : RoundTrip.Statement (.rdlane d a i) :=
  roundTrip_raw _ 0x21 (joinV3 ⟨(0#1 ++ d), a, i, 1#3⟩) rfl <| fun lit hl => by
    refine (decode_raw21 _ _).trans ?_
    have e0 : (0#1 ++ d : BitVec 7).extractLsb' 6 1 = 0#1 := (extract_high 0#1 d 0 1).trans (extract_all 0#1)
    have e1 : (0#1 ++ d : BitVec 7).extractLsb' 0 6 = d := extract_low 0#1 d
    simp [dec21, zeroed, e0, e1]
theorem RoundTrip.wrlane (d : BitVec 7) (a : BitVec 6) (i : BitVec 7) : RoundTrip.Statement (.wrlane d a i) :=
  roundTrip_raw _ 0x21 (joinV3 ⟨d, (0#1 ++ a), i, 2#3⟩) rfl <| fun lit hl => by
    refine (decode_raw21 _ _).trans ?_
    have e0 : (0#1 ++ a : BitVec 7).extractLsb' 6 1 = 0#1 := (extract_high 0#1 a 0 1).trans (extract_all 0#1)
    have e1 : (0#1 ++ a : BitVec 7).extractLsb' 0 6 = a := extract_low 0#1 a
    simp [dec21, zeroed, e0, e1]
theorem RoundTrip.bcast (d : BitVec 7) (a : BitVec 7) (i : BitVec 7) : RoundTrip.Statement (.bcast d a i) :=
  roundTrip_raw _ 0x21 (joinV3 ⟨d, a, i, 3#3⟩) rfl <| fun lit _ => (decode_raw21 _ lit).trans rfl
theorem RoundTrip.matchLane (d : BitVec 7) (a : BitVec 7) : RoundTrip.Statement (.matchLane d a) :=
  roundTrip_raw _ 0x21 (joinV3 ⟨d, a, 0#7, 4#3⟩) rfl <| fun lit _ => (decode_raw21 _ lit).trans rfl
theorem RoundTrip.elect (d : BitVec 7) : RoundTrip.Statement (.elect d) :=
  roundTrip_raw _ 0x21 (joinV3 ⟨d, 0#7, 0#7, 5#3⟩) rfl <| fun lit _ => (decode_raw21 _ lit).trans rfl
theorem RoundTrip.lid (d : BitVec 7) : RoundTrip.Statement (.lid d) :=
  roundTrip_raw _ 0x21 (joinV3 ⟨d, 0#7, 0#7, 6#3⟩) rfl <| fun lit _ => (decode_raw21 _ lit).trans rfl
theorem RoundTrip.qid (d : BitVec 7) : RoundTrip.Statement (.qid d) :=
  roundTrip_raw _ 0x21 (joinV3 ⟨d, 0#7, 0#7, 7#3⟩) rfl <| fun lit _ => (decode_raw21 _ lit).trans rfl
theorem RoundTrip.sadd (d : BitVec 6) (a : BitVec 6) (b : BitVec 6) : RoundTrip.Statement (.sadd d a b) :=
  roundTrip_raw _ 0x22 (joinU3 ⟨d, a, b, 0#6⟩) rfl <| fun lit _ => (decode_raw22 _ lit).trans rfl
theorem RoundTrip.ssub (d : BitVec 6) (a : BitVec 6) (b : BitVec 6) : RoundTrip.Statement (.ssub d a b) :=
  roundTrip_raw _ 0x22 (joinU3 ⟨d, a, b, 1#6⟩) rfl <| fun lit _ => (decode_raw22 _ lit).trans rfl
theorem RoundTrip.smul (d : BitVec 6) (a : BitVec 6) (b : BitVec 6) : RoundTrip.Statement (.smul d a b) :=
  roundTrip_raw _ 0x22 (joinU3 ⟨d, a, b, 2#6⟩) rfl <| fun lit _ => (decode_raw22 _ lit).trans rfl
theorem RoundTrip.smulh (d : BitVec 6) (a : BitVec 6) (b : BitVec 6) : RoundTrip.Statement (.smulh d a b) :=
  roundTrip_raw _ 0x22 (joinU3 ⟨d, a, b, 3#6⟩) rfl <| fun lit _ => (decode_raw22 _ lit).trans rfl
theorem RoundTrip.sdiv (d : BitVec 6) (a : BitVec 6) (b : BitVec 6) : RoundTrip.Statement (.sdiv d a b) :=
  roundTrip_raw _ 0x22 (joinU3 ⟨d, a, b, 4#6⟩) rfl <| fun lit _ => (decode_raw22 _ lit).trans rfl
theorem RoundTrip.srem (d : BitVec 6) (a : BitVec 6) (b : BitVec 6) : RoundTrip.Statement (.srem d a b) :=
  roundTrip_raw _ 0x22 (joinU3 ⟨d, a, b, 5#6⟩) rfl <| fun lit _ => (decode_raw22 _ lit).trans rfl
theorem RoundTrip.sand (d : BitVec 6) (a : BitVec 6) (b : BitVec 6) : RoundTrip.Statement (.sand d a b) :=
  roundTrip_raw _ 0x22 (joinU3 ⟨d, a, b, 6#6⟩) rfl <| fun lit _ => (decode_raw22 _ lit).trans rfl
theorem RoundTrip.sor (d : BitVec 6) (a : BitVec 6) (b : BitVec 6) : RoundTrip.Statement (.sor d a b) :=
  roundTrip_raw _ 0x22 (joinU3 ⟨d, a, b, 7#6⟩) rfl <| fun lit _ => (decode_raw22 _ lit).trans rfl
theorem RoundTrip.sxor (d : BitVec 6) (a : BitVec 6) (b : BitVec 6) : RoundTrip.Statement (.sxor d a b) :=
  roundTrip_raw _ 0x22 (joinU3 ⟨d, a, b, 8#6⟩) rfl <| fun lit _ => (decode_raw22 _ lit).trans rfl
theorem RoundTrip.sshl (d : BitVec 6) (a : BitVec 6) (b : BitVec 6) : RoundTrip.Statement (.sshl d a b) :=
  roundTrip_raw _ 0x22 (joinU3 ⟨d, a, b, 9#6⟩) rfl <| fun lit _ => (decode_raw22 _ lit).trans rfl
theorem RoundTrip.sshr (d : BitVec 6) (a : BitVec 6) (b : BitVec 6) : RoundTrip.Statement (.sshr d a b) :=
  roundTrip_raw _ 0x22 (joinU3 ⟨d, a, b, 10#6⟩) rfl <| fun lit _ => (decode_raw22 _ lit).trans rfl
theorem RoundTrip.ssra (d : BitVec 6) (a : BitVec 6) (b : BitVec 6) : RoundTrip.Statement (.ssra d a b) :=
  roundTrip_raw _ 0x22 (joinU3 ⟨d, a, b, 11#6⟩) rfl <| fun lit _ => (decode_raw22 _ lit).trans rfl
theorem RoundTrip.smin (d : BitVec 6) (a : BitVec 6) (b : BitVec 6) : RoundTrip.Statement (.smin d a b) :=
  roundTrip_raw _ 0x22 (joinU3 ⟨d, a, b, 12#6⟩) rfl <| fun lit _ => (decode_raw22 _ lit).trans rfl
theorem RoundTrip.smax (d : BitVec 6) (a : BitVec 6) (b : BitVec 6) : RoundTrip.Statement (.smax d a b) :=
  roundTrip_raw _ 0x22 (joinU3 ⟨d, a, b, 13#6⟩) rfl <| fun lit _ => (decode_raw22 _ lit).trans rfl
theorem RoundTrip.scmp (a : BitVec 6) (b : BitVec 6) : RoundTrip.Statement (.scmp a b) :=
  roundTrip_raw _ 0x22 (joinU3 ⟨0#6, a, b, 14#6⟩) rfl <| fun lit _ => (decode_raw22 _ lit).trans rfl
theorem RoundTrip.ssel (d : BitVec 6) (a : BitVec 6) (b : BitVec 6) : RoundTrip.Statement (.ssel d a b) :=
  roundTrip_raw _ 0x22 (joinU3 ⟨d, a, b, 15#6⟩) rfl <| fun lit _ => (decode_raw22 _ lit).trans rfl
theorem RoundTrip.smov (d : BitVec 6) (a : BitVec 6) : RoundTrip.Statement (.smov d a) :=
  roundTrip_raw _ 0x22 (joinU3 ⟨d, a, 0#6, 16#6⟩) rfl <| fun lit _ => (decode_raw22 _ lit).trans rfl
theorem RoundTrip.spopc (d : BitVec 6) (a : BitVec 6) : RoundTrip.Statement (.spopc d a) :=
  roundTrip_raw _ 0x22 (joinU3 ⟨d, a, 0#6, 17#6⟩) rfl <| fun lit _ => (decode_raw22 _ lit).trans rfl
theorem RoundTrip.sclz (d : BitVec 6) (a : BitVec 6) : RoundTrip.Statement (.sclz d a) :=
  roundTrip_raw _ 0x22 (joinU3 ⟨d, a, 0#6, 18#6⟩) rfl <| fun lit _ => (decode_raw22 _ lit).trans rfl
theorem RoundTrip.sbfe (d : BitVec 6) (a : BitVec 6) (b : BitVec 6) : RoundTrip.Statement (.sbfe d a b) :=
  roundTrip_raw _ 0x22 (joinU3 ⟨d, a, b, 19#6⟩) rfl <| fun lit _ => (decode_raw22 _ lit).trans rfl
theorem RoundTrip.sbfi (d : BitVec 6) (a : BitVec 6) (b : BitVec 6) : RoundTrip.Statement (.sbfi d a b) :=
  roundTrip_raw _ 0x22 (joinU3 ⟨d, a, b, 20#6⟩) rfl <| fun lit _ => (decode_raw22 _ lit).trans rfl
theorem RoundTrip.saddi (d : BitVec 6) (a : BitVec 6) (i : BitVec 12) : RoundTrip.Statement (.saddi d a i) :=
  roundTrip_raw _ 0x23 (joinUI ⟨d, a, i⟩) rfl <| fun lit _ => (decode_raw23 _ lit).trans rfl
theorem RoundTrip.smovl (d : BitVec 6) (lit : BitVec 32) : RoundTrip.Statement (.smovl d lit) :=
  roundTrip_raw _ 0x24 (joinL ⟨d, 0#18⟩) rfl <| fun lit hl => by
    rw [hl _ rfl]
    exact (decode_raw24 _ _).trans rfl
theorem RoundTrip.smovh (d : BitVec 6) (lit : BitVec 32) : RoundTrip.Statement (.smovh d lit) :=
  roundTrip_raw _ 0x25 (joinL ⟨d, 0#18⟩) rfl <| fun lit hl => by
    rw [hl _ rfl]
    exact (decode_raw25 _ _).trans rfl
theorem RoundTrip.ld (t : BitVec 7) (o : BitVec 7) (b : BitVec 6) (n : BitVec 2) (r : BitVec 2) : RoundTrip.Statement (.ld t o b n r) :=
  roundTrip_raw _ 0x28 (joinM ⟨t, o, b, n, r⟩) rfl <| fun lit _ => (decode_raw28 _ lit).trans rfl
theorem RoundTrip.st (t : BitVec 7) (o : BitVec 7) (b : BitVec 6) (n : BitVec 2) (r : BitVec 2) : RoundTrip.Statement (.st t o b n r) :=
  roundTrip_raw _ 0x29 (joinM ⟨t, o, b, n, r⟩) rfl <| fun lit _ => (decode_raw29 _ lit).trans rfl
theorem RoundTrip.ldx (t : BitVec 7) (o : BitVec 7) (b : BitVec 6) (n : BitVec 2) (r : BitVec 2) (lit : BitVec 32) : RoundTrip.Statement (.ldx t o b n r lit) :=
  roundTrip_raw _ 0x2A (joinM ⟨t, o, b, n, r⟩) rfl <| fun lit hl => by
    rw [hl _ rfl]
    exact (decode_raw2A _ _).trans rfl
theorem RoundTrip.stx (t : BitVec 7) (o : BitVec 7) (b : BitVec 6) (n : BitVec 2) (r : BitVec 2) (lit : BitVec 32) : RoundTrip.Statement (.stx t o b n r lit) :=
  roundTrip_raw _ 0x2B (joinM ⟨t, o, b, n, r⟩) rfl <| fun lit hl => by
    rw [hl _ rfl]
    exact (decode_raw2B _ _).trans rfl
theorem RoundTrip.ldl (t : BitVec 7) (o : BitVec 7) (b : BitVec 6) (n : BitVec 2) (r : BitVec 2) : RoundTrip.Statement (.ldl t o b n r) :=
  roundTrip_raw _ 0x2C (joinM ⟨t, o, b, n, r⟩) rfl <| fun lit _ => (decode_raw2C _ lit).trans rfl
theorem RoundTrip.stl (t : BitVec 7) (o : BitVec 7) (b : BitVec 6) (n : BitVec 2) (r : BitVec 2) : RoundTrip.Statement (.stl t o b n r) :=
  roundTrip_raw _ 0x2D (joinM ⟨t, o, b, n, r⟩) rfl <| fun lit _ => (decode_raw2D _ lit).trans rfl
theorem RoundTrip.ldf (t : BitVec 7) (o : BitVec 7) (b : BitVec 4) (r : BitVec 2) : RoundTrip.Statement (.ldf t o b r) :=
  roundTrip_raw _ 0x2E (joinMF ⟨t, o, b, 0#4, r⟩) rfl <| fun lit _ => (decode_raw2E _ lit).trans rfl
theorem RoundTrip.ldfTake (t : BitVec 7) (o : BitVec 7) (b : BitVec 4) (r : BitVec 2) : RoundTrip.Statement (.ldfTake t o b r) :=
  roundTrip_raw _ 0x2E (joinMF ⟨t, o, b, 1#4, r⟩) rfl <| fun lit _ => (decode_raw2E _ lit).trans rfl
theorem RoundTrip.ste (t : BitVec 7) (o : BitVec 7) (b : BitVec 4) (r : BitVec 2) : RoundTrip.Statement (.ste t o b r) :=
  roundTrip_raw _ 0x2E (joinMF ⟨t, o, b, 2#4, r⟩) rfl <| fun lit _ => (decode_raw2E _ lit).trans rfl
theorem RoundTrip.stf (t : BitVec 7) (o : BitVec 7) (b : BitVec 4) (r : BitVec 2) : RoundTrip.Statement (.stf t o b r) :=
  roundTrip_raw _ 0x2E (joinMF ⟨t, o, b, 3#4, r⟩) rfl <| fun lit _ => (decode_raw2E _ lit).trans rfl
theorem RoundTrip.tset (o : BitVec 7) (b : BitVec 4) (r : BitVec 2) : RoundTrip.Statement (.tset o b r) :=
  roundTrip_raw _ 0x2E (joinMF ⟨0#7, o, b, 4#4, r⟩) rfl <| fun lit _ => (decode_raw2E _ lit).trans rfl
theorem RoundTrip.tclr (o : BitVec 7) (b : BitVec 4) (r : BitVec 2) : RoundTrip.Statement (.tclr o b r) :=
  roundTrip_raw _ 0x2E (joinMF ⟨0#7, o, b, 5#4, r⟩) rfl <| fun lit _ => (decode_raw2E _ lit).trans rfl
theorem RoundTrip.trd (t : BitVec 7) (o : BitVec 7) (b : BitVec 4) (r : BitVec 2) : RoundTrip.Statement (.trd t o b r) :=
  roundTrip_raw _ 0x2E (joinMF ⟨t, o, b, 6#4, r⟩) rfl <| fun lit _ => (decode_raw2E _ lit).trans rfl
theorem RoundTrip.atomAdd (t : BitVec 7) (o : BitVec 7) (b : BitVec 4) (r : BitVec 2) : RoundTrip.Statement (.atomAdd t o b r) :=
  roundTrip_raw _ 0x2F (joinMF ⟨t, o, b, 0#4, r⟩) rfl <| fun lit _ => (decode_raw2F _ lit).trans rfl
theorem RoundTrip.atomMin (t : BitVec 7) (o : BitVec 7) (b : BitVec 4) (r : BitVec 2) : RoundTrip.Statement (.atomMin t o b r) :=
  roundTrip_raw _ 0x2F (joinMF ⟨t, o, b, 1#4, r⟩) rfl <| fun lit _ => (decode_raw2F _ lit).trans rfl
theorem RoundTrip.atomMax (t : BitVec 7) (o : BitVec 7) (b : BitVec 4) (r : BitVec 2) : RoundTrip.Statement (.atomMax t o b r) :=
  roundTrip_raw _ 0x2F (joinMF ⟨t, o, b, 2#4, r⟩) rfl <| fun lit _ => (decode_raw2F _ lit).trans rfl
theorem RoundTrip.atomAnd (t : BitVec 7) (o : BitVec 7) (b : BitVec 4) (r : BitVec 2) : RoundTrip.Statement (.atomAnd t o b r) :=
  roundTrip_raw _ 0x2F (joinMF ⟨t, o, b, 3#4, r⟩) rfl <| fun lit _ => (decode_raw2F _ lit).trans rfl
theorem RoundTrip.atomOr (t : BitVec 7) (o : BitVec 7) (b : BitVec 4) (r : BitVec 2) : RoundTrip.Statement (.atomOr t o b r) :=
  roundTrip_raw _ 0x2F (joinMF ⟨t, o, b, 4#4, r⟩) rfl <| fun lit _ => (decode_raw2F _ lit).trans rfl
theorem RoundTrip.atomXor (t : BitVec 7) (o : BitVec 7) (b : BitVec 4) (r : BitVec 2) : RoundTrip.Statement (.atomXor t o b r) :=
  roundTrip_raw _ 0x2F (joinMF ⟨t, o, b, 5#4, r⟩) rfl <| fun lit _ => (decode_raw2F _ lit).trans rfl
theorem RoundTrip.atomExch (t : BitVec 7) (o : BitVec 7) (b : BitVec 4) (r : BitVec 2) : RoundTrip.Statement (.atomExch t o b r) :=
  roundTrip_raw _ 0x2F (joinMF ⟨t, o, b, 6#4, r⟩) rfl <| fun lit _ => (decode_raw2F _ lit).trans rfl
theorem RoundTrip.atomCas (t : BitVec 7) (o : BitVec 7) (b : BitVec 4) (r : BitVec 2) : RoundTrip.Statement (.atomCas t o b r) :=
  roundTrip_raw _ 0x2F (joinMF ⟨t, o, b, 7#4, r⟩) rfl <| fun lit _ => (decode_raw2F _ lit).trans rfl
theorem RoundTrip.atomFadd (t : BitVec 7) (o : BitVec 7) (b : BitVec 4) (r : BitVec 2) : RoundTrip.Statement (.atomFadd t o b r) :=
  roundTrip_raw _ 0x2F (joinMF ⟨t, o, b, 8#4, r⟩) rfl <| fun lit _ => (decode_raw2F _ lit).trans rfl
theorem RoundTrip.atomFaddp (t : BitVec 7) (o : BitVec 7) (b : BitVec 4) (r : BitVec 2) : RoundTrip.Statement (.atomFaddp t o b r) :=
  roundTrip_raw _ 0x2F (joinMF ⟨t, o, b, 9#4, r⟩) rfl <| fun lit _ => (decode_raw2F _ lit).trans rfl
theorem RoundTrip.redAdd (t : BitVec 7) (o : BitVec 7) (b : BitVec 4) (r : BitVec 2) : RoundTrip.Statement (.redAdd t o b r) :=
  roundTrip_raw _ 0x30 (joinMF ⟨t, o, b, 0#4, r⟩) rfl <| fun lit _ => (decode_raw30 _ lit).trans rfl
theorem RoundTrip.redMin (t : BitVec 7) (o : BitVec 7) (b : BitVec 4) (r : BitVec 2) : RoundTrip.Statement (.redMin t o b r) :=
  roundTrip_raw _ 0x30 (joinMF ⟨t, o, b, 1#4, r⟩) rfl <| fun lit _ => (decode_raw30 _ lit).trans rfl
theorem RoundTrip.redMax (t : BitVec 7) (o : BitVec 7) (b : BitVec 4) (r : BitVec 2) : RoundTrip.Statement (.redMax t o b r) :=
  roundTrip_raw _ 0x30 (joinMF ⟨t, o, b, 2#4, r⟩) rfl <| fun lit _ => (decode_raw30 _ lit).trans rfl
theorem RoundTrip.redAnd (t : BitVec 7) (o : BitVec 7) (b : BitVec 4) (r : BitVec 2) : RoundTrip.Statement (.redAnd t o b r) :=
  roundTrip_raw _ 0x30 (joinMF ⟨t, o, b, 3#4, r⟩) rfl <| fun lit _ => (decode_raw30 _ lit).trans rfl
theorem RoundTrip.redOr (t : BitVec 7) (o : BitVec 7) (b : BitVec 4) (r : BitVec 2) : RoundTrip.Statement (.redOr t o b r) :=
  roundTrip_raw _ 0x30 (joinMF ⟨t, o, b, 4#4, r⟩) rfl <| fun lit _ => (decode_raw30 _ lit).trans rfl
theorem RoundTrip.redXor (t : BitVec 7) (o : BitVec 7) (b : BitVec 4) (r : BitVec 2) : RoundTrip.Statement (.redXor t o b r) :=
  roundTrip_raw _ 0x30 (joinMF ⟨t, o, b, 5#4, r⟩) rfl <| fun lit _ => (decode_raw30 _ lit).trans rfl
theorem RoundTrip.redFadd (t : BitVec 7) (o : BitVec 7) (b : BitVec 4) (r : BitVec 2) : RoundTrip.Statement (.redFadd t o b r) :=
  roundTrip_raw _ 0x30 (joinMF ⟨t, o, b, 8#4, r⟩) rfl <| fun lit _ => (decode_raw30 _ lit).trans rfl
theorem RoundTrip.redFaddp (t : BitVec 7) (o : BitVec 7) (b : BitVec 4) (r : BitVec 2) : RoundTrip.Statement (.redFaddp t o b r) :=
  roundTrip_raw _ 0x30 (joinMF ⟨t, o, b, 9#4, r⟩) rfl <| fun lit _ => (decode_raw30 _ lit).trans rfl
theorem RoundTrip.ldu (t : BitVec 6) (b : BitVec 4) (r : BitVec 2) : RoundTrip.Statement (.ldu t b r) :=
  roundTrip_raw _ 0x31 (joinMF ⟨(0#1 ++ t), 0#7, b, 0#4, r⟩) rfl <| fun lit hl => by
    refine (decode_raw31 _ _).trans ?_
    have e0 : (0#1 ++ t : BitVec 7).extractLsb' 6 1 = 0#1 := (extract_high 0#1 t 0 1).trans (extract_all 0#1)
    have e1 : (0#1 ++ t : BitVec 7).extractLsb' 0 6 = t := extract_low 0#1 t
    simp [dec31, zeroed, e0, e1]
theorem RoundTrip.stu (t : BitVec 6) (b : BitVec 4) (r : BitVec 2) : RoundTrip.Statement (.stu t b r) :=
  roundTrip_raw _ 0x31 (joinMF ⟨(0#1 ++ t), 0#7, b, 1#4, r⟩) rfl <| fun lit hl => by
    refine (decode_raw31 _ _).trans ?_
    have e0 : (0#1 ++ t : BitVec 7).extractLsb' 6 1 = 0#1 := (extract_high 0#1 t 0 1).trans (extract_all 0#1)
    have e1 : (0#1 ++ t : BitVec 7).extractLsb' 0 6 = t := extract_low 0#1 t
    simp [dec31, zeroed, e0, e1]
theorem RoundTrip.atomuAdd (t : BitVec 6) (b : BitVec 4) (r : BitVec 2) : RoundTrip.Statement (.atomuAdd t b r) :=
  roundTrip_raw _ 0x31 (joinMF ⟨(0#1 ++ t), 0#7, b, 2#4, r⟩) rfl <| fun lit hl => by
    refine (decode_raw31 _ _).trans ?_
    have e0 : (0#1 ++ t : BitVec 7).extractLsb' 6 1 = 0#1 := (extract_high 0#1 t 0 1).trans (extract_all 0#1)
    have e1 : (0#1 ++ t : BitVec 7).extractLsb' 0 6 = t := extract_low 0#1 t
    simp [dec31, zeroed, e0, e1]
theorem RoundTrip.atomuMin (t : BitVec 6) (b : BitVec 4) (r : BitVec 2) : RoundTrip.Statement (.atomuMin t b r) :=
  roundTrip_raw _ 0x31 (joinMF ⟨(0#1 ++ t), 0#7, b, 3#4, r⟩) rfl <| fun lit hl => by
    refine (decode_raw31 _ _).trans ?_
    have e0 : (0#1 ++ t : BitVec 7).extractLsb' 6 1 = 0#1 := (extract_high 0#1 t 0 1).trans (extract_all 0#1)
    have e1 : (0#1 ++ t : BitVec 7).extractLsb' 0 6 = t := extract_low 0#1 t
    simp [dec31, zeroed, e0, e1]
theorem RoundTrip.atomuMax (t : BitVec 6) (b : BitVec 4) (r : BitVec 2) : RoundTrip.Statement (.atomuMax t b r) :=
  roundTrip_raw _ 0x31 (joinMF ⟨(0#1 ++ t), 0#7, b, 4#4, r⟩) rfl <| fun lit hl => by
    refine (decode_raw31 _ _).trans ?_
    have e0 : (0#1 ++ t : BitVec 7).extractLsb' 6 1 = 0#1 := (extract_high 0#1 t 0 1).trans (extract_all 0#1)
    have e1 : (0#1 ++ t : BitVec 7).extractLsb' 0 6 = t := extract_low 0#1 t
    simp [dec31, zeroed, e0, e1]
theorem RoundTrip.atomuAnd (t : BitVec 6) (b : BitVec 4) (r : BitVec 2) : RoundTrip.Statement (.atomuAnd t b r) :=
  roundTrip_raw _ 0x31 (joinMF ⟨(0#1 ++ t), 0#7, b, 5#4, r⟩) rfl <| fun lit hl => by
    refine (decode_raw31 _ _).trans ?_
    have e0 : (0#1 ++ t : BitVec 7).extractLsb' 6 1 = 0#1 := (extract_high 0#1 t 0 1).trans (extract_all 0#1)
    have e1 : (0#1 ++ t : BitVec 7).extractLsb' 0 6 = t := extract_low 0#1 t
    simp [dec31, zeroed, e0, e1]
theorem RoundTrip.atomuOr (t : BitVec 6) (b : BitVec 4) (r : BitVec 2) : RoundTrip.Statement (.atomuOr t b r) :=
  roundTrip_raw _ 0x31 (joinMF ⟨(0#1 ++ t), 0#7, b, 6#4, r⟩) rfl <| fun lit hl => by
    refine (decode_raw31 _ _).trans ?_
    have e0 : (0#1 ++ t : BitVec 7).extractLsb' 6 1 = 0#1 := (extract_high 0#1 t 0 1).trans (extract_all 0#1)
    have e1 : (0#1 ++ t : BitVec 7).extractLsb' 0 6 = t := extract_low 0#1 t
    simp [dec31, zeroed, e0, e1]
theorem RoundTrip.atomuXor (t : BitVec 6) (b : BitVec 4) (r : BitVec 2) : RoundTrip.Statement (.atomuXor t b r) :=
  roundTrip_raw _ 0x31 (joinMF ⟨(0#1 ++ t), 0#7, b, 7#4, r⟩) rfl <| fun lit hl => by
    refine (decode_raw31 _ _).trans ?_
    have e0 : (0#1 ++ t : BitVec 7).extractLsb' 6 1 = 0#1 := (extract_high 0#1 t 0 1).trans (extract_all 0#1)
    have e1 : (0#1 ++ t : BitVec 7).extractLsb' 0 6 = t := extract_low 0#1 t
    simp [dec31, zeroed, e0, e1]
theorem RoundTrip.atomuExch (t : BitVec 6) (b : BitVec 4) (r : BitVec 2) : RoundTrip.Statement (.atomuExch t b r) :=
  roundTrip_raw _ 0x31 (joinMF ⟨(0#1 ++ t), 0#7, b, 8#4, r⟩) rfl <| fun lit hl => by
    refine (decode_raw31 _ _).trans ?_
    have e0 : (0#1 ++ t : BitVec 7).extractLsb' 6 1 = 0#1 := (extract_high 0#1 t 0 1).trans (extract_all 0#1)
    have e1 : (0#1 ++ t : BitVec 7).extractLsb' 0 6 = t := extract_low 0#1 t
    simp [dec31, zeroed, e0, e1]
theorem RoundTrip.atomuCas (t : BitVec 6) (b : BitVec 4) (r : BitVec 2) : RoundTrip.Statement (.atomuCas t b r) :=
  roundTrip_raw _ 0x31 (joinMF ⟨(0#1 ++ t), 0#7, b, 9#4, r⟩) rfl <| fun lit hl => by
    refine (decode_raw31 _ _).trans ?_
    have e0 : (0#1 ++ t : BitVec 7).extractLsb' 6 1 = 0#1 := (extract_high 0#1 t 0 1).trans (extract_all 0#1)
    have e1 : (0#1 ++ t : BitVec 7).extractLsb' 0 6 = t := extract_low 0#1 t
    simp [dec31, zeroed, e0, e1]
theorem RoundTrip.atomuFadd (t : BitVec 6) (b : BitVec 4) (r : BitVec 2) : RoundTrip.Statement (.atomuFadd t b r) :=
  roundTrip_raw _ 0x31 (joinMF ⟨(0#1 ++ t), 0#7, b, 10#4, r⟩) rfl <| fun lit hl => by
    refine (decode_raw31 _ _).trans ?_
    have e0 : (0#1 ++ t : BitVec 7).extractLsb' 6 1 = 0#1 := (extract_high 0#1 t 0 1).trans (extract_all 0#1)
    have e1 : (0#1 ++ t : BitVec 7).extractLsb' 0 6 = t := extract_low 0#1 t
    simp [dec31, zeroed, e0, e1]
theorem RoundTrip.atomuFaddp (t : BitVec 6) (b : BitVec 4) (r : BitVec 2) : RoundTrip.Statement (.atomuFaddp t b r) :=
  roundTrip_raw _ 0x31 (joinMF ⟨(0#1 ++ t), 0#7, b, 11#4, r⟩) rfl <| fun lit hl => by
    refine (decode_raw31 _ _).trans ?_
    have e0 : (0#1 ++ t : BitVec 7).extractLsb' 6 1 = 0#1 := (extract_high 0#1 t 0 1).trans (extract_all 0#1)
    have e1 : (0#1 ++ t : BitVec 7).extractLsb' 0 6 = t := extract_low 0#1 t
    simp [dec31, zeroed, e0, e1]
theorem RoundTrip.fence (i : BitVec 12) : RoundTrip.Statement (.fence i) :=
  roundTrip_raw _ 0x32 (joinX ⟨0#6, i.extractLsb' 6 6, i.extractLsb' 0 6, 0#6⟩) rfl <| fun lit hl => by
    refine (decode_raw32 _ _).trans ?_
    have e0 : (i.extractLsb' 6 6 ++ i.extractLsb' 0 6 : BitVec 12) = i := append_extract (m := 6) (n := 6) i
    simp [dec32, zeroed, e0]
theorem RoundTrip.cwb (a : BitVec 6) (b : BitVec 6) : RoundTrip.Statement (.cwb a b) :=
  roundTrip_raw _ 0x32 (joinX ⟨0#6, a, b, 1#6⟩) rfl <| fun lit _ => (decode_raw32 _ lit).trans rfl
theorem RoundTrip.cinv (a : BitVec 6) (b : BitVec 6) : RoundTrip.Statement (.cinv a b) :=
  roundTrip_raw _ 0x32 (joinX ⟨0#6, a, b, 2#6⟩) rfl <| fun lit _ => (decode_raw32 _ lit).trans rfl
theorem RoundTrip.cwbinv (a : BitVec 6) (b : BitVec 6) : RoundTrip.Statement (.cwbinv a b) :=
  roundTrip_raw _ 0x32 (joinX ⟨0#6, a, b, 3#6⟩) rfl <| fun lit _ => (decode_raw32 _ lit).trans rfl
theorem RoundTrip.smap (d : BitVec 6) (a : BitVec 6) (b : BitVec 6) : RoundTrip.Statement (.smap d a b) :=
  roundTrip_raw _ 0x33 (joinX ⟨d, a, b, 0#6⟩) rfl <| fun lit _ => (decode_raw33 _ lit).trans rfl
theorem RoundTrip.sunmap (b : BitVec 6) : RoundTrip.Statement (.sunmap b) :=
  roundTrip_raw _ 0x33 (joinX ⟨0#6, 0#6, b, 1#6⟩) rfl <| fun lit _ => (decode_raw33 _ lit).trans rfl
theorem RoundTrip.swb (b : BitVec 6) : RoundTrip.Statement (.swb b) :=
  roundTrip_raw _ 0x33 (joinX ⟨0#6, 0#6, b, 2#6⟩) rfl <| fun lit _ => (decode_raw33 _ lit).trans rfl
theorem RoundTrip.sinv (b : BitVec 6) : RoundTrip.Statement (.sinv b) :=
  roundTrip_raw _ 0x33 (joinX ⟨0#6, 0#6, b, 3#6⟩) rfl <| fun lit _ => (decode_raw33 _ lit).trans rfl
theorem RoundTrip.spill (t : BitVec 7) (o : BitVec 7) (b : BitVec 6) (n : BitVec 2) : RoundTrip.Statement (.spill t o b n) :=
  roundTrip_raw _ 0x34 (joinM ⟨t, o, b, n, 0#2⟩) rfl <| fun lit _ => (decode_raw34 _ lit).trans rfl
theorem RoundTrip.fill (t : BitVec 7) (o : BitVec 7) (b : BitVec 6) (n : BitVec 2) : RoundTrip.Statement (.fill t o b n) :=
  roundTrip_raw _ 0x34 (joinM ⟨t, o, b, n, 1#2⟩) rfl <| fun lit _ => (decode_raw34 _ lit).trans rfl
theorem RoundTrip.prf (o : BitVec 7) (b : BitVec 6) (n : BitVec 2) : RoundTrip.Statement (.prf o b n) :=
  roundTrip_raw _ 0x35 (joinM ⟨0#7, o, b, n, 0#2⟩) rfl <| fun lit _ => (decode_raw35 _ lit).trans rfl
theorem RoundTrip.snapopen (d : BitVec 6) : RoundTrip.Statement (.snapopen d) :=
  roundTrip_raw _ 0x36 (joinX ⟨d, 0#6, 0#6, 0#6⟩) rfl <| fun lit _ => (decode_raw36 _ lit).trans rfl
theorem RoundTrip.snapclose : RoundTrip.Statement (.snapclose) :=
  roundTrip_raw _ 0x36 (joinX ⟨0#6, 0#6, 0#6, 1#6⟩) rfl <| fun lit _ => (decode_raw36 _ lit).trans rfl
theorem RoundTrip.txbegin (i : BitVec 12) : RoundTrip.Statement (.txbegin i) :=
  roundTrip_raw _ 0x36 (joinX ⟨0#6, i.extractLsb' 6 6, i.extractLsb' 0 6, 2#6⟩) rfl <| fun lit hl => by
    refine (decode_raw36 _ _).trans ?_
    have e0 : (i.extractLsb' 6 6 ++ i.extractLsb' 0 6 : BitVec 12) = i := append_extract (m := 6) (n := 6) i
    simp [dec36, zeroed, e0]
theorem RoundTrip.txcommit (d : BitVec 6) : RoundTrip.Statement (.txcommit d) :=
  roundTrip_raw _ 0x36 (joinX ⟨d, 0#6, 0#6, 3#6⟩) rfl <| fun lit _ => (decode_raw36 _ lit).trans rfl
theorem RoundTrip.txabort : RoundTrip.Statement (.txabort) :=
  roundTrip_raw _ 0x36 (joinX ⟨0#6, 0#6, 0#6, 4#6⟩) rfl <| fun lit _ => (decode_raw36 _ lit).trans rfl
theorem RoundTrip.txstat (d : BitVec 6) : RoundTrip.Statement (.txstat d) :=
  roundTrip_raw _ 0x36 (joinX ⟨d, 0#6, 0#6, 5#6⟩) rfl <| fun lit _ => (decode_raw36 _ lit).trans rfl
theorem RoundTrip.vts (d : BitVec 6) : RoundTrip.Statement (.vts d) :=
  roundTrip_raw _ 0x36 (joinX ⟨d, 0#6, 0#6, 6#6⟩) rfl <| fun lit _ => (decode_raw36 _ lit).trans rfl
theorem RoundTrip.subscribe (d : BitVec 6) (a : BitVec 6) : RoundTrip.Statement (.subscribe d a) :=
  roundTrip_raw _ 0x37 (joinX ⟨d, a, 0#6, 0#6⟩) rfl <| fun lit _ => (decode_raw37 _ lit).trans rfl
theorem RoundTrip.unsub (b : BitVec 6) : RoundTrip.Statement (.unsub b) :=
  roundTrip_raw _ 0x37 (joinX ⟨0#6, 0#6, b, 1#6⟩) rfl <| fun lit _ => (decode_raw37 _ lit).trans rfl
theorem RoundTrip.subflush : RoundTrip.Statement (.subflush) :=
  roundTrip_raw _ 0x37 (joinX ⟨0#6, 0#6, 0#6, 2#6⟩) rfl <| fun lit _ => (decode_raw37 _ lit).trans rfl
theorem RoundTrip.substatIn (d : BitVec 6) (h : BitVec 6) : RoundTrip.Statement (.substatIn d h) :=
  roundTrip_raw _ 0x37 (joinX ⟨d, h, 0#6, 3#6⟩) rfl <| fun lit _ => (decode_raw37 _ lit).trans rfl
theorem RoundTrip.substatOut (d : BitVec 6) (h : BitVec 6) : RoundTrip.Statement (.substatOut d h) :=
  roundTrip_raw _ 0x37 (joinX ⟨d, h, 1#6, 3#6⟩) rfl <| fun lit _ => (decode_raw37 _ lit).trans rfl
theorem RoundTrip.bar : RoundTrip.Statement (.bar) :=
  roundTrip_raw _ 0x38 (joinX ⟨0#6, 0#6, 0#6, 0#6⟩) rfl <| fun lit _ => (decode_raw38 _ lit).trans rfl
theorem RoundTrip.gbar : RoundTrip.Statement (.gbar) :=
  roundTrip_raw _ 0x38 (joinX ⟨0#6, 0#6, 0#6, 1#6⟩) rfl <| fun lit _ => (decode_raw38 _ lit).trans rfl
theorem RoundTrip.arrive (a : BitVec 6) (b : BitVec 6) : RoundTrip.Statement (.arrive a b) :=
  roundTrip_raw _ 0x38 (joinX ⟨0#6, a, b, 2#6⟩) rfl <| fun lit _ => (decode_raw38 _ lit).trans rfl
theorem RoundTrip.cntwait (a : BitVec 6) (b : BitVec 6) : RoundTrip.Statement (.cntwait a b) :=
  roundTrip_raw _ 0x38 (joinX ⟨0#6, a, b, 3#6⟩) rfl <| fun lit _ => (decode_raw38 _ lit).trans rfl
theorem RoundTrip.kick (a : BitVec 6) : RoundTrip.Statement (.kick a) :=
  roundTrip_raw _ 0x39 (joinX ⟨0#6, a, 0#6, 0#6⟩) rfl <| fun lit _ => (decode_raw39 _ lit).trans rfl
theorem RoundTrip.launch (d : BitVec 6) (a : BitVec 6) (b : BitVec 6) : RoundTrip.Statement (.launch d a b) :=
  roundTrip_raw _ 0x39 (joinX ⟨d, a, b, 1#6⟩) rfl <| fun lit _ => (decode_raw39 _ lit).trans rfl
theorem RoundTrip.bload (q : BitVec 3) (y : BitVec 4) (c : BitVec 3) (a : BitVec 6) (b : BitVec 6) : RoundTrip.Statement (.bload q y c a b) :=
  roundTrip_raw _ 0x3A (joinBT ⟨0#2, q, y, c, a, b⟩) rfl <| fun lit _ => (decode_raw3A _ lit).trans rfl
theorem RoundTrip.brel (q : BitVec 3) : RoundTrip.Statement (.brel q) :=
  roundTrip_raw _ 0x3A (joinBT ⟨1#2, q, 0#4, 0#3, 0#6, 0#6⟩) rfl <| fun lit _ => (decode_raw3A _ lit).trans rfl
theorem RoundTrip.tblld (c : BitVec 3) (a : BitVec 6) : RoundTrip.Statement (.tblld c a) :=
  roundTrip_raw _ 0x3A (joinBT ⟨2#2, 0#3, 0#4, c, a, 0#6⟩) rfl <| fun lit _ => (decode_raw3A _ lit).trans rfl
theorem RoundTrip.tblrd (d : BitVec 7) (c : BitVec 3) : RoundTrip.Statement (.tblrd d c) :=
  roundTrip_raw _ 0x3A (joinBT ⟨3#2, d.extractLsb' 4 3, d.extractLsb' 0 4, c, 0#6, 0#6⟩) rfl <| fun lit hl => by
    refine (decode_raw3A _ _).trans ?_
    have e0 : (d.extractLsb' 4 3 ++ d.extractLsb' 0 4 : BitVec 7) = d := append_extract (m := 3) (n := 4) d
    simp [dec3A, zeroed, e0]
theorem RoundTrip.mma (c : BitVec 2) (q : BitVec 3) (y : BitVec 4) (a : BitVec 6) (b : BitVec 6) : RoundTrip.Statement (.mma c q y a b) :=
  roundTrip_raw _ 0x3B (joinMM ⟨c, q, 0#1, y, a, b, 0#2⟩) rfl <| fun lit _ => (decode_raw3B _ lit).trans rfl
theorem RoundTrip.mmaZ (c : BitVec 2) (q : BitVec 3) (y : BitVec 4) (a : BitVec 6) (b : BitVec 6) : RoundTrip.Statement (.mmaZ c q y a b) :=
  roundTrip_raw _ 0x3B (joinMM ⟨c, q, 1#1, y, a, b, 0#2⟩) rfl <| fun lit _ => (decode_raw3B _ lit).trans rfl
theorem RoundTrip.accz (t : BitVec 2) : RoundTrip.Statement (.accz t) :=
  roundTrip_raw _ 0x3C (joinAC ⟨0#2, t, 0#7, 0#6, 0#2, 0#5⟩) rfl <| fun lit _ => (decode_raw3C _ lit).trans rfl
theorem RoundTrip.accrd (t : BitVec 2) (v : BitVec 7) (b : BitVec 6) (n : BitVec 2) : RoundTrip.Statement (.accrd t v b n) :=
  roundTrip_raw _ 0x3C (joinAC ⟨1#2, t, v, b, n, 0#5⟩) rfl <| fun lit _ => (decode_raw3C _ lit).trans rfl
theorem RoundTrip.accwr (t : BitVec 2) (v : BitVec 7) (b : BitVec 6) (n : BitVec 2) : RoundTrip.Statement (.accwr t v b n) :=
  roundTrip_raw _ 0x3C (joinAC ⟨2#2, t, v, b, n, 0#5⟩) rfl <| fun lit _ => (decode_raw3C _ lit).trans rfl
theorem RoundTrip.accsc (t : BitVec 2) (v : BitVec 7) (b : BitVec 6) (n : BitVec 2) : RoundTrip.Statement (.accsc t v b n) :=
  roundTrip_raw _ 0x3C (joinAC ⟨3#2, t, v, b, n, 0#5⟩) rfl <| fun lit _ => (decode_raw3C _ lit).trans rfl
theorem RoundTrip.perfrd (d : BitVec 6) (i : BitVec 12) : RoundTrip.Statement (.perfrd d i) :=
  roundTrip_raw _ 0x3D (joinX ⟨d, i.extractLsb' 6 6, i.extractLsb' 0 6, 0#6⟩) rfl <| fun lit hl => by
    refine (decode_raw3D _ _).trans ?_
    have e0 : (i.extractLsb' 6 6 ++ i.extractLsb' 0 6 : BitVec 12) = i := append_extract (m := 6) (n := 6) i
    simp [dec3D, e0]
theorem RoundTrip.enrd (d : BitVec 6) (i : BitVec 12) : RoundTrip.Statement (.enrd d i) :=
  roundTrip_raw _ 0x3D (joinX ⟨d, i.extractLsb' 6 6, i.extractLsb' 0 6, 1#6⟩) rfl <| fun lit hl => by
    refine (decode_raw3D _ _).trans ?_
    have e0 : (i.extractLsb' 6 6 ++ i.extractLsb' 0 6 : BitVec 12) = i := append_extract (m := 6) (n := 6) i
    simp [dec3D, e0]
theorem RoundTrip.tsrd (d : BitVec 6) (i : BitVec 12) : RoundTrip.Statement (.tsrd d i) :=
  roundTrip_raw _ 0x3D (joinX ⟨d, i.extractLsb' 6 6, i.extractLsb' 0 6, 2#6⟩) rfl <| fun lit hl => by
    refine (decode_raw3D _ _).trans ?_
    have e0 : (i.extractLsb' 6 6 ++ i.extractLsb' 0 6 : BitVec 12) = i := append_extract (m := 6) (n := 6) i
    simp [dec3D, e0]
theorem RoundTrip.sample (a : BitVec 6) : RoundTrip.Statement (.sample a) :=
  roundTrip_raw _ 0x3D (joinX ⟨0#6, a, 0#6, 3#6⟩) rfl <| fun lit _ => (decode_raw3D _ lit).trans rfl
theorem RoundTrip.form : RoundTrip.Statement (.form) := roundTrip_none _ rfl
theorem RoundTrip.dissolve : RoundTrip.Statement (.dissolve) := roundTrip_none _ rfl
theorem RoundTrip.move : RoundTrip.Statement (.move) := roundTrip_none _ rfl
theorem RoundTrip.tops : RoundTrip.Statement (.tops) := roundTrip_none _ rfl
theorem RoundTrip.keys : RoundTrip.Statement (.keys) := roundTrip_none _ rfl
theorem RoundTrip.attest : RoundTrip.Statement (.attest) := roundTrip_none _ rfl
theorem RoundTrip.drainTimeout : RoundTrip.Statement (.drainTimeout) := roundTrip_none _ rfl
theorem RoundTrip.migrateBucket : RoundTrip.Statement (.migrateBucket) := roundTrip_none _ rfl
theorem RoundTrip.bucketSwitch : RoundTrip.Statement (.bucketSwitch) := roundTrip_none _ rfl
theorem RoundTrip.migrationError : RoundTrip.Statement (.migrationError) := roundTrip_none _ rfl
theorem RoundTrip.scrubDone : RoundTrip.Statement (.scrubDone) := roundTrip_none _ rfl
theorem RoundTrip.flitRefused : RoundTrip.Statement (.flitRefused) := roundTrip_none _ rfl
theorem RoundTrip.sliceFault : RoundTrip.Statement (.sliceFault) := roundTrip_none _ rfl
theorem RoundTrip.fatalSliceFault : RoundTrip.Statement (.fatalSliceFault) := roundTrip_none _ rfl
theorem RoundTrip.uncorrectableError : RoundTrip.Statement (.uncorrectableError) := roundTrip_none _ rfl
theorem RoundTrip.flitCrcFail : RoundTrip.Statement (.flitCrcFail) := roundTrip_none _ rfl
theorem RoundTrip.irtWrite : RoundTrip.Statement (.irtWrite) := roundTrip_none _ rfl
theorem RoundTrip.registerWrite : RoundTrip.Statement (.registerWrite) := roundTrip_none _ rfl
theorem RoundTrip.translationWalk : RoundTrip.Statement (.translationWalk) := roundTrip_none _ rfl
theorem RoundTrip.xinvVa : RoundTrip.Statement (.xinvVa) := roundTrip_none _ rfl
theorem RoundTrip.xinvAsid : RoundTrip.Statement (.xinvAsid) := roundTrip_none _ rfl
theorem RoundTrip.xinvVms1 : RoundTrip.Statement (.xinvVms1) := roundTrip_none _ rfl
theorem RoundTrip.xinvIpa : RoundTrip.Statement (.xinvIpa) := roundTrip_none _ rfl
theorem RoundTrip.xinvVmid : RoundTrip.Statement (.xinvVmid) := roundTrip_none _ rfl
theorem RoundTrip.xinvCtx : RoundTrip.Statement (.xinvCtx) := roundTrip_none _ rfl
theorem RoundTrip.xinvAll : RoundTrip.Statement (.xinvAll) := roundTrip_none _ rfl
theorem RoundTrip.harvest : RoundTrip.Statement (.harvest) := roundTrip_none _ rfl
theorem RoundTrip.xinvComplete : RoundTrip.Statement (.xinvComplete) := roundTrip_none _ rfl
theorem RoundTrip.windowClearDone : RoundTrip.Statement (.windowClearDone) := roundTrip_none _ rfl
theorem RoundTrip.stashFill : RoundTrip.Statement (.stashFill) := roundTrip_none _ rfl
theorem RoundTrip.lendWriteback : RoundTrip.Statement (.lendWriteback) := roundTrip_none _ rfl
theorem RoundTrip.batchTimeout : RoundTrip.Statement (.batchTimeout) := roundTrip_none _ rfl
theorem RoundTrip.batchApply : RoundTrip.Statement (.batchApply) := roundTrip_none _ rfl
theorem RoundTrip.subRedirect : RoundTrip.Statement (.subRedirect) := roundTrip_none _ rfl
theorem RoundTrip.subMark : RoundTrip.Statement (.subMark) := roundTrip_none _ rfl
theorem RoundTrip.memoryTargetWrite : RoundTrip.Statement (.memoryTargetWrite) := roundTrip_none _ rfl
theorem RoundTrip.subResume : RoundTrip.Statement (.subResume) := roundTrip_none _ rfl
theorem RoundTrip.subReady : RoundTrip.Statement (.subReady) := roundTrip_none _ rfl
theorem RoundTrip.homeRequest : RoundTrip.Statement (.homeRequest) := roundTrip_none _ rfl
theorem RoundTrip.homeForward : RoundTrip.Statement (.homeForward) := roundTrip_none _ rfl
theorem RoundTrip.invalidateAck : RoundTrip.Statement (.invalidateAck) := roundTrip_none _ rfl
theorem RoundTrip.claim : RoundTrip.Statement (.claim) := roundTrip_none _ rfl
theorem RoundTrip.claimRelease : RoundTrip.Statement (.claimRelease) := roundTrip_none _ rfl
theorem RoundTrip.l1wb : RoundTrip.Statement (.l1wb) := roundTrip_none _ rfl
theorem RoundTrip.l1wbinv : RoundTrip.Statement (.l1wbinv) := roundTrip_none _ rfl
theorem RoundTrip.cmComplete : RoundTrip.Statement (.cmComplete) := roundTrip_none _ rfl
theorem RoundTrip.patrolRead : RoundTrip.Statement (.patrolRead) := roundTrip_none _ rfl
theorem RoundTrip.merrClr : RoundTrip.Statement (.merrClr) := roundTrip_none _ rfl
theorem RoundTrip.timestampRequest : RoundTrip.Statement (.timestampRequest) := roundTrip_none _ rfl
theorem RoundTrip.commitComplete : RoundTrip.Statement (.commitComplete) := roundTrip_none _ rfl
theorem RoundTrip.spargePass : RoundTrip.Statement (.spargePass) := roundTrip_none _ rfl
theorem RoundTrip.vpstatRun : RoundTrip.Statement (.vpstatRun) := roundTrip_none _ rfl
theorem RoundTrip.vpoolWrite : RoundTrip.Statement (.vpoolWrite) := roundTrip_none _ rfl
theorem RoundTrip.bucketTransit : RoundTrip.Statement (.bucketTransit) := roundTrip_none _ rfl
theorem RoundTrip.arbiterFuse : RoundTrip.Statement (.arbiterFuse) := roundTrip_none _ rfl
theorem RoundTrip.arbiterPop : RoundTrip.Statement (.arbiterPop) := roundTrip_none _ rfl
theorem RoundTrip.arbiterExchange : RoundTrip.Statement (.arbiterExchange) := roundTrip_none _ rfl
theorem RoundTrip.arbiterReleaseRcv : RoundTrip.Statement (.arbiterReleaseRcv) := roundTrip_none _ rfl
theorem RoundTrip.arbiterJoinMet : RoundTrip.Statement (.arbiterJoinMet) := roundTrip_none _ rfl
theorem RoundTrip.arbiterJoinError : RoundTrip.Statement (.arbiterJoinError) := roundTrip_none _ rfl
theorem RoundTrip.lagDataReturn : RoundTrip.Statement (.lagDataReturn) := roundTrip_none _ rfl
theorem RoundTrip.resultWriteback : RoundTrip.Statement (.resultWriteback) := roundTrip_none _ rfl
theorem RoundTrip.revocation : RoundTrip.Statement (.revocation) := roundTrip_none _ rfl
theorem RoundTrip.revocationComplete : RoundTrip.Statement (.revocationComplete) := roundTrip_none _ rfl
theorem RoundTrip.harvestResume : RoundTrip.Statement (.harvestResume) := roundTrip_none _ rfl
theorem RoundTrip.harvestSave : RoundTrip.Statement (.harvestSave) := roundTrip_none _ rfl
theorem RoundTrip.qcmdEnable : RoundTrip.Statement (.qcmdEnable) := roundTrip_none _ rfl
theorem RoundTrip.qcmdDisable : RoundTrip.Statement (.qcmdDisable) := roundTrip_none _ rfl
theorem RoundTrip.qcmdErrClear : RoundTrip.Statement (.qcmdErrClear) := roundTrip_none _ rfl
theorem RoundTrip.notify : RoundTrip.Statement (.notify) := roundTrip_none _ rfl
theorem RoundTrip.spoolWrite : RoundTrip.Statement (.spoolWrite) := roundTrip_none _ rfl
theorem RoundTrip.queueReadSlot : RoundTrip.Statement (.queueReadSlot) := roundTrip_none _ rfl
theorem RoundTrip.wseqRetry : RoundTrip.Statement (.wseqRetry) := roundTrip_none _ rfl
theorem RoundTrip.dependencyCheck : RoundTrip.Statement (.dependencyCheck) := roundTrip_none _ rfl
theorem RoundTrip.markerComplete : RoundTrip.Statement (.markerComplete) := roundTrip_none _ rfl
theorem RoundTrip.gridComplete : RoundTrip.Statement (.gridComplete) := roundTrip_none _ rfl
theorem RoundTrip.gangClaim : RoundTrip.Statement (.gangClaim) := roundTrip_none _ rfl
theorem RoundTrip.restoreDonate : RoundTrip.Statement (.restoreDonate) := roundTrip_none _ rfl
theorem RoundTrip.cceventRead : RoundTrip.Statement (.cceventRead) := roundTrip_none _ rfl
theorem RoundTrip.sleepExpire : RoundTrip.Statement (.sleepExpire) := roundTrip_none _ rfl
theorem RoundTrip.fcmdReplay : RoundTrip.Statement (.fcmdReplay) := roundTrip_none _ rfl
theorem RoundTrip.fcmdHandle : RoundTrip.Statement (.fcmdHandle) := roundTrip_none _ rfl
theorem RoundTrip.fcmdKill : RoundTrip.Statement (.fcmdKill) := roundTrip_none _ rfl
theorem RoundTrip.fcmdStop : RoundTrip.Statement (.fcmdStop) := roundTrip_none _ rfl
theorem RoundTrip.fcmdStopHold : RoundTrip.Statement (.fcmdStopHold) := roundTrip_none _ rfl
theorem RoundTrip.fcmdRelease : RoundTrip.Statement (.fcmdRelease) := roundTrip_none _ rfl
theorem RoundTrip.faultPost : RoundTrip.Statement (.faultPost) := roundTrip_none _ rfl
theorem RoundTrip.watchdogExpire : RoundTrip.Statement (.watchdogExpire) := roundTrip_none _ rfl
theorem RoundTrip.groupSave : RoundTrip.Statement (.groupSave) := roundTrip_none _ rfl
theorem RoundTrip.restore : RoundTrip.Statement (.restore) := roundTrip_none _ rfl
theorem RoundTrip.svpoolWrite : RoundTrip.Statement (.svpoolWrite) := roundTrip_none _ rfl
theorem RoundTrip.blockExit : RoundTrip.Statement (.blockExit) := roundTrip_none _ rfl
theorem RoundTrip.trctlWrite : RoundTrip.Statement (.trctlWrite) := roundTrip_none _ rfl
theorem RoundTrip.trbaseWrite : RoundTrip.Statement (.trbaseWrite) := roundTrip_none _ rfl
theorem RoundTrip.traceFrameWrite : RoundTrip.Statement (.traceFrameWrite) := roundTrip_none _ rfl
theorem RoundTrip.frameAgeTimer : RoundTrip.Statement (.frameAgeTimer) := roundTrip_none _ rfl
theorem RoundTrip.brFlushTimer : RoundTrip.Statement (.brFlushTimer) := roundTrip_none _ rfl
theorem RoundTrip.syncPeriod : RoundTrip.Statement (.syncPeriod) := roundTrip_none _ rfl
theorem RoundTrip.sampleRound : RoundTrip.Statement (.sampleRound) := roundTrip_none _ rfl
theorem RoundTrip.energyInterval : RoundTrip.Statement (.energyInterval) := roundTrip_none _ rfl
theorem RoundTrip.linkStateChange : RoundTrip.Statement (.linkStateChange) := roundTrip_none _ rfl
theorem RoundTrip.netPut : RoundTrip.Statement (.netPut) := roundTrip_none _ rfl
theorem RoundTrip.netGetreq : RoundTrip.Statement (.netGetreq) := roundTrip_none _ rfl
theorem RoundTrip.netGetrsp : RoundTrip.Statement (.netGetrsp) := roundTrip_none _ rfl
theorem RoundTrip.netRed : RoundTrip.Statement (.netRed) := roundTrip_none _ rfl
theorem RoundTrip.netLaunch : RoundTrip.Statement (.netLaunch) := roundTrip_none _ rfl
theorem RoundTrip.netAck : RoundTrip.Statement (.netAck) := roundTrip_none _ rfl
theorem RoundTrip.netNak : RoundTrip.Statement (.netNak) := roundTrip_none _ rfl
theorem RoundTrip.netSkip : RoundTrip.Statement (.netSkip) := roundTrip_none _ rfl
theorem RoundTrip.retransmitTimeout : RoundTrip.Statement (.retransmitTimeout) := roundTrip_none _ rfl
theorem RoundTrip.appliedAdvance : RoundTrip.Statement (.appliedAdvance) := roundTrip_none _ rfl
theorem RoundTrip.engineRequestStart : RoundTrip.Statement (.engineRequestStart) := roundTrip_none _ rfl
theorem RoundTrip.engineComplete : RoundTrip.Statement (.engineComplete) := roundTrip_none _ rfl
theorem RoundTrip.engineFault : RoundTrip.Statement (.engineFault) := roundTrip_none _ rfl
theorem RoundTrip.checkpointStart : RoundTrip.Statement (.checkpointStart) := roundTrip_none _ rfl
theorem RoundTrip.checkpointMemberDone : RoundTrip.Statement (.checkpointMemberDone) := roundTrip_none _ rfl
theorem RoundTrip.hdmwinWrite : RoundTrip.Statement (.hdmwinWrite) := roundTrip_none _ rfl
theorem RoundTrip.hostRequest : RoundTrip.Statement (.hostRequest) := roundTrip_none _ rfl
theorem RoundTrip.biResponse : RoundTrip.Statement (.biResponse) := roundTrip_none _ rfl
theorem RoundTrip.fldb : RoundTrip.Statement (.fldb) := roundTrip_none _ rfl
theorem RoundTrip.flringWrite : RoundTrip.Statement (.flringWrite) := roundTrip_none _ rfl
theorem RoundTrip.flashEntryRead : RoundTrip.Statement (.flashEntryRead) := roundTrip_none _ rfl
theorem RoundTrip.flashComplete : RoundTrip.Statement (.flashComplete) := roundTrip_none _ rfl
theorem RoundTrip.powerOn : RoundTrip.Statement (.powerOn) := roundTrip_none _ rfl
theorem RoundTrip.bootImageLoad : RoundTrip.Statement (.bootImageLoad) := roundTrip_none _ rfl
theorem RoundTrip.readiness : RoundTrip.Statement (.readiness) := roundTrip_none _ rfl
theorem RoundTrip.powerStateEnter : RoundTrip.Statement (.powerStateEnter) := roundTrip_none _ rfl
theorem RoundTrip.powerWake : RoundTrip.Statement (.powerWake) := roundTrip_none _ rfl
theorem RoundTrip.wakeComplete : RoundTrip.Statement (.wakeComplete) := roundTrip_none _ rfl
theorem RoundTrip.thermalStep : RoundTrip.Statement (.thermalStep) := roundTrip_none _ rfl
theorem RoundTrip.powerLoss : RoundTrip.Statement (.powerLoss) := roundTrip_none _ rfl
theorem RoundTrip.bloadCommit : RoundTrip.Statement (.bloadCommit) := roundTrip_none _ rfl
theorem RoundTrip.mmaComplete : RoundTrip.Statement (.mmaComplete) := roundTrip_none _ rfl
theorem RoundTrip.tagTimeout : RoundTrip.Statement (.tagTimeout) := roundTrip_none _ rfl
theorem RoundTrip.cntwaitRecheck : RoundTrip.Statement (.cntwaitRecheck) := roundTrip_none _ rfl
theorem RoundTrip.dissolveScrubDone : RoundTrip.Statement (.dissolveScrubDone) := roundTrip_none _ rfl
theorem RoundTrip.hostLinkEvent : RoundTrip.Statement (.hostLinkEvent) := roundTrip_none _ rfl

end Sys2Proof.Laws
end

