-- ==== Sys2Proof/Laws/Records.lean ====
section
/-! SUPPORT. Laws of the records of the state: what a record's accessor reads after an update of that record, or of
another. -/

namespace Sys2Proof.Laws

open Sys2Proof.Machine

/-! ### Cores and slices -/

theorem core_key (s : State) (k : CoreKey) : (s.core k).key = k := by
  unfold State.core
  cases h : s.cores.find? (·.key = k) with
  | none => rfl
  | some c => simpa using List.find?_some h

theorem core_setCore (s : State) (c : Machine.Core) (k : CoreKey) :
    (s.setCore c).core k = if c.key = k then c else s.core k := by
  unfold State.setCore State.core
  by_cases h : c.key = k
  · subst h
    rw [find_upsert_self _ c (by simp)]
    simp
  · rw [find_upsert_other _ _ c (by
      intro y hy
      simp only [decide_eq_true_eq] at hy
      simp [hy, h]) (by simp [h])]
    simp [h]

theorem core_onCore (s : State) (k j : CoreKey) (f : Machine.Core → Machine.Core) (hf : (f (s.core k)).key = k) :
    (s.onCore k f).core j = if k = j then f (s.core k) else s.core j := by
  rw [State.onCore, core_setCore, hf]

theorem slice_id (s : State) (i : Nat) : (s.slice i).id = i := by
  unfold State.slice
  cases h : s.slices.find? (·.id = i) with
  | none => rfl
  | some c => simpa using List.find?_some h

theorem slice_setSlice (s : State) (x : Slice) (i : Nat) :
    (s.setSlice x).slice i = if x.id = i then x else s.slice i := by
  unfold State.setSlice State.slice
  by_cases h : x.id = i
  · subst h
    rw [find_upsert_self _ x (by simp)]
    simp
  · rw [find_upsert_other _ _ x (by
      intro y hy
      simp only [decide_eq_true_eq] at hy
      simp [hy, h]) (by simp [h])]
    simp [h]

theorem slice_onSlice (s : State) (i j : Nat) (f : Slice → Slice) (hf : (f (s.slice i)).id = i) :
    (s.onSlice i f).slice j = if i = j then f (s.slice i) else s.slice j := by
  rw [State.onSlice, slice_setSlice, hf]

/-! ### Partitions and links -/

theorem part?_onPart (s : State) (i j : Nat) (f : Partition → Partition) (hf : ∀ x, (f x).id = x.id) :
    (s.onPart i f).part? j = if i = j then (s.part? j).map f else s.part? j := by
  unfold State.onPart State.part?
  rw [List.find?_map]
  have e : ((fun p : Partition => decide (p.id = j)) ∘ fun p => if p.id = i then f p else p) = fun p => decide (p.id = j) := by
    funext p
    by_cases h : p.id = i <;> simp [h, hf]
  rw [e]
  cases h : s.parts.find? (fun p => decide (p.id = j)) with
  | none => split <;> rfl
  | some x =>
    have hx : x.id = j := by simpa using List.find?_some h
    by_cases hij : i = j
    · simp [hij, hx]
    · have : ¬ x.id = i := by omega
      simp [hij, this]

theorem link_onLink (s : State) (p sl peer : Nat) (f : Link → Link) (h : (s.part? p).isSome = true) :
    (s.onLink p sl peer f).link p sl peer = f (s.link p sl peer) := by
  obtain ⟨x, hx⟩ := Option.isSome_iff_exists.mp h
  let g : Partition → Partition := fun x =>
    { x with links := mset Link.reset x.links (linkKey sl peer) (f (mget Link.reset x.links (linkKey sl peer))) }
  have e : (s.onLink p sl peer f).part? p = some (g x) := by
    have := part?_onPart s p p g (fun _ => rfl)
    rw [if_pos rfl, hx] at this
    exact this
  simp only [State.link, State.part, e, hx, Option.getD_some]
  exact (mget_mset _ _ _ _ _).trans (if_pos rfl)

/-! ### Groups and blocks -/

theorem group?_mapGroups (s : State) (f : Group → Group) (hf : ∀ g, (f g).info.key = g.info.key) (k : GroupKey) :
    (s.mapGroups f).group? k = (s.group? k).map f := by
  unfold State.mapGroups State.group?
  simp only [hf]
  split
  · rfl
  · rw [List.find?_map]
    have e : ((fun g : Group => decide (g.info.key = k)) ∘ f) = fun g => decide (g.info.key = k) := by
      funext g
      simp [hf]
    rw [e]

theorem group?_setGroup (s : State) (g : Group) (k : GroupKey) :
    (s.setGroup g).group? k = if g.info.key = k then some g else s.group? k := by
  unfold State.setGroup State.group?
  by_cases hc : s.cur.info.key = g.info.key
  · simp only [hc, if_true]
    by_cases h : g.info.key = k <;> simp [h]
  · simp only [hc, if_false]
    by_cases h : g.info.key = k
    · subst h
      simp only [hc, if_false, if_true]
      exact find_upsert_self _ g (by simp) _
    · simp only [h, if_false]
      split
      · rfl
      · exact find_upsert_other _ _ g (by
          intro y hy
          simp only [decide_eq_true_eq] at hy
          simp [hy, h]) (by simp [h]) _

theorem group?_key (s : State) (k : GroupKey) (g : Group) (h : s.group? k = some g) : g.info.key = k := by
  unfold State.group? at h
  split at h
  · cases h
    assumption
  · simpa using List.find?_some h

theorem group?_onGroup (s : State) (k j : GroupKey) (f : Group → Group) (hf : ∀ g, (f g).info.key = g.info.key) :
    (s.onGroup k f).group? j = if k = j then (s.group? j).map f else s.group? j := by
  unfold State.onGroup
  cases h : s.group? k with
  | none =>
    by_cases e : k = j
    · subst e
      simp [h]
    · simp [e]
  | some g =>
    have hk := group?_key s k g h
    simp only [group?_setGroup, hf, hk]
    by_cases e : k = j
    · subst e
      simp [h]
    · simp [e]

theorem block?_onBlock (s : State) (k j : BlockKey) (f : Block → Block) (hf : ∀ b, (f b).key = b.key) :
    (s.onBlock k f).block? j = if k = j then (s.block? j).map f else s.block? j := by
  unfold State.onBlock State.block?
  rw [List.find?_map]
  have e : ((fun b : Block => decide (b.key = j)) ∘ fun b => if b.key = k then f b else b) = fun b => decide (b.key = j) := by
    funext b
    by_cases h : b.key = k <;> simp [h, hf]
  rw [e]
  cases h : s.blocks.find? (fun b => decide (b.key = j)) with
  | none => split <;> rfl
  | some x =>
    have hx : x.key = j := by simpa using List.find?_some h
    by_cases hij : k = j
    · subst hij
      simp [hx]
    · have : ¬ x.key = k := fun e => hij (e.symm.trans hx)
      simp [hij, this]

end Sys2Proof.Laws
end

