-- ==== Sys2Proof/Laws/Vector.lean ====
section
/-! SUPPORT. The shared shapes of vector and uniform instructions: the checks that pass, what lanes hold after a result is
written, and sub-elements put together into a lane. -/

namespace Sys2Proof.Laws

open Sys2Proof.Machine Sys2Proof.Safety

/-! ### Checks -/

theorem hazard_quiet (s : State) (h : Quiet s) (vs us : List Nat) (cc fl : Bool) : s.hazard vs us cc fl = none := by
  unfold State.hazard
  unfold Quiet at h
  cases hc : s.cur.info.checked with
  | false => simp
  | true => simp [State.unchecked, State.toCome, h hc]

theorem guardAll_ok (s : State) (n : Named) (tyOk : Bool) (k : Res) (hq : Quiet s) (ht : tyOk = true)
    (hw : InWindow s n.vs) (he : EvenRegs n.evens) : s.guardAll n tyOk k = k := by
  have h1 : n.vs.all (· < s.cur.info.nregs) = true := by simpa [InWindow] using hw
  have h2 : n.evens.all (· % 2 = 0) = true := by simpa [EvenRegs] using he
  simp [State.guardAll, hazard_quiet s hq, ht, h1, h2]

theorem guardRegs_ok (s : State) (vs us : List Nat) (cc fl : Bool) (k : Res) (hq : Quiet s) (hw : InWindow s vs) :
    s.guardRegs vs us cc fl k = k := by
  have h1 : vs.all (· < s.cur.info.nregs) = true := by simpa [InWindow] using hw
  simp [State.guardRegs, hazard_quiet s hq, h1]

@[simp] theorem out_ok (s : State) : (Res.ok s).out = .next s := rfl

@[simp] theorem out_flt (s : State) (f : Flt) : (Res.flt s f).out = .next (s.raise f) := rfl

/-! ### Lanes written -/

@[simp] theorem putLane_issue (s : State) (w : Bool) (n : BitVec 7) (l v : Nat) : (s.putLane w n l v).issue = s.issue := by
  unfold State.putLane; cases w <;> rfl

theorem vget_vwrite (s : State) (n l m k : Nat) (v : W32) :
    (s.vwrite n l v).cur.vget m k = if 32 * n + l = 32 * m + k then v else s.cur.vget m k := by
  simp [State.vwrite, State.onCur, vget_vset]

/-- What one lane's write leaves in every lane of every register. -/
theorem vget_putLane (s : State) (wide : Bool) (d : BitVec 7) (l v n k : Nat) (hl : l < 32) (hk : k < 32) :
    (s.putLane wide d l v).cur.vget n k =
      if k = l ∧ n = d.toNat then BitVec.ofNat 32 v
      else if wide = true ∧ k = l ∧ n = d.toNat + 1 then BitVec.ofNat 32 (v / 2 ^ 32) else s.cur.vget n k := by
  unfold State.putLane
  cases wide with
  | false =>
    simp only [Bool.false_eq_true, if_false, vget_vwrite, false_and]
    have : (32 * d.toNat + l = 32 * n + k) ↔ (k = l ∧ n = d.toNat) := by omega
    simp only [this]
  | true =>
    simp only [if_true, vget_vwrite, true_and]
    have h1 : (32 * d.toNat + l = 32 * n + k) ↔ (k = l ∧ n = d.toNat) := by omega
    have h2 : (32 * (d.toNat + 1) + l = 32 * n + k) ↔ (k = l ∧ n = d.toNat + 1) := by omega
    simp only [h1, h2]
    by_cases ha : k = l ∧ n = d.toNat
    · have : ¬ (k = l ∧ n = d.toNat + 1) := by omega
      simp [ha, this]
    · simp [ha]

@[simp] theorem ccget_putLane (s : State) (wide : Bool) (d : BitVec 7) (l v k : Nat) :
    (s.putLane wide d l v).cur.ccget k = s.cur.ccget k := by
  unfold State.putLane; cases wide <;> rfl

/-- A state reached by writing lanes differs in vector registers, codes and outstanding results alone. -/
def OnlyLanes (s t : State) : Prop :=
  t = { s with cur := { s.cur with vregs := t.cur.vregs, regPoison := t.cur.regPoison, cc := t.cur.cc, pend := t.cur.pend } }

theorem OnlyLanes.trans {a b c : State} (h : OnlyLanes a b) (k : OnlyLanes b c) : OnlyLanes a c := by
  unfold OnlyLanes at *
  rw [k, h]

theorem onlyLanes_putLane (s : State) (wide : Bool) (d : BitVec 7) (l v : Nat) : OnlyLanes s (s.putLane wide d l v) := by
  unfold State.putLane; cases wide <;> rfl

theorem onlyLanes_ccwrite (s : State) (l : Nat) (c : Codes) : OnlyLanes s (s.ccwrite l c) := rfl

theorem onlyLanes_putLanes (s : State) (m : Mask) (wide : Bool) (d : BitVec 7) (codes : Bool) (f : Nat → Nat × Codes) :
    OnlyLanes s (s.putLanes m wide d codes f) := by
  unfold State.putLanes
  refine forLanes_keeps (OnlyLanes s) m _ (fun l t ht => ?_) s rfl
  dsimp only
  split
  · exact (ht.trans (onlyLanes_putLane _ _ _ _ _)).trans (onlyLanes_ccwrite _ _ _)
  · exact ht.trans (onlyLanes_putLane _ _ _ _ _)

theorem onlyLanes_putCodes (s : State) (m : Mask) (f : Nat → Codes) : OnlyLanes s (s.putCodes m f) := by
  unfold State.putCodes
  exact forLanes_keeps (OnlyLanes s) m _ (fun l t ht => ht.trans (onlyLanes_ccwrite _ _ _)) s rfl

/-- What the lanes hold after a result is written to them: the new value in the lanes of the mask, the former value
everywhere else. -/
theorem vget_putLanes (s : State) (m : Mask) (wide : Bool) (d : BitVec 7) (codes : Bool) (f : Nat → Nat × Codes)
    (n k : Nat) (hk : k < 32) :
    (s.putLanes m wide d codes f).cur.vget n k =
      if m.getLsbD k then
        if n = d.toNat then BitVec.ofNat 32 (f k).1
        else if wide = true ∧ n = d.toNat + 1 then BitVec.ofNat 32 ((f k).1 / 2 ^ 32) else s.cur.vget n k
      else s.cur.vget n k := by
  have key : ∀ c, c ≤ 32 → (forN c (fun l t => if m.getLsbD l then
        (if codes then (t.putLane wide d l (f l).1).ccwrite l (f l).2 else t.putLane wide d l (f l).1) else t) s).cur.vget n k =
      if k < c ∧ m.getLsbD k then
        if n = d.toNat then BitVec.ofNat 32 (f k).1
        else if wide = true ∧ n = d.toNat + 1 then BitVec.ofNat 32 ((f k).1 / 2 ^ 32) else s.cur.vget n k
      else s.cur.vget n k := by
    intro c
    induction c with
    | zero => intro; simp [forN]
    | succ c ih =>
      intro hc
      rw [forN_succ]
      have ih := ih (by omega)
      by_cases hm : m.getLsbD c
      · have e : ∀ t : State, (if codes then (t.putLane wide d c (f c).1).ccwrite c (f c).2
            else t.putLane wide d c (f c).1).cur.vget n k = (t.putLane wide d c (f c).1).cur.vget n k := by
          intro t; cases codes <;> rfl
        simp only [hm, if_true, e]
        rw [vget_putLane _ _ _ _ _ _ _ (by omega) hk, ih]
        by_cases h : k = c
        · subst h
          simp [hm]
        · have h1 : (k < c + 1 ∧ m.getLsbD k = true) ↔ (k < c ∧ m.getLsbD k = true) := by
            constructor <;> rintro ⟨a, b⟩ <;> exact ⟨by omega, b⟩
          simp only [h, false_and, and_false, if_false, h1]
      · simp only [hm, Bool.false_eq_true, if_false, ih]
        have h1 : (k < c + 1 ∧ m.getLsbD k = true) ↔ (k < c ∧ m.getLsbD k = true) := by
          constructor
          · rintro ⟨a, b⟩
            refine ⟨?_, b⟩
            rcases Nat.lt_succ_iff_lt_or_eq.mp a with h | h
            · exact h
            · subst h; exact absurd b hm
          · rintro ⟨a, b⟩; exact ⟨by omega, b⟩
        simp only [h1]
  have := key 32 (by omega)
  simp only [hk, true_and] at this
  exact this

theorem ccget_putLanes (s : State) (m : Mask) (wide : Bool) (d : BitVec 7) (codes : Bool) (f : Nat → Nat × Codes) (k : Nat) :
    (s.putLanes m wide d codes f).cur.ccget k = if codes = true ∧ m.getLsbD k = true then (f k).2 else s.cur.ccget k := by
  unfold State.putLanes
  cases codes with
  | false =>
    simp only [Bool.false_eq_true, if_false, false_and]
    exact forLanes_keeps (fun t : State => t.cur.ccget k = s.cur.ccget k) m _ (fun l t ht => by simp [ht]) s rfl
  | true =>
    simp only [if_true, true_and]
    exact forLanes_read m (fun l t => (t.putLane wide d l (f l).1).ccwrite l (f l).2) (fun l (t : State) => t.cur.ccget l)
      (fun l => (f l).2) (fun l t => by simp [State.ccwrite, State.onCur, ccget_ccset])
      (fun l j t hj => by simp [State.ccwrite, State.onCur, ccget_ccset, Ne.symm hj]) s k

theorem ccget_putCodes (s : State) (m : Mask) (f : Nat → Codes) (k : Nat) :
    (s.putCodes m f).cur.ccget k = if m.getLsbD k = true then f k else s.cur.ccget k := by
  unfold State.putCodes
  exact forLanes_read m (fun l t => t.ccwrite l (f l)) (fun l (t : State) => t.cur.ccget l) f
    (fun l t => by simp [State.ccwrite, State.onCur, ccget_ccset])
    (fun l j t hj => by simp [State.ccwrite, State.onCur, ccget_ccset, Ne.symm hj]) s k

/-- A lane or pair that was written reads as the value, cut to its width. -/
theorem laneVal_putLanes (s : State) (m : Mask) (wide : Bool) (d : BitVec 7) (codes : Bool) (f : Nat → Nat × Codes)
    (l : Nat) (hl : l < 32) (hm : m.getLsbD l = true) :
    laneVal (s.putLanes m wide d codes f).cur wide d l = (f l).1 % 2 ^ (if wide then 64 else 32) := by
  unfold laneVal
  rw [vget_putLanes _ _ _ _ _ _ _ _ hl]
  simp only [hm, if_true]
  cases wide with
  | false => simp
  | true =>
    rw [vget_putLanes _ _ _ _ _ _ _ _ hl]
    simp only [hm, if_true, true_and]
    have : ¬ d.toNat + 1 = d.toNat := by omega
    simp only [this, if_false, if_true, BitVec.toNat_ofNat]
    omega

@[simp] theorem laneVal_advance (s : State) (wide : Bool) (n : BitVec 7) (l : Nat) :
    laneVal s.advance.cur wide n l = laneVal s.cur wide n l := by simp [laneVal]

theorem getLsbD_lt (m : Mask) (l : Nat) (h : m.getLsbD l = true) : l < 32 := by
  by_contra hge
  rw [BitVec.getLsbD_of_ge m l (by omega)] at h
  exact absurd h (by simp)

/-! ### Sub-elements -/

theorem laneElts_fold (w : Nat) (f : Nat → Elt) : ∀ n, (∀ j, (f j).val < 2 ^ w) →
    ((List.range n).foldl (fun r j => (⟨r.val + (f j).val * 2 ^ (w * j), r.c || (f j).c, r.v || (f j).v⟩ : Elt)) ⟨0, false, false⟩).val
      < 2 ^ (w * n) ∧
    (∀ j, j < n → sub w ((List.range n).foldl (fun r j => (⟨r.val + (f j).val * 2 ^ (w * j), r.c || (f j).c, r.v || (f j).v⟩ : Elt)) ⟨0, false, false⟩).val j = (f j).val) ∧
    ((List.range n).foldl (fun r j => (⟨r.val + (f j).val * 2 ^ (w * j), r.c || (f j).c, r.v || (f j).v⟩ : Elt)) ⟨0, false, false⟩).c
      = (List.range n).any (fun j => (f j).c) ∧
    ((List.range n).foldl (fun r j => (⟨r.val + (f j).val * 2 ^ (w * j), r.c || (f j).c, r.v || (f j).v⟩ : Elt)) ⟨0, false, false⟩).v
      = (List.range n).any (fun j => (f j).v) := by
  intro n hf
  induction n with
  | zero => simp
  | succ n ih =>
    obtain ⟨h1, h2, h3, h4⟩ := ih
    simp only [List.range_succ, List.foldl_append, List.foldl_cons, List.foldl_nil]
    generalize (List.range n).foldl (fun r j => (⟨r.val + (f j).val * 2 ^ (w * j), r.c || (f j).c, r.v || (f j).v⟩ : Elt)) ⟨0, false, false⟩ = e at *
    have hfn := hf n
    refine ⟨?_, ?_, ?_, ?_⟩
    · have : 2 ^ (w * (n + 1)) = 2 ^ w * 2 ^ (w * n) := by rw [Nat.mul_succ, Nat.pow_add]; ring
      rw [this]
      calc e.val + (f n).val * 2 ^ (w * n) < 2 ^ (w * n) + (f n).val * 2 ^ (w * n) := by omega
        _ = ((f n).val + 1) * 2 ^ (w * n) := by ring
        _ ≤ 2 ^ w * 2 ^ (w * n) := Nat.mul_le_mul_right _ hfn
    · intro j hj
      have hpos : 0 < 2 ^ (w * j) := Nat.two_pow_pos _
      rcases Nat.lt_succ_iff_lt_or_eq.mp hj with h | h
      · rw [← h2 j h]
        unfold sub
        have e1 : (f n).val * 2 ^ (w * n) = 2 ^ (w * j) * ((f n).val * 2 ^ (w * (n - j))) := by
          have : w * n = w * j + w * (n - j) := by rw [← Nat.mul_add]; congr 1; omega
          rw [this, Nat.pow_add]; ring
        rw [e1, Nat.add_mul_div_left _ _ hpos]
        have e2 : (f n).val * 2 ^ (w * (n - j)) = 2 ^ w * ((f n).val * 2 ^ (w * (n - j - 1))) := by
          have : w * (n - j) = w + w * (n - j - 1) := by
            have : n - j = (n - j - 1) + 1 := by omega
            rw [this, Nat.mul_succ]; simp; ring
          rw [this, Nat.pow_add]; ring
        rw [e2, Nat.add_mul_mod_self_left]
      · subst h
        unfold sub
        rw [Nat.mul_comm (f j).val, Nat.add_mul_div_left _ _ hpos, Nat.div_eq_of_lt h1, Nat.zero_add, Nat.mod_eq_of_lt hfn]
    · simp [h3]
    · simp [h4]

/-- A lane computed sub-element by sub-element holds them, and its marks are the OR of theirs. -/
theorem laneElts_spec (t : IntTy) (lw : Nat) (f : Nat → Elt) (hf : ∀ j, (f j).val < 2 ^ t.w) :
    (laneElts t lw f).val < 2 ^ (t.w * (lw / t.w)) ∧
    (∀ j, j < lw / t.w → sub t.w (laneElts t lw f).val j = (f j).val) ∧
    (laneElts t lw f).c = (List.range (lw / t.w)).any (fun j => (f j).c) ∧
    (laneElts t lw f).v = (List.range (lw / t.w)).any (fun j => (f j).v) := laneElts_fold t.w f _ hf

theorem wrap_lt (w : Nat) (x : Int) : wrap w x < 2 ^ w := by
  unfold wrap
  have hp : (0 : Int) < 2 ^ w := by positivity
  have h2 := Int.emod_lt_of_pos x hp
  have h3 : ((2 ^ w : Nat) : Int) = 2 ^ w := by push_cast; rfl
  omega

/-! ### The shape of a vector instruction -/

/-- Everything that an element-wise vector instruction does when its checks pass. -/
theorem vecOp_ok (s : State) (fm : VecForm) (d a : BitVec 7) (b : Src) (ht : fm.types s.ty = true)
    (h : VecReady s d a b) :
    s.vecOp fm d a b =
      .ok (s.putLanes s.active s.wideTy d (s.ccw && !fm.noCodes) (s.vecLane fm d a b)).advance := by
  obtain ⟨hq, hw, he⟩ := h
  unfold State.vecOp
  refine guardAll_ok s _ _ _ hq ht hw ?_
  cases hs : s.wideTy with
  | false => simp [EvenRegs, hs]
  | true => simpa [hs] using he hs

end Sys2Proof.Laws
end

