-- ==== Sys2Proof/Tests/Slice0.lean ====
section
/-! SUPPORT. Tests: terms that the checks refuse, words written out from the spec's encodings, single steps, and for each
statement with hypotheses a state and operands that meet them. -/

namespace Sys2Proof.Tests

set_option Elab.async false

open Sys2Proof.Machine Sys2Proof.Safety

/-! ### Small states -/

/-- The placed group of 32 lanes in focus: TYPE i32, GUARD always, CCW 0, 128 vector registers. -/
def base : State := State.reset.withFetchWord 32 0

/-- The group in focus changed. -/
def grp (f : Group → Group) : State := { base with cur := f base.cur }

/-- MODE holds `m`. -/
def mode (m : W32) : State := grp fun g => { g with mode := m }

/-- The issuing fragment changed. -/
def frg (f : Frag → Frag) : State := grp fun g => { g with f0 := f g.f0 }

/-- s`n` holds `v`. -/
def reg (n : Nat) (v : W64) : State := grp fun g => { g with sregs := [(n, v)] }

/-- A memory access is reached as stated. -/
def memIs (r : Reach) (t : Translation) (ppa : Nat) (u : State) : Bool :=
  match r with
  | .mem x p v => decide (x = t ∧ p = ppa ∧ v = u)
  | _ => false

theorem memIs_eq {r : Reach} {t : Translation} {ppa : Nat} {u : State} (h : memIs r t ppa u = true) : r = .mem t ppa u := by
  cases r <;> simp_all [memIs]

/-- The access of a lane is served, with a result that meets `q`. -/
def laneOk (q : State → List ResWrite → Bool) : LaneEnd → Bool
  | .ok s ws _ => q s ws
  | _ => false

theorem laneOk_ex {q : State → List ResWrite → Bool} {r : LaneEnd} (h : laneOk q r = true) :
    ∃ s ws hit, r = .ok s ws hit ∧ q s ws = true := by
  cases r <;> simp_all [laneOk]

theorem served_ex {r : LaneEnd} (h : laneOk (fun _ _ => true) r = true) : ∃ s ws hit, r = .ok s ws hit :=
  let ⟨s, ws, hit, e, _⟩ := laneOk_ex h
  ⟨s, ws, hit, e⟩

/-- A read-modify-write is performed. -/
def rmwOk : RmwOut → Bool
  | .ok _ _ _ => true
  | _ => false

theorem rmwOk_ex {r : RmwOut} (h : rmwOk r = true) : ∃ old ver s, r = .ok old ver s := by
  cases r <;> simp_all [rmwOk]

/-- Lanes performed one after another. -/
def performLanes (f : Nat → State → LaneEnd) : List Nat → State → Option (State × List LaneRes × Mask)
  | [], s => some (s, [], 0)
  | l :: ls, s =>
    match f l s with
    | .ok s' us hit => (performLanes f ls s').map fun r =>
        (r.1, us.map (fun w => ⟨l, false, w⟩) ++ r.2.1, (if hit then 0 else 1#32 <<< l) ||| r.2.2)
    | .okVer s' us => (performLanes f ls s').map fun r =>
        (r.1, us.map (fun w => ⟨l, true, w⟩) ++ r.2.1, (if false then 0 else 1#32 <<< l) ||| r.2.2)
    | _ => none

theorem performLanes_performs {f : Nat → State → LaneEnd} {ls : List Nat} {s : State} {r : State × List LaneRes × Mask}
    (h : performLanes f ls s = some r) : Performs f ls s r.1 r.2.1 r.2.2 := by
  induction ls generalizing s r with
  | nil => cases h; exact .nil s
  | cons l ls ih =>
    unfold performLanes at h
    split at h
    · next s' us hit here =>
      obtain ⟨x, hx, rfl⟩ := Option.map_eq_some_iff.1 h
      exact .cons (.inl ⟨here, rfl⟩) (ih hx) rfl
    · next s' us here =>
      obtain ⟨x, hx, rfl⟩ := Option.map_eq_some_iff.1 h
      exact .cons (hit := false) (.inr ⟨here, rfl, rfl⟩) (ih hx) rfl
    · cases h

/-- Beats performed one after another. -/
def performBeats (ls : List Nat) (f : Nat → Nat → State → LaneEnd) :
    List Nat → State → Option (State × List LaneRes × Mask)
  | [], s => some (s, [], 0)
  | i :: is, s =>
    match performLanes (f i) ls s with
    | some x => (performBeats ls f is x.1).map fun r => (r.1, x.2.1 ++ r.2.1, x.2.2 ||| r.2.2)
    | none => none

theorem performBeats_performs {ls : List Nat} {f : Nat → Nat → State → LaneEnd} {is : List Nat} {s : State}
    {r : State × List LaneRes × Mask} (h : performBeats ls f is s = some r) :
    PerformsBeats ls f is s r.1 r.2.1 r.2.2 := by
  induction is generalizing s r with
  | nil => cases h; exact .nil s
  | cons i is ih =>
    unfold performBeats at h
    split at h
    · next x hx =>
      obtain ⟨y, hy, rfl⟩ := Option.map_eq_some_iff.1 h
      exact .cons (performLanes_performs hx) (ih hy) rfl
    · cases h

/-- A result that is there and meets `q`. -/
theorem some_ex {α : Type} {q : α → Bool} {o : Option α} (h : o.any q = true) : ∃ x, o = some x ∧ q x = true := by
  cases o <;> simp_all

/-- Lanes tried one after another. -/
def tryLanes (f : Nat → State → LaneEnd) : List Nat → State → Option (State × List LaneRes × Mask × Option Flt)
  | [], s => some (s, [], 0, none)
  | l :: ls, s =>
    match f l s with
    | .ok s' us _ => (tryLanes f ls s').map fun r =>
        (r.1, us.map (fun w => ⟨l, false, w⟩) ++ r.2.1, 1#32 <<< l ||| r.2.2.1, r.2.2.2)
    | .flt y s' => (tryLanes f ls s').map fun r => (r.1, r.2.1, r.2.2.1, some y)
    | _ => none

theorem tryLanes_tries {f : Nat → State → LaneEnd} {ls : List Nat} {s : State}
    {r : State × List LaneRes × Mask × Option Flt} (h : tryLanes f ls s = some r) :
    Tries f ls s r.1 r.2.1 r.2.2.1 r.2.2.2 := by
  induction ls generalizing s r with
  | nil => cases h; exact .nil s
  | cons l ls ih =>
    unfold tryLanes at h
    split at h
    · next s' us hit here =>
      obtain ⟨x, hx, rfl⟩ := Option.map_eq_some_iff.1 h
      exact .done (.inl ⟨here, rfl⟩) (ih hx) rfl
    · next y s' here =>
      obtain ⟨x, hx, rfl⟩ := Option.map_eq_some_iff.1 h
      exact .fails here (ih (r := x) hx)
    · cases h

/-- The translation of the placed group: both stages off, 48 bits at 0. -/
def flat : Translation where
  ctx := 1
  part := 0
  asid := 0
  vmid := 0
  global := false
  s1 := false
  gva := 0
  size := 48
  ipa := 0
  ppa := 0
  fmt := 0
  coh := 0
  ver := false
  stash := false
  perm1 := 7
  user := true
  perm2 := 7
  d1 := true
  d2 := true
  key := 0

/-- The core of the placed group holds a translation and L1 lines. -/
def cached (t : Translation) (l1 : List L1Line) : State := { base with cores := [{ Core.reset ⟨0, 0⟩ with tlb := [t], l1 := l1 }] }

/-- What a read that belongs to the instruction as a whole gives. -/
def delivered (s : State) (n : Nat) (a : W64) : Option (List Byte × State) :=
  match s.reach Kind.load n a with
  | .mem t ppa v => match v.gRead t ppa n (slotOf 0 0) with
    | .data bs _ u => some (bs, u)
    | _ => none
  | _ => none

theorem delivered_delivers {s : State} {n : Nat} {a : W64} {r : List Byte × State} (h : delivered s n a = some r) :
    Delivers s n a r.1 r.2 := by
  unfold delivered at h
  split at h
  · next t ppa v e =>
    split at h
    · next bs hit u g => cases h; exact ⟨t, ppa, v, hit, e, g⟩
    · cases h
  · cases h

/-- A read is delivered and meets `q`. -/
theorem delivers_ex {q : List Byte → State → Bool} {s : State} {n : Nat} {a : W64}
    (h : (delivered s n a).any (fun r => q r.1 r.2) = true) : ∃ bs u, Delivers s n a bs u ∧ q bs u = true := by
  obtain ⟨r, e, hq⟩ := some_ex h
  exact ⟨r.1, r.2, delivered_delivers e, hq⟩

/-- `base` with bytes in memory. -/
def bytes (a : Nat) {w : Nat} (v : BitVec w) : State := { base with mem := putBytes base.mem a (bytesOf (w / 8) v) }

/-- A device's read or write is done, without poison, and meets `q`. -/
def devOk (q : List Byte → State → Bool) : DevOut → Bool
  | .ok b false s => q b s
  | _ => false

theorem devOk_ex {q : List Byte → State → Bool} {r : DevOut} (h : devOk q r = true) : ∃ b s, r = .ok b false s ∧ q b s = true := by
  unfold devOk at h
  split at h
  · exact ⟨_, _, rfl, h⟩
  · cases h

/-- What an engine does is done, and meets `q`. -/
def engOk {α : Type} (q : α → State → Bool) : EngOut α → Bool
  | .ok x s => q x s
  | _ => false

theorem engOk_ex {α : Type} {q : α → State → Bool} {r : EngOut α} (h : engOk q r = true) : ∃ x s, r = .ok x s ∧ q x s = true := by
  unfold engOk at h
  split at h
  · exact ⟨_, _, rfl, h⟩
  · cases h

/-- A page is reached for the mill, and meets `q`. -/
def millOk (q : Translation → Bool) : MillPage → Bool
  | .ok t _ _ => q t
  | _ => false

theorem millOk_ex {q : Translation → Prop} [DecidablePred q] {r : MillPage} (h : millOk (fun t => decide (q t)) r = true) :
    ∃ t ppa u, r = .ok t ppa u ∧ q t := by
  unfold millOk at h
  split at h
  · exact ⟨_, _, _, rfl, of_decide_eq_true h⟩
  · cases h

/-! ### Words of every encoded row, put together from spec/opcode_table.json's fixed bits and field places (R244, R245) -/

/-- The word decodes to the instruction, without markers. -/
def reads (word lit : W32) (i : Instr) (n : Nat) : Bool := decide (decode word lit = .ok ⟨i, false, false, n⟩)

theorem test_words_control : [
  reads 0x00000000 0 (.nop) 1, reads 0x00000001 0 (.exit) 1, reads 0x00037BC2 0 (.trap 0xdef) 1,
  reads 0x00037BC3 0 (.brk 0xdef) 1, reads 0x00000004 0 (.yield) 1, reads 0x00037BC5 0 (.sleep 0xdef) 1,
  reads 0x00000006 0 (.eret) 1, reads 0x01140001 0 (.getm 5) 1, reads 0x01177BC2 0 (.movsr 5 0xdef) 1,
  reads 0x018B7BC3 0 (.movrs 0x22 0xdef) 1, reads 0x01000DC4 0 (.ldovt 0x37) 1, reads 0x01140005 0 (.rdovt 5) 1,
  reads 0x02A5A5A5 0 (.bra 0xa5a5a5) 1, reads 0x03A5A5A5 0 (.brc 0xa 0x5a5a5) 1,
  reads 0x0415A5A5 0 (.brl 5 0x1a5a5) 1, reads 0x05000DC0 0 (.jmp 0x37) 1, reads 0x05140DC1 0 (.jal 5 0x37) 1,
  reads 0x05000DC2 0 (.ret 0x37) 1, reads 0x06A5A5A5 0 (.brv 0xa 0x5a5a5) 1, reads 0x07000000 0 (.rcv) 1,
  reads 0x07400000 0 (.join) 1, reads 0x08A2009A 0 (.loop 2 0x22 0x9a) 1, reads 0x094DEF9A 0 (.loopi 1 0xdef 0x9a) 1,
  reads 0x0A000080 0 (.brkl 2) 1, reads 0x0A140041 0 (.rdlc 5 1) 1, reads 0x0A002DC2 0 (.wrlc 2 0x37) 1,
  reads 0x01000240 0x87654321 (.setm 0 9 0x87654321) 2].all id = true := by decide +kernel

theorem test_words_vector_integer : [
  reads 0x108B89B8 0 (.add 0x45 0x62 0x37) 1, reads 0x108B89B9 0 (.adc 0x45 0x62 0x37) 1,
  reads 0x108B89BA 0 (.sub 0x45 0x62 0x37) 1, reads 0x108B89BB 0 (.sbb 0x45 0x62 0x37) 1,
  reads 0x108B89BC 0 (.mul 0x45 0x62 0x37) 1, reads 0x108B89BD 0 (.mulh 0x45 0x62 0x37) 1,
  reads 0x108B89BE 0 (.mad 0x45 0x62 0x37) 1, reads 0x108B89BF 0 (.absdiff 0x45 0x62 0x37) 1,
  reads 0x118B89B8 0 (.and 0x45 0x62 0x37) 1, reads 0x118B89B9 0 (.or 0x45 0x62 0x37) 1,
  reads 0x118B89BA 0 (.xor 0x45 0x62 0x37) 1, reads 0x118B89BB 0 (.andn 0x45 0x62 0x37) 1,
  reads 0x118B89BC 0 (.shl 0x45 0x62 0x37) 1, reads 0x118B89BD 0 (.shr 0x45 0x62 0x37) 1,
  reads 0x118B89BE 0 (.rol 0x45 0x62 0x37) 1, reads 0x118B89BF 0 (.ror 0x45 0x62 0x37) 1,
  reads 0x128B89B8 0 (.min 0x45 0x62 0x37) 1, reads 0x128B89B9 0 (.max 0x45 0x62 0x37) 1,
  reads 0x120189BA 0 (.cmp 0x62 0x37) 1, reads 0x120189BB 0 (.test 0x62 0x37) 1,
  reads 0x128B89BC 0 (.sel 0x45 0x62 0x37) 1, reads 0x128B8805 0 (.mov 0x45 0x62) 1,
  reads 0x128B8806 0 (.popc 0x45 0x62) 1, reads 0x128B8807 0 (.clz 0x45 0x62) 1,
  reads 0x138B8800 0 (.brev 0x45 0x62) 1, reads 0x138B89B9 0 (.bfe 0x45 0x62 0x37) 1,
  reads 0x138B89BA 0 (.bfi 0x45 0x62 0x37) 1, reads 0x138B8803 0 (.abs 0x45 0x62) 1,
  reads 0x138B8804 0 (.neg 0x45 0x62) 1, reads 0x138B8805 0 (.ext 0x45 0x62) 1,
  reads 0x138B89BE 0 (.dot4 0x45 0x62 0x37) 1].all id = true := by decide +kernel

theorem test_words_vector_immediate_and_uniform : [
  reads 0x148B89EF 0 (.addi 0x45 0x62 0x1ef) 1, reads 0x158B89EF 0 (.muli 0x45 0x62 0x1ef) 1,
  reads 0x168B891A 0 (.shifti 0x45 0x62 1 0x1a) 1, reads 0x170189EF 0 (.cmpi 0x62 0x1ef) 1,
  reads 0x188A01EF 0 (.movi 0x45 0x1ef) 1, reads 0x198B8B70 0 (.addU 0x45 0x62 0x37) 1,
  reads 0x198B8B71 0 (.subU 0x45 0x62 0x37) 1, reads 0x198B8B72 0 (.mulU 0x45 0x62 0x37) 1,
  reads 0x198B8B73 0 (.madU 0x45 0x62 0x37) 1, reads 0x198B8B74 0 (.andU 0x45 0x62 0x37) 1,
  reads 0x198B8B75 0 (.orU 0x45 0x62 0x37) 1, reads 0x198B8B76 0 (.xorU 0x45 0x62 0x37) 1,
  reads 0x198B8B77 0 (.shlU 0x45 0x62 0x37) 1, reads 0x198B8B78 0 (.shrU 0x45 0x62 0x37) 1,
  reads 0x198B8B79 0 (.minU 0x45 0x62 0x37) 1, reads 0x198B8B7A 0 (.maxU 0x45 0x62 0x37) 1,
  reads 0x19018B7B 0 (.cmpU 0x62 0x37) 1, reads 0x198B8B7C 0 (.faddU 0x45 0x62 0x37) 1,
  reads 0x198B8B7D 0 (.fmulU 0x45 0x62 0x37) 1, reads 0x198B8B7E 0 (.fmacU 0x45 0x62 0x37) 1,
  reads 0x198B8B7F 0 (.selU 0x45 0x62 0x37) 1].all id = true := by decide +kernel

theorem test_words_float : [
  reads 0x1A8B89B8 0 (.fadd 0x45 0x62 0x37) 1, reads 0x1A8B89B9 0 (.fsub 0x45 0x62 0x37) 1,
  reads 0x1A8B89BA 0 (.fmul 0x45 0x62 0x37) 1, reads 0x1A8B89BB 0 (.fmac 0x45 0x62 0x37) 1,
  reads 0x1A8B89BC 0 (.fmsc 0x45 0x62 0x37) 1, reads 0x1A8B89BD 0 (.fmin 0x45 0x62 0x37) 1,
  reads 0x1A8B89BE 0 (.fmax 0x45 0x62 0x37) 1, reads 0x1A0189BF 0 (.fcmp 0x62 0x37) 1,
  reads 0x1B8B8800 0 (.fabs 0x45 0x62) 1, reads 0x1B8B8801 0 (.fneg 0x45 0x62) 1,
  reads 0x1B8B8802 0 (.fclass 0x45 0x62) 1, reads 0x1B8B8803 0 (.frnd 0x45 0x62) 1,
  reads 0x1B8B89BC 0 (.fcopysign 0x45 0x62 0x37) 1, reads 0x1C8B89B8 0 (.faddp 0x45 0x62 0x37) 1,
  reads 0x1C8B89B9 0 (.fsubp 0x45 0x62 0x37) 1, reads 0x1C8B89BA 0 (.fmulp 0x45 0x62 0x37) 1,
  reads 0x1C8B89BB 0 (.fmaxp 0x45 0x62 0x37) 1, reads 0x1C8B89BC 0 (.fminp 0x45 0x62 0x37) 1,
  reads 0x1C8B89BD 0 (.fdotp 0x45 0x62 0x37) 1, reads 0x1C8B89BE 0 (.fpack 0x45 0x62 0x37) 1,
  reads 0x1C8B8807 0 (.funpack 0x45 0x62) 1, reads 0x1E8B8800 0 (.frcp 0x45 0x62) 1,
  reads 0x1E8B8801 0 (.frsq 0x45 0x62) 1, reads 0x1E8B8802 0 (.fsqrt 0x45 0x62) 1,
  reads 0x1E8B8803 0 (.fexp2 0x45 0x62) 1, reads 0x1E8B8804 0 (.flog2 0x45 0x62) 1,
  reads 0x1E8B8805 0 (.fsin 0x45 0x62) 1, reads 0x1E8B8806 0 (.fcos 0x45 0x62) 1,
  reads 0x1E8B8807 0 (.ftanh 0x45 0x62) 1, reads 0x1F8B8B50 0 (.cvt 0x45 0x62 0x6a) 1,
  reads 0x1F8B8A59 0 (.cvtsr 0x45 0x62 0x4b) 1, reads 0x1F018BF9 0 (.cvtsrSeed 0x62) 1].all id = true := by decide +kernel

theorem test_words_cross_lane : [
  reads 0x208B89B8 0 (.shflIdx 0x45 0x62 0x37) 1, reads 0x208B8A11 0 (.shflUp 0x45 0x62 0x42) 1,
  reads 0x208B88AA 0 (.shflDn 0x45 0x62 0x15) 1, reads 0x208B8A23 0 (.shflXor 0x45 0x62 0x44) 1,
  reads 0x208B885C 0 (.qswap 0x45 0x62 2 3) 1, reads 0x208B8975 0 (.lred 0x45 0x62 5 6) 1,
  reads 0x208B8B9E 0 (.scan 0x45 0x62 1 6 3) 1, reads 0x200B880F 0 (.vote 5 0x62 1) 1,
  reads 0x210B8800 0 (.ballot 5 0x62) 1, reads 0x210B8B79 0 (.rdlane 5 0x62 0x6f) 1,
  reads 0x218A8B7A 0 (.wrlane 0x45 0x22 0x6f) 1, reads 0x218B8B7B 0 (.bcast 0x45 0x62 0x6f) 1,
  reads 0x218B8804 0 (.matchLane 0x45 0x62) 1, reads 0x218A0005 0 (.elect 0x45) 1, reads 0x218A0006 0 (.lid 0x45) 1,
  reads 0x218A0007 0 (.qid 0x45) 1].all id = true := by decide +kernel

theorem test_words_uniform : [
  reads 0x22162DC0 0 (.sadd 5 0x22 0x37) 1, reads 0x22162DC1 0 (.ssub 5 0x22 0x37) 1,
  reads 0x22162DC2 0 (.smul 5 0x22 0x37) 1, reads 0x22162DC3 0 (.smulh 5 0x22 0x37) 1,
  reads 0x22162DC4 0 (.sdiv 5 0x22 0x37) 1, reads 0x22162DC5 0 (.srem 5 0x22 0x37) 1,
  reads 0x22162DC6 0 (.sand 5 0x22 0x37) 1, reads 0x22162DC7 0 (.sor 5 0x22 0x37) 1,
  reads 0x22162DC8 0 (.sxor 5 0x22 0x37) 1, reads 0x22162DC9 0 (.sshl 5 0x22 0x37) 1,
  reads 0x22162DCA 0 (.sshr 5 0x22 0x37) 1, reads 0x22162DCB 0 (.ssra 5 0x22 0x37) 1,
  reads 0x22162DCC 0 (.smin 5 0x22 0x37) 1, reads 0x22162DCD 0 (.smax 5 0x22 0x37) 1,
  reads 0x22022DCE 0 (.scmp 0x22 0x37) 1, reads 0x22162DCF 0 (.ssel 5 0x22 0x37) 1,
  reads 0x22162010 0 (.smov 5 0x22) 1, reads 0x22162011 0 (.spopc 5 0x22) 1, reads 0x22162012 0 (.sclz 5 0x22) 1,
  reads 0x22162DD3 0 (.sbfe 5 0x22 0x37) 1, reads 0x22162DD4 0 (.sbfi 5 0x22 0x37) 1,
  reads 0x23162DEF 0 (.saddi 5 0x22 0xdef) 1, reads 0x24940000 0x87654321 (.smovl 0x25 0x87654321) 2,
  reads 0x25940000 0x87654321 (.smovh 0x25 0x87654321) 2].all id = true := by decide +kernel

theorem test_words_memory : [
  reads 0x28A6977A 0 (.ld 0x53 0x25 0x37 2 2) 1, reads 0x29A6977A 0 (.st 0x53 0x25 0x37 2 2) 1,
  reads 0x2CA6977A 0 (.ldl 0x53 0x25 0x37 2 2) 1, reads 0x2DA6977A 0 (.stl 0x53 0x25 0x37 2 2) 1,
  reads 0x2AA6967A 0x87654321 (.ldx 0x53 0x25 0x27 2 2 0x87654321) 2,
  reads 0x2B0A0830 0x1234 (.stx 5 2 3 0 0 0x1234) 2].all id = true := by decide +kernel

theorem test_words_tagged : [
  reads 0x2EA695C2 0 (.ldf 0x53 0x25 7 2) 1, reads 0x2EA695C6 0 (.ldfTake 0x53 0x25 7 2) 1,
  reads 0x2EA695CA 0 (.ste 0x53 0x25 7 2) 1, reads 0x2EA695CE 0 (.stf 0x53 0x25 7 2) 1,
  reads 0x2E0095D2 0 (.tset 0x25 7 2) 1, reads 0x2E0095D6 0 (.tclr 0x25 7 2) 1,
  reads 0x2EA695DA 0 (.trd 0x53 0x25 7 2) 1].all id = true := by decide +kernel

theorem test_words_atomic : [
  reads 0x2FA695C2 0 (.atomAdd 0x53 0x25 7 2) 1, reads 0x2FA695C6 0 (.atomMin 0x53 0x25 7 2) 1,
  reads 0x2FA695CA 0 (.atomMax 0x53 0x25 7 2) 1, reads 0x2FA695CE 0 (.atomAnd 0x53 0x25 7 2) 1,
  reads 0x2FA695D2 0 (.atomOr 0x53 0x25 7 2) 1, reads 0x2FA695D6 0 (.atomXor 0x53 0x25 7 2) 1,
  reads 0x2FA695DA 0 (.atomExch 0x53 0x25 7 2) 1, reads 0x2FA695DE 0 (.atomCas 0x53 0x25 7 2) 1,
  reads 0x2FA695E2 0 (.atomFadd 0x53 0x25 7 2) 1, reads 0x2FA695E6 0 (.atomFaddp 0x53 0x25 7 2) 1,
  reads 0x30A695C2 0 (.redAdd 0x53 0x25 7 2) 1, reads 0x30A695C6 0 (.redMin 0x53 0x25 7 2) 1,
  reads 0x30A695CA 0 (.redMax 0x53 0x25 7 2) 1, reads 0x30A695CE 0 (.redAnd 0x53 0x25 7 2) 1,
  reads 0x30A695D2 0 (.redOr 0x53 0x25 7 2) 1, reads 0x30A695D6 0 (.redXor 0x53 0x25 7 2) 1,
  reads 0x30A695E2 0 (.redFadd 0x53 0x25 7 2) 1, reads 0x30A695E6 0 (.redFaddp 0x53 0x25 7 2) 1,
  reads 0x312601C2 0 (.ldu 0x13 7 2) 1, reads 0x312601C6 0 (.stu 0x13 7 2) 1,
  reads 0x312601CA 0 (.atomuAdd 0x13 7 2) 1, reads 0x312601CE 0 (.atomuMin 0x13 7 2) 1,
  reads 0x312601D2 0 (.atomuMax 0x13 7 2) 1, reads 0x312601D6 0 (.atomuAnd 0x13 7 2) 1,
  reads 0x312601DA 0 (.atomuOr 0x13 7 2) 1, reads 0x312601DE 0 (.atomuXor 0x13 7 2) 1,
  reads 0x312601E2 0 (.atomuExch 0x13 7 2) 1, reads 0x312601E6 0 (.atomuCas 0x13 7 2) 1,
  reads 0x312601EA 0 (.atomuFadd 0x13 7 2) 1, reads 0x312601EE 0 (.atomuFaddp 0x13 7 2) 1].all id = true := by decide +kernel

theorem test_words_cache_and_spill : [
  reads 0x32000080 0 (.fence 2) 1, reads 0x32022DC1 0 (.cwb 0x22 0x37) 1, reads 0x32022DC2 0 (.cinv 0x22 0x37) 1,
  reads 0x32022DC3 0 (.cwbinv 0x22 0x37) 1, reads 0x33162DC0 0 (.smap 5 0x22 0x37) 1,
  reads 0x33000DC1 0 (.sunmap 0x37) 1, reads 0x33000DC2 0 (.swb 0x37) 1, reads 0x33000DC3 0 (.sinv 0x37) 1,
  reads 0x34A69778 0 (.spill 0x53 0x25 0x37 2) 1, reads 0x34A69779 0 (.fill 0x53 0x25 0x37 2) 1,
  reads 0x35009778 0 (.prf 0x25 0x37 2) 1].all id = true := by decide +kernel

theorem test_words_transaction_subscription_barrier : [
  reads 0x36140000 0 (.snapopen 5) 1, reads 0x36000001 0 (.snapclose) 1, reads 0x36037BC2 0 (.txbegin 0xdef) 1,
  reads 0x36140003 0 (.txcommit 5) 1, reads 0x36000004 0 (.txabort) 1, reads 0x36140005 0 (.txstat 5) 1,
  reads 0x36140006 0 (.vts 5) 1, reads 0x37162000 0 (.subscribe 5 0x22) 1, reads 0x37000DC1 0 (.unsub 0x37) 1,
  reads 0x37000002 0 (.subflush) 1, reads 0x3714B003 0 (.substatIn 5 0xb) 1, reads 0x3714B043 0 (.substatOut 5 0xb) 1,
  reads 0x38000000 0 (.bar) 1, reads 0x38000001 0 (.gbar) 1, reads 0x38022DC2 0 (.arrive 0x22 0x37) 1,
  reads 0x38022DC3 0 (.cntwait 0x22 0x37) 1].all id = true := by decide +kernel

theorem test_words_engine_matrix_counter : [
  reads 0x39022000 0 (.kick 0x22) 1, reads 0x39162DC1 0 (.launch 5 0x22 0x37) 1,
  reads 0x3A34A8B7 0 (.bload 6 9 2 0x22 0x37) 1, reads 0x3A700000 0 (.brel 6) 1, reads 0x3A802880 0 (.tblld 2 0x22) 1,
  reads 0x3AE2A000 0 (.tblrd 0x45 2) 1, reads 0x3BB262DC 0 (.mma 2 6 9 0x22 0x37) 1,
  reads 0x3BB662DC 0 (.mmaZ 2 6 9 0x22 0x37) 1, reads 0x3C300000 0 (.accz 3) 1,
  reads 0x3C7D7BC0 0 (.accrd 3 0x6b 0x37 2) 1, reads 0x3CBD7BC0 0 (.accwr 3 0x6b 0x37 2) 1,
  reads 0x3CFD7BC0 0 (.accsc 3 0x6b 0x37 2) 1, reads 0x3D142700 0 (.perfrd 5 0x9c) 1,
  reads 0x3D140001 0 (.enrd 5 0) 1, reads 0x3D140042 0 (.tsrd 5 1) 1, reads 0x3D022003 0 (.sample 0x22) 1].all id = true := by decide +kernel

/-- Bit 31 is marker W and bit 30 marker S (R249, R251). -/
theorem test_markers : decode 0xD0080010 0 = .ok ⟨.add 4 0 2, true, true, 1⟩ ∧ decode 0x90080010 0 = .ok ⟨.add 4 0 2, true, false, 1⟩ := by
  decide +kernel

/-- R247: an unassigned major opcode, an unassigned suboperation and a set reserved bit are refused. -/
theorem test_refused : [decode 0xFFFFFFFF 0, decode 0x3F000000 0, decode 0x10000000 0, decode 0x00000007 0, decode 0x00000040 0,
    decode 0x30000018 0].map (fun r => match r with | .ok _ => false | .error _ => true) = [true, true, false, true, true, true] := by
  decide +kernel

/-! ### Terms that `Instr.wf` refuses, one for each of its checks -/

theorem test_ill_formed : [
  Instr.wf (.brc 15 0), Instr.wf (.brv 15 0), Instr.wf (.loop 3 0 0), Instr.wf (.loopi 3 0 0),
  Instr.wf (.brkl 3), Instr.wf (.rdlc 0 3), Instr.wf (.wrlc 3 0), Instr.wf (.setm 0 128 0),
  Instr.wf (.cvt 0 0 0x12), Instr.wf (.cvtsr 0 0 0x1F), Instr.wf (.shflUp 0 0 0x40), Instr.wf (.shflDn 0 0 0x45),
  Instr.wf (.shflXor 0 0 0x49), Instr.wf (.qswap 0 0 1 0), Instr.wf (.lred 0 0 7 0), Instr.wf (.lred 0 0 0 7),
  Instr.wf (.scan 0 0 0 7 0), Instr.wf (.scan 0 0 0 0 7), Instr.wf (.vote 0 0 3), Instr.wf (.fence 0),
  Instr.wf (.fence 4), Instr.wf (.substatIn 0 16), Instr.wf (.substatOut 0 16), Instr.wf (.bload 0 11 0 0 0),
  Instr.wf (.bload 0 0 0 1 0), Instr.wf (.mma 0 0 11 0 0), Instr.wf (.mmaZ 0 0 11 0 0),
  Instr.wf (.perfrd 0 0x100), Instr.wf (.enrd 0 1), Instr.wf (.tsrd 0 2)].any id = false := by decide +kernel

/-- The neighbours of those terms are instructions. -/
theorem test_well_formed : [
  Instr.wf (.brc 14 0), Instr.wf (.brv 14 0), Instr.wf (.loop 2 0 0), Instr.wf (.loopi 2 0 0),
  Instr.wf (.brkl 2), Instr.wf (.rdlc 0 2), Instr.wf (.wrlc 2 0), Instr.wf (.setm 0 127 0),
  Instr.wf (.cvt 0 0 0x11), Instr.wf (.cvtsr 0 0 0x11), Instr.wf (.shflUp 0 0 0x41), Instr.wf (.shflDn 0 0 0x44),
  Instr.wf (.shflXor 0 0 0x3F), Instr.wf (.qswap 0 0 1 3), Instr.wf (.qswap 0 0 0 0), Instr.wf (.lred 0 0 6 6),
  Instr.wf (.scan 0 0 0 6 6), Instr.wf (.vote 0 0 2), Instr.wf (.fence 1), Instr.wf (.fence 3),
  Instr.wf (.substatIn 0 15), Instr.wf (.substatOut 0 15), Instr.wf (.bload 0 10 0 0 0),
  Instr.wf (.mma 0 0 10 0 0), Instr.wf (.mmaZ 0 0 10 0 0), Instr.wf (.perfrd 0 0xFF), Instr.wf (.enrd 0 0),
  Instr.wf (.tsrd 0 1)].all id = true := by decide +kernel

/-! ### Single steps: worked cases of the chapters

Each value stands in a worked case or a table of the rule that the theorem names. -/

/-- `base` with MODE `m` and vector lanes: lane `l` of v`n` at `32 n + l`. -/
def vecs (m : W32) (l : List (Nat × W32)) : State := grp fun g => { g with mode := m, vregs := l }

/-- `base` with uniform registers. -/
def unis (l : List (Nat × W64)) : State := grp fun g => { g with sregs := l }

/-- What holds after an instruction at 0x40 that goes on. -/
def after (i : Instr) (s : State) (q : State → Bool) : Bool :=
  match exec i { s with issue := ⟨false, false, false, 1, 0x40, .nop⟩ } with
  | .next t => q t
  | _ => false

/-- Lane `l` of v`n`, its codes, s`n`. -/
def lane (s : State) (n l : Nat) : W32 := mget 0 s.cur.vregs (32 * n + l)
def cc (s : State) (l : Nat) : Codes := mget 0 s.cur.cc l
def uni (s : State) (n : Nat) : W64 := mget 0 s.cur.sregs n

/-- The packed add of R290, wrapping and saturating. -/
theorem test_add_packed :
    after (.add 4 0 2) (vecs 0x1000 [(0, 0x7F8001FF), (64, 0x01FF0101)]) (fun t => lane t 4 0 == 0x807F0200 &&
      cc t 0 == codesOf true false true true) ∧
    after (.add 4 0 2) (vecs 0x21000 [(0, 0x7F8001FF), (64, 0x01FF0101)]) (fun t => lane t 4 0 == 0x7F800200 &&
      cc t 0 == codesOf true false false true) := by decide +kernel

/-- The 128-bit add of R291: both steps. -/
theorem test_adc_chain :
    after (.add 8 0 4) (vecs 0x1007 [(0, 0xFFFFFFFF), (32, 0xFFFFFFFF), (128, 2)]) (fun t => lane t 8 0 == 1 && lane t 9 0 == 0 &&
      cc t 0 == codesOf true false false true) ∧
    after (.adc 10 2 6) (grp fun g => { g with mode := 0x1007, vregs := [(64, 1), (192, 3)], cc := [(0, codesOf true false false true)] })
      (fun t => lane t 10 0 == 5 && cc t 0 == codesOf false false false false) := by decide +kernel

/-- R290: the corners of `absdiff`, `abs` and `neg`. -/
theorem test_signed_corners :
    after (.absdiff 4 0 2) (vecs 0 [(0, 0x80), (64, 0x7F)]) (fun t => lane t 4 0 == 0xFF) ∧
    after (.abs 4 0) (vecs 0x20000 [(0, 0x80)]) (fun t => lane t 4 0 == 0x7F) ∧
    after (.neg 4 0) (vecs 0x1000 [(0, 0x80)]) (fun t => lane t 4 0 == 0x80 && (cc t 0).getLsbD 0) := by decide +kernel

/-- R292, R296: the values given for `dot4` and `bfe`. -/
theorem test_dot_and_field :
    after (.dot4 4 0 2) (vecs 0 [(0, 0x7F7F7F7F), (64, 0x7F7F7F7F)]) (fun t => lane t 4 0 == 0xFC04) ∧
    after (.bfe 4 0 2) (vecs 2 [(0, 0xF00), (64, 0x406)]) (fun t => lane t 4 0 == 0xFFFFFFFC) := by decide +kernel

/-- R294: shifts by the width. -/
theorem test_shift_by_width :
    after (.shr 4 0 2) (vecs 0x1002 [(0, 0x80000000), (64, 32)]) (fun t => lane t 4 0 == 0xFFFFFFFF && (cc t 0).getLsbD 3) ∧
    after (.shl 4 0 2) (vecs 0x1002 [(0, 0x80000001), (64, 32)]) (fun t => lane t 4 0 == 0 && (cc t 0).getLsbD 3 && (cc t 0).getLsbD 0) := by
  decide +kernel

/-- R303, R305: division truncates; literals. -/
theorem test_uniform :
    after (.sdiv 3 1 2) (unis [(1, -7), (2, 2)]) (fun t => uni t 3 == -3) ∧ after (.srem 3 1 2) (unis [(1, -7), (2, 2)]) (fun t => uni t 3 == -1) ∧
    after (.sdiv 3 1 2) (grp fun g => { g with mode := 0x1000, sregs := [(1, 5)] }) (fun t => uni t 3 == 0xFFFFFFFFFFFFFFFF && t.cur.flags.getLsbD 0) ∧
    after (.smovl 9 0x80000000) base (fun t => uni t 9 == 0xFFFFFFFF80000000) ∧
    after (.smovh 9 1) (unis [(9, 0xFFFFFFFF80000000)]) (fun t => uni t 9 == 0x0000000180000000) := by decide +kernel

/-- R314: one rounding in `fmac`, two in `fmul` and `fadd`. -/
theorem test_fused_multiply :
    after (.fmac 2 0 0) (vecs 0xA [(0, 0x3F800800), (64, 0xBF801000)]) (fun t => lane t 2 0 == 0x33800000) ∧
    after (.fmul 3 0 0) (vecs 0xA [(0, 0x3F800800)]) (fun t => lane t 3 0 == 0x3F801000) := by decide +kernel

/-- R316: `frnd` under rne. -/
theorem test_frnd :
    after (.frnd 4 0) (vecs 0xA [(0, 0xBE99999A), (1, 0x40200000)]) (fun t => lane t 4 0 == 0x80000000 && lane t 4 1 == 0x40000000) := by
  decide +kernel

/-- R317: special results, and the exact ones of `fsqrt`. -/
theorem test_special_functions :
    after (.fsqrt 4 0) (vecs 0xA [(0, 0x40800000), (1, 0xBF800000), (2, 0x80000000)]) (fun t =>
      t.cur.pend.any fun p => p.writes.contains (.vec 4 0 0x40000000) && p.writes.contains (.vec 4 1 0x7FC00000) &&
        p.writes.contains (.vec 4 2 0x80000000)) ∧
    after (.frcp 4 0) (vecs 0xA []) (fun t => t.cur.pend.any fun p => p.writes.contains (.vec 4 0 0x7F800000)) := by decide +kernel

/-- R320: the worked conversions. -/
theorem test_conversions :
    after (.cvt 3 2 0xA) (vecs 0x100B [(64, 0x3E99999A), (65, 0x43FA0000)]) (fun t => lane t 3 0 == 0x2A && cc t 0 == 0 &&
      lane t 3 1 == 0x7E && cc t 1 == codesOf false false false true) ∧
    after (.cvt 3 2 0xA) (vecs 0x1000 [(64, 0xC3200000)]) (fun t => lane t 3 0 == 0x80 && cc t 0 == codesOf false false false true) ∧
    after (.cvt 3 2 0xA) (vecs 0x1005 [(64, 0x7FC00000)]) (fun t => lane t 3 0 == 0 && cc t 0 == codesOf true true false true) ∧
    after (.cvt 3 2 2) (vecs 0x1008 [(64, 0x00010001)]) (fun t => lane t 3 0 == 0x7C00 && (cc t 0).getLsbD 0) := by decide +kernel

/-- R319: the worked stochastic narrowing. -/
theorem test_stochastic :
    after (.cvtsr 3 2 0xA) (grp fun g => { g with mode := 9, vregs := [(64, 0x3F80C000), (65, 0x3F80C000)], stoch := [(0, 0x12345678), (1, 0xD0000000)] })
      (fun t => lane t 3 0 == 0x3F81 && lane t 3 1 == 0x3F80 && mget 0 t.cur.stoch 0 == 0x87985AA5) := by decide +kernel

/-- R323, R324: the worked packed add and dot product. -/
theorem test_packed :
    after (.faddp 6 0 1) (vecs 0x100B [(0, 0xB8FF7E38), (32, 0x38387030)]) (fun t => lane t 6 0 == 0x00FF7E3C &&
      cc t 0 == codesOf true false false true) ∧
    after (.fdotp 2 0 1) (vecs 0xB [(0, 0x38383838), (32, 0x30303030), (64, 0x3F800000)]) (fun t => lane t 2 0 == 0x40400000) := by
  decide +kernel

/-- The state of the worked run of the cross-lane chapter: lanes 0 to 15, v5 lane `l` is `l + 1` but 0 in lane 4. -/
def crossRun : State := grp fun g => { g with f0 := { g.f0 with mask := 0xFFFF }, vregs :=
  (((List.range 32).filter (· ≠ 4)).map fun l => (160 + l, BitVec.ofNat 32 (l + 1))) }

theorem test_cross_lane :
    after (.lred 6 5 5 0) crossRun (fun t => lane t 6 0 == 131 && lane t 6 15 == 131 && lane t 6 16 == 0) ∧
    after (.scan 7 5 1 5 0) crossRun (fun t => (List.range 7).map (lane t 7) == [0, 1, 3, 6, 10, 10, 16] && lane t 7 15 == 115) ∧
    after (.vote 5 5 1) crossRun (fun t => uni t 5 == 1 && !t.cur.flags.getLsbD 2) ∧
    after (.vote 8 5 0) crossRun (fun t => uni t 8 == 0 && t.cur.flags.getLsbD 2) ∧
    after (.ballot 6 5) crossRun (fun t => uni t 6 == 0xFFEF) ∧
    after (.elect 9) crossRun (fun t => lane t 9 0 == 1 && lane t 9 1 == 0) ∧
    after (.bcast 8 5 15) crossRun (fun t => lane t 8 0 == 16 && lane t 8 16 == 0) := by decide +kernel

/-- Lanes 0, 1 and 3 at 0x2000, which holds 100, and lane 2, one element on, at 0x2004, which holds 40. -/
def aggregated : State :=
  let f : Frag := { base.cur.f0 with mask := 0xF }
  let s := grp fun g => { g with f0 := f, sregs := [(3, 0x2000)], vregs := [(66, 1), (192, 5), (193, 7), (194, 2), (195, 1)] }
  { s with mem := putBytes s.mem 0x2000 (bytesOf 8 (0x2800000064 : W64)) }

/-- R119: the worked aggregation. -/
theorem test_aggregation :
    after (.atomAdd 6 2 3 0) aggregated (fun t =>
      (List.range 8).map (fun i => mget 0 t.mem (0x2000 + i)) == [113, 0, 0, 0, 42, 0, 0, 0] &&
        t.cur.pend.any fun p => p.writes.contains (.vec 6 0 100) && p.writes.contains (.vec 6 1 105) &&
          p.writes.contains (.vec 6 3 112) && p.writes.contains (.vec 6 2 40)) := by decide +kernel

/-- R389: the worked read and scaling of an accumulator; row `r`, column `c` of a`t` at `(32 t + r) 64 + c`. -/
def accState (m : W32) : State := grp fun g => { g with mode := m, sregs := [(10, 5)], acc := [(32 * 64 + 5, 0x4B800004)], vregs := [(384, 0x3F000000)] }

theorem test_accumulators :
    after (.accrd 1 8 10 0) (accState 9) (fun t => (t.cur.pend.any fun p => p.writes.contains (.vec 8 0 0x4B80)) || lane t 8 0 == 0x4B80) ∧
    after (.accrd 1 8 10 0) (accState 2) (fun t => (t.cur.pend.any fun p => p.writes.contains (.vec 8 0 0x01000008)) || lane t 8 0 == 0x01000008) ∧
    after (.accsc 1 12 10 0) (accState 9) (fun t => mget 0 t.cur.acc (32 * 64 + 5) == 0x4B000004) := by decide +kernel

/-- R267, R268: branches and calls. -/
theorem test_branches :
    after (.bra 0xFFFFFF) base (fun t => t.cur.f0.pc == 0x3C) ∧
    after (.brl 5 3) base (fun t => t.cur.f0.pc == 0x4C && uni t 5 == 0x44 && t.cur.f0.depth == 1) ∧
    after (.jmp 5) (unis [(5, 0x2000)]) (fun t => t.cur.f0.pc == 0x2000) := by decide +kernel

/-- R269: the split of the worked divergence, with the equal lanes as those that take: 20 take, the other 12 go on. -/
theorem test_split :
    after (.brv 1 7) (grp fun g => { g with cc := (List.range 20).map fun l => (l, codesOf false true false false) }) (fun t =>
      t.cur.f0.mask == 0xFFF00000 && t.cur.f0.pc == 0x44 && t.cur.f1.mask == 0x000FFFFF && t.cur.f1.pc == 0x5C) := by
  decide +kernel

/-- R279: a breakpoint saves its number and the next PC. -/
theorem test_breakpoint :
    after (.brk 7) base (fun t => t.cur.t0.tcause == Cause.breakpoint && t.cur.t0.taddr == 7 && t.cur.t0.tpc == 0x44) := by decide +kernel

/-- R65, R346: a store of one lane puts its four bytes, low byte first. -/
theorem test_store :
    after (.st 6 0 4 0 0) (grp fun g => { g with f0 := { g.f0 with mask := 1 }, sregs := [(4, 0x2000)], vregs := [(192, 0x11223344)] }) (fun t =>
      ((List.range 4).map (fun i => mget 0 t.mem (0x2000 + i)) == [0x44, 0x33, 0x22, 0x11])) := by decide +kernel

/-! ### Hypotheses that are met: vector, floating-point and cross-lane instructions -/

theorem witness_VectorExactResults :
    (∃ f, exactRule (.add 4 0 2) = some f) ∧ vecShape (.add 4 0 2) = some (4, 0, .v 2) ∧
    vecTypes (.add 4 0 2) base.ty = true ∧ VecReady base 4 0 (.v 2) ∧
    (∃ f, exactRule (.shifti 126 126 0 63) = some f) ∧ vecShape (.shifti 126 126 0 63) = some (126, 126, .i 63) ∧
    vecTypes (.shifti 126 126 0 63) (mode 7).ty = true ∧ VecReady (mode 7) 126 126 (.i 63) := by
  refine ⟨⟨_, rfl⟩, rfl, rfl, ?_, ⟨_, rfl⟩, rfl, rfl, ?_⟩ <;> unfold VecReady Quiet InWindow EvenRegs <;> decide +kernel

theorem witness_VectorPlainResults :
    (∃ f, plainRule (.mulh 127 0 2) = some f) ∧ vecShape (.mulh 127 0 2) = some (127, 0, .v 2) ∧
    vecTypes (.mulh 127 0 2) base.ty = true ∧ VecReady base 127 0 (.v 2) ∧
    (∃ f, bitRule (.bfi 126 0 2) = some f) ∧ vecShape (.bfi 126 0 2) = some (126, 0, .v 2) ∧
    vecTypes (.bfi 126 0 2) (mode 3).ty = true ∧ VecReady (mode 3) 126 0 (.v 2) := by
  refine ⟨⟨_, rfl⟩, rfl, rfl, ?_, ⟨_, rfl⟩, rfl, rfl, ?_⟩ <;> unfold VecReady Quiet InWindow EvenRegs <;> decide +kernel

/-- With CCW 0 and with CCW 1, with a lane that is not active. -/
theorem witness_VectorCodes :
    vecShape (.sbb 4 0 2) = some (4, 0, .v 2) ∧ vecTypes (.sbb 4 0 2) base.ty = true ∧ VecReady base 4 0 (.v 2) ∧
    base.ccw = false ∧ VecReady (mode 0x1102) 4 0 (.v 2) ∧ (mode 0x1102).ccw = true ∧ (mode 0x1102).active.getLsbD 0 = false := by
  unfold VecReady Quiet InWindow EvenRegs; decide +kernel

theorem witness_VectorFrame :
    vecShape (.andU 4 0 2) = some (4, 0, .u 2) ∧ vecTypes (.andU 4 0 2) (mode 15).ty = true ∧ VecReady (mode 15) 4 0 (.u 2) := by
  refine ⟨rfl, rfl, ?_⟩; unfold VecReady Quiet InWindow EvenRegs; decide +kernel

theorem witness_VectorCompare :
    cmpShape (.cmpi 127 0x3FF) = some (127, .i 0x3FF, false) ∧ cmpShape (.test 126 126) = some (126, .v 126, true) ∧
    (base.ty = 2 ∧ (mode 7).ty = 7) ∧ Quiet base ∧ InWindow base (regs base.wideTy 127) ∧
    InWindow (mode 7) (regs (mode 7).wideTy 126) ∧ EvenRegs [126, 126] := by
  unfold Quiet InWindow EvenRegs; decide +kernel

theorem witness_VectorMoves :
    Quiet (mode 3) ∧ (mode 3).ty ≤ 7 ∧ VecReady (mode 3) 4 0 (.v 126) ∧ VecReady (mode 3) 4 0 (.u 63) ∧ VecReady (mode 15) 4 0 (.v 0) ∧
    (mode 15).ty = 15 ∧ InWindow (mode 3) (127 :: regs (mode 3).wideTy 126) ∧ (mode 4).ty = 4 ∧ Quiet (mode 4) ∧
    InWindow (mode 4) [127, 0, 2] := by
  unfold VecReady Quiet InWindow EvenRegs; decide +kernel

theorem witness_FloatResults :
    f32Shape (.fmacU 8 8 3) = some (8, 8, .u 3) ∧ (∃ f, f32Rule (.fmacU 8 8 3) = some (true, f)) ∧
    (∃ f, f32Rule (.frnd 8 8) = some (false, f)) ∧ (∃ f, f32Move (.fclass 4 0) = some (4, 0, 0, f)) ∧
    (mode 0x100A).ty = 0x0A ∧ (mode 0x100A).ccw = true ∧ Quiet (mode 0x100A) ∧ InWindow (mode 0x100A) [8, 8] := by
  refine ⟨rfl, ⟨_, rfl⟩, ⟨_, rfl⟩, ⟨_, rfl⟩, ?_⟩; unfold Quiet InWindow; decide +kernel

theorem witness_PackedResults :
    packedTy (mode 0x0C).ty = some tyE5m2 ∧ (∃ f, packRule (.faddp 6 0 1) = some (6, 0, 1, f)) ∧ Quiet (mode 0x0C) ∧
    InWindow (mode 0x0C) [6, 0, 1] ∧ narrowTy (mode 0xAD).ty = some (tyE2m1, tyE4m3) ∧ modeRnd (mode 0xAD).cur.mode = 5 ∧
    Quiet (mode 0xAD) ∧ InWindow (mode 0xAD) [126, 0, 1] ∧ 126 + 1 < (mode 0xAD).cur.info.nregs := by
  refine ⟨rfl, ⟨_, rfl⟩, ?_⟩; unfold Quiet InWindow; decide +kernel

/-- The special result of 1 / 0, and a lane without one. -/
theorem witness_SpecialFunctions :
    (mode 0x0A).ty = 0x0A ∧ Quiet (mode 0x0A) ∧ InWindow (mode 0x0A) [4, 0] ∧
    modeFtz (mode 0x0A).cur.mode = false ∧ (mode 0x0A).active.getLsbD 31 = true ∧
    sfuSpecial 0 ((mode 0x0A).vread 0 0 31) = some 0x7F800000 ∧ sfuSpecial 0 0x3F800000 = none ∧
    ∃ m e, tyF32.decode (0x40800000 : W32).toNat = .fin false m e ∧ m ≠ 0 := by
  refine ⟨rfl, ?_, ?_, rfl, ?_, ?_, ?_, _, _, rfl, by decide⟩ <;>
  first
    | decide +kernel
    | (unfold Quiet; decide +kernel)
    | (unfold InWindow; decide +kernel)

/-- cvt to f32 from f16, from f64 to i64, and from cb4 with a table slot; from a NaN, an infinity and a finite value. -/
theorem witness_Conversions :
    let t : State := { mode 0x0A with cores := [{ Core.reset ⟨0, 0⟩ with tslots := [(3, ⟨List.replicate 16 0x3C00, 1, 0⟩)] }] }
    Quiet t ∧ (Instr.cvt 3 2 0x6E).wf = true ∧ t.ty ≤ 0x11 ∧ t.tabling 3 = false ∧ t.tableSlot 3 = some (List.replicate 16 0x3C00) ∧
    floatTy t.ty = some tyF32 ∧ (intTy 3).isSome = true ∧ (intTy 2).isSome = true ∧ intTy 0x0A = none ∧
    (srcVal 0x0A false [] 0x7FC00000).isNan = true ∧ srcVal 0x0A false [] 0x7F800000 = .inf false ∧
    srcVal 0x0A false [] 0x3F800000 = .fin false (2 ^ 23) (-23) ∧ ((0x6E : BitVec 7).extractLsb' 0 5).toNat = 0x0E ∧
    ((0x6E : BitVec 7).extractLsb' 5 2).toNat = 3 ∧ InWindow t (regs t.wideTy 3 ++ regs false 2) ∧
    Quiet (mode 3) ∧ InWindow (mode 3) (regs (mode 3).wideTy 126 ++ regs true 0) ∧ (126 : BitVec 7).toNat % 2 = 0 ∧
    typeBits 3 = 64 ∧ Quiet base ∧ InWindow base [127] := by
  unfold Quiet InWindow; decide +kernel

/-- A source lane in range and one out of it. -/
theorem witness_Shuffles :
    (∃ m, shuffleRule base (.shflUp 4 2 1) = some (4, 2, [], m) ∧ m 0 = none ∧ m 31 = some 30) ∧
    (∃ m, shuffleRule base (.qswap 4 2 0 2) = some (4, 2, [], m)) ∧ Quiet base ∧ InWindow base (regs base.wideTy 4 ++ regs base.wideTy 2) := by
  refine ⟨⟨_, rfl, by decide, by decide⟩, ⟨_, rfl⟩, ?_⟩; unfold Quiet InWindow; decide +kernel

theorem witness_ReductionsAndScans :
    collectiveShape (.lred 6 5 6 0) = some (6, 5, 0) ∧ (Instr.lred 6 5 6 0).wf = true ∧ base.ty = 2 ∧ Quiet base ∧
    InWindow base (regs base.wideTy 6 ++ regs base.wideTy 5) ∧ collectiveShape (.scan 7 5 1 0 5) = some (7, 5, 5) ∧
    (Instr.scan 7 5 1 0 5).wf = true ∧ (mode 0x0A).ty = 0x0A ∧ Quiet (mode 0x0A) ∧ InWindow (mode 0x0A) [7, 5] ∧
    modeFtz (mode 0x0A).cur.mode = false ∧ contributors (mode 0x0A) (.scan 7 5 1 0 6) 4 = [] ∧
    contributors (mode 0x0A) (.scan 7 5 0 0 6) 7 = [4, 5, 6, 7] := by
  unfold Quiet InWindow; decide +kernel

theorem witness_CrossLane :
    Quiet (mode 3) ∧ InWindow (mode 3) (regs (mode 3).wideTy 126) ∧ (126 : BitVec 7).toNat % 2 = 0 ∧ (31 : BitVec 7).toNat < 32 ∧
    (mode 3).active.getLsbD 31 = true ∧ (2 : BitVec 2) ≠ 3 ∧ InWindow (mode 3) (regs (mode 3).wideTy 0) := by
  unfold Quiet InWindow; decide +kernel

/-! ### Hypotheses that are met: uniform instructions and control flow -/

theorem witness_UniformResults :
    Quiet (mode 0x1002) ∧ uniRule (mode 0x1002) (.sadd 63 1 2) = some (63, 0) ∧ (mode 0x1002).ccw = true ∧
    uniSilent (.sadd 63 1 2) = false ∧ uniRule base (.smovl 0 0xFFFFFFFF) = some (0, 0xFFFFFFFFFFFFFFFF) := by
  unfold Quiet; decide +kernel

/-- The other slot is READY with lanes of its own. -/
def two : State := grp fun g =>
  { g with f0 := { g.f0 with mask := 0xFFFF }, f1 := { g.f0 with mask := 0xFFFF0000, pc := 0x80 } }

/-- Lane 0 holds the codes Z, the others none: of `brv` with Z, T is lane 0 and N the rest. -/
def mixed (s : State) : State := { s with cur := { s.cur with cc := [(0, codesOf false true false false)] } }

theorem witness_Branches :
    Quiet base ∧ base.frag.depth ≠ 255 ∧ (reg 1 0xFFFFFFFFFFFFFFFC).uread 0 1 = 0xFFFFFFFFFFFFFFFC ∧
    (0xFFFFFFFFFFFFFFFC : W64).toNat % 4 = 0 ∧ Quiet (frg fun f => { f with depth := 1 }) ∧
    (frg fun f => { f with depth := 1 }).frag.depth ≠ 0 ∧
    (∀ l < 32, (0 : Mask).getLsbD l = (base.frag.mask.getLsbD l && condHolds 1 (base.ccread 0 l))) ∧
    (∀ l < 32, base.frag.mask.getLsbD l = (base.frag.mask.getLsbD l && condHolds 0 (base.ccread 0 l))) ∧
    (∀ l < 32, (1 : Mask).getLsbD l = ((mixed base).frag.mask.getLsbD l && condHolds 1 ((mixed base).ccread 0 l))) ∧
    (mixed base).cur.loopActive = false ∧ (mixed base).other.st = .free ∧
    (∀ l < 32, (1 : Mask).getLsbD l = ((mixed two).frag.mask.getLsbD l && condHolds 1 ((mixed two).ccread 0 l))) ∧
    (mixed two).other.st ≠ .free ∧ (mixed two).cur.stack.length < 64 ∧ (1 : Mask) ≠ (mixed two).frag.mask := by
  unfold Quiet; decide +kernel

/-- Counter 1 runs over the word at 0x40, inside counter 0. -/
def looped : State := grp fun g => { g with lc0 := ⟨2, 0, 4, 0x38⟩, lc1 := ⟨1, 1, 1, 0x3C⟩ }

/-- A loop that starts, one that is skipped, and the operands that `loop` refuses; the counter instructions. -/
theorem witness_Loops :
    Quiet looped ∧ (looped.cur.lc 1).count ≠ 0 ∧ (looped.cur.lc 2).count = 0 ∧ endsAt looped.cur 1 0x40 ∧
    ((reg 1 0xFFFFFFFF).uread 0 1).toNat = 2 ^ 32 - 1 ∧ ((reg 1 0x100000000).uread 0 1).toNat = 2 ^ 32 ∧ two.other.st ≠ .free ∧
    (base.cur.lc 0).count = 0 ∧ base.other.st = .free ∧ (2 : BitVec 12).toNat < 3 ∧
    ((reg 3 0xFFFFFFFF).uread 0 3).toNat < 2 ^ 32 ∧ base.uread 0 3 = 0 := by
  unfold Quiet endsAt; decide +kernel

/-- Privileged level, a handler's trap state with TPC aligned. -/
def handler : State := grp fun g => { g with priv := true, t0 := { Trap.none with tpc := 0x1000, tcause := 0x21 } }

theorem witness_SystemRegisters :
    Quiet handler ∧ handler.cur.priv = true ∧ (handler.cur.trap handler.issue.slot).tpc.toNat % 4 = 0 ∧
    (0x3FFFF : BitVec 32).toNat < 2 ^ 18 ∧ reservedMode 0x00011102 0x7F = false ∧
    (0x022, base.cur.info.fixup.toNat) ∈ userRegs base ∧
    (0x040, (0x1000 : W64), { handler.cur.t0 with tpc := 5 }) ∈ trapRegs (handler.cur.trap false) 5 ∧ ovtOk 0x0045 = true := by
  unfold Quiet; decide +kernel

theorem witness_FragmentControl :
    base.cur.tx.opened = false ∧ base.cur.stack = [] ∧
    (grp fun g => { g with stack := [g.f0.record] }).cur.stack ≠ [] ∧ (0xFFF : BitVec 12) ≠ 0 := by decide +kernel

/-- Inside a transaction that `txbegin` at 0x20 opened. -/
def inTx : State := grp fun g => { g with tx := ⟨true, 0, 0, 0, 0, 1, BitVec.allOnes 32, 0, 0x100, 0, none⟩ }

theorem witness_FaultsTaken :
    Raises (.jmp 1) (reg 1 2) { cause := Cause.misaligned, addr := 2 } ∧ (reg 1 2).cur.tx.opened = false ∧
    Raises .exit inTx { cause := Cause.illegalOperand } ∧ inTx.cur.tx.opened = true := ⟨rfl, rfl, rfl, rfl⟩

/-- Two fragments and a full stack. -/
def deepStack : State := { two with cur := { two.cur with stack := List.replicate 64 two.cur.f1.record } }

theorem witness_ControlFaults :
    Quiet base ∧ (frg fun f => { f with depth := 255 }).frag.depth = 255 ∧ ((reg 1 3).uread 0 1).toNat % 4 ≠ 0 ∧
    base.frag.depth = 0 ∧ inTx.cur.tx.opened = true ∧ base.cur.priv = false ∧ (0x012 : BitVec 12) ∉ (userRegs base).map (·.1) ∧
    (mixed looped).frag.mask.getLsbD 0 = true ∧ condHolds 1 ((mixed looped).ccread 0 0) = true ∧
    condHolds 1 ((mixed looped).ccread 0 31) = false ∧ looped.cur.loopActive = true ∧
    (mixed deepStack).cur.loopActive = false ∧ (mixed deepStack).other.st ≠ .free ∧ 64 ≤ (mixed deepStack).cur.stack.length ∧
    handler.cur.priv = true ∧ ovtOk 0x0003 = false ∧
    (grp fun g => { g with priv := true, t0 := { Trap.none with tpc := 2 } }).cur.t0.tpc.toNat % 4 ≠ 0 ∧
    reservedMode 0x0000001F 0x1 = true ∧ (0x40000 : BitVec 32).toNat = 2 ^ 18 ∧ (base.cur.lc 2).count = 0 ∧
    ((reg 3 0x100000000).uread 0 3).toNat = 2 ^ 32 := by
  unfold Quiet; decide +kernel

/-! ### Hypotheses that are met: fragments and memory -/

/-- Slot 0 alone waits at `rcv`; both wait there; one waits at `join`; both wait at `join`, at different points. -/
def rcvOne : State := frg fun f => { f with st := .waitRcv }
def rcvTwo : State := { two with cur := { two.cur with f0 := { two.cur.f0 with st := .waitRcv }, f1 := { two.cur.f1 with st := .waitRcv } } }
def joinOne : State := frg fun f => { f with st := .waitJoin }
def joinTwo : State := { two with cur := { two.cur with f0 := { two.cur.f0 with st := .waitJoin }, f1 := { two.cur.f1 with st := .waitJoin } } }

/-- `s` with a record on the stack. -/
def stacked (s : State) : State := { s with cur := { s.cur with stack := [{ s.cur.f1.record with pc := 0x200 }] } }

theorem witness_FragmentArbiter :
    ({ two with cur := { two.cur with f1 := { two.cur.f1 with pc := 0x40 } } } : State).cur.canFuse = true ∧ two.cur.arbitrates = true ∧
    (stacked base).cur.canFuse = false ∧ (stacked base).cur.f1.st = .free ∧ (stacked joinTwo).cur.canFuse = false ∧
    (stacked joinTwo).cur.f0.st.join = true ∧ (stacked joinTwo).cur.f1.st.join = true ∧
    rcvOne.group? rcvOne.args.group = some rcvOne.cur ∧ rcvOne.cur.arbitrates = true ∧ rcvOne.cur.canFuse = false ∧
    rcvOne.cur.stack = [] ∧ (rcvOne.cur.frag false).st = .waitRcv ∧ (rcvOne.cur.frag true).st = .free ∧
    rcvTwo.cur.canFuse = false ∧ (rcvTwo.cur.frag false).pc.toNat < (rcvTwo.cur.frag true).pc.toNat ∧
    (joinOne.cur.frag false).st = .waitJoin ∧ (joinOne.cur.frag true).st = .free ∧ false = decide (joinOne.cur.f0.st = .free) ∧
    joinTwo.cur.canFuse = false ∧ joinTwo.cur.f0.st = .waitJoin ∧ joinTwo.cur.f1.st = .waitJoin ∧ joinTwo.cur.tx.opened = false := by
  decide +kernel

/-- The lanes of a miss split that wait, and a result of two writes to one register. -/
theorem witness_ResultsArrive :
    let s := grp fun g => { g with
      f1 := { g.f0 with st := .waitMem, lag := true, mask := 1 }, pend := [⟨1, [.vec 3 0 5, .uni 2 7], 0, false, 0x40⟩] }
    let a : State := { s with args := { StepArgs.zero with frag := true } }
    a.group? a.args.group = some a.cur ∧ a.args.frag = true ∧ (a.cur.frag true).lag = true ∧ (a.cur.frag true).st = .waitMem ∧
    (a.cur.frag true).hold = .none ∧ a.cur.pend[a.args.n]? = some ⟨1, [.vec 3 0 5, .uni 2 7], 0, false, 0x40⟩ ∧
    (let r := grp fun g => { g with f0 := { g.f0 with st := .waitMem, hold := .results }, pend := [⟨1, [.uni 2 7], 0, false, 0x40⟩] }
     r.group? r.args.group = some r.cur ∧ (r.cur.frag false).hold = .results ∧ r.cur.pend[r.args.n]? = some ⟨1, [.uni 2 7], 0, false, 0x40⟩ ∧
      r.cur.pend.eraseIdx r.args.n = []) := by
  decide +kernel

/-- A relaxed load of 32 lanes and a tagged load of a word whose tag is set. -/
theorem witness_MemoryInstructions :
    (∃ p u ws miss, globalPlan base (.ld 8 1 2 0 1) = some p ∧ Quiet base ∧ memReady base (.ld 8 1 2 0 1) ∧
      PerformsBeats (lanes p.mask) p.act (List.range p.count) p.start u ws miss ∧ ¬ splits base (.ld 8 1 2 0 1) u (base.missed ||| miss)) ∧
    ∃ p u ws miss, localPlan base (.stl 8 1 2 1 2) = some p ∧ memReady base (.stl 8 1 2 1 2) ∧
      PerformsBeats (lanes p.mask) p.act (List.range p.count) p.start u ws miss ∧ ws = [] := by
  constructor
  · obtain ⟨r, h, -⟩ := some_ex (q := fun _ => true)
      (o := performBeats (lanes base.active) (globalPlan.load base 8 (fun i l => eaOf base 1 2 0 l + BitVec.ofNat 64 (i * accessSize base)) 0).act
        [0] base.countLoad) (by decide +kernel)
    exact ⟨_, _, _, _, rfl, by unfold Quiet; decide +kernel, by unfold memReady memReady.vectors; decide +kernel,
      performBeats_performs h, fun x => absurd x.1 (by decide)⟩
  · obtain ⟨p, hp⟩ : ∃ p, localPlan base (.stl 8 1 2 1 2) = some p := ⟨_, rfl⟩
    obtain ⟨r, h, e⟩ := some_ex (q := fun r => r.2.1.isEmpty)
      (o := (localPlan base (.stl 8 1 2 1 2)).bind fun p => performBeats (lanes p.mask) p.act (List.range p.count) p.start)
      (by decide +kernel)
    rw [hp] at h
    exact ⟨p, _, _, _, hp, by unfold memReady memReady.vectors; decide +kernel, performBeats_performs h, by simpa using e⟩

/-- Lanes 0 and 1 of a store meet at one address, in one beat and across two: their values agree, or differ. -/
theorem witness_SharedLocations :
    0 ∈ lanes 3 ∧ 1 ∈ lanes 3 ∧ ¬ (0 = base.frag.beat.toNat ∧ base.frag.done.getLsbD 1 = true) ∧
    base.sharers 3 (fun _ _ => (7 : W32)) 0 1 = [(0, 0), (0, 1)] ∧
    base.sharers 3 (fun i l => BitVec.ofNat 32 (i + l)) 1 0 = [(0, 1), (1, 0)] ∧
    base.storeVal 3 (fun _ _ => (7 : W32)) (fun _ _ => 9) 0 1 = 9 ∧
    base.storeVal 3 (fun _ l => BitVec.ofNat 32 l) (fun _ l => l) 0 1 = 1 := by
  decide +kernel

/-- A W-marked relaxed load: lane 31 misses, the others hit. And a misaligned one, whose lowest lane faults. -/
theorem witness_MemoryOutcomes :
    (let s : State := { cached flat [.hc 0 64 .shared] with
        cur := { base.cur with sregs := [(2, 0x1000)], vregs := [(32 + 31, 16)] }, issue := ⟨false, true, false, 1, 0x40, .nop⟩ }
     ∃ p u ws miss, globalPlan s (.ld 8 1 2 0 0) = some p ∧ memReady s (.ld 8 1 2 0 0) ∧
       PerformsBeats (lanes p.mask) p.act (List.range p.count) p.start u ws miss ∧ splits s (.ld 8 1 2 0 0) u (s.missed ||| miss)) ∧
    let s := reg 2 0x1002
    ∃ p v rs m f, globalPlan s (.st 8 1 2 0 0) = some p ∧ memReady s (.st 8 1 2 0 0) ∧ 0 < p.count ∧
      Tries (p.act 0) (lanes p.mask) s v rs m (some f) ∧ f.deferred = false ∧ f.after = false ∧ v.cur.tx.opened = false := by
  constructor
  · intro s
    obtain ⟨p, hp⟩ : ∃ p, globalPlan s (.ld 8 1 2 0 0) = some p := ⟨_, rfl⟩
    obtain ⟨r, h, e⟩ := some_ex (q := fun r => r.1.issue.w && r.1.other.st == .free && !r.1.cur.loopActive && s.missed ||| r.2.2 != 0 &&
        s.active &&& ~~~(s.missed ||| r.2.2) != 0 && r.1.frag.redo.isNone)
      (o := (globalPlan s (.ld 8 1 2 0 0)).bind fun p => performBeats (lanes p.mask) p.act (List.range p.count) p.start)
      (by decide +kernel)
    rw [hp] at h
    simp only [Bool.and_eq_true, beq_iff_eq, bne_iff_ne, Bool.not_eq_true', Option.isNone_iff_eq_none] at e
    exact ⟨p, _, _, _, hp, by unfold memReady memReady.vectors; decide +kernel, performBeats_performs h,
      rfl, e.1.1.1.1.1, e.1.1.1.1.2, e.1.1.1.2, e.1.1.2, e.1.2, e.2⟩
  · intro s
    obtain ⟨p, hp⟩ : ∃ p, globalPlan s (.st 8 1 2 0 0) = some p := ⟨_, rfl⟩
    obtain ⟨r, h, e⟩ := some_ex (q := fun r => (r.2.2.2.any fun f => !f.deferred && !f.after) && !r.1.cur.tx.opened)
      (o := (globalPlan s (.st 8 1 2 0 0)).bind fun p => tryLanes (p.act 0) (lanes p.mask) s)
      (by decide +kernel)
    obtain ⟨v, rs, m, x⟩ := r
    rw [hp] at h
    have t := tryLanes_tries h
    cases x with
    | none => simp at e
    | some f =>
      simp only [Option.any_some, Bool.and_eq_true, Bool.not_eq_true'] at e
      cases hp
      exact ⟨_, _, _, _, f, rfl, by unfold memReady memReady.vectors; decide +kernel, by decide, t, e.1.1, e.1.2, e.2⟩

/-- Nothing stands in the L1. -/
theorem modeFree_none {s : State} {ppa : Nat} {hc : Bool} (h : (s.core s.coreKey).l1At s.pid (ppa / 64) = none) :
    ModeFree s ppa hc := by
  intro x hx; rw [h] at hx; cases hx

/-- HC, poisoned and not; SC with the line in L1 and without; stores under HC, NC and SC. The last byte of a line. -/
theorem witness_GlobalAccess :
    let hc := cached flat []
    let bad : State := { hc with poison := [(64, true)] }
    let sc : Translation := { flat with coh := 1 }
    let nc : Translation := { flat with coh := 2 }
    let line := List.replicate 64 (0xA5 : Byte)
    let full := cached sc [.sc 0 64 line 0 0 true]
    (Reaches hc Kind.load 4 0x103C flat 0x103C ∧ hc.versioned flat 0x103C = false ∧ InLine 0x103C 4 ∧ flat.coh ≠ 1 ∧ CleanCopies hc 0x103C ∧
      ModeFree hc 0x103C true ∧ hc.anyPoison hc.pid 0x103C 4 = false ∧ L1Room hc 0x103C) ∧
    (Reaches bad Kind.load 4 0x1000 flat 0x1000 ∧ bad.versioned flat 0x1000 = false ∧ CleanCopies bad 0x1000 ∧ ModeFree bad 0x1000 true ∧
      bad.anyPoison bad.pid 0x1000 4 = true) ∧
    (Reaches full Kind.load 4 0x103C sc 0x103C ∧ full.versioned sc 0x103C = false ∧ CleanCopies full 0x103C ∧
      (full.core full.coreKey).l1At full.pid (0x103C / 64) = some (.sc full.pid (0x103C / 64) line 0 0 true)) ∧
    (Reaches (cached sc []) Kind.load 8 0x1038 sc 0x1038 ∧ CleanCopies (cached sc []) 0x1038 ∧
      ((cached sc []).core (cached sc []).coreKey).l1At (cached sc []).pid (0x1038 / 64) = none ∧
      (cached sc []).poisoned (cached sc []).pid 0x1038 = false ∧
      ((cached sc []).core (cached sc []).coreKey).l1.length < (cached sc []).l1Lines (cached sc []).coreKey) ∧
    (Reaches (cached nc []) Kind.store 8 0x1038 nc 0x1038 ∧ ModeFree (cached nc []) 0x1038 true ∧ InLine 0x1038 8) ∧
    (Reaches (cached sc []) Kind.store 4 0x103C sc 0x103C ∧ ModeFree (cached sc []) 0x103C false ∧ L1Room (cached sc []) 0x103C) := by
  refine ⟨⟨memIs_eq ?_, ?_, ?_, ?_, ?_, modeFree_none ?_, ?_, ?_⟩, ⟨memIs_eq ?_, ?_, ?_, modeFree_none ?_, ?_⟩,
    ⟨memIs_eq ?_, ?_, ?_, ?_⟩, ⟨memIs_eq ?_, ?_, ?_, ?_, ?_⟩, ⟨memIs_eq ?_, modeFree_none ?_, ?_⟩, memIs_eq ?_, modeFree_none ?_, ?_⟩ <;>
  first
    | decide +kernel
    | (unfold L1Room; decide +kernel)
    | (unfold CleanCopies; decide +kernel)
    | (unfold InLine; decide +kernel)

/-- The block of the placed group. -/
def ownBlock : Block := Block.start placedGroup.info 0

/-- `base` with its block changed. -/
def blk (f : Block → Block) : State := { base with blocks := [f ownBlock] }

/-- The last word of the window, the last lane of the last register, and each tag operation on a word with its tag empty
and full. -/
theorem witness_LocalAccess :
    ((0xFFFC : W32).toNat = 65532 ∧ 65532 + 4 ≤ base.cur.info.localKib * 1024 ∧ 65532 % 4 = 0 ∧
      PlainWindow base base.cur.info.key.blk 65532 ownBlock ∧ ownBlock.poisonedAt 65532 4 = false) ∧
    ((0x80003FFC : W32).toNat = 2 ^ 31 + 0x4000 * 0 + 128 * 127 + 4 * 31 + 0 ∧ base.cur.info.harv = false ∧
      0 < base.cur.info.groups ∧ 127 < base.cur.info.nregs ∧ 0 = base.cur.info.key.grp) ∧
    (base.regPoisoned 0 127 31 = false ∧ (grp fun g => { g with regPoison := [(4095, true)] }).regPoisoned 0 127 31 = true) ∧
    (mget false ownBlock.tags (65532 / 4) = false ∧ ownBlock.waitQ = [] ∧ base.queued 31 = false) ∧
    (let s := blk fun b => { b with tags := [(16383, true)] }
     PlainWindow s s.cur.info.key.blk 65532 { ownBlock with tags := [(16383, true)] } ∧ s.queued 31 = false) := by
  unfold PlainWindow; decide +kernel

/-- A local and a global `ldu` and `stu`, and an `atomu`. -/
theorem witness_UniformMemory :
    let l := reg 2 0xFFFFFFFF00000010
    (Quiet l ∧ typeBits l.ty ≠ 4 ∧ isLocal (l.uread 1 2)) ∧
    (∃ u ws hit, l.localLoadAt 4 ((l.uread 1 2).setWidth 32) (fun v => [ResWrite.uni 7 (extendOf l.ty 4 v)]) = .ok u ws hit) ∧
    (∃ u ws hit, l.localStoreAt 4 ((l.uread 1 2).setWidth 32) 5 = .ok u ws hit) ∧
    ¬ isLocal ((reg 2 0x1000).uread 1 2) ∧
    (∃ u ws hit, (reg 2 0x1000).countLoad.loadAt (reg 2 0x1000).l1Held 4 (slotOf 0 0) 0x1000 (fun v => [ResWrite.uni 7 (extendOf 2 4 v)]) = .ok u ws hit) ∧
    (∃ u ws hit, (reg 2 0x1000).storeAt 4 (slotOf 0 0) 0x1000 5 none = .ok u ws hit) ∧
    atomuShape (.atomuCas 62 2 0) = some (.cas, 62, 2) ∧ atomTypes .cas base.ty ∧
    ∃ old ver v, siteOf true .cas 4 true l.storeSince 0 (l.uread 1 2) l (fun x => if x = 0 then some 5 else none) = .ok old ver v := by
  exact ⟨by unfold Quiet; decide +kernel, served_ex (by decide +kernel), served_ex (by decide +kernel), by decide +kernel,
    served_ex (by decide +kernel), served_ex (by decide +kernel), rfl, by unfold atomTypes; decide +kernel,
    rmwOk_ex (by decide +kernel)⟩

/-- Every translation serves as it stands. -/
theorem translates_same {n : Nat} {a : Nat → W64} {s : State} (ls : List Nat)
    (h : ∀ l ∈ ls, ∃ t p, s.reach Kind.atomic n (a l) = .mem t p s) : Translates n a ls s s := by
  induction ls with
  | nil => exact .nil s
  | cons l ls ih =>
    obtain ⟨t, p, e⟩ := h l (by simp)
    exact .mem e (ih fun k hk => h k (by simp [hk]))

/-- All 32 lanes add at one address of global memory, and two lanes exchange at the last word of the window. -/
theorem witness_Atomics :
    (let s : State := { cached flat [] with cur := { base.cur with sregs := [(3, 0x1000)] } }
     let c : AtomCtx := ⟨.add, s.ty, s.operands.ovt, false, 32⟩
     atomShape (.redAdd 6 2 3 2) = some (.add, false, 6, 2, 3, 2) ∧ Quiet s ∧ atomTypes .add s.ty ∧ (2 : BitVec 7).toNat < s.cur.info.nregs ∧
     (6 : BitVec 7).toNat + operandRegs s .add ≤ s.cur.info.nregs ∧ s.frag.done = 0 ∧ ¬ isLocal (s.uread 1 3) ∧
     Translates 4 (fun l => eaOf s 2 3 0 l) (lanes s.active) s s ∧
     ∃ v xs, EveryAddress c (fun l => (s.laneVal 6 l false, 0)) (siteOf false .add 4 false)
       (addresses (lanes s.active) fun l => eaOf s 2 3 0 l) s v xs) ∧
    (let s : State := { base with cur := { base.cur with sregs := [(3, 0xFFFFFFFF0000FFFC)], f0 := { base.cur.f0 with mask := 3 } } }
     let c : AtomCtx := ⟨.exch, s.ty, s.operands.ovt, false, 32⟩
     atomShape (.atomExch 6 2 3 0) = some (.exch, true, 6, 2, 3, 0) ∧ isLocal (s.uread 1 3) ∧
     ∃ v xs, EveryAddress c (fun l => (s.laneVal 6 l false, 0)) (siteOf true .exch 4 true) [(0xFFFC, [0, 1])] s v xs) := by
  constructor
  · intro s c
    refine ⟨rfl, by unfold Quiet; decide +kernel, by unfold atomTypes; decide +kernel, by decide +kernel, by decide +kernel, rfl,
      by decide +kernel, translates_same _ fun l hl => ⟨flat, 0x1000, memIs_eq ?_⟩, ?_⟩
    · revert l hl; decide +kernel
    · rw [show addresses (lanes s.active) (fun l => eaOf s 2 3 0 l) = [(0x1000, List.range 32)] by decide +kernel]
      obtain ⟨old, ver, v, h⟩ := rmwOk_ex (r := siteOf false .add 4 false s.storeSince 0 0x1000 s fun x =>
        some (c.combine x (((List.range 32).map fun l => (s.laneVal 6 l false)).foldl c.combine c.identity))) (by decide +kernel)
      exact ⟨v, _, .cons (.together (by decide) h) (.nil v)⟩
  · intro s c
    refine ⟨rfl, by decide +kernel, ?_⟩
    obtain ⟨o1, v1, u, h1⟩ := rmwOk_ex (r := siteOf true .exch 4 true s.storeSince 0 0xFFFC s fun _ => some (s.laneVal 6 0 false)) (by decide +kernel)
    have h2 : rmwOk (match siteOf true .exch 4 true s.storeSince 0 0xFFFC s fun _ => some (s.laneVal 6 0 false) with
      | .ok _ _ u => siteOf true .exch 4 true s.storeSince 0 0xFFFC u fun _ => some (s.laneVal 6 1 false)
      | r => r) = true := by decide +kernel
    rw [h1] at h2
    obtain ⟨o2, v2, v, h3⟩ := rmwOk_ex h2
    exact ⟨v, _, .cons (.next (.inl rfl) h1 (.next (.inl rfl) h3 (.none (.inl rfl)))) (.nil v)⟩

/-- The last words of the window and of a line; a line that the own core holds under SC. -/
theorem witness_AtomicArithmetic :
    let sc : Translation := { flat with coh := 1 }
    let own := cached sc [.sc 0 64 (List.replicate 64 0) 0xFF 0 true]
    (let c : AtomCtx := ⟨.min, 3, 0, false, 64⟩
     atomTypes c.op c.ty ∧ c.w = typeBits c.ty ∧ 2 ^ 64 - 1 < 2 ^ c.w ∧ c.op ≠ .exch) ∧ (0xFFF8 : W32).toNat = 65528 ∧ 65528 + 8 ≤ base.cur.info.localKib * 1024 ∧
    PlainWindow base base.cur.info.key.blk 65528 ownBlock ∧ ownBlock.poisonedAt 65528 8 = false ∧
    base.versioned flat 0x1038 = false ∧ InLine 0x1038 8 ∧ ModeFree base 0x1038 true ∧ CleanCopies base 0x1038 ∧
    base.anyPoison base.pid 0x1038 8 = false ∧
    (own.versioned sc 0x1038 = false ∧ CleanCopies own 0x1038 ∧ own.anyPoison own.pid 0x1038 8 = false ∧
      (own.part own.pid).lost (64 * (0x1038 / 64)) = false ∧
      (own.core own.coreKey).l1At own.pid (0x1038 / 64) = some (.sc own.pid 64 (List.replicate 64 0) 0xFF sc.key true) ∧
      own.memHold own.pid (64 * (0x1038 / 64)) 0 true = .none) := by
  refine ⟨⟨?_, ?_, ?_, ?_⟩, ?_, ?_, ?_, ?_, ?_, ?_, modeFree_none ?_, ?_, ?_, ?_, ?_, ?_, ?_, ?_, ?_⟩ <;>
  first
    | decide +kernel
    | (unfold CleanCopies; decide +kernel)
    | (unfold atomTypes; decide +kernel)
    | (unfold PlainWindow; decide +kernel)
    | (unfold InLine; decide +kernel)

/-- The line is in L1 under SC; a map entry at the window's end, with and without a subscription; a mapped entry. -/
theorem witness_CachesAndStash :
    let sc : Translation := { flat with coh := 1 }
    let s : State := { cached sc [.sc 0 64 (List.replicate 64 0) 0xFF 0 true] with cur := { base.cur with sregs := [(4, 0x1000), (5, 64)] } }
    let m : State := { base with cur := { base.cur with sregs := [(4, 0xF000), (5, 0x2000), (6, 0x10700001000)] } }
    let e : Block := { ownBlock with smap := [(7, ⟨0xF000, 0x2000, 0x1000, true⟩)] }
    let n : State := { blk (fun _ => e) with cur := { base.cur with sregs := [(6, 7)] } }
    (Quiet s ∧ (1 : BitVec 7).toNat < s.cur.info.nregs ∧ (s.uread 1 5).toNat = 64 ∧ (s.uread 0 4).toNat % 4096 = 0 ∧
      (∃ t, s.translate s.coreKey (s.ask Kind.load) (s.uread 0 4) = .ok t 0x1000 s) ∧
      (s.core s.coreKey).l1At s.pid (0x1000 / 64) = some (.sc s.pid 64 (List.replicate 64 0) 0xFF 0 true) ∧
      (s.part s.pid).lost 0x1000 = false ∧ s.chain s.pid 0x1000 = .none ∧ s.memHold s.pid 0x1000 0 true = .none) ∧
    base.uread 1 5 = 0 ∧ 2 ^ 30 < ((reg 5 0x40000001).uread 1 5).toNat ∧
    (Quiet m ∧ m.block? m.cur.info.key.blk = some ownBlock ∧ ownBlock.key = m.cur.info.key.blk ∧ (m.uread 0 4).toNat = 0xF000 ∧
      m.uread 1 5 = 0x2000 ∧ (m.uread 2 6).toNat = 0x1000 + 7 * 2 ^ 32 + 2 ^ 40 ∧ 0xF000 + 0x1000 ≤ ownBlock.localKib * 1024 ∧
      oget ownBlock.smap 7 = none ∧ ownBlock.harv = false ∧ ownBlock.subscribed 0xF000 0x1000 = false ∧ NoneHeldIn ownBlock 0xF000 0x1000) ∧
    (Quiet n ∧ n.block? n.cur.info.key.blk = some e ∧ (n.uread 2 6).toNat = 7 ∧ oget e.smap 7 = some ⟨0xF000, 0x2000, 0x1000, true⟩ ∧
      e.stash = [] ∧ NoneHeldIn e 0xF000 0x1000 ∧ oget ownBlock.smap 7 = none) := by
  refine ⟨⟨?_, ?_, ?_, ?_, ⟨{ flat with coh := 1 }, ?_⟩, ?_, ?_, ?_⟩, ?_, ?_, ?_, ?_⟩
  case refine_5 => rfl
  all_goals first
    | decide +kernel
    | (unfold Quiet; decide +kernel)
    | (unfold Quiet NoneHeldIn; decide +kernel)

/-- The partition of the placed group changed. -/
def prt (f : Partition → Partition) : State := { base with parts := [f (base.part 0)] }

/-- Slice 0 changed. -/
def slc (f : Slice → Slice) : State := { base with slices := upsert (·.id = 0) (f (base.slice 0)) base.slices }

theorem witness_Transactions :
    let own := base.part 0
    let full := { own with issued := 5000, snaps := (List.range 1024).map fun i => (i + 1, 1) }
    let wrote := { own with chains := [(64, { Chain.none with unc := some ⟨1, base.cur.info.key, 0, 0x1000, List.replicate 64 0, false⟩ })] }
    let moved := { wrote with buckets := (List.range 1024).map fun b => (b, 0x100) }
    let held : State := { prt (fun p => { p with snaps := [(3, 2), (7, 1)] }) with cur := { base.cur with snap := some 7 } }
    (Quiet base ∧ base.part? base.pid = some own ∧ base.cur.snap = none ∧ SeqReady own ∧ ¬ TableFull own own.vclock) ∧
    (SeqReady full ∧ TableFull full full.vclock ∧ (prt fun _ => full).part? base.pid = some full) ∧
    (held.cur.snap = some 7 ∧ (held.part 0).snaps = [(3, 2)] ++ (7, 1) :: []) ∧
    two.other.st ≠ .free ∧ base.other.st = .free ∧ base.cur.tx.opened = false ∧ inTx.cur.tx.opened = true ∧ inTx.other.st = .free ∧
    (SeqReady wrote ∧ wrote.issued < 2 ^ 64 - 1 ∧ ∃ e ∈ wrote.chains, ∃ u, e.2.unc = some u ∧ u.tx = inTx.cur.tx.id) ∧
    (∀ e ∈ own.chains, ∀ u, e.2.unc = some u → u.tx ≠ inTx.cur.tx.id) ∧
    (∀ e ∈ wrote.chains, ∀ u, e.2.unc = some u → u.tx = inTx.cur.tx.id → (prt fun _ => wrote).redirty e.1 ≠ none) ∧
    (mget Chain.none moved.chains 64).unc.isSome = true ∧ ((prt fun _ => moved).redirty 64).isNone = true := by
  refine ⟨?_, ?_, ?_, ?_, ?_, ?_, ?_, ?_, ⟨?_, ?_, ?_⟩, ?_, ?_, ?_, ?_⟩
  case refine_11 => exact ⟨_, List.mem_singleton.2 rfl, _, rfl, rfl⟩
  case refine_12 =>
    rw [show (base.part 0).chains = [] by decide +kernel]
    intro e h; cases h
  case refine_13 =>
    intro e h u _ _
    rw [List.mem_singleton.1 h]
    decide +kernel
  all_goals first
    | decide +kernel
    | (unfold Quiet SeqReady TableFull; decide +kernel)
    | (unfold SeqReady TableFull; decide +kernel)
    | (unfold SeqReady; decide +kernel)

/-! ### Hypotheses that are met: coordination, matrix and devices -/

/-- The block of the placed group, and the second block of a gang of two on the next core. -/
def peerKey : BlockKey := { base.cur.info.key.blk with blk := 1 }
def peerBlock : Block := { ownBlock with key := peerKey, core := 1, rank := 1 }

/-- A gang of two. -/
def gang : State := { base with cur := { base.cur with info := { base.cur.info with gangSize := 2 } }, blocks := [ownBlock, peerBlock] }

/-- A subscription of 64 bytes at 0, active and at rest. -/
def sub (peer : BlockKey) (h : Nat) : SubEntry where
  soff := 0
  poff := 0
  len := 64
  overwrite := false
  st := .active
  peer := peer
  peerHandle := h
  opened := none
  unsent := []
  recv := []
  pending := []
  closed := 0
  applied := 0
  appliedN := 0
  dropped := 0
  held := false
  wordsDone := 0
  marked := false
  faulted := false
  closing := false
  desc := 0

/-- A batch of word 1. -/
def batch : Batch := ⟨0, 0xF0, [(4, 0xAA), (5, 0xBB)]⟩

/-- The own block subscribes at the peer, with `f` done to its entry and `h` to the peer's. -/
def subscribed (f h : SubEntry → SubEntry) : State :=
  { gang with blocks := [{ ownBlock with inb := [(15, f (sub peerKey 2))] }, { peerBlock with outb := [(2, h (sub ownBlock.key 15))] }] }

/-- The own block publishes to the peer. -/
def publishes (f h : SubEntry → SubEntry) : State :=
  { gang with blocks := [{ ownBlock with outb := [(2, f (sub peerKey 15))] }, { peerBlock with inb := [(15, h (sub ownBlock.key 2))] }] }

/-- A descriptor that fails the checks, one that passes with room, with an exited publisher, and one that overlaps; `unsub` of
an entry at rest and of one with a batch; `subflush` with and without an update under way. -/
theorem witness_Subscriptions :
    let d : BitVec 128 := 64 <<< 48 ||| 1 <<< 80
    let s : State := { gang with mem := putBytes base.mem 0x1000 (bytesOf 16 d), cur := { gang.cur with sregs := [(4, 0x1000)] } }
    let gone : State := { s with blocks := [ownBlock, { peerBlock with exited := true }] }
    let laps : State := { s with blocks := [{ ownBlock with inb := [(0, sub peerKey 0)] }, peerBlock] }
    let q := fun (bs : List Byte × State) (p : Block) =>
      bs.2.subHold (valOfBytes 128 bs.1) = .none ∧ bs.2.subCheck (valOfBytes 128 bs.1) = 0 ∧ bs.2.block? peerKey = some p ∧ bs.2.cur.info.publisher (valOfBytes 128 bs.1) = peerKey
    (Quiet base ∧ base.cur.info.harv = false ∧
      ∃ bs u, Delivers base 16 (base.uread 0 4) bs u ∧ decide (u.subCheck (valOfBytes 128 bs) ≠ 0) = true) ∧
    (s.cur.info.harv = false ∧ ∃ bs u, Delivers s 16 (s.uread 0 4) bs u ∧ decide (q (bs, u) peerBlock) = true) ∧
    (∃ bs u, Delivers gone 16 (gone.uread 0 4) bs u ∧ decide (q (bs, u) { peerBlock with exited := true }) = true) ∧
    (∃ bs u, Delivers laps 16 (laps.uread 0 4) bs u ∧ decide (q (bs, u) peerBlock) = true) ∧
    (let u : State := { subscribed id id with cur := { gang.cur with sregs := [(4, 15)] } }
     Quiet u ∧ u.frag.done = 0 ∧ (u.uread 0 4).toNat ≤ 15 ∧ peerKey ≠ u.cur.info.key.blk ∧
      u.block? u.cur.info.key.blk = some { ownBlock with inb := [(15, sub peerKey 2)] } ∧
      u.block? peerKey = some { peerBlock with outb := [(2, sub ownBlock.key 15)] } ∧ oget ownBlock.inb 15 = none) ∧
    ((sub peerKey 2).recv = [] ∧ ({ sub peerKey 2 with recv := [batch] } : SubEntry).recv ≠ []) ∧
    (let e := { sub peerKey 15 with closed := 1, recv := [batch] }
     let b := { ownBlock with outb := [(2, e)] }
     ((publishes (fun _ => e) id).closeAll ownBlock.key).block? ownBlock.key = some b ∧ oget b.outb 2 = some e ∧
       e.appliedN < e.closed ∧ e.st ≠ .orphaned) ∧
    (base.closeAll base.cur.info.key.blk).block? base.cur.info.key.blk = some ownBlock ∧ ownBlock.outb = [] := by
  refine ⟨⟨?_, ?_, delivers_ex ?_⟩, ⟨?_, delivers_ex ?_⟩, delivers_ex ?_, delivers_ex ?_, ?_, ?_, ?_, ?_⟩
  all_goals first
    | decide +kernel
    | (unfold Quiet; decide +kernel)

/-- A second group of the block, which has arrived at the barrier or not. -/
def second (arrived : Bool) : State := { base with groups := [{ base.cur with
  info := { base.cur.info with key := ⟨base.cur.info.key.blk, 1⟩ }, barArrived := arrived, gbarArrived := arrived
  f0 := { base.cur.f0 with st := if arrived then .waitBar else .ready } }] }

theorem witness_Barriers :
    two.frag.mask ≠ two.cur.live ∧ base.frag.mask = base.cur.live ∧ Counted base.cur ∧
    (∃ g ∈ (second false).groups, g.info.key.blk = base.cur.info.key.blk ∧ Counted g ∧ g.barArrived = false) ∧
    (∀ g ∈ (second true).groups, g.info.key.blk = base.cur.info.key.blk → Counted g → g.barArrived = true) ∧
    (∃ g ∈ (second true).groups, g.barArrived = true ∧ g.f0.st = .waitBar) ∧ (∀ b ∈ base.blocks, b.outb = []) ∧
    base.cur.departing = false ∧ base.cur.gbarLeft = none ∧ (grp fun g => { g with gbarLeft := some [] }).cur.gbarLeft = some [] ∧ (∃ g ∈ (second false).groups, g.info.gang = base.cur.info.gang ∧ Counted g ∧ g.gbarArrived = false) ∧
    (∀ g ∈ (second true).groups, Counted g → g.gbarArrived = true ∧ g.departing = false) := by
  unfold Counted; decide +kernel

/-- A counter in the last word of the window, its tag empty or full, and one in memory, before and after the target. -/
theorem witness_Counters :
    let l := reg 4 0xFFFFFFFF0000FFFC
    let f : State := { l with blocks := [{ ownBlock with tags := [(16383, true)] }] }
    let g : State := { cached flat [] with cur := { base.cur with sregs := [(4, 0x1000), (5, 1)] } }
    Quiet l ∧ ((reg 4 2).uread 0 4).toNat % 4 ≠ 0 ∧ (l.uread 0 4).toNat % 4 = 0 ∧ isLocal (l.uread 0 4) ∧
    (l.uread 0 4).toNat % 2 ^ 32 + 4 ≤ l.cur.info.localKib * 1024 ∧ PlainWindow l l.cur.info.key.blk 65532 ownBlock ∧
    ownBlock.poisonedAt 65532 4 = false ∧ ownBlock.waitQ = [] ∧ mget false ownBlock.tags (65532 / 4) = false ∧
    PlainWindow f f.cur.info.key.blk 65532 { ownBlock with tags := [(16383, true)] } ∧
    ¬ isLocal (g.uread 0 4) ∧ memIs (g.reach Kind.atomic 4 (g.uread 0 4)) flat 0x1000 g = true ∧ flat.ver = false ∧
    rmwOk (g.rmwMem flat 0x1000 4 (slotOf 0 0) 0x1000 false fun old => some ((old + 1) % 2 ^ 32)) = true ∧
    memIs (g.reach Kind.load 4 (g.uread 0 4)) flat 0x1000 g = true ∧ CleanCopies g 0x1000 ∧ g.anyPoison g.pid 0x1000 4 = false ∧
    2 ^ 31 ≤ (BitVec.ofNat 32 0 - (g.uread 1 5).setWidth 32).toNat := by
  unfold Quiet PlainWindow CleanCopies; decide +kernel

/-- The core of the placed group changed. -/
def cor (f : Machine.Core → Machine.Core) : State := { base with cores := [f (Core.reset ⟨0, 0⟩)] }

def bslot : BSlot := ⟨0, [], [], 1, 0, []⟩

def job : MmaJob where
  group := base.cur.info.key
  tile := 3
  slot := 7
  zero := true
  atype := 0
  mask := 1
  a := []
  scales := []
  hasScales := false
  poison := 0
  bslot := bslot

/-- An instruction that has issued and is not complete. -/
def captured (i : Instr) : Captured := ⟨⟨i, false, false, 1⟩, 0x8002, 0x45, [], 0, [], [], [], [], 0, 0, 0, [], 0⟩

/-- Slots that are free, held by the context and by another, a mill load under way, a tile that is free. -/
theorem witness_Matrix :
    let t := cor fun c => { c with tslots := [(7, ⟨List.replicate 16 0x3C00, 1, 0⟩)] }
    let m := cor fun c => { c with mill := some ⟨base.cur.info.key, false, 7, bslot, 0⟩ }
    let b := cor fun c => { c with bslots := [(7, bslot)] }
    let o := cor fun c => { c with bslots := [(7, { bslot with ctx := 2 })] }
    let j := cor fun c => { c with mmaQ := [job] }
    Quiet base ∧ base.cur.info.harv = false ∧ (∃ bs u, Delivers base 32 (base.uread 0 4) bs u ∧ true = true) ∧
    t.tableSlot 7 = some (List.replicate 16 0x3C00) ∧ base.tableSlot 7 = none ∧ (127 : BitVec 7).toNat < base.cur.info.nregs ∧
    (m.core m.coreKey).mill.isSome = true ∧ (base.core base.coreKey).mill = none ∧ m.loading 7 = true ∧ m.loading 6 = false ∧
    oget (b.core b.coreKey).bslots 7 = some bslot ∧ bslot.ctx = b.cur.info.ctx ∧ bslot.part = b.pid ∧
    oget (o.core o.coreKey).bslots 7 = some { bslot with ctx := 2 } ∧ (2 : Nat) ≠ o.cur.info.ctx ∧ b.loading 7 = false ∧
    m.group? base.cur.info.key = some base.cur ∧ (⟨base.cur.info.key, false, 7, bslot, 0⟩ : MillLoad).waits base.cur = false ∧
    (⟨base.cur.info.key, false, 7, bslot, 0⟩ : MillLoad).waits { base.cur with
      f0 := { base.cur.f0 with st := .waitMem, hold := .mill, cap := some (captured (.bload 7 0 0 0 0)) } } = true ∧ (3 : BitVec 2).toNat < base.cur.info.acc ∧ base.tileBusy 3 = false ∧
    matFloat 0 = matFloat bslot.btype ∧ b.mmaRanges [(0, mmaBytes (mmaK (matWidth 0) (matWidth 0)) (matWidth 0), 128)] = none ∧
    ((b.core b.coreKey).mmaQ.filter (·.slot = 7)).length < 2 ∧ 64 < 61 + 2 ^ (2 : BitVec 2).toNat ∧ 60 + 2 ^ (2 : BitVec 2).toNat ≤ 64 ∧
    124 + 2 ^ (2 : BitVec 2).toNat ≤ base.cur.info.nregs ∧ accTypes 0x1F = false ∧ accTypes (mode 8).ty = true ∧
    base.active &&& mget 0 base.cur.accPoison 3 &&& ~~~base.frag.done = 0 ∧
    (grp fun g => { g with accPoison := [(3, 1)] }).active &&& mget 0 [(3, (1 : Mask))] 3 ≠ 0 ∧
    (j.core j.args.coreKey).mmaQ = [] ++ job :: [] ∧ job.slot = ({ StepArgs.zero with n := 7 } : StepArgs).n := by
  refine ⟨by unfold Quiet; decide +kernel, by decide +kernel, delivers_ex (q := fun _ _ => true) (by decide +kernel), ?_⟩
  decide +kernel

/-- A second group of the core, whose instruction has issued and waits. -/
def heldBack (i : Instr) : State := { base with groups := [{ base.cur with
  info := { base.cur.info with key := ⟨base.cur.info.key.blk, 1⟩ }
  f0 := { base.cur.f0 with st := .waitMem, hold := .claim, cap := some (captured i) } }] }

/-- Slots that instructions which issued earlier read or write, and a page of tiles. -/
theorem witness_Matrix_order :
    (heldBack (.tblld 7 0)).tabling 7 = true ∧ (heldBack (.tblld 7 0)).tabling 6 = false ∧
    (heldBack (.bload 7 0 0 0 0)).slotInUse 7 = true ∧ (heldBack (.bload 7 0 0 0 0)).loading 7 = true ∧
    (heldBack (.mma 0 7 0 0 0)).slotInUse 7 = true ∧ (heldBack (.mma 0 7 0 0 0)).loading 7 = false ∧ base.slotInUse 7 = false ∧
    (∃ t ppa u, base.millPage 0x1000 = .ok t ppa u ∧ (tileType t.fmt ≠ some 3 ∧ t.fmt ≠ 0x10)) ∧
    (∃ t ppa u, (cached { flat with fmt := 9 } []).millPage 0x1000 = .ok t ppa u ∧ tileType t.fmt = some 3) ∧
    (∃ t ppa u, (cached { flat with fmt := 0x10 } []).millPage 0x1000 = .ok t ppa u ∧ t.fmt = 0x10) ∧
    ∀ k : NatMap Byte → State → Res, base.scaleRead 0 384 k = k [] base := by
  refine ⟨by decide +kernel, by decide +kernel, by decide +kernel, by decide +kernel, by decide +kernel, by decide +kernel,
    by decide +kernel, millOk_ex (by decide +kernel), millOk_ex (by decide +kernel), millOk_ex (by decide +kernel), fun _ => rfl⟩

theorem witness_Observation :
    Quiet base ∧ base.counterAllowed 5 = true ∧ base.counterAllowed 0x40 = false ∧
    ((base.slice base.cur.info.slice).traces base.cur = false) := by
  unfold Quiet; decide +kernel

/-- A counter's waiter, and a tagged access that waits. -/
def waits : State := { base with
  cur := { base.cur with f0 := { base.cur.f0 with st := .waitTag, hold := .counter 0xFFFFFFFF0000FFFC 1 } } }

/-- Queue 0 of the placed group's partition: enabled, ring of 16 slots at 0x4000, context 1. -/
def ringEntry : BitVec 512 := 1 ||| 4 <<< 1 ||| 1 <<< 12 ||| 0x4000 <<< 64
def ringQueue : Queue := { Queue.reset with en := true, entry := ringEntry }
def ringPart : Partition := { base.part 0 with qtbase := 1 ||| 0x3000, queues := [(0, ringQueue)] }
def ring : State := prt fun _ => ringPart

/-- A copy record that fails the checks, and one that passes, with room and with 16 before it; a launch with the queue not
enabled, with the ring full, and one that stores its packet; a wait for a counter that times out. -/
theorem witness_Launches :
    let copy : BitVec 512 := 1 ||| 0xFFFF <<< 32 ||| 1 <<< 192 ||| 1 <<< 224
    let c : State := { bytes 0x2000 copy with cur := { base.cur with sregs := [(4, 0x2000)] } }
    let busy : State := { c with cores := [{ Core.reset ⟨0, 0⟩ with
      engQ := List.replicate 16 ⟨copy, base.cur.info.key, 1, false, none, ⟨0, 0⟩⟩ }] }
    (Quiet base ∧ ∃ bs u, Delivers base 64 (base.uread 0 4) bs u ∧ !copyOk (valOfBytes 512 bs) = true) ∧
    (∃ bs u, Delivers c 64 (c.uread 0 4) bs u ∧
      (copyOk (valOfBytes 512 bs) && decide ((u.core u.coreKey).engQ.length < 16)) = true) ∧
    (∃ bs u, Delivers busy 64 (busy.uread 0 4) bs u ∧
      (copyOk (valOfBytes 512 bs) && decide (16 ≤ (u.core u.coreKey).engQ.length)) = true) ∧
    (base.cur.info.harv = false ∧ (grp fun g => { g with info := { g.info with harv := true } }).cur.info.harv = true ∧
      base.part? base.pid = some (base.part 0) ∧ ((base.part 0).queue 0).en = false) ∧
    (∃ bs u, Delivers ring 64 0x1000 bs u ∧ decide (u.part? u.pid = some ringPart) = true) ∧
    ((ringPart.queue 0).en = true ∧ fld ringEntry 23 12 = ring.cur.info.ctx ∧ 0 ≤ fld ringPart.qtbase 57 48) ∧
    (∃ v, ring.ringPages 0x4000 1 = .ok v ∧ (v.readMem v.pid 0 (ringPart.rsvAddr 0) 8 64 - 0).toNat < 16 ∧
      v.memHold v.pid (ringPart.rsvAddr 0) ringPart.qtbase true = .none ∧
      ∃ tr w0, v.translateNow (v.ask Kind.store) 0x4000 = .ok tr 0x4000 w0 ∧ (v.part v.pid).space 0x4000 = .mem ∧
        v.memHold v.pid 0x4000 0x4000 true = .none ∧ ∃ y, (v.part v.pid).launchRef 0 0 v.cur.reader.rts = some y) ∧
    (let busy : State := { ring with slices := upsert (·.id = 0) { base.slice 0 with claims := [(⟨0, 1⟩, 0, 0x100)] } base.slices }
     busy.launchHold (ringPart.rsvAddr 0) 0x4000 = .claim ∧ ring.launchHold (ringPart.rsvAddr 0) 0x4000 = .none) ∧
    (let full : State := { ring with mem := putBytes base.mem 0x3018 (bytesOf 8 (16 : W64)) }
     ∃ v, full.ringPages 0x4000 1 = .ok v ∧ 16 ≤ (v.readMem v.pid 0 (ringPart.rsvAddr 0) 8 64 - 0).toNat) ∧
    (waits.group? waits.args.group = some waits.cur ∧ (waits.cur.frag waits.args.frag).hold = .counter 0xFFFFFFFF0000FFFC 1 ∧
      isLocal 0xFFFFFFFF0000FFFC ∧ PlainWindow waits.resumeAt waits.cur.info.key.blk 65532 ownBlock ∧
      ownBlock.poisonedAt 65532 4 = false ∧ mget false ownBlock.tags (65532 / 4) = false) ∧
    (let f : State := { waits with blocks := [{ ownBlock with tags := [(16383, true)], win := [(65532, 1)] }] }
     PlainWindow f.resumeAt f.cur.info.key.blk 65532 { ownBlock with tags := [(16383, true)], win := [(65532, 1)] }) ∧
    waits.timeoutAddr waits.cur waits.args.frag = some 0xFFFFFFFF0000FFFC := by
  refine ⟨⟨by unfold Quiet; decide +kernel, delivers_ex (by decide +kernel)⟩, delivers_ex (by decide +kernel),
    delivers_ex (by decide +kernel), by decide +kernel, delivers_ex (by decide +kernel), by decide +kernel,
    ⟨_, rfl, by decide +kernel, by decide +kernel, _, _, rfl, by decide +kernel, by decide +kernel, _, rfl⟩,
    by decide +kernel, ⟨_, rfl, by decide +kernel⟩, ?_, ?_, by decide +kernel⟩ <;>
    unfold PlainWindow <;> decide +kernel

/-- A marker packet of lap 0, a grid packet of one block and its header at 0x5000. -/
def markerPacket : BitVec 512 := 3 <<< 16
def gridPacket : BitVec 512 := 1 <<< 16 ||| 0x5000 <<< 64 ||| 1 <<< 128 ||| 1 <<< 160 ||| 1 <<< 192 ||| (32 ||| 1 <<< 10 ||| 1 <<< 20) <<< 224
def gridHeader : BitVec 512 := 1 <<< 50 ||| 1 <<< 55

/-- A grid of one block. -/
def grid : Grid where
  handle := 0
  queue := 0
  ctx := 1
  packet := gridPacket
  header := gridHeader
  hback := 0
  prio := 0
  irq := false
  blocks := 1
  gangSize := 1
  nextGang := 0
  exited := 0
  snap := none
  allow := none
  stopping := none
  held := false
  killed := false
  ran := []
  since := 0

/-- `ring` with bytes of a slot or an entry in memory and a queue of its own. -/
def slot (q : Queue) (m h : BitVec 512) : State :=
  { prt fun _ => { ringPart with queues := [(0, q)] } with
    mem := putBytes (putBytes (putBytes base.mem 0x3000 (bytesOf 64 ringEntry)) 0x4000 (bytesOf 64 m)) 0x5000 (bytesOf 64 h) }

/-- Each end of an enable, of the read of a slot and of a dependency; a free marker; a grid whose blocks have exited. -/
theorem witness_DeviceQueues :
    let rq := { ringQueue with notify := 1 }
    let z := fun (s : State) (m : BitVec 512) (lap : Nat) (e : Bool) =>
      ∃ bs u, s.devRead (rq.ask 0 Kind.load) .plain (rq.ring + BitVec.ofNat 64 (64 * (rq.qrd.toNat % rq.size))) 64 = .ok bs false u ∧
        decide (u.part? 0 = some { ringPart with queues := [(0, rq)] } ∧ valOfBytes 512 bs = m ∧ fld m 15 0 = lap ∧
          (packetCheck m (fld rq.entry 6 5) = 0 ↔ e = true)) = true
    (base.part? base.args.part = some (base.part 0) ∧ (base.part 0).qtbase.getLsbD 0 = false) ∧
    (ringPart.qtbase.getLsbD 0 = true ∧ 0 ≤ fld ringPart.qtbase 57 48 ∧ ring.rangeState 0 0x3000 64 false = .ready ∧
      entryOk (valOfBytes 512 (ring.readRange 0 0x3000 64)) = false ∧
      (slot rq 0 0).rangeState 0 0x3000 64 false = .ready ∧ entryOk (valOfBytes 512 ((slot rq 0 0).readRange 0 0x3000 64)) = true ∧
      (prt fun p => { p with qtbase := 1 ||| 0x40000000 }).rangeState 0 0x40000000 64 false = .fails ∧
      (prt fun p => { p with qtbase := 1 ||| 0x3000, buckets := (List.range 1024).map fun b => (b, 0x100) }).rangeState 0 0x3000 64 false = .waits) ∧
    (rq.en = true ∧ rq.ready = none ∧ rq.qrd.toNat < rq.notify.toNat ∧ rq.wseq = false) ∧
    z (slot rq markerPacket 0) markerPacket 0 true ∧ z (slot rq (markerPacket ||| 1) 0) (markerPacket ||| 1) 1 true ∧
    z (slot rq (markerPacket ||| 5) 0) (markerPacket ||| 5) 5 true ∧ z (slot rq 0 0) 0 0 false ∧
    (Pk.type markerPacket = 3 ∧ Pk.type gridPacket = 1 ∧ fld markerPacket 511 448 = 0 ∧ z (slot rq gridPacket gridHeader) gridPacket 0 true ∧
      ∃ hb v, (slot rq gridPacket gridHeader).gvaRead (rq.ask 0 Kind.load) (gridPacket.extractLsb' 64 64) 64 = .ok hb false v ∧
        decide (v.part? 0 = some { ringPart with queues := [(0, rq)] } ∧ headerCheck gridPacket (valOfBytes 512 hb) = 0 ∧
          (valOfBytes 512 hb : BitVec 512).getLsbD 59 = false ∧ (valOfBytes 512 hb : BitVec 512).getLsbD 60 = false ∧
          gridPacket.getLsbD 23 = false ∧ v.allowWaits 0 (v.queueOf 0 0).ctx = false) = true) ∧
    (let d : BitVec 512 := markerPacket ||| 0x6000 <<< 448 ||| 1 <<< 416
     let dq := { rq with ready := some (d, 0, 0), wdep := true }
     ∃ bs u, (slot dq d 0).devRead (dq.ask 0 Kind.load) .plain (d.extractLsb' 448 64) 4 = .ok bs false u ∧
       decide (natOfBytes bs < fld d 447 416) = true) ∧
    (let free := fun (m : W64 × W32 × Bool × List Nat) => m.2.2.2.all fun g => ringPart.grids.all (·.handle ≠ g)
     [((0 : W64), (0 : W32), false, [9])].find? free = some (0, 0, false, [9])) ∧
    ([{ grid with exited := 1 }].find? (·.handle = base.args.grid) = some { grid with exited := 1 } ∧ grid.blocks ≤ ({ grid with exited := 1 } : Grid).exited ∧
      base.dirtyLines [] 0 = [] ∧ gridPacket.extractLsb' 320 64 = (0 : W64)) := by
  exact ⟨by decide +kernel, by decide +kernel, by decide +kernel, devOk_ex (by decide +kernel), devOk_ex (by decide +kernel),
    devOk_ex (by decide +kernel), devOk_ex (by decide +kernel), ⟨by decide +kernel, by decide +kernel, by decide +kernel, devOk_ex (by decide +kernel),
    devOk_ex (by decide +kernel)⟩, devOk_ex (by decide +kernel), by decide +kernel⟩

/-- A grid in the list of its priority; a claimer; another slice's turn; an event ring. -/
theorem witness_Placement :
    let s : State := { base with
      cur := Group.start .none .none, blocks := []
      parts := [{ base.part 0 with grids := [grid], lists := [(0, [.grid 0])], spool := 1 ||| 0x10 <<< 48 }] }
    (s.slice s.args.slice).owner = some 0 ∧ s.claimer 0 = some s.args.slice ∧ (s.slice s.args.slice).power = 0 ∧
    s.candidate 0 s.args.slice = some (.grid 0) ∧ [grid].find? (·.handle = 0) = some grid ∧ Pk.type grid.packet ≠ 2 ∧
    s.fitNext 0 s.args.slice grid = some [0] ∧ base.claimer 0 ≠ some 0 := by
  decide +kernel

/-! ### Hypotheses that are met: the module, homes, versions and saves -/

/-- A command word and MARG0 for the MTC. -/
def mtcAt (s : State) (w m : W64) : State := { s with mtc := { s.mtc with marg0 := m }, args := { StepArgs.zero with w := w } }

/-- Partition 0 of slices 0 and 1; slice 1 homes bucket 5 alone. -/
def pair : Partition := { base.part 0 with mask := 3, buckets := [(5, 1)] }
def formed : State := { base with
  parts := [pair], slices := State.reset.slices.map fun y => if y.id < 2 then { y with shutter := 1, srdy := 63 } else y }

/-- The module after its boot, without a partition. -/
def booted : State := { State.reset with mtc := { State.reset.mtc with on := true, verified := true } }

/-- A MOVE of slice 1 to partition 1 at a step. -/
def moving (st : MtcStep) (b : Option Nat) : State :=
  { formed with mtc := { formed.mtc with run := some ⟨0x1103, 1, 1, 1, 0, 1, st, b, 0, 0⟩ } }

/-- Every end of FORM, TOPS, KEYS, ATTEST and MOVE, and every step of a MOVE. -/
theorem witness_Tenancy :
    let f := mtcAt booted 0x00030001 1
    let full : State := { booted with mtc := { booted.mtc with keyResv := [(5, (0, 4096))] } }
    (State.reset.mtc.on = false ∧ booted.mtc.on = true ∧ booted.mtc.verified = true ∧ formed.mtc.on = true ∧ formed.mtc.verified = true) ∧
    (base.cmdOk (1 <<< 48) = false ∧ f.cmdOk f.args.w = true ∧ topsOk 0 = false ∧ topsOk 1 = true) ∧
    (f.part? 0 = none ∧ (∀ y ∈ f.slices, (3#16).getLsbD y.id = true → y.shutter = 0 ∧ y.scrubbing = false) ∧ connected 3 = true ∧
      connected 5 = false ∧ f.keysFor 0 = some (0, 1) ∧ full.keysFor 0 = none ∧ (∀ i ∈ [0, 1], ∃ y ∈ f.slices, y.id = i) ∧
      (∀ i < 2, ((List.range 1024).countP (· % 2 = i)) * topH 1 ≤ 65536 ∧ ((List.range 1024).countP (· % 2 = i)) * topT 1 ≤ 131072) ∧
      65536 < ((List.range 1024).countP (· % 2 = 0)) * topH 1024) ∧
    (formed.part? 0 = some pair ∧ pair.capacity 1 0 = true ∧ formed.regionsBelow pair 1 = true ∧
      pair.capacity 1024 0 = false) ∧
    (4096 < 4096 + 1 ∧ booted.keyRanges 0 = [] ∧ full.keyRanges 0 = [(0, 4096)] ∧ 4095 + 1 ≤ 4096) ∧
    ((0 : Nat) + 0x4000 ≤ pair.htop.toNat * 2 ^ 30 ∧ pair.lost 0 = false ∧ formed.mtc.attest < 2 ^ 20 ∧
      formed.mtc.marg1 = 0 ∧ formed.rangeState 0 0 0x4000 true = .ready ∧
      ({ formed with parts := [{ pair with buckets := (List.range 1024).map fun b => (b, 0x100) }] } : State).rangeState 0 0 0x4000 true = .waits) ∧
    (formed.moveCheck 0x1103 ≠ MRes.ok ∧ ({ formed with mtc := { formed.mtc with marg0 := 1, marg1 := 1 } } : State).moveCheck 0x1103 = MRes.ok) ∧
    ((moving .drain none).mtc.run.isSome = true ∧ fld (0x1103 : W64) 7 0 = 3 ∧ (∀ h ∈ ((moving .drain none).slice 1).hcores, h.2.online = false) ∧
      pair.held 1 ≠ [] ∧ ((moving .scrub none).part? 1) = none ∧ (moving .drain none).poolWaits 1 = false ∧
      (∃ h ∈ (({ moving .drain none with slices := [{ Slice.reset 1 with hcores := [(0, { HostCore.reset with online := true })] }] } :
        State).slice 1).hcores, h.2.online = true) ∧
      formed.bucketBusy 0 1 = false ∧
      ({ formed with slices := [{ formed.slice 0 with claims := [(⟨0, 0⟩, 0, 64)] }] } : State).bucketBusy 0 (bucketOf 4096) = true ∧
      formed.rangeState 0 0 0x4000 true = .ready ∧
      ((moving .migrate (some 1)).mtc.run.map (·.bucket)) = some (some 1) ∧ fld (0x0002 : W64) 7 0 = 2) := by
  decide +kernel


/-- Device step arguments of `base` changed. -/
def arg (s : State) (f : StepArgs → StepArgs) : State := { s with args := f s.args }

/-- A flit that passes and one that is refused, a sealed slice, a loss that leaves the rest connected, a block's window word. -/
theorem witness_SliceErrors :
    let own := arg base fun a => { a with src := some 0 }
    ((own.slice 0).shutter ≠ 0 ∧ own.args.src = some (own.slice 0).part.toNat ∧ (own.slice 0).shutter = 1) ∧
    (base.args.priv = false ∧ base.args.src = none ∧ (base.slice 0).shutter ≠ 2) ∧ (State.reset.slice 0).shutter = 0 ∧
    (base.part? (base.slice 0).part.toNat = some (base.part 0) ∧ connected ((base.part 0).mask &&& ~~~(1#16)) = false) ∧
    (formed.part? (formed.slice 0).part.toNat = some pair ∧ connected (pair.mask &&& ~~~(1#16 <<< 1)) = true) ∧
    base.args.half = false ∧ base.block? base.args.block = some ownBlock ∧
    ((cached flat [.hc 0 64 .modified]).core base.args.coreKey).l1At base.args.part 64 ≠ none ∧
    (let pending := grp fun g => { g with pend := [⟨1, [.vec 3 0 5], 0, false, 0x40⟩] }
     pending.group? pending.args.group = some pending.cur ∧ (1 : Mask) &&& pending.cur.f0.mask ≠ 0 ∧ pending.cur.tx.opened = false ∧
       pending.cur.f0.st ≠ .free ∧ pending.cur.f0.cap = none ∧ pending.cur.f0.redo = none ∧ pending.cur.t0.phase = .none) ∧
    base.mtc.on = true ∧ base.mtc.verified = true ∧ base.regReady (.mtc true 1) = true ∧ base.regReady (.window 0 0 0x0100) = true := by
  decide +kernel

def cmd (op : W64) (ran : Bool) : QueuedCmd := ⟨op, 0, 0, 0x2008, ran⟩

/-- A command of every code at the head of the FIFO, one that has run and one that is bad; a walk that ends in a translation and one in
a fault. -/
theorem witness_InvalidationCommands :
    let q := fun (c : W64) (r : Bool) => prt fun p => { p with xinvQ := [cmd c r] }
    (((q 1 false).part 0).xinvQ = cmd 1 false :: [] ∧ (cmd 1 false).ran = false ∧ fld (cmd 7 false).op 3 0 = 7) ∧
    (fld (cmd 8 false).op 3 0 = 8 ∧ (cmd 8 false).badHarvest base 0 = false) ∧ (base.part 0).xinvQ = [] ∧
    base.xinvBad 0 (cmd 9 false) = true ∧ base.xinvBad 0 (cmd 7 true) = false ∧ fld (cmd 7 true).word 47 3 * 8 = 0x2008 ∧
    (base.part 0).inMemory 0x2008 8 = true ∧ (base.part 0).lost 0x2008 = false ∧ base.chain 0 0x2008 = .none ∧
    (match base.translate base.args.coreKey ⟨0, 1, 0, false⟩ base.args.gva with
      | .ok _ _ _ => true
      | _ => false) = true ∧
    (match base.translate base.args.coreKey ⟨0, 0, 0, false⟩ base.args.gva with
      | .flt _ _ _ => true
      | _ => false) = true := by
  decide +kernel

/-- A tracked line in the L1, a poisoned line, a slice's patrol, and maintenance commands over one SC line. -/
theorem witness_HomeAgent :
    let hc := cached flat [.hc 0 64 .modified]
    let sc : State := { cached flat [.sc 0 64 (List.replicate 64 0) 1 0 true] with
      parts := [{ base.part 0 with cmQ := [{ cmd 1 false with addr := 0x1000 }] }] }
    (base.args.req.ctl = none ∧ base.args.req.key = none ∧ base.badCopy 0 64 = false ∧ base.spoilt 5 (requester base.args.req) = false ∧
      ({ hc with cores := [{ Core.reset ⟨0, 0⟩ with l1 := [.hc 0 64 .modified], l1Bad := [(0, 64, 3)] }] } : State).badCopy 0 64 = true) ∧
    (base.hostKey base.args.req = some 0 ∧ (base.part 0).space 0x1000 = .mem ∧ (base.part 0).lost 0x1000 = false ∧
      base.memHold 0 0x1000 0 true = .none ∧ base.memHold 0 0x1000 0 false = .none ∧ base.anyPoison 0 0x1000 8 = false ∧
      base.chain 0 0x1000 = .none ∧ InLine 0x1038 8 ∧
      (slc fun y => { y with claims := [(⟨0, 0⟩, 0, 64)] }).claimed 0 0x1000 = true ∧
      (slc fun y => { y with claims := [(⟨0, 0⟩, 0, 64)] }).memHold 0 0x1000 0 false ≠ .none ∧
      ((prt fun p => { p with kcount := 0 }).part 0).kcount.toNat ≤ (base.hcore 0 0).hkeysel.toNat ∧
      ({ base with poison := [(64, true)] } : State).anyPoison 0 0x1000 8 = true) ∧
    ((hc.core hc.args.coreKey).l1At hc.args.part 64 = some (.hc hc.args.part 64 .modified)) ∧
    (sc.cmBad 0 { cmd 1 false with addr := 0x1000 } = false ∧ sc.cmBad 0 (cmd 3 false) = true ∧
      sc.linesIn 0 0x1000 4096 = [(⟨0, 0⟩, 64)] ∧ sc.memHold 0 0x1000 0 true = .none ∧ sc.chain 0 0x1000 = .none ∧ (sc.part 0).lost 0x1000 = false) ∧
    ((base.slice 0).mpatrol.getLsbD 0 = true ∧ (base.slice 0).shutter ≠ 0 ∧ (base.part 0).home base.args.ppa = 0) := by
  unfold InLine; decide +kernel

theorem witness_Versions :
    let p := { base.part 0 with issued := 2, committing := [2], vpbase := 1 }
    SeqReady (base.part 0) ∧ (base.part 0).issued < 2 ^ 64 - 1 ∧ ({ p with seqLost := true } : Partition).seqLost = true ∧
    (base.part 0).seqLost = false ∧ (base.part 0).lost 0 = false ∧ (base.part 0).transit 0 = false ∧
    ({ base.part 0 with buckets := [(0, 0x100)] } : Partition).transit 0 = true ∧ ({ base.part 0 with buckets := [(0, 0x100)] } : Partition).lost 0 = false ∧
    (base.cur.frag true).st = .free ∧ (base.cur.frag true).hold = .none ∧ 3 ∉ p.committing ∧ 2 ∈ p.committing ∧
    { p with vpRecords := [1] }.vpRecords ≠ [] ∧ p.vpRecords = [] ∧ (base.part 0).vpbase.getLsbD 0 = false ∧
    ((grp fun g => { g with f0 := { g.f0 with hold := .commit 1 3 5 } }).cur.frag false).hold = .commit 1 3 5 ∧
    ((grp fun g => { g with f0 := { g.f0 with hold := .bucket 0x1000 } }).cur.frag base.args.frag).hold = .bucket 0x1000 ∧
    base.group? base.args.group = some base.cur := by
  unfold SeqReady; decide +kernel

/-- A stash map entry whose line is to be filled. -/
def filling : State :=
  { cached { flat with stash := true } [] with
    cur := { base.cur with f0 := { base.cur.f0 with st := .waitMem, hold := .fill base.cur.info.key.blk 1 } }
    blocks := [{ ownBlock with smap := [(0, ⟨64, 0x2000, 64, true⟩)] }] }

/-- The own block with small stores. -/
def tiny : Block := { ownBlock with localKib := 1, rgran := 1, acc := 0 }

/-- Entries of a publisher and a subscriber in the states that each step asks for. -/
theorem witness_SubscriptionSteps :
    let at_ := fun (s : State) (k : BlockKey) (n : Nat) => arg s fun a => { a with part := k.part, grid := k.grid, blk := k.blk, n := n }
    let o := at_ (publishes (fun e => { e with opened := some batch }) id) ownBlock.key 2
    let i := at_ (subscribed (fun e => { e with recv := [batch] }) id) ownBlock.key 15
    let m := { sub ownBlock.key 15 with st := .memory, recv := [batch] }
    (∃ b, base.block? base.args.block = some b ∧ b.restoring = 0 ∧ (base.core ⟨b.slice, b.core⟩).revoking = [] ∧
      base.l1Fits ⟨b.slice, b.core⟩ = true) ∧
    (let s := grp fun g => { g with state := .placed }
     s.group? ⟨s.args.block, 0⟩ = some s.cur ∧ s.cur.state = .placed ∧ s.cur.f0.hold ≠ .lend ∧ s.cur.f1.hold ≠ .lend) ∧
    ((filling.cur.frag filling.args.frag).hold = .fill ownBlock.key 1 ∧
      (match filling.resumeAt.reach Kind.load 64 0x2000 with
        | .mem t p v => t.stash && t.fmt == 0 && decide (v.modeHold v.coreKey v.pid (p / 64) (v.homeMode t p) = .none) &&
          let w := (v.modeCheck v.coreKey v.pid (p / 64) (v.homeMode t p)).copiesFor v.pid p t.coh t.ver
          (w.homeRead w.pid t.key p 64 .plain).1.length == 64 && (w.block? ownBlock.key).any fun b => !b.harv
        | _ => false) = true) ∧
    (let l : State := cor fun c => { c with lend := [(0, ⟨ownBlock.key, 0, List.replicate 64 0, 1, 0, false, 0⟩)] }
     oget (l.core l.args.coreKey).lend 0 = some ⟨ownBlock.key, 0, List.replicate 64 0, 1, 0, false, 0⟩ ∧
      (match l.writeDirty ⟨0, ownBlock.ctx, Kind.store, false⟩ ownBlock.hback (List.replicate 64 0) 1 with
        | .ok _ _ _ => true
        | _ => false) = true) ∧
    (o.args.block = ownBlock.key ∧ o.block? ownBlock.key = some { ownBlock with outb := [(2, { sub peerKey 15 with opened := some batch })] } ∧
      peerKey ≠ ownBlock.key) ∧
    (i.block? i.args.block = some { ownBlock with inb := [(15, { sub peerKey 2 with recv := [batch] })] } ∧ batch.words.drop 0 = [1] ∧
      mget false ownBlock.tags 1 = false ∧ ownBlock.waitQ = [] ∧ batch.words.drop 1 = []) ∧
    (({ sub peerKey 2 with st := .switching } : SubEntry).st = .switching ∧ ({ sub peerKey 15 with marked := true } : SubEntry).marked = true ∧
      ({ ownBlock with image := some (0, 1) } : Block).image.isSome = true) ∧
    ((publishes id id).imageHold ownBlock.key true 2 = .none ∧ (publishes id id).imageHold peerKey false 15 = .none) ∧
    ({ m with recv := [] }.toImage = true ∧ ({ m with st := .switching } : SubEntry).toImage = true ∧ (publishes id id).listFull m = false) ∧
    (m.toImage = true ∧ m.recv = batch :: [] ∧ m.pending.length < 8 ∧
      ((prt fun p => { p with svpool := 1 ||| 0x10 <<< 48 }).imageReady { tiny with image := some (0, 1) } m 15 batch).1 = .ready ∧
      (base.imageReady { tiny with image := some (0x8000, 1) } m 15 batch).1 = .fails) ∧
    (({ ownBlock with restoring := 1 } : Block).restoring = 1 ∧ base.allReplied tiny = true ∧
      (base.rangeState 0 (base.imageBase { tiny with image := some (0, 1) } + tiny.windowOff) (tiny.imageSize - tiny.windowOff)
        false = .ready)) := by
  refine ⟨⟨ownBlock, ?_⟩, ?_⟩ <;> decide +kernel

/-- A fault of slot 0 that is raised, and one that is posted. -/
def faulted (p : FaultPhase) : State := grp fun g => { g with state := .faulted, t0 := { Trap.none with tcause := 4, phase := p } }

/-- An owner whose line 0 a dirty line of another grid's harvest block occupies, with every lend writeback buffer busy or none. -/
def lent (busy : Bool) : State :=
  let own : Block := { tiny with crit := true }
  let far : Block := { ownBlock with key := { ownBlock.key with grid := 5 }, harv := true, stash := [(0, ⟨1, some (own.key, 0), 0⟩)] }
  { base with
    blocks := [own, far]
    cores := [{ Core.reset ⟨0, 0⟩ with lend := if busy then (List.range 8).map fun i => (i, ⟨far.key, 9, [], 1, 0, false, 0⟩) else [] }] }

/-- The partition of the placed group holds a grid of the group's block. -/
def gridded (g : Grid) : State := prt fun p => { p with grids := [g] }

theorem witness_FaultCommands :
    let q : State := { faulted .raised with slices := upsert (·.id = 0) { base.slice 0 with fqbase := 1 ||| 4 <<< 1 ||| 0x3000 } base.slices }
    let h := agentHandle 0 0 0
    let behind : State := { base with later := [⟨.fcmdStop, base.args⟩], args := { base.args with n := 1 } }
    (base.fcmdHeld = false ∧ (base.fcmdQueued fun a => a.gva = base.args.gva) = false ∧ behind.fcmdHeld = true ∧
      (behind.fcmdQueued fun a => a.gva = behind.args.gva) = true) ∧
    ((lent true).killReady 0 0).2 = false ∧ ((lent false).killReady 0 0).2 = true ∧ ({ grid with stopping := some true } : Grid).stopping.isSome = true ∧
    q.fqReady 0 = true ∧ base.fqReady 0 = false ∧ (q.slice 0).faults = [] ∧ q.raisedOn 0 = some (q.cur.info.key, false) ∧
    q.chain 0 0x3000 = .none ∧ base.raisedOn 0 = none ∧ (faulted .posted).postedAt 0 h = some (base.cur.info.key, false) ∧
    base.postedAt 0 h = none ∧ (faulted .posted).group? base.cur.info.key = some (faulted .posted).cur ∧ base.liveGrid 0 = none ∧
    (gridded grid).liveGrid 0 = some grid ∧ (gridded grid).runningGangs 0 grid.handle = [0] ∧ grid.stopping = none ∧
    ({ gridded grid with blocks := [] } : State).runningGangs 0 grid.handle = [] ∧ base.args.gva ≠ BitVec.allOnes 64 ∧
    base.args.gva.toNat % 4 = 0 ∧ grid.held = false ∧ base.cur.stopReq = false ∧
    (let s := grp fun g => { g with stopReq := true }
     s.group? s.args.group = some s.cur ∧ s.cur.stopReq = true ∧ s.cur.watchdog = false ∧ s.cur.state ≠ .saved ∧ s.cur.slotAtRest false = false) := by
  decide +kernel

/-- A block at rest with room in the pool and without, a saved one whose windows are loaded, one whose groups have exited, a parked
harvest group. -/
theorem witness_SavesAndRestores :
    let pool := fun (n : W64) (s : State) => { s with parts := [{ base.part 0 with svpool := 1 ||| n <<< 48 }] }
    let rest : State := { pool 16 (grp fun g => { g with state := .stopping, stopReq := true, f0 := { g.f0 with halted := true } }) with
      blocks := [tiny] }
    let img : Block := { tiny with resident := false, restoring := 2, image := some (0, tiny.imageChunks) }
    let gone := grp fun g => { g with state := .exited, f0 := .none }
    let park := grp fun g => { g with state := .parked, info := { g.info with harv := true } }
    (rest.block? rest.args.block = some tiny ∧ rest.blockStopped tiny = true ∧ rest.matrixIdle tiny = true ∧
      rest.cur.tx.opened = false ∧ (rest.part 0).svpool.getLsbD 0 = true ∧
      freeRun [] (fld (rest.part 0).svpool 63 48) tiny.imageChunks = some 0 ∧ rest.saveReady tiny 0 = true ∧
      freeRun [] (fld ((pool 0 base).part 0).svpool 63 48) tiny.imageChunks = none) ∧
    (base.blockStopped tiny = false ∧ (base.part 0).chunks = []) ∧
    (let s := pool 16 (blk fun _ => img)
     s.block? s.args.block = some img ∧ (s.core ⟨0, 0⟩).revoking = [] ∧ (s.core ⟨0, 0⟩).l1 = [] ∧
      s.rangeState 0 (s.imageBase img) img.imageSize false = .ready ∧ s.imageIntact img = true ∧
      s.imageIntact { img with imageBytes := [(0, [1])] } = false ∧ s.l1Fits ⟨0, 0⟩ = true) ∧
    (gone.block? gone.args.block = some ownBlock ∧ ownBlock.exited = false ∧ gone.cur.state = .exited ∧ ownBlock.outb = [] ∧
      ownBlock.stash = [] ∧ gone.cores = []) ∧
    base.args.need = none ∧ park.canResume park.cur = true ∧ base.canResume base.cur = false ∧
    (let u := (park.setGroup { park.cur with info := { park.cur.info with slot := 0 }, state := park.cur.resumed, ctrs := [] }).trimL1 ⟨0, 0⟩
     u.l1Fits ⟨0, 0⟩ = true) := by
  decide +kernel

/-- A trace unit that is on, with a held frame, an open one, and outcomes; a group to sample; energy with and without a group. -/
theorem witness_TraceAndSamples :
    let on := slc fun y => { y with trctl := 0x10005, trbase := 6 ||| 0x3000 }
    let t : State := { on with cores := [{ Core.reset ⟨0, 0⟩ with trace := { TraceUnit.reset with
      held := [List.replicate 64 0], frame := [1, 2, 3], outcomes := List.replicate 15 true, lastStream := some 0, synced := [0] } }] }
    let lossy := { TraceUnit.reset with held := [List.replicate 64 0], loss := 3 }
    let timed := grp fun g => { g with storeTime := 7 }
    let u := (t.core ⟨0, 0⟩).trace
    (base.slice 0).trctl.getLsbD 0 = false ∧ (on.slice 0).trctl.getLsbD 0 = true ∧ (on.slice 0).trctl.getLsbD 16 = true ∧
    (u.held = List.replicate 64 0 :: [] ∧ ((t.slice 0).trhead - (t.slice 0).trtail).toNat ≠ 2 ^ trLog2 (t.slice 0).trbase ∧
      (t.slice 0).owner = some 0 ∧ t.rangeState 0 0x3000 64 true = .ready ∧ t.chain 0 0x3000 = .none ∧ u.loss = 0 ∧ lossy.loss ≠ 0 ∧ ([] : List (List Byte)).length ≤ 30) ∧
    ({ t with parts := [{ base.part 0 with buckets := (List.range 1024).map fun b => (b, 0x100) }] } : State).rangeState 0 0x3000 64 true = .waits ∧
    (u.outcomes.length = 15 ∧ u.lastStream = some u.outcomeStream ∧ u.timeBase = u.outcomeTime ∧ u.synced.contains u.outcomeStream = true ∧ RoomFor u (1 + (15 + 7) / 8)) ∧
    ((on.slice 0).trctl.getLsbD 2 = true ∧ t.tracedAt ⟨0, 0⟩ ((u.sampleNext + 0) % 48) = some t.cur ∧ t.cur.f1.busy = false ∧
      u.synced.contains (0 % 64) = true ∧ u.timeBase = t.cycle - (t.slice 0).openedAt ∧ RoomFor u 15 ∧
      base.tracedAt ⟨0, 0⟩ 0 = none) ∧
    (timed.cur.storeTime ≠ 0 ∧ (∀ g ∈ base.cur :: base.groups, g.coreKey = ⟨0, 0⟩ → g.storeTime = 0) ∧ timed.cur.coreKey = ⟨0, 0⟩ ∧
      (timed.cur :: timed.groups).filter (fun y => y.info.key = timed.cur.info.key) = [timed.cur] ∧ timed.cur.state ≠ .exited ∧
      timed.cur.state ≠ .none ∧ timed.cur.killed = false) := by
  unfold RoomFor; decide +kernel

/-- Before and after power-on; a slice that idles and one that wakes; every clock step. -/
theorem witness_BringUpAndPower :
    let idle : State := { prt (fun p => { p with ltol := 1000 }) with cur := Group.start .none .none }
    State.reset.mtc.on = false ∧ ({ State.reset with mtc := { State.reset.mtc with on := true } } : State).mtc.verified = false ∧
    (arg base fun a => { a with ready := .part 0 3 }).part? 0 = some (base.part 0) ∧
    ((idle.slice 0).shutter ≠ 0 ∧ (idle.slice 0).power.toNat < 1 ∧ 1000 ≤ fld (idle.part 0).ltol 31 0 ∧ (idle.slice 0).waking = false ∧
      idle.idleSlice 0 = true ∧ base.idleSlice 0 = false ∧ base.mtc.on = true ∧ State.reset.mtc.on = false) ∧
    (let deeper : State := { idle with parts := [{ base.part 0 with ltol := 150000 }], slices := upsert (·.id = 0) { base.slice 0 with power := 1 } base.slices }
     (deeper.slice 0).power.toNat < 3 ∧ 150000 ≤ fld (deeper.part 0).ltol 31 0 ∧ (deeper.slice 0).waking = false ∧ deeper.idleSlice 0 = true) ∧
    ((slc fun y => { y with power := 2, waking := true }).slice 0).waking = true ∧ (base.slice 0).waking = false ∧
    (1900 : Nat) = min 1900 (1900 + 100) ∧ min 1900 (1800 + 100) ≠ 1800 ∧ base.slices.filter (fun y => y.shutter ≠ 0) = [base.slice 0] ∧
    base.slice (base.slice 0).id = base.slice 0 ∧ (∀ x ∈ base.parts, ∀ r ∈ x.flReqs, r.op ≠ 2) := by
  decide +kernel

/-- The peer 0: node 7, context 1, reads and writes allowed. -/
def peerWord : BitVec 512 := 1 ||| 1 <<< 8 ||| 3 <<< 20 ||| 7 <<< 32

/-- A PUT of 8 bytes at 0x2000. -/
def put : Packet := sealed {
  ver := 1
  op := 1
  poison := false
  reserved := 0
  dpeer := 0
  snode := 7
  psn := 1
  msn := 1
  raddr := 0x2000
  len := 8
  redop := 0
  rtype := 3
  ackpsn := 0
  payload := [1, 2, 3, 4, 5, 6, 7, 8]
  crc := 0 }

/-- The datagram that brings it from the port 9 of the peer. -/
def carried (k : Packet) : Frame :=
  let f : Frame := ⟨0, 0x999, 0x86DD, 17, 9, 0, 1, 1, 0, k⟩
  { f with sum := frameChecksum f }

/-- The packet reaches slice 0, whose link is up, for partition 0 with networking on and one peer. -/
def onPort (k : Packet) : State :=
  { slc (fun y => { y with mac := 1 <<< 48, portstat := 1 }) with
    parts := [{ base.part 0 with netcfg := 1 ||| 1 <<< 40, peertb := 0x3000 ||| 1 <<< 48 }]
    mem := putBytes base.mem 0x3000 (bytesOf 64 peerWord), args := { StepArgs.zero with frame := carried k } }

/-- Packets of the peer of every operation, as the next of its link. -/
def sent (op : BitVec 4) (f : Packet → Packet) : Packet := sealed { f { put with op := op, msn := if op.toNat < 6 then 1 else 0 } with crc := 0 }

/-- A message of the link that an engine waits for. -/
def asker : SentMsg := ⟨1, 1, ⟨0, 0⟩, 0⟩

/-- A packet at a port that is sealed, down, asleep, and live, and frames for others; each operation in turn, in memory, at the
host and where it is refused; a message that waited for its turn; SKIP in order and ahead; NAK, ACK, and a message built again. -/
theorem witness_PortPackets :
    let s := onPort put
    let e := peerWord
    let x := s.part 0
    let ask : Ask := ⟨0, fld e 19 8, 5, false⟩
    let link := fun (s : State) (f : Link → Link) => s.onLink 0 0 (linkNo s) f
    let kept : SentPacket := ⟨put, 1, ⟨0, 0⟩, 0, none⟩
    let broken : SentPacket := ⟨{ put with crc := 0 }, 1, ⟨0, 0⟩, 0, none⟩
    (packetNeeds .netPut = some (1, some 21) ∧ s.args.half = false ∧ (State.reset.slice 0).shutter = 0 ∧ (base.slice 0).shutter ≠ 0 ∧
      (base.slice 0).mac.getLsbD 48 = false ∧ s.addressed 0 0 s.args.frame = true ∧
      s.addressed 0 0 { s.args.frame with dip := 5 } = false ∧ put.crc = packetSum put ∧ ¬ (put.crc + 1 = packetSum put) ∧
      packetFormed (sent 1 fun k => { k with len := 9 }) = false) ∧
    (Arrives s 0 x ∧ (asked s 0).peerEntry 0 0 = some e ∧ (asked s 0).peerWaits 0 0 = false ∧ fld e 55 32 = put.snode.toNat ∧
      (asked base 0).peerEntry 0 0 = none ∧
      ({ s with parts := [{ s.part 0 with buckets := (List.range 1024).map fun b => (b, 0x100) }] } : State).peerWaits 0 0 = true) ∧
    (InTurn s 0 ∧ e.getLsbD 21 = true ∧ e.getLsbD 20 = true ∧ put.payload ≠ [] ∧ InTurn (onPort (sent 2 id)) 0 ∧
      InTurn (onPort (sent 4 id)) 0 ∧ InTurn (onPort (sent 5 id)) 0) ∧
    (match (received s 0 e).translateNow ask put.raddr with
      | .ok tr ppa u => (u.part 0).space ppa = .mem && decide (ppa % 64 + 8 ≤ 64) && !(u.part 0).lost ppa &&
          u.memHold 0 ppa put.raddr true = .none && !tr.ver && u.chain 0 ppa = .none && !u.anyPoison 0 ppa 8 &&
          match (u.recallHc none 0 (ppa / 64)).translateNow ask put.raddr with
          | .ok tr' ppa' z => decide (tr' = tr ∧ ppa' = ppa ∧ (z.part 0).space ppa = .mem ∧ (z.part 0).lost ppa = false ∧
              z.memHold 0 ppa put.raddr true = .none ∧ z.chain 0 ppa = .none ∧ (u.recallHc none 0 (ppa / 64)).chain 0 ppa = .none ∧
              (u.recallHc none 0 (ppa / 64)).anyPoison 0 ppa 8 = false)
          | _ => false
      | _ => false) = true ∧
    (match (received s 0 e).translateNow ask (1 <<< 60) with
      | .flt _ _ _ => true
      | _ => false) = true ∧
    (match (received s 0 e).translateNow ask (1 <<< 50) with
      | .ok _ ppa u => (u.part 0).space ppa = .host && !(u.part 0).hostLinked
      | _ => true) = true ∧
    (redOf (sent 4 id) = some (⟨.add, 3, 0, false, 64⟩, 8) ∧ (sent 4 id).payload.length = 8 ∧ redOf (sent 4 fun k => { k with rtype := 8 }) = none) ∧
    (linkOf s s 0).window.length < 256 ∧
    (∃ bs u, (received (onPort (sent 2 id)) 0 e).netRead (arrival (onPort (sent 2 id)) 0 e) 8 = .ok bs u ∧ true = true) ∧
    (put.psn = (linkOf s s 0).rxPsn + 1 ∧ (linkOf s s 0).rxSet = [] ∧ (sent 8 fun k => { k with psn := 2 }).psn = (linkOf s s 0).rxPsn + 2) ∧
    (let g := link (onPort (sent 3 id)) fun l => { l with msgs := [asker] }
     (linkOf g g 0).msgs.find? (·.msn = asker.msn) = some asker ∧ (linkOf s s 0).msgs.find? (·.msn = asker.msn) = none) ∧
    (seqLe 0 (linkOf s s 0).aPeer = true ∧ seqLe put.msn (linkOf s s 0).aPeer = false ∧ (linkOf s s 0).redo = []) ∧
    (let r := link (onPort (sent 6 id)) fun l => { l with redo := [kept] }
     (linkOf r r 0).redo = [kept] ∧ (linkOf r (admitted r 0) 0).window.length < 256 ∧
      ∃ bs u, (admitted r 0).rebuild 0 0 (linkNo r) kept = .ok bs u ∧ true = true) ∧
    (let n := link (onPort (sent 7 fun k => { k with redop := 1 })) fun l => { l with window := [broken] }
     (linkOf n (admitted n 0) 0).window = [broken] ∧ seqLe (0 + 1) broken.packet.psn = true ∧ broken.sends < 16 ∧ broken.packet.op ≠ 8 ∧
      broken.packet.crc ≠ packetSum broken.packet ∧ (linkOf n n 0).redo = []) ∧
    (let h := arg (s.onLink 0 0 0 fun l => { l with heldMsgs := [put] }) fun a => { a with half := true }
     let l := h.link 0 0 h.args.line
     (l.heldMsgs.find? fun k => k.msn = l.applied + 1 + BitVec.ofNat 32 l.performed.length && k.op = 1) = some put ∧
      ((h.readPeer 0 0).slice 0).power = 0 ∧ (h.readPeer 0 0).peerWaits 0 0 = false ∧ (h.readPeer 0 0).peerEntry 0 0 = some e ∧
      (match (h.readPeer 0 0).translateNow ask put.raddr with
        | .ok tr ppa u => (u.part 0).space ppa = .mem && !(u.part 0).lost ppa && !tr.ver && decide (u.memHold 0 ppa put.raddr true = .none) &&
            decide (u.chain 0 ppa = .none)
        | _ => false) = true) ∧
    (let w : Link := { Link.reset with window := [kept], performed := [1] }
     w.window = kept :: [] ∧ w.performed ≠ [] ∧ Link.reset.window = [] ∧ Link.reset.redo = []) := by
  refine ⟨by decide +kernel, ?_, ?_, by decide +kernel, by decide +kernel, by decide +kernel, by decide +kernel, by decide +kernel,
    engOk_ex (q := fun _ _ => true) (by decide +kernel), ?_, ?_, ?_, ⟨?_, ?_, engOk_ex (q := fun _ _ => true) (by decide +kernel)⟩, ?_, ?_, ?_⟩
  · unfold Arrives; decide +kernel
  · unfold InTurn linkOf; decide +kernel
  all_goals first
    | decide +kernel
    | (unfold linkOf; decide +kernel)

/-- A copy of one row of 8 bytes from 0 to 0x2000 in one element. -/
def copyReq : CopyReq := ⟨1 ||| 3 <<< 4 ||| 0xFFFF <<< 32 ||| 0x2000 <<< 128 ||| 1 <<< 192 ||| 1 <<< 224, base.cur.info.key, 1, false, none, ⟨0, 0⟩⟩

def running (todo claims : List (Nat × Nat)) : State := cor fun c => { c with
  eng := some ⟨copyReq, 0, todo, claims, [], 0, false, false, 0, 0, [], 0⟩ }

/-- An engine without a request, one that takes a segment, claims a line, releases it, and is done; a checkpoint. -/
theorem witness_EnginesAndCheckpoints :
    let d : BitVec 512 := 1 <<< 16 ||| 15 <<< 20 ||| 1 <<< 32
    let ck : Checkpoint := ⟨d, [(0, 0), (0, 0)], [0], 0, 0, 0, [], [], false, 0, 0, [], []⟩
    let own : Checkpoint := { ck with desc := 1 ||| 1 <<< 16 ||| 1 <<< 32, total := 1 }
    let n : State := { onPort put with mem := putBytes (onPort put).mem 0x4000 (bytesOf 64 d), args := { StepArgs.zero with w := 0x4000 } }
    ((base.core base.args.coreKey).eng = none ∧ (base.core base.args.coreKey).engQ = []) ∧
    (((cor fun c => { c with engQ := [copyReq] }).core ⟨0, 0⟩).engQ = copyReq :: [] ∧ copyOk copyReq.record = true ∧ copyReq.op = 1 ∧
      copyReq.sends = false ∧ ¬ isLocal copyReq.dst ∧ copyReq.peer = 0xFFFF) ∧
    (∃ w u, (running [] []).engWidth copyReq = .ok w u ∧ engOk (fun _ u1 => engOk (fun ok _ => ok) (u1.fmtTest copyReq w
      ((copyReq.destLines w).take 4096))) (u.lineAddrs copyReq ((copyReq.destLines w).take 4096)) = true) ∧
    ((base.part 0).space 0x2000 = .mem ∧ (base.part 0).lost 0x2000 = false ∧ base.memHold 0 0x2000 0 true = .none ∧
      base.setFull 0 128 = false) ∧
    (∃ w u, (running [] [(128, 128)]).engWidth copyReq = .ok w u ∧
      (match u.engXlate copyReq 5 0x2000 with
        | .ok tr ppa v => (v.part 0).space ppa = .mem && decide (ppa % 64 = 0) && !(v.part 0).lost ppa && !tr.ver && decide (v.chain 0 ppa = .none)
        | _ => false) &&
      engOk (fun _ _ => true) (u.engLine ⟨copyReq, 1, [], [(128, 128)], [], 0, false, false, 0, 0, [], 0⟩ w 128) = true) ∧
    ((running [] []).engDone ⟨copyReq, 1, [], [], [], 0, false, false, 0, 0, [], 0⟩ = true ∧ copyReq.caddr = 0 ∧
      (running [] []).engDone ⟨copyReq, 0, [], [], [], 0, false, false, 0, 0, [], 0⟩ = false) ∧
    (let m : CopyReq := { copyReq with record := setFld copyReq.record 47 32 0 }
     let o : State := { onPort put with cores := [{ Core.reset ⟨0, 0⟩ with eng := some ⟨m, 0, [], [], [], 0, false, false, 0, 0, [], 0⟩ }] }
     m.peer = 0 ∧ m.messages ≠ [] ∧ (o.part 0).netOn = true ∧ (base.part 0).netOn = false ∧ o.peerWaits 0 0 = false ∧
      o.peerEntry 0 0 = some peerWord ∧ portOf (o.part 0) peerWord 0 = 0 ∧ (o.link 0 0 (entryLink 0 peerWord)).window.length < 256 ∧
      ((o.link 0 0 (entryLink 0 peerWord)).msn + 1 - (o.link 0 0 (entryLink 0 peerWord)).aPeer).toNat ≤ 4096 ∧
      copyLaunch m.record = none ∧ engOk (fun _ u => (u.part? 0).isSome && (u.part 0).netOn && (u.slice 0).mac.getLsbD 48 && (u.slice 0).portstat.getLsbD 0)
        (o.engBytes m (m.srcRow 0) 8) = true) ∧
    (n.part? 0 = some (n.part 0) ∧ (n.part 0).ckpt = none ∧ (base.part 0).ckWait = false ∧ n.rangeState 0 0x4000 64 false = .ready ∧
      valOfBytes 512 (n.readRange 0 0x4000 64) = d ∧ ckptHeadOk d = true ∧ ckptHeadOk 0 = false ∧
      n.rangeState 0 0x4040 272 false = .ready ∧ n.peerWaits 0 0 = false ∧ n.memberOk 0 false 0 = true ∧ (n.part 0).seqLost = false ∧ (n.part 0).transit 0 = false ∧
      ¬ TableFull (n.part 0) (n.part 0).vclock) ∧
    (ck.stripes = 0 ∧ n.memberQuiet 0 1 = true ∧ n.memberRoom 0 ck 0 1 = true ∧ n.ckptRoom 0 ck = true ∧ ({ ck with total := 1 } : Checkpoint).stripes = 1 ∧
      ck.over = false ∧ ck.region = none ∧ own.over = false ∧ own.region = some 0 ∧ own.stripes * own.pieces = 1 ∧
      engOk (fun _ _ => true) (n.ckptLines 0 own 4096 64) = true ∧ n.ckptRoom 0 own = true ∧
      (n.ckptEnd 0 ck 0).2 = true ∧ (∀ j < ck.g, j = 1 ∨ j ∈ [0])) := by
  refine ⟨by decide +kernel, by decide +kernel, engOk_ex (by decide +kernel), by decide +kernel, engOk_ex (by decide +kernel),
    by decide +kernel, ?_⟩
  unfold TableFull; decide +kernel

/-- The host window off, on and with copies out; a request of the host; flash requests of every kind. The clauses that ask for
the partition of the host link hold states for whichever partition it is. -/
theorem witness_HostAndFlash :
    let hw := { base.part 0 with hdmwin := 1 ||| 1 <<< 40, flring := 1 ||| 4 <<< 1 ||| 0x3000, fldb := 1 }
    let s := prt fun _ => hw
    let r := fun (e : BitVec 512) => (⟨0, e⟩ : FlashReq)
    (base.part? base.args.part = some (base.part 0) ∧ (base.part 0).hdmwin.getLsbD 0 = false ∧ hw.hdmwin.getLsbD 0 = true) ∧
    (hw.exposed 0x1000 = true ∧ hw.space 0x1000 = .mem ∧ hw.lost 0x1000 = false ∧ s.homeHold 0 0x1000 0 = .none ∧
      s.claimed 0 0x1000 = false ∧ s.chain 0 0x1000 = .none ∧ s.poisoned 0 0x1000 = false ∧ s.badCopy 0 64 = false ∧ s.spoilt 7 ⟨0, 0⟩ = false ∧
      s.snooped 0 64 = none ∧ (s.slice 0).snoop.length < 65536) ∧
    (hw.prdy.getLsbD 0 = true ∧ hw.prdy.getLsbD 1 = true ∧ ({ hw with prdy := 0 } : Partition).prdy.getLsbD 1 = false ∧
      ({ s with spoiled := [(7, ⟨0, 0⟩)] } : State).spoilt 7 ⟨0, 0⟩ = true ∧
      (let full := List.replicate 65536 ((0, 65, true) : Nat × Nat × Bool)
       65536 ≤ full.length ∧ full.find? (fun e => e.1 = 0 && e.2.1 = 64) = none)) ∧
    (slc fun y => { y with snoop := [(0, 64, true)] }).snooped 0 64 = some (0, 64, true) ∧
    (hw.flReady = true ∧ s.rangeState 0 (hw.flAddr 0) 64 false = .ready ∧ (base.part 0).flring.getLsbD 0 = false) ∧
    (({ hw with flReqs := [r 1] } : Partition).flReqs[0]? = some (r 1) ∧ s.rangeState 0 (hw.flAddr 0 + 1) 1 true = .ready ∧
      s.chain 0 (hw.flAddr 0 + 1) = .none ∧ fld (0 : BitVec 512) 3 0 = 0 ∧ fld (3 : BitVec 512) 3 0 = 3) := by
  decide +kernel

/-- The turn is the issue of one pipeline. -/
def isIssue (a b c : Nat) : Option Turn → Bool
  | some (.issue x y z) => x == a && y == b && z == c
  | _ => false

theorem isIssue_eq {a b c : Nat} {t : Option Turn} (h : isIssue a b c t = true) : t = some (.issue a b c) := by
  unfold isIssue at h
  split at h <;> simp_all

/-- A word at the PC of the one fragment that can issue; an event on the agenda. -/
theorem witness_StepRunsDecoded :
    let s := State.reset.withFetchWord 32 0x10080010
    let c : Cand := ⟨s.cur.info.key, false, 0, false, false, 0⟩
    let v := (s.countWaits 0 0 0 c).focus c.key
    (match s.fetch 3 0x40 with
      | .word w _ => w = 0x10080010
      | _ => false) = true ∧ decode 0x10080010 0 = .ok ⟨.add 4 0 2, false, false, 1⟩ ∧ s.agenda = [] ∧ s.arbiterDue = none ∧
    s.nextTurn = some (.issue 0 0 0) ∧ pickCand (s.cands 0 0 0) = some c ∧ v.cur.tx.aborting = none ∧
    (match State.fetchInstr { v with issue := ⟨false, false, false, 1, 0x40, .nop⟩ } 0x40 with
      | .instr d u => decide (d = ⟨.add 4 0 2, false, false, 1⟩) && u.issue.slot == c.slot && !u.cur.stopReq && !u.macroFull d.instr &&
          (List.range 4).all (fun n => !(mget 0 (u.part u.pid).dbctl n).getLsbD 0) && !u.frag.lead
      | _ => false) = true ∧
    (cor fun c => { c with mmaQ := [job, job] }).macroFull (.mma 0 7 0 0 0) = true ∧
    State.reset.agenda = ⟨.powerOn, { StepArgs.zero with ok := true }⟩ :: [] := by
  exact ⟨by decide +kernel, by decide +kernel, by decide +kernel, by decide +kernel, isIssue_eq (by decide +kernel),
    by decide +kernel, by decide +kernel, by decide +kernel, by decide +kernel, rfl⟩

/-- A fragment whose instruction was held. -/
theorem witness_StepRunsDecoded_held :
    let p := State.reset.withFetchWord 32 0x10080010
    let s : State := { p with cur := { p.cur with f0 := { p.cur.f0 with cap := some (captured (.add 4 0 2)) } } }
    let c : Cand := ⟨s.cur.info.key, false, 0, false, false, 0⟩
    let v := (s.countWaits 0 0 0 c).focus c.key
    s.agenda = [] ∧ s.arbiterDue = none ∧ s.nextTurn = some (.issue 0 0 0) ∧ pickCand (s.cands 0 0 0) = some c ∧
    v.cur.tx.aborting = none ∧ (v.cur.frag c.slot).cap = some (captured (.add 4 0 2)) := by
  exact ⟨by decide +kernel, by decide +kernel, isIssue_eq (by decide +kernel), by decide +kernel, by decide +kernel, by decide +kernel⟩

/-- A step after which a fragment still waits for an update of its block. -/
theorem witness_WaitsEnd :
    let p := publishes (fun e => { e with closed := 1, recv := [batch] }) id
    let s : State := { p with cur := { p.cur with f0 := { p.cur.f0 with st := .waitTag, hold := .flush [⟨ownBlock.key, 2, 1⟩] } } }
    (match step s with
      | .next t => t.cur.f0.hold = .flush [⟨ownBlock.key, 2, 1⟩]
      | _ => false) = true := by
  decide +kernel

/-- A two-word instruction with its markers, and bytes behind it. -/
theorem witness_DecodeEncode :
    (Instr.setm 0 9 5).wf = true ∧ (encode true false (.setm 0 9 5)).isSome = true ∧
    decode 0x01000240 5 = .ok ⟨.setm 0 9 5, false, false, 2⟩ := by decide +kernel

end Sys2Proof.Tests
end

section
/-! PROOFS. What an instruction that completes in sequence leaves alone, once its vector or uniform results are written. -/

namespace Sys2Proof.Proofs

open Sys2Proof.Machine Sys2Proof.Safety Sys2Proof.Laws

/-! ### Frames -/

/-- Completing in sequence after updates that keep both fragment records: nothing outside the group in focus, no byte of
memory, and of the fragments only the progress of the issuing one. -/
theorem advance_frame {s u : State} (h : OnlyFocus s u) (hmem : u.mem = s.mem) (hf0 : u.cur.f0 = s.cur.f0)
    (hf1 : u.cur.f1 = s.cur.f1) :
    OnlyFocus s u.advance ∧ MemKept s u.advance ∧ FragStep s.frag (u.advance.cur.frag s.issue.slot) ∧
      u.advance.cur.frag (!s.issue.slot) = s.other := by
  obtain ⟨hfocus, -, hfrag, hother⟩ := advance_spec u
  have hissue : u.issue = s.issue := by rw [h]
  have hslot : ∀ b, u.cur.frag b = s.cur.frag b := fun b => by simp only [Group.frag, hf0, hf1]
  simp only [State.frag, State.other, hissue, hslot] at hfrag hother
  refine ⟨?_, fun a => by simp only [State.rawByte, advance_mem, hmem], hfrag, hother⟩
  unfold OnlyFocus at *
  rw [hfocus, h]

theorem vector_frame {s u : State} (h : OnlyLanes s u) :
    OnlyFocus s u.advance ∧ OnlyFlow s (backVector s u.advance) ∧ MemKept s u.advance := by
  unfold OnlyLanes at h
  obtain ⟨hfocus, hmem, hfrag, hother⟩ := advance_frame (s := s) (u := u) (by unfold OnlyFocus; rw [h])
    (by rw [h]) (by rw [h]) (by rw [h])
  refine ⟨hfocus, ⟨?_, hfrag, hother⟩, hmem⟩
  simp only [backVector]
  rw [(advance_spec u).2.1, h]

/-- A state reached by writing uniform registers and flags differs in these and in outstanding results alone. -/
def OnlyUniform (s t : State) : Prop :=
  t = { s with cur := { s.cur with sregs := t.cur.sregs, flags := t.cur.flags, pend := t.cur.pend } }

theorem uniform_frame {s u : State} (h : OnlyUniform s u) :
    OnlyFocus s u.advance ∧ OnlyFlow s (backUniform s u.advance) ∧ MemKept s u.advance := by
  unfold OnlyUniform at h
  obtain ⟨hfocus, hmem, hfrag, hother⟩ := advance_frame (s := s) (u := u) (by unfold OnlyFocus; rw [h])
    (by rw [h]) (by rw [h]) (by rw [h])
  refine ⟨hfocus, ⟨?_, hfrag, hother⟩, hmem⟩
  simp only [backUniform]
  rw [(advance_spec u).2.1, h]

/-! ### Lanes and codes written -/

@[simp] theorem putLane_cc (s : State) (wide : Bool) (d : BitVec 7) (l v : Nat) : (s.putLane wide d l v).cur.cc = s.cur.cc := by
  cases wide <;> rfl

theorem putLanes_cc (s : State) (m : Mask) (wide : Bool) (d : BitVec 7) (f : Nat → Nat × Codes) :
    (s.putLanes m wide d false f).cur.cc = s.cur.cc :=
  forLanes_keeps (fun t : State => t.cur.cc = s.cur.cc) m _ (fun l t ht => (putLane_cc t wide d l _).trans ht) s rfl

@[simp] theorem putCodes_vregs (s : State) (m : Mask) (f : Nat → Codes) : (s.putCodes m f).cur.vregs = s.cur.vregs := by
  unfold State.putCodes
  exact forLanes_keeps (fun t : State => t.cur.vregs = s.cur.vregs) m _
    (fun l t ht => by simp [State.ccwrite, State.onCur, ht]) s rfl

theorem mem_regs (wide : Bool) (d : BitVec 7) (n : Nat) : n ∈ regs wide d ↔ n = d.toNat ∨ wide = true ∧ n = d.toNat + 1 := by
  cases wide <;> simp [regs]

/-- What stands after a vector result is written and the instruction completes. -/
theorem vecOnly_putLanes (s : State) (m : Mask) (wide : Bool) (d : BitVec 7) (codes : Bool) (f : Nat → Nat × Codes) :
    VecOnly s (s.putLanes m wide d codes f).advance (regs wide d) m codes := by
  obtain ⟨hfocus, hflow, hmem⟩ := vector_frame (onlyLanes_putLanes s m wide d codes f)
  refine ⟨hfocus, hflow, fun n l hn hl => ?_, hmem, fun n l hl hm => ?_, fun l hm => ?_, ?_⟩
  · simp only [mem_regs, not_or] at hn
    simp [vget_putLanes _ _ _ _ _ _ _ _ hl, hn]
  · simp [vget_putLanes _ _ _ _ _ _ _ _ hl, hm]
  · simp [ccget_putLanes, hm]
  · rintro rfl
    rw [advance_cur_cc, putLanes_cc]

/-- What stands after codes alone are written. -/
theorem vecOnly_putCodes (s : State) (m : Mask) (f : Nat → Codes) : VecOnly s (s.putCodes m f).advance [] m true := by
  obtain ⟨hfocus, hflow, hmem⟩ := vector_frame (onlyLanes_putCodes s m f)
  have hvec : ∀ n l, (s.putCodes m f).advance.cur.vget n l = s.cur.vget n l := fun n l => by simp [Group.vget]
  exact ⟨hfocus, hflow, fun n l _ _ => hvec n l, hmem, fun n l _ _ => hvec n l,
    fun l hm => by simp [ccget_putCodes, hm], nofun⟩

/-- The value of a lane or pair that was written, where it fits. -/
theorem laneVal_written (s : State) (m : Mask) (wide : Bool) (d : BitVec 7) (codes : Bool) (f : Nat → Nat × Codes) (l : Nat)
    (hm : m.getLsbD l = true) (hv : (f l).1 < 2 ^ (if wide then 64 else 32)) :
    laneVal (s.putLanes m wide d codes f).advance.cur wide d l = (f l).1 := by
  rw [laneVal_advance, laneVal_putLanes _ _ _ _ _ _ _ (getLsbD_lt m l hm) hm, Nat.mod_eq_of_lt hv]

/-! ### Checks -/

/-- The instruction completes with `u` when its checks pass. -/
theorem guardAll_out {s u : State} {n : Named} {tyOk : Bool} (hq : Quiet s) (ht : tyOk = true) (hw : InWindow s n.vs)
    (he : EvenRegs n.evens) : (s.guardAll n tyOk (.ok u)).out = .next u := by
  rw [guardAll_ok s n tyOk _ hq ht hw he, out_ok]

theorem evenRegs_ite {c : Bool} {rs : List Nat} (h : c = true → EvenRegs rs) : EvenRegs (if c then rs else []) := by
  cases c with
  | false => exact nofun
  | true => exact h rfl

end Sys2Proof.Proofs
end

section
/-! PROOFS. Codes, signed readings and the values of operands (R149, R289, R298). -/

namespace Sys2Proof.Proofs

open Sys2Proof.Machine Sys2Proof.Safety Sys2Proof.Laws

/-! ### Codes -/

theorem codesAre_codesOf (c z n v : Bool) : CodesAre (codesOf c z n v) c z n v := by
  unfold CodesAre
  revert c z n v
  decide

theorem bitOf_eq_testBit (a i : Nat) : bitOf a i = a.testBit i := Nat.testBit_eq_decide_div_mod_eq.symm

/-- The top bit of a pattern of `w` bits. -/
theorem testBit_top {w x : Nat} (hw : 0 < w) (hx : x < 2 ^ w) : x.testBit (w - 1) = decide (2 ^ (w - 1) ≤ x) := by
  by_cases h : 2 ^ (w - 1) ≤ x
  · simp [h, Nat.testBit_of_two_pow_le_and_two_pow_add_one_gt h (by rwa [Nat.sub_add_cancel hw])]
  · simp [h, Nat.testBit_lt_two_pow (Nat.lt_of_not_le h)]

theorem read_eq (t : IntTy) {x : Nat} (hw : 0 < t.w) (hx : x < 2 ^ t.w) :
    t.read x = if t.signed then signedVal t.w x else x := by
  cases hs : t.signed <;> simp [IntTy.read, signedVal, hs, testBit_top hw hx]

theorem outside_signed (w : Nat) (x : Int) :
    (IntTy.mk w true).outside x = decide (x < -(2 ^ (w - 1) : Int) ∨ (2 ^ (w - 1) : Int) ≤ x) := by
  simp only [IntTy.outside, IntTy.lo, IntTy.hi, if_true, ← Bool.decide_or, Int.sub_one_lt_iff]

theorem wrap_sub {w x y : Nat} (hy : y < 2 ^ w) : wrap w ((x : Int) - y) = (x + 2 ^ w - y) % 2 ^ w := by
  have h : ((x : Int) - y) % ((2 ^ w : Nat) : Int) = ((x + 2 ^ w - y) % 2 ^ w : Nat) := by
    rw [Int.natCast_emod, ← Int.add_emod_right]
    congr 1
    omega
  unfold wrap
  push_cast at h
  rw [h]
  exact Int.toNat_natCast _

theorem cmpCodes_spec {w x y : Nat} (hw : 0 < w) (hx : x < 2 ^ w) (hy : y < 2 ^ w) : CmpCodes w x y (cmpCodes w x y) := by
  have hr : ∀ {v : Nat}, v < 2 ^ w → (IntTy.mk w true).read v = signedVal w v := fun hv => read_eq _ hw hv
  have h := codesAre_codesOf (decide (y ≤ x)) (decide (x = y)) (bitOf (wrap w ((x : Int) - y)) (w - 1))
    ((IntTy.mk w true).outside ((IntTy.mk w true).read x - (IntTy.mk w true).read y))
  unfold CmpCodes
  rwa [← outside_signed, ← wrap_sub hy, ← bitOf_eq_testBit, ← hr hx, ← hr hy]

theorem testCodes_spec (w x y : Nat) : TestCodes w x y (testCodes w x y) := by
  unfold TestCodes
  rw [← bitOf_eq_testBit]
  exact codesAre_codesOf _ _ _ _

/-! ### Operands -/

theorem vreg_lt (s : State) (wide : Bool) (k : Nat) (n : BitVec 7) (l : Nat) :
    s.vreg wide k n l < 2 ^ (if wide then 64 else 32) := by
  have h0 := (s.vread k n.toNat l).isLt
  have h1 := (s.vread k (n.toNat + 1) l).isLt
  unfold State.vreg
  cases wide
  · simpa using h0
  · simp only [if_true]
    omega

theorem src_lt (s : State) (wide : Bool) (k : Nat) (b : Src) (w l j : Nat) : s.src wide k b w l j < 2 ^ w := by
  cases b with
  | v n => exact Nat.mod_lt _ (Nat.two_pow_pos w)
  | u n => exact Nat.mod_lt _ (Nat.two_pow_pos w)
  | i n => exact wrap_lt w _

/-- A whole-lane type is as wide as the lane or pair. -/
theorem width_of_wholeTypes {s : State} (h : wholeTypes s.ty = true) : (bitTy s.ty).w = laneWidth s := by
  simp only [wholeTypes, Bool.or_eq_true, decide_eq_true_eq, or_assoc] at h
  unfold laneWidth State.wideTy
  rcases h with h | h | h | h <;> rw [h] <;> rfl

theorem laneWidth_pos (s : State) : 0 < laneWidth s := by
  unfold laneWidth
  split <;> omega

end Sys2Proof.Proofs
end

section
/-! PROOFS. Vector comparisons and bit tests (R298). -/

namespace Sys2Proof.Proofs

open Sys2Proof.Machine Sys2Proof.Safety Sys2Proof.Laws

theorem exec_of_cmpShape {s : State} {i : Instr} {a : BitVec 7} {b : Src} {bits : Bool} (h : cmpShape i = some (a, b, bits)) :
    exec i s = (s.vecCmp (if bits then testCodes else cmpCodes) a b).out := by
  unfold cmpShape at h
  split at h <;> cases h <;> rfl

/-- Everything that a comparison does when its checks pass. -/
theorem vecCmp_ok {s : State} (f : Nat → Nat → Nat → Codes) {a : BitVec 7} {b : Src} (ht : wholeTypes s.ty = true)
    (hq : Quiet s) (hw : InWindow s (regs s.wideTy a ++ b.vregs s.wideTy))
    (he : s.wideTy = true → EvenRegs (a.toNat :: b.vregs false)) :
    s.vecCmp f a b = .ok (s.putCodes s.active fun l =>
      f (laneWidth s) (s.vreg s.wideTy 0 a l) (s.src s.wideTy 1 b (laneWidth s) l 0)).advance := by
  unfold State.vecCmp
  rw [width_of_wholeTypes ht]
  exact guardAll_ok s _ _ _ hq ht hw (evenRegs_ite he)

/-- Settles O5: the checks pass, `putCodes` gives each active lane the codes of the comparison, and only codes change. -/
theorem vectorCompare : Obligations.VectorCompare := by
  intro s i a b bits hshape hty hq hw he
  have ht : wholeTypes s.ty = true := by
    simp only [wholeTypes, Bool.or_eq_true, decide_eq_true_eq]
    omega
  refine ⟨_, by rw [exec_of_cmpShape hshape, vecCmp_ok _ ht hq hw he, out_ok], vecOnly_putCodes _ _ _, fun l hl => ?_⟩
  rw [advance_ccget, ccget_putCodes, if_pos hl]
  cases bits with
  | true => exact testCodes_spec _ _ _
  | false => exact cmpCodes_spec (laneWidth_pos s) (vreg_lt s _ _ _ _) (src_lt s _ _ _ _ _ _)

end Sys2Proof.Proofs
end

section
/-! PROOFS. Selection, moves, widening and the dot product of bytes (R292, R297, R299, R300). -/

namespace Sys2Proof.Proofs

open Sys2Proof.Machine Sys2Proof.Safety Sys2Proof.Laws

/-! ### Widths and readings -/

theorem read_byType {w x : Nat} (p : Prop) [Decidable p] (hw : 0 < w) (hx : x < 2 ^ w) :
    (IntTy.mk w (decide p)).read x = if p then signedVal w x else x := by
  simpa using read_eq (IntTy.mk w (decide p)) hw hx

/-- The types of the element-wise class have a width, and `ext` reads no more than a lane. -/
theorem width_of_eltTypes : ∀ t ≤ 7, 0 < (bitTy t).w ∧
    Nat.min (bitTy t).w 32 = if decide (typeBits t = 64) then 32 else (bitTy t).w := by decide

/-- A lane put together from sub-elements fits the lane or pair. -/
theorem laneElts_lt (t : IntTy) (lw : Nat) (f : Nat → Elt) (hf : ∀ j, (f j).val < 2 ^ t.w) : (laneElts t lw f).val < 2 ^ lw :=
  (laneElts_spec t lw f hf).1.trans_le (Nat.pow_le_pow_right (by decide) (Nat.mul_div_le lw t.w))

/-! ### `sel` -/

/-- R299: `sel` gives every lane of the fragment the lane of A or the second operand, by GUARD over the lane's codes. -/
theorem vecSel_result {s : State} {d a : BitVec 7} {b : Src} (ht : bitTypes s.ty = true) (h : VecReady s d a b) :
    ∃ t, (s.vecSel d a b).out = .next t ∧ VecOnly s t (regs s.wideTy d) s.frag.mask false ∧
      ∀ l j, s.frag.mask.getLsbD l = true → j < laneWidth s / (tyOf s).w →
        sub (tyOf s).w (laneVal t.cur s.wideTy d l) j =
          if condHolds (modeGuard s.mode) (s.ccread 0 l) then sub (tyOf s).w (s.vreg s.wideTy 0 a l) j
          else s.src s.wideTy 1 b (tyOf s).w l j := by
  obtain ⟨hq, hw, he⟩ := h
  refine ⟨_, guardAll_out hq ht hw (evenRegs_ite he), vecOnly_putLanes _ _ _ _ _ _,
    fun l j hl hj => ?_⟩
  have hsrc := fun j => src_lt s s.wideTy 1 b (bitTy s.ty).w l j
  rw [laneVal_written _ _ _ _ _ _ _ hl]
  · by_cases hc : condHolds (modeGuard s.mode) (s.ccread 0 l) = true
    · simp only [hc, if_true]
    · simp only [hc, Bool.false_eq_true, if_false]
      exact (laneElts_spec _ _ _ hsrc).2.1 j hj
  · dsimp only
    split
    · exact vreg_lt s _ _ _ _
    · exact laneElts_lt _ _ _ hsrc

/-! ### `mov` and `movi` -/

/-- R300: `mov` copies the lane or pair. -/
theorem vecMov_result {s : State} {d a : BitVec 7} (ht : bitTypes s.ty = true) (h : VecReady s d a (.v a)) :
    ∃ t, (s.vecMov d a).out = .next t ∧ VecOnly s t (regs s.wideTy d) s.active false ∧
      ∀ l, s.active.getLsbD l = true → laneVal t.cur s.wideTy d l = s.vreg s.wideTy 0 a l := by
  obtain ⟨hq, hw, he⟩ := h
  have hw' : InWindow s (regs s.wideTy d ++ regs s.wideTy a) := fun r hr => hw r (List.mem_append_left _ hr)
  have he' : s.wideTy = true → EvenRegs [d.toNat, a.toNat] := fun h r hr => he h r (List.mem_append_left [a.toNat] hr)
  refine ⟨_, guardAll_out hq ht hw' (evenRegs_ite he'),
    vecOnly_putLanes _ _ _ _ _ _, fun l hl => ?_⟩
  exact laneVal_written _ _ _ _ _ _ _ hl (vreg_lt s _ _ _ _)

/-- R300: `movi` writes the immediate in every sub-element. -/
theorem vecMovi_result {s : State} {d : BitVec 7} (imm : BitVec 10) (hq : Quiet s) (ht : s.ty ≤ 7)
    (hw : InWindow s (regs s.wideTy d)) (he : s.wideTy = true → d.toNat % 2 = 0) :
    ∃ t, (s.vecMovi d imm).out = .next t ∧ VecOnly s t (regs s.wideTy d) s.active false ∧
      ∀ l j, s.active.getLsbD l = true → j < laneWidth s / (tyOf s).w →
        sub (tyOf s).w (laneVal t.cur s.wideTy d l) j = wrap (tyOf s).w imm.toInt := by
  have he' : s.wideTy = true → EvenRegs [d.toNat] := fun h => by simpa [EvenRegs] using he h
  refine ⟨_, guardAll_out hq (decide_eq_true ht) hw (evenRegs_ite he'),
    vecOnly_putLanes _ _ _ _ _ _, fun l j hl hj => ?_⟩
  have hsrc := fun j => src_lt s s.wideTy 1 (.i imm) (bitTy s.ty).w l j
  rw [laneVal_written _ _ _ _ _ _ _ hl (laneElts_lt _ _ _ hsrc)]
  exact (laneElts_spec _ _ _ hsrc).2.1 j hj

/-! ### `ext` -/

/-- R297: `ext` widens sub-element 0, or the lane to the pair for a 64-bit type. -/
theorem vecExt_result {s : State} {d a : BitVec 7} (hq : Quiet s) (ht : s.ty ≤ 7)
    (hw : InWindow s (a.toNat :: regs s.wideTy d)) (he : s.wideTy = true → d.toNat % 2 = 0) :
    ∃ t, (s.vecExt d a).out = .next t ∧ VecOnly s t (regs s.wideTy d) s.active s.ccw ∧
      ∀ l, s.active.getLsbD l = true →
        let w := if s.wideTy then 32 else (tyOf s).w
        let x := (s.vread 0 a.toNat l).toNat % 2 ^ w
        laneVal t.cur s.wideTy d l = wrap (laneWidth s) (if (tyOf s).signed then signedVal w x else x) := by
  have hw' : InWindow s (regs s.wideTy d ++ [a.toNat]) := fun r hr =>
    hw r (List.mem_cons.mpr ((List.mem_append.mp hr).symm.imp_left List.mem_singleton.mp))
  have he' : s.wideTy = true → EvenRegs [d.toNat] := fun h => by simpa [EvenRegs] using he h
  refine ⟨_, guardAll_out hq (decide_eq_true ht) hw' (evenRegs_ite he'),
    vecOnly_putLanes _ _ _ _ _ _, fun l hl => ?_⟩
  obtain ⟨hpos, hmin⟩ := width_of_eltTypes s.ty ht
  have hmin : Nat.min (tyOf s).w 32 = if s.wideTy then 32 else (tyOf s).w := hmin
  rw [laneVal_written _ _ _ _ _ _ _ hl (wrap_lt _ _)]
  dsimp only
  rw [← hmin, read_eq _ (Nat.lt_min.mpr ⟨hpos, by decide⟩) (Nat.mod_lt _ (Nat.two_pow_pos _))]
  rfl

/-! ### `dot4` -/

/-- The exact sum that `dot4` forms in lane `l`: the 32-bit lane of vd and the four products of bytes (R292). -/
def dot4Sum (s : State) (d a b : BitVec 7) (l : Nat) : Int :=
  (List.range 4).foldl (fun x j => x + (bitTy s.ty).read (sub 8 (s.vread 0 a.toNat l).toNat j) *
    (bitTy s.ty).read (sub 8 (s.vread 1 b.toNat l).toNat j)) ((IntTy.mk 32 (bitTy s.ty).signed).read (s.vread 2 d.toNat l).toNat)

theorem bitTy_of_bytes {s : State} (ht : s.ty = 0 ∨ s.ty = 4) : bitTy s.ty = ⟨8, decide (s.ty = 0)⟩ := by
  rcases ht with h | h <;> rw [h] <;> rfl

theorem dot4Sum_eq {s : State} (ht : s.ty = 0 ∨ s.ty = 4) (d a b : BitVec 7) (l : Nat) :
    let read := fun (w x : Nat) => if s.ty = 0 then signedVal w x else (x : Int)
    let av := (s.vread 0 a.toNat l).toNat
    let bv := (s.vread 1 b.toNat l).toNat
    dot4Sum s d a b l = read 32 (s.vread 2 d.toNat l).toNat + read 8 (sub 8 av 0) * read 8 (sub 8 bv 0) +
      read 8 (sub 8 av 1) * read 8 (sub 8 bv 1) + read 8 (sub 8 av 2) * read 8 (sub 8 bv 2) +
      read 8 (sub 8 av 3) * read 8 (sub 8 bv 3) := by
  intro read av bv
  have hbyte : ∀ v j, (IntTy.mk 8 (decide (s.ty = 0))).read (sub 8 v j) = read 8 (sub 8 v j) := fun v j =>
    read_byType _ (by decide) (Nat.mod_lt _ (by decide))
  have hlane : (IntTy.mk 32 (decide (s.ty = 0))).read (s.vread 2 d.toNat l).toNat = read 32 (s.vread 2 d.toNat l).toNat :=
    read_byType _ (by decide) (s.vread 2 d.toNat l).isLt
  unfold dot4Sum
  simp only [bitTy_of_bytes ht, hbyte, hlane]
  rfl

/-- R292: `dot4` writes the exact sum, wrapped or with MODE.SAT saturated, with V for a sum out of range and C clear. -/
theorem vecDot4_result {s : State} {d a b : BitVec 7} (hq : Quiet s) (ht : s.ty = 0 ∨ s.ty = 4)
    (hw : InWindow s [d.toNat, a.toNat, b.toNat]) :
    ∃ t, (s.vecDot4 d a b).out = .next t ∧ VecOnly s t [d.toNat] s.active s.ccw ∧
      ∀ l, s.active.getLsbD l = true →
        let x := dot4Sum s d a b l
        let lane : IntTy := ⟨32, decide (s.ty = 0)⟩
        (t.cur.vget d.toNat l).toNat = wrap 32 (if s.sat then lane.saturate x else x) ∧
          (s.ccw = true → Codes.v (t.cur.ccget l) = lane.outside x ∧ Codes.c (t.cur.ccget l) = false) := by
  have hty : (s.ty = 0 || s.ty = 4) = true := by simpa using ht
  refine ⟨_, guardAll_out hq hty hw (List.forall_mem_nil _), vecOnly_putLanes s s.active false d s.ccw _, fun l hl => ?_⟩
  have hsigned : decide (s.ty = 0) = (bitTy s.ty).signed := by rw [bitTy_of_bytes ht]
  rw [hsigned]
  refine ⟨laneVal_written s s.active false d s.ccw _ l hl (wrap_lt 32 _), fun hc => ?_⟩
  rw [advance_ccget, ccget_putLanes, if_pos ⟨hc, hl⟩]
  obtain ⟨hcarry, -, -, hover⟩ := codesAre_codesOf false _ _ _
  exact ⟨hover, hcarry⟩

/-- Settles O6: each instruction passes its checks, and `putLanes` writes what its rule gives to the lanes it covers. -/
theorem vectorMoves : Obligations.VectorMoves := by
  intro s d a b hq
  have hbit : s.ty ≤ 0x0C ∨ s.ty = 0x0F → bitTypes s.ty = true := fun h => by simpa [bitTypes] using h
  refine ⟨⟨?sel, fun ht h => vecMov_result (hbit ht) h, fun imm ht hw he => vecMovi_result imm hq ht hw he⟩,
    fun ht hw he => vecExt_result hq ht hw he, fun ht hw => ?dot4⟩
  case sel =>
    rintro i src (⟨vb, rfl, rfl⟩ | ⟨ub, rfl, rfl⟩) ht h
    · exact vecSel_result (hbit ht) h
    · exact vecSel_result (hbit ht) h
  case dot4 =>
    obtain ⟨t, hexec, honly, hres⟩ := vecDot4_result hq ht hw
    refine ⟨t, hexec, honly, fun l hl => ?_⟩
    have hres := hres l hl
    rw [dot4Sum_eq ht] at hres
    exact hres

end Sys2Proof.Proofs
end

section
/-! PROOFS. What the element operations give on 64-bit values (R302 to R304). -/

namespace Sys2Proof.Proofs

open Sys2Proof.Machine Sys2Proof.Safety Sys2Proof.Laws

/-! ### Values of 64 bits -/

theorem read_toNat {w : Nat} (x : BitVec w) : (IntTy.mk w true).read x.toNat = x.toInt := by
  simp [IntTy.read, BitVec.toInt_eq_msb_cond, BitVec.msb_eq_decide]

@[simp] theorem read_i64 (x : W64) : i64.read x.toNat = x.toInt := read_toNat x

theorem wrap_eq_ofInt (w : Nat) (x : Int) : wrap w x = (BitVec.ofInt w x).toNat := by
  rw [wrap, BitVec.toNat_ofInt]
  push_cast
  rfl

theorem ofInt_eq {w : Nat} {x : Int} {v : BitVec w} (h : v.toInt = x.bmod (2 ^ w)) : BitVec.ofInt w x = v :=
  BitVec.eq_of_toInt_eq (by rw [BitVec.toInt_ofInt, h])

theorem outside_i64 (x : Int) : i64.outside x = uniMarks.out x := outside_signed 64 x

/-- A value of 64 bits is in range. -/
theorem out_toInt (x : W64) : uniMarks.out x.toInt = false := by
  have hlo := BitVec.le_toInt x
  have hhi := BitVec.toInt_lt (x := x)
  simp only [uniMarks.out, decide_eq_false_iff_not]
  omega

/-- An exact result, whose marks are the carry term and "out of range". -/
theorem narrow_i64 {x : Int} {v : W64} (c : Bool) (h : BitVec.ofInt 64 x = v) :
    i64.narrow false x c = ⟨v.toNat, c, uniMarks.out x⟩ := by
  rw [← h, ← wrap_eq_ofInt, ← outside_i64]
  rfl

theorem plainElt_64 {x : Int} {v : W64} (h : BitVec.ofInt 64 x = v) : plainElt 64 x = ⟨v.toNat, false, false⟩ := by
  rw [← h, ← wrap_eq_ofInt]
  rfl

/-! ### Arithmetic -/

section
variable (a b : W64) (n : Nat)

theorem eltAdd_i64 : eltAdd i64 false ⟨a.toNat, b.toNat, n, false⟩ =
    ⟨(a + b).toNat, decide (2 ^ 64 ≤ a.toNat + b.toNat), uniMarks.out (a.toInt + b.toInt)⟩ := by
  simp only [eltAdd, read_i64]
  exact narrow_i64 _ (ofInt_eq (BitVec.toInt_add a b))

theorem eltSub_i64 : eltSub i64 false ⟨a.toNat, b.toNat, n, false⟩ =
    ⟨(a - b).toNat, decide (b.toNat ≤ a.toNat), uniMarks.out (a.toInt - b.toInt)⟩ := by
  simp only [eltSub, read_i64]
  exact narrow_i64 _ (ofInt_eq BitVec.toInt_sub)

theorem eltMul_i64 : eltMul i64 false ⟨a.toNat, b.toNat, n, false⟩ =
    ⟨(a * b).toNat, false, uniMarks.out (a.toInt * b.toInt)⟩ := by
  simp only [eltMul, read_i64]
  exact narrow_i64 _ (ofInt_eq (BitVec.toInt_mul a b))

/-- The upper half of the exact product is the upper half of the product of 128 bits. -/
theorem ofInt_upper_half (x : Int) : BitVec.ofInt 64 (x / 2 ^ 64) = (BitVec.ofInt 128 x).extractLsb' 64 64 := by
  apply BitVec.eq_of_toNat_eq
  rw [BitVec.extractLsb'_toNat, BitVec.toNat_ofInt, BitVec.toNat_ofInt, Nat.shiftRight_eq_div_pow]
  omega

theorem eltMulh_i64 : eltMulh i64 false ⟨a.toNat, b.toNat, n, false⟩ =
    ⟨((a.signExtend 128 * b.signExtend 128).extractLsb' 64 64).toNat, false, false⟩ := by
  have h : BitVec.ofInt 128 (a.toInt * b.toInt) = a.signExtend 128 * b.signExtend 128 := BitVec.ofInt_mul _ _
  simp only [eltMulh, read_i64]
  exact plainElt_64 ((ofInt_upper_half _).trans (by rw [h]))

/-! ### Division -/

/-- The one quotient out of range is that of the least value by −1. -/
theorem out_tdiv : uniMarks.out (a.toInt.tdiv b.toInt) = decide (a = BitVec.intMin 64 ∧ b = BitVec.allOnes 64) := by
  by_cases h : a = BitVec.intMin 64 ∧ b = BitVec.allOnes 64
  · obtain ⟨rfl, rfl⟩ := h
    decide
  · have hne : a ≠ BitVec.intMin 64 ∨ b ≠ -1#64 := by
      rw [← not_and_or]
      exact h
    rw [← BitVec.toInt_sdiv_of_ne_or_ne a b hne, out_toInt, decide_eq_false h]

theorem toInt_eq_zero_iff : b.toInt = 0 ↔ b = 0 :=
  ⟨fun h => BitVec.eq_of_toInt_eq h, fun h => by rw [h]; rfl⟩

theorem eltSdiv_i64 : eltSdiv i64 false ⟨a.toNat, b.toNat, n, false⟩ =
    ⟨(if b = 0 then BitVec.allOnes 64 else a.sdiv b).toNat, false,
      decide (b = 0) || decide (a = BitVec.intMin 64 ∧ b = BitVec.allOnes 64)⟩ := by
  simp only [eltSdiv, read_i64, toInt_eq_zero_iff]
  by_cases hb : b = 0
  · simp only [hb, if_true]
    rfl
  · simp only [hb, if_false, decide_false, Bool.false_or, outside_i64, out_tdiv]
    rw [show i64.w = 64 from rfl, wrap_eq_ofInt, ofInt_eq (BitVec.toInt_sdiv a b)]

theorem eltSrem_i64 : eltSrem i64 false ⟨a.toNat, b.toNat, n, false⟩ =
    ⟨(if b = 0 then a else a.srem b).toNat, false,
      decide (b = 0) || decide (a = BitVec.intMin 64 ∧ b = BitVec.allOnes 64)⟩ := by
  simp only [eltSrem, read_i64, toInt_eq_zero_iff]
  by_cases hb : b = 0
  · simp only [hb, if_true, decide_true, Bool.true_or]
  · simp only [hb, if_false, decide_false, Bool.false_or, outside_i64, out_tdiv]
    rw [show i64.w = 64 from rfl, wrap_eq_ofInt, ← BitVec.toInt_srem, BitVec.ofInt_toInt]

/-! ### Bits -/

theorem eltAnd_i64 : eltAnd i64 false ⟨a.toNat, b.toNat, n, false⟩ = ⟨(a &&& b).toNat, false, false⟩ := by
  rw [BitVec.toNat_and]
  rfl

theorem eltOr_i64 : eltOr i64 false ⟨a.toNat, b.toNat, n, false⟩ = ⟨(a ||| b).toNat, false, false⟩ := by
  rw [BitVec.toNat_or]
  rfl

theorem eltXor_i64 : eltXor i64 false ⟨a.toNat, b.toNat, n, false⟩ = ⟨(a ^^^ b).toNat, false, false⟩ := by
  rw [BitVec.toNat_xor]
  rfl

theorem bitOf_toNat {w : Nat} (x : BitVec w) (i : Nat) : bitOf x.toNat i = x.getLsbD i := bitOf_eq_testBit _ i

theorem eltMin_i64 : eltMin i64 false ⟨a.toNat, b.toNat, n, false⟩ = ⟨(if a.sle b then a else b).toNat, false, false⟩ := by
  simp only [eltMin, read_i64]
  refine plainElt_64 ?_
  by_cases h : a.sle b = true
  · rw [min_eq_left (BitVec.sle_iff_toInt_le.mp h), BitVec.ofInt_toInt, if_pos h]
  · rw [min_eq_right (le_of_not_ge fun hle => h (BitVec.sle_iff_toInt_le.mpr hle)), BitVec.ofInt_toInt, if_neg h]

theorem eltMax_i64 : eltMax i64 false ⟨a.toNat, b.toNat, n, false⟩ = ⟨(if a.sle b then b else a).toNat, false, false⟩ := by
  simp only [eltMax, read_i64]
  refine plainElt_64 ?_
  by_cases h : a.sle b = true
  · rw [max_eq_right (BitVec.sle_iff_toInt_le.mp h), BitVec.ofInt_toInt, if_pos h]
  · rw [max_eq_left (le_of_not_ge fun hle => h (BitVec.sle_iff_toInt_le.mpr hle)), BitVec.ofInt_toInt, if_neg h]

theorem eltPopc_i64 (m : Nat) : eltPopc i64 false ⟨a.toNat, m, n, false⟩ =
    ⟨(BitVec.ofNat 64 ((List.range 64).countP a.getLsbD)).toNat, false, false⟩ := by
  refine plainElt_64 ?_
  have h : bitOf a.toNat = a.getLsbD := funext (bitOf_toNat a)
  rw [BitVec.ofInt_natCast, List.countP_eq_length_filter, ← h]
  rfl

/-- The leading zeros of a pattern of `w` bits that is not zero. -/
theorem leadingZeros_eq {w x : Nat} (hx : x ≠ 0) (hlt : x < 2 ^ w) : leadingZeros w x = w - 1 - x.log2 := by
  have hlog : x.log2 < w := (Nat.log2_lt hx).mpr hlt
  have hfind : (List.range w).find? (fun i => bitOf x (w - 1 - i)) = some (w - 1 - x.log2) := by
    rw [List.find?_range_eq_some]
    refine ⟨?_, List.mem_range.mpr (by omega), fun j hj => ?_⟩
    · rw [bitOf_eq_testBit, show w - 1 - (w - 1 - x.log2) = x.log2 by omega, Nat.testBit_log2 hx]
    · rw [bitOf_eq_testBit, Nat.testBit_lt_two_pow ((Nat.log2_lt hx).mp (by omega))]
      rfl
  rw [leadingZeros, hfind]

theorem eltClz_i64 (m : Nat) : eltClz i64 false ⟨a.toNat, m, n, false⟩ =
    ⟨(BitVec.ofNat 64 (if a = 0 then 64 else 63 - a.toNat.log2)).toNat, false, false⟩ := by
  refine plainElt_64 ?_
  rw [BitVec.ofInt_natCast]
  congr 1
  by_cases ha : a = 0
  · rw [ha, if_pos rfl]
    exact (by decide : leadingZeros 64 0 = 64)
  · rw [if_neg ha]
    exact leadingZeros_eq (fun h => ha (BitVec.eq_of_toNat_eq h)) a.isLt

/-! ### Shifts -/

theorem ofInt_shiftLeft (m : Nat) : BitVec.ofInt 64 (a.toInt * 2 ^ m) = a <<< m := by
  have h : BitVec.ofInt 64 (2 ^ m) = BitVec.twoPow 64 m := by
    rw [show (2 ^ m : Int) = ((2 ^ m : Nat) : Int) by push_cast; rfl, BitVec.ofInt_natCast]
    exact BitVec.eq_of_toNat_eq (by rw [BitVec.toNat_ofNat, BitVec.toNat_twoPow])
  rw [BitVec.ofInt_mul, BitVec.ofInt_toInt, h, BitVec.mul_twoPow_eq_shiftLeft]

theorem out_shift_far {x : Int} (hx : x ≠ 0) {m : Nat} (hm : 64 ≤ m) : uniMarks.out (x * 2 ^ m) = true := by
  have hpow : (2 ^ 64 : Int) ≤ 2 ^ m := pow_le_pow_right₀ (by decide) hm
  simp only [uniMarks.out, decide_eq_true_eq]
  rcases lt_or_gt_of_ne hx with h | h
  · left
    nlinarith
  · right
    nlinarith

/-- The amount of a left shift can be cut off: past 64 places only zero stays in range, and zero stays there always. -/
theorem out_shift_min (x : Int) (m : Nat) : uniMarks.out (x * 2 ^ min m 128) = uniMarks.out (x * 2 ^ m) := by
  rcases Nat.le_total m 128 with h | h
  · rw [min_eq_left h]
  · rw [min_eq_right h]
    by_cases hx : x = 0
    · rw [hx, zero_mul, zero_mul]
    · rw [out_shift_far hx (by decide), out_shift_far hx (by omega)]

theorem shiftLeft_min (m : Nat) : a <<< min m 128 = a <<< m := by
  rcases Nat.le_total m 128 with h | h
  · rw [min_eq_left h]
  · rw [min_eq_right h, BitVec.shiftLeft_eq_zero (by decide), BitVec.shiftLeft_eq_zero (by omega)]

theorem eltShl_i64 : eltShl i64 false ⟨a.toNat, b.toNat, n, false⟩ =
    ⟨(a <<< b.toNat).toNat, decide (1 ≤ b.toNat ∧ b.toNat ≤ 64) && a.getLsbD (64 - b.toNat),
      uniMarks.out (a.toInt * 2 ^ b.toNat)⟩ := by
  have hcarry : (decide (1 ≤ b.toNat ∧ b.toNat ≤ 64) && bitOf a.toNat (64 - min b.toNat 128)) =
      (decide (1 ≤ b.toNat ∧ b.toNat ≤ 64) && a.getLsbD (64 - b.toNat)) := by
    by_cases h : 1 ≤ b.toNat ∧ b.toNat ≤ 64
    · rw [bitOf_toNat, min_eq_left (by omega)]
    · rw [decide_eq_false h, Bool.false_and, Bool.false_and]
  rw [← hcarry, ← out_shift_min, ← shiftLeft_min, ← ofInt_shiftLeft, ← read_i64]
  exact narrow_i64 _ rfl

/-- The bit that a right shift moves out last. -/
theorem shrCarry_i64 (fill : Bool) :
    (if b.toNat = 0 then false else if b.toNat ≤ 64 then bitOf a.toNat (b.toNat - 1) else fill) =
      if b.toNat = 0 then false else if b.toNat ≤ 64 then a.getLsbD (b.toNat - 1) else fill := by
  rw [bitOf_toNat]

theorem div_pow_min (m : Nat) : a.toNat / 2 ^ min m 64 = a.toNat / 2 ^ m := by
  rcases Nat.le_total m 64 with h | h
  · rw [min_eq_left h]
  · rw [min_eq_right h, Nat.div_eq_of_lt a.isLt, Nat.div_eq_of_lt (a.isLt.trans_le (Nat.pow_le_pow_right (by decide) h))]

theorem eltSshr_i64 : eltSshr i64 false ⟨a.toNat, b.toNat, n, false⟩ =
    ⟨(a >>> b.toNat).toNat, if b.toNat = 0 then false else decide (b.toNat ≤ 64) && a.getLsbD (b.toNat - 1), false⟩ := by
  have hcarry : (if b.toNat = 0 then false else decide (b.toNat ≤ 64) && a.getLsbD (b.toNat - 1)) =
      if b.toNat = 0 then false else if b.toNat ≤ 64 then a.getLsbD (b.toNat - 1) else false := by
    by_cases h : b.toNat ≤ 64 <;> simp [h]
  rw [hcarry, ← shrCarry_i64, BitVec.toNat_ushiftRight, Nat.shiftRight_eq_div_pow, ← div_pow_min]
  rfl

/-- An arithmetic right shift fills with the ones that the shift moves in. -/
theorem toNat_sra (m : Nat) : (sra a m).toNat =
    a.toNat / 2 ^ min m 64 + if a.msb then 2 ^ 64 - 1 - (2 ^ 64 - 1) / 2 ^ min m 64 else 0 := by
  rw [sra, BitVec.toNat_sshiftRight]
  cases a.msb with
  | false => simp [Nat.shiftRight_eq_div_pow, div_pow_min]
  | true =>
    have hk : min m 64 ≤ 64 := Nat.min_le_right m 64
    have hsplit : 2 ^ min m 64 * 2 ^ (64 - min m 64) = 2 ^ 64 := by rw [← Nat.pow_add, Nat.add_sub_cancel' hk]
    have hones : ∀ x < 2 ^ 64, (2 ^ 64 - 1 - x) / 2 ^ min m 64 = 2 ^ (64 - min m 64) - (x / 2 ^ min m 64 + 1) := fun x hx => by
      rw [Nat.sub_sub, Nat.add_comm 1 x, ← hsplit]
      exact Nat.mul_sub_div x _ _ (hsplit ▸ hx)
    have hnot : (2 ^ 64 - 1 - a.toNat) / 2 ^ m = (2 ^ 64 - 1 - a.toNat) / 2 ^ min m 64 := by
      rw [← BitVec.toNat_not, div_pow_min]
    have hquot : a.toNat / 2 ^ min m 64 < 2 ^ (64 - min m 64) := Nat.div_lt_of_lt_mul (hsplit ▸ a.isLt)
    have htop : 2 ^ (64 - min m 64) ≤ 2 ^ 64 := Nat.pow_le_pow_right (by decide) (Nat.sub_le 64 _)
    have hall := hones 0 (by decide)
    rw [Nat.sub_zero, Nat.zero_div] at hall
    rw [if_pos rfl, if_pos rfl, Nat.shiftRight_eq_div_pow, hnot, hones _ a.isLt, hall]
    generalize a.toNat / 2 ^ min m 64 = q at hquot
    generalize 2 ^ (64 - min m 64) = p at hquot htop
    omega

theorem eltShr_i64 : eltShr i64 false ⟨a.toNat, b.toNat, n, false⟩ =
    ⟨(sra a b.toNat).toNat,
      if b.toNat = 0 then false else if b.toNat ≤ 64 then a.getLsbD (b.toNat - 1) else a.msb, false⟩ := by
  have hfill : i64.fill a.toNat = a.msb := by
    rw [BitVec.msb_eq_getLsbD_last, ← bitOf_toNat]
    rfl
  rw [← shrCarry_i64, toNat_sra, ← hfill]
  rfl

/-! ### Bit fields -/

theorem fieldLen_eq_effLen (w pos len : Nat) : fieldLen w pos len = effLen w pos len := by
  unfold fieldLen effLen
  split
  · rfl
  · exact Nat.min_def

theorem effLen_le (w pos len : Nat) (h : effLen w pos len ≠ 0) : pos + effLen w pos len ≤ w := by
  unfold effLen at *
  split_ifs at * <;> omega

theorem extract_low (x : W64) : x.toNat % 256 = (x.extractLsb' 0 8).toNat := by
  rw [BitVec.extractLsb'_toNat]
  rfl

theorem extract_second (x : W64) : x.toNat / 256 % 256 = (x.extractLsb' 8 8).toNat := by
  rw [BitVec.extractLsb'_toNat, Nat.shiftRight_eq_div_pow]

/-- A field moved to the top of the word. -/
theorem getLsbD_field_at_top {pos l i : Nat} (h : pos + l ≤ 64) (hi : i < l) :
    (a <<< (64 - pos - l)).getLsbD (64 - l + i) = a.getLsbD (pos + i) := by
  have h1 : 64 - l + i < 64 := by omega
  have h2 : ¬ 64 - l + i < 64 - pos - l := by omega
  rw [BitVec.getLsbD_shiftLeft, show 64 - l + i - (64 - pos - l) = pos + i by omega]
  simp [h1, h2]

/-- Moved to the top and back down with the sign, a field is its bits sign-extended. -/
theorem sra_shiftLeft_eq_signExtend {pos l : Nat} (hl : l ≠ 0) (h : pos + l ≤ 64) :
    sra (a <<< (64 - pos - l)) (64 - l) = (a.extractLsb' pos l).signExtend 64 := by
  refine BitVec.eq_of_getLsbD_eq fun i hi => ?_
  rw [sra, BitVec.getLsbD_sshiftRight, BitVec.getLsbD_signExtend]
  by_cases hil : i < l
  · have hlt : 64 - l + i < 64 := by omega
    rw [if_pos hlt, if_pos hil, getLsbD_field_at_top a h hil, BitVec.getLsbD_extractLsb']
    simp [hi, hil]
  · have hge : ¬ 64 - l + i < 64 := by omega
    have htop : (a <<< (64 - pos - l)).msb = (a.extractLsb' pos l).msb := by
      have hlast : l - 1 < l := by omega
      rw [BitVec.msb_eq_getLsbD_last, BitVec.msb_eq_getLsbD_last, BitVec.getLsbD_extractLsb',
        show 64 - 1 = 64 - l + (l - 1) by omega, getLsbD_field_at_top a h hlast]
      simp [hlast]
    simp [hi, hil, hge, htop]

/-- Moved to the top and back down with zeros, a field is its bits zero-extended. -/
theorem ushiftRight_shiftLeft_eq_setWidth {pos l : Nat} (h : pos + l ≤ 64) :
    (a <<< (64 - pos - l)) >>> (64 - l) = (a.extractLsb' pos l).setWidth 64 := by
  refine BitVec.eq_of_getLsbD_eq fun i hi => ?_
  rw [BitVec.getLsbD_ushiftRight, BitVec.getLsbD_setWidth, BitVec.getLsbD_extractLsb']
  by_cases hil : i < l
  · simp [hi, hil, getLsbD_field_at_top a h hil]
  · rw [BitVec.getLsbD_of_ge _ _ (by omega)]
    simp [hil]

theorem fieldExtract_64 (pos len : Nat) (signed : Bool) : fieldExtract 64 pos len signed a.toNat =
    (if effLen 64 pos len = 0 then 0
     else if signed then sra (a <<< (64 - pos - effLen 64 pos len)) (64 - effLen 64 pos len)
     else (a <<< (64 - pos - effLen 64 pos len)) >>> (64 - effLen 64 pos len)).toNat := by
  rw [fieldExtract, fieldLen_eq_effLen]
  by_cases hl : effLen 64 pos len = 0
  · simp only [hl, if_true]
    rfl
  · have hle := effLen_le 64 pos len hl
    simp only [hl, if_false]
    rw [wrap_eq_ofInt, sra_shiftLeft_eq_signExtend a hl hle, ushiftRight_shiftLeft_eq_setWidth a hle,
      ← Nat.shiftRight_eq_div_pow, ← BitVec.extractLsb'_toNat]
    cases signed with
    | true =>
      rw [read_toNat]
      rfl
    | false =>
      rw [if_neg Bool.false_ne_true, ← BitVec.ofNat_toNat, ← BitVec.ofInt_natCast]
      rfl

theorem eltSbfe_i64 : eltSbfe i64 false ⟨a.toNat, b.toNat, n, false⟩ = ⟨(fieldOf a b).toNat, false, false⟩ := by
  simp only [eltSbfe, fieldOf, extract_low, extract_second, bitOf_toNat]
  rw [← fieldExtract_64]
  rfl

/-- A field inserted, bit by bit. -/
theorem testBit_fieldInsert (w pos len x y i : Nat) : (fieldInsert w pos len x y).testBit i =
    if pos ≤ i ∧ i < pos + effLen w pos len then x.testBit (i - pos) else y.testBit i := by
  rw [fieldInsert, fieldLen_eq_effLen]
  generalize effLen w pos len = l
  by_cases hl : l = 0
  · rw [if_pos hl, if_neg (by omega)]
  · have hsplit : y % 2 ^ pos + x % 2 ^ l * 2 ^ pos + y / 2 ^ (pos + l) * 2 ^ (pos + l) =
        2 ^ pos * (2 ^ l * (y / 2 ^ (pos + l)) + x % 2 ^ l) + y % 2 ^ pos := by
      rw [Nat.pow_add]
      ring
    rw [if_neg hl, hsplit, Nat.testBit_two_pow_mul_add _ (Nat.mod_lt _ (Nat.two_pow_pos pos)),
      Nat.testBit_two_pow_mul_add _ (Nat.mod_lt _ (Nat.two_pow_pos l)), Nat.testBit_mod_two_pow, Nat.testBit_mod_two_pow,
      Nat.testBit_div_two_pow]
    by_cases hbelow : i < pos
    · rw [if_pos hbelow, if_neg (by omega)]
      simp [hbelow]
    · rw [if_neg hbelow]
      by_cases hin : i - pos < l
      · rw [if_pos hin, if_pos (by omega)]
        simp [hin]
      · rw [if_neg hin, if_neg (by omega), show i - pos - l + (pos + l) = i by omega]

/-- The mask of a field. -/
theorem getLsbD_fieldMask {pos l : Nat} (h : l ≠ 0 → pos + l ≤ 64) (i : Nat) :
    ((BitVec.ofNat 64 (2 ^ l - 1)) <<< pos).getLsbD i = decide (pos ≤ i ∧ i < pos + l) := by
  rw [BitVec.getLsbD_shiftLeft, BitVec.getLsbD_ofNat, Nat.testBit_two_pow_sub_one, Bool.eq_iff_iff]
  simp only [Bool.and_eq_true, Bool.not_eq_true', decide_eq_true_eq, decide_eq_false_iff_not]
  omega

theorem fieldInsert_64 (pos len : Nat) (y : W64) :
    let m : W64 := (BitVec.ofNat 64 (2 ^ effLen 64 pos len - 1)) <<< pos
    fieldInsert 64 pos len a.toNat y.toNat = ((y &&& ~~~m) ||| ((a <<< pos) &&& m)).toNat := by
  intro m
  have hmask := getLsbD_fieldMask (effLen_le 64 pos len)
  refine Nat.eq_of_testBit_eq fun i => ?_
  rw [testBit_fieldInsert]
  simp only [BitVec.testBit_toNat, BitVec.getLsbD_or, BitVec.getLsbD_and, BitVec.getLsbD_not, BitVec.getLsbD_shiftLeft, m, hmask]
  by_cases hin : pos ≤ i ∧ i < pos + effLen 64 pos len
  · have hi : i < 64 := by
      have := effLen_le 64 pos len
      omega
    simp [hin, hi]
  · by_cases hi : i < 64
    · simp [hin, hi]
    · simp [hin, hi, BitVec.getLsbD_of_ge y i (by omega)]

theorem eltBfi_i64 (y : W64) :
    let pos := (b.extractLsb' 0 8).toNat
    let m : W64 := (BitVec.ofNat 64 (2 ^ effLen 64 pos (b.extractLsb' 8 8).toNat - 1)) <<< pos
    eltBfi i64 false ⟨a.toNat, b.toNat, y.toNat, false⟩ = ⟨((y &&& ~~~m) ||| ((a <<< pos) &&& m)).toNat, false, false⟩ := by
  simp only [eltBfi, extract_low, extract_second, ← fieldInsert_64]
  rfl

end

end Sys2Proof.Proofs
end

section
/-! PROOFS. Uniform instructions: results, flags and frame (R302 to R305). -/

namespace Sys2Proof.Proofs

open Sys2Proof.Machine Sys2Proof.Safety Sys2Proof.Laws

/-! ### Results written -/

theorem onlyUniform_uwrite (s : State) (n : Nat) (v : W64) : OnlyUniform s (s.uwrite n v) := by
  unfold OnlyUniform State.uwrite State.onCur Group.sset
  split <;> rfl

theorem onlyUniform_uniform (s : State) (d : BitVec 6) (v : W64) (fl : Option Codes) : OnlyUniform s (s.uniform d v fl) := by
  have h := onlyUniform_uwrite s d.toNat v
  cases fl with
  | none => exact h
  | some c =>
    unfold OnlyUniform at *
    exact congrArg (State.flwrite · c) h

theorem sget_uniform (s : State) (d : BitVec 6) (v : W64) (fl : Option Codes) (n : Nat) :
    (s.uniform d v fl).cur.sget n = if n = 0 then 0 else if d.toNat = n then v else s.cur.sget n := by
  have h : (s.uwrite d.toNat v).cur.sget n = if n = 0 then 0 else if d.toNat = n then v else s.cur.sget n :=
    sget_sset _ d.toNat n v
  cases fl with
  | none => exact h
  | some c => exact h

theorem flags_uniform (s : State) (d : BitVec 6) (v : W64) (fl : Option Codes) :
    (s.uniform d v fl).cur.flags = fl.getD s.cur.flags := by
  cases fl with
  | none =>
    unfold State.uniform State.uwrite State.onCur Group.sset
    split <;> rfl
  | some c => rfl

/-- What stands after a uniform result is written and the instruction completes. -/
theorem uniOnly_uniform (s : State) (d : BitVec 6) (v : W64) (fl : Option Codes) :
    UniOnly s (s.uniform d v fl).advance d fl.isSome := by
  obtain ⟨hfocus, hflow, hmem⟩ := uniform_frame (onlyUniform_uniform s d v fl)
  refine ⟨hfocus, hflow, hmem, fun n hn => ?_, ?_, fun hfl => ?_⟩
  · rw [advance_sget, sget_uniform, if_neg hn.symm]
    split
    · next h => rw [h]; rfl
    · rfl
  · rw [advance_sget]
    rfl
  · rw [advance_cur_flags, flags_uniform, Option.isNone_iff_eq_none.mp (Option.isSome_eq_false_iff.mp hfl)]
    rfl

/-- What stands after the flags alone are written. -/
theorem uniOnly_flwrite (s : State) (c : Codes) : UniOnly s (s.flwrite c).advance 0 true := by
  obtain ⟨hfocus, hflow, hmem⟩ := uniform_frame (s := s) (u := s.flwrite c) rfl
  refine ⟨hfocus, hflow, hmem, fun n _ => ?_, ?_, nofun⟩
  · rw [advance_sget]
    rfl
  · rw [advance_sget]
    rfl

theorem resultCodes_64 (v : W64) (c o : Bool) : CodesAre (resultCodes 64 v.toNat c o) c (decide (v = 0)) v.msb o := by
  have hz : decide (v.toNat = 0) = decide (v = 0) := decide_eq_decide.mpr (BitVec.toNat_eq (x := v) (y := 0)).symm
  have hn : bitOf v.toNat (64 - 1) = v.msb := by rw [bitOf_toNat, BitVec.msb_eq_getLsbD_last]
  rw [← hz, ← hn]
  exact codesAre_codesOf _ _ _ _

/-! ### Instructions -/

/-- What R302 to R305 say of a uniform instruction with value `v`, carry term `c` and overflow `o`. -/
def UniResult (s : State) (r : Out) (silent : Bool) (d : BitVec 6) (v : W64) (marks : Bool × Bool) : Prop :=
  ∃ t, r = .next t ∧ UniOnly s t d (s.ccw && !silent) ∧ (d ≠ 0 → t.cur.sget d.toNat = v) ∧
    (s.ccw = true → silent = false → CodesAre t.cur.flags marks.1 (decide (v = 0)) v.msb marks.2)

theorem sget_uniform_same (s : State) (d : BitVec 6) (v : W64) (fl : Option Codes) (hd : d ≠ 0) :
    (s.uniform d v fl).advance.cur.sget d.toNat = v := by
  have h : d.toNat ≠ 0 := fun h => hd (BitVec.eq_of_toNat_eq h)
  rw [advance_sget, sget_uniform, if_neg h, if_pos rfl]

/-- A uniform operation gives what its element operation gives on 64 bits. -/
theorem uniOp_result {s : State} {op : EltOp} {silent readsD : Bool} {d : BitVec 6} {us : List Nat} {a b v : W64} {c o : Bool}
    (hq : Quiet s)
    (hop : op i64 false ⟨a.toNat, b.toNat, if readsD then (s.uread 2 d.toNat).toNat else 0, false⟩ = ⟨v.toNat, c, o⟩) :
    UniResult s (s.uniOp op silent readsD d us a b).out silent d v (c, o) := by
  have hout : (s.uniOp op silent readsD d us a b).out = .next (s.uniform d v
      (if s.ccw && !silent then some (resultCodes 64 v.toNat c o) else none)).advance := by
    unfold State.uniOp
    dsimp only
    rw [hop, BitVec.ofNat_toNat, BitVec.setWidth_eq]
    exact guardAll_out hq rfl (List.forall_mem_nil _) (List.forall_mem_nil _)
  refine ⟨_, hout, ?_, sget_uniform_same s d v _, fun hccw hsilent => ?_⟩
  · have h := uniOnly_uniform s d v (if s.ccw && !silent then some (resultCodes 64 v.toNat c o) else none)
    cases hfl : (s.ccw && !silent) <;> simpa [hfl] using h
  · rw [advance_cur_flags, flags_uniform, hccw, hsilent]
    exact resultCodes_64 v c o

/-- `ssel` writes no flags and gives the operand that GUARD selects. -/
theorem uniSel_result {s : State} (hq : Quiet s) (d a b : BitVec 6) :
    UniResult s (s.uniSel d a b).out true d
      (if condHolds (modeGuard s.mode) (s.flread 0) then s.uread 0 a.toNat else s.uread 1 b.toNat) (false, false) := by
  refine ⟨_, guardAll_out hq rfl (List.forall_mem_nil _) (List.forall_mem_nil _), ?_, sget_uniform_same s d _ none, nofun⟩
  rw [Bool.not_true, Bool.and_false]
  exact uniOnly_uniform s d _ none

/-- A literal of 32 bits above the low word of a value. -/
theorem append_low_word (lit : BitVec 32) (x : W64) :
    lit ++ x.setWidth 32 = (lit.setWidth 64 <<< 32) ||| (x &&& 0xFFFFFFFF) := by
  have hmask : (0xFFFFFFFF : W64) = (BitVec.allOnes 32).setWidth 64 := by decide
  refine BitVec.eq_of_getLsbD_eq fun i hi => ?_
  rw [hmask, BitVec.getLsbD_append, BitVec.getLsbD_or, BitVec.getLsbD_and, BitVec.getLsbD_shiftLeft, BitVec.getLsbD_setWidth,
    BitVec.getLsbD_setWidth, BitVec.getLsbD_setWidth, BitVec.getLsbD_allOnes]
  by_cases h : i < 32
  · simp [h, hi]
  · have : i - 32 < 64 := by omega
    simp [h, hi, this]

/-- Each row of `uniRule` is the 64-bit value of the row's element operation; the moves hand on their second operand as it
is. -/
theorem uniRule_result {s : State} {i : Instr} {d : BitVec 6} {v : W64} (hq : Quiet s) (h : uniRule s i = some (d, v)) :
    UniResult s (exec i s) (uniSilent i) d v (uniMarks s i) := by
  unfold uniRule at h
  split at h <;> cases h
  · exact uniOp_result hq (eltAdd_i64 _ _ _)
  · exact uniOp_result hq (eltSub_i64 _ _ _)
  · exact uniOp_result hq (eltMul_i64 _ _ _)
  · exact uniOp_result hq (eltMulh_i64 _ _ _)
  · exact uniOp_result hq (eltSdiv_i64 _ _ _)
  · exact uniOp_result hq (eltSrem_i64 _ _ _)
  · exact uniOp_result hq (eltAnd_i64 _ _ _)
  · exact uniOp_result hq (eltOr_i64 _ _ _)
  · exact uniOp_result hq (eltXor_i64 _ _ _)
  · exact uniOp_result hq (eltShl_i64 _ _ _)
  · exact uniOp_result hq (eltSshr_i64 _ _ _)
  · exact uniOp_result hq (eltShr_i64 _ _ _)
  · exact uniOp_result hq (eltMin_i64 _ _ _)
  · exact uniOp_result hq (eltMax_i64 _ _ _)
  · exact uniSel_result hq _ _ _
  · exact uniOp_result hq rfl
  · exact uniOp_result hq (eltPopc_i64 _ _ _)
  · exact uniOp_result hq (eltClz_i64 _ _ _)
  · exact uniOp_result hq (eltSbfe_i64 _ _ _)
  · exact uniOp_result hq (eltBfi_i64 _ _ _)
  next a imm =>
    have hadd := eltAdd_i64 (s.uread 0 a.toNat) (imm.signExtend 64) 0
    rw [BitVec.toInt_signExtend_of_le (by decide)] at hadd
    exact uniOp_result hq hadd
  · exact uniOp_result hq rfl
  · exact uniOp_result hq (by rw [← append_low_word]; rfl)

/-- Everything that `scmp` does: it writes the flags of the comparison. -/
theorem uniCmp_result {s : State} (hq : Quiet s) (a b : BitVec 6) :
    ∃ t, (s.uniCmp a b).out = .next t ∧ UniOnly s t 0 true ∧
      CmpCodes 64 (s.uread 0 a.toNat).toNat (s.uread 1 b.toNat).toNat t.cur.flags := by
  refine ⟨_, guardAll_out hq rfl (List.forall_mem_nil _) (List.forall_mem_nil _), uniOnly_flwrite _ _, ?_⟩
  rw [advance_cur_flags]
  exact cmpCodes_spec (by decide) (s.uread 0 a.toNat).isLt (s.uread 1 b.toNat).isLt

/-- Settles O14: each operation's rule on 64 bits is what its element operation gives, and `scmp` writes flags alone. -/
theorem uniformResults : Obligations.UniformResults :=
  fun _ hq => ⟨fun _ _ _ h => uniRule_result hq h, uniCmp_result hq⟩

end Sys2Proof.Proofs
end

section
/-! PROOFS. f32 instructions, `fcmp` and the f32 moves (R310 to R316). -/

namespace Sys2Proof.Proofs

open Sys2Proof.Machine Sys2Proof.Safety Sys2Proof.Laws

/-! ### Sign and magnitude of a f32 lane -/

/-- The bits of a word put together from a magnitude of 31 bits and a sign. -/
theorem getLsbD_signMagnitude (n : Nat) (sign : Bool) {i : Nat} (hi : i < 32) :
    (BitVec.ofNat 32 (n % 2 ^ 31 + sign.toNat * 2 ^ 31)).getLsbD i = if i < 31 then n.testBit i else sign := by
  rw [BitVec.getLsbD_ofNat, Nat.add_comm, Nat.mul_comm, Nat.testBit_two_pow_mul_add _ (Nat.mod_lt _ (Nat.two_pow_pos 31)),
    decide_eq_true hi, Bool.true_and]
  by_cases h : i < 31
  · rw [if_pos h, if_pos h, Nat.testBit_mod_two_pow, decide_eq_true h, Bool.true_and]
  · have htop : i - 31 = 0 := by omega
    rw [if_neg h, if_neg h, htop]
    cases sign <;> rfl

theorem msb_toNat (x : W32) : x.msb.toNat = x.toNat / 2 ^ 31 := by
  have hx := x.isLt
  rw [BitVec.msb_eq_decide]
  by_cases h : 2 ^ 31 ≤ x.toNat
  · simp only [h, decide_true, Bool.toNat_true]
    omega
  · simp only [h, decide_false, Bool.toNat_false]
    omega

theorem getLsbD_signMask {i : Nat} (hi : i < 32) : (0x80000000 : W32).getLsbD i = decide (i = 31) := by
  revert i
  decide

theorem getLsbD_magnitudeMask {i : Nat} (hi : i < 32) : (0x7FFFFFFF : W32).getLsbD i = decide (i < 31) := by
  revert i
  decide

theorem ofNat_abs (x : W32) : BitVec.ofNat 32 (x.toNat % 2 ^ 31) = x &&& 0x7FFFFFFF := by
  refine BitVec.eq_of_getLsbD_eq fun i hi => ?_
  have h := getLsbD_signMagnitude x.toNat false hi
  rw [Bool.toNat_false, Nat.zero_mul, Nat.add_zero] at h
  rw [h, BitVec.getLsbD_and, getLsbD_magnitudeMask hi, BitVec.testBit_toNat]
  by_cases hlow : i < 31 <;> simp [hlow]

theorem ofNat_neg (x : W32) : BitVec.ofNat 32 ((x.toNat + 2 ^ 31) % 2 ^ 32) = x ^^^ 0x80000000 := by
  have hsign : (x.toNat + 2 ^ 31) % 2 ^ 32 = x.toNat % 2 ^ 31 + (!x.msb).toNat * 2 ^ 31 := by
    have hx := x.isLt
    have hmsb := msb_toNat x
    cases h : x.msb <;> simp [h] at hmsb ⊢ <;> omega
  refine BitVec.eq_of_getLsbD_eq fun i hi => ?_
  rw [hsign, getLsbD_signMagnitude _ _ hi, BitVec.getLsbD_xor, getLsbD_signMask hi, BitVec.testBit_toNat]
  by_cases hlow : i < 31
  · simp [hlow, hlow.ne]
  · obtain rfl : i = 31 := by omega
    simp [BitVec.msb_eq_getLsbD_last]

theorem ofNat_copysign (x y : W32) :
    BitVec.ofNat 32 (x.toNat % 2 ^ 31 + y.toNat / 2 ^ 31 * 2 ^ 31) = (x &&& 0x7FFFFFFF) ||| (y &&& 0x80000000) := by
  refine BitVec.eq_of_getLsbD_eq fun i hi => ?_
  rw [← msb_toNat, getLsbD_signMagnitude _ _ hi, BitVec.getLsbD_or, BitVec.getLsbD_and, BitVec.getLsbD_and,
    getLsbD_magnitudeMask hi, getLsbD_signMask hi, BitVec.testBit_toNat]
  by_cases hlow : i < 31
  · simp [hlow, hlow.ne]
  · obtain rfl : i = 31 := by omega
    simp [BitVec.msb_eq_getLsbD_last]

/-! ### The class word -/

theorem fraction_toNat (x : W32) : x.toNat % 2 ^ 23 = (x.extractLsb' 0 23).toNat := by
  rw [BitVec.extractLsb'_toNat]
  rfl

theorem exponent_toNat (x : W32) : x.toNat / 2 ^ 23 % 2 ^ 8 = (x.extractLsb' 23 8).toNat := by
  rw [BitVec.extractLsb'_toNat, Nat.shiftRight_eq_div_pow]

theorem sign_toNat (x : W32) : bitOf x.toNat 31 = x.msb := by
  rw [bitOf_toNat, BitVec.msb_eq_getLsbD_last]

/-- The value of a f32 lane from its sign, exponent and fraction fields (R151). -/
theorem decode_f32 (x : W32) : tyF32.decode x.toNat =
    if x.extractLsb' 23 8 = 255 then (if x.extractLsb' 0 23 = 0 then .inf x.msb else .nan x.msb)
    else if x.extractLsb' 23 8 = 0 then .fin x.msb (x.extractLsb' 0 23).toNat (-149)
    else .fin x.msb (2 ^ 23 + (x.extractLsb' 0 23).toNat) ((x.extractLsb' 23 8).toNat - 127 - 23) := by
  have hsign : bitOf x.toNat (8 + 23) = x.msb := sign_toNat x
  simp only [FloatTy.decode, tyF32, fraction_toNat, exponent_toNat, hsign, ← BitVec.toNat_inj]
  simp [-BitVec.extractLsb'_toNat]

theorem subnormal_f32 (x : W32) :
    tyF32.subnormal x.toNat = (decide (x.extractLsb' 23 8 = 0) && decide (x.extractLsb' 0 23 ≠ 0)) := by
  simp only [FloatTy.subnormal, tyF32, fraction_toNat, exponent_toNat, ne_eq, ← BitVec.toNat_inj]
  rfl

theorem classWord_toNat (x : W32) : classWord x.toNat = 2 ^ f32Class x := by
  unfold classWord f32Class
  rw [decode_f32, subnormal_f32, sign_toNat]
  generalize x.extractLsb' 23 8 = exponent, x.extractLsb' 0 23 = fraction
  have hfrac : fraction.toNat = 0 ↔ fraction = 0#23 := BitVec.toNat_inj (y := 0#23)
  by_cases htop : exponent = 255#8
  · by_cases hzero : fraction = 0#23 <;> cases x.msb <;> simp [htop, hzero]
  · by_cases hlow : exponent = 0#8
    · by_cases hzero : fraction = 0#23 <;> cases x.msb <;> simp [hlow, hzero, hfrac]
    · cases x.msb <;> simp [htop, hlow]

theorem ofNat_classWord (x : W32) : BitVec.ofNat 32 (classWord x.toNat) = 1#32 <<< f32Class x := by
  rw [classWord_toNat, ← BitVec.twoPow_eq]
  refine BitVec.eq_of_toNat_eq ?_
  rw [BitVec.toNat_ofNat, BitVec.toNat_twoPow]

/-! ### Instructions that round -/

theorem f32Codes_spec (bits : Nat) (c o : Bool) :
    let v := BitVec.ofNat 32 bits
    CodesAre (f32Codes bits c o) c (decide (v &&& 0x7FFFFFFF = 0)) v.msb o := by
  intro v
  have hz : decide (bits % 2 ^ 31 = 0) = decide (v &&& 0x7FFFFFFF = 0) := by
    rw [decide_eq_decide, ← ofNat_abs, ← BitVec.toNat_inj]
    simp only [v, BitVec.toNat_ofNat, BitVec.ofNat_eq_ofNat]
    omega
  have hn : bitOf bits 31 = v.msb := by
    rw [bitOf_eq_testBit, BitVec.msb_eq_getLsbD_last, BitVec.getLsbD_ofNat]
    rfl
  rw [← hz, ← hn]
  exact codesAre_codesOf _ _ _ _

/-- The value of a lane that was written. -/
theorem vget_written (s : State) (m : Mask) (d : BitVec 7) (codes : Bool) (f : Nat → Nat × Codes) {l : Nat}
    (hm : m.getLsbD l = true) :
    (s.putLanes m false d codes f).advance.cur.vget d.toNat l = BitVec.ofNat 32 (f l).1 := by
  rw [advance_vget, vget_putLanes _ _ _ _ _ _ _ _ (getLsbD_lt m l hm), if_pos hm, if_pos rfl]

/-- Each row of `f32Rule` is the exact result that the instruction hands to the one rounding, under rne for rsr. -/
theorem exec_of_f32Rule {s : State} {i : Instr} {d a : BitVec 7} {b : Src} {rd : Bool} {f : Nat → FVal → FVal → FVal → FVal}
    (hshape : f32Shape i = some (d, a, b)) (hrule : f32Rule i = some (rd, f)) :
    exec i s = (s.f32Op (f (noRsr (modeRnd s.mode))) rd d a b).out := by
  unfold f32Rule at hrule
  split at hrule <;> cases hrule <;> cases hshape <;> rfl

/-- The result and the codes of an instruction that rounds, when its checks pass. -/
theorem f32Op_result {s : State} {d a : BitVec 7} {b : Src} (f : FVal → FVal → FVal → FVal) (rd : Bool) (ht : s.ty = 0x0A)
    (hq : Quiet s) (hw : InWindow s (d.toNat :: a.toNat :: b.vregs false)) :
    ∃ t, (s.f32Op f rd d a b).out = .next t ∧ VecOnly s t [d.toNat] s.active s.ccw ∧ ∀ l, s.active.getLsbD l = true →
      let x := s.f32In (s.vread 0 a.toNat l).toNat
      let y := s.f32In (s.f32Src b l)
      let z := if rd then s.f32In (s.vread 2 d.toNat l).toNat else .fin false 0 0
      let r := tyF32.round (s.ctl tyF32) (f x y z)
      let v := t.cur.vget d.toNat l
      v = BitVec.ofNat 32 r.bits ∧
        (s.ccw = true → CodesAre (t.cur.ccget l) (x.isNan || y.isNan || z.isNan || r.nan)
          (decide (v &&& 0x7FFFFFFF = 0)) v.msb r.ovf) := by
  refine ⟨_, guardAll_out hq (decide_eq_true ht) hw (List.forall_mem_nil _), vecOnly_putLanes s s.active false d s.ccw _,
    fun l hl => ?_⟩
  dsimp only
  rw [vget_written _ _ _ _ _ hl]
  refine ⟨rfl, fun hccw => ?_⟩
  rw [advance_ccget, ccget_putLanes, if_pos ⟨hccw, hl⟩]
  exact f32Codes_spec _ _ _

/-! ### `fcmp` -/

theorem f32Cmp_result {s : State} {a b : BitVec 7} (ht : s.ty = 0x0A) (hq : Quiet s) (hw : InWindow s [a.toNat, b.toNat]) :
    ∃ t, (s.f32Cmp a b).out = .next t ∧ VecOnly s t [] s.active true ∧ ∀ l, s.active.getLsbD l = true →
      t.cur.ccget l = fcmpCodes (s.f32In (s.vread 0 a.toNat l).toNat) (s.f32In (s.vread 1 b.toNat l).toNat) := by
  refine ⟨_, guardAll_out hq (decide_eq_true ht) hw (List.forall_mem_nil _), vecOnly_putCodes _ _ _, fun l hl => ?_⟩
  rw [advance_ccget, ccget_putCodes, if_pos hl]

/-- The table of R315. -/
theorem fcmpCodes_spec (x y : FVal) :
    if x.isNan || y.isNan then CodesAre (fcmpCodes x y) true false false true
    else if x.lt y then CodesAre (fcmpCodes x y) false false true false
    else if y.lt x then CodesAre (fcmpCodes x y) true false false false
    else CodesAre (fcmpCodes x y) true true false false := by
  unfold fcmpCodes
  split_ifs <;> exact codesAre_codesOf _ _ _ _

/-! ### Moves -/

/-- The result of an instruction that copies or classifies bits, when its checks pass; a missing operand reads 0. -/
theorem f32Bits_result {s : State} {g : Nat → Nat → Nat} {d a : BitVec 7} {b : Option (BitVec 7)} {v : Nat → W32}
    (ht : s.ty = 0x0A) (hq : Quiet s) (hw : InWindow s (d.toNat :: a.toNat :: (b.map (·.toNat)).toList))
    (hv : ∀ l, BitVec.ofNat 32 (g (s.vread 0 a.toNat l).toNat (b.elim 0 fun r => (s.vread 1 r.toNat l).toNat)) = v l) :
    ∃ t, (s.f32Bits g d a b).out = .next t ∧ VecOnly s t [d.toNat] s.active false ∧
      ∀ l, s.active.getLsbD l = true → t.cur.vget d.toNat l = v l := by
  refine ⟨_, guardAll_out hq (decide_eq_true ht) hw (List.forall_mem_nil _), vecOnly_putLanes s s.active false d false _,
    fun l hl => ?_⟩
  rw [vget_written _ _ _ _ _ hl, ← hv l]
  cases b <;> rfl

/-- Each row of `f32Move` on words is what its instruction does on patterns. -/
theorem f32Move_result {s : State} {i : Instr} {d a b : BitVec 7} {f : W32 → W32 → W32} (hmove : f32Move i = some (d, a, b, f))
    (ht : s.ty = 0x0A) (hq : Quiet s) (hw : InWindow s [d.toNat, a.toNat, b.toNat]) :
    ∃ t, exec i s = .next t ∧ VecOnly s t [d.toNat] s.active false ∧ ∀ l, s.active.getLsbD l = true →
      t.cur.vget d.toNat l = f (s.vread 0 a.toNat l) (s.vread 1 b.toNat l) := by
  have hone : InWindow s [d.toNat, a.toNat] := fun r hr => hw r (List.mem_append_left [b.toNat] hr)
  unfold f32Move at hmove
  split at hmove <;> cases hmove
  · exact f32Bits_result ht hq hone fun _ => ofNat_abs _
  · exact f32Bits_result ht hq hone fun _ => ofNat_neg _
  · exact f32Bits_result (b := some b) ht hq hw fun _ => ofNat_copysign _ _
  · exact f32Bits_result ht hq hone fun _ => ofNat_classWord _

/-- Settles O7: each rule is the operation that the instruction hands to `f32Op`, `f32Cmp` or `f32Bits`, and these do on every
active lane what R310 to R316 say. -/
theorem floatResults : Obligations.FloatResults := by
  refine ⟨fun s i d a b rd f hshape hrule ht hq hw => ?_, fun s a b ht hq =>
    ⟨fun hw => ?_, fun i d a b f hmove hw => f32Move_result hmove ht hq hw⟩⟩
  · rw [exec_of_f32Rule hshape hrule]
    exact f32Op_result _ rd ht hq hw
  · obtain ⟨t, hout, honly, hcodes⟩ := f32Cmp_result ht hq hw
    refine ⟨t, hout, honly, fun l hl => ?_⟩
    rw [hcodes l hl]
    exact fcmpCodes_spec _ _

end Sys2Proof.Proofs
end

section
/-! PROOFS. Shuffles and `qswap`: the source lane of each lane, its value, and the codes (R329, R332). -/

namespace Sys2Proof.Proofs

open Sys2Proof.Machine Sys2Proof.Safety Sys2Proof.Laws

/-- Each row of `shuffleRule` is the source lane that the instruction hands to the one shuffle; `qswap` alone writes no codes. -/
theorem exec_of_shuffleRule {s : State} {i : Instr} {d a : BitVec 7} {extra : List Nat} {m : Nat → Option Nat}
    (h : shuffleRule s i = some (d, a, extra, m)) : exec i s = (s.shuffle d a extra (s.ccw && !isQswap i) m).out := by
  unfold shuffleRule at h
  split at h <;> cases h
  case h_5 =>
    simp only [isQswap, Bool.not_true, Bool.and_false, Nat.mul_comm _ 4]
    rfl
  all_goals
    simp only [isQswap, Bool.not_false, Bool.and_true]
    rfl

theorem evenRegs_single {c : Bool} {d : BitVec 7} (h : c = true → d.toNat % 2 = 0) : c = true → EvenRegs [d.toNat] :=
  fun hc => by simpa [EvenRegs] using h hc

theorem evenRegs_pair {c : Bool} {d a : BitVec 7} (h : c = true → d.toNat % 2 = 0 ∧ a.toNat % 2 = 0) :
    c = true → EvenRegs [d.toNat, a.toNat] := fun hc => by simpa [EvenRegs] using h hc

/-- R332: what a shuffle leaves in each active lane, when its checks pass. -/
theorem shuffle_result {s : State} {d a : BitVec 7} {extra : List Nat} (codes : Bool) (m : Nat → Option Nat) (hq : Quiet s)
    (hw : InWindow s (regs s.wideTy d ++ regs s.wideTy a ++ extra)) (he : s.wideTy = true → EvenRegs [d.toNat, a.toNat]) :
    ∃ t, (s.shuffle d a extra codes m).out = .next t ∧ VecOnly s t (regs s.wideTy d) s.active codes ∧
      ∀ l, s.active.getLsbD l = true →
        let x := s.vreg s.wideTy 0 a ((m l).getD l)
        laneVal t.cur s.wideTy d l = x ∧
          (codes = true → CodesAre (t.cur.ccget l) (m l).isNone (decide (x = 0)) (x.testBit (laneWidth s - 1)) false) := by
  refine ⟨_, guardAll_out hq rfl hw (evenRegs_ite he), vecOnly_putLanes _ _ _ _ _ _, fun l hl => ⟨?_, fun hcodes => ?_⟩⟩
  · exact laneVal_written _ _ _ _ _ _ _ hl (vreg_lt s _ _ _ _)
  · rw [advance_ccget, ccget_putLanes, if_pos ⟨hcodes, hl⟩, ← bitOf_eq_testBit]
    exact codesAre_codesOf _ _ _ _

/-- Settles O11: each instruction is the one shuffle over the source lanes that its rule names. -/
theorem shuffles : Obligations.Shuffles := by
  intro s i d a extra m hrule hq hw he
  obtain ⟨t, hout, honly, hlanes⟩ := shuffle_result (s.ccw && !isQswap i) m hq hw (evenRegs_pair he)
  refine ⟨t, (exec_of_shuffleRule hrule).trans hout, honly, fun l hl => ?_⟩
  obtain ⟨hval, hcodes⟩ := hlanes l hl
  exact ⟨hval, fun hccw hswap => hcodes (by rw [hccw, hswap]; rfl)⟩

end Sys2Proof.Proofs
end

section
/-! PROOFS. Loops and searches over the lanes of a mask. -/

namespace Sys2Proof.Proofs

open Sys2Proof.Machine Sys2Proof.Safety Sys2Proof.Laws

/-- A search over the lanes of a mask finds the lowest lane that meets the test. -/
theorem find?_lanesOf (m : Mask) (p : Nat → Bool) (k : Nat) :
    (lanesOf m).find? p = some k ↔
      m.getLsbD k = true ∧ p k = true ∧ ∀ j < k, m.getLsbD j = true → p j = false := by
  unfold lanesOf
  rw [List.find?_filter, List.find?_range_eq_some, List.mem_range]
  simp only [Bool.not_eq_true', decide_eq_true_eq, decide_eq_false_iff_not, not_and, Bool.not_eq_true]
  exact ⟨fun ⟨⟨hm, hp⟩, _, hlow⟩ => ⟨hm, hp, hlow⟩, fun ⟨hm, hp, hlow⟩ => ⟨⟨hm, hp⟩, getLsbD_lt m k hm, hlow⟩⟩

/-- A lane of a mask is its lowest one when no lane below it is in the mask. -/
theorem eq_lowLane_iff {m : Mask} {l : Nat} (hl : m.getLsbD l = true) :
    l = lowLane m ↔ ∀ k, k < l → m.getLsbD k = false := by
  have hlt := getLsbD_lt m l hl
  have hfind : (lanesOf m).find? (fun _ => true) = some l ↔ ∀ k, k < l → m.getLsbD k = false := by
    simp [find?_lanesOf, hl]
  rw [← hfind, lowLane, List.headD_eq_head?_getD]
  cases lanesOf m with
  | nil => simp; omega
  | cons x xs => simp [eq_comm]

/-- A loop over a mask that holds no lane but `i` makes at most that lane's pass. -/
theorem forLanes_single {σ : Type} {m : Mask} {i : Nat} (f : Nat → σ → σ) (s : σ) (hm : ∀ l, m.getLsbD l = true → l = i) :
    forLanes m f s = if m.getLsbD i then f i s else s := by
  have key : ∀ n, forN n (fun l s => if m.getLsbD l then f l s else s) s =
      if i < n ∧ m.getLsbD i = true then f i s else s := by
    intro n
    induction n with
    | zero => rfl
    | succ n ih =>
      rw [forN_succ, ih]
      by_cases hn : m.getLsbD n = true
      · obtain rfl := hm n hn
        simp [hn]
      · have hlt : (i < n + 1 ∧ m.getLsbD i = true) ↔ (i < n ∧ m.getLsbD i = true) :=
          and_congr_left fun hi => ⟨fun h => Nat.lt_of_le_of_ne (Nat.le_of_lt_succ h) fun e => hn (e ▸ hi), Nat.lt_succ_of_lt⟩
        simp only [hn, hlt, Bool.false_eq_true, if_false]
  unfold forLanes
  rw [key]
  by_cases hi : m.getLsbD i = true
  · simp [hi, getLsbD_lt m i hi]
  · simp [hi]

theorem getLsbD_and_lane (m : Mask) {i : Nat} (hi : i < 32) (l : Nat) :
    (m &&& (1#32 <<< i)).getLsbD l = (m.getLsbD l && decide (l = i)) := by
  rw [BitVec.getLsbD_and, ← BitVec.twoPow_eq, BitVec.getLsbD_twoPow]
  simp [hi, eq_comm]

end Sys2Proof.Proofs
end

section
/-! PROOFS. `vote`, `ballot`, `rdlane`, `wrlane`, `bcast`, `match`, `elect`, `lid` and `qid` (R334 to R337). -/

namespace Sys2Proof.Proofs

open Sys2Proof.Machine Sys2Proof.Safety Sys2Proof.Laws

/-! ### Uniform results -/

theorem laneIndex_ok {i : BitVec 7} (hi : i.toNat < 32) (s : State) (k : Res) : laneIndex i s k = k :=
  if_pos (decide_eq_true hi)

/-- The instruction completes with `u` when its checks pass and its lane index lies below GWIDTH (R330). -/
theorem guardLane_out {s u : State} {n : Named} {i : BitVec 7} (hi : i.toNat < 32) (hq : Quiet s) (hw : InWindow s n.vs)
    (he : EvenRegs n.evens) : (s.guardAll n true (laneIndex i s (.ok u))).out = .next u := by
  rw [laneIndex_ok hi]
  exact guardAll_out hq rfl hw he

/-- All values equal the first when they equal each other. -/
theorem all_eq_headD_map (on : List Nat) (v : Nat → Nat) :
    ((on.map v).all fun x => decide (x = (on.map v).headD x)) = on.all fun l => on.all fun k => decide (v l = v k) := by
  rw [Bool.eq_iff_iff, List.all_map]
  simp only [List.all_eq_true, decide_eq_true_eq, Function.comp_apply]
  cases on with
  | nil => simp
  | cons j js =>
    exact ⟨fun h l hl k hk => (h l hl).trans (h k hk).symm, fun h l hl => h l hl j List.mem_cons_self⟩

/-- What a vote over the lanes `on` with the values `v` comes to (R334). -/
def voteRule (m : BitVec 2) (on : List Nat) (v : Nat → Nat) : Bool :=
  if m = 0 then on.all fun l => decide (v l ≠ 0) else if m = 1 then on.any fun l => decide (v l ≠ 0)
  else on.all fun l => on.all fun k => decide (v l = v k)

/-- R334. -/
theorem vote_result {s : State} (d : BitVec 6) {a : BitVec 7} (m : BitVec 2) (hq : Quiet s)
    (hw : InWindow s (regs s.wideTy a)) (he : s.wideTy = true → a.toNat % 2 = 0) :
    ∃ t, exec (.vote d a m) s = .next t ∧ UniOnly s t d true ∧
      let r := voteRule m (lanesOf s.active) (s.vreg s.wideTy 0 a)
      (d ≠ 0 → t.cur.sget d.toNat = if r then 1 else 0) ∧ CodesAre t.cur.flags false (!r) false false := by
  have hrule : voteRule m (lanesOf s.active) (s.vreg s.wideTy 0 a) =
      let xs := (lanesOf s.active).map (s.vreg s.wideTy 0 a)
      if m = 0 then xs.all (· ≠ 0) else if m = 1 then xs.any (· ≠ 0) else xs.all fun x => x = xs.headD x := by
    dsimp only
    rw [all_eq_headD_map, List.all_map, List.any_map]
    rfl
  rw [hrule]
  refine ⟨_, guardAll_out hq rfl hw (evenRegs_ite (evenRegs_single he)), uniOnly_uniform s d _ (some _),
    sget_uniform_same s d _ _, ?_⟩
  rw [advance_cur_flags, flags_uniform]
  exact codesAre_codesOf _ _ _ _

/-- The active lanes that hold a nonzero value (R335). -/
def ballotMask (s : State) (a : BitVec 7) : Mask := maskOf fun l => s.active.getLsbD l && s.vreg s.wideTy 0 a l ≠ 0

theorem ballotMask_getLsbD (s : State) (a : BitVec 7) (l : Nat) :
    (ballotMask s a).getLsbD l = (s.active.getLsbD l && decide (s.vreg s.wideTy 0 a l ≠ 0)) := by
  rw [ballotMask, maskOf_getLsbD]
  cases hl : s.active.getLsbD l with
  | false => simp
  | true => simp [getLsbD_lt _ _ hl]

theorem ballotMask_eq_zero (s : State) (a : BitVec 7) :
    decide (ballotMask s a = 0) = (lanesOf s.active).all fun l => decide (s.vreg s.wideTy 0 a l = 0) := by
  rw [Bool.eq_iff_iff, decide_eq_true_eq, List.all_eq_true]
  constructor
  · intro h l hl
    have hbit := ballotMask_getLsbD s a l
    simpa [h, (mem_lanesOf _ _).mp hl] using hbit
  · intro h
    refine BitVec.eq_of_getLsbD_eq fun l _ => ?_
    rw [ballotMask_getLsbD]
    simpa [mem_lanesOf] using h l

/-- R335. -/
theorem ballot_result {s : State} (d : BitVec 6) {a : BitVec 7} (hq : Quiet s)
    (hw : InWindow s (regs s.wideTy a)) (he : s.wideTy = true → a.toNat % 2 = 0) :
    let v := s.vreg s.wideTy 0 a
    ∃ t, exec (.ballot d a) s = .next t ∧ UniOnly s t d s.ccw ∧
      (d ≠ 0 → ∀ l, (t.cur.sget d.toNat).getLsbD l = (s.active.getLsbD l && decide (v l ≠ 0))) ∧
      (s.ccw = true → CodesAre t.cur.flags false ((lanesOf s.active).all fun l => decide (v l = 0)) false false) := by
  have hout : exec (.ballot d a) s = .next (s.uniform d ((ballotMask s a).setWidth 64)
      (if s.ccw then some (zFlag (ballotMask s a = 0)) else none)).advance :=
    guardAll_out hq rfl hw (evenRegs_ite (evenRegs_single he))
  refine ⟨_, hout, ?_, fun hd l => ?_, fun hccw => ?_⟩
  · have huni := uniOnly_uniform s d ((ballotMask s a).setWidth 64)
      (if s.ccw then some (zFlag (ballotMask s a = 0)) else none)
    cases hccw : s.ccw <;> simpa [hccw] using huni
  · rw [sget_uniform_same s d _ _ hd, ← ballotMask_getLsbD, BitVec.getLsbD_setWidth]
    cases hl : (ballotMask s a).getLsbD l with
    | false => simp
    | true => simp [(getLsbD_lt _ _ hl).trans (by decide : 32 < 64)]
  · rw [advance_cur_flags, flags_uniform, if_pos hccw, ← ballotMask_eq_zero]
    exact codesAre_codesOf _ _ _ _

/-- R336: `rdlane` reads any lane. -/
theorem rdlane_result {s : State} (d : BitVec 6) {a i : BitVec 7} (hi : i.toNat < 32) (hq : Quiet s)
    (hw : InWindow s (regs s.wideTy a)) (he : s.wideTy = true → a.toNat % 2 = 0) :
    ∃ t, exec (.rdlane d a i) s = .next t ∧ UniOnly s t d false ∧
      (d ≠ 0 → t.cur.sget d.toNat = BitVec.ofNat 64 (s.vreg s.wideTy 0 a i.toNat)) :=
  ⟨_, guardLane_out hi hq hw (evenRegs_ite (evenRegs_single he)), uniOnly_uniform s d _ none, sget_uniform_same s d _ none⟩

/-! ### Vector results -/

/-- R336: `wrlane` writes its lane when that lane is active. -/
theorem wrlane_result {s : State} {d : BitVec 7} (a : BitVec 6) {i : BitVec 7} (hi : i.toNat < 32) (hq : Quiet s)
    (hw : InWindow s (regs s.wideTy d)) (he : s.wideTy = true → d.toNat % 2 = 0) :
    ∃ t, exec (.wrlane d a i) s = .next t ∧ VecOnly s t (regs s.wideTy d) (s.active &&& (1#32 <<< i.toNat)) false ∧
      (s.active.getLsbD i.toNat = true →
        laneVal t.cur s.wideTy d i.toNat = (s.uread 0 a.toNat).toNat % 2 ^ laneWidth s) := by
  have hlane := getLsbD_and_lane s.active hi
  have hone : ∀ l, (s.active &&& (1#32 <<< i.toNat)).getLsbD l = true → l = i.toNat := fun l hl => by
    rw [hlane, Bool.and_eq_true, decide_eq_true_eq] at hl
    exact hl.2
  have hput : s.putLanes (s.active &&& (1#32 <<< i.toNat)) s.wideTy d false (fun _ => ((s.uread 0 a.toNat).toNat, 0)) =
      if s.active.getLsbD i.toNat then s.putLane s.wideTy d i.toNat (s.uread 0 a.toNat).toNat else s := by
    unfold State.putLanes
    rw [forLanes_single _ _ hone, hlane, decide_eq_true rfl, Bool.and_true]
    rfl
  have hout : exec (.wrlane d a i) s = .next (s.putLanes (s.active &&& (1#32 <<< i.toNat)) s.wideTy d false
      fun _ => ((s.uread 0 a.toNat).toNat, 0)).advance := by
    rw [hput]
    exact guardLane_out hi hq hw (evenRegs_ite (evenRegs_single he))
  refine ⟨_, hout, vecOnly_putLanes _ _ _ _ _ _, fun hon => ?_⟩
  rw [laneVal_advance]
  exact laneVal_putLanes _ _ _ _ _ _ _ hi (by rw [hlane, hon, decide_eq_true rfl, Bool.and_true])

/-- R336: `bcast` gives each active lane one lane's value. -/
theorem bcast_result {s : State} {d a i : BitVec 7} (hi : i.toNat < 32) (hq : Quiet s)
    (hw : InWindow s (regs s.wideTy d ++ regs s.wideTy a)) (he : s.wideTy = true → d.toNat % 2 = 0 ∧ a.toNat % 2 = 0) :
    ∃ t, exec (.bcast d a i) s = .next t ∧ VecOnly s t (regs s.wideTy d) s.active false ∧
      ∀ l, s.active.getLsbD l = true → laneVal t.cur s.wideTy d l = s.vreg s.wideTy 0 a i.toNat := by
  refine ⟨_, guardLane_out hi hq hw (evenRegs_ite (evenRegs_pair he)), vecOnly_putLanes _ _ _ _ _ _, fun l hl => ?_⟩
  exact laneVal_written _ _ _ _ _ _ _ hl (vreg_lt s _ _ _ _)

/-- The lowest active lane that holds lane `l`'s value, as `match` looks for it (R337). -/
def leader (s : State) (a : BitVec 7) (l : Nat) : Nat :=
  ((lanesOf s.active).find? fun m => s.vreg s.wideTy 0 a m = s.vreg s.wideTy 0 a l).getD l

/-- A leader is active, holds the lane's value, and no active lane below it does. -/
theorem leader_spec {s : State} (a : BitVec 7) {l : Nat} (hl : s.active.getLsbD l = true) :
    s.active.getLsbD (leader s a l) = true ∧ s.vreg s.wideTy 0 a (leader s a l) = s.vreg s.wideTy 0 a l ∧
      ∀ k, k < leader s a l → s.active.getLsbD k = true → s.vreg s.wideTy 0 a k ≠ s.vreg s.wideTy 0 a l := by
  have hsome : ((lanesOf s.active).find? fun m => s.vreg s.wideTy 0 a m = s.vreg s.wideTy 0 a l).isSome = true :=
    List.find?_isSome.mpr ⟨l, (mem_lanesOf _ _).mpr hl, decide_eq_true rfl⟩
  obtain ⟨m, hm⟩ := Option.isSome_iff_exists.mp hsome
  have hleader : leader s a l = m := by rw [leader, hm]; rfl
  rw [hleader]
  simpa [find?_lanesOf] using hm

/-- R337. -/
theorem matchLane_result {s : State} {d a : BitVec 7} (hq : Quiet s)
    (hw : InWindow s (regs s.wideTy d ++ regs s.wideTy a)) (he : s.wideTy = true → d.toNat % 2 = 0 ∧ a.toNat % 2 = 0) :
    ∃ t, exec (.matchLane d a) s = .next t ∧ VecOnly s t (regs s.wideTy d) s.active s.ccw ∧
      ∀ l, s.active.getLsbD l = true → laneVal t.cur s.wideTy d l = leader s a l ∧
        (s.ccw = true → CodesAre (t.cur.ccget l) false (decide (leader s a l = l)) false false) := by
  refine ⟨_, guardAll_out hq rfl hw (evenRegs_ite (evenRegs_pair he)),
    vecOnly_putLanes s _ s.wideTy d s.ccw fun l => (leader s a l, zFlag (leader s a l = l)), fun l hl => ⟨?_, fun hccw => ?_⟩⟩
  · have hlt := getLsbD_lt _ _ (leader_spec a hl).1
    exact laneVal_written _ _ _ _ _ _ _ hl (hlt.trans_le (by split <;> decide))
  · rw [advance_ccget, ccget_putLanes, if_pos ⟨hccw, hl⟩]
    exact codesAre_codesOf _ _ _ _

/-- What `elect`, `lid` and `qid` share: each active lane receives its mark. -/
theorem laneMark_result {s : State} {d : BitVec 7} (codes : Bool) (f : Nat → Nat) (hq : Quiet s) (hw : InWindow s [d.toNat]) :
    ∃ t, (s.laneMark d codes f).out = .next t ∧ VecOnly s t [d.toNat] s.active codes ∧
      ∀ l, s.active.getLsbD l = true → t.cur.vget d.toNat l = BitVec.ofNat 32 (f l) :=
  ⟨_, guardAll_out hq rfl hw (List.forall_mem_nil _), vecOnly_putLanes s s.active false d codes _,
    fun _ hl => vget_written s s.active d codes _ hl⟩

/-- R337. -/
theorem elect_result {s : State} {d : BitVec 7} (hq : Quiet s) (hw : InWindow s [d.toNat]) :
    ∃ t, exec (.elect d) s = .next t ∧ VecOnly s t [d.toNat] s.active s.ccw ∧
      ∀ l, s.active.getLsbD l = true →
        t.cur.vget d.toNat l = if ∀ k, k < l → s.active.getLsbD k = false then 1 else 0 := by
  obtain ⟨t, hout, honly, hlanes⟩ :=
    laneMark_result s.ccw (fun l => if l = lowLane s.active then 1 else 0) hq hw
  refine ⟨t, hout, honly, fun l hl => ?_⟩
  rw [hlanes l hl]
  simp only [eq_lowLane_iff hl]
  split <;> rfl

/-- Settles O13: each instruction writes the value of its rule, found over the active lanes, and nothing else. -/
theorem crossLane : Obligations.CrossLane := by
  refine ⟨fun s d a hq hw he => ⟨fun m _ => vote_result d m hq hw he, ballot_result d hq hw he,
    fun i hi => rdlane_result d hi hq hw he⟩, fun s d hq hw he => ?_⟩
  have hd : InWindow s [d.toNat] := fun r hr => hw r ((mem_regs _ _ _).mpr (.inl (List.mem_singleton.mp hr)))
  have hboth : ∀ {a : BitVec 7}, InWindow s (regs s.wideTy a) → InWindow s (regs s.wideTy d ++ regs s.wideTy a) :=
    fun ha => List.forall_mem_append.mpr ⟨hw, ha⟩
  refine ⟨fun a i hi => wrlane_result a hi hq hw he,
    fun a i hi ha hae => bcast_result hi hq (hboth ha) fun h => ⟨he h, hae h⟩, fun a ha hae => ?_,
    elect_result hq hd, laneMark_result false _ hq hd, laneMark_result false _ hq hd⟩
  obtain ⟨t, hout, honly, hlanes⟩ := matchLane_result hq (hboth ha) fun h => ⟨he h, hae h⟩
  refine ⟨t, hout, honly, fun l hl => ?_⟩
  obtain ⟨hval, hcodes⟩ := hlanes l hl
  obtain ⟨hactive, hsame, hlowest⟩ := leader_spec a hl
  rw [hval]
  exact ⟨hactive, hsame, hlowest, hcodes⟩

end Sys2Proof.Proofs
end
